-- ==== Sys2Proof/Word.lean ====
section
/-! DEFINITION. The words of the JQ4: bytes, 32-bit register words, 64-bit words, lane masks (R12, R15, R131). -/

namespace Sys2Proof

/-- A byte of memory. -/
abbrev Byte := BitVec 8

/-- A V or S register's word, and the mask type of the 32 lanes (bit l is lane l, R13). -/
abbrev Word32 := BitVec 32

/-- A W or T pair, an address, an instruction word or a device register. -/
abbrev Word64 := BitVec 64

/-- A set of lanes of one warp: bit l is lane l (R13). -/
abbrev Lanes := BitVec 32

/-- All 32 lanes. -/
def allLanes : Lanes := 0xFFFFFFFF#32

/-- The pair rule of R131: the even register holds bits 31:0. -/
def pairWord (lo hi : Word32) : Word64 := hi ++ lo

/-- Bits 31:0 of a pair. -/
def loWord (w : Word64) : Word32 := w.extractLsb' 0 32

/-- Bits 63:32 of a pair. -/
def hiWord (w : Word64) : Word32 := w.extractLsb' 32 32

end Sys2Proof
end

