-- ==== Sys2Proof/Syntax.lean ====
section
/-! DEFINITION. The instruction set: operand notation, modifiers and Instr, one constructor per row of
spec/opcode_table.json. The first 175 rows are forms of ISA words (R89); the others are the device's own
steps and the outside world's events (95_what_each_step_holds.md), which have no encoding. -/

namespace Sys2Proof

/-- The guard of R78: predicate index and negation. -/
structure Guard where
  p : Fin 8
  neg : Bool
  deriving DecidableEq, Repr

/-- The operand types of the TY table (R80). -/
inductive Ty where
  | b32 | i32 | n32 | i64 | n64 | f32 | f64 | bf16x2 | f16x2 | i16x2 | n16x2 | i8x4 | n8x4
  deriving DecidableEq, Repr

/-- A source operand: the four kinds of R82. -/
inductive Src where
  | v (n : Fin 256)
  | s (n : Fin 64)
  | imm (i : BitVec 8)
  | lit (w : BitVec 64)
  deriving DecidableEq, Repr

/-- A destination: DK 00, 01 and 10 (R80, R84). -/
inductive Dst where
  | v (n : Fin 256)
  | s (n : Fin 64)
  | p (n : Fin 8)
  deriving DecidableEq, Repr

/-- RND of R81. -/
inductive Rnd where
  | rne | rtz | rup | rdn
  deriving DecidableEq, Repr

/-- The MOD layout of rounding instructions with XMOD zero (R81). -/
structure FMod where
  rnd : Rnd
  ftz : Bool
  deriving DecidableEq, Repr

/-- ISET's conditions (R163). -/
inductive ICond where
  | eq | ne | lt | le | gt | ge
  deriving DecidableEq, Repr

/-- FSET's conditions (R164). -/
inductive FCond where
  | eq | ne | lt | le | gt | ge | num | nan | equ | neu | ltu | leu | gtu | geu
  deriving DecidableEq, Repr

/-- The combine codes of R163. -/
inductive Combine where
  | none | and | or | xor
  deriving DecidableEq, Repr

/-- VOTE's operations (R124). -/
inductive VoteOp where
  | any | all | uni | ballot
  deriving DecidableEq, Repr

/-- SHFL's modes (R126). -/
inductive ShflMode where
  | idx | up | down | xor
  deriving DecidableEq, Repr

/-- REDUX's operations (R127). -/
inductive ReduxOp where
  | add | min | max | and | or | xor
  deriving DecidableEq, Repr

/-- The SB formats of R140. -/
inductive SbFmt where
  | sb2 | sb4 | sb7
  deriving DecidableEq, Repr

/-- BRA's modes (R112). -/
inductive BraMode where
  | uni | any | all | none | div
  deriving DecidableEq, Repr

/-- SZ of the M format (R86). -/
inductive MSize where
  | b8 | b16 | b32 | b64 | b128 | i8 | i16 | f32 | bf16x2 | f16x2 | i32 | i64 | f64
  deriving DecidableEq, Repr

/-- The scopes of R329. -/
inductive Scope where
  | none | warp | block | cluster | die | device | domain | system
  deriving DecidableEq, Repr

/-- ORD of the M format (R86). -/
inductive Order where
  | rlx | acq | rel | ar
  deriving DecidableEq, Repr

/-- CH of the M format (R256). -/
inductive Cache where
  | dflt | stream | keep | nol1
  deriving DecidableEq, Repr

/-- The address base of the M format: KA 0 or 1 (R86). -/
inductive Base where
  | v (n : Fin 256)
  | s (n : Fin 64)
  deriving DecidableEq, Repr

/-- A memory operand with a signed byte offset (R39, R86). -/
structure MAddr where
  base : Base
  off : BitVec 16
  deriving DecidableEq, Repr

/-- A memory operand with a signed word offset: ATOM, RED, CAS and LDG (R39, R86). -/
structure WAddr where
  base : Base
  woff : BitVec 11
  deriving DecidableEq, Repr

/-- The atomic operations of R260. -/
inductive AtomOp where
  | add | min | max | and | or | xor | exch | inc | dec
  deriving DecidableEq, Repr

/-- The group-load operations of R264. -/
inductive LdgOp where
  | add | min | max | and | or | xor
  deriving DecidableEq, Repr

/-- The barrier levels of R349 and R362. -/
inductive BarLvl where
  | block | cluster | die | grid
  deriving DecidableEq, Repr

/-- A barrier operand (R362). -/
structure Bar where
  lvl : BarLvl
  idx : Fin 16
  deriving DecidableEq, Repr

/-- The reuse classes of R32. -/
inductive Reuse where
  | none | low | high | streaming
  deriving DecidableEq, Repr

/-- What a translated access of a core carries (R195): the core, its address space, the generation of the TLB entry that served
it, and the virtual address, by which the core translates again. -/
structure HomeTag where
  core : Nat
  asid : Nat
  gen : Nat
  va : Nat
  deriving DecidableEq, Repr

/-- A request for a line: a read or a write, under a core's tag or under none. -/
structure LineRequest where
  write : Bool
  tag : Option HomeTag
  deriving DecidableEq, Repr

/-- What a peer package asks of this one (R237). -/
inductive PeerOp where
  | read (n : Nat)
  | write (data : List (BitVec 8))
  | atomic (op : AtomOp) (sz : MSize) (x : BitVec 64)
  | cas (sz : MSize) (expect new : BitVec 64)
  | lease
  deriving DecidableEq, Repr

/-- A key-value operation on its way to a home slice (R215). -/
inductive KvOp where
  | find (key : BitVec 64)
  | put (key : BitVec 64) (pin : Bool)
  | drop (key : BitVec 64)
  | dropTensor (tensor : Nat)
  deriving DecidableEq, Repr

/-- A quadrant's measured powers of the epoch just ended, as R428 uses them: for each of its four
islands the power in W at the points the bid compares. -/
structure IslandMeasure where
  island : Nat
  /-- measured power at the point in force, in W -/
  watts : Nat
  /-- the cores of the island that had a ready warp in at least half the epoch's cycles -/
  ready : Nat
  deriving DecidableEq, Repr

/-- What the environment measured in the epoch just ended (R428, R429, R438). -/
structure EpochMeasure where
  islands : List IslandMeasure
  /-- non-core power: HBM, store, network, controller, in W -/
  nonCore : Nat
  /-- filler power committed under R437, in W -/
  filler : Nat
  /-- current that each context slot has withdrawn by departing (R437) -/
  departed : List (Nat × Nat)
  /-- energy of each core, in microjoules (R438) -/
  cores : List (Nat × Nat)
  /-- energy of cards in the matrix engines, by the context slot that issued them -/
  cards : List (Nat × Nat)
  /-- energy of HBM and store, by the ASID that requested it -/
  requests : List (Nat × Nat)
  /-- energy of everything else -/
  other : Nat
  /-- package energy of the epoch, in microjoules -/
  total : Nat
  deriving DecidableEq, Repr

/-- What is measured at a sample of the fast throttle (R433): the package's power and that of islands, in W. -/
structure PowerSample where
  package : Nat
  islands : List (Nat × Nat)
  deriving DecidableEq, Repr

/-- One constructor per row of spec/opcode_table.json. -/
inductive Instr where
  -- Control (R107 to R122)
  | nop (g : Guard)
  | yield (g : Guard)
  | exit (g : Guard)
  | brk (g : Guard) (imm : BitVec 16)
  | bra (g : Guard) (mode : BraMode) (tgt : BitVec 32)
  | brx (g : Guard) (div : Bool) (reg : Fin 256)
  | call (g : Guard) (tgt : BitVec 32)
  | callv (g : Guard) (div : Bool) (reg : Fin 256)
  | ret (g : Guard)
  | dispatch (g : Guard) (reg aux : Fin 256) (pd : Fin 8)
  | role (g : Guard) (pd : Fin 8) (sb : Fin 64) (r : Fin 8)
  | launch (g : Guard) (ser : Bool) (pd : Fin 8) (sa sb : Fin 64)
  | trap (g : Guard) (imm : BitVec 16)
  | wsync (g : Guard) (pd : Fin 8) (sa : Fin 64)
  -- Integer (R153)
  | add (g : Guard) (ty : Ty) (sat : Bool) (d : Dst) (a b : Src)
  | sub (g : Guard) (ty : Ty) (sat : Bool) (d : Dst) (a b : Src)
  | addc (g : Guard) (ty : Ty) (d : Dst) (a b : Src) (pc : Fin 8)
  | subb (g : Guard) (ty : Ty) (d : Dst) (a b : Src) (pc : Fin 8)
  | mul (g : Guard) (ty : Ty) (d : Dst) (a b : Src)
  | mulhi (g : Guard) (ty : Ty) (d : Dst) (a b : Src)
  | mad (g : Guard) (ty : Ty) (d : Dst) (a b c : Src)
  | madw (g : Guard) (ty : Ty) (d : Dst) (a b c : Src)
  | min (g : Guard) (ty : Ty) (d : Dst) (a b : Src)
  | max (g : Guard) (ty : Ty) (d : Dst) (a b : Src)
  | abs (g : Guard) (ty : Ty) (sat : Bool) (d : Dst) (a : Src)
  | neg (g : Guard) (ty : Ty) (sat : Bool) (d : Dst) (a : Src)
  | and (g : Guard) (ty : Ty) (d : Dst) (a b : Src)
  | or (g : Guard) (ty : Ty) (d : Dst) (a b : Src)
  | xor (g : Guard) (ty : Ty) (d : Dst) (a b : Src)
  | not (g : Guard) (ty : Ty) (d : Dst) (a : Src)
  | shl (g : Guard) (ty : Ty) (d : Dst) (a b : Src)
  | shr (g : Guard) (ty : Ty) (d : Dst) (a b : Src)
  | sar (g : Guard) (ty : Ty) (d : Dst) (a b : Src)
  | rot (g : Guard) (ty : Ty) (right : Bool) (d : Dst) (a b : Src)
  | bfe (g : Guard) (ty : Ty) (d : Dst) (a b : Src)
  | bfi (g : Guard) (ty : Ty) (d : Dst) (a b c : Src)
  | popc (g : Guard) (ty : Ty) (d : Dst) (a : Src)
  | clz (g : Guard) (ty : Ty) (d : Dst) (a : Src)
  | brev (g : Guard) (ty : Ty) (d : Dst) (a : Src)
  | prmt (g : Guard) (d : Dst) (a b c : Src)
  | sad (g : Guard) (ty : Ty) (d : Dst) (a b c : Src)
  | lea (g : Guard) (sx : Bool) (sh : Fin 8) (d : Dst) (a b : Src)
  | idiv (g : Guard) (ty : Ty) (d : Dst) (a b : Src)
  | irem (g : Guard) (ty : Ty) (d : Dst) (a b : Src)
  | lop3 (g : Guard) (ty : Ty) (f : BitVec 8) (d : Dst) (a b c : Src)
  -- Compare, select and classify (R163), predicates (R130)
  | iset (g : Guard) (ty : Ty) (cond : ICond) (comb : Combine) (d : Dst) (a b : Src) (pc : Fin 8)
  | fset (g : Guard) (ty : Ty) (cond : FCond) (comb : Combine) (d : Dst) (a b : Src) (pc : Fin 8)
  | sel (g : Guard) (ty : Ty) (d : Dst) (a b : Src) (pc : Fin 8)
  | plop (g : Guard) (pd pa pb pc : Fin 8) (f : BitVec 8)
  | fclassPred (g : Guard) (ty : Ty) (pd : Fin 8) (a mask : Src)
  | fclassMask (g : Guard) (ty : Ty) (d : Dst) (a : Src)
  | vote (g : Guard) (op : VoteOp) (neg : Bool) (d : Dst) (pa : Fin 8)
  | matchLanes (g : Guard) (ty : Ty) (all : Bool) (d : Dst) (a : Fin 256)
  | pmovPack (g : Guard) (d : Dst)
  | pmovUnpack (g : Guard) (a : Src)
  -- Floating point (R166)
  | fadd (g : Guard) (ty : Ty) (m : FMod) (d : Dst) (a b : Src)
  | fsub (g : Guard) (ty : Ty) (m : FMod) (d : Dst) (a b : Src)
  | fmul (g : Guard) (ty : Ty) (m : FMod) (d : Dst) (a b : Src)
  | ffma (g : Guard) (ty : Ty) (m : FMod) (d : Dst) (a b c : Src)
  | fmin (g : Guard) (ty : Ty) (d : Dst) (a b : Src)
  | fmax (g : Guard) (ty : Ty) (d : Dst) (a b : Src)
  | frcp (g : Guard) (ty : Ty) (m : FMod) (d : Dst) (a : Src)
  | frsq (g : Guard) (ty : Ty) (m : FMod) (d : Dst) (a : Src)
  | fsqrt (g : Guard) (ty : Ty) (m : FMod) (d : Dst) (a : Src)
  | fdiv (g : Guard) (ty : Ty) (m : FMod) (d : Dst) (a b : Src)
  | fexp2 (g : Guard) (ty : Ty) (m : FMod) (d : Dst) (a : Src)
  | flog2 (g : Guard) (ty : Ty) (m : FMod) (d : Dst) (a : Src)
  | fsin (g : Guard) (ty : Ty) (m : FMod) (d : Dst) (a : Src)
  | fcos (g : Guard) (ty : Ty) (m : FMod) (d : Dst) (a : Src)
  | ftanh (g : Guard) (ty : Ty) (m : FMod) (d : Dst) (a : Src)
  | fdot2 (g : Guard) (ty : Ty) (m : FMod) (d : Dst) (a b c : Src)
  | frnd (g : Guard) (ty : Ty) (m : FMod) (d : Dst) (a : Src)
  | fscale (g : Guard) (ty : Ty) (m : FMod) (d : Dst) (a b : Src)
  | fgetx (g : Guard) (ty : Ty) (d : Dst) (a : Src)
  | fgetm (g : Guard) (ty : Ty) (d : Dst) (a : Src)
  -- Conversions and the generator (R174 to R179)
  | cvt (g : Guard) (ty sty : Ty) (m : FMod) (d : Dst) (a b : Src)
  | sbpack (g : Guard) (ty : Ty) (fmt : SbFmt) (dense len32 : Bool) (d : Dst) (a : Src)
  | sbunpk (g : Guard) (fmt : SbFmt) (d : Dst) (a : Fin 256) (b c : Src)
  | sbscl (g : Guard) (ty : Ty) (fmt : SbFmt) (d : Dst) (a b c : Src)
  | rng (g : Guard) (ty : Ty) (d : Dst) (a b c : Src)
  -- Movement (R123 to R129)
  | mov (g : Guard) (ty : Ty) (d : Dst) (a : Src)
  | movl (g : Guard) (d a : Fin 256)
  | shfl (g : Guard) (ty : Ty) (mode : ShflMode) (seg : Fin 6) (d a : Fin 256) (b : Src)
  | bcast (g : Guard) (ty : Ty) (d : Dst) (a : Fin 256) (b : Src)
  | redux (g : Guard) (ty : Ty) (op : ReduxOp) (m : FMod) (d : Dst) (a : Fin 256)
  | gets (g : Guard) (ty : Ty) (d : Dst) (code : BitVec 8)
  | sets (g : Guard) (ty : Ty) (code : BitVec 8) (a : Src)
  -- Memory (R253)
  | ld (g : Guard) (sz : MSize) (sco : Scope) (ord : Order) (ch : Cache) (d : Fin 256) (m : MAddr)
  | st (g : Guard) (sz : MSize) (sco : Scope) (ord : Order) (ch : Cache) (d : Fin 256) (m : MAddr)
  | lds (g : Guard) (sz : MSize) (sco : Scope) (ord : Order) (ch : Cache) (d : Fin 64) (m : MAddr)
  | sts (g : Guard) (sz : MSize) (sco : Scope) (ord : Order) (ch : Cache) (d : Fin 64) (m : MAddr)
  | ldg (g : Guard) (op : LdgOp) (sz : MSize) (width : Fin 3) (sco : Scope) (ord : Order) (d : Fin 256) (m : WAddr)
  | atom (g : Guard) (op : AtomOp) (sz : MSize) (sco : Scope) (ord : Order) (d : Fin 256) (m : WAddr) (x : Fin 256)
  | red (g : Guard) (op : AtomOp) (sz : MSize) (sco : Scope) (ord : Order) (m : WAddr) (x : Fin 256)
  | cas (g : Guard) (sz : MSize) (sco : Scope) (ord : Order) (d : Fin 256) (m : WAddr) (x : Fin 256)
  | fence (g : Guard) (sco : Scope) (ord : Order)
  | pref (g : Guard) (ch : Cache) (m : MAddr)
  | cwb (g : Guard) (rel : Bool) (m : MAddr)
  | cinv (g : Guard) (acq : Bool) (m : MAddr)
  | waitne (g : Guard) (sz : MSize) (sco : Scope) (ord : Order) (d : Fin 256) (m : MAddr) (x : Fin 256)
  | waitneRecheck (w : Nat) (e : Fin 4)
  -- Residency, key-value and accumulator tiles (R272 to R276)
  | resideClass (g : Guard) (sd sa sb : Fin 64) (cls : Reuse) (report ntreq : Bool)
  | residePin (g : Guard) (sd sa sb : Fin 64)
  | resideUnpin (g : Guard) (sd sa sb : Fin 64)
  | resideTprio (g : Guard) (sd sa : Fin 64) (cls : Fin 8)
  | resideClose (g : Guard) (sd sa sb : Fin 64)
  | kvfind (g : Guard) (sd sa : Fin 64)
  | kvput (g : Guard) (pin : Bool) (sd sa sc : Fin 64)
  | kvdrop (g : Guard) (sd sa : Fin 64)
  | kvdropTensor (g : Guard) (sd sa : Fin 64)
  | acgrow (g : Guard) (sd : Fin 64) (n : BitVec 16)
  | acfree (g : Guard) (sd : Fin 64) (n : BitVec 16)
  -- Cards and batches (R277, R290)
  | cpy (g : Guard) (sd sa : Fin 64)
  | cpym (g : Guard) (sd sa : Fin 64)
  | cpysc (g : Guard) (sd sa : Fin 64)
  | xpose (g : Guard) (sd sa : Fin 64)
  | sred (g : Guard) (sd sa : Fin 64)
  | afence (g : Guard) (sd : Fin 64)
  | awaitBatch (g : Guard) (sa : Fin 64)
  | awaitAll (g : Guard)
  | atest (g : Guard) (pd : Fin 8) (sa : Fin 64)
  | atestAll (g : Guard) (pd : Fin 8)
  -- Matrix (R309)
  | marr (g : Guard) (sd : Fin 64) (lg : Fin 4)
  | bload (g : Guard) (sd sa sb : Fin 64)
  | minit (g : Guard) (sd sa : Fin 64)
  | mma (g : Guard) (sd sa sb : Fin 64)
  | mmasp (g : Guard) (sel : Fin 5) (sd sa sb : Fin 64) (vc : Fin 256)
  | mdrain (g : Guard) (sd sa sb sc : Fin 64)
  | mread (g : Guard) (d : Fin 256) (sa : Fin 64)
  | mreadAnc (g : Guard) (d : Fin 256) (sa : Fin 64)
  | mwrite (g : Guard) (sa : Fin 64) (b : Fin 256)
  | mwriteAnc (g : Guard) (sa : Fin 64) (b : Fin 256)
  -- Barriers (R363)
  | bara (g : Guard) (pd : Fin 8) (sc : Fin 64) (bar : Bar)
  | barw (g : Guard) (pd : Fin 8) (sc : Fin 64) (bar : Bar)
  | barsRoot (g : Guard) (sd : Fin 64) (bar : Bar)
  | barsOwn (g : Guard) (sd : Fin 64) (bar : Bar)
  | barqRoot (g : Guard) (sd : Fin 64) (bar : Bar)
  | barqMem (g : Guard) (sd : Fin 64) (bar : Bar)
  | barqArr (g : Guard) (sd : Fin 64) (bar : Bar)
  | barqEarly (g : Guard) (sd : Fin 64) (bar : Bar)
  | barqWait (g : Guard) (sd : Fin 64) (bar : Bar)
  | barsetRoot (g : Guard) (sa : Fin 64) (bar : Bar)
  | barsetMem (g : Guard) (sa : Fin 64) (bar : Bar)
  | barsetArr (g : Guard) (sa : Fin 64) (bar : Bar)
  | barsetEarly (g : Guard) (sa : Fin 64) (bar : Bar)
  | barsetWait (g : Guard) (sa : Fin 64) (bar : Bar)
  -- System (R405)
  | tret (g : Guard)
  | tretSaved (g : Guard)
  | tlbiPage (g : Guard) (sa : Fin 64)
  | tlbiRange (g : Guard) (sa sb : Fin 64)
  | tlbiAsid (g : Guard)
  | genadv (g : Guard)
  | dvsave (g : Guard) (sa : Fin 64)
  | dvload (g : Guard) (sd sa : Fin 64)
  | sigset (g : Guard) (sa : Fin 64) (n : Fin 4)
  | sigrd (g : Guard) (sd : Fin 64) (n : Fin 4)
  | mapft (g : Guard) (sd sa : Fin 64)
  | killw (g : Guard) (sd sa : Fin 64)
  | migr (g : Guard) (sd sa : Fin 64)
  | scrub (g : Guard) (sd sa sb : Fin 64)
  | keyz (g : Guard) (sa : Fin 64)
  | qsaveRq (g : Guard) (sd sa : Fin 64)
  | qsaveMac (g : Guard) (sd sa : Fin 64)
  | qsaveRbq (g : Guard) (sd sa : Fin 64)
  | qloadRq (g : Guard) (sd sa : Fin 64)
  | qloadMac (g : Guard) (sd sa : Fin 64)
  | qloadRbq (g : Guard) (sd sa : Fin 64)
  | pgdisc (g : Guard) (sd sa sb : Fin 64)
  -- Issue and trap events (R71, R96, R98, R398, R439, R456)
  | blockFetch (w : Nat) (e : Fin 4)
  | quarterRunSelect (core : Nat) (quarter : Fin 4)
  | pendingWriteLands (w : Nat) (n : Nat)
  | deferredFaultTaken (w : Nat) (e : Fin 4)
  | preemptTaken (w : Nat) (e : Fin 4)
  | migrateTaken (w : Nat) (e : Fin 4)
  -- Card, barrier and message events (R284 to R289, R349, R360)
  | cardLaunch (card : Nat)
  | cardComplete (card : Nat)
  | cardFault (card : Nat)
  | barrierWake (bar : Nat)
  | messageArrive (chan : Nat)
  -- Launch events (R54 to R70, R444)
  | lqEntryTake (q : Nat)
  | placementDecision
  | gangHeld (launch : Nat) (t : Nat)
  | calleeWarpForm (launch : Nat) (die : Fin 4)
  | blockRetire (block : Nat)
  | lqConfigWrite (q : Nat) (v : BitVec 64)
  | lqBaseWrite (q : Nat) (v : BitVec 64)
  | lqTailWrite (q : Nat) (v : BitVec 32)
  | term (q : Nat)
  -- Translation and store events (R191 to R218, R447)
  | pageWalk (core : Nat) (asid : Nat) (va : Nat) (write : Bool)
  | fresume (slot : Nat) (seq : BitVec 32)
  | frtailWrite (slot : Nat) (v : BitVec 32)
  | depoch (slot : Nat)
  | harvestEpochComplete (slot : Nat)
  | contextEnd (slot : Nat)
  | apply (die : Fin 4) (v : BitVec 64)
  | applyWithdraw (die : Fin 4)
  | splitApplied (die : Fin 4)
  | homeAccess (pa : Nat) (req : LineRequest) (nl : Fin 8)
  | hbmFill (line : Nat)
  | missRatioWindowEnd (contract : Nat) (die : Fin 4)
  | homeAtomic (core : Nat) (pa : Nat) (op : AtomOp) (sz : MSize) (x : BitVec 64)
  | kvOpAtHome (asid : Nat) (die : Fin 4) (op : KvOp)
  -- Network and host events (R223 to R239, R355, R455)
  | netEntryReceive (chan : Nat) (room crcOk : Bool) (idErr : Fin 3)
  | netResend (chan : Nat)
  | netAckTimeout (chan : Nat)
  | deadlockProbe (chan : Nat)
  | probeReturn (chan : Nat) (cycle : List Nat)
  | probeLost (chan : Nat)
  | netControlWrite (off : Nat) (v : BitVec 64)
  | hostPostedWrite (off : Nat) (data : List Byte) (relaxed : Bool)
  | hostRead (off : Nat) (n : Nat)
  | deviceRegisterAccess (off : Nat) (size : Nat) (v : BitVec 128)
  | hostEgress
  | peerRequest (pkg asid : Nat) (pa : Nat) (op : PeerOp)
  | injectorArm (i : Nat)
  | injectorFire (i : Nat) (chan : Nat)
  | peerUnreachable (pkg : Nat) (down : Bool)
  -- Protection and lease events (R251, R356, R357)
  | bankFailed (bank : Nat)
  | spareSubstitute (bank : Nat)
  | leaseGrant (core : Nat) (line : Nat)
  | leaseEnd (core : Nat) (line : Nat)
  | leaseRecall (core : Nat) (line : Nat)
  | leaseExpiry (line : Nat)
  -- Context events (R398 to R403, R452, R453)
  | pre (slot : Nat)
  | preemptComplete (slot : Nat)
  | res (slot : Nat)
  | savedBlockReadmit (slot : Nat)
  | impgo (slot : Nat)
  | scrubComplete
  | rsgo
  -- Power, thermal and device events (R426 to R440, R449 to R454)
  | epochClearing (m : EpochMeasure)
  | operatingPointChange (island : Nat)
  | nearThresholdWindow (island stalled cycles : Nat)
  | capCommand (pcap acap : Nat) (seq : BitVec 32)
  | fastThrottleSample (quadrant : Fin 16) (m : PowerSample)
  | thermalReading (core : Nat) (temp : BitVec 10) (t : Nat)
  | thermalMigrationStart (core : Nat)
  | thermalMigrationComplete (core : Nat)
  | measuredBoot (fw cfgRec : List Byte) (later : List (Nat × BitVec 256))
  | attestationRequest (nonce : List Byte)
  | lifetimeFold
  | powerLoss
  deriving DecidableEq, Repr

end Sys2Proof
end

