-- ==== Sys2Proof/WellFormed.lean ====
section
/-! DEFINITION. Which instructions the manual admits: the decode rules of R78 to R88 and the encoding tables of
each chapter, apart from those that need the warp's allotment (R83) or mode (R389). -/

namespace Sys2Proof

/-- R78: PG 7 with PN 1 is ILLEGAL. -/
def Guard.wf (g : Guard) : Bool := !(g.p == 7 && g.neg)

/-- Types of 64 bits (R131). -/
def Ty.is64 : Ty → Bool
  | .i64 | .n64 | .f64 => true
  | _ => false

/-- Signed integer types, packed ones included. -/
def Ty.isSigned : Ty → Bool
  | .i32 | .i64 | .i16x2 | .i8x4 => true
  | _ => false

/-- A source register of a pair has an even number (R83). -/
def Src.okW (wide : Bool) : Src → Bool
  | .v n => !wide || n.val % 2 == 0
  | .s n => !wide || n.val % 2 == 0
  | .imm _ | .lit _ => true

/-- A V or S destination; that of a pair is even (R83, R84). -/
def Dst.okW (wide : Bool) : Dst → Bool
  | .v n => !wide || n.val % 2 == 0
  | .s n => !wide || n.val % 2 == 0
  | .p _ => false

/-- A predicate destination (DK 10). -/
def Dst.isP : Dst → Bool
  | .p _ => true
  | _ => false

def Src.isLit : Src → Bool
  | .lit _ => true
  | _ => false

def Src.isImm : Src → Bool
  | .imm _ => true
  | _ => false

/-- R82: at most one operand of kind 11. -/
def oneLit (xs : List Src) : Bool := (xs.filter Src.isLit).length ≤ 1

/-- The integer types TY 1 to 4. -/
def Ty.int14 : List Ty := [.i32, .n32, .i64, .n64]

/-- TY 1–4 and 9–12. -/
def Ty.intPacked : List Ty := [.i32, .n32, .i64, .n64, .i16x2, .n16x2, .i8x4, .n8x4]

/-- TY 0 and 4. -/
def Ty.b04 : List Ty := [.b32, .n64]

/-- TY 5–8. -/
def Ty.fl58 : List Ty := [.f32, .f64, .bf16x2, .f16x2]

/-- Two sources of TY's width. -/
def wf2 (g : Guard) (ty : Ty) (tys : List Ty) (d : Dst) (a b : Src) : Bool :=
  g.wf && tys.contains ty && d.okW ty.is64 && a.okW ty.is64 && b.okW ty.is64 && oneLit [a, b]

/-- One source of TY's width. -/
def wf1 (g : Guard) (ty : Ty) (tys : List Ty) (d : Dst) (a : Src) : Bool :=
  g.wf && tys.contains ty && d.okW ty.is64 && a.okW ty.is64

/-- Three sources of TY's width. -/
def wf3 (g : Guard) (ty : Ty) (tys : List Ty) (d : Dst) (a b c : Src) : Bool :=
  g.wf && tys.contains ty && d.okW ty.is64 && a.okW ty.is64 && b.okW ty.is64 && c.okW ty.is64 && oneLit [a, b, c]

/-- A source of TY's width and a 32-bit one: shifts, fields. -/
def wfShift (g : Guard) (ty : Ty) (tys : List Ty) (d : Dst) (a b : Src) : Bool :=
  g.wf && tys.contains ty && d.okW ty.is64 && a.okW ty.is64 && oneLit [a, b]

/-- The approximations of R166: RND 0 when TY is 5. -/
def wfApprox (g : Guard) (ty : Ty) (m : FMod) (d : Dst) (a : Src) : Bool :=
  wf1 g ty [.f32, .bf16x2, .f16x2] d a && !(ty == .f32 && m.rnd != .rne)

/-- The pairs of R174. -/
def cvtOk (dst src : Ty) (b : Src) : Bool :=
  let ints := Ty.int14
  let fls := [Ty.f32, Ty.f64]
  let halves := [Ty.bf16x2, Ty.f16x2]
  let noB := b == .v 0
  if fls.contains src && fls.contains dst then src != dst && noB
  else if ints.contains src && (fls.contains dst || (ints.contains dst && dst != src)) then noB
  else if fls.contains src && ints.contains dst then noB
  else if src == .f32 && halves.contains dst then true
  else if halves.contains src && dst == .f32 then b == .imm 0 || b == .imm 1
  else halves.contains src && halves.contains dst && src != dst && noB

/-- Widths of the special registers that GETS and SETS name (R129, R406): none for a reserved code. -/
def specialWidth64 (code : BitVec 8) : Option Bool :=
  let n := code.toNat
  if n = 13 ∨ n = 19 ∨ n = 77 then some true
  else if n ≤ 22 ∨ (64 ≤ n ∧ n ≤ 81) then some false
  else none

/-- The codes that SETS accepts (R129, R406). -/
def specialWritable (code : BitVec 8) : Bool :=
  let n := code.toNat
  n == 14 || n == 17 || (64 ≤ n && n ≤ 127)

/-- The width that TY 0 or 4 gives GETS and SETS. Codes 82 to 127, and codes of supervisor registers that SETS does
not write, pass decode: they are PRIV in user mode and ILLEGAL in supervisor mode (R406). -/
def specialTyOk (ty : Ty) (code : BitVec 8) : Bool :=
  match specialWidth64 code with
  | some w => ty == (if w then .n64 else .b32)
  | none => 82 ≤ code.toNat && code.toNat ≤ 127 && (ty == .n64 || ty == .b32)

/-- Bytes of an M-format size. -/
def MSize.bytes : MSize → Nat
  | .b8 | .i8 => 1
  | .b16 | .i16 => 2
  | .b32 | .f32 | .bf16x2 | .f16x2 | .i32 => 4
  | .b64 | .i64 | .f64 => 8
  | .b128 => 16

/-- A V register whose number suits a value of that many bytes (R83). -/
def vAligned (bytes : Nat) (n : Fin 256) : Bool :=
  if bytes = 16 then n.val % 4 == 0 else if bytes = 8 then n.val % 2 == 0 else true

/-- AB is even (R86). -/
def Base.wf : Base → Bool
  | .v n => n.val % 2 == 0
  | .s n => n.val % 2 == 0

/-- Orders and scopes of R254 for a word whose relaxed form has no scope. -/
def plainScope (ords : List Order) (sco : Scope) (ord : Order) : Bool :=
  ords.contains ord && (if ord == .rlx then sco == .none else sco != .none)

/-- Orders and scopes of R254 for atomics: a scope always. -/
def atomScope (ords : List Order) (sco : Scope) (ord : Order) : Bool := ords.contains ord && sco != .none

/-- R260's sizes. -/
def AtomOp.sizes : AtomOp → List MSize
  | .add => [.f32, .bf16x2, .f16x2, .i32, .i64, .f64]
  | .min | .max => [.b32, .b64, .f32, .i32, .i64]
  | .and | .or | .xor | .exch => [.b32, .b64]
  | .inc | .dec => [.b32]

/-- R264's sizes. -/
def LdgOp.sizes : LdgOp → List MSize
  | .add => [.f32, .bf16x2, .i32, .i64]
  | .min | .max => [.f32, .i32, .b32]
  | .and | .or | .xor => [.b32, .b64]

/-- Bytes per lane of a group load (R264). -/
def ldgBytes (sz : MSize) (width : Fin 3) : Nat := sz.bytes * 2 ^ width.val

/-- R362: the barrier numbers of each level. -/
def Bar.wf (b : Bar) : Bool :=
  match b.lvl with
  | .block => true
  | .cluster => b.idx.val < 8
  | .die | .grid => b.idx.val < 4

/-- An S register of a T pair (R83). -/
def sEven (n : Fin 64) : Bool := n.val % 2 == 0

/-- A format block base (R309). -/
def sQuad (n : Fin 64) : Bool := n.val % 4 == 0

/-- The forms that the manual's encodings admit. Events, which have no encoding, are all admitted. -/
def Instr.wf : Instr → Bool
  | .nop g | .yield g | .exit g | .ret g => g.wf
  | .brk g _ | .trap g _ => g.wf
  | .bra g _ _ | .call g _ => g.wf
  | .brx g _ r | .callv g _ r => g.wf && r.val % 2 == 0
  | .dispatch g r _ _ => g.wf && r.val % 4 == 0
  | .role g _ sb _ => g.wf && sEven sb
  | .launch g _ _ sa _ => g.wf && sEven sa
  | .wsync g _ _ => g.wf
  | .add g ty _ d a b | .sub g ty _ d a b | .min g ty d a b | .max g ty d a b => wf2 g ty Ty.intPacked d a b
  | .addc g ty d a b _ | .subb g ty d a b _ => wf2 g ty [.n32, .n64] d a b
  | .mul g ty d a b => wf2 g ty [.i32, .n32, .i64, .n64, .i16x2, .n16x2] d a b
  | .mulhi g ty d a b | .idiv g ty d a b | .irem g ty d a b => wf2 g ty Ty.int14 d a b
  | .mad g ty d a b c => wf3 g ty Ty.int14 d a b c
  | .madw g ty d a b c =>
    g.wf && [Ty.i32, Ty.n32].contains ty && d.okW true && c.okW true && oneLit [a, b, c]
  | .abs g ty _ d a | .neg g ty _ d a => wf1 g ty [.i32, .i64, .i16x2, .i8x4] d a
  | .and g ty d a b | .or g ty d a b | .xor g ty d a b => wf2 g ty Ty.b04 d a b
  | .not g ty d a | .brev g ty d a | .mov g ty d a => wf1 g ty Ty.b04 d a
  | .shl g ty d a b | .shr g ty d a b | .sar g ty d a b | .rot g ty _ d a b =>
    wfShift g ty [.b32, .i32, .n32, .i64, .n64] d a b
  | .bfe g ty d a b => wfShift g ty Ty.int14 d a b
  | .bfi g ty d a b c =>
    g.wf && Ty.b04.contains ty && d.okW ty.is64 && a.okW ty.is64 && c.okW ty.is64 && oneLit [a, b, c]
  | .popc g ty d a | .clz g ty d a => g.wf && Ty.b04.contains ty && d.okW false && a.okW ty.is64
  | .prmt g d a b c => wf3 g .b32 [.b32] d a b c
  | .sad g ty d a b c => wf3 g ty [.i32, .n32, .i8x4, .n8x4] d a b c
  | .lea g _ _ d a b => g.wf && d.okW true && a.okW true && oneLit [a, b]
  | .lop3 g ty _ d a b c => wf3 g ty Ty.b04 d a b c
  | .iset g ty _ comb d a b pc =>
    g.wf && Ty.int14.contains ty && (d.isP || d.okW false) && a.okW ty.is64 && b.okW ty.is64 && oneLit [a, b] &&
      (comb != .none || pc == 0)
  | .fset g ty _ comb d a b pc =>
    g.wf && [Ty.f32, Ty.f64].contains ty && (d.isP || d.okW false) && a.okW ty.is64 && b.okW ty.is64 &&
      oneLit [a, b] && (comb != .none || pc == 0)
  | .sel g ty d a b _ => wf2 g ty Ty.b04 d a b
  | .plop g _ _ _ _ _ => g.wf
  | .fclassPred g ty _ a mask => g.wf && [Ty.f32, Ty.f64].contains ty && a.okW ty.is64 && oneLit [a, mask]
  | .fclassMask g ty d a => g.wf && [Ty.f32, Ty.f64].contains ty && d.okW false && a.okW ty.is64
  | .vote g op _ d _ => g.wf && (if op == .ballot then d.okW false else d.isP)
  | .matchLanes g ty _ d a => g.wf && Ty.b04.contains ty && d.okW false && (!ty.is64 || a.val % 2 == 0)
  | .pmovPack g d => g.wf && d.okW false
  | .pmovUnpack g _ => g.wf
  | .fadd g ty _ d a b | .fsub g ty _ d a b | .fmul g ty _ d a b => wf2 g ty Ty.fl58 d a b
  | .fmin g ty d a b | .fmax g ty d a b => wf2 g ty Ty.fl58 d a b
  | .ffma g ty _ d a b c => wf3 g ty Ty.fl58 d a b c
  | .frcp g ty m d a | .frsq g ty m d a | .fexp2 g ty m d a | .flog2 g ty m d a | .fsin g ty m d a
  | .fcos g ty m d a | .ftanh g ty m d a => wfApprox g ty m d a
  | .fsqrt g ty _ d a => wf1 g ty [.f32, .f64] d a
  | .fdiv g ty _ d a b => wf2 g ty [.f32, .f64] d a b
  | .fdot2 g ty _ d a b c =>
    g.wf && [Ty.bf16x2, Ty.f16x2].contains ty && d.okW false && oneLit [a, b, c]
  | .frnd g ty _ d a => wf1 g ty Ty.fl58 d a
  | .fscale g ty _ d a b => wfShift g ty [.f32, .f64] d a b
  | .fgetx g ty d a => g.wf && [Ty.f32, Ty.f64].contains ty && d.okW false && a.okW ty.is64
  | .fgetm g ty d a => wf1 g ty [.f32, .f64] d a
  | .cvt g ty sty _ d a b => g.wf && cvtOk ty sty b && d.okW ty.is64 && a.okW sty.is64 && oneLit [a, b]
  | .sbpack g ty _ _ _ d _ => g.wf && [Ty.f32, Ty.bf16x2].contains ty && d.okW false
  | .sbunpk g _ d a b c => g.wf && d.okW false && a.val % 4 == 0 && oneLit [b, c]
  | .sbscl g ty _ d a b c => g.wf && [Ty.f32, Ty.bf16x2].contains ty && d.okW false && oneLit [a, b, c]
  | .rng g ty d a b c => g.wf && [Ty.n32, Ty.f32].contains ty && d.okW false && oneLit [a, b, c]
  | .movl g d a => g.wf && d.val % 4 == 0 && a.val % 4 == 0
  | .shfl g ty _ _ d a _ =>
    g.wf && Ty.b04.contains ty && (!ty.is64 || (d.val % 2 == 0 && a.val % 2 == 0))
  | .bcast g ty d a b =>
    g.wf && Ty.b04.contains ty && d.okW ty.is64 && (!ty.is64 || a.val % 2 == 0) &&
      (match b with | .v _ => false | _ => true)
  | .redux g ty op m d _ =>
    g.wf && d.okW false &&
      (match op with
       | .add => [Ty.i32, Ty.n32, Ty.f32].contains ty
       | .min | .max => [Ty.i32, Ty.n32, Ty.f32].contains ty
       | .and | .or | .xor => ty == .b32) &&
      ((op == .add && ty == .f32) || m == { rnd := .rne, ftz := false })
  | .gets g ty d code => g.wf && specialTyOk ty code && d.okW ty.is64
  | .sets g ty code a => g.wf && specialTyOk ty code && specialWritable code && a.okW ty.is64
  | .ld g sz sco ord _ d m =>
    g.wf && [MSize.b8, .b16, .b32, .b64, .b128, .i8, .i16].contains sz && plainScope [.rlx, .acq] sco ord &&
      vAligned sz.bytes d && m.base.wf
  | .st g sz sco ord _ d m =>
    g.wf && [MSize.b8, .b16, .b32, .b64, .b128].contains sz && plainScope [.rlx, .rel] sco ord &&
      vAligned sz.bytes d && m.base.wf
  | .lds g sz sco ord _ d m =>
    g.wf && [MSize.b8, .b16, .b32, .b64, .i8, .i16].contains sz && plainScope [.rlx, .acq] sco ord &&
      (sz != .b64 || sEven d) && m.base.wf
  | .sts g sz sco ord _ d m =>
    g.wf && [MSize.b8, .b16, .b32, .b64].contains sz && plainScope [.rlx, .rel] sco ord &&
      (sz != .b64 || sEven d) && m.base.wf
  | .ldg g op sz width sco ord d m =>
    g.wf && op.sizes.contains sz && ldgBytes sz width ≤ 16 && vAligned (ldgBytes sz width) d && m.base.wf &&
      (if ord == .rlx then sco == .none else ord == .acq && [Scope.cluster, .die, .device, .domain, .system].contains sco)
  | .atom g op sz sco ord d m x =>
    g.wf && op.sizes.contains sz && atomScope [.rlx, .acq, .rel, .ar] sco ord && vAligned sz.bytes d &&
      vAligned sz.bytes x && m.base.wf
  | .red g op sz sco ord m x =>
    g.wf && op != .exch && op.sizes.contains sz && atomScope [.rlx, .rel] sco ord && vAligned sz.bytes x && m.base.wf
  | .cas g sz sco ord d m x =>
    g.wf && [MSize.b32, .b64].contains sz && atomScope [.rlx, .acq, .rel, .ar] sco ord && vAligned sz.bytes d &&
      vAligned (2 * sz.bytes) x && m.base.wf
  | .fence g sco ord => g.wf && ord != .rlx && sco != .none
  | .pref g _ m | .cwb g _ m | .cinv g _ m => g.wf && m.base.wf
  | .waitne g sz sco ord d m x =>
    g.wf && [MSize.b32, .b64].contains sz && plainScope [.rlx, .acq] sco ord && vAligned sz.bytes d &&
      vAligned sz.bytes x && m.base.wf
  | .resideClass g _ sa _ _ _ _ | .residePin g _ sa _ | .resideUnpin g _ sa _ | .resideClose g _ sa _ =>
    g.wf && sEven sa
  | .resideTprio g _ _ _ => g.wf
  | .kvfind g sd sa => g.wf && sEven sd && sEven sa
  | .kvput g _ sd sa sc => g.wf && sEven sd && sEven sa && sEven sc
  | .kvdrop g _ sa => g.wf && sEven sa
  | .kvdropTensor g _ _ => g.wf
  | .acgrow g _ n | .acfree g _ n => g.wf && 1 ≤ n.toNat && n.toNat ≤ 256
  | .cpy g _ _ | .cpym g _ _ | .cpysc g _ _ | .xpose g _ _ | .sred g _ _ | .minit g _ _ => g.wf
  | .afence g _ | .awaitBatch g _ | .awaitAll g | .atest g _ _ | .atestAll g _ => g.wf
  | .marr g _ _ => g.wf
  | .bload g _ _ sb | .mma g _ _ sb | .mdrain g _ _ sb _ => g.wf && sQuad sb
  | .mmasp g _ _ _ sb _ => g.wf && sQuad sb
  | .mread g d _ => g.wf && d.val % 2 == 0
  | .mreadAnc g _ _ | .mwriteAnc g _ _ => g.wf
  | .mwrite g _ b => g.wf && b.val % 2 == 0
  | .bara g _ _ b | .barw g _ _ b | .barsRoot g _ b | .barsOwn g _ b | .barqRoot g _ b | .barqMem g _ b
  | .barqArr g _ b | .barqEarly g _ b | .barqWait g _ b | .barsetRoot g _ b | .barsetMem g _ b
  | .barsetArr g _ b | .barsetEarly g _ b | .barsetWait g _ b => g.wf && b.wf
  | .tret g | .tretSaved g | .tlbiAsid g | .genadv g => g.wf
  | .tlbiPage g sa | .tlbiRange g sa _ | .dvsave g sa | .dvload g _ sa | .mapft g _ sa | .scrub g _ sa _
  | .qsaveRq g _ sa | .qsaveMac g _ sa | .qsaveRbq g _ sa | .qloadRq g _ sa | .qloadMac g _ sa
  | .qloadRbq g _ sa | .pgdisc g _ sa _ => g.wf && sEven sa
  | .sigset g _ _ | .sigrd g _ _ | .killw g _ _ | .migr g _ _ | .keyz g _ => g.wf
  | .waitneRecheck .. | .blockFetch .. | .quarterRunSelect .. | .pendingWriteLands .. | .deferredFaultTaken ..
  | .preemptTaken .. | .migrateTaken .. | .cardLaunch .. | .cardComplete .. | .cardFault .. | .barrierWake ..
  | .messageArrive .. | .lqEntryTake .. | .placementDecision | .gangHeld .. | .calleeWarpForm ..
  | .blockRetire .. | .lqConfigWrite .. | .lqBaseWrite .. | .lqTailWrite .. | .term .. | .pageWalk ..
  | .fresume .. | .frtailWrite .. | .depoch .. | .harvestEpochComplete .. | .contextEnd .. | .apply ..
  | .applyWithdraw .. | .splitApplied .. | .homeAccess .. | .hbmFill .. | .missRatioWindowEnd ..
  | .homeAtomic .. | .kvOpAtHome .. | .netEntryReceive .. | .netResend .. | .netAckTimeout ..
  | .deadlockProbe .. | .probeReturn .. | .probeLost .. | .netControlWrite .. | .hostPostedWrite ..
  | .hostRead .. | .deviceRegisterAccess .. | .hostEgress | .peerRequest .. | .injectorArm ..
  | .injectorFire .. | .peerUnreachable .. | .bankFailed .. | .spareSubstitute .. | .leaseGrant ..
  | .leaseEnd .. | .leaseRecall .. | .leaseExpiry .. | .pre .. | .preemptComplete .. | .res ..
  | .savedBlockReadmit .. | .impgo .. | .scrubComplete | .rsgo | .epochClearing ..
  | .operatingPointChange .. | .nearThresholdWindow .. | .capCommand .. | .fastThrottleSample ..
  | .thermalReading .. | .thermalMigrationStart .. | .thermalMigrationComplete .. | .measuredBoot ..
  | .attestationRequest .. | .lifetimeFold | .powerLoss => true

/-- The constructors that stand for ISA words; the others are events, which have no encoding. -/
def Instr.isEvent : Instr → Bool
  | .waitneRecheck .. | .blockFetch .. | .quarterRunSelect .. | .pendingWriteLands .. | .deferredFaultTaken ..
  | .preemptTaken .. | .migrateTaken .. | .cardLaunch .. | .cardComplete .. | .cardFault .. | .barrierWake ..
  | .messageArrive .. | .lqEntryTake .. | .placementDecision | .gangHeld .. | .calleeWarpForm ..
  | .blockRetire .. | .lqConfigWrite .. | .lqBaseWrite .. | .lqTailWrite .. | .term .. | .pageWalk ..
  | .fresume .. | .frtailWrite .. | .depoch .. | .harvestEpochComplete .. | .contextEnd .. | .apply ..
  | .applyWithdraw .. | .splitApplied .. | .homeAccess .. | .hbmFill .. | .missRatioWindowEnd ..
  | .homeAtomic .. | .kvOpAtHome .. | .netEntryReceive .. | .netResend .. | .netAckTimeout ..
  | .deadlockProbe .. | .probeReturn .. | .probeLost .. | .netControlWrite .. | .hostPostedWrite ..
  | .hostRead .. | .deviceRegisterAccess .. | .hostEgress | .peerRequest .. | .injectorArm ..
  | .injectorFire .. | .peerUnreachable .. | .bankFailed .. | .spareSubstitute .. | .leaseGrant ..
  | .leaseEnd .. | .leaseRecall .. | .leaseExpiry .. | .pre .. | .preemptComplete .. | .res ..
  | .savedBlockReadmit .. | .impgo .. | .scrubComplete | .rsgo | .epochClearing ..
  | .operatingPointChange .. | .nearThresholdWindow .. | .capCommand .. | .fastThrottleSample ..
  | .thermalReading .. | .thermalMigrationStart .. | .thermalMigrationComplete .. | .measuredBoot ..
  | .attestationRequest .. | .lifetimeFold | .powerLoss => true
  | _ => false

end Sys2Proof
end

