-- ==== Sys2Proof/Decode.lean ====
section
/-! DEFINITION. Decoding of instruction words and block headers (R75 to R90), and the encoder. A word is taken
apart once into the fields of its format; every field an instruction does not use must be zero (R79). -/

namespace Sys2Proof

/-! ## The formats -/

/-- The fields of an A-format word (R80). -/
structure AFmt where
  opc : BitVec 8
  pg : BitVec 3
  pn : BitVec 1
  ty : BitVec 4
  d : BitVec 8
  a : BitVec 8
  b : BitVec 8
  c : BitVec 8
  ka : BitVec 2
  kb : BitVec 2
  kc : BitVec 2
  dk : BitVec 2
  mod : BitVec 8
  deriving DecidableEq, Repr

/-- R80. -/
def AFmt.ofWord (w : Word64) : AFmt :=
  { opc := w.extractLsb' 56 8, pg := w.extractLsb' 53 3, pn := w.extractLsb' 52 1, ty := w.extractLsb' 48 4,
    d := w.extractLsb' 40 8, a := w.extractLsb' 32 8, b := w.extractLsb' 24 8, c := w.extractLsb' 16 8,
    ka := w.extractLsb' 14 2, kb := w.extractLsb' 12 2, kc := w.extractLsb' 10 2, dk := w.extractLsb' 8 2,
    mod := w.extractLsb' 0 8 }

/-- R80. -/
def AFmt.toWord (f : AFmt) : Word64 :=
  f.opc ++ f.pg ++ f.pn ++ f.ty ++ f.d ++ f.a ++ f.b ++ f.c ++ f.ka ++ f.kb ++ f.kc ++ f.dk ++ f.mod

/-- The fields of an M-format word (R86). -/
structure MFmt where
  opc : BitVec 8
  pg : BitVec 3
  pn : BitVec 1
  sz : BitVec 4
  d : BitVec 8
  ab : BitVec 8
  x : BitVec 8
  sco : BitVec 3
  ord : BitVec 2
  ch : BitVec 2
  ka : BitVec 1
  off : BitVec 16
  deriving DecidableEq, Repr

/-- R86. -/
def MFmt.ofWord (w : Word64) : MFmt :=
  { opc := w.extractLsb' 56 8, pg := w.extractLsb' 53 3, pn := w.extractLsb' 52 1, sz := w.extractLsb' 48 4,
    d := w.extractLsb' 40 8, ab := w.extractLsb' 32 8, x := w.extractLsb' 24 8, sco := w.extractLsb' 21 3,
    ord := w.extractLsb' 19 2, ch := w.extractLsb' 17 2, ka := w.extractLsb' 16 1, off := w.extractLsb' 0 16 }

/-- R86. -/
def MFmt.toWord (f : MFmt) : Word64 :=
  f.opc ++ f.pg ++ f.pn ++ f.sz ++ f.d ++ f.ab ++ f.x ++ f.sco ++ f.ord ++ f.ch ++ f.ka ++ f.off

/-- The fields of a J-format word (R87). -/
structure JFmt where
  opc : BitVec 8
  pg : BitVec 3
  pn : BitVec 1
  mode : BitVec 4
  reg : BitVec 8
  aux : BitVec 8
  tgt : BitVec 32
  deriving DecidableEq, Repr

/-- R87. -/
def JFmt.ofWord (w : Word64) : JFmt :=
  { opc := w.extractLsb' 56 8, pg := w.extractLsb' 53 3, pn := w.extractLsb' 52 1, mode := w.extractLsb' 48 4,
    reg := w.extractLsb' 40 8, aux := w.extractLsb' 32 8, tgt := w.extractLsb' 0 32 }

/-- R87. -/
def JFmt.toWord (f : JFmt) : Word64 := f.opc ++ f.pg ++ f.pn ++ f.mode ++ f.reg ++ f.aux ++ f.tgt

/-- The fields of a C-format word (R88). -/
structure CFmt where
  opc : BitVec 8
  pg : BitVec 3
  pn : BitVec 1
  sub : BitVec 4
  sd : BitVec 8
  sa : BitVec 8
  sb : BitVec 8
  sc : BitVec 8
  imm : BitVec 16
  deriving DecidableEq, Repr

/-- R88. -/
def CFmt.ofWord (w : Word64) : CFmt :=
  { opc := w.extractLsb' 56 8, pg := w.extractLsb' 53 3, pn := w.extractLsb' 52 1, sub := w.extractLsb' 48 4,
    sd := w.extractLsb' 40 8, sa := w.extractLsb' 32 8, sb := w.extractLsb' 24 8, sc := w.extractLsb' 16 8,
    imm := w.extractLsb' 0 16 }

/-- R88. -/
def CFmt.toWord (f : CFmt) : Word64 := f.opc ++ f.pg ++ f.pn ++ f.sub ++ f.sd ++ f.sa ++ f.sb ++ f.sc ++ f.imm

/-- The fields of a block header (R75). -/
structure HFmt where
  mark : BitVec 8
  len : BitVec 5
  live : BitVec 8
  rcv : BitVec 16
  pf : BitVec 3
  sig : BitVec 16
  idem : BitVec 1
  idcont : BitVec 1
  sigen : BitVec 1
  rsv : BitVec 5
  deriving DecidableEq, Repr

/-- R75. -/
def HFmt.ofWord (w : Word64) : HFmt :=
  { mark := w.extractLsb' 56 8, len := w.extractLsb' 51 5, live := w.extractLsb' 43 8, rcv := w.extractLsb' 27 16,
    pf := w.extractLsb' 24 3, sig := w.extractLsb' 8 16, idem := w.extractLsb' 7 1, idcont := w.extractLsb' 6 1,
    sigen := w.extractLsb' 5 1, rsv := w.extractLsb' 0 5 }

/-- R75. -/
def HFmt.toWord (f : HFmt) : Word64 :=
  f.mark ++ f.len ++ f.live ++ f.rcv ++ f.pf ++ f.sig ++ f.idem ++ f.idcont ++ f.sigen ++ f.rsv

/-- R75: a word whose MARK is 0xFF is a header. -/
def isHeader (w : Word64) : Bool := w.extractLsb' 56 8 == 0xFF#8

/-- R90: the rows that make a header ILLEGAL whatever the allotment. -/
def HFmt.ok (f : HFmt) : Bool :=
  f.mark == 0xFF#8 && 1 ≤ f.len.toNat && f.len.toNat ≤ 24 && f.pf.toNat ≤ 4 && f.rsv == 0 &&
    !(f.idem == 1#1 && f.idcont == 1#1)

/-! ## Field codes -/

def Guard.bitsP (g : Guard) : BitVec 3 := BitVec.ofNat 3 g.p.val
def Guard.bitsN (g : Guard) : BitVec 1 := BitVec.ofBool g.neg

/-- R78. -/
def Guard.ofBits (pg : BitVec 3) (pn : BitVec 1) : Guard :=
  { p := ⟨pg.toNat, pg.isLt⟩, neg := pn == 1#1 }

/-- The TY table (R80). -/
def Ty.code : Ty → BitVec 4
  | .b32 => 0 | .i32 => 1 | .n32 => 2 | .i64 => 3 | .n64 => 4 | .f32 => 5 | .f64 => 6 | .bf16x2 => 7
  | .f16x2 => 8 | .i16x2 => 9 | .n16x2 => 10 | .i8x4 => 11 | .n8x4 => 12

/-- The TY table (R80). -/
def Ty.ofCode (n : BitVec 4) : Option Ty :=
  match n.toNat with
  | 0 => some .b32 | 1 => some .i32 | 2 => some .n32 | 3 => some .i64 | 4 => some .n64 | 5 => some .f32
  | 6 => some .f64 | 7 => some .bf16x2 | 8 => some .f16x2 | 9 => some .i16x2 | 10 => some .n16x2
  | 11 => some .i8x4 | 12 => some .n8x4 | _ => none

/-- R81. -/
def Rnd.code : Rnd → BitVec 2
  | .rne => 0 | .rtz => 1 | .rup => 2 | .rdn => 3

/-- R81. -/
def Rnd.ofCode (n : BitVec 2) : Rnd :=
  match n.toNat with
  | 0 => .rne | 1 => .rtz | 2 => .rup | _ => .rdn

/-- R81: FTZ in bit 2, RND in bits 1:0. -/
def FMod.code (m : FMod) : BitVec 3 := BitVec.ofBool m.ftz ++ m.rnd.code

/-- R81. -/
def FMod.ofCode (n : BitVec 3) : FMod := { rnd := Rnd.ofCode (n.extractLsb' 0 2), ftz := n.getLsbD 2 }

/-- R163. -/
def ICond.code : ICond → BitVec 3
  | .eq => 0 | .ne => 1 | .lt => 2 | .le => 3 | .gt => 4 | .ge => 5

/-- R163. -/
def ICond.ofCode (n : BitVec 3) : Option ICond :=
  match n.toNat with
  | 0 => some .eq | 1 => some .ne | 2 => some .lt | 3 => some .le | 4 => some .gt | 5 => some .ge | _ => none

/-- R164. -/
def FCond.code : FCond → BitVec 4
  | .eq => 0 | .ne => 1 | .lt => 2 | .le => 3 | .gt => 4 | .ge => 5 | .num => 6 | .nan => 7 | .equ => 8
  | .neu => 9 | .ltu => 10 | .leu => 11 | .gtu => 12 | .geu => 13

/-- R164. -/
def FCond.ofCode (n : BitVec 4) : Option FCond :=
  match n.toNat with
  | 0 => some .eq | 1 => some .ne | 2 => some .lt | 3 => some .le | 4 => some .gt | 5 => some .ge
  | 6 => some .num | 7 => some .nan | 8 => some .equ | 9 => some .neu | 10 => some .ltu | 11 => some .leu
  | 12 => some .gtu | 13 => some .geu | _ => none

/-- R163. -/
def Combine.code : Combine → BitVec 2
  | .none => 0 | .and => 1 | .or => 2 | .xor => 3

/-- R163. -/
def Combine.ofCode (n : BitVec 2) : Combine :=
  match n.toNat with
  | 0 => .none | 1 => .and | 2 => .or | _ => .xor

/-- R124. -/
def VoteOp.code : VoteOp → BitVec 2
  | .any => 0 | .all => 1 | .uni => 2 | .ballot => 3

/-- R124. -/
def VoteOp.ofCode (n : BitVec 2) : VoteOp :=
  match n.toNat with
  | 0 => .any | 1 => .all | 2 => .uni | _ => .ballot

/-- R126. -/
def ShflMode.code : ShflMode → BitVec 2
  | .idx => 0 | .up => 1 | .down => 2 | .xor => 3

/-- R126. -/
def ShflMode.ofCode (n : BitVec 2) : ShflMode :=
  match n.toNat with
  | 0 => .idx | 1 => .up | 2 => .down | _ => .xor

/-- R127. -/
def ReduxOp.code : ReduxOp → BitVec 3
  | .add => 0 | .min => 1 | .max => 2 | .and => 3 | .or => 4 | .xor => 5

/-- R127. -/
def ReduxOp.ofCode (n : BitVec 3) : Option ReduxOp :=
  match n.toNat with
  | 0 => some .add | 1 => some .min | 2 => some .max | 3 => some .and | 4 => some .or | 5 => some .xor | _ => none

/-- R176. -/
def SbFmt.code : SbFmt → BitVec 2
  | .sb2 => 0 | .sb4 => 1 | .sb7 => 2

/-- R176. -/
def SbFmt.ofCode (n : BitVec 2) : Option SbFmt :=
  match n.toNat with
  | 0 => some .sb2 | 1 => some .sb4 | 2 => some .sb7 | _ => none

/-- R112. -/
def BraMode.code : BraMode → BitVec 4
  | .uni => 0 | .any => 1 | .all => 2 | .none => 3 | .div => 4

/-- R112. -/
def BraMode.ofCode (n : BitVec 4) : Option BraMode :=
  match n.toNat with
  | 0 => some .uni | 1 => some .any | 2 => some .all | 3 => some .none | 4 => some .div | _ => Option.none

/-- R86. -/
def MSize.code : MSize → BitVec 4
  | .b8 => 0 | .b16 => 1 | .b32 => 2 | .b64 => 3 | .b128 => 4 | .i8 => 5 | .i16 => 6 | .f32 => 7
  | .bf16x2 => 8 | .f16x2 => 9 | .i32 => 10 | .i64 => 11 | .f64 => 12

/-- R86. -/
def MSize.ofCode (n : BitVec 4) : Option MSize :=
  match n.toNat with
  | 0 => some .b8 | 1 => some .b16 | 2 => some .b32 | 3 => some .b64 | 4 => some .b128 | 5 => some .i8
  | 6 => some .i16 | 7 => some .f32 | 8 => some .bf16x2 | 9 => some .f16x2 | 10 => some .i32 | 11 => some .i64
  | 12 => some .f64 | _ => none

/-- R329. -/
def Scope.code : Scope → BitVec 3
  | .none => 0 | .warp => 1 | .block => 2 | .cluster => 3 | .die => 4 | .device => 5 | .domain => 6 | .system => 7

/-- R329. -/
def Scope.ofCode (n : BitVec 3) : Scope :=
  match n.toNat with
  | 0 => .none | 1 => .warp | 2 => .block | 3 => .cluster | 4 => .die | 5 => .device | 6 => .domain | _ => .system

/-- R86. -/
def Order.code : Order → BitVec 2
  | .rlx => 0 | .acq => 1 | .rel => 2 | .ar => 3

/-- R86. -/
def Order.ofCode (n : BitVec 2) : Order :=
  match n.toNat with
  | 0 => .rlx | 1 => .acq | 2 => .rel | _ => .ar

/-- R86. -/
def Cache.code : Cache → BitVec 2
  | .dflt => 0 | .stream => 1 | .keep => 2 | .nol1 => 3

/-- R86. -/
def Cache.ofCode (n : BitVec 2) : Cache :=
  match n.toNat with
  | 0 => .dflt | 1 => .stream | 2 => .keep | _ => .nol1

/-- R260. -/
def AtomOp.code : AtomOp → BitVec 5
  | .add => 0 | .min => 1 | .max => 2 | .and => 3 | .or => 4 | .xor => 5 | .exch => 6 | .inc => 7 | .dec => 8

/-- R260. -/
def AtomOp.ofCode (n : BitVec 5) : Option AtomOp :=
  match n.toNat with
  | 0 => some .add | 1 => some .min | 2 => some .max | 3 => some .and | 4 => some .or | 5 => some .xor
  | 6 => some .exch | 7 => some .inc | 8 => some .dec | _ => none

/-- R264. -/
def LdgOp.code : LdgOp → BitVec 5
  | .add => 0 | .min => 1 | .max => 2 | .and => 3 | .or => 4 | .xor => 5

/-- R264. -/
def LdgOp.ofCode (n : BitVec 5) : Option LdgOp :=
  match n.toNat with
  | 0 => some .add | 1 => some .min | 2 => some .max | 3 => some .and | 4 => some .or | 5 => some .xor | _ => none

/-- R362. -/
def BarLvl.code : BarLvl → BitVec 2
  | .block => 0 | .cluster => 1 | .die => 2 | .grid => 3

/-- R362. -/
def BarLvl.ofCode (n : BitVec 2) : BarLvl :=
  match n.toNat with
  | 0 => .block | 1 => .cluster | 2 => .die | _ => .grid

/-- R362: bits 15:6 zero. -/
def Bar.code (b : Bar) : BitVec 16 := 0#10 ++ b.lvl.code ++ BitVec.ofNat 4 b.idx.val

/-- R362. -/
def Bar.ofCode (n : BitVec 16) : Option Bar :=
  if n.extractLsb' 6 10 = 0 then
    some { lvl := BarLvl.ofCode (n.extractLsb' 4 2), idx := ⟨(n.extractLsb' 0 4).toNat, (n.extractLsb' 0 4).isLt⟩ }
  else none

/-- R32: the class codes of RESIDE. -/
def Reuse.code : Reuse → BitVec 2
  | .none => 0 | .low => 1 | .high => 2 | .streaming => 3

/-- R32. -/
def Reuse.ofCode (n : BitVec 2) : Reuse :=
  match n.toNat with
  | 0 => .none | 1 => .low | 2 => .high | _ => .streaming

/-! ## Operands -/

/-- R82. -/
def Src.kind : Src → BitVec 2
  | .v _ => 0 | .s _ => 1 | .imm _ => 2 | .lit _ => 3

/-- R82. -/
def Src.field : Src → BitVec 8
  | .v n => BitVec.ofNat 8 n.val
  | .s n => BitVec.ofNat 8 n.val
  | .imm i => i
  | .lit _ => 0

/-- The literal word an operand stands for. -/
def Src.word : Src → List Word64
  | .lit w => [w]
  | _ => []

/-- R82. -/
def Src.ofBits (k : BitVec 2) (x : BitVec 8) (lit : Option Word64) : Option Src :=
  match k.toNat with
  | 0 => some (.v ⟨x.toNat, x.isLt⟩)
  | 1 => if h : x.toNat < 64 then some (.s ⟨x.toNat, h⟩) else none
  | 2 => some (.imm x)
  | _ => if x = 0 then lit.map .lit else none

/-- R84. -/
def Dst.kind : Dst → BitVec 2
  | .v _ => 0 | .s _ => 1 | .p _ => 2

/-- R84. -/
def Dst.field : Dst → BitVec 8
  | .v n => BitVec.ofNat 8 n.val
  | .s n => BitVec.ofNat 8 n.val
  | .p n => BitVec.ofNat 8 n.val

/-- A V register field (R83). -/
def vField (x : BitVec 8) : Fin 256 := ⟨x.toNat, x.isLt⟩

/-- An S register field: 64–255 ILLEGAL. -/
def sField (x : BitVec 8) : Option (Fin 64) := if h : x.toNat < 64 then some ⟨x.toNat, h⟩ else none

/-- A predicate field: bits 7:3 zero. -/
def pField (x : BitVec 8) : Option (Fin 8) := if h : x.toNat < 8 then some ⟨x.toNat, h⟩ else none

/-- R84. -/
def Dst.ofBits (k : BitVec 2) (x : BitVec 8) : Option Dst :=
  match k.toNat with
  | 0 => some (.v (vField x))
  | 1 => (sField x).map .s
  | 2 => (pField x).map .p
  | _ => none

def vBits (n : Fin 256) : BitVec 8 := BitVec.ofNat 8 n.val
def sBits (n : Fin 64) : BitVec 8 := BitVec.ofNat 8 n.val
def pBits (n : Fin 8) : BitVec 8 := BitVec.ofNat 8 n.val

/-- KA and AB of the M format (R86). -/
def Base.kind : Base → BitVec 1
  | .v _ => 0 | .s _ => 1

/-- R86. -/
def Base.field : Base → BitVec 8
  | .v n => vBits n
  | .s n => sBits n

/-- R86. -/
def Base.ofBits (k : BitVec 1) (x : BitVec 8) : Option Base :=
  if k = 0 then some (.v (vField x)) else (sField x).map .s

/-! ## Decoding of one word -/

/-- A condition on a field. -/
def chk (b : Bool) : Option Unit := if b then some () else none

/-- The fields that only some words of the A format use are zero elsewhere (R79). -/
def AFmt.noA (f : AFmt) : Bool := f.a == 0 && f.ka == 0
def AFmt.noB (f : AFmt) : Bool := f.b == 0 && f.kb == 0
def AFmt.noC (f : AFmt) : Bool := f.c == 0 && f.kc == 0
def AFmt.g (f : AFmt) : Guard := Guard.ofBits f.pg f.pn
def AFmt.srcA (f : AFmt) (l : Option Word64) : Option Src := Src.ofBits f.ka f.a l
def AFmt.srcB (f : AFmt) (l : Option Word64) : Option Src := Src.ofBits f.kb f.b l
def AFmt.srcC (f : AFmt) (l : Option Word64) : Option Src := Src.ofBits f.kc f.c l
def AFmt.dst (f : AFmt) : Option Dst := Dst.ofBits f.dk f.d
/-- A predicate index in field C, with kind 00 (R151). -/
def AFmt.predC (f : AFmt) : Option (Fin 8) := if f.kc = 0 then pField f.c else none
def AFmt.predA (f : AFmt) : Option (Fin 8) := if f.ka = 0 then pField f.a else none
def AFmt.predB (f : AFmt) : Option (Fin 8) := if f.kb = 0 then pField f.b else none
/-- A V register in field A, with kind 00. -/
def AFmt.regA (f : AFmt) : Option (Fin 256) := if f.ka = 0 then some (vField f.a) else none
/-- A V destination: DK 00. -/
def AFmt.dstV (f : AFmt) : Option (Fin 256) := if f.dk = 0 then some (vField f.d) else none
/-- MOD of a rounding word with XMOD zero (R81). -/
def AFmt.fmod (f : AFmt) : Option FMod :=
  if f.mod.extractLsb' 3 5 = 0 then some (FMod.ofCode (f.mod.extractLsb' 0 3)) else none
def AFmt.mod0 (f : AFmt) : Bool := f.mod == 0
/-- MOD with only bit 0 in use. -/
def AFmt.modBit (f : AFmt) : Option Bool := if f.mod.extractLsb' 1 7 = 0 then some (f.mod.getLsbD 0) else none

/-- Two sources. -/
def AFmt.d2 (f : AFmt) (l : Option Word64) (k : Ty → Dst → Src → Src → Instr) : Option Instr := do
  chk f.noC
  return k (← Ty.ofCode f.ty) (← f.dst) (← f.srcA l) (← f.srcB l)

/-- One source. -/
def AFmt.d1 (f : AFmt) (l : Option Word64) (k : Ty → Dst → Src → Instr) : Option Instr := do
  chk (f.noB && f.noC)
  return k (← Ty.ofCode f.ty) (← f.dst) (← f.srcA l)

/-- Three sources. -/
def AFmt.d3 (f : AFmt) (l : Option Word64) (k : Ty → Dst → Src → Src → Src → Instr) : Option Instr := do
  return k (← Ty.ofCode f.ty) (← f.dst) (← f.srcA l) (← f.srcB l) (← f.srcC l)

/-- Two sources and a predicate in C. -/
def AFmt.d2p (f : AFmt) (l : Option Word64) (k : Ty → Dst → Src → Src → Fin 8 → Instr) : Option Instr := do
  return k (← Ty.ofCode f.ty) (← f.dst) (← f.srcA l) (← f.srcB l) (← f.predC)

/-- Opcodes 00, 01 and 10 to 2E (R107, R153). -/
def decodeInt (f : AFmt) (l : Option Word64) : Option Instr :=
  match f.opc.toNat with
  | 0x00 => do
    chk (f.ty == 0 && f.d == 0 && f.dk == 0 && f.noA && f.noB && f.noC && f.mod0)
    return .nop f.g
  | 0x01 => do
    chk (f.ty == 0 && f.d == 0 && f.dk == 0 && f.noA && f.noB && f.noC && f.mod0)
    return .yield f.g
  | 0x10 => do let s ← f.modBit; f.d2 l fun t d a b => .add f.g t s d a b
  | 0x11 => do let s ← f.modBit; f.d2 l fun t d a b => .sub f.g t s d a b
  | 0x12 => do chk f.mod0; f.d2p l fun t d a b p => .addc f.g t d a b p
  | 0x13 => do chk f.mod0; f.d2p l fun t d a b p => .subb f.g t d a b p
  | 0x14 => do chk f.mod0; f.d2 l fun t d a b => .mul f.g t d a b
  | 0x15 => do chk f.mod0; f.d2 l fun t d a b => .mulhi f.g t d a b
  | 0x16 => do chk f.mod0; f.d3 l fun t d a b c => .mad f.g t d a b c
  | 0x17 => do chk f.mod0; f.d3 l fun t d a b c => .madw f.g t d a b c
  | 0x18 => do chk f.mod0; f.d2 l fun t d a b => .min f.g t d a b
  | 0x19 => do chk f.mod0; f.d2 l fun t d a b => .max f.g t d a b
  | 0x1A => do let s ← f.modBit; f.d1 l fun t d a => .abs f.g t s d a
  | 0x1B => do let s ← f.modBit; f.d1 l fun t d a => .neg f.g t s d a
  | 0x1C => do chk f.mod0; f.d2 l fun t d a b => .and f.g t d a b
  | 0x1D => do chk f.mod0; f.d2 l fun t d a b => .or f.g t d a b
  | 0x1E => do chk f.mod0; f.d2 l fun t d a b => .xor f.g t d a b
  | 0x1F => do chk f.mod0; f.d1 l fun t d a => .not f.g t d a
  | 0x20 => do chk f.mod0; f.d2 l fun t d a b => .shl f.g t d a b
  | 0x21 => do chk f.mod0; f.d2 l fun t d a b => .shr f.g t d a b
  | 0x22 => do chk f.mod0; f.d2 l fun t d a b => .sar f.g t d a b
  | 0x23 => do let r ← f.modBit; f.d2 l fun t d a b => .rot f.g t r d a b
  | 0x24 => do chk f.mod0; f.d2 l fun t d a b => .bfe f.g t d a b
  | 0x25 => do chk f.mod0; f.d3 l fun t d a b c => .bfi f.g t d a b c
  | 0x26 => do chk f.mod0; f.d1 l fun t d a => .popc f.g t d a
  | 0x27 => do chk f.mod0; f.d1 l fun t d a => .clz f.g t d a
  | 0x28 => do chk f.mod0; f.d1 l fun t d a => .brev f.g t d a
  | 0x29 => do chk (f.mod0 && f.ty == 0); f.d3 l fun _ d a b c => .prmt f.g d a b c
  | 0x2A => do chk f.mod0; f.d3 l fun t d a b c => .sad f.g t d a b c
  | 0x2B => do
    chk (f.ty == 4 && f.mod.extractLsb' 4 4 == 0)
    f.d2 l fun _ d a b =>
      .lea f.g (f.mod.getLsbD 3) ⟨(f.mod.extractLsb' 0 3).toNat, (f.mod.extractLsb' 0 3).isLt⟩ d a b
  | 0x2C => do chk f.mod0; f.d2 l fun t d a b => .idiv f.g t d a b
  | 0x2D => do chk f.mod0; f.d2 l fun t d a b => .irem f.g t d a b
  | 0x2E => f.d3 l fun t d a b c => .lop3 f.g t f.mod d a b c
  | _ => none

/-- Opcodes 30 to 37 (R107, R163). -/
def decodeCmp (f : AFmt) (l : Option Word64) : Option Instr :=
  match f.opc.toNat with
  | 0x30 => do
    chk (f.mod.extractLsb' 5 3 == 0)
    let c ← ICond.ofCode (f.mod.extractLsb' 0 3)
    f.d2p l fun t d a b p => .iset f.g t c (Combine.ofCode (f.mod.extractLsb' 3 2)) d a b p
  | 0x31 => do
    chk (f.mod.extractLsb' 6 2 == 0)
    let c ← FCond.ofCode (f.mod.extractLsb' 0 4)
    f.d2p l fun t d a b p => .fset f.g t c (Combine.ofCode (f.mod.extractLsb' 4 2)) d a b p
  | 0x32 => do chk f.mod0; f.d2p l fun t d a b p => .sel f.g t d a b p
  | 0x33 => do
    chk (f.ty == 0 && f.dk == 2)
    return .plop f.g (← pField f.d) (← f.predA) (← f.predB) (← f.predC) f.mod
  | 0x34 => do
    chk (f.ty == 0 && f.noB && f.noC && f.mod.extractLsb' 3 5 == 0)
    return .vote f.g (VoteOp.ofCode (f.mod.extractLsb' 0 2)) (f.mod.getLsbD 2) (← f.dst) (← f.predA)
  | 0x35 => do
    chk (f.noB && f.noC)
    return .matchLanes f.g (← Ty.ofCode f.ty) (← f.modBit) (← f.dst) (← f.regA)
  | 0x36 => do
    chk (f.mod0 && f.noC)
    let t ← Ty.ofCode f.ty
    let d ← f.dst
    let a ← f.srcA l
    match d with
    | .p n => return .fclassPred f.g t n a (← f.srcB l)
    | d => do chk f.noB; return .fclassMask f.g t d a
  | 0x37 => do
    chk (f.ty == 0 && f.noB && f.noC)
    match ← f.modBit with
    | false => do chk f.noA; return .pmovPack f.g (← f.dst)
    | true => do chk (f.dk == 2 && f.d == 0); return .pmovUnpack f.g (← f.srcA l)
  | _ => none

/-- Opcodes 38 to 54 (R166, R174 to R179). -/
def decodeFloat (f : AFmt) (l : Option Word64) : Option Instr :=
  match f.opc.toNat with
  | 0x38 => do let m ← f.fmod; f.d2 l fun t d a b => .fadd f.g t m d a b
  | 0x39 => do let m ← f.fmod; f.d2 l fun t d a b => .fsub f.g t m d a b
  | 0x3A => do let m ← f.fmod; f.d2 l fun t d a b => .fmul f.g t m d a b
  | 0x3B => do let m ← f.fmod; f.d3 l fun t d a b c => .ffma f.g t m d a b c
  | 0x3C => do chk f.mod0; f.d2 l fun t d a b => .fmin f.g t d a b
  | 0x3D => do chk f.mod0; f.d2 l fun t d a b => .fmax f.g t d a b
  | 0x3E => do let m ← f.fmod; f.d1 l fun t d a => .frcp f.g t m d a
  | 0x3F => do let m ← f.fmod; f.d1 l fun t d a => .frsq f.g t m d a
  | 0x40 => do let m ← f.fmod; f.d1 l fun t d a => .fsqrt f.g t m d a
  | 0x41 => do let m ← f.fmod; f.d2 l fun t d a b => .fdiv f.g t m d a b
  | 0x42 => do let m ← f.fmod; f.d1 l fun t d a => .fexp2 f.g t m d a
  | 0x43 => do let m ← f.fmod; f.d1 l fun t d a => .flog2 f.g t m d a
  | 0x44 => do let m ← f.fmod; f.d1 l fun t d a => .fsin f.g t m d a
  | 0x45 => do let m ← f.fmod; f.d1 l fun t d a => .fcos f.g t m d a
  | 0x46 => do let m ← f.fmod; f.d1 l fun t d a => .ftanh f.g t m d a
  | 0x47 => do let m ← f.fmod; f.d3 l fun t d a b c => .fdot2 f.g t m d a b c
  | 0x48 => do let m ← f.fmod; f.d1 l fun t d a => .frnd f.g t m d a
  | 0x49 => do let m ← f.fmod; f.d2 l fun t d a b => .fscale f.g t m d a b
  | 0x4A => do chk f.mod0; f.d1 l fun t d a => .fgetx f.g t d a
  | 0x4B => do chk f.mod0; f.d1 l fun t d a => .fgetm f.g t d a
  | 0x50 => do
    chk (f.mod.getLsbD 3 == false)
    let sty ← Ty.ofCode (f.mod.extractLsb' 4 4)
    f.d2 l fun t d a b => .cvt f.g t sty (FMod.ofCode (f.mod.extractLsb' 0 3)) d a b
  | 0x51 => do
    chk (f.mod.getLsbD 4 == false && f.mod.extractLsb' 0 3 == 0)
    let q ← SbFmt.ofCode (f.mod.extractLsb' 6 2)
    f.d1 l fun t d a => .sbpack f.g t q (f.mod.getLsbD 5) (f.mod.getLsbD 3) d a
  | 0x52 => do
    chk (f.ty == 5 && f.mod.extractLsb' 0 6 == 0)
    let q ← SbFmt.ofCode (f.mod.extractLsb' 6 2)
    return .sbunpk f.g q (← f.dst) (← f.regA) (← f.srcB l) (← f.srcC l)
  | 0x53 => do
    chk (f.mod.extractLsb' 0 6 == 0)
    let q ← SbFmt.ofCode (f.mod.extractLsb' 6 2)
    f.d3 l fun t d a b c => .sbscl f.g t q d a b c
  | 0x54 => do chk f.mod0; f.d3 l fun t d a b c => .rng f.g t d a b c
  | _ => none

/-- Opcodes 58 to 5E (R107). -/
def decodeMove (f : AFmt) (l : Option Word64) : Option Instr :=
  match f.opc.toNat with
  | 0x58 => do chk f.mod0; f.d1 l fun t d a => .mov f.g t d a
  | 0x59 => do
    chk (f.ty == 0 && f.mod0 && f.noB && f.noC)
    return .movl f.g (← f.dstV) (← f.regA)
  | 0x5A => do
    chk (f.noC && f.mod.extractLsb' 5 3 == 0)
    let seg := (f.mod.extractLsb' 2 3).toNat
    if h : seg < 6 then
      return .shfl f.g (← Ty.ofCode f.ty) (ShflMode.ofCode (f.mod.extractLsb' 0 2)) ⟨seg, h⟩ (← f.dstV) (← f.regA)
        (← f.srcB l)
    else none
  | 0x5B => do
    chk (f.noC && f.mod0)
    return .bcast f.g (← Ty.ofCode f.ty) (← f.dst) (← f.regA) (← f.srcB l)
  | 0x5C => do
    chk (f.noB && f.noC && f.mod.extractLsb' 3 2 == 0)
    return .redux f.g (← Ty.ofCode f.ty) (← ReduxOp.ofCode (f.mod.extractLsb' 5 3))
      (FMod.ofCode (f.mod.extractLsb' 0 3)) (← f.dst) (← f.regA)
  | 0x5D => do
    chk (f.noB && f.noC && f.mod0 && f.ka == 0)
    return .gets f.g (← Ty.ofCode f.ty) (← f.dst) f.a
  | 0x5E => do
    chk (f.noB && f.noC && f.mod0 && f.dk == 0)
    return .sets f.g (← Ty.ofCode f.ty) f.d (← f.srcA l)
  | _ => none

def MFmt.g (f : MFmt) : Guard := Guard.ofBits f.pg f.pn
def MFmt.maddr (f : MFmt) : Option MAddr := do return { base := ← Base.ofBits f.ka f.ab, off := f.off }
def MFmt.waddr (f : MFmt) : Option WAddr := do
  return { base := ← Base.ofBits f.ka f.ab, woff := f.off.extractLsb' 0 11 }
def MFmt.op (f : MFmt) : BitVec 5 := f.off.extractLsb' 11 5

/-- Opcodes 60 to 6B and 6D (R253). -/
def decodeMem (f : MFmt) : Option Instr :=
  let sco := Scope.ofCode f.sco
  let ord := Order.ofCode f.ord
  let ch := Cache.ofCode f.ch
  match f.opc.toNat with
  | 0x60 => do chk (f.x == 0); return .ld f.g (← MSize.ofCode f.sz) sco ord ch (vField f.d) (← f.maddr)
  | 0x61 => do chk (f.x == 0); return .st f.g (← MSize.ofCode f.sz) sco ord ch (vField f.d) (← f.maddr)
  | 0x62 => do chk (f.x == 0); return .lds f.g (← MSize.ofCode f.sz) sco ord ch (← sField f.d) (← f.maddr)
  | 0x63 => do chk (f.x == 0); return .sts f.g (← MSize.ofCode f.sz) sco ord ch (← sField f.d) (← f.maddr)
  | 0x64 => do
    chk (f.ch == 0)
    if h : f.x.toNat < 3 then
      return .ldg f.g (← LdgOp.ofCode f.op) (← MSize.ofCode f.sz) ⟨f.x.toNat, h⟩ sco ord (vField f.d) (← f.waddr)
    else none
  | 0x65 => do
    chk (f.ch == 0)
    return .atom f.g (← AtomOp.ofCode f.op) (← MSize.ofCode f.sz) sco ord (vField f.d) (← f.waddr) (vField f.x)
  | 0x66 => do
    chk (f.ch == 0 && f.d == 0)
    return .red f.g (← AtomOp.ofCode f.op) (← MSize.ofCode f.sz) sco ord (← f.waddr) (vField f.x)
  | 0x67 => do
    chk (f.ch == 0 && f.op == 0)
    return .cas f.g (← MSize.ofCode f.sz) sco ord (vField f.d) (← f.waddr) (vField f.x)
  | 0x68 => do
    chk (f.sz == 0 && f.d == 0 && f.ab == 0 && f.x == 0 && f.ch == 0 && f.ka == 0 && f.off == 0)
    return .fence f.g sco ord
  | 0x69 => do
    chk (f.sz == 0 && f.d == 0 && f.x == 0 && f.sco == 0 && f.ord == 0)
    return .pref f.g ch (← f.maddr)
  | 0x6A => do
    chk (f.sz == 0 && f.d == 0 && f.x == 0 && f.sco == 0 && f.ch == 0)
    match ord with
    | .rlx => return .cwb f.g false (← f.maddr)
    | .rel => return .cwb f.g true (← f.maddr)
    | _ => none
  | 0x6B => do
    chk (f.sz == 0 && f.d == 0 && f.x == 0 && f.sco == 0 && f.ch == 0)
    match ord with
    | .rlx => return .cinv f.g false (← f.maddr)
    | .acq => return .cinv f.g true (← f.maddr)
    | _ => none
  | 0x6D => do
    chk (f.ch == 0)
    return .waitne f.g (← MSize.ofCode f.sz) sco ord (vField f.d) (← f.maddr) (vField f.x)
  | _ => none

def JFmt.g (f : JFmt) : Guard := Guard.ofBits f.pg f.pn

/-- MODE 0 or 4 (R112). -/
def JFmt.div (f : JFmt) : Option Bool := if f.mode = 0 then some false else if f.mode = 4 then some true else none

/-- Opcodes 02 and 04 to 09 (R107). -/
def decodeJump (f : JFmt) : Option Instr :=
  match f.opc.toNat with
  | 0x02 => do chk (f.mode == 0 && f.reg == 0 && f.aux == 0 && f.tgt == 0); return .exit f.g
  | 0x04 => do chk (f.reg == 0 && f.aux == 0); return .bra f.g (← BraMode.ofCode f.mode) f.tgt
  | 0x05 => do chk (f.aux == 0 && f.tgt == 0); return .brx f.g (← f.div) (vField f.reg)
  | 0x06 => do chk (f.mode == 0 && f.reg == 0 && f.aux == 0); return .call f.g f.tgt
  | 0x07 => do chk (f.aux == 0 && f.tgt == 0); return .callv f.g (← f.div) (vField f.reg)
  | 0x08 => do chk (f.mode == 0 && f.reg == 0 && f.aux == 0 && f.tgt == 0); return .ret f.g
  | 0x09 => do
    chk (f.mode == 0 && f.tgt.extractLsb' 3 29 == 0)
    return .dispatch f.g (vField f.reg) (vField f.aux) ⟨(f.tgt.extractLsb' 0 3).toNat, (f.tgt.extractLsb' 0 3).isLt⟩
  | _ => none

def CFmt.g (f : CFmt) : Guard := Guard.ofBits f.pg f.pn
/-- The fields that a C-format word leaves unused are zero: sub, sd, sa, sb, sc, imm in this order. -/
def CFmt.zero (f : CFmt) (sub sd sa sb sc imm : Bool) : Bool :=
  (!sub || f.sub == 0) && (!sd || f.sd == 0) && (!sa || f.sa == 0) && (!sb || f.sb == 0) && (!sc || f.sc == 0) &&
    (!imm || f.imm == 0)

/-- Sd, Sa with everything else zero, and SUB given. -/
def CFmt.dA (f : CFmt) (k : Fin 64 → Fin 64 → Instr) : Option Instr := do
  chk (f.zero false false false true true true)
  return k (← sField f.sd) (← sField f.sa)

/-- Sd, Sa, Sb with everything else zero. -/
def CFmt.dAB (f : CFmt) (k : Fin 64 → Fin 64 → Fin 64 → Instr) : Option Instr := do
  chk (f.zero false false false false true true)
  return k (← sField f.sd) (← sField f.sa) (← sField f.sb)

/-- Sd and a barrier. -/
def CFmt.dBar (f : CFmt) (k : Fin 64 → Bar → Instr) : Option Instr := do
  chk (f.zero false false true true true false)
  return k (← sField f.sd) (← Bar.ofCode f.imm)

/-- Sa and a barrier. -/
def CFmt.aBar (f : CFmt) (k : Fin 64 → Bar → Instr) : Option Instr := do
  chk (f.zero false true false true true false)
  return k (← sField f.sa) (← Bar.ofCode f.imm)

/-- Pd, Sc and a barrier. -/
def CFmt.pcBar (f : CFmt) (k : Fin 8 → Fin 64 → Bar → Instr) : Option Instr := do
  chk (f.zero true false true true false false)
  return k (← pField f.sd) (← sField f.sc) (← Bar.ofCode f.imm)

/-- Opcodes 03 and 0A to 0D (R107), 6C and 6E to 72 (R272, R274). -/
def decodeCtl (f : CFmt) : Option Instr :=
  match f.opc.toNat with
  | 0x03 => do chk (f.zero true true true true true false); return .brk f.g f.imm
  | 0x0A => do
    chk (f.zero true false true false true false)
    if h : f.imm.toNat < 8 then return .role f.g (← pField f.sd) (← sField f.sb) ⟨f.imm.toNat, h⟩ else none
  | 0x0B => do
    chk (f.sub.extractLsb' 1 3 == 0 && f.zero false false false false true true)
    return .launch f.g (f.sub.getLsbD 0) (← pField f.sd) (← sField f.sa) (← sField f.sb)
  | 0x0C => do chk (f.zero true true true true true false); return .trap f.g f.imm
  | 0x0D => do
    chk (f.zero true false false true true true)
    return .wsync f.g (← pField f.sd) (← sField f.sa)
  | 0x6C =>
    match f.sub.toNat with
    | 0 => do
      chk (f.sc == 0 && f.imm.extractLsb' 4 12 == 0)
      return .resideClass f.g (← sField f.sd) (← sField f.sa) (← sField f.sb) (Reuse.ofCode (f.imm.extractLsb' 0 2))
        (f.imm.getLsbD 2) (f.imm.getLsbD 3)
    | 1 => f.dAB fun d a b => .residePin f.g d a b
    | 2 => f.dAB fun d a b => .resideUnpin f.g d a b
    | 3 => do
      chk (f.sb == 0 && f.sc == 0 && f.imm.extractLsb' 3 13 == 0)
      return .resideTprio f.g (← sField f.sd) (← sField f.sa)
        ⟨(f.imm.extractLsb' 0 3).toNat, (f.imm.extractLsb' 0 3).isLt⟩
    | 4 => f.dAB fun d a b => .resideClose f.g d a b
    | _ => none
  | 0x6E => do chk (f.sub == 0); f.dA fun d a => .kvfind f.g d a
  | 0x6F => do
    chk (f.sub == 0 && f.sb == 0 && f.imm.extractLsb' 1 15 == 0)
    return .kvput f.g (f.imm.getLsbD 0) (← sField f.sd) (← sField f.sa) (← sField f.sc)
  | 0x70 =>
    match f.sub.toNat with
    | 0 => f.dA fun d a => .kvdrop f.g d a
    | 1 => f.dA fun d a => .kvdropTensor f.g d a
    | _ => none
  | 0x71 => do chk (f.zero true false true true true false); return .acgrow f.g (← sField f.sd) f.imm
  | 0x72 => do chk (f.zero true false true true true false); return .acfree f.g (← sField f.sd) f.imm
  | _ => none

/-- Opcodes 80 to 87 (R277, R290), 90 to 97 (R309) and A0 to A4 (R363). -/
def decodeCard (f : CFmt) : Option Instr :=
  match f.opc.toNat with
  | 0x80 => do chk (f.sub == 0); f.dA fun d a => .cpy f.g d a
  | 0x81 => do chk (f.sub == 0); f.dA fun d a => .cpym f.g d a
  | 0x82 => do chk (f.sub == 0); f.dA fun d a => .cpysc f.g d a
  | 0x83 => do chk (f.sub == 0); f.dA fun d a => .xpose f.g d a
  | 0x84 => do chk (f.sub == 0); f.dA fun d a => .sred f.g d a
  | 0x85 => do chk (f.zero true false true true true true); return .afence f.g (← sField f.sd)
  | 0x86 =>
    match f.sub.toNat with
    | 0 => do chk (f.zero false true false true true true); return .awaitBatch f.g (← sField f.sa)
    | 1 => do chk (f.zero false true true true true true); return .awaitAll f.g
    | _ => none
  | 0x87 =>
    match f.sub.toNat with
    | 0 => do chk (f.zero false false false true true true); return .atest f.g (← pField f.sd) (← sField f.sa)
    | 1 => do chk (f.zero false false true true true true); return .atestAll f.g (← pField f.sd)
    | _ => none
  | 0x90 => do
    chk (f.zero true false true true true false && f.imm.extractLsb' 2 14 == 0)
    return .marr f.g (← sField f.sd) ⟨(f.imm.extractLsb' 0 2).toNat, (f.imm.extractLsb' 0 2).isLt⟩
  | 0x91 => do chk (f.sub == 0); f.dAB fun d a b => .bload f.g d a b
  | 0x92 => do chk (f.sub == 0); f.dA fun d a => .minit f.g d a
  | 0x93 => do chk (f.sub == 0); f.dAB fun d a b => .mma f.g d a b
  | 0x94 => do
    chk (f.sub == 0 && f.imm.extractLsb' 3 13 == 0)
    if h : (f.imm.extractLsb' 0 3).toNat < 5 then
      return .mmasp f.g ⟨(f.imm.extractLsb' 0 3).toNat, h⟩ (← sField f.sd) (← sField f.sa) (← sField f.sb) (vField f.sc)
    else none
  | 0x95 => do
    chk (f.sub == 0 && f.imm == 0)
    return .mdrain f.g (← sField f.sd) (← sField f.sa) (← sField f.sb) (← sField f.sc)
  | 0x96 => do
    chk (f.zero false false false true true true)
    match f.sub.toNat with
    | 0 => return .mread f.g (vField f.sd) (← sField f.sa)
    | 1 => return .mreadAnc f.g (vField f.sd) (← sField f.sa)
    | _ => none
  | 0x97 => do
    chk (f.zero false true false false true true)
    match f.sub.toNat with
    | 0 => return .mwrite f.g (← sField f.sa) (vField f.sb)
    | 1 => return .mwriteAnc f.g (← sField f.sa) (vField f.sb)
    | _ => none
  | 0xA0 => f.pcBar fun p c b => .bara f.g p c b
  | 0xA1 => f.pcBar fun p c b => .barw f.g p c b
  | 0xA2 =>
    match f.sub.toNat with
    | 0 => f.dBar fun d b => .barsRoot f.g d b
    | 1 => f.dBar fun d b => .barsOwn f.g d b
    | _ => none
  | 0xA3 =>
    match f.sub.toNat with
    | 0 => f.dBar fun d b => .barqRoot f.g d b
    | 1 => f.dBar fun d b => .barqMem f.g d b
    | 2 => f.dBar fun d b => .barqArr f.g d b
    | 3 => f.dBar fun d b => .barqEarly f.g d b
    | 4 => f.dBar fun d b => .barqWait f.g d b
    | _ => none
  | 0xA4 =>
    match f.sub.toNat with
    | 0 => f.aBar fun a b => .barsetRoot f.g a b
    | 1 => f.aBar fun a b => .barsetMem f.g a b
    | 2 => f.aBar fun a b => .barsetArr f.g a b
    | 3 => f.aBar fun a b => .barsetEarly f.g a b
    | 4 => f.aBar fun a b => .barsetWait f.g a b
    | _ => none
  | _ => none

/-- Opcodes C0 to CE (R405). -/
def decodeSys (f : CFmt) : Option Instr :=
  match f.opc.toNat with
  | 0xC0 => do
    chk (f.zero false true true true true true)
    match f.sub.toNat with
    | 0 => return .tret f.g
    | 1 => return .tretSaved f.g
    | _ => none
  | 0xC1 =>
    match f.sub.toNat with
    | 0 => do chk (f.zero false true false true true true); return .tlbiPage f.g (← sField f.sa)
    | 1 => do chk (f.zero false true false false true true); return .tlbiRange f.g (← sField f.sa) (← sField f.sb)
    | 2 => do chk (f.zero false true true true true true); return .tlbiAsid f.g
    | _ => none
  | 0xC2 => do chk (f.zero true true true true true true); return .genadv f.g
  | 0xC3 => do chk (f.zero true true false true true true); return .dvsave f.g (← sField f.sa)
  | 0xC4 => do chk (f.sub == 0); f.dA fun d a => .dvload f.g d a
  | 0xC5 => do
    chk (f.zero true true false true true false)
    if h : f.imm.toNat < 4 then return .sigset f.g (← sField f.sa) ⟨f.imm.toNat, h⟩ else none
  | 0xC6 => do
    chk (f.zero true false true true true false)
    if h : f.imm.toNat < 4 then return .sigrd f.g (← sField f.sd) ⟨f.imm.toNat, h⟩ else none
  | 0xC7 => do chk (f.sub == 0); f.dA fun d a => .mapft f.g d a
  | 0xC8 => do chk (f.sub == 0); f.dA fun d a => .killw f.g d a
  | 0xC9 => do chk (f.sub == 0); f.dA fun d a => .migr f.g d a
  | 0xCA => do chk (f.sub == 0); f.dAB fun d a b => .scrub f.g d a b
  | 0xCB => do chk (f.zero true true false true true true); return .keyz f.g (← sField f.sa)
  | 0xCC =>
    match f.sub.toNat with
    | 0 => f.dA fun d a => .qsaveRq f.g d a
    | 1 => f.dA fun d a => .qsaveMac f.g d a
    | 2 => f.dA fun d a => .qsaveRbq f.g d a
    | _ => none
  | 0xCD =>
    match f.sub.toNat with
    | 0 => f.dA fun d a => .qloadRq f.g d a
    | 1 => f.dA fun d a => .qloadMac f.g d a
    | 2 => f.dA fun d a => .qloadRbq f.g d a
    | _ => none
  | 0xCE => do chk (f.sub == 0); f.dAB fun d a b => .pgdisc f.g d a b
  | _ => none

/-- The formats of the opcode map (R89); none for a reserved code and for the header's 0xFF. -/
inductive Form where
  | aInt | aCmp | aFloat | aMove | m | j | cCtl | cCard | cSys
  deriving DecidableEq, Repr

/-- The opcode map of R89. -/
def formOf (opc : Nat) : Option Form :=
  if opc ≤ 0x01 then some .aInt
  else if opc = 0x02 then some .j
  else if opc = 0x03 then some .cCtl
  else if opc ≤ 0x09 then some .j
  else if opc ≤ 0x0D then some .cCtl
  else if 0x10 ≤ opc ∧ opc ≤ 0x2E then some .aInt
  else if 0x30 ≤ opc ∧ opc ≤ 0x37 then some .aCmp
  else if 0x38 ≤ opc ∧ opc ≤ 0x4B ∨ 0x50 ≤ opc ∧ opc ≤ 0x54 then some .aFloat
  else if 0x58 ≤ opc ∧ opc ≤ 0x5E then some .aMove
  else if 0x60 ≤ opc ∧ opc ≤ 0x6B ∨ opc = 0x6D then some .m
  else if opc = 0x6C ∨ 0x6E ≤ opc ∧ opc ≤ 0x72 then some .cCtl
  else if 0x80 ≤ opc ∧ opc ≤ 0x87 ∨ 0x90 ≤ opc ∧ opc ≤ 0x97 ∨ 0xA0 ≤ opc ∧ opc ≤ 0xA4 then some .cCard
  else if 0xC0 ≤ opc ∧ opc ≤ 0xCE then some .cSys
  else none

/-- The opcode of a word. -/
def opcOf (w : Word64) : Nat := (w.extractLsb' 56 8).toNat

/-- The word's fields taken apart, before the checks of WellFormed. -/
def parseWord (w : Word64) (lit : Option Word64) : Option Instr :=
  match formOf (opcOf w) with
  | some .aInt => decodeInt (AFmt.ofWord w) lit
  | some .aCmp => decodeCmp (AFmt.ofWord w) lit
  | some .aFloat => decodeFloat (AFmt.ofWord w) lit
  | some .aMove => decodeMove (AFmt.ofWord w) lit
  | some .m => decodeMem (MFmt.ofWord w)
  | some .j => decodeJump (JFmt.ofWord w)
  | some .cCtl => decodeCtl (CFmt.ofWord w)
  | some .cCard => decodeCard (CFmt.ofWord w)
  | some .cSys => decodeSys (CFmt.ofWord w)
  | none => none

/-- The instruction of a word and its literal word, if it has one; none where R90 makes it ILLEGAL. -/
def decodeWord (w : Word64) (lit : Option Word64) : Option Instr :=
  match parseWord w lit with
  | some i => if i.wf then some i else none
  | none => none

/-- R82, R89: an A-format word with an operand of kind 11 is followed by its literal word. -/
def needsLiteral (w : Word64) : Bool :=
  match formOf (opcOf w) with
  | some .aInt | some .aCmp | some .aFloat | some .aMove =>
    let f := AFmt.ofWord w
    f.ka == 3 || f.kb == 3 || f.kc == 3
  | _ => false

/-- Why bytes are no instruction (R90). -/
inductive Reject where
  /-- fewer bytes than a word -/
  | short
  /-- OPC 0xFF: a header -/
  | header
  /-- a reserved opcode (R89) -/
  | reservedOpcode
  /-- an operand of kind 11 with no word after it (R77) -/
  | noLiteral
  /-- a field value the instruction does not list (R78 to R88) -/
  | field
  deriving DecidableEq, Repr

/-- What a decoder answers: an instruction and the bytes after it, or a rejection by name. -/
inductive Decoded where
  | ok (i : Instr) (rest : List Byte)
  | bad (r : Reject)
  deriving DecidableEq, Repr

/-- The little-endian word at the head of a byte list. -/
def takeWord : List Byte → Option (Word64 × List Byte)
  | b0 :: b1 :: b2 :: b3 :: b4 :: b5 :: b6 :: b7 :: rest =>
    some (b7 ++ b6 ++ b5 ++ b4 ++ b3 ++ b2 ++ b1 ++ b0, rest)
  | _ => none

/-- The eight bytes of a word, lowest first. -/
def wordBytes (w : Word64) : List Byte := (List.range 8).map fun i => w.extractLsb' (8 * i) 8

/-- The instruction at the head of a byte list (R90). -/
def decode (bs : List Byte) : Decoded :=
  match takeWord bs with
  | none => .bad .short
  | some (w, rest) =>
    if isHeader w then .bad .header
    else if formOf (opcOf w) = none then .bad .reservedOpcode
    else if needsLiteral w then
      match takeWord rest with
      | none => .bad .noLiteral
      | some (l, rest') =>
        match decodeWord w (some l) with
        | some i => .ok i rest'
        | none => .bad .field
    else
      match decodeWord w none with
      | some i => .ok i rest
      | none => .bad .field

/-- The instruction the decoder reads from a table row's bits: the first word in bits 63:0 and a literal word
in bits 127:64, every bit above nbits zero, laid out as bytes in memory order (R12, R82). -/
def decodeTableWord (nbits w : Nat) : Option Instr :=
  let v := w % 2 ^ nbits
  match decode (wordBytes (BitVec.ofNat 64 v) ++ wordBytes (BitVec.ofNat 64 (v / 2 ^ 64))) with
  | .ok i _ => some i
  | .bad _ => none

/-! ## The encoder -/

/-- An A-format word and the literal words of its sources. -/
def encA (opc : BitVec 8) (g : Guard) (ty : BitVec 4) (dk : BitVec 2) (d : BitVec 8) (a b c : Src) (mod : BitVec 8) :
    List Word64 :=
  AFmt.toWord
    { opc := opc, pg := g.bitsP, pn := g.bitsN, ty := ty, d := d, a := a.field, b := b.field, c := c.field,
      ka := a.kind, kb := b.kind, kc := c.kind, dk := dk, mod := mod } :: (a.word ++ b.word ++ c.word)

/-- The unused source: field and kind zero. -/
def noSrc : Src := .v 0

/-- A predicate index in a source field. -/
def pSrc (p : Fin 8) : Src := .v ⟨p.val, by omega⟩

def enc1 (opc : BitVec 8) (g : Guard) (ty : Ty) (d : Dst) (a : Src) (mod : BitVec 8) : List Word64 :=
  encA opc g ty.code d.kind d.field a noSrc noSrc mod
def enc2 (opc : BitVec 8) (g : Guard) (ty : Ty) (d : Dst) (a b : Src) (mod : BitVec 8) : List Word64 :=
  encA opc g ty.code d.kind d.field a b noSrc mod
def enc3 (opc : BitVec 8) (g : Guard) (ty : Ty) (d : Dst) (a b c : Src) (mod : BitVec 8) : List Word64 :=
  encA opc g ty.code d.kind d.field a b c mod

/-- A bit in bit 0 of MOD. -/
def bit0 (b : Bool) : BitVec 8 := 0#7 ++ BitVec.ofBool b

/-- MOD of R81 with XMOD zero. -/
def fmodBits (m : FMod) : BitVec 8 := 0#5 ++ m.code

def encM (opc : BitVec 8) (g : Guard) (sz : BitVec 4) (d : BitVec 8) (b : Base) (x : BitVec 8) (sco : Scope)
    (ord : Order) (ch : Cache) (off : BitVec 16) : List Word64 :=
  [MFmt.toWord
    { opc := opc, pg := g.bitsP, pn := g.bitsN, sz := sz, d := d, ab := b.field, x := x, sco := sco.code,
      ord := ord.code, ch := ch.code, ka := b.kind, off := off }]

def encJ (opc : BitVec 8) (g : Guard) (mode : BitVec 4) (reg aux : BitVec 8) (tgt : BitVec 32) : List Word64 :=
  [JFmt.toWord { opc := opc, pg := g.bitsP, pn := g.bitsN, mode := mode, reg := reg, aux := aux, tgt := tgt }]

def encC (opc : BitVec 8) (g : Guard) (sub : BitVec 4) (sd sa sb sc : BitVec 8) (imm : BitVec 16) : List Word64 :=
  [CFmt.toWord
    { opc := opc, pg := g.bitsP, pn := g.bitsN, sub := sub, sd := sd, sa := sa, sb := sb, sc := sc, imm := imm }]

/-- MODE of BRX and CALLV. -/
def divBits (div : Bool) : BitVec 4 := if div then 4 else 0

/-- MODE, SD, SA and barrier of a C-format barrier word. -/
def encBar (opc : BitVec 8) (g : Guard) (sub : BitVec 4) (sd sa sc : BitVec 8) (b : Bar) : List Word64 :=
  encC opc g sub sd sa 0 sc b.code

/-- The words of an instruction (R80 to R88 and the encoding tables); events have none. -/
def encode : Instr → List Word64
  | .nop g => encA 0x00 g 0 0 0 noSrc noSrc noSrc 0
  | .yield g => encA 0x01 g 0 0 0 noSrc noSrc noSrc 0
  | .exit g => encJ 0x02 g 0 0 0 0
  | .brk g imm => encC 0x03 g 0 0 0 0 0 imm
  | .bra g m t => encJ 0x04 g m.code 0 0 t
  | .brx g dv r => encJ 0x05 g (divBits dv) (vBits r) 0 0
  | .call g t => encJ 0x06 g 0 0 0 t
  | .callv g dv r => encJ 0x07 g (divBits dv) (vBits r) 0 0
  | .ret g => encJ 0x08 g 0 0 0 0
  | .dispatch g r x p => encJ 0x09 g 0 (vBits r) (vBits x) (0#29 ++ BitVec.ofNat 3 p.val)
  | .role g p sb r => encC 0x0A g 0 (pBits p) 0 (sBits sb) 0 (BitVec.ofNat 16 r.val)
  | .launch g ser p sa sb => encC 0x0B g (0#3 ++ BitVec.ofBool ser) (pBits p) (sBits sa) (sBits sb) 0 0
  | .trap g imm => encC 0x0C g 0 0 0 0 0 imm
  | .wsync g p sa => encC 0x0D g 0 (pBits p) (sBits sa) 0 0 0
  | .add g t s d a b => enc2 0x10 g t d a b (bit0 s)
  | .sub g t s d a b => enc2 0x11 g t d a b (bit0 s)
  | .addc g t d a b p => enc3 0x12 g t d a b (pSrc p) 0
  | .subb g t d a b p => enc3 0x13 g t d a b (pSrc p) 0
  | .mul g t d a b => enc2 0x14 g t d a b 0
  | .mulhi g t d a b => enc2 0x15 g t d a b 0
  | .mad g t d a b c => enc3 0x16 g t d a b c 0
  | .madw g t d a b c => enc3 0x17 g t d a b c 0
  | .min g t d a b => enc2 0x18 g t d a b 0
  | .max g t d a b => enc2 0x19 g t d a b 0
  | .abs g t s d a => enc1 0x1A g t d a (bit0 s)
  | .neg g t s d a => enc1 0x1B g t d a (bit0 s)
  | .and g t d a b => enc2 0x1C g t d a b 0
  | .or g t d a b => enc2 0x1D g t d a b 0
  | .xor g t d a b => enc2 0x1E g t d a b 0
  | .not g t d a => enc1 0x1F g t d a 0
  | .shl g t d a b => enc2 0x20 g t d a b 0
  | .shr g t d a b => enc2 0x21 g t d a b 0
  | .sar g t d a b => enc2 0x22 g t d a b 0
  | .rot g t r d a b => enc2 0x23 g t d a b (bit0 r)
  | .bfe g t d a b => enc2 0x24 g t d a b 0
  | .bfi g t d a b c => enc3 0x25 g t d a b c 0
  | .popc g t d a => enc1 0x26 g t d a 0
  | .clz g t d a => enc1 0x27 g t d a 0
  | .brev g t d a => enc1 0x28 g t d a 0
  | .prmt g d a b c => enc3 0x29 g .b32 d a b c 0
  | .sad g t d a b c => enc3 0x2A g t d a b c 0
  | .lea g sx sh d a b => enc2 0x2B g .n64 d a b (0#4 ++ BitVec.ofBool sx ++ BitVec.ofNat 3 sh.val)
  | .idiv g t d a b => enc2 0x2C g t d a b 0
  | .irem g t d a b => enc2 0x2D g t d a b 0
  | .lop3 g t f d a b c => enc3 0x2E g t d a b c f
  | .iset g t c k d a b p => enc3 0x30 g t d a b (pSrc p) (0#3 ++ k.code ++ c.code)
  | .fset g t c k d a b p => enc3 0x31 g t d a b (pSrc p) (0#2 ++ k.code ++ c.code)
  | .sel g t d a b p => enc3 0x32 g t d a b (pSrc p) 0
  | .plop g pd pa pb pc f => encA 0x33 g 0 2 (pBits pd) (pSrc pa) (pSrc pb) (pSrc pc) f
  | .vote g op n d pa => encA 0x34 g 0 d.kind d.field (pSrc pa) noSrc noSrc (0#5 ++ BitVec.ofBool n ++ op.code)
  | .matchLanes g t al d a => enc1 0x35 g t d (.v a) (bit0 al)
  | .fclassPred g t p a m => encA 0x36 g t.code 2 (pBits p) a m noSrc 0
  | .fclassMask g t d a => enc1 0x36 g t d a 0
  | .pmovPack g d => encA 0x37 g 0 d.kind d.field noSrc noSrc noSrc 0
  | .pmovUnpack g a => encA 0x37 g 0 2 0 a noSrc noSrc 1
  | .fadd g t m d a b => enc2 0x38 g t d a b (fmodBits m)
  | .fsub g t m d a b => enc2 0x39 g t d a b (fmodBits m)
  | .fmul g t m d a b => enc2 0x3A g t d a b (fmodBits m)
  | .ffma g t m d a b c => enc3 0x3B g t d a b c (fmodBits m)
  | .fmin g t d a b => enc2 0x3C g t d a b 0
  | .fmax g t d a b => enc2 0x3D g t d a b 0
  | .frcp g t m d a => enc1 0x3E g t d a (fmodBits m)
  | .frsq g t m d a => enc1 0x3F g t d a (fmodBits m)
  | .fsqrt g t m d a => enc1 0x40 g t d a (fmodBits m)
  | .fdiv g t m d a b => enc2 0x41 g t d a b (fmodBits m)
  | .fexp2 g t m d a => enc1 0x42 g t d a (fmodBits m)
  | .flog2 g t m d a => enc1 0x43 g t d a (fmodBits m)
  | .fsin g t m d a => enc1 0x44 g t d a (fmodBits m)
  | .fcos g t m d a => enc1 0x45 g t d a (fmodBits m)
  | .ftanh g t m d a => enc1 0x46 g t d a (fmodBits m)
  | .fdot2 g t m d a b c => enc3 0x47 g t d a b c (fmodBits m)
  | .frnd g t m d a => enc1 0x48 g t d a (fmodBits m)
  | .fscale g t m d a b => enc2 0x49 g t d a b (fmodBits m)
  | .fgetx g t d a => enc1 0x4A g t d a 0
  | .fgetm g t d a => enc1 0x4B g t d a 0
  | .cvt g t st m d a b => enc2 0x50 g t d a b (st.code ++ 0#1 ++ m.code)
  | .sbpack g t q dense len32 d a =>
    enc1 0x51 g t d a (q.code ++ BitVec.ofBool dense ++ 0#1 ++ BitVec.ofBool len32 ++ 0#3)
  | .sbunpk g q d a b c => enc3 0x52 g .f32 d (.v a) b c (q.code ++ 0#6)
  | .sbscl g t q d a b c => enc3 0x53 g t d a b c (q.code ++ 0#6)
  | .rng g t d a b c => enc3 0x54 g t d a b c 0
  | .mov g t d a => enc1 0x58 g t d a 0
  | .movl g d a => encA 0x59 g 0 0 (vBits d) (.v a) noSrc noSrc 0
  | .shfl g t m seg d a b =>
    encA 0x5A g t.code 0 (vBits d) (.v a) b noSrc (0#3 ++ BitVec.ofNat 3 seg.val ++ m.code)
  | .bcast g t d a b => enc2 0x5B g t d (.v a) b 0
  | .redux g t op m d a => enc1 0x5C g t d (.v a) (op.code ++ 0#2 ++ m.code)
  | .gets g t d code => encA 0x5D g t.code d.kind d.field (.v ⟨code.toNat, code.isLt⟩) noSrc noSrc 0
  | .sets g t code a => encA 0x5E g t.code 0 code a noSrc noSrc 0
  | .ld g sz sco ord ch d m => encM 0x60 g sz.code (vBits d) m.base 0 sco ord ch m.off
  | .st g sz sco ord ch d m => encM 0x61 g sz.code (vBits d) m.base 0 sco ord ch m.off
  | .lds g sz sco ord ch d m => encM 0x62 g sz.code (sBits d) m.base 0 sco ord ch m.off
  | .sts g sz sco ord ch d m => encM 0x63 g sz.code (sBits d) m.base 0 sco ord ch m.off
  | .ldg g op sz w sco ord d m =>
    encM 0x64 g sz.code (vBits d) m.base (BitVec.ofNat 8 w.val) sco ord .dflt (op.code ++ m.woff)
  | .atom g op sz sco ord d m x => encM 0x65 g sz.code (vBits d) m.base (vBits x) sco ord .dflt (op.code ++ m.woff)
  | .red g op sz sco ord m x => encM 0x66 g sz.code 0 m.base (vBits x) sco ord .dflt (op.code ++ m.woff)
  | .cas g sz sco ord d m x => encM 0x67 g sz.code (vBits d) m.base (vBits x) sco ord .dflt (0#5 ++ m.woff)
  | .fence g sco ord => encM 0x68 g 0 0 (.v 0) 0 sco ord .dflt 0
  | .pref g ch m => encM 0x69 g 0 0 m.base 0 .none .rlx ch m.off
  | .cwb g rel m => encM 0x6A g 0 0 m.base 0 .none (if rel then .rel else .rlx) .dflt m.off
  | .cinv g acq m => encM 0x6B g 0 0 m.base 0 .none (if acq then .acq else .rlx) .dflt m.off
  | .waitne g sz sco ord d m x => encM 0x6D g sz.code (vBits d) m.base (vBits x) sco ord .dflt m.off
  | .resideClass g sd sa sb c r nt =>
    encC 0x6C g 0 (sBits sd) (sBits sa) (sBits sb) 0 (0#12 ++ BitVec.ofBool nt ++ BitVec.ofBool r ++ c.code)
  | .residePin g sd sa sb => encC 0x6C g 1 (sBits sd) (sBits sa) (sBits sb) 0 0
  | .resideUnpin g sd sa sb => encC 0x6C g 2 (sBits sd) (sBits sa) (sBits sb) 0 0
  | .resideTprio g sd sa c => encC 0x6C g 3 (sBits sd) (sBits sa) 0 0 (0#13 ++ BitVec.ofNat 3 c.val)
  | .resideClose g sd sa sb => encC 0x6C g 4 (sBits sd) (sBits sa) (sBits sb) 0 0
  | .kvfind g sd sa => encC 0x6E g 0 (sBits sd) (sBits sa) 0 0 0
  | .kvput g pin sd sa sc => encC 0x6F g 0 (sBits sd) (sBits sa) 0 (sBits sc) (0#15 ++ BitVec.ofBool pin)
  | .kvdrop g sd sa => encC 0x70 g 0 (sBits sd) (sBits sa) 0 0 0
  | .kvdropTensor g sd sa => encC 0x70 g 1 (sBits sd) (sBits sa) 0 0 0
  | .acgrow g sd n => encC 0x71 g 0 (sBits sd) 0 0 0 n
  | .acfree g sd n => encC 0x72 g 0 (sBits sd) 0 0 0 n
  | .cpy g sd sa => encC 0x80 g 0 (sBits sd) (sBits sa) 0 0 0
  | .cpym g sd sa => encC 0x81 g 0 (sBits sd) (sBits sa) 0 0 0
  | .cpysc g sd sa => encC 0x82 g 0 (sBits sd) (sBits sa) 0 0 0
  | .xpose g sd sa => encC 0x83 g 0 (sBits sd) (sBits sa) 0 0 0
  | .sred g sd sa => encC 0x84 g 0 (sBits sd) (sBits sa) 0 0 0
  | .afence g sd => encC 0x85 g 0 (sBits sd) 0 0 0 0
  | .awaitBatch g sa => encC 0x86 g 0 0 (sBits sa) 0 0 0
  | .awaitAll g => encC 0x86 g 1 0 0 0 0 0
  | .atest g p sa => encC 0x87 g 0 (pBits p) (sBits sa) 0 0 0
  | .atestAll g p => encC 0x87 g 1 (pBits p) 0 0 0 0
  | .marr g sd k => encC 0x90 g 0 (sBits sd) 0 0 0 (BitVec.ofNat 16 k.val)
  | .bload g sd sa sb => encC 0x91 g 0 (sBits sd) (sBits sa) (sBits sb) 0 0
  | .minit g sd sa => encC 0x92 g 0 (sBits sd) (sBits sa) 0 0 0
  | .mma g sd sa sb => encC 0x93 g 0 (sBits sd) (sBits sa) (sBits sb) 0 0
  | .mmasp g sel sd sa sb vc => encC 0x94 g 0 (sBits sd) (sBits sa) (sBits sb) (vBits vc) (BitVec.ofNat 16 sel.val)
  | .mdrain g sd sa sb sc => encC 0x95 g 0 (sBits sd) (sBits sa) (sBits sb) (sBits sc) 0
  | .mread g d sa => encC 0x96 g 0 (vBits d) (sBits sa) 0 0 0
  | .mreadAnc g d sa => encC 0x96 g 1 (vBits d) (sBits sa) 0 0 0
  | .mwrite g sa b => encC 0x97 g 0 0 (sBits sa) (vBits b) 0 0
  | .mwriteAnc g sa b => encC 0x97 g 1 0 (sBits sa) (vBits b) 0 0
  | .bara g p c b => encBar 0xA0 g 0 (pBits p) 0 (sBits c) b
  | .barw g p c b => encBar 0xA1 g 0 (pBits p) 0 (sBits c) b
  | .barsRoot g d b => encBar 0xA2 g 0 (sBits d) 0 0 b
  | .barsOwn g d b => encBar 0xA2 g 1 (sBits d) 0 0 b
  | .barqRoot g d b => encBar 0xA3 g 0 (sBits d) 0 0 b
  | .barqMem g d b => encBar 0xA3 g 1 (sBits d) 0 0 b
  | .barqArr g d b => encBar 0xA3 g 2 (sBits d) 0 0 b
  | .barqEarly g d b => encBar 0xA3 g 3 (sBits d) 0 0 b
  | .barqWait g d b => encBar 0xA3 g 4 (sBits d) 0 0 b
  | .barsetRoot g a b => encBar 0xA4 g 0 0 (sBits a) 0 b
  | .barsetMem g a b => encBar 0xA4 g 1 0 (sBits a) 0 b
  | .barsetArr g a b => encBar 0xA4 g 2 0 (sBits a) 0 b
  | .barsetEarly g a b => encBar 0xA4 g 3 0 (sBits a) 0 b
  | .barsetWait g a b => encBar 0xA4 g 4 0 (sBits a) 0 b
  | .tret g => encC 0xC0 g 0 0 0 0 0 0
  | .tretSaved g => encC 0xC0 g 1 0 0 0 0 0
  | .tlbiPage g sa => encC 0xC1 g 0 0 (sBits sa) 0 0 0
  | .tlbiRange g sa sb => encC 0xC1 g 1 0 (sBits sa) (sBits sb) 0 0
  | .tlbiAsid g => encC 0xC1 g 2 0 0 0 0 0
  | .genadv g => encC 0xC2 g 0 0 0 0 0 0
  | .dvsave g sa => encC 0xC3 g 0 0 (sBits sa) 0 0 0
  | .dvload g sd sa => encC 0xC4 g 0 (sBits sd) (sBits sa) 0 0 0
  | .sigset g sa n => encC 0xC5 g 0 0 (sBits sa) 0 0 (BitVec.ofNat 16 n.val)
  | .sigrd g sd n => encC 0xC6 g 0 (sBits sd) 0 0 0 (BitVec.ofNat 16 n.val)
  | .mapft g sd sa => encC 0xC7 g 0 (sBits sd) (sBits sa) 0 0 0
  | .killw g sd sa => encC 0xC8 g 0 (sBits sd) (sBits sa) 0 0 0
  | .migr g sd sa => encC 0xC9 g 0 (sBits sd) (sBits sa) 0 0 0
  | .scrub g sd sa sb => encC 0xCA g 0 (sBits sd) (sBits sa) (sBits sb) 0 0
  | .keyz g sa => encC 0xCB g 0 0 (sBits sa) 0 0 0
  | .qsaveRq g sd sa => encC 0xCC g 0 (sBits sd) (sBits sa) 0 0 0
  | .qsaveMac g sd sa => encC 0xCC g 1 (sBits sd) (sBits sa) 0 0 0
  | .qsaveRbq g sd sa => encC 0xCC g 2 (sBits sd) (sBits sa) 0 0 0
  | .qloadRq g sd sa => encC 0xCD g 0 (sBits sd) (sBits sa) 0 0 0
  | .qloadMac g sd sa => encC 0xCD g 1 (sBits sd) (sBits sa) 0 0 0
  | .qloadRbq g sd sa => encC 0xCD g 2 (sBits sd) (sBits sa) 0 0 0
  | .pgdisc g sd sa sb => encC 0xCE g 0 (sBits sd) (sBits sa) (sBits sb) 0 0
  | _ => []

end Sys2Proof
end

