-- ==== Sys2Proof/Config.lean ====
section
/-! DEFINITION. What an implementation fixes and what the manual leaves open: opaque constants that no proof
can evaluate (log 8), and the sizes the manual states as numbers. -/

namespace Sys2Proof

/-- The approximations of R170. -/
inductive Approx where
  | rcp | rsq | exp2 | log2 | sin | cos | tanh
  deriving DecidableEq, Repr

/-- The fixed function of the operand bits and the FTZ bit that R170 names and bounds but does not give:
the binary32 result of an operand that is neither special (R171) nor exact. A free value, log 8. -/
opaque Config.approx : Approx → BitVec 32 → Bool → BitVec 32

/-- A free 64-bit value: CLOCK, a time, the grade of an error pattern past the codes' stated reach. Log 8. -/
opaque Config.freeWord : Nat → BitVec 64

/-- A free choice between two outcomes that the manual allows. Log 8. -/
opaque Config.freeBool : Nat → Bool

/-- Flits of the packets of a memory request on a link: does it write, and is it the reply? The manual gives packets no
length. Log 8. -/
opaque Config.packetFlits : Bool → Bool → Nat

/-- The packet position that a lane's bit of the injected flit holds, on a die-to-die link or a domain link: 0 to 71 the
identity word and its check bits, from 72 the payload. The manual gives flits no layout. Log 8. -/
opaque Config.laneBit : Bool → Nat → Nat → Nat

/-- The domain link by which traffic with a peer package goes: the manual leaves it to the switches. Log 8. -/
opaque Config.domainLink : Nat → Nat

/-- The vendor's signature check of R449 and R451 over the signed bytes. Log 15. -/
opaque Config.signatureOk : List Byte → Bool

/-- The signature of an attestation report (R450), 384 bytes. Log 15. -/
opaque Config.attest : List Byte → List Byte

/-- The fields of a configuration record that the model uses, read from its bytes; the record's layout is
not given (R451). Log 15. -/
opaque Config.recordVersion : List Byte → Nat

/-- The cores the configuration record disables, as physical ids (R64, R451). Log 15. -/
opaque Config.recordDisabled : List Byte → List Nat

/-- The limit of an island, the reset caps PCAP and ACAP, and PART, as a configuration record states them (R426, R430,
R451). Log 15. -/
opaque Config.recordLimit : List Byte → Nat → Nat
opaque Config.recordPcap : List Byte → Nat
opaque Config.recordAcap : List Byte → Nat
opaque Config.recordPart : List Byte → Nat

/-- V registers per lane in one quarter (R28). -/
def Config.quarterRegs : Nat := 1024

/-- Items a dispatch queue holds (R453: NITEM 0 to 4,096 in a 64 KiB queue of 16-byte items). -/
def Config.dispatchCap : Nat := 4096

/-- Card slots of a core (R7). -/
def Config.cardSlots : Nat := 64

/-- Flits of a receive queue (R359). -/
def Config.flitCap : Nat := 64

/-- Bytes of one core's row-buffer queue (R306). -/
def Config.rowQueueBytes : Nat := 32768

end Sys2Proof
end

