-- ==== Sys2Proof/Machine/Maps.lean ====
section
/-! DEFINITION. Association lists keyed by Nat, in ascending order of their keys: register files, tables and
memory are all held in this form. -/

namespace Sys2Proof.Machine

/-- A table from Nat keys to values, kept in ascending order of keys. -/
abbrev Tbl (α : Type) := List (Nat × α)

/-- The value at a key, if the table lists one. -/
def Tbl.find? {α : Type} : Tbl α → Nat → Option α
  | [], _ => none
  | (k', v) :: t, k => if k' = k then some v else Tbl.find? t k

/-- The value at a key, or d where none is listed. -/
def Tbl.getD {α : Type} (m : Tbl α) (d : α) (k : Nat) : α := (m.find? k).getD d

/-- Sets the value at a key, keeping ascending order. -/
def Tbl.put {α : Type} : Tbl α → Nat → α → Tbl α
  | [], k, v => [(k, v)]
  | (k', v') :: t, k, v =>
    if k < k' then (k, v) :: (k', v') :: t
    else if k = k' then (k, v) :: t
    else (k', v') :: Tbl.put t k v

/-- Removes a key. -/
def Tbl.del {α : Type} (m : Tbl α) (k : Nat) : Tbl α := m.filter fun p => p.1 != k

/-- Sets a value in a table whose unlisted keys read as d: writing d removes the key. -/
def Tbl.putD {α : Type} [DecidableEq α] (m : Tbl α) (d : α) (k : Nat) (v : α) : Tbl α :=
  if v = d then m.del k else m.put k v

/-- Changes the value at a key if it is listed. -/
def Tbl.modify {α : Type} (m : Tbl α) (k : Nat) (f : α → α) : Tbl α :=
  match m.find? k with
  | some v => m.put k (f v)
  | none => m

/-- The canonical form: keys strictly rising, no value equal to what an unlisted key reads as. -/
def Tbl.wf {α : Type} [DecidableEq α] (d : α) : Tbl α → Bool
  | [] => true
  | [(_, v)] => v != d
  | (k, v) :: (k', v') :: t => v != d && decide (k < k') && Tbl.wf d ((k', v') :: t)

/-- The first entry, in order of keys, that satisfies a test. -/
def Tbl.first {α : Type} (m : Tbl α) (p : Nat → α → Bool) : Option (Nat × α) := List.find? (fun x => p x.1 x.2) m

/-- The entries that satisfy a test. -/
def Tbl.select {α : Type} (m : Tbl α) (p : Nat → α → Bool) : Tbl α := List.filter (fun x => p x.1 x.2) m

/-- Changes the value of every entry. -/
def Tbl.mapVals {α : Type} (m : Tbl α) (f : Nat → α → α) : Tbl α := List.map (fun x => (x.1, f x.1 x.2)) m

/-- The keys of a table. -/
def Tbl.keys {α : Type} (m : Tbl α) : List Nat := m.map (·.1)

/-- Memory: bytes by 52-bit physical address (R183). An unlisted address reads as zero (log 4). -/
abbrev Memory := List (Nat × BitVec 8)

/-- What an address that memory does not list reads as. DESIGN CHOICE, log 4. -/
def Memory.blank : BitVec 8 := 0#8

/-- The byte at a physical address. -/
def Memory.byte (m : Memory) (a : Nat) : Byte := Tbl.getD (α := BitVec 8) m Memory.blank a

/-- Writes one byte, keeping the canonical form. -/
def Memory.setByte (m : Memory) (a : Nat) (b : Byte) : Memory := Tbl.putD (α := BitVec 8) m Memory.blank a b

/-- The canonical form of memory. -/
def Memory.wf (m : Memory) : Bool := Tbl.wf Memory.blank m

/-- n consecutive bytes from a. -/
def Memory.bytes (m : Memory) (a n : Nat) : List Byte := (List.range n).map fun i => m.byte (a + i)

/-- Writes consecutive bytes from a. -/
def Memory.setBytes (m : Memory) (a : Nat) : List Byte → Memory
  | [] => m
  | b :: bs => Memory.setBytes (m.setByte a b) (a + 1) bs

/-- The little-endian number of a byte list. -/
def leNat : List Byte → Nat
  | [] => 0
  | b :: bs => b.toNat + 256 * leNat bs

/-- The n little-endian bytes of a number. -/
def leBytes : Nat → Nat → List Byte
  | 0, _ => []
  | n + 1, v => BitVec.ofNat 8 v :: leBytes n (v / 256)

/-- A little-endian read of n bytes as a number. -/
def Memory.readNat (m : Memory) (a n : Nat) : Nat := leNat (m.bytes a n)

/-- A little-endian write of the low n bytes of a number. -/
def Memory.writeNat (m : Memory) (a n v : Nat) : Memory := m.setBytes a (leBytes n v)

/-- Bits hi:lo of a number (R12). -/
def bitsOf (v hi lo : Nat) : Nat := v / 2 ^ lo % 2 ^ (hi + 1 - lo)

/-- Bit i of a number. -/
def bitOf (v i : Nat) : Bool := v / 2 ^ i % 2 == 1

/-- A Boolean as the bit it is. -/
def b2n (b : Bool) : Nat := if b then 1 else 0

/-- The lanes of a mask in ascending order. -/
def lanesOf (m : Lanes) : List Nat := (List.range 32).filter fun l => m.getLsbD l

/-- The lowest lane of a mask. -/
def lowestLane (m : Lanes) : Option Nat := (lanesOf m).head?

/-- The mask of the lanes that satisfy a test. -/
def laneMask (f : Nat → Bool) : Lanes :=
  (List.range 32).foldl (fun m l => if f l then m ||| (1#32 <<< l) else m) 0#32

/-- A register row: one word a lane. -/
abbrev Row := List Word32

/-- The word of lane l (zero beyond the row). -/
def Row.lane (r : Row) (l : Nat) : Word32 := r.getD l 0#32

/-- A row of zeros. -/
def Row.zero : Row := List.replicate 32 0#32

/-- Writes the lanes of a mask. -/
def Row.upd (r : Row) (m : Lanes) (f : Nat → Word32) : Row :=
  (List.range 32).map fun l => if m.getLsbD l then f l else r.lane l

end Sys2Proof.Machine
end

