-- ==== Sys2Proof/Machine/State.lean ====
section
/-! DEFINITION. The state of one JQ4 package as plain data, its fault and refusal reasons, and the state after
reset. Warps are keyed by core*64 + quarter*16 + warp slot (logical core), blocks by core*16 + block slot,
launches and cards by numbers that only rise. -/

namespace Sys2Proof.Machine

/-! ## Divergence state of a warp (R99, R114) -/

/-- One stack frame of a split (R99). -/
structure Frame where
  h : Option Word64
  dm : Lanes
  ppc : Word64
  pmask : Lanes
  /-- the header of the block that holds PPC when PPC names a word of it (R113); the model's own, log 7 -/
  pword : Option Word64
  deriving DecidableEq, Repr

/-- A register file entry with a scoreboard bit (R96). Handler-bank registers (R391) are numbered 256 + n. -/
inductive Reg where
  | v (n : Nat)
  | s (n : Nat)
  | p (n : Nat)
  deriving DecidableEq, Repr

/-- Footprint domains (R282). -/
inductive Dom where
  | global | scratch | acc | scale | macros
  deriving DecidableEq, Repr

/-- A footprint extent: units lo to hi of a domain. -/
structure Extent where
  dom : Dom
  lo : Nat
  hi : Nat
  deriving DecidableEq, Repr

/-- Why a split is parked (R95). -/
inductive Park where
  /-- these registers have pending writes -/
  | pending (regs : List Reg)
  /-- cards of the block still hold this state -/
  | cards (ext : List Extent)
  /-- AWAIT of a batch not complete; none for AWAIT.all -/
  | batch (n : Option Nat)
  /-- BARW on the barrier instance numbered here -/
  | barrier (bar : Nat)
  /-- woken from a BARW whose phase has completed: it keeps that outcome (R352) -/
  | woken
  /-- WAITNE: runs of other warps still to pass, and the back-off k -/
  | waitne (left k : Nat)
  /-- a read of T31 with an empty queue, since this stamp -/
  | flit (since : Nat)
  /-- all 64 card slots in use -/
  | slot
  /-- the replay window of this channel is full -/
  | request (chan : Nat)
  /-- the core's request queue to the network is full -/
  | network
  /-- a word that completes when every pending write of the handler has landed (R407) -/
  | handlerWrites
  /-- the word before it may raise an enabled flag as its results, of this stamp, land (R138) -/
  | landing (stamp : Nat)
  /-- an access to the scratchpad of this core, which is being moved: refused until the move is over (R439) -/
  | moving (core : Nat)
  /-- WSYNC with the lanes of M -/
  | wsync (m : Lanes)
  /-- parked under R200 until FRESUME of this SEQ -/
  | hostFault (seq : Nat)
  /-- a host-fault record held back while the ring is full -/
  | hostFaultHeld
  deriving DecidableEq, Repr

/-- The block a split has fetched (R71): where its header lies, the header word and the words after it.
No word of it issues before all of it is held. -/
structure Fetched where
  hdrAt : Word64
  header : Word64
  words : List Word64
  deriving DecidableEq, Repr

/-- A split entry (R99), with what the issue of its current block needs. -/
structure Split where
  valid : Bool
  pc : Word64
  word : Bool
  hdr : Word64
  mask : Lanes
  /-- join record 0-3, or 7 for none -/
  join : Nat
  sig : BitVec 16
  /-- the stack, newest frame first; its length is DEPTH -/
  frames : List Frame
  spilled : BitVec 16
  park : Option Park
  /-- waits at the header its PC names (R101) -/
  waiting : Bool
  /-- with WORD 0: the checks of R101 at the header that its PC names have been made -/
  entered : Bool
  /-- the m of that header, whose fold is made as the run begins there (R91) -/
  m : Bool
  /-- the block whose run it began last has IDEM or IDCONT (R398) -/
  idem : Bool
  /-- WAITNE's k of the last failed check, 0 when no back-off runs (R271) -/
  wk : Nat
  /-- stamp of the end of its last run (R98) -/
  lastRun : Nat
  /-- made by the run under way, with whose end its wait begins (R98) -/
  fresh : Bool
  blk : Option Fetched
  deriving DecidableEq, Repr

/-- A join record (R99). -/
structure Join where
  valid : Bool
  h : Word64
  dm : Lanes
  parent : Nat
  deriving DecidableEq, Repr

/-- A call-stack entry (R114); the valid ones are held oldest first. -/
structure CallEntry where
  rh : Word64
  own : Nat
  depth : Nat
  deriving DecidableEq, Repr

/-- The divergence state of R99 and R114: four split entries, four join records, the call stack. -/
structure DivTable where
  splits : List Split
  joins : List Join
  calls : List CallEntry
  cspill : BitVec 16
  /-- OWN of each spilled entry, oldest first; 4 once discarded (R114, R116) -/
  spillOwn : List Nat
  deriving DecidableEq, Repr

/-- An invalid split entry. -/
def Split.none : Split :=
  { valid := false, pc := 0, word := false, hdr := 0, mask := 0, join := 7, sig := 0, frames := [],
    spilled := 0, park := .none, waiting := false, entered := false, m := true, idem := false, wk := 0, lastRun := 0,
    fresh := false, blk := .none }

/-- An invalid join record. Its other fields have no reset value: zero is a DESIGN CHOICE, log 5. -/
def Join.none : Join := { valid := false, h := 0, dm := 0, parent := 7 }

/-- R99: entry 0 valid at a header, JOIN 7, DEPTH 0; everything else invalid. -/
def DivTable.start (pc : Word64) (mask : Lanes) : DivTable :=
  { splits := { Split.none with valid := true, pc := pc, mask := mask } :: List.replicate 3 Split.none,
    joins := List.replicate 4 Join.none, calls := [], cspill := 0, spillOwn := [] }

/-! ## Faults of the instruction set (R393) -/

/-- The faults of R393. -/
inductive FaultName where
  | illegal | priv | aperture | misalign | page | prot | grade | signature | diverge | groupAbsent
  | mmaCheck | cardFault | brk | swTrap | watch | numeric | preempt | migrate
  deriving DecidableEq, Repr

/-- What a trap reports: FAULT's fields and FADDR in each lane. -/
structure FaultInfo where
  name : FaultName
  cause : Nat
  info : Nat
  /-- the reported lanes -/
  lanes : Lanes
  /-- FADDR of each lane -/
  addr : List Word64
  deriving DecidableEq, Repr

/-- A destination of a pending write (R96). -/
inductive PDest where
  | v (reg : Nat) (lanes : Lanes) (row : Row)
  | s (reg : Nat) (val : Word32)
  | p (reg : Nat) (lanes vals : Lanes)
  deriving DecidableEq, Repr

/-- A group load whose members are read when it lands (R266). -/
structure LdgReq where
  op : LdgOp
  sz : MSize
  elems : Nat
  d : Nat
  lanes : Lanes
  /-- the effective address of each lane -/
  addr : List Word64
  acq : Bool
  deriving DecidableEq, Repr

/-- A pending write of the scoreboard (R95, R96), in issue order. -/
structure Pending where
  split : Nat
  /-- issued by a word of a trap handler -/
  handler : Bool
  /-- stamp of its word's issue -/
  stamp : Nat
  dests : List PDest
  /-- flags ORed into FLAGS when the write lands (R138) -/
  flags : Nat
  /-- the GRADE register's value, when a graded delivery is recorded (R249) -/
  grade : Option Word32
  /-- a deferred fault found when the data returns (R456) -/
  fault : Option FaultInfo
  /-- a group load read at landing -/
  ldg : Option LdgReq
  /-- the word's address, for NUMERIC (R138) -/
  pc : Word64
  /-- MTGT at issue, for a landing write of S61 (R375) -/
  mtgt : Word32
  deriving DecidableEq, Repr

/-- A report of the warp's fault list (R289, R410). -/
structure CardReport where
  /-- the card's number, 0 once the report has been saved and restored -/
  card : Nat
  tag : Nat
  cause : Nat
  /-- the batch, or none while the card was in the open set -/
  batch : Option Nat
  lost : Bool
  addr : Word64
  deriving DecidableEq, Repr

/-- What R391 preserves while a handler runs, and the handler's own bank. -/
structure Handler where
  table : DivTable
  flags : Word32
  tpc : Word64
  tword : Bool
  thdr : Word64
  tsplit : Nat
  /-- FAULT value of the trap that opened the handler -/
  fault : Word32
  /-- V248-V255 of the handler -/
  bankV : Tbl Row
  /-- S56-S59 of the handler -/
  bankS : Tbl Word32
  /-- the warp's priority class before the trap -/
  cls : Nat
  deriving DecidableEq, Repr

/-- The idempotent region of R398. -/
structure Region where
  clean : Bool
  hdr : Word64
  live : Nat
  deriving DecidableEq, Repr

/-- A flit in a receive queue. -/
structure Flit where
  word : Word64
  /-- a warp of the queue's own block sent it (R337) -/
  near : Bool
  /-- it met flips that no link has seen (R226) -/
  bad : Bool
  deriving DecidableEq, Repr

/-- One warp: its registers, its divergence state, its scoreboard. -/
structure Warp where
  core : Nat
  quarter : Nat
  slot : Nat
  launch : Nat
  /-- block key; a callee warp forms a block of its own, keyed 4096 + its warp key (R329) -/
  block : Nat
  /-- warp number in its block; a callee warp's slot ordinal -/
  num : Nat
  /-- dispatch entry of a callee warp -/
  item : Option Nat
  ctx : Nat
  asid : Nat
  role : Nat
  cls : Nat
  /-- its launch has MSG set and it is no callee warp: S60 to S63 act as R375 gives -/
  msg : Bool
  allot : Nat
  /-- allotment in force from the next run (R106) -/
  nextAllot : Option Nat
  v : Tbl Row
  sr : Tbl Word32
  /-- P0-P6 as lane masks -/
  pr : Tbl Lanes
  flags : Word32
  mtgt : Word32
  fault : Word32
  faddr : List Word64
  grade : Word32
  batch : Nat
  stkIdx : Nat
  tcount : Nat
  live : Lanes
  table : DivTable
  handler : Option Handler
  pend : List Pending
  /-- words whose data returned with a fault not yet taken (R456), or with an enabled flag (R138), in the order
  they issued; what their dests still list stays pending -/
  deferred : List Pending
  faultList : List CardReport
  hostFault : Option Nat
  /-- restored while its host-fault record is still held back (R201) -/
  hostHeld : Bool
  region : Option Region
  /-- enabled flags that this warp's cards merged and that no AWAIT has raised, with their batch (R139) -/
  cardFlags : List (Option Nat × Nat)
  /-- flags that its cards merged while it was saved, with their batch: whether they are enabled is for AWAIT to see (R139) -/
  awayFlags : List (Option Nat × Nat)
  /-- its batches, none the open set, in which some card completes at cluster scope or wider (R291, R337) -/
  awayBatches : List (Option Nat)
  /-- PREEMPT is due (R398) -/
  preemptDue : Bool
  /-- MIGRATE is due, with the new physical core index (R439) -/
  migrateDue : Option Nat
  /-- stopped by a move until it completes (R439) -/
  stopped : Bool
  /-- runs of other warps begun at its quarter while it was ready (R98) -/
  passed : Nat
  /-- stamp of its last run's end, or of its start (R98) -/
  lastRun : Nat
  /-- a WAITNE back-off is running (R97) -/
  backoff : Bool
  /-- the flit taken last: a word that parks gives it back (R95) -/
  taken : Option Flit
  deriving DecidableEq, Repr

/-! ## Blocks, launches and queues (R22 to R70) -/

/-- A row of a row-buffer queue (R306), and whether a poisoned source byte fed it. -/
structure QueueRow where
  bytes : List Byte
  bad : Bool
  /-- its bytes that came as GRADE 1 elements of an SB layout, whose block's E is not yet known (R244) -/
  soft : List Nat
  deriving DecidableEq, Repr

/-- An MARR that is parked (R313): its number in the order of cards, the split that issued it, log2(k/128). -/
structure Marr where
  id : Nat
  warp : Nat
  split : Nat
  lg : Nat
  deriving DecidableEq, Repr

/-- A resident block (R60 to R63). -/
structure Block where
  launch : Nat
  linear : Nat
  core : Nat
  slot : Nat
  spBase : Nat
  spSize : Nat
  macFirst : Nat
  macs : Nat
  /-- physical tiles held, in the block's own order (R276, R304) -/
  tiles : List Nat
  /-- the arrangement's k (R296); 0 with no macros -/
  arrK : Nat
  /-- the resident B's format, none when cleared by arrangement (R314) -/
  bFmt : Option (SbFmt × Bool)
  bMark : Bool
  /-- the receive queue (R359) -/
  rq : List Flit
  /-- refuses flits until its queue is reloaded (R419) -/
  rqHold : Bool
  rbq : List QueueRow
  /-- MARRs that have parked, in issue order; one counts while its split is parked at it -/
  marrs : List Marr
  warps : List Nat
  /-- warps that have ended by EXIT, RET or kill -/
  ended : Nat
  /-- numbers of the warps that have ended by TRET.saved -/
  saved : List Nat
  /-- card flags of those warps that no AWAIT has raised: warp number, batch, flags (R139) -/
  awayFlags : List (Nat × Option Nat × Nat)
  killed : Bool
  /-- SEQs of host-fault records of killed warps that the host has not answered (R444) -/
  owed : List Nat
  /-- flags of cards that completed after their warp had ended, by warp number (R444) -/
  late : Tbl Nat
  deriving DecidableEq, Repr

/-- A saved block awaiting RES (R399, R401, R453). -/
structure Saved where
  launch : Nat
  linear : Nat
  core : Nat
  slot : Nat
  entry : Option Nat
  macFirst : Nat
  macs : Nat
  spBase : Nat
  spSize : Nat
  ntile : Nat
  /-- each warp's quarter*16 + slot -/
  wslots : List Nat
  killed : Bool
  /-- numbers of the warps that had ended before the save -/
  ended : List Nat
  awayFlags : List (Nat × Option Nat × Nat)
  /-- as Block.owed and Block.late -/
  owed : List Nat
  late : Tbl Nat
  deriving DecidableEq, Repr

/-- A role entry, a group entry and a dispatch entry of the descriptor table (R27). -/
structure RoleEntry where
  entry : Nat
  vreg : Nat
  cls : Nat
  lim : Nat
  deriving DecidableEq, Repr

structure GroupEntry where
  gbase : Nat
  gspan : Nat
  faultPolicy : Bool
  deriving DecidableEq, Repr

structure DispatchEntry where
  entry : Nat
  vreg : Nat
  cls : Nat
  slots : Nat
  deriving DecidableEq, Repr

/-- A range-list entry (R31). -/
structure RangeEntry where
  base : Nat
  len : Nat
  cls : Reuse
  ntreq : Bool
  report : Bool
  deriving DecidableEq, Repr

/-- A reserved callee slot (R66). -/
structure CalleeSlot where
  die : Nat
  entry : Nat
  key : Nat
  vreg : Nat
  deriving DecidableEq, Repr

/-- A dispatch queue (R30, R67). Its items stand in the pinned store as a ring of 4,096 payloads of 16 bytes (DESIGN CHOICE, log 92). -/
structure DQueue where
  die : Nat
  entry : Nat
  /-- its place among the 64 KiB units of the die's dispatch-queue reserve, the lowest 0 (R206) -/
  unit : Nat
  /-- the ring's place of the oldest item -/
  head : Nat
  /-- items that it holds -/
  count : Nat
  deriving DecidableEq, Repr

/-- A taken launch (R56). -/
structure Launch where
  rva : Nat
  words : List Word64
  roles : List RoleEntry
  groups : List GroupEntry
  disp : List DispatchEntry
  ranges : List RangeEntry
  queue : Nat
  asid : Nat
  ser : Bool
  prio : Nat
  /-- linear number of the lowest block of the head gang (R453 NEXT) -/
  next : Nat
  nret : Nat
  nflt : Nat
  terminated : Bool
  ended : Bool
  /-- when its head gang was first considered and not placed, and whether it is held (R59) -/
  since : Option Nat
  held : Bool
  callee : List CalleeSlot
  calleeReserved : Bool
  dqs : List DQueue
  /-- contracts opened by RESIDE so far (R272) -/
  opened : Nat
  /-- stamp of the admission of its first gang (R33), none before it -/
  admitted : Option Nat
  deriving DecidableEq, Repr

/-- A launch queue's registers (R53). -/
structure LQueue where
  base : Word64
  asid : Nat
  prio : Nat
  log2n : Nat
  enable : Bool
  devlaunch : Bool
  tail : BitVec 32
  head : BitVec 32
  err : Nat
  nerr : Nat
  term : Bool
  /-- the launch of the last entry taken, for SER (R56) -/
  last : Option Nat
  deriving DecidableEq, Repr

/-- R53: every field 0 at reset. -/
def LQueue.reset : LQueue :=
  { base := 0, asid := 0, prio := 0, log2n := 0, enable := false, devlaunch := false, tail := 0, head := 0,
    err := 0, nerr := 0, term := false, last := none }

/-! ## Cards (R277 to R295) -/

/-- A card in flight (R278). -/
structure Card where
  tag : Nat
  kind : Nat
  core : Nat
  warp : Nat
  /-- the issuing warp's number in its block (R444) -/
  num : Nat
  block : Nat
  launch : Nat
  ctx : Nat
  asid : Nat
  /-- the record's eight words -/
  words : List Word64
  /-- the four words of the format block, MDRAIN's key in fifth place -/
  fmt : List Word32
  /-- MMASP's index string, low bit first, as selected lanes -/
  idx : List Word32
  /-- the arrangement k that the card runs under (R313) -/
  arrK : Nat
  batch : Option Nat
  /-- the warp that issued it is gone, or has been saved since (R289, R400) -/
  orphan : Bool
  /-- that warp has been restored, under the number that warp gives -/
  linked : Bool
  /-- its warp was killed: its faults are not reported (R394) -/
  silent : Bool
  reads : List Extent
  writes : List Extent
  preds : List Nat
  /-- stamp at which its last predecessor had ended (R305) -/
  ready : Option Nat
  launched : Bool
  cancelled : Bool
  /-- linear number of the issuing block -/
  linear : Nat
  /-- issued in supervisor mode -/
  sup : Bool
  /-- rows that a row-buffer card has moved so far (R306) -/
  rows : Nat
  /-- flags and tail elements gathered by those rows -/
  flags : Nat
  tails : List Nat
  /-- the fault that its checks at launch or a row of its work have met: cause and address (R312, R317) -/
  failed : Option (Nat × Word64)
  /-- stamp of its issue: without an agenda the words that follow run first (log 1) -/
  stamp : Nat
  deriving DecidableEq, Repr

/-! ## Barriers (R350) -/

/-- A local record: masks over the core's 64 warp slots. -/
structure BarLocal where
  member : BitVec 64
  arrived : BitVec 64
  early : BitVec 64
  waiter : BitVec 64
  deriving DecidableEq, Repr

def BarLocal.reset : BarLocal := { member := 0, arrived := 0, early := 0, waiter := 0 }

/-- One barrier: its root record and its local records by core. -/
structure Barrier where
  lvl : BarLvl
  /-- block key, or launch-wide instance number of the cluster or die, or 0 for the grid -/
  inst : Nat
  launch : Nat
  idx : Nat
  phase : Bool
  exp : BitVec 15
  arr : BitVec 15
  aband : Bool
  locals : Tbl BarLocal
  /-- readied waiters not yet woken (R349) -/
  wake : List Nat
  /-- those of them that a completed phase readied (R352) -/
  done : List Nat
  /-- the quadrant that holds a cluster barrier's set (R60) -/
  quad : Nat
  /-- what has still to reach the shares of cores that are being moved, in order: a completed phase or, if false, an
  abandonment (R353) -/
  late : List (Nat × Bool)
  deriving DecidableEq, Repr

/-! ## Contexts (R190, R217, R390) -/

/-- A host fault record held back while its ring is full (R200). -/
structure HeldFault where
  warp : Nat
  va : Word64
  kind : Nat
  cause : Nat
  lanes : Lanes
  asid : Nat
  /-- the warp slot at which the fault was taken: core*64 + quarter*16 + slot -/
  slot : Nat
  /-- the warp has been saved since: its launch, its block and its number in it (R201) -/
  saved : Option (Nat × Nat × Nat)
  deriving DecidableEq, Repr

/-- A context slot's registers. -/
structure Ctx where
  root : Nat
  asid : Nat
  gen : BitVec 16
  valid : Bool
  dbmap : Nat
  dten : Bool
  depoch : Bool
  fring : Nat
  frlog : Nat
  frhead : BitVec 32
  frtail : BitVec 32
  crbase : Nat
  crlog : Nat
  crlost : Nat
  crhead : BitVec 32
  crtail : BitVec 32
  handler : Word64
  hvalid : Bool
  state : Nat
  res : Bool
  pre : Bool
  nrbase : Nat
  nrlog : Nat
  nrlost : Nat
  nrhead : BitVec 32
  nrtail : BitVec 32
  wva : Nat
  wen : Bool
  wkind : Nat
  wlog : Nat
  impbase : Nat
  impq : Nat
  imperr : Nat
  impgo : Bool
  emeter : BitVec 64
  tailn : Nat
  heldFaults : List HeldFault
  /-- the bytes of the records written whose warps still wait, by SEQ (R201, R452) -/
  asked : Tbl (List Byte)
  /-- SEQs of records written for warps that were saved before: launch, block and number of the warp (R201) -/
  savedFaults : List ((Nat × Nat × Nat) × Nat)
  /-- known dirty marks: core and bitmap index (R203) -/
  known : List (Nat × Nat)
  /-- for each island the time of its last throttle notification and the highest level reached since and not yet reported, for the
  1 ms rule of R436 -/
  throttled : Tbl (Nat × Option Nat)
  deriving DecidableEq, Repr

/-- The reset values of R190, R217 and R390: 0, but FRLOG, CRLOG and NRLOG 4. -/
def Ctx.reset : Ctx :=
  { root := 0, asid := 0, gen := 0, valid := false, dbmap := 0, dten := false, depoch := false, fring := 0,
    frlog := 4, frhead := 0, frtail := 0, crbase := 0, crlog := 4, crlost := 0, crhead := 0, crtail := 0,
    handler := 0, hvalid := false, state := 0, res := false, pre := false, nrbase := 0, nrlog := 4,
    nrlost := 0, nrhead := 0, nrtail := 0, wva := 0, wen := false, wkind := 0, wlog := 0, impbase := 0,
    impq := 0, imperr := 0, impgo := false, emeter := 0, tailn := 0, heldFaults := [], asked := [], savedFaults := [],
    known := [],
    throttled := [] }

/-! ## Caches and translation -/

/-- The error state of a 64-byte sector (R240 to R248): the layout it is coded under, the flipped bits
(0-511 data, 512-559 head code, 560-575 tail parity) and the poison mark. -/
structure Sector where
  nl : Nat
  flips : List Nat
  mark : Bool
  deriving DecidableEq, Repr

/-- A sector that nothing has written: its zeros are a code word under every layout (nl 8). -/
def Sector.clean : Sector := { nl := 8, flips := [], mark := false }

/-- What a first-level line knows of one of its two sectors, as filled: the uncorrectable grade found, the parity
groups in error, the source and the layout (R243, R249). -/
structure L1Half where
  bad : Nat
  groups : List Nat
  src : Nat
  nl : Nat
  deriving DecidableEq, Repr

/-- A first-level line (R256). -/
structure L1Line where
  core : Nat
  line : Nat
  data : List Byte
  valid : BitVec 128
  dirty : BitVec 128
  prio : Cache
  halves : List L1Half
  /-- bytes that this core has written since the line was filled: good whatever its sectors held (R248) -/
  good : BitVec 128
  /-- layout and tail policy of the translation that last wrote it, for its write-back -/
  nl : Nat
  tp : Nat
  deriving DecidableEq, Repr

/-- A page size (R185). -/
inductive PageSize where
  | p64K | p32M | p16G
  deriving DecidableEq, Repr

/-- A TLB entry (R191): the leaf as read, and where it maps. -/
structure TlbEntry where
  /-- core 0-255 for an L1 TLB, 256 + quadrant for an L2 TLB -/
  home : Nat
  asid : Nat
  gen : BitVec 16
  size : PageSize
  vpage : Nat
  leaf : Word64
  deriving DecidableEq, Repr

/-- An instruction-cache line (R71, R73): sixteen words. -/
structure ILine where
  core : Nat
  asid : Nat
  gen : BitVec 16
  line : Nat
  words : List Word64
  /-- the GRADE register value of each 64-byte sector as fetched, 0 for GRADE 0 (R72) -/
  grades : List Word32
  deriving DecidableEq, Repr

/-- A line held at its home slice: cache partition, streaming way or locked area (R208, R210, R212). The list
that holds them is in order of use, least recent first. -/
structure HomeLine where
  line : Nat
  /-- a bit for each of its two sectors -/
  dirty : BitVec 2
  locked : Bool
  streaming : Bool
  deriving DecidableEq, Repr

/-- A lease at its home slice (R356, R357). -/
structure Lease where
  line : Nat
  core : Nat
  granted : List Byte
  deriving DecidableEq, Repr

/-- An atomic-placement entry (R355). -/
structure PlaceEntry where
  counter : Nat
  lease : Option Nat
  deriving DecidableEq, Repr

/-- A contract in force (R31, R210, R272). -/
structure Contract where
  launch : Nat
  asid : Nat
  ltag : BitVec 32
  index : Nat
  base : Nat
  len : Nat
  cls : Reuse
  report : Bool
  ntreq : Bool
  rank : Nat
  pinned : Bool
  byReside : Bool
  /-- the 64 KiB frames that its units, by number, reached when its mapping of each last took effect (R33) -/
  frames : Tbl Nat
  /-- the 64 KiB frames whose lines its pin has locked (R212) -/
  pinFrames : List Nat
  /-- accesses and misses of the window on each die (R216) -/
  window : Tbl (Nat × Nat)
  /-- windows that have ended and are not yet judged: die and misses, oldest first -/
  due : List (Nat × Nat)
  deriving DecidableEq, Repr

/-- A key-value entry (R213, R214). -/
structure KvEntry where
  die : Nat
  entry : Nat
  key : Word64
  pin : Bool
  stamp : Nat
  deriving DecidableEq, Repr

/-- A die's frame pool (R199) and its kept frames (R413). -/
structure Pool where
  base : Nat
  log : Nat
  head : BitVec 32
  tail : BitVec 32
  bad : Nat
  kept : List Nat
  deriving DecidableEq, Repr

def Pool.reset : Pool := { base := 0, log := 0, head := 0, tail := 0, bad := 0, kept := [] }

/-- A die's store split registers (R206). -/
structure StoreSplit where
  owner : Nat
  ncache : Nat
  npin : Nat
  nkv : Nat
  nlock : Nat
  nesz : Nat
  ndq : Nat
  apply : Bool
  errc : Nat
  cache : Nat
  pin : Nat
  kv : Nat
  lock : Nat
  esz : Nat
  dq : Nat
  deriving DecidableEq, Repr

/-- R206: the whole slice is cache after reset (FULL 1). -/
def StoreSplit.reset : StoreSplit :=
  { owner := 0, ncache := 0, npin := 0, nkv := 0, nlock := 0, nesz := 0, ndq := 0, apply := false, errc := 0,
    cache := 16, pin := 0, kv := 0, lock := 0, esz := 0, dq := 0 }

/-! ## Network (R220 to R239) -/

/-- An entry on its way: sequence number, identity word and payload (R224, R230). -/
structure NetEntry where
  seq : BitVec 12
  ident : Word64
  payload : Word64
  /-- sent to the sender's own block (R337) -/
  near : Bool
  /-- resends of this entry so far (R225) -/
  tries : Nat
  /-- flips that no link of its way has seen: positions of R230's word and its check bits (0-71), then of the payload (72-135) -/
  flips : List Nat
  /-- a router has discarded this copy, whose identity word it could not correct (R230) -/
  lost : Bool
  /-- the identity word under which this copy passes, when that is not its own (R230) -/
  seen : Option Word64
  /-- the quadrant that a non-minimal route passes through (R222) -/
  via : Option Nat
  deriving DecidableEq, Repr

/-- One sender's connection to the receive queue of a block slot (R224, R359). The traffic of other queues is performed with
its access (log 16). -/
structure Chan where
  /-- the target's logical core and block slot, and the sender's launch -/
  core : Nat
  slot : Nat
  launch : Nat
  /-- the sending warp -/
  sender : Nat
  nextSeq : BitVec 12
  expect : BitVec 12
  window : List NetEntry
  /-- the head has been refused and waits to be resent: the wait in network cycles -/
  wait : Option Nat
  probing : Bool
  steps : Nat
  /-- its head packet is in the escape class -/
  escape : Bool
  /-- the port whose input buffer its head packet stands in (R227) -/
  place : Nat
  /-- stamp of its last event, by which channels take turns (R229) -/
  turn : Nat
  deriving DecidableEq, Repr

/-- A port's log (R231). -/
structure PortLog where
  hdrop : Nat
  hfix : Nat
  crcx : Nat
  nacks : Nat
  deriving DecidableEq, Repr

def PortLog.reset : PortLog := { hdrop := 0, hfix := 0, crcx := 0, nacks := 0 }

/-- A link error injector (R238). -/
structure Injector where
  nth : Nat
  delay : Nat
  lane : Nat
  precrc : Bool
  mode : Nat
  arm : Bool
  mask : Nat
  count : Nat
  fired : Bool
  /-- ARM has been set since reset: flits are counted (R239) -/
  counting : Bool
  deriving DecidableEq, Repr

def Injector.reset : Injector :=
  { nth := 0, delay := 0, lane := 0, precrc := false, mode := 0, arm := false, mask := 0, count := 0,
    fired := false, counting := false }

/-- Network control registers (R223). -/
structure NetCtl where
  adpth : Nat
  bomax : Nat
  bomin : Nat
  domid : Nat
  hwnl : Nat
  hwbase : Nat
  deriving DecidableEq, Repr

/-- R223's reset values. -/
def NetCtl.reset : NetCtl := { adpth := 32, bomax := 4096, bomin := 16, domid := 0, hwnl := 0, hwbase := 0 }

/-- A host posted write held behind earlier ones (R233). -/
structure HostWrite where
  pa : Nat
  data : List Byte
  relaxed : Bool
  deriving DecidableEq, Repr

/-- A device access to class 0xF in the egress queue (R234). -/
structure Egress where
  pa : Nat
  data : List Byte
  deriving DecidableEq, Repr

/-- A completed host read or attestation request: what the host received. -/
structure HostReply where
  off : Nat
  data : List Byte
  deriving DecidableEq, Repr

/-- What a peer package received in answer to a request (R237): the ASID that its admission entry supplied, none when no
entry admits it. -/
structure PeerReply where
  pkg : Nat
  asid : Option Nat
  data : List Byte
  deriving DecidableEq, Repr

/-! ## Power, thermal and device (R416, R426 to R454) -/

/-- A thermal state with its dwell times in ns (R434). -/
structure Thermal where
  on : Bool
  entered : Option Nat
  released : Option Nat
  deriving DecidableEq, Repr

def Thermal.reset : Thermal := { on := false, entered := none, released := none }

/-- An island (R426 to R436). -/
structure Island where
  level : Nat
  nt : Bool
  point : Nat
  target : Nat
  tmax : Nat
  gate : Nat
  /-- the power of the point granted to it, by the measures of the last clearing, in units of 1 W / costUnit (R433) -/
  grant : Option Nat
  capped : Bool
  throttle : Thermal
  shutdown : Thermal
  deriving DecidableEq, Repr

/-- R430's reset values: POINT 1, everything else 0. -/
def Island.reset : Island :=
  { level := 0, nt := false, point := 1, target := 1, tmax := 0, gate := 0, grant := none, capped := false,
    throttle := .reset, shutdown := .reset }

/-- The issue cycles of a quarter under the fast throttle (R433). -/
structure Gate where
  /-- the cycle within its 64 -/
  cycle : Nat
  /-- for each context slot with a ready warp there: cycles since a run of it began -/
  idle : Tbl Nat
  deriving DecidableEq, Repr

/-- The power registers (R430, R431). -/
structure Power where
  capseq : BitVec 32
  pcap : Nat
  acap : Nat
  plast : Nat
  pavg : Nat
  epoch : BitVec 64
  efree : BitVec 64
  /-- package energy of the last epochs, newest first, in microjoules -/
  history : List Nat
  deriving DecidableEq, Repr

def Power.reset : Power :=
  { capseq := 0, pcap := 2900, acap := 2400, plast := 0, pavg := 0, epoch := 0, efree := 0, history := [] }

/-- A thermal move in progress (R439): source and target physical cores of one die, and the logical core. -/
structure Move where
  logical : Nat
  source : Nat
  target : Nat
  byMigr : Bool
  /-- kills of its warps, applied after the move (R440): warp, FAULT, FADDR, first FAULT, and whether a record is
  written -/
  kills : List (Nat × Word32 × Word64 × Word32 × Bool)
  deriving DecidableEq, Repr

/-- A move that has been granted and has not begun (R415, R434): its core, the physical target chosen for it, and MIGR's
warp, whose handler has to return first. -/
structure MoveAsk where
  core : Nat
  target : Nat
  warp : Option Nat
  deriving DecidableEq, Repr

/-- The scrub registers (R416) and the retained list (R403). -/
structure Scrub where
  slist : Nat
  scount : Nat
  mgslot : Nat
  sdone : Nat
  quar : Bool
  sbusy : Bool
  slot : Nat
  entries : List Word64
  deriving DecidableEq, Repr

/-- R416's reset values. QUAR is kept over reset; the first power-on has none (log 5). -/
def Scrub.reset : Scrub :=
  { slist := 0, scount := 0, mgslot := 0, sdone := 0, quar := false, sbusy := false, slot := 0, entries := [] }

/-- Housekeeping registers (R448) and what the flash holds (R451, R454). -/
structure House where
  part : Nat
  step : Nat
  /-- populated HBM of each die in GiB -/
  hbm : List Nat
  rsbuf : Nat
  rsgo : Bool
  rssize : BitVec 32
  rsused : BitVec 32
  bootst : Nat
  mreg : Tbl (BitVec 256)
  lseq : BitVec 32
  /-- time of the last fold, from which LAGE counts -/
  foldAt : Nat
  /-- the lifetime counters that the two flash banks hold -/
  banks : List (Tbl Nat)
  recVersion : Nat
  deriving DecidableEq, Repr

/-- The reset values of R448; PART, STEP, HBMSZ and LSEQ come from the part (DESIGN CHOICE, log 6). -/
def House.reset : House :=
  { part := 0x0512, step := 0, hbm := [128, 128, 128, 128], rsbuf := 0, rsgo := false, rssize := 0, rsused := 0,
    bootst := 0, mreg := [], lseq := 0, foldAt := 0, banks := [[], []], recVersion := 0 }

/-- The errors of an on-chip bank, and whether it is failed or spared (R251). -/
structure Bank where
  /-- times of the errors it has recorded within 2^20 cycles, newest first -/
  errors : List Nat
  failed : Bool
  spared : Bool
  deriving DecidableEq, Repr

/-! ## Inputs and the whole state -/

/-- A raw block sum of a product card that goes wrong (R307): the card, its row, the k-block, the column, and by how much. -/
structure EngineError where
  card : Nat
  row : Nat
  block : Nat
  col : Nat
  delta : Int
  deriving DecidableEq, Repr

/-- What may happen next, in the order the agenda lists it (log 1, log 10). -/
inductive Input where
  /-- a device step or an event of the outside world -/
  | event (i : Instr)
  /-- the split of a warp issues the next word of its run -/
  | issue (warp split : Nat)
  /-- a soft error flips bits of a sector: positions 0-575 of Sector.flips -/
  | softError (pa : Nat) (bits : List Nat)
  /-- a soft error in HBM beneath a line that is held at its home -/
  | hbmError (pa : Nat) (bits : List Nat)
  /-- a soft error flips bits of an on-chip row: bit 0-71 of bank b (its 8 bytes and their code) is numbered 72·b on -/
  | rowError (row : Nat) (bits : List Nat)
  /-- a core's request queue to the network fills up, or an entry of it frees (R95) -/
  | requestQueue (core : Nat) (full : Bool)
  /-- a queue without room refuses a core's request n times: the queue's own port returns the negative acknowledgements
  (R224, R225) -/
  | refused (core port n : Nat)
  /-- a peer package's admission table turns an ASID of this package away, or lets it in again (R237) -/
  | peerRefuses (pkg asid : Nat) (refused : Bool)
  /-- a raw block sum of the matrix engine goes wrong (R307) -/
  | engineError (e : EngineError)
  /-- another agent writes the table entry at an address between the next read of a unit that would swap it and the swap (R191,
  R413, R420) -/
  | entryRace (pa v : Nat)
  /-- first-level eviction of one line -/
  | evict (core line : Nat)
  deriving DecidableEq, Repr

/-- The state of the package. -/
structure State where
  -- the model's own
  agenda : List Input
  freeCount : Nat
  focus : Option (Nat × Nat)
  /-- the run under way of each quarter, by core*4 + quarter: its warp and split (R93) -/
  runs : Tbl (Nat × Nat)
  now : Nat
  nextId : Nat
  /-- stamps runs and accesses in order (R98, R214, R256) -/
  seq : Nat
  -- memory and on-chip arrays
  mem : Memory
  sectors : Tbl Sector
  /-- what HBM holds beneath copies that differ from it (R240) -/
  backing : Tbl Sector
  /-- flipped bits of on-chip rows (R250) -/
  rowErrors : Tbl (List Nat)
  banks : Tbl Bank
  acc : Tbl Word64
  anchors : Tbl (BitVec 16)
  accMarks : List Nat
  scale : Tbl Byte
  scaleMarks : List Nat
  spadMarks : List Nat
  cells : Tbl (BitVec 8)
  bscale : Tbl (BitVec 16)
  /-- the check cell of each macro row (R298, R307) -/
  checks : Tbl (BitVec 8)
  -- work
  queues : Tbl LQueue
  guard : BitVec 32
  remap : Tbl Nat
  launches : Tbl Launch
  blocks : Tbl Block
  warps : Tbl Warp
  saved : List Saved
  cards : Tbl Card
  cardCtr : Tbl Nat
  /-- raw block sums that go wrong -/
  engineErrors : List EngineError
  barriers : Tbl Barrier
  -- contexts and translation
  ctxs : Tbl Ctx
  tlb : List TlbEntry
  icache : List ILine
  l1 : List L1Line
  place : Tbl PlaceEntry
  /-- the core whose atomic was the last access to reach a line at home (SOLE, R355) -/
  sole : Tbl Nat
  leases : List Lease
  pools : Tbl Pool
  zeroised : List Nat
  -- store
  splits : Tbl StoreSplit
  lines : List HomeLine
  contracts : List Contract
  kv : List KvEntry
  tensors : Tbl Nat
  -- network and host
  net : NetCtl
  chans : Tbl Chan
  /-- cores whose request queue to the network is full (R95, R224) -/
  fullQueues : List Nat
  /-- the sequence number that a port gives its next entry for a queue, by port*1024 + queue: 0-511 a slice's, 512 + p that of
  peer package p (R224) -/
  seqs : Tbl (BitVec 12)
  jitter : Tbl (BitVec 16)
  logs : Tbl PortLog
  injectors : Tbl Injector
  admitRegs : Tbl Word64
  peersDown : List Nat
  /-- the package and ASID pairs that a peer's admission table turns away (R237) -/
  peersRefusing : List (Nat × Nat)
  peerReplies : List PeerReply
  /-- accesses at home of each island's cores in its window of R427, and those of them in ranges with NTREQ -/
  islandUse : Tbl (Nat × Nat)
  /-- accesses of each core that met a stale generation and were sent again (R195) -/
  genReplays : Tbl Nat
  /-- what other agents are about to write to table entries, by physical address, between a unit's read and its
  compare-and-swap (R191, R413, R420) -/
  races : List (Nat × Nat)
  hostWrites : List HostWrite
  egress : List Egress
  replies : List HostReply
  msix : Nat
  -- counters, power, device
  gcnt : Tbl Nat
  bfail : Nat
  bspare : Nat
  marks : Nat
  life : Tbl Nat
  scrubReg : Scrub
  power : Power
  islands : Tbl Island
  /-- by core*4 + quarter; a quarter that is not throttled has none (R433) -/
  gates : Tbl Gate
  /-- runs that a context slot has begun on a core in this epoch, by core*64 + slot (R438) -/
  ran : Tbl Nat
  limits : Tbl Nat
  temps : Tbl (BitVec 10)
  warns : Tbl Thermal
  moves : List Move
  /-- in the order they were asked for -/
  moveAsks : List MoveAsk
  house : House
  /-- the last count that CLOCK gave on each physical core, the model's own: the next is greater (log 8) -/
  clocks : Tbl Nat
  deriving DecidableEq, Repr

/-- Fault reasons: none is a fault of the JQ4, whose faults are traps and therefore next states. -/
inductive Fault where
  /-- exec of an ISA word when no warp holds the issue slot (focus is none, or names no valid split).
  Raised by the shared issue wrapper; step never does it. Safe: the manual gives a word no meaning without
  the warp that issues it. -/
  | noIssuer
  deriving DecidableEq, Repr

/-- Refusal reasons. -/
inductive Refusal where
  /-- an arm of exec not yet written. Safe. -/
  | notModelled (mnemonic : String)
  deriving DecidableEq, Repr

/-- The remap table at reset (R64): entry L holds PHYS = L and VALID (bit 7) set, no core disabled (log 6). -/
def remapReset : Tbl Nat := []

/-- The entry of the remap table for a logical core: unlisted entries are the reset ones. -/
def remapEntry (m : Tbl Nat) (core : Nat) : Nat := m.getD (0x80 + core % 64) core

/-- The package right after reset: every field at the value the manual states, and where it states none, at
the value that log 4, 5 or 6 names. -/
def State.reset : State :=
  { agenda := [], freeCount := 0, focus := none, runs := [], now := 0, nextId := 0, seq := 0,
    mem := [], sectors := [], backing := [], rowErrors := [], banks := [], acc := [], anchors := [], accMarks := [], scale := [],
    scaleMarks := [], spadMarks := [], cells := [], bscale := [], checks := [],
    queues := [], guard := 1000, remap := remapReset, launches := [], blocks := [], warps := [], saved := [],
    cards := [], cardCtr := [], engineErrors := [], barriers := [],
    ctxs := [], tlb := [], icache := [], l1 := [], place := [], sole := [], leases := [], pools := [], zeroised := [],
    splits := [], lines := [], contracts := [], kv := [], tensors := [],
    net := .reset, chans := [], fullQueues := [], seqs := [], jitter := [], logs := [], injectors := [], admitRegs := [], peersDown := [], peersRefusing := [],
    peerReplies := [], islandUse := [], genReplays := [], races := [], hostWrites := [], egress := [], replies := [], msix := 0,
    gcnt := [], bfail := 0, bspare := 0, marks := 0, life := [], scrubReg := .reset, power := .reset,
    islands := [], gates := [], ran := [], limits := [], temps := [], warns := [], moves := [], moveAsks := [], house := .reset,
    clocks := [] }

end Sys2Proof.Machine
end

