-- ==== Sys2Proof/Machine/Links.lean ====
section
/-! DEFINITION. The package network's links: places and routes (R5, R6, R220 to R222), the logs and jitter generators of ports
(R225, R231), the injectors at the sending ends of links (R238, R239), and the check of identity words (R230). -/

namespace Sys2Proof.Machine

/-! ## Places and routes -/

/-- The die of a core. -/
def coreDie (core : Nat) : Nat := core / 64

/-- The port by which a core sends (R231): die, quadrant, router and port of its physical position. -/
def portOf (s : State) (core : Nat) : Nat := coreDie core * 64 + remapEntry s.remap core % 64

/-- R221: the dies through which a packet passes on its way, the last one its target: the horizontal link first, then the
vertical one. -/
def dieRoute (src dst : Nat) : List Nat :=
  let h := src - src % 2 + dst % 2
  (if h = src then [] else [h]) ++ (if h = dst then [] else [dst])

/-- The number of the die-to-die link from one die to an adjacent one (R220). -/
def dieLink (src dst : Nat) : Nat :=
  let pair := match Nat.min src dst, Nat.max src dst with
    | 0, 1 => 0 | 2, 3 => 1 | 0, 2 => 2 | _, _ => 3
  2 * pair + (if src < dst then 0 else 1)

/-- The links of a way over dies. -/
def linksAlong : Nat → List Nat → List Nat
  | _, [] => []
  | src, d :: rest => dieLink src d :: linksAlong d rest

/-- The die-to-die links between two dies, in order. -/
def linksBetween (src dst : Nat) : List Nat := linksAlong src (dieRoute src dst)

/-- The long link of a die between two quadrants, by the quadrant that sends on it; it ends at router (q' mod 4) of
quadrant q (R220). -/
def longLink (die q q' : Nat) : Nat := (die * 4 + q) * 4 + q'

/-- The long links that an entry on its way within a die crosses: none inside one quadrant or between dies (R222). -/
def longLinks (port target : Nat) (via : Option Nat) : List Nat :=
  let die := port / 64
  let q := port / 16 % 4
  let q' := target / 16 % 4
  if die ≠ target / 64 ∨ q = q' then []
  else match via with
    | none => [longLink die q q']
    | some m => [longLink die q m, longLink die m q']

/-- The ports from which and at which a channel's entries travel: those of its cores' places now (R360, R439). -/
def Chan.port (s : State) (c : Chan) : Nat := portOf s (c.sender / 64)
def Chan.target (s : State) (c : Chan) : Nat := portOf s c.core

/-- The die-to-die links of a channel. -/
def Chan.links (c : Chan) : List Nat := linksBetween (coreDie (c.sender / 64)) (coreDie c.core)

/-- Flits in the output queue of a long link: entries sent and not yet taken whose route begins with it. -/
def longQueue (s : State) (link : Nat) : Nat :=
  (s.chans.map fun (_, c) =>
    (c.window.filter fun e => (longLinks (c.port s) (c.target s) e.via).head? == some link).length).foldl (· + ·) 0

/-- R222: the intermediate quadrant of a non-minimal route, which a packet takes when the queue of the minimal long link
holds more than ADPTH flits: the one whose long link has the shortest queue, the lower number among equals. -/
def chooseVia (s : State) (port target : Nat) : Option Nat :=
  match longLinks port target none with
  | [link] =>
    if longQueue s link ≤ s.net.adpth then none
    else
      let die := port / 64
      let q := port / 16 % 4
      let others := (List.range 4).filter fun m => m != q && m != target / 16 % 4
      others.foldl (fun best m =>
        match best with
        | some b => if longQueue s (longLink die q m) < longQueue s (longLink die q b) then some m else best
        | none => some m) none
  | _ => none

/-! ## Port logs, jitter and lifetime counters (R225, R231, R454) -/

/-- Counts in the error log of a port (R231). -/
def updLog (s : State) (port : Nat) (f : PortLog → PortLog) : State :=
  { s with logs := s.logs.putD .reset port (f (s.logs.getD .reset port)) }

/-- A counter of 32 bits that saturates. -/
def sat32 (n : Nat) : Nat := Nat.min (n + 1) (2 ^ 32 - 1)

/-- n more on a counter of 32 bits that saturates. -/
def satAdd32 (a n : Nat) : Nat := Nat.min (a + n) (2 ^ 32 - 1)

/-- Lifetime counter keys (R454). -/
def lifeFlits : Nat := 0
def lifeReplays : Nat := 1
def lifeCaps : Nat := 2
def countLife (s : State) (k n : Nat) : State := { s with life := s.life.put k (s.life.getD 0 k + n) }

/-- The jitter generator of a sending port (R225): the port's number plus one at reset. -/
def jitterOf (s : State) (port : Nat) : BitVec 16 := s.jitter.getD (BitVec.ofNat 16 (port + 1)) port

/-- One advance of a jitter generator. -/
def jitterNext (x : BitVec 16) : BitVec 16 := if x.getLsbD 0 then (x >>> 1) ^^^ 0xB400#16 else x >>> 1

/-- A port draws for one wait. -/
def drawJitter (s : State) (port : Nat) : State := { s with jitter := s.jitter.put port (jitterNext (jitterOf s port)) }

/-- A queue without room turns a request of a core away n times: its port counts the refusals, and the core's port draws for each
wait (R224, R225). Which request, and when, the order of arrival at the queue gives, which is outside the model (log 16). -/
def refuseRequest (s : State) (core port n : Nat) : State :=
  let s := updLog s port fun l => { l with nacks := satAdd32 l.nacks n }
  (List.range n).foldl (fun s _ => drawJitter s (portOf s core)) s

/-- The wait before the k-th consecutive resend, by the generator's new value. -/
def backoffWait (s : State) (k : Nat) (x : BitVec 16) : Nat :=
  let d := Nat.min (s.net.bomin * 2 ^ (k - 1)) s.net.bomax
  d + x.toNat % (d / 8)

/-! ## Injectors (R238, R239): injector i stands at link i, whose receiving end is logged as port 256 + i -/

def injectorOf (s : State) (i : Nat) : Injector := s.injectors.getD .reset i
def setInjector (s : State) (i : Nat) (j : Injector) : State := { s with injectors := s.injectors.putD .reset i j }

/-- Setting ARM clears COUNT and FIRED (R239). -/
def armInjector (s : State) (i : Nat) : State :=
  setInjector s i { injectorOf s i with arm := true, count := 0, fired := false, counting := true }

/-- The packet positions that MASK flips in the lane of an injector: a lane carries 4 bits of a flit on a die-to-die link and
32 on a domain link. Where they lie in the packet is not stated (log 8). -/
def laneFlips (i : Nat) (j : Injector) : List Nat :=
  ((List.range (if i < 8 then 4 else 32)).filter fun b => bitOf j.mask b).map fun b => Config.laneBit (i < 8) j.lane b

/-- The flips that lie in the identity word and its check bits. -/
def identFlips (flips : List Nat) : List Nat := flips.filter (· < 72)

/-- What a router makes of an identity word (R230): whether the packet goes on, its log, and whether it goes on unseen. -/
inductive IdentCheck where
  | sound | fixed | dropped | unseen
  deriving DecidableEq, Repr

def identCheck (flips : List Nat) : IdentCheck :=
  match (identFlips flips).length with
  | 0 => .sound
  | 1 => .fixed
  | 2 => .dropped
  | _ => .unseen

/-- Counts what the router behind a port found. -/
def logIdent (s : State) (port : Nat) (c : IdentCheck) : State :=
  match c with
  | .fixed => updLog s port fun l => { l with hfix := sat32 l.hfix }
  | .dropped => updLog s port fun l => { l with hdrop := sat32 l.hdrop }
  | _ => s

/-- Three or more errors give another identity or pass unseen, which is not stated (a free word, log 8); the check where the
packet is served turns it away unless its generation is the current one of its ASID (R195, R230). -/
def identServed (s : State) (w : Word64) : Bool :=
  s.ctxs.any fun (_, c) => c.valid && c.asid == bitsOf w.toNat 63 48 && c.gen.toNat == bitsOf w.toNat 47 32

/-- n more flits are sent on link i (R239). -/
def countFlits (s : State) (i n : Nat) : State :=
  let j := injectorOf s i
  if j.counting then setInjector s i { j with count := (j.count + n) % 2 ^ 32 } else s

/-- n flits that have to be sent again on link i: a wait is drawn, and each replay counts (R225, R226, R239). -/
def replayOn (s : State) (i n : Nat) : State := countFlits (countLife (drawJitter s (256 + i)) lifeReplays n) i n

/-- A flit fails the CRC of link i: it is dropped and refused with the flits behind it, and replayed there (R226). -/
def crcReplay (s : State) (i behind : Nat) : State :=
  replayOn (updLog s (256 + i) fun l => { l with crcx := sat32 l.crcx, nacks := satAdd32 l.nacks (behind + 1) }) i (behind + 1)

/-- What a packet has met on its links: payload flips that no CRC has seen, a router that has discarded it, the identity word under
which it goes on if that has changed. -/
structure Passed where
  flips : List Nat
  lost : Bool
  seen : Option Word64
  deriving DecidableEq, Repr

/-- A packet that has met nothing. -/
def Passed.clean : Passed := { flips := [], lost := false, seen := none }

/-- Flips that pass the CRC of link i meet the router behind it (R230). -/
def passFlips (s : State) (i : Nat) (p : Passed) (flips : List Nat) : State × Passed :=
  let c := identCheck flips
  let s := logIdent s (256 + i) c
  let p := { p with flips := p.flips ++ flips.filter (72 ≤ ·) }
  match c with
  | .dropped => (s, { p with lost := true })
  | .unseen => ({ s with freeCount := s.freeCount + 1 }, { p with seen := some (Config.freeWord s.freeCount) })
  | _ => (s, p)

/-- A packet of n flits crosses link i: each flit counts, and the injector acts on the one at which COUNT reaches NTH. A flit that is
corrupted before the CRC's check, or lost, is replayed on the link with what follows it; a delay is timing (R238, R239; log 2, log 16).
One that a router has discarded goes no further. -/
def crossLink (n : Nat) (r : State × Passed) (i : Nat) : State × Passed :=
  let (s, p) := r
  let j := injectorOf s i
  if p.lost then (s, p)
  else if j.arm && decide (j.count < j.nth) && decide (j.nth ≤ j.count + n) then
    let behind := j.count + n - j.nth
    let s := setInjector s i { j with arm := false, fired := true, count := (j.count + n) % 2 ^ 32 }
    match j.mode with
    | 1 => (replayOn (updLog s (256 + i) fun l => { l with nacks := satAdd32 l.nacks behind }) i (behind + 1), p)
    | 2 => (s, p)
    | _ => if j.precrc then passFlips s i p (laneFlips i j) else (crcReplay s i behind, p)
  else (countFlits s i n, p)

/-- A packet crosses links in turn. -/
def crossLinks (s : State) (n : Nat) (links : List Nat) : State × Passed := links.foldl (crossLink n) (s, .clean)

/-- A packet of a memory request crosses its links until it is served: one that is lost is sent again at its sender's timeout, one
whose identity does not pass is rejected and sent again (R195, R225, R230). An injector acts once, so that those armed bound the
attempts. The answer is the payload flips of the copy that is served. -/
def sendPacket (port : Nat) (core : Option Nat) (n : Nat) (links : List Nat) : Nat → State → State × List Nat
  | 0, s => (s, [])
  | k + 1, s =>
    let (s, p) := crossLinks s n links
    if p.lost then sendPacket port core n links k (drawJitter s port)
    else
      match p.seen, core with
      | some w, some c =>
        if identServed s w then (s, p.flips)
        else sendPacket port core n links k { s with genReplays := s.genReplays.put c (s.genReplays.getD 0 c + 1) }
      | some w, none => if identServed s w then (s, p.flips) else sendPacket port core n links k s
      | none, _ => (s, p.flips)

/-- A flit of a message goes on its way with its original bits (R225, R239). -/
def sendEntry (s : State) (links : List Nat) (e : NetEntry) : State × NetEntry :=
  if s.injectors.isEmpty then (s, { e with flips := [], lost := false, seen := none })
  else
    let (s, p) := crossLinks s 1 links
    (s, { e with flips := p.flips, lost := p.lost, seen := p.seen })

end Sys2Proof.Machine
end

