-- ==== Sys2Proof/Machine/Home.lean ====
section
/-! DEFINITION. What happens at a line's home: the places of R205, graded reads and writes of sectors
(R240 to R248), the cache partition (R208 to R212), leases (R356) and host notifications. -/

namespace Sys2Proof.Machine

/-! ## Places -/

/-- PA[51:48] (R183). -/
def classOf (pa : Nat) : Nat := pa / 2 ^ 48 % 16

/-- The offset within a class. -/
def offOf (pa : Nat) : Nat := pa % 2 ^ 48

/-- The die of an HBM or pinned address (R183). -/
def dieOf (pa : Nat) : Nat := if classOf pa < 4 then classOf pa else offOf pa / 2 ^ 46

/-- Bytes of HBM populated on a die (R2). -/
def hbmBytes (s : State) (die : Nat) : Nat := s.house.hbm.getD die 0 * 2 ^ 30

/-- A line number within its die (R205). -/
def lineIndex (pa : Nat) : Nat := (if classOf pa < 4 then offOf pa else offOf pa % 2 ^ 46) / 128

/-- h of R205 for a line number. -/
def lineHash (l : Nat) : Nat :=
  Nat.xor (l % 128) (Nat.xor (l / 2 ^ 7 % 128) (Nat.xor (l / 2 ^ 14 % 128)
    (Nat.xor (l / 2 ^ 21 % 128) (Nat.xor (l / 2 ^ 28 % 128) (l / 2 ^ 35 % 64)))))

/-- The home slice of an HBM or pinned address, 0 to 511 (R205). -/
def homeSlice (pa : Nat) : Nat := dieOf pa * 128 + lineHash (lineIndex pa)

/-- The index of a line within its home slice (R205). -/
def sliceIndex (pa : Nat) : Nat := lineIndex pa / 128

/-- The store split of a die. -/
def splitOf (s : State) (die : Nat) : StoreSplit := s.splits.getD .reset die

/-- The cache sixteenths in force: CACHE, held as 16 when FULL (R206). -/
def cacheSixteenths (s : State) (die : Nat) : Nat := (splitOf s die).cache

/-- The end of the unlocked part of a die's pinned partition, of the whole of it, and of the key-value reserve
(R211). -/
def unlockedEnd (s : State) (die : Nat) : Nat := ((splitOf s die).pin - (splitOf s die).lock) * 2 ^ 26
def pinEnd (s : State) (die : Nat) : Nat := (splitOf s die).pin * 2 ^ 26
def kvEnd (s : State) (die : Nat) : Nat := ((splitOf s die).pin + (splitOf s die).kv) * 2 ^ 26

/-- The address has storage on the package: populated HBM, unlocked pinned store, the key-value reserve (R2, R211). -/
def storedAt (s : State) (pa : Nat) : Bool :=
  if classOf pa < 4 then decide (offOf pa < hbmBytes s (classOf pa))
  else classOf pa == 8 &&
    (decide (offOf pa % 2 ^ 46 < unlockedEnd s (dieOf pa)) ||
      (decide (pinEnd s (dieOf pa) ≤ offOf pa % 2 ^ 46) && decide (offOf pa % 2 ^ 46 < kvEnd s (dieOf pa))))

/-- A class-0x8 offset that reads zero and discards writes (R211). -/
def unserved (s : State) (pa : Nat) : Bool := classOf pa == 8 && !storedAt s pa

/-- One more host notification by MSI-X (R397). -/
def notifyHost (s : State) : State := { s with msix := s.msix + 1 }

/-- The next free value (log 8). -/
def freshWord (s : State) : Word64 × State := (Config.freeWord s.freeCount, { s with freeCount := s.freeCount + 1 })

/-! ## Sectors (R240 to R244) -/

/-- The low tail bits of an element and its width under NL 1 to 6 (R240). -/
def layoutOf (nl : Nat) : Option (Nat × Nat) :=
  match nl with
  | 1 => some (32, 16)
  | 2 => some (16, 4)
  | 3 => some (16, 6)
  | 4 => some (3, 1)
  | 5 => some (5, 3)
  | 6 => some (8, 4)
  | _ => none

/-- The element of data bit i of a sector and whether the bit is a tail bit (R240, R241). -/
def bitPlace (w t sec i : Nat) : Nat × Bool :=
  let p := sec % 1024 * 512 + i
  (p / w, p % w < t && (p / w + 1) * w ≤ 2 ^ 19)

/-- Index e of an element within its sector (R242). -/
def elemIndex (w sec el : Nat) : Nat := el - sec % 1024 * 512 / w

/-- A parity group of R242 fails: an odd number of its tail bits and its parity bit are flipped. -/
def groupFails (w t sec : Nat) (flips : List Nat) (j : Nat) : Bool :=
  (flips.filter fun f =>
    if f < 512 then (let (el, tail) := bitPlace w t sec f; tail && elemIndex w sec el % 16 == j)
    else f == 560 + j).length % 2 == 1

/-- What decoding a sector finds: its data with what the codes correct, the uncorrectable grade (0, 2 or 3),
the parity groups in error, and whether anything was corrected. -/
structure Decode64 where
  data : Nat
  bad : Nat
  groups : List Nat
  corrected : Bool
  deriving DecidableEq, Repr

/-- The data with some bits flipped. -/
def flipBits (data : Nat) (flips : List Nat) : Nat := flips.foldl (fun d f => Nat.xor d (2 ^ f)) data

/-- What a code makes of more errors than it detects for certain (log 11): it finds them, or it puts right up to k bits of
those that it covers, wherever they lie, or it sees nothing. -/
def pastReach (free : Word64) (k : Nat) (covers : Nat → Bool) (data : Nat) (flips : List Nat) : Option (Nat × Bool) :=
  let stored := flipBits data (flips.filter (· < 512))
  if free.getLsbD 0 then none
  else if free.getLsbD 1 then some (stored, false)
  else some (flipBits stored (((List.range k).map fun j => bitsOf free.toNat (9 * j + 10) (9 * j + 2)).filter covers), true)

/-- R240, R242, R243: a sector coded under nl. Beyond the codes' stated reach the outcome is free (log 11). -/
def decodeSector (free : Word64) (nl sec data : Nat) (flips : List Nat) : Decode64 :=
  match layoutOf nl with
  | none =>
    if flips.length ≤ 6 then { data := data, bad := 0, groups := [], corrected := !flips.isEmpty }
    else
      match if flips.length = 7 then none else pastReach free 6 (fun _ => true) data flips with
      | none => { data := data, bad := 3, groups := [], corrected := false }
      | some (d, c) => { data := d, bad := 0, groups := [], corrected := c }
  | some (w, t) =>
    let tails := flips.filter fun f => f < 512 && (bitPlace w t sec f).2
    let heads := flips.filter fun f => f < 560 && !(f < 512 && (bitPlace w t sec f).2)
    let groups := (List.range 16).filter fun j => groupFails w t sec flips j
    let stored := flipBits data tails
    if heads.length ≤ 5 then { data := stored, bad := 0, groups := groups, corrected := !heads.isEmpty }
    else
      match if heads.length = 6 then none else pastReach free 5 (fun f => !(bitPlace w t sec f).2) stored heads with
      | none => { data := stored, bad := 2, groups := groups, corrected := false }
      | some (d, c) => { data := d, bad := 0, groups := groups, corrected := c }

/-- The element of data bit i lies in a parity group in error. -/
def tailAffected (w t sec : Nat) (groups : List Nat) (i : Nat) : Bool :=
  groups.contains (elemIndex w sec (bitPlace w t sec i).1 % 16)

/-- R244: under F32, BF16 and F16 a GRADE 1 element whose exponent is all ones is GRADE 2. -/
def infiniteHead (nl data i : Nat) : Bool :=
  match nl with
  | 1 => bitsOf data (i / 32 * 32 + 30) (i / 32 * 32 + 23) == 255
  | 2 => bitsOf data (i / 16 * 16 + 14) (i / 16 * 16 + 7) == 255
  | 3 => bitsOf data (i / 16 * 16 + 14) (i / 16 * 16 + 10) == 31
  | _ => false

/-- What a read delivers: bytes, which of them are poison, the highest grade of the elements consumed, the
source and layout for the GRADE register, and the GRADE 1 elements delivered under TP 1 or 2. -/
structure Deliv where
  data : List Byte
  poison : List Bool
  grade : Nat
  src : Nat
  nl : Nat
  tails : List Nat
  deriving DecidableEq, Repr

/-- A delivery without error. -/
def Deliv.good (data : List Byte) : Deliv :=
  { data := data, poison := data.map fun _ => false, grade := 0, src := 0, nl := 0, tails := [] }

/-- Some byte delivered is poison. -/
def Deliv.isPoison (d : Deliv) : Bool := d.poison.any id

/-- Two deliveries of consecutive bytes. -/
def Deliv.append (a b : Deliv) : Deliv :=
  let hi := if b.grade > a.grade then b else a
  { data := a.data ++ b.data, poison := a.poison ++ b.poison, grade := hi.grade, src := hi.src, nl := hi.nl,
    tails := a.tails ++ b.tails }

/-- Bit i of a sector consumed as a GRADE 1 element (R243). -/
def gradeOneBit (nl sec : Nat) (dec : Decode64) (i : Nat) : Bool :=
  match layoutOf nl with
  | none => false
  | some (w, t) => !dec.groups.isEmpty && tailAffected w t sec dec.groups i

/-- Some bytes of a sector, with the grade of the elements they lie in: the bits consumed are those of the bytes; an
element's grade is seen by every one of its bits. -/
def deliverBytes (nl tp sec src : Nat) (dec : Decode64) (ys : List Nat) : Deliv :=
  let byteOf (d : Nat) (y : Nat) : Byte := BitVec.ofNat 8 (d / 2 ^ (8 * y))
  if dec.bad ≠ 0 then
    { data := ys.map fun _ => 0#8, poison := ys.map fun _ => true, grade := dec.bad, src := src, nl := nl, tails := [] }
  else if dec.groups.isEmpty then
    { data := ys.map (byteOf dec.data), poison := ys.map fun _ => false, grade := 0, src := src, nl := nl, tails := [] }
  else
    match layoutOf nl with
    | none =>
      { data := ys.map (byteOf dec.data), poison := ys.map fun _ => false, grade := 0, src := src, nl := nl, tails := [] }
    | some (w, t) =>
      let one (i : Nat) := gradeOneBit nl sec dec i
      let two (i : Nat) := one i && infiniteHead nl dec.data i
      let pois (i : Nat) := one i && (tp == 0 || tp == 3 || infiniteHead nl dec.data i)
      let bit (i : Nat) : Bool :=
        if one i && tp == 1 && (bitPlace w t sec i).2 then false else bitOf dec.data i
      let bits := (List.range 8).map
      let anyBit (f : Nat → Bool) := ys.any fun y => (List.range 8).any fun z => f (8 * y + z)
      { data := ys.map fun y => BitVec.ofNat 8 ((bits fun z => b2n (bit (8 * y + z)) * 2 ^ z).foldl (· + ·) 0),
        poison := ys.map fun y => (List.range 8).any fun z => pois (8 * y + z),
        grade := if anyBit two then 2 else if anyBit one then 1 else 0,
        src := src, nl := nl,
        tails := if tp == 1 || tp == 2 then
            ((ys.flatMap fun y => (List.range 8).map (8 * y + ·)).filter fun i => one i && !two i).map
              (fun i => sec / 1024 * 2 ^ 20 + (bitPlace w t sec i).1) |>.eraseDups
          else [] }

/-- Consecutive bytes of a sector. -/
def deliverSector (nl tp sec src : Nat) (dec : Decode64) (off n : Nat) : Deliv :=
  deliverBytes nl tp sec src dec ((List.range n).map (off + ·))

/-! ## Counters (R252) -/

/-- One event of the grade counters: die, memory class, layout, outcome. Grades 2 and 3 notify the host. -/
def countGrade (s : State) (die cls nl g : Nat) : State :=
  let k := ((die * 3 + cls) * 8 + nl % 8) * 4 + g
  let v := s.gcnt.getD 0 k
  let s := { s with gcnt := s.gcnt.putD 0 k (Nat.min (v + 1) (2 ^ 64 - 1)) }
  if g ≥ 2 then notifyHost s else s

/-- One more poison mark written by a card or a partial write. -/
def countMark (s : State) : State := { s with marks := Nat.min (s.marks + 1) (2 ^ 64 - 1) }

/-! ## Contracts and the cache partition (R208 to R212, R216) -/

/-- The contract that governs a physical byte: that of the launch admitted last (R33). Contracts are held in order of
launch, earliest first. One launch's ranges do not overlap, but two of them may reach one frame by different virtual
addresses: the spec names no governing one, and here the later entry governs (DESIGN CHOICE, log 27). -/
def governing (s : State) (pa : Nat) : Option Contract :=
  (s.contracts.filter fun c => c.frames.any fun f => f.2 == pa / 65536).getLast?

/-- The reuse class of an access (R210): low where no contract applies. -/
def reuseOf (s : State) (pa : Nat) : Reuse := ((governing s pa).map (·.cls)).getD .low

/-- The line is held in the cache partition or the locked area. -/
def heldAt (s : State) (line : Nat) : Bool := s.lines.any fun l => l.line == line

/-- The set of a line in the cache partition (R208). -/
def sameSet (s : State) (a b : Nat) : Bool :=
  let c := cacheSixteenths s (dieOf (a * 128))
  homeSlice (a * 128) == homeSlice (b * 128) && sliceIndex (a * 128) % (256 * c) == sliceIndex (b * 128) % (256 * c)

/-- The rank of a line's contract: larger is lower (R210). -/
def rankOf (s : State) (line : Nat) : Nat := ((governing s (line * 128)).map (·.rank)).getD 0

/-- The line stands in the streaming way of its set: allocated as streaming, and streaming still. -/
def inStreamWay (s : State) (l : HomeLine) : Bool := l.streaming && reuseOf s (l.line * 128) == .streaming

/-- The victim of R210's table among the lines of a set, least recent first; none while a way is invalid. A line whose
class has become streaming and that is not in the streaming way has no place in the table: it goes after the low lines and
before the high ones (DESIGN CHOICE, log 28). -/
def victimOf (s : State) (cls : Reuse) (set : List HomeLine) : Option Nat :=
  let streamingLine := (set.find? (inStreamWay s)).map (·.line)
  let low : Option Nat :=
    if set.length < 16 then none
    else
      let byClass (c : Reuse) := (set.find? fun l => reuseOf s (l.line * 128) == c && !inStreamWay s l).map (·.line)
      let highs := set.filter fun l => reuseOf s (l.line * 128) == .high
      let worst := highs.foldl (fun m l => Nat.max m (rankOf s l.line)) 0
      (set.find? fun l => reuseOf s (l.line * 128) == .none).map (·.line) |>.orElse fun _ =>
        streamingLine |>.orElse fun _ => byClass .low |>.orElse fun _ => byClass .streaming |>.orElse fun _ =>
          (highs.find? fun l => rankOf s l.line == worst).map (·.line)
  if cls = .streaming then (match streamingLine with | some l => some l | none => low) else low

/-- Accesses in a window of the miss-ratio monitor (R216). -/
def windowSize : Nat := 65536

/-- Counts one access of a reported contract (R216). A full window is put by to be judged, and a new one starts. -/
def countWindow (s : State) (pa : Nat) (miss : Bool) : State :=
  match governing s pa with
  | some c =>
    if c.report then
      { s with contracts := s.contracts.map fun k =>
          if k.launch = c.launch ∧ k.index = c.index then
            let (a, m) := k.window.getD (0, 0) (dieOf pa)
            if a + 1 < windowSize then { k with window := k.window.put (dieOf pa) (a + 1, m + b2n miss) }
            else { k with window := k.window.del (dieOf pa), due := k.due ++ [(dieOf pa, m + b2n miss)] }
          else k }
    else s
  | none => s

/-- Sets a sector's error state, keeping the canonical form. What is written, coded anew or marked in a held copy is what HBM
comes to hold (R209), so that nothing else is kept for it beneath. -/
def setSector (s : State) (sec : Nat) (e : Sector) : State :=
  { s with sectors := s.sectors.putD .clean sec e, backing := s.backing.del sec }

/-- A sector is written back to HBM: an error that its code corrects is rewritten (R248). -/
def rewriteSector (s : State) (sec : Nat) : State :=
  let e := s.sectors.getD .clean sec
  if e.flips.isEmpty then s
  else match layoutOf e.nl with
    | none => if e.flips.length ≤ 6 then setSector s sec { e with flips := [] } else s
    | some (w, t) =>
      let head (f : Nat) : Bool := f < 560 && !(f < 512 && (bitPlace w t sec f).2)
      if (e.flips.filter head).length ≤ 5 then setSector s sec { e with flips := e.flips.filter fun f => !head f } else s

/-- A held copy of a sector goes: a dirty one is written back, and under a clean one HBM has what it had (R240, log 111). -/
def leaveSector (s : State) (l : HomeLine) (half : Nat) : State :=
  let sec := l.line * 2 + half
  if l.dirty.getLsbD half then rewriteSector { s with backing := s.backing.del sec } sec
  else match s.backing.find? sec with
    | some e => setSector s sec e
    | none => s

/-- A held line leaves the store: its dirty sectors are written back. -/
def dropLine (s : State) (line : Nat) : State :=
  match s.lines.find? (fun l => l.line == line) with
  | none => s
  | some l =>
    let s := leaveSector (leaveSector s l 0) l 1
    { s with lines := s.lines.filter fun k => k.line != line }

/-- A set holds at most one streaming line (R210): those whose class is streaming no more have left the way. -/
def leaveStreamWay (s : State) : State :=
  if s.lines.any fun l => l.streaming && !inStreamWay s l then
    { s with lines := s.lines.map fun l => { l with streaming := inStreamWay s l } }
  else s

/-- A line at its HBM home: hit, or allocation and replacement by class (R210), with the sectors that become dirty. The
answer says whether the line was held before. -/
def touchLine (s : State) (pa : Nat) (write : BitVec 2) : State × Bool :=
  if classOf pa ≥ 4 then (s, true)
  else
    let line := pa / 128
    let cls := reuseOf s pa
    match s.lines.find? (fun l => l.line == line) with
    | some l =>
      let l' := { l with dirty := l.dirty ||| write }
      ({ s with lines := (s.lines.filter fun k => k.line != line) ++ [l'] }, true)
    | none =>
      if cls = .none ∨ cacheSixteenths s (dieOf pa) = 0 then (s, false)
      else
        let s := leaveStreamWay s
        let s := match victimOf s cls (s.lines.filter fun l => !l.locked && sameSet s l.line line) with
          | some v => dropLine s v
          | none => s
        ({ s with lines := s.lines ++ [{ line := line, dirty := write, locked := false, streaming := cls == .streaming }] },
          false)

/-! ## Leases and placement entries (R342, R355 to R357) -/

/-- The placement entry of a line on a core (R355). -/
def placeIdx (core pa : Nat) : Nat :=
  let f (i : Nat) := pa / 2 ^ i % 64
  core * 64 + Nat.xor (f 6) (Nat.xor (f 12) (Nat.xor (f 18) (Nat.xor (f 24) (Nat.xor (f 30)
    (Nat.xor (f 36) (Nat.xor (f 42) (pa / 2 ^ 48 % 16)))))))

/-- The entry itself: its counter is 0 at reset. -/
def placeOf (s : State) (k : Nat) : PlaceEntry := s.place.getD { counter := 0, lease := none } k

/-- Moves an entry's counter, saturating at 0 and 3. -/
def bumpPlace (s : State) (k : Nat) (up : Bool) (n : Nat) : State :=
  let e := placeOf s k
  { s with place := s.place.put k { e with counter := if up then Nat.min 3 (e.counter + n) else e.counter - n } }

/-- How a lease ends: recalled by another requester, by the holder's own limit or eviction, or before a save, a move or a
stop of its core (R355, R356). -/
inductive LeaseEnd where
  | recalled | expired | set_aside
  deriving DecidableEq, Repr

/-- Ends the lease on a line: the holder's updates stand (R342), since what a core writes under a lease is performed at
once. Recalled, the holder's counter rises by two; expired or evicted, it falls by one (R355). The entries of a holder in
another package are that package's. -/
def endLease (s : State) (line : Nat) (how : LeaseEnd) : State :=
  match s.leases.find? (fun l => l.line == line) with
  | none => s
  | some l =>
    let s := { s with leases := s.leases.filter fun x => x.line != line }
    if 256 ≤ l.core then s
    else
      let k := placeIdx l.core (line * 128)
      let s := { s with place := s.place.put k { placeOf s k with lease := none } }
      match how with
      | .recalled => bumpPlace s k true 2
      | .expired => bumpPlace s k false 1
      | .set_aside => s

/-- A core holds a lease on a line. -/
def leasedBy (s : State) (core line : Nat) : Bool := s.leases.any fun l => l.line == line && l.core == core

/-- An access of another agent that reaches home recalls a lease first, and one of another core ends a run of one core's
atomics at home (R342, R355, R356). -/
def reachHome (s : State) (core : Option Nat) (pa : Nat) : State :=
  let line := pa / 128
  let s := match s.leases.find? (fun l => l.line == line) with
    | some l => if some l.core = core then s else endLease s line .recalled
    | none => s
  match s.sole.find? line with
  | some c => if core.isNone ∨ some c = core then s else { s with sole := s.sole.del line }
  | none => s

/-! ## Graded reads and writes of one sector -/

/-- The 512 data bits of a sector. -/
def sectorData (s : State) (sec : Nat) : Nat := s.mem.readNat (sec * 64) 64

/-- The counter class of an address: 0 HBM, 1 store (R252). -/
def countClass (pa : Nat) (held : Bool) : Nat := if classOf pa < 4 && !held then 0 else 1

/-- SRC of the GRADE register (R249). -/
def srcOf (pa : Nat) (held : Bool) : Nat :=
  if classOf pa = 12 then 6 else if classOf pa = 8 then 2 else if held then 1 else 0

/-- The highest grade of a sector's elements (R243, R244). -/
def decodeGrade (nl sec : Nat) (dec : Decode64) : Nat :=
  if dec.bad ≠ 0 then dec.bad
  else if dec.groups.isEmpty then 0
  else if (List.range 512).any fun i => gradeOneBit nl sec dec i && infiniteHead nl dec.data i then 2
  else 1

/-- Records what a sector read found in the counters; a peer counts its own (R236). A read that bypasses layouts is graded
3 when it is past correction, and has no layout (R243). -/
def countDecode (s : State) (pa : Nat) (held bypass : Bool) (nl : Nat) (dec : Decode64) : State :=
  if classOf pa = 12 then s
  else
    let n := if bypass then 0 else nl
    let s := if dec.corrected then countGrade s (dieOf pa) (countClass pa held) n 0 else s
    let g := decodeGrade nl (pa / 64) dec
    if g = 0 then s else countGrade s (dieOf pa) (countClass pa held) n (if bypass then 3 else g)

/-- A sector whose bits are coded under another layout than the one that reads it comes back at any grade
(R209). -/
def mismatchDecode (free : Word64) (nl data : Nat) : Decode64 :=
  let g := free.toNat % 4
  match layoutOf nl with
  | none => { data := data, bad := if g = 0 then 0 else 3, groups := [], corrected := false }
  | some _ =>
    { data := data, bad := if g ≥ 2 then 2 else 0, groups := if g = 1 then [free.toNat / 4 % 16] else [],
      corrected := false }

/-- Decodes a sector for an access under nl; held says whether it lies in its own storage at home (R209). The
state answered has a held sector recoded under nl when it was coded under another. -/
def openSector (s : State) (pa nl : Nat) (held : Bool) (bypass : Bool := false) : State × Decode64 × Nat :=
  let sec := pa / 64
  let e := s.sectors.getD .clean sec
  let data := sectorData s sec
  let own := if e.nl = 8 then nl else e.nl
  if e.mark then
    let s := if held && own ≠ nl then setSector s sec { e with nl := nl } else s
    (s, { data := data, bad := 3, groups := [], corrected := false }, 7)
  else if own = nl ∨ held then
    let (free, s) := if e.flips.length ≤ 5 then (0#64, s) else freshWord s
    let dec := decodeSector free own sec data e.flips
    let s := countDecode s pa held bypass own dec
    if own = nl then (s, dec, srcOf pa held)
    else
      let s := { s with mem := s.mem.writeNat (sec * 64) 64 dec.data }
      (setSector s sec { nl := nl, flips := [], mark := dec.bad ≠ 0 }, dec, srcOf pa held)
  else
    let (free, s) := freshWord s
    let dec := mismatchDecode free nl (flipBits data (e.flips.filter (· < 512)))
    (countDecode s pa held bypass nl dec, dec, srcOf pa held)

/-- The layout under which an opened sector was decoded. -/
def openedNl (s : State) (pa nl : Nat) (held : Bool) : Nat :=
  let e := s.sectors.getD .clean (pa / 64)
  if e.nl = 8 then nl else if held then e.nl else nl

/-- A line that a read allocated takes the reading layout (R209): its sector is coded anew. -/
def takeLayout (s : State) (pa nl : Nat) (dec : Decode64) : State :=
  let sec := pa / 64
  let e := s.sectors.getD .clean sec
  if e.nl = 8 ∨ e.nl = nl then s
  else
    let s := { s with mem := s.mem.writeNat (sec * 64) 64 dec.data }
    setSector s sec { nl := nl, flips := [], mark := e.mark || dec.bad ≠ 0 }

/-- An access at home counts in the window of its core's island (R427). -/
def countUse (s : State) (core : Option Nat) (pa : Nat) : State :=
  match core with
  | some c =>
    if c < 256 then
      let i := portOf s c / 4
      let (a, n) := s.islandUse.getD (0, 0) i
      { s with islandUse := s.islandUse.put i (a + 1, n + b2n (((governing s pa).map (·.ntreq)).getD false)) }
    else s
  | none => s

/-- The sequence number of a core's request in the queue that takes it: a home slice's, or a peer package's (R224). -/
def stampRequest (s : State) (core : Option Nat) (pa : Nat) : State :=
  match core with
  | some c =>
    if 256 ≤ c then s
    else
      let k := portOf s c * 1024 + if classOf pa = 12 then 512 + bitsOf pa 47 40 else homeSlice pa
      { s with seqs := s.seqs.put k (s.seqs.getD 0 k + 1) }
  | none => s

/-- A line request: leases and runs of atomics meet it first, and R216 counts those of loads, stores, atomics and
cards, which carry a core. Pinned store is neither the cache partition nor the locked area. -/
def requestLine (s : State) (core : Option Nat) (pa : Nat) (write : BitVec 2) : State × Bool :=
  let s := countUse (reachHome (stampRequest s core pa) core pa) core pa
  let (s, was) := touchLine s pa write
  (if core.isSome && decide (classOf pa < 4 ∨ classOf pa = 8) then countWindow s pa (!was || classOf pa == 8) else s, was)

/-- The die at which a physical address is served: its home, or a core's own for its scratchpad (R183). -/
def servedDie (pa : Nat) : Nat := if classOf pa = 9 then bitsOf pa 31 24 / 64 else dieOf pa

/-- The links of a request and of its reply between a die and the place where an address is served (R221, R235). -/
def wayLinks (die pa : Nat) : List Nat × List Nat :=
  if classOf pa = 12 then ([8 + Config.domainLink (bitsOf pa 47 40) % 16], [])
  else if classOf pa < 4 ∨ classOf pa = 8 ∨ classOf pa = 9 then (linksBetween die (servedDie pa), linksBetween (servedDie pa) die)
  else ([], [])

/-- The packets of a request from a die and of its reply on their links, and the flips that its data meets there (R226, R239). -/
def travelFrom (s : State) (die port : Nat) (core : Option Nat) (pa : Nat) (write : Bool) : State × List Nat :=
  if s.injectors.isEmpty then (s, [])
  else
    let (out, back) := wayLinks die pa
    let fuel := s.injectors.length + 1
    let (s, fo) := sendPacket port core (Config.packetFlits write false) out fuel s
    let (s, fb) := sendPacket (servedDie pa * 64) core (Config.packetFlits write true) back fuel s
    (s, if write then fo else fb)

/-- The same for a core's own request. -/
def travel (s : State) (core : Option Nat) (pa : Nat) (write : Bool) : State × List Nat :=
  match core with
  | none => (s, [])
  | some c => if 256 ≤ c then (s, []) else travelFrom s (coreDie c) (portOf s c) core pa write

/-- The payload flips of a packet as bits of the sector that it carries, with its check bits (R226). -/
def sectorFlips (flips : List Nat) : List Nat := flips.map fun p => (p - 72) % 576

/-- Flips more of a sector's bits; a bit flipped twice is whole again. -/
def toggleFlips (old more : List Nat) : List Nat :=
  more.foldl (fun l f => if l.contains f then l.erase f else l ++ [f]) old

/-- A sector arrives at its home with flips that no link has seen. -/
def spoilSector (s : State) (sec : Nat) (flips : List Nat) : State :=
  if flips.isEmpty then s
  else
    let e := s.sectors.getD .clean sec
    setSector s sec { e with nl := if e.nl = 8 then 0 else e.nl, flips := toggleFlips e.flips (sectorFlips flips) }

/-- Bytes of a sector arrive at their reader with flips that no link has seen: graded there (R226). -/
def spoilRead (s : State) (pa n nl tp : Nat) (was : Bool) (flips : List Nat) : State × Deliv :=
  let e := s.sectors.getD .clean (pa / 64)
  let own := if e.nl = 8 then nl else e.nl
  let (free, s) := freshWord s
  let dec : Decode64 :=
    if e.mark then { data := 0, bad := 3, groups := [], corrected := false }
    else decodeSector free own (pa / 64) (sectorData s (pa / 64)) (toggleFlips e.flips (sectorFlips flips))
  (countDecode s pa was false own dec, deliverSector own tp (pa / 64) (if e.mark then 7 else srcOf pa was) dec (pa % 64) n)

/-- The windows of R216 as they were: an access that they do not count; nor is it one of R427's home accesses, which are taken as
R216 counts them (DEDUCED, log 96). -/
def uncounted (before after : State) : State := { after with contracts := before.contracts, islandUse := before.islandUse }

/-- R209: a line held at its home takes the layout of an access whole. A sector of it that is still coded under
another layout is decoded under its own, or, in a line that the access filled, under the access's, and coded anew; one
that nothing has coded yet takes it too. -/
def recodeSector (s : State) (pa nl : Nat) (was : Bool) : State :=
  let e := s.sectors.getD .clean (pa / 64)
  if e.nl = nl ∨ !(was || heldAt s (pa / 128)) ∨ unserved s pa then s
  else if e.nl = 8 then setSector s (pa / 64) { e with nl := nl }
  else
    let (s, dec, _) := openSector s pa nl was
    takeLayout s pa nl dec

/-- Both sectors of a line. -/
def recodeLine (s : State) (pa nl : Nat) (was : Bool) : State :=
  recodeSector (recodeSector s (pa / 128 * 128) nl was) (pa / 128 * 128 + 64) nl was

/-- Reads n bytes of one sector of a line that a request has reached. -/
def readPart (s : State) (pa n nl tp : Nat) (was : Bool) : State × Deliv :=
  if unserved s pa then (s, Deliv.good (List.replicate n 0))
  else
    let (s', dec, src) := openSector s pa nl was
    let d := deliverSector (openedNl s pa nl was) tp (pa / 64) src dec (pa % 64) n
    (if !was && heldAt s' (pa / 128) then takeLayout s' pa nl dec else s', d)

/-- Writes the bytes that a list of optional bytes gives, from a physical address on. -/
def setMasked (m : Memory) (pa : Nat) : List (Option Byte) → Memory
  | [] => m
  | some b :: bs => setMasked (m.setByte pa b) (pa + 1) bs
  | none :: bs => setMasked m (pa + 1) bs

/-- Data bit i of a sector is written. -/
def writtenBit (upd : List (Option Byte)) (i : Nat) : Bool := (upd.getD (i / 8) none).isSome

/-- A write to a line covers bit b, counted from the start of the line's 64 KiB unit as R240 counts the elements. -/
def lineWritten (line : Nat) (lo hi : List (Option Byte)) (b : Nat) : Bool :=
  let i := b - line % 512 * 1024
  line % 512 * 1024 ≤ b && if i < 512 then writtenBit lo i else i < 1024 && writtenBit hi (i - 512)

/-- Every bit of element el, of width w, is written, in whichever sector of the line it lies. -/
def elemWritten (covers : Nat → Bool) (w el : Nat) : Bool := (List.range w).all fun k => covers (el * w + k)

/-- Merges bytes into a sector that holds an error (R248). The list gives all 64 bytes, none where not written. The sector was
decoded under the layout onl, which places its elements (R209); covers says which bits of its line the write gives. An element of
R244, GRADE 2 by its infinite head, that the write does not cover leaves the sector marked. -/
def mergeSector (s : State) (sec nl onl tp : Nat) (upd : List (Option Byte)) (covers : Nat → Bool) (dec : Decode64) (marked : Bool) :
    State :=
  let base := { s with mem := setMasked (s.mem.writeNat (sec * 64) 64 dec.data) (sec * 64) upd }
  if marked ∨ dec.bad ≠ 0 then countMark (setSector base sec { nl := nl, flips := [], mark := true })
  else if dec.groups.isEmpty then setSector base sec { nl := nl, flips := [], mark := false }
  else
    match layoutOf onl with
    | none => setSector base sec { nl := nl, flips := [], mark := false }
    | some (w, t) =>
      let hit := (List.range 512).filter (gradeOneBit onl sec dec)
      let kept := (hit.map fun i => (bitPlace w t sec i).1).eraseDups.filter fun el => !elemWritten covers w el
      let two := hit.any fun i => infiniteHead onl dec.data i && kept.contains (bitPlace w t sec i).1
      if two then countMark (setSector base sec { nl := nl, flips := [], mark := true })
      else if kept.isEmpty ∨ tp = 2 then setSector base sec { nl := nl, flips := [], mark := false }
      else if tp = 1 then
        let cleared := (List.range 512).foldl (fun d i =>
          let (el, tail) := bitPlace w t sec i
          if tail && kept.contains el && bitOf d i && !writtenBit upd i then d - 2 ^ i else d) (sectorData base sec)
        setSector { base with mem := base.mem.writeNat (sec * 64) 64 cleared } sec { nl := nl, flips := [], mark := false }
      else countMark (setSector base sec { nl := nl, flips := [], mark := true })

/-- Writes bytes of one sector under a byte mask (R248), in a line that a request has reached. -/
def maskedPart (s : State) (sec : Nat) (upd : List (Option Byte)) (covers : Nat → Bool) (nl tp : Nat) (was : Bool) : State :=
  let pa := sec * 64
  let e := s.sectors.getD .clean sec
  if unserved s pa then s
  else if upd.all Option.isSome then
    setSector { s with mem := setMasked s.mem pa upd } sec { nl := nl, flips := [], mark := false }
  else if e.flips.isEmpty && !e.mark && (e.nl = 8 || e.nl = nl) then
    setSector { s with mem := setMasked s.mem pa upd } sec { e with nl := nl }
  else
    let onl := openedNl s pa nl was
    let (s, dec, _) := openSector s pa nl was
    mergeSector s sec nl onl tp upd covers dec e.mark

/-- Writes bytes of one line at home under a byte mask, the first sector's and then the second's: one request. A
sector of which nothing is written stays as it is. -/
def maskedLine (s : State) (core : Option Nat) (line : Nat) (lo hi : List (Option Byte)) (nl tp : Nat) : State :=
  let inLo := lo.any Option.isSome
  let inHi := hi.any Option.isSome
  let (s, flips) := travel s core (line * 128) true
  let (s, was) := requestLine s core (line * 128) (BitVec.ofNat 2 (b2n inLo + 2 * b2n inHi))
  let covers := lineWritten line lo hi
  let s := if inLo then maskedPart s (line * 2) lo covers nl tp was else s
  let s := if inHi then maskedPart s (line * 2 + 1) hi covers nl tp was else s
  spoilSector (recodeLine s (line * 128) nl was) (if inLo then line * 2 else line * 2 + 1) flips

/-- Writes bytes of one sector at home under a byte mask. -/
def maskedSector (s : State) (core : Option Nat) (sec : Nat) (upd : List (Option Byte)) (nl tp : Nat) : State :=
  let blank : List (Option Byte) := List.replicate 64 none
  if sec % 2 = 0 then maskedLine s core (sec / 2) upd blank nl tp else maskedLine s core (sec / 2) blank upd nl tp

/-- Consecutive bytes as the masked bytes of one sector. -/
def sectorMask (pa : Nat) (bytes : List Byte) : List (Option Byte) :=
  (List.range 64).map fun i => if pa % 64 ≤ i then bytes[i - pa % 64]? else none

/-- Writes consecutive bytes within one sector at home. -/
def writeSector (s : State) (core : Option Nat) (pa : Nat) (bytes : List Byte) (nl tp : Nat) : State :=
  maskedSector s core (pa / 64) (sectorMask pa bytes) nl tp

/-- Splits a byte range into the parts that lie in single 128-byte lines. -/
def lineParts (pa n : Nat) : List (Nat × Nat) :=
  let first := pa / 128
  let last := (pa + n - 1) / 128
  if n = 0 then []
  else (List.range (last - first + 1)).map fun i =>
    let lo := Nat.max pa ((first + i) * 128)
    (lo, Nat.min (pa + n) ((first + i + 1) * 128) - lo)

/-- Splits a byte range into the parts that lie in single 64-byte sectors. -/
def sectorParts (pa n : Nat) : List (Nat × Nat) :=
  let first := pa / 64
  let last := (pa + n - 1) / 64
  if n = 0 then []
  else (List.range (last - first + 1)).map fun i =>
    let lo := Nat.max pa ((first + i) * 64)
    (lo, Nat.min (pa + n) ((first + i + 1) * 64) - lo)

/-- Reads bytes of one line at home by one request, in class 0x0 to 0x3, 0x8 or 0xC. -/
def readLinePart (s : State) (core : Option Nat) (pa n nl tp : Nat) : State × Deliv :=
  let (s, flips) := travel s core pa false
  let (s, was) := requestLine s core pa 0
  let (s, d) := (sectorParts pa n).foldl (fun (s, d) (p, k) =>
    let (s, d') := readPart s p k nl tp was
    let (s, d') := if flips.isEmpty || p != pa then (s, d') else spoilRead s p k nl tp was flips
    (s, d.append d')) (s, Deliv.good [])
  (recodeLine s pa nl was, d)

/-- Reads n bytes of one sector at home. -/
def readSector (s : State) (core : Option Nat) (pa n nl tp : Nat) : State × Deliv := readLinePart s core pa n nl tp

/-- Reads a byte range at home, line by line. -/
def readHome (s : State) (core : Option Nat) (pa n nl tp : Nat) : State × Deliv :=
  (lineParts pa n).foldl (fun (s, d) (p, k) =>
    let (s, d') := readLinePart s core p k nl tp
    (s, d.append d')) (s, Deliv.good [])

/-- Writes bytes of one line at home by one request. -/
def writeLinePart (s : State) (core : Option Nat) (pa : Nat) (bytes : List Byte) (nl tp : Nat) : State :=
  let part (half : Nat) : List (Option Byte) :=
    (List.range 64).map fun i =>
      let a := pa / 128 * 128 + 64 * half + i
      if pa ≤ a then bytes[a - pa]? else none
  maskedLine s core (pa / 128) (part 0) (part 1) nl tp

/-- Writes a byte range at home, line by line. -/
def writeHome (s : State) (core : Option Nat) (pa : Nat) (bytes : List Byte) (nl tp : Nat) : State :=
  (lineParts pa bytes.length).foldl (fun s (p, k) =>
    writeLinePart s core p ((bytes.drop (p - pa)).take k) nl tp) s

/-- The boot has failed (R449): only the management controller's recovery interface runs, which answers none of the controller's
other requests (log 110). -/
def State.recovery (s : State) : Bool := s.house.bootst == 2

/-- A write that leaves for host memory enters the egress queue (R234). -/
def writeHostMem (s : State) (pa : Nat) (bytes : List Byte) : State :=
  { s with egress := s.egress ++ [{ pa := pa, data := bytes }] }

/-- The oldest write of the egress queue is performed in host memory. -/
def egressOne (s : State) : State :=
  match s.egress with
  | [] => s
  | e :: rest => { s with mem := s.mem.setBytes e.pa e.data, egress := rest }

/-- Every write of the egress queue is performed: a read of host memory, the zero-length read of a system release among them,
goes behind them (R234). -/
def drainEgress (s : State) : State := s.egress.foldl (fun s _ => egressOne s) s

/-- A device write of a record or a flag at a physical address, under the layout the line has (rings,
completion words, bitmaps). DEDUCED: the manual gives these writes no layout of their own, log 19. -/
def deviceWrite (s : State) (pa : Nat) (bytes : List Byte) : State :=
  (sectorParts pa bytes.length).foldl (fun s (p, k) =>
    let e := s.sectors.getD .clean (p / 64)
    let nl := if e.nl = 8 then 0 else e.nl
    let b := (bytes.drop (p - pa)).take k
    if classOf p < 4 ∨ classOf p = 8 then writeSector s none p b nl 2
    else if classOf p = 15 then writeHostMem s p b
    else { s with mem := s.mem.setBytes p b }) s

/-- The address of a place of a dispatch queue's ring, in the reserve at the top of the die's unlocked pinned offsets (R206). -/
def DQueue.place (s : State) (d : DQueue) (n : Nat) : Nat :=
  8 * 2 ^ 48 + d.die * 2 ^ 46 + (unlockedEnd s d.die - (splitOf s d.die).dq * 65536) + d.unit * 65536 + 16 * (n % 4096)

/-- A peer package whose traffic does not return (R355). -/
def peerDown (s : State) (pa : Nat) : Bool := classOf pa = 12 && s.peersDown.contains (bitsOf pa 47 40)

/-- A peer package that admits no request of this address space (R237). -/
def peerRefused (s : State) (pa asid : Nat) : Bool := classOf pa = 12 && s.peersRefusing.contains (bitsOf pa 47 40, asid)

/-- The GRADE register's value for an outcome (R249). -/
def gradeWord (src nl g : Nat) : Word32 := BitVec.ofNat 32 (2 ^ 31 + src * 2 ^ 28 + nl * 2 ^ 24 + g)

/-- A device read of one sector's part: it goes by no layout of its own, and what is past correction there is graded 3
(R243). -/
def deviceSector (s : State) (pa n : Nat) (was : Bool) : State × Deliv :=
  if unserved s pa then (s, Deliv.good (List.replicate n 0))
  else
    let e := s.sectors.getD .clean (pa / 64)
    let own := if e.nl = 8 then 0 else e.nl
    let (s, dec, src) := openSector s pa own was true
    let d := deliverSector own 0 (pa / 64) src dec (pa % 64) n
    (s, if d.isPoison then { d with grade := 3, nl := 0 } else { d with grade := 0 })

/-- The same with flips that no link has seen (R226). -/
def spoilDevice (s : State) (pa : Nat) (flips : List Nat) (d : Deliv) : State × Deliv :=
  if flips.isEmpty then (s, d)
  else
    let (s, d) := spoilRead s pa d.data.length 0 0 true flips
    (s, if d.isPoison then { d with grade := 3, nl := 0 } else { d with grade := 0 })

/-- A delivery of bytes whose check bits do not cross links, with flips that no link has seen (R226, log 109). -/
def Deliv.spoilt (d : Deliv) (flips : List Nat) : Deliv :=
  if flips.isEmpty then d else { d with poison := d.poison.map fun _ => true, grade := 3, src := 3, nl := 0 }

/-- A device read at a physical address. -/
def deviceDeliv (s : State) (pa n : Nat) : State × Deliv :=
  if classOf pa < 4 ∨ classOf pa = 8 then
    (sectorParts pa n).foldl (fun (s, d) (p, k) =>
      let (s, was) := requestLine s none p 0
      let (s, d') := deviceSector s p k was
      (s, d.append d')) (s, Deliv.good [])
  else
    let s := if classOf pa = 15 then drainEgress s else s
    (s, Deliv.good (s.mem.bytes pa n))

/-- The number it delivers, none when past correction (R243). -/
def deviceRead (s : State) (pa n : Nat) : State × Option Nat :=
  let (s, d) := deviceDeliv s pa n
  (s, if d.isPoison then none else some (leNat d.data))

/-- Item n of those that a dispatch queue holds, as its place reads; what is past correction there is no value that the spec states
(log 92). -/
def queueItem (s : State) (d : DQueue) (n : Nat) : State × List Byte :=
  let (s, r) := deviceDeliv s (d.place s (d.head + n)) 16
  if r.isPoison then
    let (lo, s) := freshWord s
    let (hi, s) := freshWord s
    (s, leBytes 8 lo.toNat ++ leBytes 8 hi.toNat)
  else (s, r.data)

/-- The first n items of a dispatch queue. -/
def queueItems (s : State) (d : DQueue) (n : Nat) : State × List (List Byte) :=
  (List.range n).foldl (fun (r : State × List (List Byte)) k =>
    let (s, b) := queueItem r.1 d k
    (s, r.2 ++ [b])) (s, [])

/-- A queue with one more item: where it stands, and the queue. -/
def DQueue.push (d : DQueue) : DQueue := { d with count := d.count + 1 }
def DQueue.drop (d : DQueue) (n : Nat) : DQueue := { d with head := (d.head + n) % 4096, count := d.count - n }

/-! ## On-chip rows (R250 to R252) -/

/-- Row numbers of the arrays without addresses: 1 register file, 2 accumulator words, 3 scale memory, 4 macros, 5 receive
queues, 6 tag arrays of the key-value reserve. A row of scratchpad goes by its address over 64. -/
def chipRow (array i : Nat) : Nat := 2 ^ 60 + array * 2 ^ 56 + i

/-- The array in which a row lies: eight to a core, and one to a die for the tags of the key-value reserve. -/
def arrayOfRow (row : Nat) : Nat :=
  if row < 2 ^ 60 then row / 2 ^ 18 % 256 * 8
  else
    let kind := (row - 2 ^ 60) / 2 ^ 56
    let i := (row - 2 ^ 60) % 2 ^ 56
    match kind with
    | 1 => (if i < 2 ^ 40 then i / 65536 else if i < 2 ^ 41 then (i - 2 ^ 40) / 2048 else (i - 2 ^ 41) / 64) * 8 + 1
    | 2 => i / 8192 * 8 + 2
    | 3 => i / 512 * 8 + 3
    | 4 => i / 1024 * 8 + 4
    | 5 => i / 16 * 8 + 5
    | _ => 2048 + i / 2 ^ 32

/-- The die of an array. -/
def arrayDie (array : Nat) : Nat := if array < 2048 then array / 512 else (array - 2048) % 4

/-- A bank's record. -/
def bankOf (s : State) (k : Nat) : Bank := s.banks.getD { errors := [], failed := false, spared := false } k
def setBank (s : State) (k : Nat) (b : Bank) : State :=
  { s with banks := s.banks.putD { errors := [], failed := false, spared := false } k b }

/-- The flipped bits of a row's nine bank words. -/
def rowFlips (s : State) (row : Nat) : List Nat := s.rowErrors.getD [] row

/-- How many bits of a bank's word in a row are flipped: its code corrects one and detects two (R250). More than two are
taken as two are (DESIGN CHOICE, log 29). -/
def bankFlips (s : State) (row b : Nat) : Nat := ((rowFlips s row).filter fun f => f / 72 == b).length

/-- The bank's word in a row is rebuilt from the others: it is past correction, or the bank is declared failed (R250, R251). -/
def bankDown (s : State) (row b : Nat) : Bool := 2 ≤ bankFlips s row b || (bankOf s (arrayOfRow row * 9 + b)).failed

/-- No on-chip row holds an error and no bank has failed. -/
def chipsClean (s : State) : Bool := s.rowErrors.isEmpty && s.banks.all fun (_, b) => !b.failed

/-- A row with two or more uncorrectable banks: GRADE 3. -/
def rowBad (s : State) (row : Nat) : Bool :=
  !chipsClean s && decide (2 ≤ ((List.range 9).filter (bankDown s row)).length)

/-- R251's 2^20 cycles, in ns at 1.0 GHz (R8). -/
def bankWindow : Nat := 2 ^ 20

/-- A bank is declared failed: it is counted and told to the host, and is served by rebuilding from now on (R251, R252). -/
def declareBank (s : State) (k : Nat) : State :=
  notifyHost { setBank s k { bankOf s k with failed := true } with bfail := Nat.min (s.bfail + 1) (2 ^ 32 - 1) }

/-- Errors that a bank has recorded within the last 2^20 cycles. -/
def bankErrors (s : State) (k : Nat) : Nat := ((bankOf s k).errors.filter fun t => decide (s.now ≤ t + bankWindow)).length

/-- A bank records an error: the sixteenth of the window declares it failed (R251). -/
def recordBank (s : State) (k : Nat) : State :=
  let b := bankOf s k
  let s := setBank s k { b with errors := s.now :: b.errors.filter fun t => s.now ≤ t + bankWindow }
  if !b.failed && decide (16 ≤ bankErrors s k) then declareBank s k else s

/-- A read meets the errors of a row: each bank in error records it, and the event counts (R251, R252). -/
def noteRow (s : State) (row : Nat) : State :=
  if chipsClean s then s
  else
    let hit := (List.range 9).filter fun b => 0 < bankFlips s row b
    let s' := hit.foldl (fun s b => recordBank s (arrayOfRow row * 9 + b)) s
    if rowBad s row then countGrade s' (arrayDie (arrayOfRow row)) 2 0 3
    else if hit.isEmpty then s
    else countGrade s' (arrayDie (arrayOfRow row)) 2 0 0

/-- Words of a row that some of its banks write anew hold no error. -/
def cleanBanks (s : State) (row : Nat) (p : Nat → Bool) : State :=
  if s.rowErrors.isEmpty then s
  else { s with rowErrors := s.rowErrors.putD [] row ((rowFlips s row).filter fun f => !p (f / 72)) }

/-- Rows that are written whole hold no error. -/
def cleanRows (s : State) (p : Nat → Bool) : State :=
  if s.rowErrors.isEmpty then s else { s with rowErrors := List.filter (fun x => !p x.1) s.rowErrors }

end Sys2Proof.Machine
end

