-- ==== Sys2Proof/Machine/Translate.lean ====
section
/-! DEFINITION. Address spaces: contexts, page-table entries, the walk, TLBs, permissions and page states
(R185 to R196), dirty tracking (R202, R203) and frame pools (R199). -/

namespace Sys2Proof.Machine

/-! ## Contexts -/

/-- The registers of a context slot. -/
def ctxOf (s : State) (slot : Nat) : Ctx := s.ctxs.getD .reset slot

/-- Changes a context slot's registers. -/
def setCtx (s : State) (slot : Nat) (c : Ctx) : State := { s with ctxs := s.ctxs.putD .reset slot c }

/-- Changes one context slot. -/
def updCtx (s : State) (slot : Nat) (f : Ctx → Ctx) : State := setCtx s slot (f (ctxOf s slot))

/-- The valid context slots that hold an ASID (R190). -/
def slotsOfAsid (s : State) (asid : Nat) : List Nat :=
  ((List.range 64).filter fun k => (ctxOf s k).valid && (ctxOf s k).asid == asid)

/-- The slot of an ASID, when exactly one is valid. -/
def slotOfAsid (s : State) (asid : Nat) : Option Nat :=
  match slotsOfAsid s asid with
  | [k] => some k
  | _ => none

/-! ## Islands (R426) -/

/-- The island on which a logical core runs: four physical cores. -/
def islandAt (s : State) (core : Nat) : Nat := (core / 64 * 64 + remapEntry s.remap core % 64) / 4

/-- The core's island is not stopped (R435). -/
def coreRuns (s : State) (core : Nat) : Bool := (s.islands.getD .reset (islandAt s core)).point != 0

/-! ## Entries (R186 to R188) -/

/-- Bytes of a page (R185). -/
def PageSize.bytes : PageSize → Nat
  | .p64K => 2 ^ 16
  | .p32M => 2 ^ 25
  | .p16G => 2 ^ 34

/-- Fields of a leaf entry (R186). -/
def leafFrame (e : Nat) : Nat := e % 2 ^ 52 / 2 ^ 16 * 2 ^ 16
def leafNl (e : Nat) : Nat := bitsOf e 13 10
def leafTp (e : Nat) : Nat := bitsOf e 15 14
def leafPst (e : Nat) : Nat := bitsOf e 9 8

/-- A remap entry is VALID (R64). -/
def coreValid (s : State) (core : Nat) : Bool := bitOf (remapEntry s.remap core) 7

/-- The 64 KiB frames held in quarantine by a scrub (R403, R416). -/
def quarantined (s : State) (pa size : Nat) : Bool :=
  s.scrubReg.quar && s.scrubReg.entries.any fun e =>
    let f := leafFrame e.toNat
    bitsOf e.toNat 1 0 == 0 && pa ≤ f && f < pa + size

/-- The frame checks of R188 and R236 on a present page. -/
def frameBad (s : State) (e : Nat) (size : PageSize) : Bool :=
  let pa := leafFrame e
  let off := offOf pa
  let die := off / 2 ^ 46
  let o := off % 2 ^ 46
  (match classOf pa with
   | 0 | 1 | 2 | 3 => hbmBytes s (classOf pa) < off + size.bytes
   | 8 => (unlockedEnd s die < o + size.bytes && o < pinEnd s die) || kvEnd s die < o + size.bytes
   | 9 => off / 2 ^ 32 ≠ 0 || !coreValid s (off / 2 ^ 24 % 256) || 2 ^ 19 < off % 2 ^ 24 + size.bytes
   | 10 | 14 => !bitOf e 5
   | 12 => bitsOf pa 47 40 ≥ 128 || bitsOf pa 47 40 == s.net.domid || (bitOf pa 37 && bitsOf pa 36 0 ≥ 2 ^ 30)
   | 15 => false
   | _ => true) || quarantined s pa size.bytes

/-- A malformed leaf (R188). -/
def leafBad (s : State) (e : Nat) (size : PageSize) : Bool :=
  bitsOf e 63 59 ≠ 0 || leafNl e ≥ 8 || leafPst e == 3 ||
    (leafPst e == 0 &&
      (leafFrame e % size.bytes ≠ 0 || frameBad s e size || (bitOf e 58 && s.zeroised.contains (bitsOf e 57 52))))

/-- A malformed non-leaf entry (R187, R188). -/
def nodeBad (s : State) (e : Nat) : Bool :=
  let pa := bitsOf e 51 12 * 4096
  bitsOf e 63 52 ≠ 0 || bitsOf e 11 2 ≠ 0 || classOf pa ≥ 4 || hbmBytes s (classOf pa) ≤ offOf pa

/-- How a walk ends. -/
inductive Walk where
  /-- the leaf found: its address, its value and its page size -/
  | leaf (at_ : Nat) (e : Nat) (size : PageSize)
  | invalid
  | malformed
  /-- an entry past correction (R243), with the GRADE register's value -/
  | lost (gw : Word32)
  deriving DecidableEq, Repr

/-- The levels of R185: index shift and the size of a leaf there. -/
def walkLevels : List (Nat × Option PageSize) :=
  [(43, none), (34, some .p16G), (25, some .p32M), (16, some .p64K)]

/-- A walker's read of an entry at its home slice: from a core's die by the network (R191, R221). -/
def entryRead (s : State) (die : Option Nat) (pa : Nat) : State × Deliv :=
  match die with
  | none => deviceDeliv s pa 8
  | some k =>
    let (s, flips) := travelFrom s k (k * 64) none pa false
    let (s, d) := deviceDeliv s pa 8
    spoilDevice s pa flips d

/-- The walk over the levels left, from the table at base (R185 to R188), by a walker of a die. -/
def walkFrom (s : State) (die : Option Nat) (va : Nat) : List (Nat × Option PageSize) → Nat → State × Walk
  | [], _ => (s, .malformed)
  | (sh, size) :: rest, base =>
    let pa := base + va / 2 ^ sh % 512 * 8
    let (s, d) := entryRead s die pa
    let e := leNat d.data
    if d.isPoison then (s, .lost (gradeWord d.src d.nl 3))
    else if !bitOf e 0 then (s, .invalid)
    else if bitOf e 1 then
      match size with
      | some z => if leafBad s e z then (s, .malformed) else (s, .leaf pa e z)
      | none => (s, .malformed)
    else if rest.isEmpty || nodeBad s e then (s, .malformed)
    else walkFrom s die va rest (bitsOf e 51 12 * 4096)

/-- The walk of a context's tables by a walker of a die. A root outside populated HBM is malformed as a table pointer (R188). -/
def walkBy (s : State) (die : Option Nat) (slot va : Nat) : State × Walk :=
  let root := (ctxOf s slot).root * 4096
  if classOf root ≥ 4 || hbmBytes s (classOf root) ≤ offOf root then (s, .malformed)
  else walkFrom s die va walkLevels root

/-- The walk for a unit of the device, which the spec places at no die (log 16). -/
def walk (s : State) (slot va : Nat) : State × Walk := walkBy s none slot va

/-! ## Permissions and states (R189, R194) -/

/-- What an access asks of a page. -/
inductive Acc where
  | rd | wr | rw | fetch
  deriving DecidableEq, Repr

/-- The outcome of translating one address. -/
inductive Xl where
  /-- a present page: physical address and leaf -/
  | ok (pa : Nat) (e : Nat)
  /-- a discarded page, read as zeros -/
  | zeros
  | fault (name : FaultName) (cause : Nat)
  /-- GRADE: a table entry past correction, with the GRADE register's value -/
  | lost (gw : Word32)
  deriving DecidableEq, Repr

def Acc.needs (k : Acc) (e : Nat) : Bool :=
  match k with
  | .rd => bitOf e 2
  | .wr => bitOf e 3
  | .rw => bitOf e 2 && bitOf e 3
  | .fetch => bitOf e 4

def Acc.writes : Acc → Bool
  | .wr | .rw => true
  | _ => false

/-- R189 and R194 on a leaf: PROT ranks before PAGE (R197). -/
def checkLeaf (k : Acc) (user : Bool) (va e : Nat) (size : PageSize) : Xl :=
  if user && bitOf e 5 then .fault .prot 1
  else if !k.needs e then .fault .prot 0
  else if leafPst e = 2 then .fault .page 1
  else if leafPst e = 1 then (if k.writes then .fault .page 2 else .zeros)
  else .ok (leafFrame e + va % size.bytes) e

/-! ## TLBs (R191, R192) -/

/-- The quadrant's L2 TLB of a core. -/
def l2Home (core : Nat) : Nat := 256 + core / 16

/-- An entry matches an access (R191). -/
def TlbEntry.hits (t : TlbEntry) (home asid : Nat) (gen : BitVec 16) (va : Nat) : Bool :=
  t.home == home && t.asid == asid && t.gen == gen && t.vpage == va / t.size.bytes

/-- The matching entry of the smallest page. -/
def tlbFind (s : State) (home asid : Nat) (gen : BitVec 16) (va : Nat) : Option TlbEntry :=
  let m := s.tlb.filter fun t => t.hits home asid gen va
  (m.find? (·.size == .p64K)).orElse fun _ => (m.find? (·.size == .p32M)).orElse fun _ => m.head?

/-- Drops the entries of an ASID that hold an address (R192, R408). -/
def tlbDrop (s : State) (asid va : Nat) : State :=
  { s with tlb := s.tlb.filter fun t => !(t.asid == asid && t.vpage == va / t.size.bytes) }

/-- Keeps at most n entries of one TLB, the oldest first to go (log 17). -/
def tlbTrim (l : List TlbEntry) (home n : Nat) : List TlbEntry :=
  if (l.filter (·.home == home)).length ≤ n then l
  else match l.findIdx? (·.home == home) with
    | some i => l.eraseIdx i
    | none => l

/-- Fills both TLBs of a core (R191). -/
def tlbFill (s : State) (core : Nat) (t : TlbEntry) : State :=
  let add (l : List TlbEntry) (home n : Nat) : List TlbEntry :=
    let u := { t with home := home }
    tlbTrim ((l.filter fun x => !(x.home == home && x.asid == t.asid && x.gen == t.gen && x.size == t.size &&
      x.vpage == t.vpage)) ++ [u]) home n
  { s with tlb := add (add s.tlb core 64) (l2Home core) 2048 }

/-- What another agent writes to an entry before the swap of a unit that has read it. -/
def raceEntry (s : State) (at_ : Nat) : State :=
  match s.races.find? (·.1 == at_) with
  | some r => deviceWrite { s with races := s.races.erase r } at_ (leBytes 8 r.2)
  | none => s

/-- A compare-and-swap of a table entry at device scope: whether the entry was still what the unit had read. -/
def swapEntry (s : State) (at_ old new : Nat) : State × Bool :=
  let s := raceEntry s at_
  if leNat (s.mem.bytes at_ 8) = old then (deviceWrite s at_ (leBytes 8 new), true) else (s, false)

/-- Sets A, and D for a write, in the leaf in memory (R191): none when the entry has changed meanwhile. -/
def setAD (s : State) (at_ e : Nat) (write : Bool) : State × Option Nat :=
  let e1 := if bitOf e 6 then e else e + 2 ^ 6
  let e2 := if write && leafPst e == 0 && !bitOf e1 7 then e1 + 2 ^ 7 else e1
  if e2 = e then (s, some e)
  else
    let (s, ok) := swapEntry s at_ e e2
    (s, if ok then some e2 else none)

/-- One walk, which fills the TLBs (R191): none when the walker has to walk again. -/
def xlateTry (s : State) (core slot asid va : Nat) (k : Acc) (user : Bool) : State × Option Xl :=
  match walkBy s (some (coreDie core)) slot va with
  | (s, .invalid) => (s, some (.fault .page 0))
  | (s, .malformed) => (s, some (.fault .prot 2))
  | (s, .lost gw) => (s, some (.lost gw))
  | (s, .leaf at_ e size) =>
    match checkLeaf k user va e size with
    | .fault n c => (s, some (.fault n c))
    | r =>
      match setAD s at_ e k.writes with
      | (s, none) => (s, none)
      | (s, some e) =>
        let s := tlbFill s core
          { home := core, asid := asid, gen := (ctxOf s slot).gen, size := size, vpage := va / size.bytes,
            leaf := BitVec.ofNat 64 e }
        (s, some (match r with | .ok pa _ => .ok pa e | r => r))

/-- Walks until no swap fails: each that fails has met a race, so that the races left bound the walks. -/
def xlateLoop (once : State → State × Option Xl) : Nat → State → State × Xl
  | 0, s => (s, .fault .page 0)
  | n + 1, s =>
    match once s with
    | (s, some r) => (s, r)
    | (s, none) => xlateLoop once n s

/-- Walks afresh and fills the TLBs (R191, R192). -/
def xlateWalk (s : State) (core slot asid va : Nat) (k : Acc) (user : Bool) : State × Xl :=
  xlateLoop (fun s => xlateTry s core slot asid va k user) (s.races.length + 1) s

/-- Some TLB entry would serve an access. -/
def tlbHit (s : State) (core asid va : Nat) : Bool :=
  match slotOfAsid s asid with
  | none => false
  | some slot =>
    (tlbFind s core asid (ctxOf s slot).gen va).isSome || (tlbFind s (l2Home core) asid (ctxOf s slot).gen va).isSome

/-- Discards the entries that match an access, and walks again (R192). -/
def rewalk (s : State) (core asid va : Nat) (k : Acc) (user : Bool) : State × Xl :=
  match slotOfAsid s asid with
  | none => (s, .fault .prot 2)
  | some slot => xlateWalk (tlbDrop s asid va) core slot asid va k user

/-- Translates one virtual address for a core (R190 to R195). -/
def xlate (s : State) (core asid va : Nat) (k : Acc) (user : Bool) : State × Xl :=
  match slotOfAsid s asid with
  | none => (s, .fault .prot 2)
  | some slot =>
    let gen := (ctxOf s slot).gen
    let hit := (tlbFind s core asid gen va).orElse fun _ => tlbFind s (l2Home core) asid gen va
    match hit with
    | none => xlateWalk s core slot asid va k user
    | some t =>
      let e := t.leaf.toNat
      match checkLeaf k user va e t.size with
      | .fault _ _ => xlateWalk (tlbDrop s asid va) core slot asid va k user
      | r =>
        if k.writes && leafPst e == 0 && !bitOf e 7 then xlateWalk (tlbDrop s asid va) core slot asid va k user
        else (s, r)

/-- The frame a virtual 64 KiB unit reaches now, without touching the tables or TLBs: what a contract's
translation finds (R33). -/
def frameOfVa (s : State) (slot va : Nat) : Option Nat :=
  match (walk s slot va).2 with
  | .leaf _ e size => if leafPst e = 0 then some ((leafFrame e + va % size.bytes) / 65536) else none
  | _ => none

/-- The frames of a contract's range, by unit. -/
def contractFrames (s : State) (asid base len : Nat) : Tbl Nat :=
  match slotOfAsid s asid with
  | none => []
  | some slot => (List.range len).filterMap fun i => (frameOfVa s slot (base + i * 65536)).map fun f => (i, f)

/-- Translates the contracts of an address space again, in the 64 KiB units, by virtual address, whose change of mapping has
taken effect (R33). -/
def retranslate (s : State) (asid : Nat) (changed : Nat → Bool) : State :=
  { s with contracts := s.contracts.map fun c =>
      if c.asid = asid then
        let now := contractFrames s asid c.base c.len
        let pick (i : Nat) : Option (Nat × Nat) :=
          (if changed (c.base + i * 65536) then now.find? i else c.frames.find? i).map fun f => (i, f)
        { c with frames := (List.range c.len).filterMap pick }
      else c }

/-- The units of the pages, by the TLBs' entries and by the tables, that hold a byte of a range of an address space. -/
def changedUnits (s : State) (slot asid va n : Nat) : Nat → Bool :=
  let old := s.tlb.filter fun t => t.asid == asid && t.vpage * t.size.bytes < va + n && va < (t.vpage + 1) * t.size.bytes
  let size := match (walk s slot va).2 with | .leaf _ _ z => z.bytes | _ => 65536
  fun u => (va / size * size ≤ u && decide (u < va + n)) || u / size == va / size ||
    old.any fun t => t.vpage == u / t.size.bytes

/-! ## Dirty tracking (R202, R203) -/

/-- The bitmap index of a physical frame, for the classes that are tracked. -/
def dirtyIndex (pa : Nat) : Option Nat :=
  if classOf pa < 4 then some (classOf pa * 2 ^ 21 + offOf pa / 2 ^ 16)
  else if classOf pa = 8 then some (2 ^ 23 + offOf pa / 2 ^ 46 * 2 ^ 14 + offOf pa % 2 ^ 46 / 2 ^ 16)
  else none

/-- The atomic OR that sets a frame's bit in a context's bitmap (R203). -/
def setMark (s : State) (slot n : Nat) : State :=
  let a := (ctxOf s slot).dbmap * 4096 + n / 8
  deviceWrite s a [s.mem.byte a ||| BitVec.ofNat 8 (2 ^ (n % 8))]

/-- Marks the frame of a write that a unit of the device makes: no core's known marks answer for it (R203). -/
def markByUnit (s : State) (slot pa : Nat) : State :=
  match dirtyIndex pa with
  | some n => if (ctxOf s slot).dten then setMark s slot n else s
  | none => s

/-- Marks the frames of a write in the context's bitmap, unless the mark is known (R203). -/
def markDirty (s : State) (core slot pa : Nat) : State :=
  let c := ctxOf s slot
  match dirtyIndex pa with
  | none => s
  | some n =>
    if !c.dten || c.known.contains (core, n) then s
    else
      updCtx (setMark s slot n) slot fun c =>
        let mine := c.known.filter (·.1 == core)
        let keep := if mine.length ≥ 256 then c.known.erase (mine.headD (core, n)) else c.known
        { c with known := keep ++ [(core, n)] }

/-! ## Frame pools (R199) -/

/-- A die's frame pool. -/
def poolOf (s : State) (die : Nat) : Pool := s.pools.getD .reset die

def setPool (s : State) (die : Nat) (p : Pool) : State := { s with pools := s.pools.putD .reset die p }

/-- The pool is empty (R199); frames kept by MAPFT are given out first (R413). -/
def poolEmpty (s : State) (die : Nat) : Bool := (poolOf s die).head == (poolOf s die).tail && (poolOf s die).kept.isEmpty

/-- Takes a frame, discarding invalid entries; fuel is the number of entries waiting. -/
def takeFrameFuel (s : State) (die : Nat) : Nat → State × Option Nat
  | 0 => (s, none)
  | n + 1 =>
    let p := poolOf s die
    if p.head == p.tail then (s, none)
    else
      let (s, r) := deviceRead s (p.base * 4096 + 8 * (p.head.toNat % 2 ^ (p.log + 8))) 8
      let s := setPool s die { p with head := p.head + 1 }
      match r with
      | some e =>
        let f := leafFrame e
        if e = f ∧ classOf f = die ∧ offOf f + 65536 ≤ hbmBytes s die then (s, some f)
        else takeFrameFuel (setPool s die { poolOf s die with bad := Nat.min (p.bad + 1) (2 ^ 32 - 1) }) die n
      | none => takeFrameFuel (setPool s die { poolOf s die with bad := Nat.min (p.bad + 1) (2 ^ 32 - 1) }) die n

/-- Takes a frame from a die's pool (R199, R413). -/
def takeFrame (s : State) (die : Nat) : State × Option Nat :=
  let p := poolOf s die
  match p.kept with
  | f :: rest => (setPool s die { p with kept := rest }, some f)
  | [] => takeFrameFuel s die (p.tail - p.head).toNat

end Sys2Proof.Machine
end

