-- ==== Sys2Proof/Machine/DevRead.lean ====
section
/-! DEFINITION. Reads of the device-register space (PA class 0xE, R455): every register of the manual, by its
8-byte offset. No read has a side effect. -/

namespace Sys2Proof.Machine

/-- A register's value as the sum of its fields, each placed at its low bit. -/
def packFields (fs : List (Nat × Nat)) : Nat := fs.foldl (fun n f => n + f.1 * 2 ^ f.2) 0

/-- The launch-queue registers of queue q (R53). -/
def queueReg (s : State) (q off : Nat) : Nat :=
  let r := s.queues.getD .reset q
  match off with
  | 0x00 => r.base.toNat
  | 0x08 => packFields [(r.asid, 48), (r.prio, 42), (r.log2n, 38), (b2n r.enable, 37), (b2n r.devlaunch, 36)]
  | 0x10 => r.tail.toNat
  | 0x18 => r.head.toNat
  | 0x20 => packFields [(r.err, 56), (r.nerr, 0)]
  | 0x28 => b2n r.term
  | _ => 0

/-- Eight entries of the remap table (R64). -/
def remapReg (s : State) (first : Nat) : Nat :=
  packFields ((List.range 8).map fun i => (remapEntry s.remap (first + i), 8 * i))

/-- The translation registers of a context slot (R190). FRESUME is write-only and reads zero. -/
def xlateReg (s : State) (slot off : Nat) : Nat :=
  let c := ctxOf s slot
  match off with
  | 0x00 => c.root * 4096
  | 0x08 => packFields [(c.asid, 48), (c.gen.toNat, 32), (b2n c.valid, 0)]
  | 0x10 => packFields [(c.dbmap, 12), (b2n c.dten, 0)]
  | 0x18 => b2n c.depoch
  | 0x20 => packFields [(c.fring, 12), (c.frlog, 0)]
  | 0x28 => c.frhead.toNat
  | 0x38 => c.frtail.toNat
  | _ => 0

/-- The frame-pool registers of a die (R199). -/
def poolReg (s : State) (die off : Nat) : Nat :=
  let p := poolOf s die
  match off with
  | 0x00 => packFields [(p.base, 12), (p.log, 0)]
  | 0x08 => p.head.toNat
  | 0x10 => p.tail.toNat
  | 0x18 => p.bad
  | _ => 0

/-- The store split registers of a die (R206). -/
def splitReg (s : State) (die off : Nat) : Nat :=
  let p := splitOf s die
  match off with
  | 0x00 => packFields [(p.owner, 48), (p.ncache, 44), (p.npin, 40), (p.nkv, 36), (p.nlock, 32), (p.nesz, 29),
      (p.ndq, 21), (b2n p.apply, 0)]
  | 0x08 => packFields [(p.errc, 48), (p.cache % 16, 44), (p.pin, 40), (p.kv, 36), (p.lock, 32), (p.esz, 29),
      (p.dq, 21), (b2n (p.cache == 16), 0)]
  | _ => 0

/-- The contract-report ring registers of a slot (R217). -/
def reportReg (s : State) (slot off : Nat) : Nat :=
  let c := ctxOf s slot
  match off with
  | 0x00 => packFields [(c.crbase, 12), (c.crlog, 0)]
  | 0x08 => packFields [(c.crlost, 32), (c.crhead.toNat, 0)]
  | 0x10 => c.crtail.toNat
  | _ => 0

/-- The network control registers (R223). -/
def netReg (s : State) (off : Nat) : Nat :=
  match off with
  | 0x00 => packFields [(s.net.adpth, 25), (s.net.bomax, 12), (s.net.bomin, 0)]
  | 0x08 => s.net.domid
  | 0x10 => packFields [(s.net.hwnl, 16), (s.net.hwbase, 0)]
  | _ => 0

/-- A port's error log (R231). -/
def logReg (s : State) (port off : Nat) : Nat :=
  let l := s.logs.getD .reset port
  match off with
  | 0x00 => packFields [(l.hdrop, 32), (l.hfix, 0)]
  | 0x08 => packFields [(l.crcx, 32), (l.nacks, 0)]
  | _ => 0

/-- A link error injector (R238). -/
def injectorReg (s : State) (i off : Nat) : Nat :=
  let j := s.injectors.getD .reset i
  match off with
  | 0x00 => packFields [(j.nth, 32), (j.delay, 16), (j.lane, 10), (b2n j.precrc, 3), (j.mode, 1), (b2n j.arm, 0)]
  | 0x08 => j.mask
  | 0x10 => j.count
  | 0x18 => b2n j.fired
  | _ => 0

/-- The grade counters (R252). -/
def gradeReg (s : State) (off : Nat) : Nat :=
  if off < 0xC00 then s.gcnt.getD 0 (off / 8)
  else if off < 0xE00 then (ctxOf s ((off - 0xC00) / 8)).tailn
  else if off = 0xE00 then packFields [(s.bfail, 32), (s.bspare, 0)]
  else if off = 0xE08 then s.marks
  else 0

/-- The trap and notification registers of a slot (R390). -/
def trapReg (s : State) (slot off : Nat) : Nat :=
  let c := ctxOf s slot
  match off with
  | 0x00 => c.handler.toNat + b2n c.hvalid
  | 0x08 => packFields [(c.state, 2), (b2n c.res, 1), (b2n c.pre, 0)]
  | 0x10 => packFields [(c.nrbase, 12), (c.nrlog, 0)]
  | 0x18 => packFields [(c.nrlost, 32), (c.nrhead.toNat, 0)]
  | 0x20 => c.nrtail.toNat
  | 0x28 => c.wva
  | 0x30 => packFields [(b2n c.wen, 9), (c.wkind, 6), (c.wlog, 0)]
  | 0x38 => packFields [(c.impbase, 12), (c.impq, 4), (c.imperr, 1), (b2n c.impgo, 0)]
  | _ => 0

/-- The scrub registers (R416). -/
def scrubRegs (s : State) (off : Nat) : Nat :=
  let r := s.scrubReg
  match off with
  | 0x00 => r.slist * 4096
  | 0x08 => packFields [(r.scount, 32), (r.mgslot, 0)]
  | 0x10 => packFields [(r.sdone, 32), (b2n r.quar, 1), (b2n r.sbusy, 0)]
  | _ => 0

/-- An island's state: unlisted islands stand as reset leaves them (R430). -/
def islandOf (s : State) (i : Nat) : Island := s.islands.getD .reset i

/-- The power registers (R430). -/
def powerReg (s : State) (off : Nat) : Nat :=
  let p := s.power
  if off = 0 then packFields [(p.capseq.toNat, 32), (p.pcap, 16), (p.acap, 0)]
  else if off = 8 then packFields [(p.plast, 16), (p.pavg, 0)]
  else if off = 0x10 then p.epoch.toNat
  else if 0x100 ≤ off ∧ off < 0x300 then
    let i := islandOf s ((off - 0x100) / 8)
    packFields [(i.level, 13), (b2n i.nt, 12), (i.point, 8), (i.tmax % 256, 0)]
  else if 0x400 ≤ off ∧ off < 0x800 then
    let c := (off - 0x400) / 4
    packFields [((s.temps.getD 0 (c + 1)).toNat, 32), ((s.temps.getD 0 c).toNat, 0)]
  else if 0x800 ≤ off ∧ off < 0xA00 then (ctxOf s ((off - 0x800) / 8)).emeter.toNat
  else if off = 0xA00 then p.efree.toNat
  else 0

/-- The housekeeping registers (R448). -/
def houseReg (s : State) (off : Nat) : Nat :=
  let h := s.house
  if off = 0 then packFields [(h.part, 48), (h.step, 40)]
  else if off = 8 then packFields ((List.range 4).map fun d => (h.hbm.getD d 0, 16 * d))
  else if off = 0x10 then packFields [(h.rsbuf, 12), (b2n h.rsgo, 0)]
  else if off = 0x18 then packFields [(h.rssize.toNat, 32), (h.rsused.toNat, 0)]
  else if off = 0x20 then h.bootst
  else if 0x40 ≤ off ∧ off < 0x140 then
    (h.mreg.getD 0 ((off - 0x40) / 32)).toNat / 2 ^ (8 * ((off - 0x40) % 32)) % 2 ^ 64
  else if off = 0x140 then packFields [(h.lseq.toNat, 32), ((s.now - h.foldAt) / 1000000000 % 2 ^ 32, 0)]
  else 0

/-- The domain admission table (R237). -/
def admitReg (s : State) (off : Nat) : Nat := (s.admitRegs.getD 0 (off / 8)).toNat

/-- The 8-byte register at an aligned offset; an offset that names none reads zero (R455). -/
def devReg (s : State) (off : Nat) : Nat :=
  if 0x100000 ≤ off ∧ off < 0x104000 then queueReg s ((off - 0x100000) / 64) (off % 64)
  else if off = 0x104000 then s.guard.toNat
  else if 0x108000 ≤ off ∧ off < 0x108100 then remapReg s (off - 0x108000)
  else if 0x110000 ≤ off ∧ off < 0x111000 then xlateReg s ((off - 0x110000) / 64) (off % 64)
  else if 0x112000 ≤ off ∧ off < 0x112100 then poolReg s ((off - 0x112000) / 64) (off % 64)
  else if 0x114000 ≤ off ∧ off < 0x114100 then splitReg s ((off - 0x114000) / 64) (off % 64)
  else if 0x116000 ≤ off ∧ off < 0x117000 then reportReg s ((off - 0x116000) / 64) (off % 64)
  else if 0x118000 ≤ off ∧ off < 0x118018 then netReg s (off - 0x118000)
  else if 0x119000 ≤ off ∧ off < 0x11A180 then logReg s ((off - 0x119000) / 16) (off % 16)
  else if 0x11A400 ≤ off ∧ off < 0x11A700 then injectorReg s ((off - 0x11A400) / 32) (off % 32)
  else if 0x11B000 ≤ off ∧ off < 0x11B800 then admitReg s (off - 0x11B000)
  else if 0x11C000 ≤ off ∧ off < 0x11D000 then gradeReg s (off - 0x11C000)
  else if 0x11D000 ≤ off ∧ off < 0x11E000 then trapReg s ((off - 0x11D000) / 64) (off % 64)
  else if 0x11E000 ≤ off ∧ off < 0x11E018 then scrubRegs s (off - 0x11E000)
  else if 0x11F000 ≤ off ∧ off < 0x120000 then powerReg s (off - 0x11F000)
  else if 0x120000 ≤ off ∧ off < 0x120148 then houseReg s (off - 0x120000)
  else 0

/-- A read of 1, 2, 4, 8 or 16 bytes (R455): misaligned, all ones. -/
def devRead (s : State) (off n : Nat) : Nat :=
  if off % n ≠ 0 then 2 ^ (8 * n) - 1
  else if n = 16 then devReg s off + 2 ^ 64 * devReg s (off + 8)
  else devReg s (off / 8 * 8) / 2 ^ (8 * (off % 8)) % 2 ^ (8 * n)

end Sys2Proof.Machine
end

