-- ==== Sys2Proof/Machine/Fetch.lean ====
section
/-! DEFINITION. Reads by physical class (R183, R184), watched addresses (R390), and the fetch of words and
header-led blocks through the instruction cache (R71 to R74, R90). -/

namespace Sys2Proof.Machine

/-! ## Physical reads -/

/-- A scratchpad row, 64 bytes, by physical address: GRADE 3 when it is marked (R247) or two of its banks are
bad (R250). The source of R249 is 7 for a mark and 3 otherwise. -/
def spadRow (s : State) (pa : Nat) : Option Nat :=
  if s.spadMarks.contains (pa / 64) then some 7 else if rowBad s (pa / 64) then some 3 else none

/-- A scratchpad read (R181, R184, R250). -/
def readSpad (s : State) (pa n : Nat) : Deliv :=
  let srcs := (List.range n).map fun i => spadRow s (pa + i)
  let d := Deliv.good (s.mem.bytes pa n)
  match (srcs.filterMap id).head? with
  | none => d
  | some src => { d with poison := srcs.map Option.isSome, grade := 3, src := src }

/-- A read meets the errors of the scratchpad rows that it touches (R251, R252). -/
def noteSpad (s : State) (pa n : Nat) : State :=
  if chipsClean s then s else (sectorParts pa n).foldl (fun s (p, _) => noteRow s (p / 64)) s

/-- A read by physical address, with the layout and tail policy of the translation that serves it. -/
def physRead (s : State) (core : Option Nat) (pa n nl tp : Nat) : State × Deliv :=
  match classOf pa with
  | 9 =>
    let (s, flips) := travel s core pa false
    (noteSpad s pa n, (readSpad s pa n).spoilt flips)
  | 10 => (s, Deliv.good (List.replicate n 0))
  | 14 => (s, Deliv.good (leBytes n (devRead s (offOf pa) n)))
  | 15 => let s := drainEgress s; (s, Deliv.good (s.mem.bytes pa n))
  | _ => readHome s core pa n nl tp

/-! ## Watched addresses (R390) -/

/-- An access of n bytes at a virtual address touches the watched range with a watched kind: 0 read, 1 write,
2 fetch. -/
def watched (s : State) (slot kind va n : Nat) : Bool :=
  let c := ctxOf s slot
  let size := 2 ^ (if c.wlog ≤ 32 then c.wlog else 32)
  let base := c.wva / size * size
  c.wen && bitOf c.wkind kind && va < base + size && base < va + n

/-! ## Fetch of words -/

/-- What the fetch of one word gives: the word, or a fault with the GRADE register's value. -/
inductive FetchOut where
  | ok (w : Word64)
  | bad (name : FaultName) (cause : Nat) (grade : Word32)
  deriving DecidableEq, Repr

/-- The cached line of a virtual address, tagged by address space and generation (R71). -/
def icacheFind (s : State) (core asid : Nat) (gen : BitVec 16) (va : Nat) : Option ILine :=
  s.icache.find? fun l => l.core == core && l.asid == asid && l.gen == gen && l.line == va / 128

/-- Adds a line: four ways in each of 128 sets, the oldest going first (log 17). -/
def icacheAdd (s : State) (l : ILine) : State :=
  let same (x : ILine) := x.core == l.core && x.line % 128 == l.line % 128
  let ways := s.icache.filter same
  let keep := if ways.length < 4 then s.icache else
    match s.icache.findIdx? same with
    | some i => s.icache.eraseIdx i
    | none => s.icache
  { s with icache := keep ++ [l] }

/-- Reads one line of code by physical address, by one request on the network (R72, R221): its words, and the grade of each
sector. -/
def readLine (s : State) (core pa nl tp : Nat) : State × List Word64 × List Word32 :=
  let base := pa / 128 * 128
  let home := decide (classOf pa < 4) || classOf pa == 8 || classOf pa == 12
  let (t, flips) := if home then travel s (some core) pa false else (s, [])
  let ((t, was) : State × Bool) := if home then requestLine t (some core) pa 0 else (t, true)
  let half (s : State) (p : Nat) : State × Deliv :=
    if home then
      let (s, d) := readPart s p 64 nl tp was
      if flips.isEmpty || p != base then (s, d) else spoilRead s p 64 nl tp was flips
    else physRead s (some core) p 64 nl tp
  let (t, a) := half t base
  let (t, b) := half t (base + 64)
  let s := uncounted s t
  let words := (List.range 16).map fun i => BitVec.ofNat 64 (leNat (((a.data ++ b.data).drop (8 * i)).take 8))
  let g (d : Deliv) : Word32 := if d.grade = 0 then 0 else gradeWord d.src d.nl d.grade
  (s, words, [g a, g b])

/-- The word of a line, or the fault of R72 when its sector came with a grade. -/
def lineWord (l : ILine) (va : Nat) : FetchOut :=
  let g := l.grades.getD (va % 128 / 64) 0
  if g = 0 then .ok (l.words.getD (va % 128 / 8) 0) else .bad .grade (g.toNat % 4) g

/-- Fetches one word (R72, R73). A fetch translates each time; the words come from the instruction cache while it
holds the line. Where software breaks R73's rule, each word may be the old or the new one: here each 128-byte line gives
what the cache holds of it (DESIGN CHOICE, log 30). -/
def fetchWord (s : State) (core slot asid : Nat) (user : Bool) (va : Word64) : State × FetchOut :=
  if va.toNat ≥ 2 ^ 52 then (s, .bad .aperture 0 0)
  else
    match xlate s core asid va.toNat .fetch user with
    | (s, .fault n c) => (s, .bad n c 0)
    | (s, .lost gw) => (s, .bad .grade 3 gw)
    | (s, r) =>
      if watched s slot 2 va.toNat 8 then (s, .bad .watch 2 0)
      else
        match r with
        | .ok pa e =>
          match icacheFind s core asid (ctxOf s slot).gen va.toNat with
          | some l => (s, lineWord l va.toNat)
          | none =>
            if peerDown s pa || peerRefused s pa asid then (s, .bad .prot 3 0)
            else
              let (s, words, grades) := readLine s core pa (leafNl e) (leafTp e)
              let l : ILine := { core := core, asid := asid, gen := (ctxOf s slot).gen, line := va.toNat / 128,
                                 words := words, grades := grades }
              (icacheAdd s l, lineWord l va.toNat)
        | _ => (s, .ok 0)

/-- Fetches n words in order and stops at the first that cannot be fetched. -/
def fetchWords (s : State) (core slot asid : Nat) (user : Bool) (va : Word64) :
    Nat → State × List Word64 × Option (Word64 × FetchOut)
  | 0 => (s, [], none)
  | n + 1 =>
    match fetchWord s core slot asid user va with
    | (s, .ok w) =>
      let (s, ws, r) := fetchWords s core slot asid user (va + 8) n
      (s, w :: ws, r)
    | (s, bad) => (s, [], some (va, bad))

/-! ## Fetch of blocks (R71, R90) -/

/-- What the fetch of a block gives. -/
inductive BlockOut where
  | ok (b : Fetched)
  /-- a fault of fetch, with the address of the word (R72) -/
  | bad (name : FaultName) (cause : Nat) (grade : Word32) (at_ : Word64)
  /-- ILLEGAL at the header (R90) -/
  | illegal
  deriving DecidableEq, Repr

/-- Fetches and checks the block at a header, for a warp with this allotment (R71, R76, R90). -/
def fetchBlock (s : State) (core slot asid : Nat) (user : Bool) (allot : Nat) (va : Word64) : State × BlockOut :=
  match fetchWord s core slot asid user va with
  | (s, .bad n c g) => (s, .bad n c g va)
  | (s, .ok w) =>
    let h := HFmt.ofWord w
    if !isHeader w || h.len = 0 then (s, .illegal)
    else
      match fetchWords s core slot asid user (va + 8) h.len.toNat with
      | (s, _, some (a, .bad n c g)) => (s, .bad n c g a)
      | (s, _, some (a, .ok _)) => (s, .bad .illegal 0 0 a)
      | (s, ws, none) =>
        if 25 ≤ h.len.toNat || !h.ok || (h.idem = 1#1 && allot ≤ h.live.toNat) then (s, .illegal)
        else (s, .ok { hdrAt := va, header := w, words := ws })

/-! ## Prefetch (R74) -/

/-- Brings one line into the instruction cache when a TLB translates it and it may be executed; otherwise nothing
happens. No accessed bit is set and no fault is raised. -/
def prefetchLine (s : State) (core slot asid : Nat) (user : Bool) (va : Nat) : State :=
  let gen := (ctxOf s slot).gen
  if (icacheFind s core asid gen va).isSome then s
  else
    match (tlbFind s core asid gen va).orElse fun _ => tlbFind s (l2Home core) asid gen va with
    | none => s
    | some t =>
      match checkLeaf .fetch user va t.leaf.toNat t.size with
      | .ok pa e =>
        if peerDown s pa || peerRefused s pa asid then s
        else
          let (s, words, grades) := readLine s core pa (leafNl e) (leafTp e)
          icacheAdd s { core := core, asid := asid, gen := gen, line := va / 128, words := words, grades := grades }
      | _ => s

/-- Prefetches the block at a header: its first line, then the lines that its length reaches; without effect if the words
do not form a block. A block of several lines whose later line no TLB translates keeps its first line, and a read that finds an
error counts it and notifies the host (DESIGN CHOICE, log 114). -/
def prefetchBlock (s : State) (core slot asid : Nat) (user : Bool) (va : Nat) : State :=
  if va % 8 ≠ 0 ∨ va ≥ 2 ^ 52 then s
  else
    let t := prefetchLine s core slot asid user va
    match (icacheFind t core asid (ctxOf t slot).gen va).map (lineWord · va) with
    | some (.ok w) =>
      if isHeader w && (HFmt.ofWord w).ok then
        [1, 2].foldl (fun s k =>
          let a := va / 128 * 128 + 128 * k
          if a ≤ va + 8 * (HFmt.ofWord w).len.toNat && a < 2 ^ 52 then prefetchLine s core slot asid user a else s) t
      else s
    | _ => s

/-- A J-format word that uses TGT (R74): BRA and CALL. -/
def targetOf (w : Word64) : Option (BitVec 32) :=
  if opcOf w = 0x04 ∨ opcOf w = 0x06 then some (w.extractLsb' 0 32) else none

/-- The address of a header at a signed word offset from a header (R87). -/
def headerAt (hdr : Word64) (tgt : BitVec 32) : Word64 := hdr + 8 * tgt.signExtend 64

/-- The header that follows a block (R77). -/
def fallThrough (hdrAt header : Word64) : Word64 := hdrAt + 8 * (BitVec.ofNat 64 (HFmt.ofWord header).len.toNat + 1)

/-- The last instruction word of a block: a literal is none. -/
def lastInstr : List Word64 → Option Word64
  | [] => none
  | [w] => some w
  | w :: l :: rest =>
    if needsLiteral w then (if rest.isEmpty then some w else lastInstr rest) else lastInstr (l :: rest)

/-- The hints of R74 for a fetched block. -/
def prefetchHints (s : State) (core slot asid : Nat) (user : Bool) (b : Fetched) : State :=
  let next := fallThrough b.hdrAt b.header
  let pf := (HFmt.ofWord b.header).pf.toNat
  let fetchAt (s : State) (va : Word64) := prefetchBlock s core slot asid user va.toNat
  let s := if pf = 1 ∨ pf = 3 ∨ pf = 4 then fetchAt s next else s
  let s := if pf = 2 ∨ pf = 3 then
      (match (lastInstr b.words).bind targetOf with
       | some t => fetchAt s (headerAt b.hdrAt t)
       | none => s)
    else s
  if pf = 4 then
    match (icacheFind s core asid (ctxOf s slot).gen next.toNat).map (lineWord · next.toNat) with
    | some (.ok w) => if isHeader w then fetchAt s (fallThrough next w) else s
    | _ => s
  else s

end Sys2Proof.Machine
end

