-- ==== Sys2Proof/Machine/Warps.lean ====
section
/-! DEFINITION. Reading and changing warps, splits, blocks and launches by key; the scoreboard (R95, R96); fault
codes (R393) and notification records (R397). -/

namespace Sys2Proof.Machine

/-! ## Entries by key -/

/-- What a key that names no warp reads as. -/
def Warp.blank : Warp :=
  { core := 0, quarter := 0, slot := 0, launch := 0, block := 0, num := 0, item := none, ctx := 0, asid := 0,
    role := 0, cls := 0, msg := false, allot := 0, nextAllot := none, v := [], sr := [], pr := [], flags := 0, mtgt := 0,
    fault := 0, faddr := [], grade := 0, batch := 0, stkIdx := 0, tcount := 0, live := 0,
    table := { splits := [], joins := [], calls := [], cspill := 0, spillOwn := [] }, handler := none, pend := [],
    deferred := [], faultList := [], hostFault := none, hostHeld := false, region := none, cardFlags := [], awayFlags := [], awayBatches := [], preemptDue := false,
    migrateDue := none, stopped := false, passed := 0, lastRun := 0, backoff := false, taken := none }

/-- What a key that names no block reads as. -/
def Block.blank : Block :=
  { launch := 0, linear := 0, core := 0, slot := 0, spBase := 0, spSize := 0, macFirst := 0, macs := 0, tiles := [],
    arrK := 0, bFmt := none, bMark := false, rq := [], rqHold := false, rbq := [], marrs := [], warps := [], ended := 0,
    saved := [], awayFlags := [], killed := false, owed := [], late := [] }

/-- What a key that names no launch reads as. -/
def Launch.blank : Launch :=
  { rva := 0, words := [], roles := [], groups := [], disp := [], ranges := [], queue := 0, asid := 0, ser := false,
    prio := 0, next := 0, nret := 0, nflt := 0, terminated := false, ended := false, since := none, held := false,
    callee := [], calleeReserved := false, dqs := [], opened := 0, admitted := none }

def warpAt (s : State) (w : Nat) : Warp := s.warps.getD .blank w
def blockAt (s : State) (b : Nat) : Block := s.blocks.getD .blank b
def launchAt (s : State) (l : Nat) : Launch := s.launches.getD .blank l

/-- Changes a warp; a key that names none changes nothing. -/
def updWarp (s : State) (w : Nat) (f : Warp → Warp) : State := { s with warps := s.warps.modify w f }
def updBlock (s : State) (b : Nat) (f : Block → Block) : State := { s with blocks := s.blocks.modify b f }
def updLaunch (s : State) (l : Nat) (f : Launch → Launch) : State := { s with launches := s.launches.modify l f }

/-- The block and the launch of a warp. -/
def blockOf (s : State) (w : Nat) : Block := blockAt s (warpAt s w).block
def launchOf (s : State) (w : Nat) : Launch := launchAt s (warpAt s w).launch

/-- A word of a launch record (R22). -/
def Launch.word (l : Launch) (i : Nat) : Nat := (l.words.getD i 0).toNat

/-- Fields of the launch record that running warps use (R22). -/
def Launch.msg (l : Launch) : Bool := bitOf (l.word 3) 0
def Launch.migratable (l : Launch) : Bool := bitOf (l.word 3) 1
def Launch.migNote (l : Launch) : Bool := bitOf (l.word 3) 2
def Launch.wpb (l : Launch) : Nat := bitsOf (l.word 2) 63 59 + 1
def Launch.nrole (l : Launch) : Nat := bitsOf (l.word 3) 55 53
def Launch.dieMask (l : Launch) : Nat := bitsOf (l.word 3) 40 37
def Launch.spadBytes (l : Launch) : Nat := bitsOf (l.word 2) 50 43 * 4096
def Launch.stkSz (l : Launch) : Nat := bitsOf (l.word 9) 63 32
def Launch.stack (l : Launch) : Nat := l.word 8
def Launch.save (l : Launch) : Nat := l.word 10
def Launch.kimg (l : Launch) : Word64 := l.words.getD 0 0

/-- Grid and cluster extents (R22). -/
def Launch.grid (l : Launch) : Nat × Nat × Nat :=
  (bitsOf (l.word 1) 63 48, bitsOf (l.word 1) 47 32, bitsOf (l.word 1) 31 16)
def Launch.cluster (l : Launch) : Nat × Nat × Nat :=
  (bitsOf (l.word 1) 15 12 + 1, bitsOf (l.word 1) 11 8 + 1, bitsOf (l.word 1) 7 4 + 1)

/-- Block coordinates of a linear number (R19). -/
def Launch.coords (l : Launch) (linear : Nat) : Nat × Nat × Nat :=
  let (nx, ny, _) := l.grid
  (linear % nx, linear / nx % ny, linear / nx / ny)

/-- The linear number of the cluster that holds a block (R19). -/
def Launch.clusterOf (l : Launch) (linear : Nat) : Nat :=
  let (nx, ny, _) := l.grid
  let (cx, cy, cz) := l.cluster
  let (x, y, z) := l.coords linear
  x / cx + nx / cx * (y / cy + ny / cy * (z / cz))

/-- A callee warp (R66). -/
def Warp.isCallee (w : Warp) : Bool := w.item.isSome

/-! ## Splits of a warp -/

def Warp.splitAt (w : Warp) (e : Nat) : Split := w.table.splits.getD e .none

/-- Changes one split entry of a table. -/
def DivTable.setSplit (t : DivTable) (e : Nat) (f : Split → Split) : DivTable :=
  { t with splits := t.splits.modify e f }

def Warp.setSplit (w : Warp) (e : Nat) (f : Split → Split) : Warp := { w with table := w.table.setSplit e f }

/-- Changes a split of a warp. -/
def updSplit (s : State) (w e : Nat) (f : Split → Split) : State := updWarp s w fun x => x.setSplit e f

/-- The lanes that have not exited; a handler runs on all 32 (R391). -/
def Warp.alive (w : Warp) : Lanes := if w.handler.isSome then allLanes else w.live

/-- The active lanes of a split (R108). -/
def Warp.active (w : Warp) (e : Nat) : Lanes := (w.splitAt e).mask &&& w.alive

/-- The predicate P0-P7 as a lane mask; P7 is true in every lane (R78). -/
def Warp.pred (w : Warp) (p : Nat) : Lanes := if p = 7 then allLanes else w.pr.getD 0 p

/-- The lanes whose guard is true (R78). -/
def Warp.guardMask (w : Warp) (g : Guard) : Lanes := if g.neg then ~~~(w.pred g.p.val) else w.pred g.p.val

/-- G of R108: the active lanes of the split whose guard is true. -/
def Warp.taking (w : Warp) (e : Nat) (g : Guard) : Lanes := w.active e &&& w.guardMask g

/-- The valid split entries of a table. -/
def DivTable.valid (t : DivTable) : List Nat := (List.range 4).filter fun e => (t.splits.getD e .none).valid

/-! ## Register numbers (R391: V248-V255 and S56-S59 of a handler name its own bank, here 256 + n) -/

def Warp.regV (w : Warp) (n : Nat) : Nat := if w.handler.isSome && 248 ≤ n && n < 256 then 256 + n else n
def Warp.regS (w : Warp) (n : Nat) : Nat := if w.handler.isSome && 56 ≤ n && n < 60 then 256 + n else n

/-- Reads a V register's row by its scoreboard number. -/
def Warp.rawV (w : Warp) (r : Nat) : Row :=
  if 256 ≤ r then (match w.handler with | some h => h.bankV.getD .zero (r - 256) | none => .zero)
  else w.v.getD .zero r

/-- Reads an S register by its scoreboard number. -/
def Warp.rawS (w : Warp) (r : Nat) : Word32 :=
  if 256 ≤ r then (match w.handler with | some h => h.bankS.getD 0 (r - 256) | none => 0) else w.sr.getD 0 r

/-- Writes a V register's row by its scoreboard number; a bank that is gone takes nothing. -/
def Warp.setRawV (w : Warp) (r : Nat) (row : Row) : Warp :=
  if 256 ≤ r then
    match w.handler with
    | some h => { w with handler := some { h with bankV := h.bankV.put (r - 256) row } }
    | none => w
  else { w with v := w.v.put r row }

/-- Writes an S register by its scoreboard number. -/
def Warp.setRawS (w : Warp) (r : Nat) (x : Word32) : Warp :=
  if 256 ≤ r then
    match w.handler with
    | some h => { w with handler := some { h with bankS := h.bankS.put (r - 256) x } }
    | none => w
  else { w with sr := w.sr.put r x }

/-- Reads V n as the issuing code names it. -/
def Warp.getV (w : Warp) (n : Nat) : Row := w.rawV (w.regV n)
def Warp.getS (w : Warp) (n : Nat) : Word32 := w.rawS (w.regS n)

/-- Writes the lanes of a mask of V n. -/
def Warp.putV (w : Warp) (n : Nat) (m : Lanes) (f : Nat → Word32) : Warp :=
  w.setRawV (w.regV n) (Row.upd (w.getV n) m f)

/-- S60 to S63 act as message registers for the warp now (R375). -/
def Warp.msgActive (w : Warp) : Bool := w.msg && w.handler.isNone

/-- Writes S n; a write of S62 or S63 under MSG is discarded (R375). -/
def Warp.putS (w : Warp) (n : Nat) (x : Word32) : Warp :=
  if w.msgActive && (n == 62 || n == 63) then w else w.setRawS (w.regS n) x

/-- Writes the lanes of a mask of a predicate; P7 discards the write (R84). -/
def Warp.putP (w : Warp) (p : Nat) (m vals : Lanes) : Warp :=
  if p = 7 then w else { w with pr := w.pr.put p ((w.pred p &&& ~~~m) ||| (vals &&& m)) }

/-! ## The scoreboard (R95, R96) -/

/-- The scoreboard entry of a destination. -/
def PDest.reg : PDest → Reg
  | .v r _ _ => .v r
  | .s r _ => .s r
  | .p r _ _ => .p r

/-- The registers with a pending write. -/
def Warp.pendingRegs (w : Warp) : List Reg := (w.pend ++ w.deferred).flatMap fun p => p.dests.map PDest.reg

/-- Those of a list of registers that have a pending write. -/
def Warp.waitsOn (w : Warp) (rs : List Reg) : List Reg := rs.filter fun r => w.pendingRegs.contains r

/-! ## Fault codes (R393) -/

def FaultName.code : FaultName → Nat
  | .illegal => 1 | .priv => 2 | .aperture => 3 | .misalign => 4 | .page => 5 | .prot => 6 | .grade => 7
  | .signature => 8 | .diverge => 9 | .groupAbsent => 10 | .mmaCheck => 11 | .cardFault => 12 | .brk => 13
  | .swTrap => 14 | .watch => 15 | .numeric => 16 | .preempt => 17 | .migrate => 18

/-- The FAULT value (R393). -/
def FaultInfo.word (f : FaultInfo) : Word32 :=
  BitVec.ofNat 32 (f.name.code * 2 ^ 24 + f.cause % 256 * 2 ^ 16 + f.info % 65536)

/-- A fault that is not per lane: every lane receives the address (R393). -/
def FaultInfo.uniform (name : FaultName) (cause info : Nat) (addr : Word64) : FaultInfo :=
  { name := name, cause := cause, info := info, lanes := allLanes, addr := List.replicate 32 addr }

/-- A fault of some lanes, each with its own address (R197). -/
def FaultInfo.perLane (name : FaultName) (cause info : Nat) (lanes : Lanes) (addr : Nat → Word64) : FaultInfo :=
  { name := name, cause := cause, info := info, lanes := lanes,
    addr := (List.range 32).map fun l => if lanes.getLsbD l then addr l else 0 }

/-- FADDR of the lowest reported lane. -/
def FaultInfo.lowAddr (f : FaultInfo) : Word64 := f.addr.getD ((lowestLane f.lanes).getD 0) 0

/-! ## Notifications (R397) -/

/-- A notification record. -/
structure Notice where
  kind : Nat
  core : Nat
  slot : Nat
  fault : Nat
  addr : Nat
  block : Nat
  aux : Nat
  deriving DecidableEq, Repr

/-- The 32 bytes of a record. -/
def Notice.bytes (n : Notice) (now : Nat) : List Byte :=
  leBytes 8 (packFields [(n.kind, 56), (n.core % 256, 48), (n.slot % 64, 42), (n.fault % 2 ^ 32, 0)]) ++
    leBytes 8 n.addr ++ leBytes 8 now ++ leBytes 4 n.block ++ leBytes 4 n.aux

/-- A ring size field: 4 to 12 valid, others act as 4 (R190, R217, R390). -/
def ringLog (n : Nat) : Nat := if 4 ≤ n ∧ n ≤ 12 then n else 4

/-- Writes a record to a context's notification ring and notifies the host (R397). -/
def notify (s : State) (slot : Nat) (n : Notice) : State :=
  let c := ctxOf s slot
  let size := 2 ^ ringLog c.nrlog
  let s := notifyHost s
  if (c.nrhead - c.nrtail).toNat = size then
    updCtx s slot fun c => { c with nrlost := Nat.min (c.nrlost + 1) (2 ^ 32 - 1) }
  else
    let s := drainEgress (deviceWrite s (c.nrbase * 4096 + 32 * (c.nrhead.toNat % size)) (n.bytes s.now))
    updCtx s slot fun c => { c with nrhead := c.nrhead + 1 }

/-- The record that names a warp. -/
def warpNotice (s : State) (w kind fault addr aux : Nat) : Notice :=
  let x := warpAt s w
  { kind := kind, core := x.core, slot := x.quarter * 16 + x.slot, fault := fault, addr := addr,
    block := if x.isCallee then 0xFFFFFFFF else (blockOf s w).linear, aux := aux }

end Sys2Proof.Machine
end

