-- ==== Sys2Proof/Machine/Barriers.lean ====
section
/-! DEFINITION. The barrier hierarchy (R349 to R353): records, arrival, withdrawal, completion, abandonment. -/

namespace Sys2Proof.Machine

/-- The core of a warp is being moved (R439). -/
def movingCore (s : State) (core : Nat) : Bool := s.moves.any (·.logical == core)

/-- The engine of a kind, and how many of its cards one core runs at once. -/
def engineOf (kind : Nat) : Nat × Nat :=
  if kind ≤ 0x82 then (0, 8)
  else if kind ≤ 0x84 then (1, 64)
  else if kind = 0x91 then (2, 1)
  else if kind = 0x93 ∨ kind = 0x94 then (3, 1)
  else (4, 1)

/-- The core has come to rest: no run on it, no matrix card in flight. -/
def coreAtRest (s : State) (core : Nat) : Bool :=
  !(s.runs.any fun r => (warpAt s r.2.1).core == core) &&
    !(s.cards.any fun x => x.2.core == core && x.2.launched && decide (2 ≤ (engineOf x.2.kind).1))

/-- A core that is being moved and has come to rest refuses what is aimed at it, until the exchange (R439). -/
def coreShut (s : State) (core : Nat) : Bool := movingCore s core && coreAtRest s core

/-- The instance of a barrier level that a block belongs to (R349): its key, its cluster, its die, or 0. -/
def barInstance (s : State) (b : Nat) (lvl : BarLvl) : Nat :=
  let x := blockAt s b
  match lvl with
  | .block => b
  | .cluster => (launchAt s x.launch).clusterOf x.linear
  | .die => coreDie x.core
  | .grid => 0

/-- The barrier's bit is set in BARB, BARC, BARD or BARG (R22, R349). -/
def barDeclared (l : Launch) (bar : Bar) : Bool :=
  match bar.lvl with
  | .block => bitOf (bitsOf (l.word 2) 30 15) bar.idx.val
  | .cluster => bitOf (bitsOf (l.word 2) 14 7) bar.idx.val
  | .die => bitOf (bitsOf (l.word 3) 63 60) bar.idx.val
  | .grid => bitOf (bitsOf (l.word 3) 59 56) bar.idx.val

/-- The barrier that a block's words name: its number in the table and its record. -/
def barFind (s : State) (b : Nat) (bar : Bar) : Option (Nat × Barrier) :=
  let x := blockAt s b
  s.barriers.first fun _ k =>
    k.lvl == bar.lvl && k.launch == x.launch && k.idx == bar.idx.val && k.inst == barInstance s b bar.lvl

/-- A warp's bit in the local record of its core (R350). -/
def slotBit (w : Nat) : BitVec 64 := 1#64 <<< (w % 64)

/-- The local record of a core. -/
def Barrier.at (k : Barrier) (core : Nat) : BarLocal := k.locals.getD .reset core

/-- Changes the local record of a core. -/
def Barrier.upd (k : Barrier) (core : Nat) (f : BarLocal → BarLocal) : Barrier :=
  { k with locals := k.locals.put core (f (k.at core)) }

/-- Membership of a warp in one of the four sets. -/
def Barrier.has (k : Barrier) (w : Nat) (f : BarLocal → BitVec 64) : Bool := f (k.at (w / 64)) &&& slotBit w != 0

/-- What an arrival reports (R366). -/
inductive Arrival where
  | done | early | refused | abandoned
  deriving DecidableEq, Repr

/-- The status code of R366. -/
def Arrival.code : Arrival → Nat
  | .done => 0 | .early => 1 | .refused => 2 | .abandoned => 3

/-- arrive(w) of R351. -/
def Barrier.arrive (k : Barrier) (w : Nat) : Barrier × Arrival :=
  if k.aband then (k, .abandoned)
  else if k.has w (·.arrived) then
    if k.has w (·.early) then (k, .refused)
    else (k.upd (w / 64) fun l => { l with early := l.early ||| slotBit w }, .early)
  else ({ k.upd (w / 64) (fun l => { l with arrived := l.arrived ||| slotBit w }) with arr := k.arr + 1 }, .done)

/-- withdraw(w) of R351, for a member. -/
def Barrier.withdraw (k : Barrier) (w : Nat) : Barrier :=
  if k.has w (·.member) then
    let arr := if k.has w (·.arrived) then k.arr - 1 else k.arr
    let off := ~~~(slotBit w)
    { k.upd (w / 64) (fun l => { member := l.member &&& off, arrived := l.arrived &&& off, early := l.early &&& off,
                                 waiter := l.waiter &&& off }) with
      exp := k.exp - 1, arr := arr, wake := k.wake.filter (· != w), done := k.done.filter (· != w) }
  else k

/-- The warps of a set, as warp keys. -/
def Barrier.members (k : Barrier) (f : BarLocal → BitVec 64) : List Nat :=
  k.locals.flatMap fun (core, l) => ((List.range 64).filter fun i => (f l).getLsbD i).map (core * 64 + ·)

/-- A completed phase, or an abandonment, reaches the shares of the cores for which a test holds (R351, R352): their waiters join
those still to be woken; of a completed phase EARLY becomes ARRIVED and counts, and one whose next arrival is already counted
waits on (R369). -/
def Barrier.reach (k : Barrier) (phase : Bool) (on : Nat → Bool) : Barrier :=
  let of (f : BarLocal → BitVec 64) : List Nat := (k.members f).filter fun w => on (w / 64)
  { k with arr := if phase then k.arr + BitVec.ofNat 15 (of (·.early)).length else k.arr,
           wake := k.wake ++ (of (·.waiter)).filter (!k.wake.contains ·),
           done := if phase then k.done ++ of (fun l => l.waiter &&& ~~~l.early) else k.done,
           locals := k.locals.map fun (c, l) =>
             (c, if on c then { l with waiter := 0, arrived := if phase then l.early else 0, early := 0 } else l) }

/-- A completed phase, or an abandonment, reaches every share but those of cores that are being moved: these it reaches once the
move is over (R353). -/
def Barrier.spread (k : Barrier) (moving : Nat → Bool) (phase : Bool) : Barrier :=
  let k := { k with late := k.late ++ (k.locals.keys.filter moving).map (·, phase) }
  k.reach phase fun c => !moving c

/-- The completion test at the root (R351), made once. -/
def Barrier.settleOnce (k : Barrier) (moving : Nat → Bool) : Barrier :=
  if !k.aband && k.arr == k.exp then ({ k with phase := !k.phase, arr := 0 } : Barrier).spread moving true else k

/-- The completion test at the root. Arrivals counted early can complete the next phase at once: the test holds again, and then no
arrival is left (R361). -/
def Barrier.settle (k : Barrier) (moving : Nat → Bool) : Barrier :=
  let k' := k.settleOnce moving
  if k'.exp = 0 then k' else k'.settleOnce moving

/-- The barrier becomes ABANDONED (R352): waiters are readied, ARRIVED and EARLY are cleared. -/
def Barrier.abandon (k : Barrier) (moving : Nat → Bool) : Barrier := ({ k with aband := true } : Barrier).spread moving false

/-- The move of a core is over: what its share has waited for is applied in order, and the test is made (R353). -/
def Barrier.catchUp (k : Barrier) (core : Nat) : Barrier :=
  let mine := k.late.filter (·.1 == core)
  mine.foldl (fun k x => k.reach x.2 (· == core)) { k with late := k.late.filter (·.1 != core) }

/-- The kill of a member (R352). -/
def Barrier.kill (k : Barrier) (moving : Nat → Bool) (w : Nat) : Barrier :=
  if k.has w (·.member) then
    let k := k.abandon moving
    { k.upd (w / 64) (fun l => { l with member := l.member &&& ~~~(slotBit w) }) with
      exp := k.exp - 1, wake := k.wake.filter (· != w), done := k.done.filter (· != w) }
  else k

/-- Replaces one barrier's record, with the completion test. -/
def setBarrier (s : State) (i : Nat) (k : Barrier) : State := { s with barriers := s.barriers.put i (k.settle (movingCore s)) }

/-- A warp whose last lane exits withdraws from its barriers (R351). -/
def withdrawAll (s : State) (w : Nat) : State :=
  let l := (warpAt s w).launch
  { s with barriers := s.barriers.map fun (i, k) =>
      if k.launch = l ∧ k.has w (·.member) then (i, (k.withdraw w).settle (movingCore s)) else (i, k) }

/-- A killed warp's barriers are abandoned (R352). -/
def abandonAll (s : State) (w : Nat) : State :=
  let l := (warpAt s w).launch
  { s with barriers := s.barriers.map fun (i, k) => if k.launch = l then (i, k.kill (movingCore s) w) else (i, k) }

/-- Readies the splits of a warp that wait at one barrier, for a completed phase or for another reason. -/
def wakeSplits (t : DivTable) (bar : Nat) (done : Bool) : DivTable :=
  { t with splits := t.splits.map fun p =>
      if p.park = some (.barrier bar) then { p with park := if done then some .woken else none } else p }

/-- Wakes the readied waiters of a barrier (R349, R369), but for those on cores for which the test holds: what concerns the
share of a block that is being moved waits for the move (R353). -/
def wakeBarrier (s : State) (i : Nat) (held : Nat → Bool) : State :=
  match s.barriers.find? i with
  | none => s
  | some k =>
    let stays (w : Nat) : Bool := held (w / 64)
    let s := (k.wake.filter (!stays ·)).foldl (fun s w => updWarp s w fun x =>
      let done := k.done.contains w
      { x with table := wakeSplits x.table i done,
               handler := x.handler.map fun h => { h with table := wakeSplits h.table i done } }) s
    { s with barriers := s.barriers.put i { k with wake := k.wake.filter stays, done := k.done.filter stays } }

end Sys2Proof.Machine
end

