-- ==== Sys2Proof/Machine/Diverge.lean ====
section
/-! DEFINITION. Divergence and reconvergence of splits (R99 to R104), the call stack (R114, R116). Everything here
acts on one warp. -/

namespace Sys2Proof.Machine

/-- Call depth of a split: the entries, on chip or spilled, that it owns (R114). -/
def DivTable.callDepth (t : DivTable) (e : Nat) : Nat :=
  (t.calls.filter (·.own == e)).length + (t.spillOwn.filter (· == e)).length

/-- Discarded spilled entries are no entries of the spill area once no live one lies beyond them (R114, R116). -/
def DivTable.trimSpill (t : DivTable) : DivTable :=
  let live := (t.spillOwn.reverse.dropWhile (· == 4)).reverse
  { t with spillOwn := live, cspill := BitVec.ofNat 16 (t.cspill.toNat - (t.spillOwn.length - live.length)) }

/-- The call-stack entries of an invalidated split are discarded (R116). A spilled one below a live one keeps its place in
memory, where nothing moves (DEDUCED, log 23). -/
def DivTable.dropCalls (t : DivTable) (e : Nat) : DivTable :=
  { t with calls := t.calls.filter (·.own != e),
           spillOwn := t.spillOwn.map fun o => if o = e then 4 else o }.trimSpill

/-- The lanes of a mask lose their pending register writes (R110). -/
def dropLanes (m : Lanes) (p : Pending) : Pending :=
  { p with dests := p.dests.filterMap fun d =>
      match d with
      | .v r ls row => if ls ≠ 0 ∧ ls &&& ~~~m = 0 then none else some (.v r (ls &&& ~~~m) row)
      | .p r ls vs => if ls ≠ 0 ∧ ls &&& ~~~m = 0 then none else some (.p r (ls &&& ~~~m) vs)
      | .s r x => some (.s r x) }

/-- Ends lanes of a warp as by EXIT (R110), apart from what becomes of its splits. An ended lane is no longer one of
its split's lanes (R99: MASK is the split's lanes; DEDUCED, log 7). -/
def Warp.endLanes (w : Warp) (m : Lanes) : Warp :=
  { w with live := w.live &&& ~~~m, pend := w.pend.map (dropLanes m), deferred := w.deferred.map (dropLanes m),
           table := { w.table with splits := w.table.splits.map fun p => { p with mask := p.mask &&& ~~~m } } }

/-- A split goes to a header at which it does not stop, with its m: its block is still to be fetched. The header's fold is made
as the run begins there: until then SIG holds the fold of the words issued since the header before (R91, R423). -/
def Warp.enterHeader (w : Warp) (e : Nat) (x : Word64) (m : Bool) : Warp :=
  w.setSplit e fun p =>
    { p with pc := x, word := false, hdr := 0, entered := true, m := m, waiting := false, park := none, blk := none }

/-- A split's next place: a header, or a word within the block at a header (R99). -/
structure Place where
  pc : Word64
  word : Option Word64
  deriving DecidableEq, Repr

/-- Sends a split to a place; a header is still to be entered. -/
def Split.goTo (p : Split) (q : Place) : Split :=
  { p with pc := q.pc, word := q.word.isSome, hdr := q.word.getD 0, entered := false, waiting := false, park := .none,
           blk := .none }

/-! ## Joins (R103) -/

/-- Join record k lies inside record j: following PARENT from k reaches j within n steps. -/
def DivTable.inside (t : DivTable) (j : Nat) : Nat → Nat → Bool
  | 0, _ => false
  | n + 1, k =>
    let r := t.joins.getD k .none
    r.valid && (r.parent == j || t.inside j n r.parent)

/-- How many records enclose record k. -/
def DivTable.nesting (t : DivTable) (k : Nat) : Nat := ((List.range 4).filter fun j => t.inside j 4 k).length

/-- Record j completes (R103). -/
def DivTable.joinDone (t : DivTable) (j : Nat) : Bool :=
  let r := t.joins.getD j .none
  let mine (e : Nat) := let k := (t.splits.getD e .none).join; k == j || (k < 4 && t.inside j 4 k)
  r.valid && t.valid.any (fun e => (t.splits.getD e .none).join == j) &&
    t.valid.all fun e => !mine e || (let p := t.splits.getD e .none; p.waiting && p.pc == r.h)

/-- The innermost completed record, the lowest first among equals. -/
def DivTable.readyJoin (t : DivTable) : Option Nat :=
  ((List.range 4).filter t.joinDone).foldl (fun best j =>
    match best with
    | some b => if t.nesting b < t.nesting j then some j else best
    | none => some j) none

/-- The merge of R103: the entry that stays, the address it enters and m. -/
def Warp.mergeJoin (w : Warp) (j : Nat) : Warp × Nat × Word64 × Bool :=
  let t := w.table
  let r := t.joins.getD j .none
  let mem := t.valid.filter fun e => (t.splits.getD e .none).join == j || t.inside j 4 (t.splits.getD e .none).join
  let keep := mem.headD 0
  let union := (mem.foldl (fun m e => m ||| (t.splits.getD e .none).mask) 0) &&& w.alive
  let t := mem.foldl (fun t e => if e = keep then t else t.setSplit e fun _ => .none) t
  let t := t.setSplit keep fun p => { p with mask := union, join := r.parent, waiting := false }
  let t := { t with joins := t.joins.modify j fun x => { x with valid := false } }
  ({ w with table := t }, keep, r.h, union == r.dm)

/-! ## Entering headers, frames, exits (R101, R102) -/

/-- What a split does next. -/
inductive Arrive where
  /-- it reaches a header, with this m -/
  | header (x : Word64) (m : Bool)
  /-- its lanes have all exited (R102) -/
  | exited
  deriving DecidableEq, Repr

/-- R101, R102 and R103 for one split. The header of a frame or join just closed is compared afresh with the next
frame or join, so that enclosing ones with the same header are honoured (DEDUCED, log 7). -/
def Warp.arrive : Nat → Warp → Nat → Arrive → Warp
  | 0, w, _, _ => w
  | n + 1, w, e, a =>
    let p := w.splitAt e
    match a with
    | .header x m =>
      match p.frames with
      | top :: rest =>
        if top.h = some x then
          if top.pmask &&& w.alive ≠ 0 then
            let w := w.setSplit e fun p =>
              ({ p with mask := top.pmask, frames := { top with pmask := 0 } :: rest }).goTo ⟨top.ppc, top.pword⟩
            match top.pword with
            | some _ => w
            | none => w.arrive n e (.header top.ppc true)
          else
            let mask := top.dm &&& w.alive
            let w := w.setSplit e fun p => { p with mask := mask, frames := rest }
            if mask = 0 then (w.setSplit e fun p => { p with pc := x, word := false }).arrive n e .exited
            else w.arrive n e (.header x (mask == top.dm))
        else w.enterHeader e x m
      | [] =>
        let j := w.table.joins.getD p.join .none
        if p.spilled = 0 ∧ w.table.callDepth e = 0 ∧ p.join < 4 ∧ j.valid = true ∧ j.h = x then
          let w := w.setSplit e fun p => { p.goTo ⟨x, none⟩ with waiting := true }
          match w.table.readyJoin with
          | some j => let (w, k, h, m) := w.mergeJoin j; w.arrive n k (.header h m)
          | none => w
        else w.enterHeader e x m
    | .exited =>
      match p.frames with
      | top :: rest =>
        if top.pmask &&& w.alive ≠ 0 then
          let w := w.setSplit e fun p =>
            ({ p with mask := top.pmask, frames := { top with pmask := 0 } :: rest }).goTo ⟨top.ppc, top.pword⟩
          match top.pword with
          | some _ => w
          | none => w.arrive n e (.header top.ppc true)
        else
          let mask := top.dm &&& w.alive
          let w := w.setSplit e fun p => { p with mask := mask, frames := rest }
          if mask = 0 then w.arrive n e .exited
          else
            match top.h with
            | some h => w.arrive n e (.header h (mask == top.dm))
            | none => ((w.endLanes mask).setSplit e fun p => { p with mask := 0 }).arrive n e .exited
      | [] =>
        if p.spilled ≠ 0 then w.setSplit e fun p => { p.goTo ⟨p.pc, none⟩ with mask := 0, entered := true }
        else
          let w := { w with table := (w.table.setSplit e fun _ => .none).dropCalls e }
          match w.table.readyJoin with
          | some j => let (w, k, h, m) := w.mergeJoin j; w.arrive n k (.header h m)
          | none => w

/-- Enough steps for eight frames, four joins and their closing. -/
def arriveFuel : Nat := 64

/-- Every split that has a header still to enter enters it; a split with no lane left follows R102. -/
def Warp.settle (w : Warp) : Warp :=
  [0, 1, 2, 3].foldl (fun w e =>
    let p := w.splitAt e
    if !p.valid then w
    else if p.mask &&& w.alive = 0 ∧ ¬(p.frames = [] ∧ p.spilled ≠ 0) then w.arrive arriveFuel e .exited
    else if !p.word && !p.entered && !p.waiting then w.arrive arriveFuel e (.header p.pc true)
    else w) w

/-! ## Division (R100) -/

/-- Divides a split into the lanes that take one header and those that go elsewhere. Neither side has entered its
header yet. None is DIVERGE with cause 0. R100 takes some invalid entry and some invalid join record: here the lowest-numbered of
each (DESIGN CHOICE, log 116). -/
def Warp.divide (w : Warp) (e : Nat) (t n : Lanes) (taken : Word64) (other : Place) (h : Option Word64) : Option Warp :=
  let p := w.splitAt e
  if n = 0 then some (w.setSplit e fun p => p.goTo ⟨taken, none⟩)
  else if t = 0 then some (w.setSplit e fun p => p.goTo other)
  else
    let freeE := (List.range 4).find? fun k => !(w.splitAt k).valid
    let freeJ := (List.range 4).find? fun k => !(w.table.joins.getD k .none).valid
    if p.frames = [] ∧ w.table.callDepth e = 0 ∧ freeE.isSome = true ∧ (h.isNone = true ∨ freeJ.isSome = true) then
      let k := freeE.getD 0
      let (tbl, join) : DivTable × Nat := match h, freeJ with
        | some x, some j =>
          ({ w.table with joins := w.table.joins.set j { valid := true, h := x, dm := p.mask, parent := p.join } }, j)
        | _, _ => (w.table, p.join)
      let w := { w with table := tbl }
      let w := w.setSplit k fun _ => { p with mask := n, join := join, fresh := true }.goTo other
      some (w.setSplit e fun p => { p with mask := t, join := join }.goTo ⟨taken, none⟩)
    else if p.frames.length ≥ 8 then none
    else
      let f : Frame := { h := h, dm := p.mask, ppc := other.pc, pmask := n, pword := other.word }
      some (w.setSplit e fun p => { p with mask := t, frames := f :: p.frames }.goTo ⟨taken, none⟩)

end Sys2Proof.Machine
end

