-- ==== Sys2Proof/Machine/L1.lean ====
section
/-! DEFINITION. The first-level data cache of a core (R256, R335): lines with byte masks, eviction, write-back,
self-invalidation. -/

namespace Sys2Proof.Machine

/-- The line of a core's first level that holds a physical address. -/
def l1Find (s : State) (core line : Nat) : Option L1Line := s.l1.find? fun l => l.core == core && l.line == line

/-- Takes a line out of the first level. -/
def l1Drop (s : State) (core line : Nat) : State :=
  { s with l1 := s.l1.filter fun l => !(l.core == core && l.line == line) }

/-- Puts a line in, most recently used. -/
def l1Put (s : State) (l : L1Line) : State := { l1Drop s l.core l.line with l1 := (l1Drop s l.core l.line).l1 ++ [l] }

/-- The dirty bytes of one of a line's two sectors. -/
def L1Line.dirtyBytes (l : L1Line) (half : Nat) : List (Option Byte) :=
  (List.range 64).map fun i => if l.dirty.getLsbD (64 * half + i) then l.data[64 * half + i]? else none

/-- Writes a line's dirty bytes back to home, as a byte mask (R335). -/
def writeBack (s : State) (l : L1Line) : State :=
  if l.dirty = 0 then s else maskedLine s (some l.core) l.line (l.dirtyBytes 0) (l.dirtyBytes 1) l.nl l.tp

/-- The line valid and clean. -/
def L1Line.cleaned (l : L1Line) : L1Line := { l with dirty := 0 }

/-- Writes back every dirty byte of a core's first level; the lines stay valid and clean (R335). -/
def releaseL1 (s : State) (core : Nat) : State :=
  let s := (s.l1.filter fun l => l.core == core && l.dirty != 0).foldl writeBack s
  { s with l1 := s.l1.map fun l => if l.core = core then l.cleaned else l }

/-- Self-invalidation (R335): lines without dirty bytes go; a dirty line keeps only its dirty bytes. -/
def acquireL1 (s : State) (core : Nat) : State :=
  { s with l1 := s.l1.filterMap fun l =>
      if l.core = core then (if l.dirty = 0 then none else some { l with valid := l.dirty, good := l.dirty }) else some l }

/-- Writes back and drops one line. -/
def flushLine (s : State) (core line : Nat) : State :=
  match l1Find s core line with
  | some l => l1Drop (writeBack s l) core line
  | none => s

/-- The victim of R256 among the lines of a set that hold no lease: the least recently used of class 01, then 00, then 10. -/
def l1Victim (ways : List L1Line) : Option L1Line :=
  (ways.find? (·.prio == .stream)).orElse fun _ => (ways.find? (·.prio == .dflt)).orElse fun _ => ways.head?

/-- The ways of a set that leased lines take: what a core does under a lease is performed at once (R342), so that such a line
stands at home and takes its way here by number. -/
def leasedWays (s : State) (core line : Nat) : Nat :=
  (s.leases.filter fun k => k.core == core && k.line % 128 == line % 128).length

/-- Makes room for a line in its set of eight; false when all eight ways hold leases. -/
def l1Room (s : State) (core line : Nat) : State × Bool :=
  let ways := s.l1.filter fun l => l.core == core && l.line % 128 == line % 128
  if ways.length + leasedWays s core line < 8 then (s, true)
  else
    match l1Victim ways with
    | some v => (flushLine s core v.line, true)
    | none => (s, false)

/-- A release's first-level action by scope (R329); one at system scope waits for the writes to host memory too (R234). -/
def releaseScope (s : State) (core : Nat) (sco : Scope) : State :=
  match sco with
  | .none | .warp | .block => s
  | .system => drainEgress (releaseL1 s core)
  | _ => releaseL1 s core

/-- An acquire's first-level action by scope (R329). -/
def acquireScope (s : State) (core : Nat) (sco : Scope) : State :=
  match sco with
  | .none | .warp | .block => s
  | _ => acquireL1 s core

end Sys2Proof.Machine
end

