-- ==== Sys2Proof/Machine/Ops.lean ====
section
/-! DEFINITION. The named operations over warps: ending and killing (R110, R394), host escalation (R200), taking a
trap (R391, R393) and returning from one (R407), flags (R138, R139), flits (R359). -/

namespace Sys2Proof.Machine

/-! ## The end of a warp -/

/-- The quarter of a warp, as State.runs numbers it. -/
def quarterKey (x : Warp) : Nat := x.core * 4 + x.quarter

/-- The run of a warp ends, if it has one: the issue slot is free. -/
def clearFocus (s : State) (w : Nat) : State :=
  { s with focus := if s.focus.map (·.1) = some w then none else s.focus,
           runs := List.filter (fun r => r.2.1 != w) s.runs }

/-- The cards of a warp that is gone run on (R110, R289). -/
def orphanCards (s : State) (w : Nat) : State :=
  { s with cards := s.cards.mapVals fun _ c => if c.warp = w then { c with orphan := true, linked := false } else c }

/-- The cards of a warp that is killed fault without a report (R394). -/
def silenceCards (s : State) (w : Nat) : State :=
  { s with cards := s.cards.mapVals fun _ c => if c.warp = w ∧ c.orphan = false then { c with silent := true } else c }

/-- Host-fault records still held back for a warp that is saved name it as its block and number. One that has been written and that
the host has not answered stays the warp's own, whether DVSAVE saw it or not (R201). -/
def holdSaved (s : State) (w : Nat) : State :=
  let x := warpAt s w
  let who := (x.launch, (blockAt s x.block).linear, x.num)
  updCtx s x.ctx fun c =>
    { c with heldFaults := c.heldFaults.map fun (h : HeldFault) =>
               if h.warp = w ∧ h.saved.isNone = true then { h with saved := some who } else h,
             savedFaults := c.savedFaults ++ x.hostFault.toList.map fun q => (who, q) }

/-- Host-fault records still held back for a warp that is gone are dropped. -/
def dropHeld (s : State) (w : Nat) : State :=
  updCtx s (warpAt s w).ctx fun c => { c with heldFaults := c.heldFaults.filter fun h => h.warp != w || h.saved.isSome }

/-- The SEQs of a warp's host-fault records that the host has not answered. -/
def Warp.unanswered (x : Warp) : List Nat :=
  (x.hostFault.toList ++ x.table.splits.filterMap fun p =>
    match p.park with | some (.hostFault q) => some q | _ => none).eraseDups

/-- The warp is gone: its block counts it, its slot's state is no more. Its host-fault records still wait for the host
(R444). -/
def removeWarp (s : State) (w : Nat) (killed : Bool) : State :=
  let x := warpAt s w
  let s := clearFocus (orphanCards (dropHeld s w) w) w
  let s := updBlock s x.block fun b =>
    { b with ended := b.ended + 1, killed := b.killed || killed, owed := b.owed ++ x.unanswered }
  { s with warps := s.warps.del w }

/-- The warp's last lane has exited (R110): it withdraws from its barriers. -/
def endWarp (s : State) (w : Nat) : State := removeWarp (withdrawAll s w) w false

/-- A warp with no valid split, or no live lane, has ended (R102). -/
def endIfDone (s : State) (w : Nat) : State :=
  match s.warps.find? w with
  | some x => if (x.table.valid = [] ∨ x.live = 0) ∧ x.handler.isNone = true then endWarp s w else s
  | none => s

/-- The splits of a warp enter the headers they have reached; a warp without splits ends. -/
def settleWarp (s : State) (w : Nat) : State := endIfDone (updWarp s w Warp.settle) w

/-- Kills a warp (R394, R395): every lane ends at once, its barriers are abandoned, its pending writes go, its cards
run on. Unless the kill is a host termination (R70), a notification of kind 0 is written and the block counts for
NFAULT. -/
def killNow (s : State) (w : Nat) (fault : Word32) (addr : Word64) (aux : Word32) (note : Bool) : State :=
  match s.warps.find? w with
  | none => s
  | some x =>
    let n := warpNotice s w 0 fault.toNat addr.toNat aux.toNat
    let s := removeWarp (abandonAll (silenceCards s w) w) w note
    if note then notify s x.ctx n else s

/-- A kill of a warp that is being moved is applied after the move (R440), any other at once. -/
def killWarp (s : State) (w : Nat) (fault : Word32) (addr : Word64) (aux : Word32) (note : Bool) : State :=
  let x := warpAt s w
  if x.stopped && movingCore s x.core then
    { clearFocus s w with moves := s.moves.map fun m =>
        if m.logical = x.core then { m with kills := m.kills ++ [(w, fault, addr, aux, note)] } else m }
  else killNow s w fault addr aux note

/-! ## Host escalation (R200) -/

/-- The warp is parked under R200. -/
def Warp.hostParked (x : Warp) : Bool :=
  x.table.splits.any fun p => p.valid && (match p.park with | some (.hostFault _) | some .hostFaultHeld => true | _ => false)

/-- The host fault ring of a context is full. -/
def hostRingFull (c : Ctx) : Bool := (c.frhead - c.frtail).toNat == 2 ^ ringLog c.frlog

/-- A split of the table waits for a record that is held back. -/
def DivTable.held (t : DivTable) : Bool := t.splits.any fun p => p.park == some .hostFaultHeld

/-- The record is written: the split that waited for it, in the current table or in the preserved one, waits for its SEQ. -/
def Warp.reparkHeld (w : Warp) (seq : Nat) : Warp :=
  let f (p : Split) : Split := if p.park = some .hostFaultHeld then { p with park := some (.hostFault seq) } else p
  let g (t : DivTable) : DivTable := { t with splits := t.splits.map f }
  { w with table := g w.table, handler := w.handler.map fun h => { h with table := g h.table } }

/-- The bytes of a host fault record (R200). -/
def hostRecord (h : HeldFault) (seq : Nat) : List Byte :=
  leBytes 8 h.va.toNat ++
    leBytes 8 (packFields [(h.asid, 48), (h.slot / 64, 40), (h.slot % 64, 34), (h.kind, 32), (h.cause, 24), (seq, 0)]) ++
    leBytes 4 h.lanes.toNat ++ leBytes 12 0

/-- The host has not answered a record that a warp of the slot, saved or not, waits for. -/
def awaited (s : State) (slot seq : Nat) : Bool :=
  ((ctxOf s slot).savedFaults.any (·.2 == seq)) || s.warps.any fun (_, x) => x.ctx == slot && x.unanswered.contains seq

/-- Writes one host fault record, advances FRHEAD and notifies the host. The warp now waits for that SEQ, or will when it
is restored (R201). -/
def writeHostFault (s : State) (slot : Nat) (h : HeldFault) : State :=
  let c := ctxOf s slot
  let seq := c.frhead.toNat % 2 ^ 24
  let s := deviceWrite s (c.fring * 4096 + 32 * (c.frhead.toNat % 2 ^ ringLog c.frlog)) (hostRecord h seq)
  let asked := (c.asked.select fun q _ => awaited s slot q).put seq (hostRecord h seq)
  let s := notifyHost (updCtx s slot fun c => { c with frhead := c.frhead + 1, asked := asked })
  match h.saved with
  | some who => updCtx s slot fun c => { c with savedFaults := c.savedFaults ++ [(who, seq)] }
  | none =>
    updWarp s h.warp fun w =>
      let user := w.handler.isNone || w.hostHeld || w.handler.any (·.table.held)
      { w.reparkHeld seq with hostFault := if user then some seq else w.hostFault, hostHeld := false }

/-- Escalates a PAGE fault to the host: the warp parks at its word; while the ring is full the record is held. -/
def escalate (s : State) (w e : Nat) (va : Word64) (kind cause : Nat) (lanes : Lanes) : State :=
  let x := warpAt s w
  let h : HeldFault := { warp := w, va := va, kind := kind, cause := cause, lanes := lanes, asid := x.asid,
                         slot := x.core * 64 + x.quarter * 16 + x.slot, saved := none }
  let s := updSplit (clearFocus s w) w e fun p => { p with park := some .hostFaultHeld }
  if hostRingFull (ctxOf s x.ctx) then updCtx s x.ctx fun c => { c with heldFaults := c.heldFaults ++ [h] }
  else writeHostFault s x.ctx h

/-- Writes the records held back, in the order their faults were taken, while the ring has room. -/
def releaseHeld (s : State) (slot : Nat) : Nat → State
  | 0 => s
  | n + 1 =>
    let c := ctxOf s slot
    match c.heldFaults with
    | h :: rest =>
      if hostRingFull c then s
      else releaseHeld (writeHostFault (updCtx s slot fun c => { c with heldFaults := rest }) slot h) slot n
    | [] => s

/-- FRESUME of a record's SEQ (R201): the warps of the slot that wait for it become ready, and no block waits for it (R444). -/
def resumeHostFault (s : State) (slot seq : Nat) : State :=
  let f (p : Split) : Split := if p.park = some (.hostFault seq) then { p with park := none } else p
  let g (t : DivTable) : DivTable := { t with splits := t.splits.map f }
  { s with warps := s.warps.mapVals fun _ w =>
      if w.ctx = slot then
        { w with table := g w.table, handler := w.handler.map fun h => { h with table := g h.table },
                 hostFault := if w.hostFault = some seq then none else w.hostFault }
      else w,
           blocks := s.blocks.mapVals fun _ b =>
             if (launchAt s b.launch).asid = (ctxOf s slot).asid then { b with owed := b.owed.filter (· != seq) } else b }

/-! ## Taking a trap (R391, R393) and returning from one (R407) -/

/-- The handler's own start: entry 0 at the handler header; MASK is the reported lanes for PAGE with cause 1 or 2. -/
def handlerTable (hdr : Word64) (f : FaultInfo) : DivTable :=
  DivTable.start hdr (if f.name = .page ∧ (f.cause = 1 ∨ f.cause = 2) then f.lanes else allLanes)

/-- What R391 does to a warp that opens a handler. -/
def Warp.openHandler (x : Warp) (e : Nat) (f : FaultInfo) (r : Place) (entry : Word64) : Warp :=
  let kept := (x.setSplit e fun p =>
    { p with pc := r.pc, word := r.word.isSome, hdr := r.word.getD 0,
             entered := p.entered && r.word.isNone && !p.word && p.pc == r.pc }).table
  { x with
    handler := some { table := kept, flags := x.flags, tpc := r.pc, tword := r.word.isSome, thdr := r.word.getD 0,
                      tsplit := e, fault := f.word, bankV := [], bankS := [], cls := x.cls },
    table := handlerTable entry f, flags := 0, fault := f.word, faddr := f.addr, cls := 3, passed := x.passed,
    tcount := Nat.min (x.tcount + 1) (2 ^ 32 - 1), backoff := false }

/-- Takes a trap of a split of a warp, to resume at r (R391): with no handler installed, or inside a handler, the
warp is killed. -/
def takeTrap (s : State) (w e : Nat) (f : FaultInfo) (r : Place) : State :=
  let x := warpAt s w
  let c := ctxOf s x.ctx
  match x.handler with
  | some h => killWarp s w f.word f.lowAddr h.fault true
  | none =>
    if c.hvalid = false then killWarp s w f.word f.lowAddr 0 true
    else settleWarp (clearFocus (updWarp s w fun x => x.openHandler e f r c.handler) w) w

/-- Where a split stands: its PC, and the header of its block when that is a word. -/
def Split.place (p : Split) : Place := ⟨p.pc, if p.word then some p.hdr else Option.none⟩

/-- What TRET reinstates of a split: its block is fetched again, and a word it parked at is examined again. -/
def Split.reinstate (p : Split) : Split :=
  { p with blk := Option.none, wk := 0,
           park := match p.park with
             | some (.hostFault q) => some (.hostFault q)
             | some .hostFaultHeld => some .hostFaultHeld
             | some (.landing k) => some (.landing k)
             | _ => Option.none }

/-- The preserved state of R391 comes back as the handler has left it (R407). A TSPLIT that names an invalid entry
resumes every entry at its own PC. A host-fault record that still waits parks the resumed split (R201). -/
def Warp.closeHandler (x : Warp) (h : Handler) : Warp :=
  let t := { h.table with splits := h.table.splits.map Split.reinstate }
  let e := h.tsplit
  let p := t.splits.getD e .none
  let t := if p.valid then
      t.setSplit e fun p =>
        { p with pc := h.tpc, word := h.tword, hdr := if h.tword then h.thdr else 0,
                 entered := p.entered && !h.tword && !p.word && p.pc == h.tpc }
    else t
  let first := if p.valid then e else t.valid.headD 0
  let t := match x.hostFault with
    | some q => t.setSplit first fun p => { p with park := some (.hostFault q) }
    | none => if x.hostHeld then t.setSplit first fun p => { p with park := some .hostFaultHeld } else t
  { x with table := t, handler := none, flags := h.flags, cls := h.cls }

/-- TRET's return (R407): with no valid entry in the preserved table every lane ends as by EXIT. -/
def returnFromTrap (s : State) (w : Nat) : State :=
  match (warpAt s w).handler with
  | none => s
  | some h => settleWarp (clearFocus (updWarp s w fun x => x.closeHandler h) w) w

/-! ## Flags -/

/-- The flags of a result that are enabled in FLAGS: enables in 23:16, none for ABANDONED (R137, R138). -/
def enabledFlags (flags : Word32) (raised : Nat) : Nat :=
  (List.range 8).foldl (fun n i => if bitOf raised i && flags.getLsbD (16 + i) then n + 2 ^ i else n) 0

/-- ORs flags into a FLAGS value. -/
def orFlags (flags : Word32) (raised : Nat) : Word32 := flags ||| BitVec.ofNat 32 (raised % 512)

/-- Merges the flags of a word into the FLAGS that it updates: a handler's words its own, other words the warp's,
preserved while a handler runs (R138, R391). -/
def Warp.mergeFlags (w : Warp) (byHandler : Bool) (raised : Nat) : Warp :=
  match w.handler with
  | some h =>
    if byHandler then { w with flags := orFlags w.flags raised }
    else { w with handler := some { h with flags := orFlags h.flags raised } }
  | none => if byHandler then w else { w with flags := orFlags w.flags raised }

/-- The FLAGS value that user words of the warp update. -/
def Warp.userFlags (w : Warp) : Word32 := match w.handler with | some h => h.flags | none => w.flags

/-! ## Pending writes -/

/-- Adds a pending write of a word. -/
def Warp.addPending (w : Warp) (p : Pending) : Warp := { w with pend := w.pend ++ [p] }

/-- A pending write of register destinations with nothing else to record. -/
def plainPending (s : State) (w e : Nat) (dests : List PDest) : Pending :=
  { split := e, handler := (warpAt s w).handler.isSome, stamp := s.seq, dests := dests, flags := 0, grade := none,
    fault := none, ldg := none, pc := ((warpAt s w).splitAt e).pc, mtgt := (warpAt s w).mtgt }

/-- Adds a pending write to a warp. -/
def addLater (s : State) (w : Nat) (p : Pending) : State := { updWarp s w (·.addPending p) with seq := s.seq + 1 }

/-- A word's results land later (R95). -/
def later (s : State) (w e : Nat) (dests : List PDest) : State :=
  addLater s w (plainPending s w e dests)

/-! ## Flits (R359, R360, R374 to R377) -/

/-- The channel from a warp to a block slot's receive queue. -/
def chanTo (s : State) (w core slot : Nat) : Option (Nat × Chan) :=
  s.chans.first fun _ c => c.sender == w && c.core == core && c.slot == slot && c.launch == (warpAt s w).launch

/-- The target of MTGT: core and slot (R374). -/
def mtgtOf (m : Word32) : Nat × Nat := (m.toNat / 16 % 256, m.toNat % 16)

/-- The replay window to MTGT's queue is full (R224). -/
def windowFull (s : State) (w : Nat) (mtgt : Word32) : Option Nat :=
  let (core, slot) := mtgtOf mtgt
  match chanTo s w core slot with
  | some (k, c) => if c.window.length ≥ 16 then some k else none
  | none => none

/-- The scope at which a send is a release and a take an acquire: the narrowest of block, cluster, die and device
whose instance holds both blocks (R337). -/
def flitScope (s : State) (w core slot : Nat) : Scope :=
  let x := warpAt s w
  let b := x.block
  let t := core * 16 + slot
  let l := launchOf s w
  if t = b then .block
  else if (blockAt s t).launch = x.launch ∧ l.clusterOf (blockAt s t).linear = l.clusterOf (blockAt s b).linear then .cluster
  else if coreDie core = coreDie x.core then .die
  else .device

/-- The identity word of a packet of a context (R230): CLASS 0, request. -/
def identWord (s : State) (slot asid : Nat) (cls seq : Nat) : Word64 :=
  BitVec.ofNat 64 (packFields [(asid, 48), ((ctxOf s slot).gen.toNat, 32), (slot, 26), (cls, 24), (seq, 12)])

/-- Sends one flit to the block that MTGT names (R359): a release at the flit's scope, then an entry of the replay
window. -/
def sendFlit (s : State) (w : Nat) (mtgt : Word32) (flit : Word64) : State :=
  let x := warpAt s w
  let (core, slot) := mtgtOf mtgt
  let sco := flitScope s w core slot
  let s := releaseScope s x.core sco
  let (s, k, c) : State × Nat × Chan := match chanTo s w core slot with
    | some (k, c) => (s, k, c)
    | none =>
      ({ s with nextId := s.nextId + 1 }, s.nextId,
        { core := core, slot := slot, launch := x.launch, sender := w, nextSeq := 0, expect := 0, window := [], wait := none,
          probing := false, steps := 0, escape := false, place := portOf s x.core, turn := s.seq })
  let (s, e) := sendEntry s c.links
    { seq := c.nextSeq, ident := identWord s x.ctx x.asid 0 c.nextSeq.toNat, payload := flit, near := sco == .block, tries := 0,
      flips := [], lost := false, seen := none, via := chooseVia s (c.port s) (c.target s) }
  { s with chans := s.chans.put k { c with nextSeq := c.nextSeq + 1, window := c.window ++ [e] } }

/-- What a take gives (R375, R376). -/
inductive Take where
  | taken (s : State)
  | empty
  /-- the flit came damaged (R226), or the queue row is GRADE 3: the flit is gone and the word raises GRADE -/
  | bad (s : State)
  deriving DecidableEq, Repr

/-- The queue row of a block's flits (R250): where a flit stands among its queue's rows is not stated, and one row of on-chip
array 5 stands for them all (DESIGN CHOICE, log 42). -/
def flitRow (b : Nat) : Nat := chipRow 5 b

/-- Takes the flit at the head of the warp's receive queue into S62 and S63: an acquire at the flit's scope, block or wider
(R337). A flit that QLOAD brought back no longer tells its sender: it acquires as a wider one (DEDUCED, log 20). -/
def takeFlit (s : State) (w : Nat) : Take :=
  let b := (warpAt s w).block
  match (blockAt s b).rq with
  | [] => .empty
  | f :: rest =>
    let bad := f.bad || rowBad s (flitRow b)
    let s := noteRow (updBlock s b fun x => { x with rq := rest }) (flitRow b)
    if bad then .bad s
    else
      let s := updWarp s w fun x => { (x.setRawS 62 (loWord f.word)).setRawS 63 (hiWord f.word) with taken := some f }
      .taken (if f.near then s else acquireScope s (warpAt s w).core .device)

end Sys2Proof.Machine
end

