-- ==== Sys2Proof/Machine/Flags.lean ====
section
/-! DEFINITION. FLAGS (R137): the flag bits, the writable fields, the reset value from NUMEN, and the GRADE
register (R249). -/

namespace Sys2Proof.Machine

/-- Flag bits of FLAGS (R137), as numbers that words raise. -/
def fIV : Nat := 1
def fDZ : Nat := 2
def fOF : Nat := 4
def fUF : Nat := 8
def fNX : Nat := 16
def fSAT : Nat := 32
def fTAIL : Nat := 64
def fABSENT : Nat := 128
def fABANDONED : Nat := 256

/-- A flag's bit when a condition holds. -/
def flagIf (c : Bool) (f : Nat) : Nat := if c then f else 0

/-- The union of two sets of flags. -/
def joinFlags (a b : Nat) : Nat := Nat.lor a b

/-- The flags that a function of the lane raises over the lanes of a mask (R138: other lanes raise nothing). -/
def laneFlags (g : Lanes) (f : Nat → Nat) : Nat := (lanesOf g).foldl (fun n l => joinFlags n (f l)) 0

/-- The bits of FLAGS that SETS writes: 23:16 and 8:0 (R137). -/
def flagsWritable : Word32 := 0x00FF01FF#32

/-- What a write of FLAGS leaves: reserved bits are discarded. -/
def writeFlags (x : Word32) : Word32 := x &&& flagsWritable

/-- FLAGS when a warp starts (R25, R137): enables from NUMEN[11:4] in reverse order, everything else zero. -/
def startFlags (numen : Nat) : Word32 :=
  BitVec.ofNat 32 ((List.range 8).foldl (fun n i => n + b2n (bitOf numen (11 - i)) * 2 ^ (16 + i)) 0)

/-- Records a graded outcome in a warp's GRADE register (R249). -/
def recordGrade (s : State) (w : Nat) (g : Word32) : State := updWarp s w fun x => { x with grade := g }

/-- A fault of some lanes for which R393 states no address: FADDR of those lanes is a free value (log 8). -/
def noAddress (s : State) (name : FaultName) (cause info : Nat) (lanes : Lanes) : State × FaultInfo :=
  let (f, s) := freshWord s
  (s, FaultInfo.perLane name cause info lanes fun _ => f)

end Sys2Proof.Machine
end

