-- ==== Sys2Proof/Machine/Operands.lean ====
section
/-! DEFINITION. Operand forms of the A format: source values by kind and type (R82, R83, R85), destinations (R84),
and the registers that a word names (R95). -/

namespace Sys2Proof.Machine

/-! ## Immediates (R85) -/

/-- A 32-bit value as an operand. -/
def wide (x : Word32) : Word64 := x.setWidth 64

/-- An integer of at most eight magnitude bits as a binary floating-point value with eb exponent bits and mb
fraction bits: exact in every format of the manual. -/
def smallFloat (eb mb : Nat) (i : BitVec 8) : Nat :=
  let v := i.toInt
  let m := v.natAbs
  if m = 0 then 0
  else
    let k := Nat.log2 m
    b2n (decide (v < 0)) * 2 ^ (eb + mb) + (k + 2 ^ (eb - 1) - 1) * 2 ^ mb + (m - 2 ^ k) * 2 ^ mb / 2 ^ k

/-- One element value in each of the two halves of a word. -/
def twice (x : Nat) : Word64 := BitVec.ofNat 64 (x % 2 ^ 16 + x % 2 ^ 16 * 2 ^ 16)

/-- The value of a kind-10 immediate under a type (R85). -/
def immValue (ty : Ty) (i : BitVec 8) : Word64 :=
  match ty with
  | .b32 | .i32 | .n32 => wide (i.signExtend 32)
  | .i64 | .n64 => i.signExtend 64
  | .f32 => BitVec.ofNat 64 (smallFloat 8 23 i)
  | .f64 => BitVec.ofNat 64 (smallFloat 11 52 i)
  | .i16x2 | .n16x2 => twice (i.signExtend 16).toNat
  | .bf16x2 => twice (smallFloat 8 7 i)
  | .f16x2 => twice (smallFloat 5 10 i)
  | .i8x4 | .n8x4 => BitVec.ofNat 64 (i.toNat * 0x01010101)

/-- The value of a literal word under a type (R85). -/
def litValue (ty : Ty) (w : Word64) : Word64 := if ty.is64 then w else wide (loWord w)

/-! ## Sources -/

/-- A V register or W pair of one lane. -/
def Warp.laneV (w : Warp) (is64 : Bool) (n l : Nat) : Word64 :=
  if is64 then pairWord ((w.getV n).lane l) ((w.getV (n + 1)).lane l) else wide ((w.getV n).lane l)

/-- An S register or T pair. -/
def Warp.uniS (w : Warp) (is64 : Bool) (n : Nat) : Word64 :=
  if is64 then pairWord (w.getS n) (w.getS (n + 1)) else wide (w.getS n)

/-- A T pair. -/
def Warp.getT (w : Warp) (n : Nat) : Word64 := w.uniS true n

/-- The value that a source gives a lane, under the type of the operand (R82, R83, R85). -/
def Warp.src (w : Warp) (ty : Ty) (x : Src) (l : Nat) : Word64 :=
  match x with
  | .v n => w.laneV ty.is64 n.val l
  | .s n => w.uniS ty.is64 n.val
  | .imm i => immValue ty i
  | .lit k => litValue ty k

/-! ## Destinations (R84) -/

/-- Writes a per-lane result: an S destination receives the value of the lowest lane that takes part. -/
def Warp.dst (w : Warp) (is64 : Bool) (d : Dst) (g : Lanes) (f : Nat → Word64) : Warp :=
  match d with
  | .v n =>
    let w1 := w.putV n.val g fun l => loWord (f l)
    if is64 then w1.putV (n.val + 1) g fun l => hiWord (f l) else w1
  | .s n =>
    match lowestLane g with
    | none => w
    | some l =>
      let w1 := w.putS n.val (loWord (f l))
      if is64 then w1.putS (n.val + 1) (hiWord (f l)) else w1
  | .p n => w.putP n.val g (laneMask fun l => f l != 0)

/-! ## The registers that operands name -/

/-- A V register or the registers of a pair. -/
def vRegs (is64 : Bool) (n : Nat) : List Reg := if is64 then [.v n, .v (n + 1)] else [.v n]

/-- Four V registers of a quad. -/
def vQuad (n : Nat) : List Reg := [.v n, .v (n + 1), .v (n + 2), .v (n + 3)]

/-- An S register or the registers of a T pair. -/
def sRegs (is64 : Bool) (n : Nat) : List Reg := if is64 then [.s n, .s (n + 1)] else [.s n]

/-- A predicate; P7 has no pending bit (R96). -/
def pRegs (n : Nat) : List Reg := if n = 7 then [] else [.p n]

def srcRegs (is64 : Bool) : Src → List Reg
  | .v n => vRegs is64 n.val
  | .s n => sRegs is64 n.val
  | .imm _ | .lit _ => []

def dstRegs (is64 : Bool) : Dst → List Reg
  | .v n => vRegs is64 n.val
  | .s n => sRegs is64 n.val
  | .p n => pRegs n.val

end Sys2Proof.Machine
end

