-- ==== Sys2Proof/Machine/Issue.lean ====
section
/-! DEFINITION. The issue of one word by the split that holds the issue slot: what every word shares (R79, R83, R91
to R96, R108, R138, R375 to R377, R388, R389, R391). Each instruction's own effect is a body given to issue. -/

namespace Sys2Proof.Machine

/-! ## The issuer -/

/-- The split that holds the issue slot, its block fetched. -/
structure Issuer where
  w : Nat
  e : Nat
  x : Warp
  p : Split
  b : Fetched
  deriving DecidableEq, Repr

/-- Who issues: focus names a valid split that has fetched its block. -/
def issuer (s : State) : Option Issuer :=
  match s.focus with
  | none => none
  | some (w, e) =>
    match s.warps.find? w with
    | none => none
    | some x =>
      let p := x.splitAt e
      match p.valid, p.blk with
      | true, some b => some { w := w, e := e, x := x, p := p, b := b }
      | _, _ => none

/-- What decode knows of a word. Register numbers are those that the word names. -/
structure WordSpec where
  opc : Nat
  guard : Guard
  /-- a literal word follows (R82) -/
  lit : Bool := false
  reads : List Reg := []
  writes : List Reg := []
  /-- a transfer of R77 -/
  transfer : Bool := false
  /-- the body acts even when G is empty -/
  always : Bool := false
  /-- a cross-lane operation: in a handler G is all 32 lanes (R123) -/
  cross : Bool := false
  /-- PRIV in user mode (R404) -/
  sys : Bool := false
  /-- ILLEGAL in a handler (R391) -/
  noHandler : Bool := false
  /-- ILLEGAL in a callee warp (R66, R310) -/
  noCallee : Bool := false
  /-- ends the cleanness of an idempotent region (R398) -/
  unclean : Bool := false
  /-- a fence, or a release: it follows the warp's earlier group loads, whose members are read as they land (R267, R333) -/
  orders : Bool := false
  deriving DecidableEq, Repr

/-- How a body ends. -/
inductive WordEnd where
  /-- the word completes, raising these flags -/
  | done (s : State) (raised : Nat)
  /-- the word completes without the writes of registers that it names: it sends no flit (R375) -/
  | unwritten (s : State)
  /-- the word completes and the run ends after it (R109) -/
  | yield (s : State)
  /-- the word completes; the split waits at the following word for this -/
  | doneWait (s : State) (wait : Park)
  /-- a transfer: the body has sent the split on, or the warp is gone -/
  | moved (s : State)
  /-- a transfer that raises these flags, with the place to which it goes -/
  | movedRaising (s : State) (raised : Nat) (dest : Place)
  /-- the body has ended the run itself: the warp has left the word (R394, R407) -/
  | left (s : State)
  /-- the word parks and takes no effect (R95) -/
  | park (s : State) (cause : Park)
  /-- a fault at the word (R388) -/
  | trap (s : State) (f : FaultInfo)
  /-- a PAGE fault that goes to the host, with its KIND (R200) -/
  | host (s : State) (f : FaultInfo) (kind : Nat)
  /-- the word completes and traps, to resume at the following word -/
  | trapNext (s : State) (f : FaultInfo)
  /-- the word completes and traps, to resume at the fall-through header (R111) -/
  | trapFall (s : State) (f : FaultInfo)
  deriving DecidableEq, Repr

/-! ## Where the word stands -/

/-- Words that an instruction word takes with its literal. -/
def WordSpec.span (ws : WordSpec) : Nat := if ws.lit then 2 else 1

/-- The word's position in its block, 1 to LEN. -/
def Issuer.pos (i : Issuer) : Nat := (i.p.pc - i.b.hdrAt).toNat / 8

/-- LEN of the block. -/
def Issuer.len (i : Issuer) : Nat := (HFmt.ofWord i.b.header).len.toNat

/-- It is the last instruction word of its block (R77). -/
def Issuer.last (i : Issuer) (ws : WordSpec) : Bool := decide (i.len ≤ i.pos + ws.span - 1)

/-- The header that follows the block (R77). -/
def Issuer.fall (i : Issuer) : Word64 := fallThrough i.b.hdrAt i.b.header

/-- The place after the word. -/
def Issuer.after (i : Issuer) (ws : WordSpec) : Place :=
  if i.last ws then ⟨i.fall, none⟩ else ⟨i.p.pc + 8 * BitVec.ofNat 64 ws.span, some i.b.hdrAt⟩

/-- The word itself as a place. -/
def Issuer.here (i : Issuer) : Place := ⟨i.p.pc, some i.b.hdrAt⟩

/-! ## Decode checks that need the warp -/

/-- A V register at or above the allotment; the handler bank needs none (R83, R391). -/
def Warp.beyond (x : Warp) (r : Reg) : Bool :=
  match r with
  | .v n => decide (x.allot ≤ n) && !(x.handler.isSome && decide (248 ≤ n) && decide (n < 256))
  | _ => false

/-- ILLEGAL at the word: its place (R77), the allotment (R83), the mode (R391), a callee warp. -/
def Issuer.illegal (i : Issuer) (ws : WordSpec) : Bool :=
  (ws.transfer && !i.last ws) || (ws.lit && decide (i.len ≤ i.pos)) || (ws.reads ++ ws.writes).any i.x.beyond ||
    (ws.noHandler && i.x.handler.isSome) || (ws.noCallee && i.x.isCallee)

/-- The scoreboard name of a register. -/
def Warp.regOf (x : Warp) : Reg → Reg
  | .v n => .v (x.regV n)
  | .s n => .s (x.regS n)
  | .p n => .p n

/-- Every register that a word reads or writes, its guard among them, by scoreboard name. -/
def Issuer.named (i : Issuer) (ws : WordSpec) : List Reg :=
  (pRegs ws.guard.p.val ++ ws.reads ++ ws.writes).map i.x.regOf

/-- G of the word (R108, R123). -/
def Issuer.lanes (i : Issuer) (ws : WordSpec) : Lanes :=
  if ws.cross && i.x.handler.isSome then allLanes else i.x.taking i.e ws.guard

/-! ## The signature (R91, R92) -/

/-- The fold of one word. -/
def foldSig (sig : BitVec 16) (opc : Nat) : BitVec 16 := sig.rotateLeft 3 ^^^ BitVec.ofNat 16 opc

/-- The signature after the word; a handler does not fold. -/
def Issuer.sig (i : Issuer) (ws : WordSpec) : BitVec 16 :=
  if i.x.handler.isSome then i.p.sig else foldSig i.p.sig ws.opc

/-- The check of R92 fails. A handler's words fold no register, and its blocks are not checked (DESIGN CHOICE, log 102). -/
def Issuer.sigBad (i : Issuer) (ws : WordSpec) : Bool :=
  let h := HFmt.ofWord i.b.header
  i.last ws && h.sigen == 1#1 && i.x.handler.isNone && i.sig ws != h.sig

/-! ## Register file rows (R250) -/

/-- The rows of the register file that hold a register of a warp: lanes 0-15 and 16-31 of a V register. -/
def regRow (w : Nat) (r : Reg) (half : Nat) : Nat :=
  match r with
  | .v n => chipRow 1 ((w * 512 + n) * 2 + half)
  | .s n => chipRow 1 (2 ^ 40 + w * 32 + n / 16)
  | .p _ => chipRow 1 (2 ^ 41 + w)

/-- Lanes 0 to 15 or 16 to 31. -/
def halfLanes (half : Nat) : Lanes := if half = 0 then 0x0000FFFF#32 else 0xFFFF0000#32

/-- The lanes of G that consume a GRADE 3 row of the register file. -/
def badRegLanes (s : State) (w : Nat) (g : Lanes) (rs : List Reg) : Lanes :=
  if chipsClean s then 0
  else rs.foldl (fun m r =>
    match r with
    | .v _ =>
      let m := if rowBad s (regRow w r 0) then m ||| (g &&& halfLanes 0) else m
      if rowBad s (regRow w r 1) then m ||| (g &&& halfLanes 1) else m
    | _ => if rowBad s (regRow w r 0) then m ||| g else m) 0

/-- A row of a V register that is written whole is good again. -/
def cleanRegRows (s : State) (w : Nat) (g : Lanes) (rs : List Reg) : State :=
  let whole (r : Reg) (row : Nat) : Bool :=
    match r with
    | .v _ => (row == regRow w r 0 && g &&& halfLanes 0 == halfLanes 0) ||
              (row == regRow w r 1 && g &&& halfLanes 1 == halfLanes 1)
    | _ => false
  cleanRows s fun row => rs.any fun r => whole r row

/-- The word meets the errors of the register rows that it reads (R251, R252). -/
def noteRegs (s : State) (w : Nat) (rs : List Reg) : State :=
  if chipsClean s then s
  else (rs.flatMap fun r => match r with
    | .v _ => [regRow w r 0, regRow w r 1]
    | _ => [regRow w r 0]).eraseDups.foldl noteRow s

/-! ## The end of a run (R93) -/

/-- A pending write loses its destinations among the V registers from n on. -/
def cutBeyond (n : Nat) (p : Pending) : Pending :=
  { p with dests := p.dests.filter fun d => match d with | .v r _ _ => decide (r < n ∨ 256 ≤ r) | _ => true }

/-- A warp's registers and allotment when a run of it ends: the allotment of ROLE comes into force (R106). A load to a register
that it takes away, issued by a later word of ROLE's run, has nowhere to land (DEDUCED, log 58). -/
def Warp.runEnds (x : Warp) (e stamp : Nat) : Warp :=
  let stamped (p : Split) : Split := if p.fresh then { p with lastRun := stamp, fresh := false } else p
  let x := { x with table := { x.table with splits := x.table.splits.map stamped } }
  let x := { x.setSplit e (fun p => { p with lastRun := stamp }) with lastRun := stamp }
  match x.nextAllot with
  | none => x
  | some n =>
    { x with allot := n, nextAllot := none, v := x.v.filter fun r => decide (r.1 < n), pend := x.pend.map (cutBeyond n),
             deferred := x.deferred.map (cutBeyond n) }

/-- The run ends: the issue slot is free. -/
def endRun (s : State) (w e : Nat) : State :=
  clearFocus { updWarp s w (·.runEnds e s.seq) with seq := s.seq + 1 } w

/-! ## How a word ends -/

/-- The word takes no effect: its split keeps its place and its signature. -/
def Issuer.undo (i : Issuer) (s : State) : State := updSplit s i.w i.e fun p => { p with sig := i.p.sig }

/-- The word is done: its split stands after it. A word that is not the last leaves the run going. -/
def Issuer.advance (i : Issuer) (ws : WordSpec) (s : State) : State :=
  if i.last ws then settleWarp (endRun (updSplit s i.w i.e fun p => p.goTo (i.after ws)) i.w i.e) i.w
  else updSplit s i.w i.e fun p => { p with pc := (i.after ws).pc }

/-- The region of R398 becomes unclean. -/
def soilRegion (s : State) (w : Nat) : State :=
  updWarp s w fun x => { x with region := x.region.map fun r => { r with clean := false } }

/-- The word sends a flit when it completes (R375): it writes S61 at issue, with some lane taking part. -/
def Issuer.sends (i : Issuer) (ws : WordSpec) (g : Lanes) : Bool :=
  i.x.msgActive && g != 0 && ws.writes.contains (.s 61)

/-- The word takes a flit (R375). -/
def Issuer.takes (i : Issuer) (ws : WordSpec) (g : Lanes) : Bool :=
  i.x.msgActive && g != 0 && ws.reads.contains (.s 62)

/-- The word has taken a flit or acts against the region of R398. -/
def Issuer.soils (i : Issuer) (ws : WordSpec) (g : Lanes) (s : State) : State :=
  if g != 0 && (ws.unclean || i.takes ws g) then soilRegion s i.w else s

/-- What completing adds: the flit of R375, unless the write of S61 lands later; region; register rows. -/
def Issuer.complete (i : Issuer) (ws : WordSpec) (g : Lanes) (s : State) : State :=
  let s := cleanRegRows s i.w g (ws.writes.map i.x.regOf)
  let s := if i.sends ws g && !((warpAt s i.w).pendingRegs.contains (.s 61)) then
      (let x := warpAt s i.w; sendFlit s i.w i.x.mtgt (pairWord (x.getS 60) (x.getS 61)))
    else s
  if g != 0 && (ws.unclean || i.sends ws g || i.takes ws g) then soilRegion s i.w else s

/-- A fault with the address of the word. -/
def Issuer.fault (i : Issuer) (name : FaultName) (cause info : Nat) : FaultInfo :=
  FaultInfo.uniform name cause info i.p.pc

/-- Takes a trap at the word: it has had no effect. -/
def Issuer.trapHere (i : Issuer) (s : State) (f : FaultInfo) : State :=
  takeTrap (endRun (i.undo s) i.w i.e) i.w i.e f i.here

/-- The word parks its split (R95). -/
def Issuer.parkHere (i : Issuer) (s : State) (c : Park) : State :=
  endRun (updSplit (i.undo s) i.w i.e fun p => { p with park := some c }) i.w i.e

/-- A word that parks has had no effect (R95): the flit that it took stands at the head of its queue again, and S62 and S63 are as
they were. -/
def Issuer.giveBack (i : Issuer) (ws : WordSpec) (g : Lanes) (s : State) : State :=
  match i.takes ws g, (warpAt s i.w).taken with
  | true, some f =>
    let s := updBlock s i.x.block fun b => { b with rq := f :: b.rq }
    updWarp s i.w fun x => { (x.setRawS 62 (i.x.rawS 62)).setRawS 63 (i.x.rawS 63) with taken := none }
  | _, _ => s

/-- The flags of a completed word reach FLAGS; an enabled one raises NUMERIC, never in a handler (R138, R391). -/
def Issuer.raise (i : Issuer) (ws : WordSpec) (s : State) (raised : Nat) : State :=
  if raised = 0 then i.advance ws s
  else
    let s := updWarp s i.w fun x => { x with flags := orFlags x.flags raised }
    let hot := enabledFlags (warpAt s i.w).flags raised
    if hot = 0 ∨ i.x.handler.isSome = true then i.advance ws s
    else takeTrap (endRun s i.w i.e) i.w i.e (i.fault .numeric 0 hot) (i.after ws)

/-- Carries out how a body ended. -/
def Issuer.conclude (i : Issuer) (ws : WordSpec) (g : Lanes) (r : WordEnd) : State :=
  match r with
  | .done s raised => i.raise ws (i.complete ws g s) raised
  | .unwritten s => i.advance ws (i.soils ws g s)
  | .yield s =>
    settleWarp (endRun (updSplit (i.complete ws g s) i.w i.e fun p =>
      if i.last ws then p.goTo (i.after ws) else { p with pc := (i.after ws).pc }) i.w i.e) i.w
  | .doneWait s wait =>
    let s := i.complete ws g s
    let s := endRun (updSplit s i.w i.e fun p =>
      if i.last ws then p.goTo (i.after ws) else { p with pc := (i.after ws).pc }) i.w i.e
    updSplit s i.w i.e fun p => { p with park := some wait }
  | .moved s => settleWarp (endRun (i.complete ws g s) i.w i.e) i.w
  | .movedRaising s raised dest =>
    let s := updWarp (endRun (i.complete ws g s) i.w i.e) i.w fun x => { x with flags := orFlags x.flags raised }
    let hot := enabledFlags (warpAt s i.w).flags raised
    if hot = 0 ∨ i.x.handler.isSome = true then settleWarp s i.w
    else takeTrap s i.w i.e (i.fault .numeric 0 hot) dest
  | .left s => s
  | .park s c => i.parkHere (i.giveBack ws g s) c
  | .trap s f => i.trapHere s f
  | .host s f kind =>
    escalate (endRun (i.undo s) i.w i.e) i.w i.e f.lowAddr kind f.cause
      (if f.lanes = allLanes then i.x.active i.e else f.lanes)
  | .trapNext s f => takeTrap (endRun (i.complete ws g s) i.w i.e) i.w i.e f (i.after ws)
  | .trapFall s f => takeTrap (endRun (i.complete ws g s) i.w i.e) i.w i.e f ⟨i.fall, none⟩

/-! ## The issue of a word -/

/-- Readers of a block's receive queue that parked before this stamp (R376). -/
def earlierReaders (s : State) (b since : Nat) : Nat :=
  (s.warps.map fun (_, x) =>
    if x.block = b ∧ x.handler.isNone = true then
      (x.table.splits.filter fun p =>
        match p.park with
        | some (.flit k) => p.valid && decide (k < since)
        | _ => false).length
    else 0).foldl (· + ·) 0

/-- Since when the issuing split has waited for a flit. -/
def Issuer.since (i : Issuer) (s : State) : Nat :=
  match i.p.park with
  | some (.flit k) => k
  | _ => s.seq

/-- The registers whose rows the word consumes, its guard among them, by scoreboard name. -/
def Issuer.consumed (i : Issuer) (ws : WordSpec) : List Reg := (pRegs ws.guard.p.val ++ ws.reads).map i.x.regOf

/-- The lanes at which the word would consume a GRADE 3 row of the register file (R246, R250): every active lane reads the
guard. -/
def Issuer.poisoned (i : Issuer) (ws : WordSpec) (s : State) : Lanes :=
  let rs := ws.reads.map i.x.regOf
  badRegLanes s i.w (i.x.active i.e) ((pRegs ws.guard.p.val).map i.x.regOf) |||
    (if ws.cross && badRegLanes s i.w allLanes rs != 0 then i.lanes ws else badRegLanes s i.w (i.lanes ws) rs)

/-- A body ends with a fault that comes before GRADE, in a lane whose registers can be read (R389). A lane whose registers cannot
has no address to examine (DEDUCED, log 43). -/
def WordEnd.beforeGrade (bad : Lanes) : WordEnd → Bool
  | .trap _ f => [FaultName.aperture, .misalign, .prot, .page, .watch].contains f.name && f.lanes &&& ~~~bad != 0
  | .host _ f _ => f.lanes &&& ~~~bad != 0
  | _ => false

/-- The word's own effect, with its split's signature folded and its park ended. -/
def Issuer.act (i : Issuer) (ws : WordSpec) (body : State → Issuer → Lanes → WordEnd) (g : Lanes) (s : State) : State :=
  let bad := i.poisoned ws s
  let s := updSplit (noteRegs s i.w (i.consumed ws)) i.w i.e fun p => { p with sig := i.sig ws, park := none }
  let r := if g = 0 ∧ ws.always = false then .done s 0 else body s { i with x := warpAt s i.w } g
  if bad ≠ 0 ∧ r.beforeGrade bad = false then
    let gw := gradeWord 4 0 3
    let (s, f) := noAddress (recordGrade s i.w gw) .grade 3 (gw.toNat / 2 ^ 16) bad
    i.trapHere s f
  else i.conclude ws g r

/-- The word takes its flit, if it reads S62 under MSG, and then acts (R375, R376). -/
def Issuer.takeAndAct (i : Issuer) (ws : WordSpec) (body : State → Issuer → Lanes → WordEnd) (g : Lanes) (s : State) :
    State :=
  if i.takes ws g then
    let b := i.x.block
    let since := i.since s
    if (blockAt s b).rq.length ≤ earlierReaders s b since then
      i.parkHere { s with seq := s.seq + 1 } (.flit since)
    else
      match takeFlit s i.w with
      | .taken s => i.act ws body g s
      | .empty => i.parkHere { s with seq := s.seq + 1 } (.flit since)
      | .bad s =>
        let gw := gradeWord 5 0 3
        let (s, f) := noAddress (recordGrade s i.w gw) .grade 3 (gw.toNat / 2 ^ 16) g
        i.trapHere s f
  else i.act ws body g s

/-- The destinations of the warp's group loads whose members have not been read yet. -/
def Warp.groupPending (x : Warp) : List Reg :=
  x.pend.flatMap fun p => if p.ldg.isSome then p.dests.map PDest.reg else []

/-- The registers that the word waits for: those that it names, and those of group loads that it must follow. -/
def Issuer.awaited (i : Issuer) (ws : WordSpec) (g : Lanes) : List Reg :=
  i.x.waitsOn (i.named ws) ++ (if g ≠ 0 ∧ (ws.orders || i.sends ws g) = true then i.x.groupPending else [])

/-- One word, for the split that holds the issue slot. -/
def Issuer.run (i : Issuer) (ws : WordSpec) (body : State → Issuer → Lanes → WordEnd) (s : State) : State :=
  let g := i.lanes ws
  let waits := i.awaited ws g
  if i.illegal ws then i.trapHere s (i.fault .illegal 0 0)
  else if ws.sys && i.x.handler.isNone then i.trapHere s (i.fault .priv 0 0)
  else if waits ≠ [] then i.parkHere s (.pending waits)
  else if i.sends ws g && (windowFull s i.w i.x.mtgt).isSome then
    i.parkHere s (.request ((windowFull s i.w i.x.mtgt).getD 0))
  else if i.sigBad ws then i.trapHere s (i.fault .signature 0 (i.sig ws).toNat)
  else i.takeAndAct ws body g s

/-- The issue of a word (R93 to R96): a next state always, when some split holds the issue slot. -/
def issue (ws : WordSpec) (body : State → Issuer → Lanes → WordEnd) (s : State) : Host.Outcome State Fault Refusal :=
  match issuer s with
  | none => .fault .noIssuer
  | some i => .next (i.run ws body s)

/-- A word that decode refuses (R79, R90): ILLEGAL at the word. -/
def issueIllegal (s : State) : Host.Outcome State Fault Refusal :=
  match issuer s with
  | none => .fault .noIssuer
  | some i => .next (i.trapHere s (i.fault .illegal 0 0))

/-! ## Decoding in place -/

/-- The words that stand at the issuing split's PC. -/
def Issuer.rest (i : Issuer) : List Word64 := i.b.words.drop (i.pos - 1)

/-- What decode reads there: the word, and the one after it in case it is a literal. -/
def decodeAt (i : Issuer) : Option Instr :=
  match decode ((i.rest.take 2).flatMap wordBytes) with
  | .ok k _ => some k
  | .bad _ => none

/-! ## Bodies of lane-wise words -/

/-- A lane-wise word: each lane that takes part computes a value and raises flags from its operands. -/
def laneBody (is64 : Bool) (d : Dst) (f : Warp → Nat → Word64 × Nat) (s : State) (i : Issuer) (g : Lanes) : WordEnd :=
  .done (updWarp s i.w fun x => x.dst is64 d g fun l => (f x l).1) (laneFlags g fun l => (f i.x l).2)

/-- A lane-wise word that raises no flag. -/
def pureBody (is64 : Bool) (d : Dst) (f : Warp → Nat → Word64) : State → Issuer → Lanes → WordEnd :=
  laneBody is64 d fun x l => (f x l, 0)

/-- Literal words are present when some source is of kind 11. -/
def anyLit (xs : List Src) : Bool := xs.any Src.isLit

end Sys2Proof.Machine
end

