-- ==== Sys2Proof/Machine/IntAlu.lean ====
section
/-! DEFINITION. The integer instructions (R153 to R162). -/

namespace Sys2Proof.Machine

/-! ## Shared forms -/

/-- An A-format word: its sources, each with the type that gives its width, and its destination. -/
def aluSpec (opc : Nat) (g : Guard) (srcs : List (Ty × Src)) (is64 : Bool) (d : Dst) : WordSpec :=
  { opc := opc, guard := g, lit := anyLit (srcs.map (·.2)), reads := srcs.flatMap fun p => srcRegs p.1.is64 p.2,
    writes := dstRegs is64 d }

/-- One source under TY. -/
def alu1 (opc : Nat) (g : Guard) (ty tyd : Ty) (d : Dst) (a : Src) (f : Nat → Nat × Nat) (s : State) :
    Host.Outcome State Fault Refusal :=
  issue (aluSpec opc g [(ty, a)] tyd.is64 d)
    (laneBody tyd.is64 d fun x l => let r := f (x.src ty a l).toNat; (BitVec.ofNat 64 r.1, r.2)) s

/-- Two sources, each under a type of its own. -/
def alu2 (opc : Nat) (g : Guard) (ta tb tyd : Ty) (d : Dst) (a b : Src) (f : Nat → Nat → Nat × Nat) (s : State) :
    Host.Outcome State Fault Refusal :=
  issue (aluSpec opc g [(ta, a), (tb, b)] tyd.is64 d)
    (laneBody tyd.is64 d fun x l =>
      let r := f (x.src ta a l).toNat (x.src tb b l).toNat
      (BitVec.ofNat 64 r.1, r.2)) s

/-- Three sources, each under a type of its own. -/
def alu3 (opc : Nat) (g : Guard) (ta tb tc tyd : Ty) (d : Dst) (a b c : Src) (f : Nat → Nat → Nat → Nat × Nat)
    (s : State) : Host.Outcome State Fault Refusal :=
  issue (aluSpec opc g [(ta, a), (tb, b), (tc, c)] tyd.is64 d)
    (laneBody tyd.is64 d fun x l =>
      let r := f (x.src ta a l).toNat (x.src tb b l).toNat (x.src tc c l).toNat
      (BitVec.ofNat 64 r.1, r.2)) s

/-! ## Widths and signedness -/

/-- The width of an element of a type. -/
def elemWidth : Ty → Nat
  | .b32 | .i32 | .n32 | .f32 => 32
  | .i64 | .n64 | .f64 => 64
  | .bf16x2 | .f16x2 | .i16x2 | .n16x2 => 16
  | .i8x4 | .n8x4 => 8

/-- The elements of a type. -/
def elems : Ty → Nat
  | .bf16x2 | .f16x2 | .i16x2 | .n16x2 => 2
  | .i8x4 | .n8x4 => 4
  | _ => 1

/-- The two's-complement value of w bits. -/
def signedOf (w x : Nat) : Int := if 2 ^ (w - 1) ≤ x % 2 ^ w then (x % 2 ^ w : Int) - 2 ^ w else (x % 2 ^ w : Int)

/-- The value of w bits under a type's signedness. -/
def valueOf (ty : Ty) (w x : Nat) : Int := if ty.isSigned then signedOf w x else (x % 2 ^ w : Int)

/-- The low w bits of an exact value. -/
def wrapTo (w : Nat) (v : Int) : Nat := (v % 2 ^ w).toNat

/-- The range of a type of w bits. -/
def loOf (ty : Ty) (w : Nat) : Int := if ty.isSigned then -(2 ^ (w - 1)) else 0
def hiOf (ty : Ty) (w : Nat) : Int := if ty.isSigned then 2 ^ (w - 1) - 1 else 2 ^ w - 1

/-- An exact result, wrapped or clamped to the type (R154). -/
def fitTo (ty : Ty) (w : Nat) (sat : Bool) (v : Int) : Nat :=
  wrapTo w (if sat then (if v < loOf ty w then loOf ty w else if hiOf ty w < v then hiOf ty w else v) else v)

/-- Element k of a packed value. -/
def elemOf (ty : Ty) (x k : Nat) : Nat := x / 2 ^ ((elemWidth ty) * k) % 2 ^ (elemWidth ty)

/-- A packed value from its elements. -/
def packElems (ty : Ty) (f : Nat → Nat) : Nat :=
  ((List.range (elems ty)).map fun k => f k % 2 ^ (elemWidth ty) * 2 ^ ((elemWidth ty) * k)).foldl (· + ·) 0

/-- An exact operation on two operands, element by element (R154). -/
def perElem2 (ty : Ty) (sat : Bool) (f : Int → Int → Int) (a b : Nat) : Nat × Nat :=
  (packElems ty fun k =>
    fitTo ty (elemWidth ty) sat (f (valueOf ty (elemWidth ty) (elemOf ty a k)) (valueOf ty (elemWidth ty) (elemOf ty b k))), 0)

/-- An exact operation on one operand, element by element. -/
def perElem1 (ty : Ty) (sat : Bool) (f : Int → Int) (a : Nat) : Nat × Nat :=
  (packElems ty fun k => fitTo ty (elemWidth ty) sat (f (valueOf ty (elemWidth ty) (elemOf ty a k))), 0)

/-! ## Addition, comparison, sign (R154, R155) -/

/-- ADD (R154). -/
def execAdd (g : Guard) (ty : Ty) (sat : Bool) (d : Dst) (a b : Src) (s : State) : Host.Outcome State Fault Refusal :=
  alu2 0x10 g ty ty ty d a b (perElem2 ty sat fun x y => x + y) s

/-- SUB (R154). -/
def execSub (g : Guard) (ty : Ty) (sat : Bool) (d : Dst) (a b : Src) (s : State) : Host.Outcome State Fault Refusal :=
  alu2 0x11 g ty ty ty d a b (perElem2 ty sat fun x y => x - y) s

/-- A word that also writes a predicate (R155): each lane gives a result and the predicate's new value. -/
def carryBody (is64 : Bool) (d : Dst) (pc : Fin 8) (f : Warp → Nat → Word64 × Bool) (s : State) (i : Issuer)
    (g : Lanes) : WordEnd :=
  .done (updWarp s i.w fun x =>
    (x.dst is64 d g fun l => (f x l).1).putP pc.val g (laneMask fun l => (f x l).2)) 0

/-- The registers of a word with carry. -/
def carrySpec (opc : Nat) (g : Guard) (ty : Ty) (d : Dst) (a b : Src) (pc : Fin 8) : WordSpec :=
  let ws := aluSpec opc g [(ty, a), (ty, b)] ty.is64 d
  { ws with reads := ws.reads ++ pRegs pc.val, writes := ws.writes ++ pRegs pc.val }

/-- The carry or borrow in. -/
def carryIn (x : Warp) (pc : Fin 8) (l : Nat) : Nat := b2n ((x.pred pc.val).getLsbD l)

/-- The exact sum with carry: the low bits and the carry out (R155). -/
def addCarry (w a b c : Nat) : Nat × Bool := ((a + b + c) % 2 ^ w, decide (2 ^ w ≤ a + b + c))

/-- The exact difference with borrow. -/
def subBorrow (w a b c : Nat) : Nat × Bool := (wrapTo w ((a : Int) - b - c), decide ((a : Int) - b - c < 0))

/-- ADDC (R155). -/
def execAddc (g : Guard) (ty : Ty) (d : Dst) (a b : Src) (pc : Fin 8) (s : State) : Host.Outcome State Fault Refusal :=
  issue (carrySpec 0x12 g ty d a b pc)
    (carryBody ty.is64 d pc fun x l =>
      let r := addCarry (elemWidth ty) (x.src ty a l).toNat (x.src ty b l).toNat (carryIn x pc l)
      (BitVec.ofNat 64 r.1, r.2)) s

/-- SUBB (R155). -/
def execSubb (g : Guard) (ty : Ty) (d : Dst) (a b : Src) (pc : Fin 8) (s : State) : Host.Outcome State Fault Refusal :=
  issue (carrySpec 0x13 g ty d a b pc)
    (carryBody ty.is64 d pc fun x l =>
      let r := subBorrow (elemWidth ty) (x.src ty a l).toNat (x.src ty b l).toNat (carryIn x pc l)
      (BitVec.ofNat 64 r.1, r.2)) s

/-! ## Multiplication (R156) -/

/-- MUL: the low bits of each element's product. -/
def execMul (g : Guard) (ty : Ty) (d : Dst) (a b : Src) (s : State) : Host.Outcome State Fault Refusal :=
  alu2 0x14 g ty ty ty d a b (perElem2 ty false fun x y => x * y) s

/-- Bits 2w-1:w of the product. -/
def mulHigh (ty : Ty) (a b : Nat) : Nat :=
  wrapTo (2 * (elemWidth ty)) (valueOf ty (elemWidth ty) a * valueOf ty (elemWidth ty) b) / 2 ^ (elemWidth ty)

/-- MULHI (R156). -/
def execMulhi (g : Guard) (ty : Ty) (d : Dst) (a b : Src) (s : State) : Host.Outcome State Fault Refusal :=
  alu2 0x15 g ty ty ty d a b (fun x y => (mulHigh ty x y, 0)) s

/-- MAD (R156). -/
def execMad (g : Guard) (ty : Ty) (d : Dst) (a b c : Src) (s : State) : Host.Outcome State Fault Refusal :=
  alu3 0x16 g ty ty ty ty d a b c
    (fun x y z => (wrapTo (elemWidth ty) (valueOf ty (elemWidth ty) x * valueOf ty (elemWidth ty) y + z), 0)) s

/-- The 64-bit type of MADW's c and d. -/
def wideTy (ty : Ty) : Ty := if ty.isSigned then .i64 else .n64

/-- MADW (R156): 32-bit a and b, 64-bit c and d. -/
def execMadw (g : Guard) (ty : Ty) (d : Dst) (a b c : Src) (s : State) : Host.Outcome State Fault Refusal :=
  alu3 0x17 g ty ty (wideTy ty) (wideTy ty) d a b c
    (fun x y z => (wrapTo 64 (valueOf ty 32 x * valueOf ty 32 y + z), 0)) s

/-- MIN (R154). -/
def execMin (g : Guard) (ty : Ty) (d : Dst) (a b : Src) (s : State) : Host.Outcome State Fault Refusal :=
  alu2 0x18 g ty ty ty d a b (perElem2 ty false fun x y => if x ≤ y then x else y) s

/-- MAX (R154). -/
def execMax (g : Guard) (ty : Ty) (d : Dst) (a b : Src) (s : State) : Host.Outcome State Fault Refusal :=
  alu2 0x19 g ty ty ty d a b (perElem2 ty false fun x y => if x ≤ y then y else x) s

/-- ABS (R154). -/
def execAbs (g : Guard) (ty : Ty) (sat : Bool) (d : Dst) (a : Src) (s : State) : Host.Outcome State Fault Refusal :=
  alu1 0x1A g ty ty d a (perElem1 ty sat fun x => if x < 0 then -x else x) s

/-- NEG (R154). -/
def execNeg (g : Guard) (ty : Ty) (sat : Bool) (d : Dst) (a : Src) (s : State) : Host.Outcome State Fault Refusal :=
  alu1 0x1B g ty ty d a (perElem1 ty sat fun x => -x) s

/-! ## Logic (R157) -/

/-- AND. -/
def execAnd (g : Guard) (ty : Ty) (d : Dst) (a b : Src) (s : State) : Host.Outcome State Fault Refusal :=
  alu2 0x1C g ty ty ty d a b (fun x y => (Nat.land x y, 0)) s

/-- OR. -/
def execOr (g : Guard) (ty : Ty) (d : Dst) (a b : Src) (s : State) : Host.Outcome State Fault Refusal :=
  alu2 0x1D g ty ty ty d a b (fun x y => (Nat.lor x y, 0)) s

/-- XOR. -/
def execXor (g : Guard) (ty : Ty) (d : Dst) (a b : Src) (s : State) : Host.Outcome State Fault Refusal :=
  alu2 0x1E g ty ty ty d a b (fun x y => (Nat.xor x y, 0)) s

/-- NOT. -/
def execNot (g : Guard) (ty : Ty) (d : Dst) (a : Src) (s : State) : Host.Outcome State Fault Refusal :=
  alu1 0x1F g ty ty d a (fun x => (2 ^ (elemWidth ty) - 1 - x % 2 ^ (elemWidth ty), 0)) s

/-! ## Shifts (R158) -/

/-- A left shift of w bits; 0 when the count reaches w. -/
def shiftLeft (w x n : Nat) : Nat := if w ≤ n then 0 else x * 2 ^ n % 2 ^ w

/-- A logical right shift. -/
def shiftRight (w x n : Nat) : Nat := if w ≤ n then 0 else x % 2 ^ w / 2 ^ n

/-- An arithmetic right shift: beyond w every bit is the sign. -/
def shiftSign (w x n : Nat) : Nat := wrapTo w (signedOf w x / 2 ^ (if w ≤ n then w else n))

/-- A left rotation by n mod w. -/
def rotLeft (w x n : Nat) : Nat := (x % 2 ^ w * 2 ^ (n % w)) % 2 ^ w + x % 2 ^ w / 2 ^ (w - n % w)

/-- SHL. -/
def execShl (g : Guard) (ty : Ty) (d : Dst) (a b : Src) (s : State) : Host.Outcome State Fault Refusal :=
  alu2 0x20 g ty .n32 ty d a b (fun x n => (shiftLeft (elemWidth ty) x n, 0)) s

/-- SHR. -/
def execShr (g : Guard) (ty : Ty) (d : Dst) (a b : Src) (s : State) : Host.Outcome State Fault Refusal :=
  alu2 0x21 g ty .n32 ty d a b (fun x n => (shiftRight (elemWidth ty) x n, 0)) s

/-- SAR. -/
def execSar (g : Guard) (ty : Ty) (d : Dst) (a b : Src) (s : State) : Host.Outcome State Fault Refusal :=
  alu2 0x22 g ty .n32 ty d a b (fun x n => (shiftSign (elemWidth ty) x n, 0)) s

/-- ROT: a right rotation by n is a left one by w - n mod w. -/
def execRot (g : Guard) (ty : Ty) (right : Bool) (d : Dst) (a b : Src) (s : State) : Host.Outcome State Fault Refusal :=
  alu2 0x23 g ty .n32 ty d a b
    (fun x n => (rotLeft (elemWidth ty) x (if right then (elemWidth ty) - n % (elemWidth ty) else n), 0)) s

/-! ## Fields and bits (R159, R160) -/

/-- BFE of a field: len above w acts as w; bits at or above w read as the type says (R159). -/
def extractField (ty : Ty) (a b : Nat) : Nat :=
  let w := (elemWidth ty)
  let pos := b % 256
  let len := if w < b / 256 % 256 then w else b / 256 % 256
  if len = 0 then 0
  else
    let field := wrapTo len (valueOf ty w a / 2 ^ pos)
    wrapTo w (if ty.isSigned then signedOf len field else (field : Int))

/-- BFI: c with bits pos to pos+len-1 replaced; positions at or above w are dropped. -/
def insertField (w a b c : Nat) : Nat :=
  let pos := b % 256
  let len := b / 256 % 256
  ((List.range w).map fun k => b2n (if pos ≤ k ∧ k < pos + len then bitOf a (k - pos) else bitOf c k) * 2 ^ k).foldl
    (· + ·) 0

/-- BFE. -/
def execBfe (g : Guard) (ty : Ty) (d : Dst) (a b : Src) (s : State) : Host.Outcome State Fault Refusal :=
  alu2 0x24 g ty .n32 ty d a b (fun x y => (extractField ty x y, 0)) s

/-- BFI. -/
def execBfi (g : Guard) (ty : Ty) (d : Dst) (a b c : Src) (s : State) : Host.Outcome State Fault Refusal :=
  alu3 0x25 g ty .n32 ty ty d a b c (fun x y z => (insertField (elemWidth ty) x y z, 0)) s

/-- The number of set bits. -/
def popCount (w x : Nat) : Nat := ((List.range w).filter fun k => bitOf x k).length

/-- The zero bits above the highest set bit of w. -/
def leadZeros (w x : Nat) : Nat := if x % 2 ^ w = 0 then w else w - 1 - Nat.log2 (x % 2 ^ w)

/-- The w bits in reverse order. -/
def revBits (w x : Nat) : Nat := ((List.range w).map fun k => b2n (bitOf x k) * 2 ^ (w - 1 - k)).foldl (· + ·) 0

/-- POPC. -/
def execPopc (g : Guard) (ty : Ty) (d : Dst) (a : Src) (s : State) : Host.Outcome State Fault Refusal :=
  alu1 0x26 g ty .b32 d a (fun x => (popCount (elemWidth ty) x, 0)) s

/-- CLZ. -/
def execClz (g : Guard) (ty : Ty) (d : Dst) (a : Src) (s : State) : Host.Outcome State Fault Refusal :=
  alu1 0x27 g ty .b32 d a (fun x => (leadZeros (elemWidth ty) x, 0)) s

/-- BREV. -/
def execBrev (g : Guard) (ty : Ty) (d : Dst) (a : Src) (s : State) : Host.Outcome State Fault Refusal :=
  alu1 0x28 g ty ty d a (fun x => (revBits (elemWidth ty) x, 0)) s

/-- One byte of PRMT: byte sel[2:0] of a and b, or its sign when sel[3] is 1. -/
def permByte (a b sel : Nat) : Nat :=
  let y := (a % 2 ^ 32 + b % 2 ^ 32 * 2 ^ 32) / 2 ^ (8 * (sel % 8)) % 256
  if bitOf sel 3 then (if bitOf y 7 then 255 else 0) else y

/-- PRMT. -/
def execPrmt (g : Guard) (d : Dst) (a b c : Src) (s : State) : Host.Outcome State Fault Refusal :=
  alu3 0x29 g .b32 .b32 .b32 .b32 d a b c
    (fun x y z => (((List.range 4).map fun k => permByte x y (z / 16 ^ k % 16) * 2 ^ (8 * k)).foldl (· + ·) 0, 0)) s

/-! ## Sums of differences, addresses (R161) -/

/-- The sum of the elements' absolute differences. -/
def absDiffs (ty : Ty) (a b : Nat) : Nat :=
  ((List.range (elems ty)).map fun k =>
    (valueOf ty (elemWidth ty) (elemOf ty a k) - valueOf ty (elemWidth ty) (elemOf ty b k)).natAbs).foldl (· + ·) 0

/-- SAD. -/
def execSad (g : Guard) (ty : Ty) (d : Dst) (a b c : Src) (s : State) : Host.Outcome State Fault Refusal :=
  alu3 0x2A g ty ty .b32 .b32 d a b c (fun x y z => ((absDiffs ty x y + z) % 2 ^ 32, 0)) s

/-- LEA: b is zero-extended, or sign-extended by .sx. Its immediate is that of a 32-bit operand (R85). -/
def execLea (g : Guard) (sx : Bool) (sh : Fin 8) (d : Dst) (a b : Src) (s : State) : Host.Outcome State Fault Refusal :=
  alu2 0x2B g .n64 .b32 .n64 d a b
    (fun x y => (wrapTo 64 (x + (if sx then signedOf 32 y else (y : Int)) * 2 ^ sh.val), 0)) s

/-! ## Division (R162) -/

/-- Quotient, remainder and flags; the borderline cases of the table first. -/
def divide (ty : Ty) (a b : Nat) : Nat × Nat × Nat :=
  let w := (elemWidth ty)
  let x := valueOf ty w a
  let y := valueOf ty w b
  if y = 0 then (2 ^ w - 1, a % 2 ^ w, fDZ)
  else if ty.isSigned ∧ x = loOf ty w ∧ y = -1 then (a % 2 ^ w, 0, fOF)
  else (wrapTo w (x.tdiv y), wrapTo w (x.tmod y), 0)

/-- IDIV. -/
def execIdiv (g : Guard) (ty : Ty) (d : Dst) (a b : Src) (s : State) : Host.Outcome State Fault Refusal :=
  alu2 0x2C g ty ty ty d a b (fun x y => ((divide ty x y).1, (divide ty x y).2.2)) s

/-- IREM. -/
def execIrem (g : Guard) (ty : Ty) (d : Dst) (a b : Src) (s : State) : Host.Outcome State Fault Refusal :=
  alu2 0x2D g ty ty ty d a b (fun x y => ((divide ty x y).2.1, (divide ty x y).2.2)) s

/-- LOP3 (R157): bit k is bit 4a+2b+c of the table. -/
def logic3 (w : Nat) (f : BitVec 8) (a b c : Nat) : Nat :=
  ((List.range w).map fun k =>
    b2n (f.getLsbD (4 * b2n (bitOf a k) + 2 * b2n (bitOf b k) + b2n (bitOf c k))) * 2 ^ k).foldl (· + ·) 0

/-- LOP3. -/
def execLop3 (g : Guard) (ty : Ty) (f : BitVec 8) (d : Dst) (a b c : Src) (s : State) :
    Host.Outcome State Fault Refusal :=
  alu3 0x2E g ty ty ty ty d a b c (fun x y z => (logic3 (elemWidth ty) f x y z, 0)) s

end Sys2Proof.Machine
end

