-- ==== Sys2Proof/Machine/Float.lean ====
section
/-! DEFINITION. Floating-point values and operations shared by every word and card (R132 to R136): formats, exact
arithmetic on dyadic numbers, one rounding. -/

namespace Sys2Proof.Machine

/-! ## Formats and values -/

/-- A binary format: exponent bits and fraction bits. -/
structure FFmt where
  eb : Nat
  mb : Nat
  deriving DecidableEq, Repr

def FFmt.f64 : FFmt := ⟨11, 52⟩
def FFmt.f32 : FFmt := ⟨8, 23⟩
def FFmt.bf16 : FFmt := ⟨8, 7⟩
def FFmt.f16 : FFmt := ⟨5, 10⟩

/-- The bias of the exponent (R132). -/
def FFmt.bias (f : FFmt) : Int := 2 ^ (f.eb - 1) - 1

/-- The exponent of the smallest normal value. -/
def FFmt.emin (f : FFmt) : Int := 1 - f.bias

/-- The field of an infinity, without its sign. -/
def FFmt.infField (f : FFmt) : Nat := (2 ^ f.eb - 1) * 2 ^ f.mb

/-- The canonical quiet NaN (R132). -/
def FFmt.nan (f : FFmt) : Nat := f.infField + 2 ^ (f.mb - 1)

/-- A sign bit in its place. -/
def FFmt.sign (f : FFmt) (neg : Bool) : Nat := b2n neg * 2 ^ (f.eb + f.mb)

/-- The format of an element of a type. -/
def fmtOf (ty : Ty) : FFmt :=
  match ty with
  | .f64 => .f64
  | .bf16x2 => .bf16
  | .f16x2 => .f16
  | _ => .f32

/-- A floating-point value: a finite one is m·2^e with a sign. -/
inductive Fp where
  | nan (signalling : Bool)
  | inf (neg : Bool)
  | fin (neg : Bool) (m : Nat) (e : Int)
  deriving DecidableEq, Repr

/-- The value of a bit pattern; under FTZ a subnormal is zero of its sign (R134). -/
def unpack (f : FFmt) (ftz : Bool) (x : Nat) : Fp :=
  let neg := bitOf x (f.eb + f.mb)
  let ex := x / 2 ^ f.mb % 2 ^ f.eb
  let fr := x % 2 ^ f.mb
  if ex = 2 ^ f.eb - 1 then (if fr = 0 then .inf neg else .nan (!bitOf fr (f.mb - 1)))
  else if ex = 0 then .fin neg (if ftz then 0 else fr) (f.emin - f.mb)
  else .fin neg (2 ^ f.mb + fr) (ex - f.bias - f.mb)

def Fp.neg : Fp → Bool
  | .nan _ => false
  | .inf n | .fin n _ _ => n

def Fp.isNan : Fp → Bool
  | .nan _ => true
  | _ => false

def Fp.isInf : Fp → Bool
  | .inf _ => true
  | _ => false

def Fp.isZero : Fp → Bool
  | .fin _ m _ => m == 0
  | _ => false

def Fp.isSig : Fp → Bool
  | .nan s => s
  | _ => false

def Fp.negate : Fp → Fp
  | .nan s => .nan s
  | .inf n => .inf !n
  | .fin n m e => .fin (!n) m e

/-! ## Rounding (R133, R134) -/

/-- The integer part of m·2^e in units of 2^q, rounded, and whether anything was lost. -/
def roundAt (rnd : Rnd) (neg : Bool) (m : Nat) (e q : Int) : Nat × Bool :=
  if q ≤ e then (m * 2 ^ (e - q).toNat, false)
  else
    let k := (q - e).toNat
    let n := m / 2 ^ k
    let r := m % 2 ^ k
    let up := match rnd with
      | .rne => decide (2 ^ k < 2 * r) || (2 * r == 2 ^ k && n % 2 == 1)
      | .rtz => false
      | .rup => !neg && r != 0
      | .rdn => neg && r != 0
    (if up then n + 1 else n, r != 0)

/-- What overflow delivers (R133). -/
def overflowed (f : FFmt) (rnd : Rnd) (neg : Bool) : Nat :=
  let inf := match rnd with
    | .rne => true
    | .rtz => false
    | .rup => !neg
    | .rdn => neg
  f.sign neg + (if inf then f.infField else f.infField - 1)

/-- floor(log2) of m·2^e, m not zero. -/
def expOf (m : Nat) (e : Int) : Int := (Nat.log2 m : Int) + e

/-- One rounding of a finite value to a format: the bits and the flags (R133, R134). A zero keeps its sign. -/
def roundTo (f : FFmt) (rnd : Rnd) (ftz neg : Bool) (m : Nat) (e : Int) : Nat × Nat :=
  if m = 0 then (f.sign neg, 0)
  else
    let ex := expOf m e
    let q := (if ex < f.emin then f.emin else ex) - f.mb
    let (n, lost) := roundAt rnd neg m e q
    let tiny := decide (ex < f.emin) &&
      (let (u, _) := roundAt rnd neg m e (ex - f.mb)
       !(ex == f.emin - 1 && u == 2 ^ (f.mb + 1)))
    if ftz && tiny then (f.sign neg, fUF + fNX)
    else
      let field := if n < 2 ^ f.mb then n else ((q + f.mb + f.bias).toNat - 1) * 2 ^ f.mb + n
      if f.infField ≤ field then (overflowed f rnd neg, fOF + fNX)
      else (f.sign neg + field, flagIf lost fNX + flagIf (tiny && lost) fUF)

/-- Rounds any value; a NaN becomes the canonical one. -/
def Fp.round (f : FFmt) (m : FMod) (v : Fp) : Nat × Nat :=
  match v with
  | .nan s => (f.nan, flagIf s fIV)
  | .inf n => (f.sign n + f.infField, 0)
  | .fin n k e => roundTo f m.rnd m.ftz n k e

/-- An invalid operation (R135). -/
def FFmt.invalid (f : FFmt) : Nat × Nat := (f.nan, fIV)

/-! ## Exact sums and products -/

/-- The signed mantissa of a finite value in units of 2^q, q at most its exponent. -/
def scaled (neg : Bool) (m : Nat) (e q : Int) : Int :=
  let v : Int := m * 2 ^ (e - q).toNat
  if neg then -v else v

/-- The exact sum of finite terms, rounded once. A zero sum keeps the sign that all terms share; of terms of opposite
signs it is +0, or −0 under RDN (R133). -/
def sumRound (f : FFmt) (m : FMod) (ts : List (Bool × Nat × Int)) : Nat × Nat :=
  let q := ts.foldl (fun q t => if t.2.2 < q then t.2.2 else q) ((ts.head?.map (·.2.2)).getD 0)
  let v : Int := (ts.map fun t => scaled t.1 t.2.1 t.2.2 q).foldl (· + ·) 0
  if v = 0 then
    let neg := if ts.all (·.1) then true else if ts.all (!·.1) then false else m.rnd == .rdn
    (f.sign neg, 0)
  else roundTo f m.rnd m.ftz (decide (v < 0)) v.natAbs q

/-- The exact product of two values; none is invalid (0 · ∞). -/
def Fp.mul (a b : Fp) : Option Fp :=
  match a, b with
  | .nan s, .nan t => some (.nan (s || t))
  | .nan s, _ => some (.nan s)
  | _, .nan t => some (.nan t)
  | .inf n, .inf k => some (.inf (n != k))
  | .inf n, .fin k m _ => if m = 0 then none else some (.inf (n != k))
  | .fin n m _, .inf k => if m = 0 then none else some (.inf (n != k))
  | .fin n m e, .fin k p g => some (.fin (n != k) (m * p) (e + g))

/-- The sum of values, rounded once (R133, R135). A term that is none is an invalid product. -/
def sumFp (f : FFmt) (m : FMod) (ts : List (Option Fp)) : Nat × Nat :=
  let vs := ts.filterMap id
  if ts.any Option.isNone ∨ vs.any Fp.isSig then f.invalid
  else
    let infs := (vs.filter Fp.isInf).map Fp.neg
    if infs.contains true && infs.contains false then f.invalid
    else if vs.any Fp.isNan then (f.nan, 0)
    else if infs.contains true then (f.sign true + f.infField, 0)
    else if infs.contains false then (f.infField, 0)
    else sumRound f m (vs.filterMap fun v => match v with | .fin n k e => some (n, k, e) | _ => none)

/-! ## Operations of one format (R167 to R169, R173) -/

/-- a + b. -/
def fpAdd (f : FFmt) (m : FMod) (a b : Nat) : Nat × Nat := sumFp f m [some (unpack f m.ftz a), some (unpack f m.ftz b)]

/-- a − b. -/
def fpSub (f : FFmt) (m : FMod) (a b : Nat) : Nat × Nat :=
  sumFp f m [some (unpack f m.ftz a), some (unpack f m.ftz b).negate]

/-- a · b; signalling operands of an invalid product are covered by IV all the same. -/
def fpMul (f : FFmt) (m : FMod) (a b : Nat) : Nat × Nat :=
  match (unpack f m.ftz a).mul (unpack f m.ftz b) with
  | none => f.invalid
  | some v => v.round f m

/-- a · b + c, one rounding. -/
def fpFma (f : FFmt) (m : FMod) (a b c : Nat) : Nat × Nat :=
  sumFp f m [(unpack f m.ftz a).mul (unpack f m.ftz b), some (unpack f m.ftz c)]

/-- A quotient of finite values to enough bits for one rounding, the last of them sticky. -/
def quotient (f : FFmt) (m : FMod) (neg : Bool) (a b : Nat) (e : Int) : Nat × Nat :=
  let k := f.mb + 4 + Nat.log2 b
  let q := a * 2 ^ k / b
  let r := a * 2 ^ k % b
  roundTo f m.rnd m.ftz neg (2 * q + (if r = 0 then 0 else 1)) (e - k - 1)

/-- a / b (R169). -/
def fpDiv (f : FFmt) (m : FMod) (a b : Nat) : Nat × Nat :=
  match unpack f m.ftz a, unpack f m.ftz b with
  | .nan s, .nan t => (f.nan, flagIf (s || t) fIV)
  | .nan s, _ => (f.nan, flagIf s fIV)
  | _, .nan t => (f.nan, flagIf t fIV)
  | .inf _, .inf _ => f.invalid
  | .inf n, .fin k _ _ => (f.sign (n != k) + f.infField, 0)
  | .fin n _ _, .inf k => (f.sign (n != k), 0)
  | .fin n x e, .fin k y g =>
    if y = 0 then (if x = 0 then f.invalid else (f.sign (n != k) + f.infField, fDZ))
    else if x = 0 then (f.sign (n != k), 0)
    else quotient f m (n != k) x y (e - g)

/-- The integer square root of n by bits i-1 down to 0. -/
def rootBits (n : Nat) : Nat → Nat → Nat
  | 0, r => r
  | i + 1, r => rootBits n i (if (r + 2 ^ i) * (r + 2 ^ i) ≤ n then r + 2 ^ i else r)

/-- The floor of the square root. -/
def isqrt (n : Nat) : Nat := rootBits n (Nat.log2 n / 2 + 1) 0

/-- √(m·2^e) of a positive value to enough bits for one rounding, the last sticky. -/
def rootOf (f : FFmt) (md : FMod) (m : Nat) (e : Int) : Nat × Nat :=
  let (m, e) := if e % 2 = 0 then (m, e) else (2 * m, e - 1)
  let k := f.mb + 4
  let n := m * 2 ^ (2 * k)
  let r := isqrt n
  roundTo f md.rnd md.ftz false (2 * r + (if r * r = n then 0 else 1)) (e / 2 - k - 1)

/-- √a (R169). -/
def fpSqrt (f : FFmt) (m : FMod) (a : Nat) : Nat × Nat :=
  match unpack f m.ftz a with
  | .nan s => (f.nan, flagIf s fIV)
  | .inf n => if n then f.invalid else (f.infField, 0)
  | .fin n x e => if x = 0 then (f.sign n, 0) else if n then f.invalid else rootOf f m x e

/-- The order of two values; zeros are equal, and a NaN is below nothing and above nothing. -/
def fpLess (a b : Fp) : Bool :=
  match a, b with
  | .nan _, _ => false
  | _, .nan _ => false
  | .inf n, .inf k => n && !k
  | .inf n, .fin .. => n
  | .fin .., .inf k => !k
  | .fin n m e, .fin k p g =>
    let q := if e < g then e else g
    decide (scaled n m e q < scaled k p g q)

/-- minimumNumber, or maximumNumber (R168). -/
def fpMinMax (f : FFmt) (max : Bool) (a b : Nat) : Nat × Nat :=
  let x := unpack f false a
  let y := unpack f false b
  let iv := flagIf (x.isSig || y.isSig) fIV
  if x.isNan && y.isNan then (f.nan, iv)
  else if x.isNan then (b, iv)
  else if y.isNan then (a, iv)
  else
    let less := fpLess x y || (x.isZero && y.isZero && x.neg && !y.neg)
    (if less != max then a else b, 0)

/-- FRND: an integral value of the same format, never NX (R173). -/
def fpRnd (f : FFmt) (m : FMod) (a : Nat) : Nat × Nat :=
  match unpack f m.ftz a with
  | .nan s => (f.nan, flagIf s fIV)
  | .inf n => (f.sign n + f.infField, 0)
  | .fin n x e => if x = 0 then (f.sign n, 0) else ((roundTo f .rtz false n (roundAt m.rnd n x e 0).1 0).1, 0)

/-- FSCALE: a · 2^b; b is held to a range beyond which every result is the same (R173). -/
def fpScale (f : FFmt) (m : FMod) (a : Nat) (b : Int) : Nat × Nat :=
  let b := if b < -5000 then -5000 else if 5000 < b then 5000 else b
  match unpack f m.ftz a with
  | .nan s => (f.nan, flagIf s fIV)
  | .inf n => (f.sign n + f.infField, 0)
  | .fin n x e => roundTo f m.rnd m.ftz n x (e + b)

/-- FGETX: floor(log2 |a|) as an i32 (R173). -/
def fpGetx (f : FFmt) (a : Nat) : Nat × Nat :=
  match unpack f false a with
  | .nan _ => (0x7FFFFFFF, fIV)
  | .inf _ => (0x7FFFFFFF, fIV)
  | .fin _ x e => if x = 0 then (0x80000000, fDZ) else (wrapTo 32 (expOf x e), 0)

/-- FGETM: a · 2^(−FGETX(a)) (R173). -/
def fpGetm (f : FFmt) (a : Nat) : Nat × Nat :=
  match unpack f false a with
  | .nan s => (f.nan, flagIf s fIV)
  | .inf n => (f.sign n + f.infField, 0)
  | .fin n x e => if x = 0 then (f.sign n, 0) else roundTo f .rne false n x (e - expOf x e)

/-- The class of a value (R165). -/
def fpClass (f : FFmt) (a : Nat) : Nat :=
  let ex := a / 2 ^ f.mb % 2 ^ f.eb
  let fr := a % 2 ^ f.mb
  let neg := bitOf a (f.eb + f.mb)
  if ex = 2 ^ f.eb - 1 then (if fr = 0 then (if neg then 2 else 9) else if bitOf fr (f.mb - 1) then 1 else 0)
  else if ex = 0 then (if fr = 0 then (if neg then 5 else 6) else if neg then 4 else 7)
  else if neg then 3 else 8

/-! ## Conversions (R175) -/

/-- One format to another, with one rounding; FTZ flushes source and result. -/
def fpConvert (src dst : FFmt) (m : FMod) (a : Nat) : Nat × Nat := (unpack src m.ftz a).round dst m

/-- An integer to a format. -/
def intToFp (f : FFmt) (m : FMod) (v : Int) : Nat × Nat := roundTo f m.rnd m.ftz (decide (v < 0)) v.natAbs 0

/-- A value to an integer of w bits (R175). -/
def fpToInt (f : FFmt) (m : FMod) (ty : Ty) (a : Nat) : Nat × Nat :=
  let w := elemWidth ty
  match unpack f m.ftz a with
  | .nan _ => (0, fIV)
  | .inf n => (wrapTo w (if n then loOf ty w else hiOf ty w), fIV)
  | .fin n x e =>
    let (k, lost) := roundAt m.rnd n x e 0
    let v : Int := if n then -k else k
    if v < loOf ty w then (wrapTo w (loOf ty w), fIV)
    else if hiOf ty w < v then (wrapTo w (hiOf ty w), fIV)
    else (wrapTo w v, flagIf lost fNX)

/-! ## Element by element (R136) -/

/-- An operation on each element of a packed or plain value; flags are combined by OR. -/
def perFloat (ty : Ty) (f : Nat → Nat × Nat) : Nat × Nat :=
  (packElems ty fun k => (f k).1, (List.range (elems ty)).foldl (fun n k => joinFlags n (f k).2) 0)

end Sys2Proof.Machine
end

