-- ==== Sys2Proof/Machine/SbFormat.lean ====
section
/-! DEFINITION. The shared-exponent block formats (R140 to R145) and the keyed counter generator (R150), used by
words and by cards. -/

namespace Sys2Proof.Machine

/-- b of format SBb: 2, 4 or 7 mantissa bits (R140). -/
def sbBits : SbFmt → Nat
  | .sb2 => 2
  | .sb4 => 4
  | .sb7 => 7

/-- Bytes of a 16-element block (R140). -/
def sbBytes (f : SbFmt) : Nat := 2 * (sbBits f + 1)

/-- One encoded 16-element half: its scale record and its fields. -/
structure SbHalf where
  scale : Nat
  fields : List Nat
  deriving DecidableEq, Repr

/-- A scale record from E and the micro-exponents (R141). -/
def scaleRec (e : Nat) (mu : Nat → Bool) : Nat :=
  e % 256 * 256 + ((List.range 8).map fun p => b2n (mu p) * 2 ^ p).foldl (· + ·) 0

/-- The sign of a value of any kind. -/
def signOf (v : Fp) : Bool := v.neg

/-- floor(log2) of a non-zero finite value. -/
def floorLog (v : Fp) : Option Int :=
  match v with
  | .fin _ m e => if m = 0 then none else some (expOf m e)
  | _ => none

/-- |v| < 2^k for a finite value. -/
def below (v : Fp) (k : Int) : Bool :=
  match floorLog v with
  | some x => decide (x < k)
  | none => true

/-- The mantissa of R144 for one value under unit 2^q, and its flags. -/
def sbMantissa (b : Nat) (v : Fp) (q : Int) : Nat × Nat :=
  match v with
  | .fin n m e =>
    let (k, lost) := roundAt .rne n m e q
    if 2 ^ b - 1 < k then (2 ^ b - 1, fSAT + fNX) else (k, flagIf lost fNX)
  | _ => (2 ^ b - 1, fSAT + fNX)

/-- The unit's exponent: E − 127 − μ − (b − 1). -/
def sbUnit (b e : Nat) (mu : Bool) : Int := (e : Int) - 127 - b2n mu - (b - 1 : Nat)

/-- One half under a given E (R144). -/
def sbHalf (b e : Nat) (xs : List Fp) : SbHalf × Nat :=
  let at_ (i : Nat) : Fp := xs.getD i (.fin false 0 0)
  let mu (p : Nat) : Bool := below (at_ (2 * p)) ((e : Int) - 128) && below (at_ (2 * p + 1)) ((e : Int) - 128)
  let el (i : Nat) := sbMantissa b (at_ i) (sbUnit b e (mu (i / 2)))
  ({ scale := scaleRec e mu,
     fields := (List.range 16).map fun i => b2n (signOf (at_ i)) * 2 ^ b + (el i).1 },
   (List.range 16).foldl (fun n i => joinFlags n (el i).2) 0)

/-- R144 over 16 or 32 values: the halves and the flags. -/
def sbEncode (f : SbFmt) (xs : List Fp) : List SbHalf × Nat :=
  let b := sbBits f
  let halves := if xs.length ≤ 16 then [xs] else [xs.take 16, xs.drop 16]
  if xs.any fun v => v.isNan || v.isInf then
    (halves.map fun _ => { scale := scaleRec 255 fun _ => false, fields := List.replicate 16 0 },
      flagIf (xs.any fun v => v.isInf || v.isSig) fIV)
  else
    match xs.filterMap floorLog with
    | [] =>
      (halves.map fun h => { scale := scaleRec 0 fun _ => false,
                             fields := (List.range 16).map fun i => b2n (signOf (h.getD i (.fin false 0 0))) * 2 ^ b }, 0)
    | k :: ks =>
      let emax := ks.foldl (fun m x => if m < x then x else m) k
      let e := (if emax + 127 < 1 then 1 else emax + 127).toNat
      let rs := halves.map (sbHalf b e)
      (rs.map (·.1), (rs.map (·.2)).foldl joinFlags 0)

/-- The block's bit string as a number (R140). -/
def SbHalf.bits (f : SbFmt) (h : SbHalf) : Nat :=
  ((List.range 16).map fun i => h.fields.getD i 0 * 2 ^ ((sbBits f + 1) * i)).foldl (· + ·) 0

/-- An element's value (R142): none is NaN. -/
def sbDecode (f : SbFmt) (e : Nat) (mu : Bool) (field : Nat) : Option Fp :=
  let b := sbBits f
  let neg := bitOf field b
  if e = 255 then none
  else if e = 0 then some (.fin neg 0 0)
  else some (.fin neg (field % 2 ^ b) (sbUnit b e mu))

/-- An element's value as binary32 bits: exact (R145). -/
def sbToF32 (f : SbFmt) (e : Nat) (mu : Bool) (field : Nat) : Nat :=
  match sbDecode f e mu field with
  | none => FFmt.f32.nan
  | some v => (v.round .f32 { rnd := .rne, ftz := false }).1

/-- The keyed counter generator, from the value of its first step (R150). -/
def kcgMix (x : Nat) : Nat :=
  let x := x * 0x2C1B3C6D % 2 ^ 32
  let x := Nat.xor x (x / 2 ^ 15)
  let x := x * 0x297A2D39 % 2 ^ 32
  Nat.xor x (x / 2 ^ 12)

/-- kcg(K, S, i, j). -/
def kcg (k s i j : Nat) : Nat := kcgMix (Nat.xor (k % 2 ^ 32) (Nat.xor (s % 2 ^ 32) ((i * 2 ^ 16 + j) % 2 ^ 32)))

end Sys2Proof.Machine
end

