-- ==== Sys2Proof/Machine/Arrays.lean ====
section
/-! DEFINITION. The arrays of a core (R250, R296, R304): accumulator words and anchors, scale memory, macros,
scratchpad; and accesses that the device's own units make by virtual or physical address. -/

namespace Sys2Proof.Machine

/-! ## Keys -/

/-- A row segment of a physical tile: 16 words and one anchor (R146). -/
def segKey (core tile row : Nat) : Nat := (core * 256 + tile) * 16 + row

/-- A word of a physical tile. -/
def accKey (core tile row col : Nat) : Nat := segKey core tile row * 16 + col

/-- A byte of the scale-tensor area of a core (R304). -/
def scaleKey (core off : Nat) : Nat := core * 24576 + off

/-- A cell of a macro, and the B scale record of a macro's column and k-block (R298). -/
def cellKey (core mac row col : Nat) : Nat := ((core * 8 + mac) * 128 + row) * 128 + col
def bscaleKey (core mac kb col : Nat) : Nat := ((core * 8 + mac) * 8 + kb) * 128 + col

/-- A row of a macro: its check cell, and its row of the array. -/
def macroRow (core mac row : Nat) : Nat := (core * 8 + mac) * 128 + row

/-! ## Rows with bad banks (R250) -/

def accRowBad (s : State) (k : Nat) : Bool := rowBad s (chipRow 2 (k / 8))
def anchorRowBad (s : State) (core tile : Nat) : Bool := rowBad s (chipRow 3 (core * 512 + tile / 2))
def scaleRow (core off : Nat) : Nat := core * 384 + off / 64
def scaleRowBad (s : State) (core off : Nat) : Bool :=
  s.scaleMarks.contains (scaleRow core off) || rowBad s (chipRow 3 (core * 512 + 128 + off / 64))
def macroRowBad (s : State) (core mac row : Nat) : Bool := rowBad s (chipRow 4 (macroRow core mac row))

/-- Reads meet the errors of a segment's rows, and of its anchors (R252). -/
def noteSeg (s : State) (core tile row : Nat) : State :=
  if chipsClean s then s
  else
    let k := accKey core tile row 0 / 8
    noteRow (noteRow (noteRow s (chipRow 2 k)) (chipRow 2 (k + 1))) (chipRow 3 (core * 512 + tile / 2))

/-- Reads of n bytes of the scale-tensor area meet the errors of their rows. -/
def noteScale (s : State) (core off n : Nat) : State :=
  if chipsClean s || n == 0 then s
  else (List.range ((off + n - 1) / 64 - off / 64 + 1)).foldl (fun s k => noteRow s (chipRow 3 (core * 512 + 128 + off / 64 + k))) s

/-- Reads of a macro set meet the errors of its rows. -/
def noteMacros (s : State) (core first m : Nat) : State :=
  if chipsClean s then s
  else (List.range (128 * m)).foldl (fun s k => noteRow s (chipRow 4 (macroRow core first 0 + k))) s

/-! ## Reads and writes -/

def accWord (s : State) (core tile row col : Nat) : Word64 := s.acc.getD 0 (accKey core tile row col)
def setAcc (s : State) (core tile row col : Nat) (w : Word64) : State :=
  { s with acc := s.acc.putD 0 (accKey core tile row col) w }
def anchorOf (s : State) (core tile row : Nat) : BitVec 16 := s.anchors.getD 0 (segKey core tile row)
def setAnchor (s : State) (core tile row : Nat) (a : BitVec 16) : State :=
  { s with anchors := s.anchors.putD 0 (segKey core tile row) a }

/-- AUTO (R146). -/
def autoAnchor : BitVec 16 := 0x8000#16

/-- The mark of a segment. -/
def segMarked (s : State) (core tile row : Nat) : Bool := s.accMarks.contains (segKey core tile row)
def markSeg (s : State) (core tile row : Nat) : State :=
  if segMarked s core tile row then s else countMark { s with accMarks := s.accMarks ++ [segKey core tile row] }
def unmarkSeg (s : State) (core tile row : Nat) : State :=
  { s with accMarks := s.accMarks.filter (· != segKey core tile row) }

/-- A physical tile with every word zero, every anchor set and no mark (R276, R315). Its anchors are half of a row: four banks' words,
with which the parity bank's is written. -/
def setTile (s : State) (core tile : Nat) (a : BitVec 16) : State :=
  let base := core * 256 + tile
  let s := { s with acc := List.filter (fun x => x.1 / 256 != base) s.acc,
                    anchors := List.filter (fun x => x.1 / 16 != base) s.anchors,
                    accMarks := s.accMarks.filter fun k => k / 16 != base }
  let s := cleanRows s fun r => chipRow 2 0 ≤ r && r < chipRow 3 0 && (r - chipRow 2 0) / 32 == base
  let s := cleanBanks s (chipRow 3 (core * 512 + tile / 2)) fun b => b / 4 == tile % 2 || b == 8
  (List.range 16).foldl (fun s r => setAnchor s core tile r a) s

/-- The macros first to first + m - 1 of a core with every cell and check cell zero and every record E = 0 (R296, R297). -/
def clearMacros (s : State) (core first m : Nat) : State :=
  let inSet (k : Nat) : Bool := core * 8 + first ≤ k && k < core * 8 + first + m
  let s := cleanRows s fun r => chipRow 4 0 ≤ r && r < chipRow 5 0 && inSet ((r - chipRow 4 0) / 128)
  { s with cells := List.filter (fun x => !inSet (x.1 / 16384)) s.cells,
           bscale := List.filter (fun x => !inSet (x.1 / 1024)) s.bscale,
           checks := List.filter (fun x => !inSet (x.1 / 128)) s.checks }

/-- A macro set's allotment of scale memory, zeroed (R445). -/
def clearScale (s : State) (core first m : Nat) : State :=
  let lo := scaleKey core (3072 * first)
  let hi := lo + 3072 * m
  let s := cleanRows s fun r => (List.range 384).any fun k =>
    r == chipRow 3 (core * 512 + 128 + k) && lo ≤ scaleKey core (64 * k) && scaleKey core (64 * k) < hi
  { s with scale := List.filter (fun x => x.1 < lo || hi ≤ x.1) s.scale,
           scaleMarks := s.scaleMarks.filter fun r => r * 64 < lo || hi ≤ r * 64 }

/-- The physical address of a scratchpad byte (R183). -/
def spadAddr (core off : Nat) : Nat := 9 * 2 ^ 48 + core * 2 ^ 24 + off

/-- A range of scratchpad, zeroed. -/
def clearSpad (s : State) (core off n : Nat) : State :=
  let lo := spadAddr core off
  let hi := lo + n
  cleanRows { s with mem := List.filter (fun x => x.1 < lo || hi ≤ x.1) s.mem,
                     spadMarks := s.spadMarks.filter fun r => r * 64 < lo || hi ≤ r * 64 }
    fun r => lo ≤ r * 64 && r * 64 < hi

/-- Writes scratchpad bytes by physical address; a row written whole is good again (R247, R250). -/
def writeSpad (s : State) (pa : Nat) (bytes : List Byte) : State :=
  let whole (r : Nat) : Bool := pa ≤ r * 64 && r * 64 + 64 ≤ pa + bytes.length
  cleanRows { s with mem := s.mem.setBytes pa bytes,
                     spadMarks := if s.spadMarks.isEmpty then s.spadMarks else s.spadMarks.filter fun r => !whole r } whole

/-- A poison mark on a scratchpad row (R247). -/
def markSpad (s : State) (pa : Nat) : State :=
  if s.spadMarks.contains (pa / 64) then s else countMark { s with spadMarks := s.spadMarks ++ [pa / 64] }

/-- Scale-tensor bytes of a core. -/
def readScale (s : State) (core off n : Nat) : List Byte :=
  (List.range n).map fun i => s.scale.getD (0 : Byte) (scaleKey core (off + i))
def writeScale (s : State) (core off : Nat) (bytes : List Byte) : State :=
  let whole (r : Nat) : Bool := scaleKey core off ≤ r * 64 && r * 64 + 64 ≤ scaleKey core off + bytes.length
  let (t, _) := bytes.foldl (fun (t, i) b => (Tbl.putD (α := BitVec 8) t 0 (scaleKey core (off + i)) b, i + 1)) (s.scale, 0)
  cleanRows { s with scale := t, scaleMarks := s.scaleMarks.filter fun r => !whole r }
    fun r => (List.range 384).any fun k => r == chipRow 3 (core * 512 + 128 + k) && whole (core * 384 + k)
def markScale (s : State) (core off : Nat) : State :=
  if s.scaleMarks.contains (scaleRow core off) then s
  else countMark { s with scaleMarks := s.scaleMarks ++ [scaleRow core off] }

/-! ## Accesses of the device's own units -/

/-- A write by physical address to any class but device registers; slice control space discards it (R184). -/
def plainWrite (s : State) (core : Option Nat) (pa : Nat) (bytes : List Byte) (nl tp : Nat) : State :=
  match classOf pa with
  | 9 =>
    let (s, flips) := travel s core pa true
    let s := writeSpad s pa bytes
    if flips.isEmpty then s else markSpad s pa
  | 10 | 14 => s
  | 15 => writeHostMem s pa bytes
  | _ => writeHome s core pa bytes nl tp

/-- One walk of a unit of the device: none when it has to walk again (R191). -/
def unitTry (s : State) (slot va : Nat) (k : Acc) : State × Option Xl :=
  match walk s slot va with
  | (s, .invalid) => (s, some (.fault .page 0))
  | (s, .malformed) => (s, some (.fault .prot 2))
  | (s, .lost gw) => (s, some (.lost gw))
  | (s, .leaf at_ e size) =>
    match checkLeaf k true va e size with
    | .ok pa _ =>
      let (s, e) := setAD s at_ e k.writes
      (s, e.map fun e => .ok pa e)
    | r => (s, some r)

/-- A translation made by a unit of the device for a context's software: it goes by no core's TLB. -/
def unitXlate (s : State) (asid va : Nat) (k : Acc) : State × Xl :=
  if va ≥ 2 ^ 52 then (s, .fault .aperture 0)
  else
    match slotOfAsid s asid with
    | none => (s, .fault .prot 2)
    | some slot => xlateLoop (fun s => unitTry s slot va k) (s.races.length + 1) s

/-- Reads n bytes by virtual address; none when some part is unreadable or past correction. -/
def unitRead (s : State) (asid va n : Nat) : State × Option (List Byte) :=
  (sectorParts va n).foldl (fun (s, r) (v, k) =>
    match r with
    | none => (s, none)
    | some bs =>
      match unitXlate s asid v .rd with
      | (s, .ok pa e) =>
        if peerDown s pa || peerRefused s pa asid then (s, none)
        else
          let (s, d) := physRead s none pa k (leafNl e) (leafTp e)
          (s, if d.isPoison then none else some (bs ++ d.data))
      | (s, .zeros) => (s, some (bs ++ List.replicate k 0))
      | (s, _) => (s, none)) (s, some [])

/-- Writes bytes by virtual address, each frame marked first (R203); false when a part is unwritable. -/
def unitWrite (s : State) (asid va : Nat) (bytes : List Byte) : State × Bool :=
  (sectorParts va bytes.length).foldl (fun (s, ok) (v, k) =>
    if !ok then (s, false)
    else
      match unitXlate s asid v .wr with
      | (s, .ok pa e) =>
        if peerDown s pa || peerRefused s pa asid then (s, false)
        else
          let s := match slotOfAsid s asid with | some slot => markByUnit s slot pa | none => s
          (plainWrite s none pa ((bytes.drop (v - va)).take k) (leafNl e) (leafTp e), true)
      | (s, _) => (s, false)) (s, true)

/-- The number that n bytes hold. -/
def unitReadNat (s : State) (asid va n : Nat) : State × Option Nat :=
  let (s, r) := unitRead s asid va n
  (s, r.map leNat)

end Sys2Proof.Machine
end

