-- ==== Sys2Proof/Machine/Launches.lean ====
section
/-! DEFINITION. The end of launches and blocks: launch errors (R54, R55, R69), retirement (R444, R445), the completion
word (R26, R446), host termination (R70), and the begin of pre-emption and resumption (R398, R401). -/

namespace Sys2Proof.Machine

/-! ## Queues -/

def queueOf (s : State) (q : Nat) : LQueue := s.queues.getD .reset q
def setQueue (s : State) (q : Nat) (r : LQueue) : State := { s with queues := s.queues.putD .reset q r }

/-- One more launch error of a queue: its code in ERR, counted in NERR (R53). A discarded register write (code 8) does this and
no more: R54 and R55 name no notification of it (DESIGN CHOICE, log 34). -/
def queueError (s : State) (q code : Nat) : State :=
  let r := queueOf s q
  setQueue s q { r with err := code, nerr := Nat.min (r.nerr + 1) (2 ^ 32 - 1) }

/-! ## What a block holds -/

/-- Keys of callee pseudo-blocks begin here. -/
def calleeBase : Nat := 4096

/-- The warp slot whose registers a row of the register files holds (R250). -/
def rowWarp (row : Nat) : Option Nat :=
  if row < chipRow 1 0 ∨ chipRow 2 0 ≤ row then none
  else
    let i := row - chipRow 1 0
    some (if i < 2 ^ 40 then i / 1024 else if i < 2 ^ 41 then (i - 2 ^ 40) / 32 else i - 2 ^ 41)

/-- The register rows of warp slots are cleared; their values are part of their warps' own state. -/
def clearRegs (s : State) (p : Nat → Bool) : State := cleanRows s fun r => (rowWarp r).any p

/-- The cores' arrays that a block held are cleared for the next one (R445). -/
def clearBlock (s : State) (x : Block) : State :=
  let s := clearRegs s x.warps.contains
  let s := x.tiles.foldl (fun s t => setTile s x.core t 0) s
  let s := clearScale (clearMacros s x.core x.macFirst x.macs) x.core x.macFirst x.macs
  clearSpad s x.core x.spBase x.spSize

/-- Barrier records of a block's own level. -/
def dropBlockBarriers (s : State) (b : Nat) : State :=
  { s with barriers := List.filter (fun x => !(x.2.lvl == .block && x.2.inst == b)) s.barriers }


/-- The resources of a block are free: its slots, registers, arrays, queues. -/
def freeBlock (s : State) (b : Nat) : State :=
  let x := blockAt s b
  let s := countLife s lifeFlits (x.rq.length + x.rbq.length)
  let s := dropBlockBarriers (clearBlock s x) b
  { s with blocks := s.blocks.del b }

/-! ## Contracts (R32, R33, R212) -/

/-- Unlocks the lines that a contract's pin has locked, but for those that another pin holds: they are written back and held
no more (R212). -/
def unlockContract (s : State) (c : Contract) : State :=
  if c.pinned then
    let kept := (s.contracts.filter fun k => k.pinned && k.rank != c.rank).flatMap (·.pinFrames)
    let mine (l : HomeLine) : Bool :=
      let f := l.line * 128 / 65536
      l.locked && c.pinFrames.contains f && !kept.contains f
    let s := ((s.lines.filter mine).map (·.line)).foldl dropLine s
    { s with contracts := s.contracts.map fun k => if k.rank = c.rank then { k with pinned := false, pinFrames := [] } else k }
  else s

/-- A launch's contracts end (R32). -/
def closeContracts (s : State) (l : Nat) : State :=
  let s := (s.contracts.filter (·.launch == l)).foldl unlockContract s
  { s with contracts := s.contracts.filter (·.launch != l) }

/-! ## The completion word -/

/-- Number of blocks of a launch. -/
def Launch.nblk (l : Launch) : Nat := let (x, y, z) := l.grid; x * y * z

/-- The completion word (R26). -/
def completionWord (l : Launch) (status : Nat) : Nat :=
  packFields [(l.word 9 % 2 ^ 32, 32), (if status = 3 then 0 else Nat.min l.nflt 65535, 16), (status, 0)]

/-- Writes the completion word under the queue's address space. -/
def writeCompletion (s : State) (l : Launch) (status : Nat) : State × Bool :=
  unitWrite s l.asid (l.word 11) (leBytes 8 (completionWord l status))

/-- Nothing of a launch is left to run (R26, R68): every gang admitted, or the launch terminated; no block, callee
warp, saved block or queued item. -/
def launchDone (s : State) (k : Nat) (l : Launch) : Bool :=
  (l.terminated || decide (l.nblk ≤ l.next)) && l.dqs.all (·.count == 0) &&
    !(s.blocks.any fun x => x.2.launch == k) && !(s.saved.any fun x => x.launch == k)

/-- TERM reads 1 until every terminated launch of the queue has its completion word. -/
def settleTerm (s : State) (q : Nat) : State :=
  if s.launches.any fun x => x.2.queue == q && x.2.terminated then s
  else setQueue s q { queueOf s q with term := false }

/-- A launch leaves the device: its contracts, queues, callee slots and barrier sets go with it (R30, R32, R60, R66). -/
def dropLaunch (s : State) (k : Nat) : State :=
  let q := (launchAt s k).queue
  let s := closeContracts s k
  settleTerm { s with launches := s.launches.del k,
                      barriers := List.filter (fun x => x.2.launch != k) s.barriers } q

/-- The launch ends once nothing of it is left (R26, R69, R446): an unwritable COMPL sets ERR 5. -/
def finishLaunch (s : State) (k : Nat) : State :=
  match s.launches.find? k with
  | none => s
  | some l =>
    if launchDone s k l then
      let status := if l.terminated then 2 else if l.nflt = 0 then 0 else 1
      let (s, ok) := writeCompletion (drainEgress s) l status
      dropLaunch (if ok then s else notifyHost (queueError s l.queue 5)) k
    else s

/-! ## Retirement (R444) -/

/-- The block may retire. -/
def mayRetire (s : State) (b : Nat) : Bool :=
  match s.blocks.find? b with
  | none => false
  | some x =>
    x.ended == x.warps.length && x.owed == [] && !(s.cards.any fun c => c.2.block == b)

/-- The late card flags of a block's warps reach their flag words; a write that meets a fault is dropped (R444). -/
def mergeLate (s : State) (x : Block) : State :=
  let l := launchAt s x.launch
  x.late.foldl (fun s (w, f) =>
    let va := l.save + 128 * x.linear + 4 * w
    match unitReadNat s l.asid va 4 with
    | (s, some old) => (unitWrite s l.asid va (leBytes 4 (Nat.lor old f))).1
    | (s, none) => s) s

/-- A cluster-barrier set is released with the last block of its cluster (R60). -/
def dropClusterBarriers (s : State) (l inst : Nat) : State :=
  let live := (s.blocks.any fun x => x.2.launch == l && x.1 < calleeBase && (launchAt s l).clusterOf x.2.linear == inst) ||
    s.saved.any fun x => x.launch == l && x.entry.isNone && (launchAt s l).clusterOf x.linear == inst
  if live then s
  else { s with barriers := List.filter (fun x => !(x.2.lvl == .cluster && x.2.launch == l && x.2.inst == inst)) s.barriers }

/-- The block retires (R444): its writes are performed, its resources freed and cleared, its launch counts it. -/
def retireBlock (s : State) (b : Nat) : State :=
  if mayRetire s b then
    let x := blockAt s b
    let s := mergeLate (drainEgress (releaseL1 s x.core)) x
    let s := freeBlock s b
    let s := updLaunch s x.launch fun l => { l with nret := l.nret + 1, nflt := if x.killed then Nat.min (l.nflt + 1) 65535 else l.nflt }
    let s := if b < calleeBase then dropClusterBarriers s x.launch ((launchAt s x.launch).clusterOf x.linear) else s
    finishLaunch s x.launch
  else s

/-! ## Host termination (R70) -/

/-- Cards that have not launched are cancelled; those that run make no further access. -/
def cancelCards (s : State) (l : Nat) : State :=
  { s with cards := s.cards.mapVals fun _ c => if c.launch = l then { c with cancelled := true } else c }

/-- The saved warps of a launch's resident blocks are discarded: they count as ended (R70, R401). -/
def discardSaved (s : State) (k : Nat) : State :=
  { s with blocks := s.blocks.mapVals fun _ b =>
      if b.launch = k then { b with ended := b.ended + b.saved.length, saved := [] } else b }

/-- STATE becomes 0 when every saved block of the context is back (R401). -/
def settleResume (s : State) (slot : Nat) : State :=
  let c := ctxOf s slot
  let waits := s.saved.any fun x => (launchAt s x.launch).asid == c.asid
  if c.state = 3 ∧ waits = false then updCtx s slot fun c => { c with state := 0, res := false } else s

/-- Terminates one launch. Its saved blocks are discarded; those that a fault has killed count in NFAULT. -/
def terminateLaunch (s : State) (k : Nat) : State :=
  let dead := (s.saved.filter fun x => x.launch == k && x.killed).length
  let s := updLaunch s k fun l =>
    { l with terminated := true, nflt := Nat.min (l.nflt + dead) 65535, dqs := l.dqs.map fun d => d.drop d.count }
  let mine := (s.warps.select fun _ w => w.launch == k).keys
  let s := mine.foldl (fun s w => killWarp s w 0 0 0 false) s
  let s := discardSaved (cancelCards { s with saved := s.saved.filter (·.launch != k) } k) k
  let s := match slotOfAsid s (launchAt s k).asid with | some slot => settleResume s slot | none => s
  finishLaunch s k

/-- TERM is written 1. -/
def terminateQueue (s : State) (q : Nat) : State :=
  let mine := (s.launches.select fun _ l => l.queue == q).keys
  let s := setQueue s q { queueOf s q with term := !mine.isEmpty }
  settleTerm (mine.foldl terminateLaunch s) q

/-! ## Pre-emption begins and ends (R398, R399, R401) -/

/-- The cores that hold blocks of a context. -/
def coresOf (s : State) (slot : Nat) : List Nat :=
  ((s.warps.select fun _ w => w.ctx == slot).map fun x => x.2.core).eraseDups

/-- A core ends every lease it holds (R356, R398): its updates stand. -/
def endLeases (s : State) (core : Nat) : State :=
  (s.leases.filter (·.core == core)).foldl (fun s l => endLease (flushLine s core l.line) l.line .set_aside) s

/-- STATE becomes 2 when no block of the context is resident (R399). -/
def settlePreempt (s : State) (slot : Nat) : State :=
  let c := ctxOf s slot
  let busy := s.blocks.any fun x => (launchAt s x.2.launch).asid == c.asid
  if c.state = 1 ∧ busy = false then
    let s := updCtx s slot fun c => { c with state := 2, pre := false }
    notify s slot { kind := 2, core := 0xFF, slot := 0, fault := 0, addr := 0, block := 0, aux := 0 }
  else s

/-- PRE is written 1 in STATE 0 (R398). -/
def beginPre (s : State) (slot : Nat) : State :=
  if (ctxOf s slot).state ≠ 0 then s
  else
    let s := updCtx s slot fun c => { c with state := 1, pre := true }
    let s := (coresOf s slot).foldl endLeases s
    { s with warps := s.warps.mapVals fun _ w => if w.ctx = slot then { w with preemptDue := true } else w }

/-- RES is written 1 in STATE 2 (R401). -/
def beginRes (s : State) (slot : Nat) : State :=
  if (ctxOf s slot).state ≠ 2 then s
  else settleResume (updCtx s slot fun c => { c with state := 3, res := true }) slot

/-! ## Context end (R447) -/

/-- Something of the context remains. -/
def contextBusy (s : State) (slot : Nat) : Bool :=
  let asid := (ctxOf s slot).asid
  s.launches.any (fun x => x.2.asid == asid) || s.saved.any (fun x => (launchAt s x.launch).asid == asid) ||
    (s.scrubReg.sbusy && s.scrubReg.slot == slot)

/-- VALID is cleared (R447): key-value ownership, contract reports, rings and meter are released; EMETER keeps its
value. -/
def endContext (s : State) (slot : Nat) : State :=
  if contextBusy s slot then s
  else
    let c := ctxOf s slot
    let s := { s with splits := s.splits.mapVals fun _ p => if p.owner = c.asid then { p with owner := 0 } else p }
    setCtx s slot
      { c with valid := false, fring := 0, frlog := 4, frhead := 0, frtail := 0, crbase := 0, crlog := 4, crlost := 0,
               crhead := 0, crtail := 0, nrbase := 0, nrlog := 4, nrlost := 0, nrhead := 0, nrtail := 0,
               heldFaults := [], asked := [], savedFaults := [], known := [], depoch := false }

/-! ## Harvest epochs (R203) -/

/-- DEPOCH is written 1. -/
def beginHarvest (s : State) (slot : Nat) : State := updCtx s slot fun c => { c with depoch := true }

/-- The cores that hold bytes not yet written back. -/
def dirtyCores (s : State) : List Nat := ((s.l1.filter fun l => l.dirty != 0).map (·.core)).eraseDups

/-- The epoch completes: known marks are forgotten, and the writes that the context has issued are performed, those of warps
that have ended or been saved among them. -/
def completeHarvest (s : State) (slot : Nat) : State :=
  if (ctxOf s slot).depoch then
    let s := (dirtyCores s).foldl releaseL1 s
    updCtx s slot fun c => { c with depoch := false, known := [] }
  else s

/-! ## The store split (R206, R207) -/

/-- The fields that a write of the request register asks for. -/
def splitRequest (p : StoreSplit) (v : Nat) : StoreSplit :=
  { p with owner := bitsOf v 63 48, ncache := bitsOf v 47 44, npin := bitsOf v 43 40, nkv := bitsOf v 39 36,
           nlock := bitsOf v 35 32, nesz := bitsOf v 31 29, ndq := bitsOf v 28 21 }

/-- A request that R206 refuses. -/
def splitRefused (p : StoreSplit) : Bool :=
  let total := if p.ncache = 0 ∧ p.npin = 0 ∧ p.nkv = 0 then 16 else p.ncache + p.npin + p.nkv
  total != 16 || decide (p.npin < p.nlock) || decide (4 < p.nesz) ||
    decide ((p.npin - p.nlock) * 2 ^ 26 < p.ndq * 65536)

/-- A write of the request register (R206, R207): requests, refuses or withdraws. -/
def writeSplit (s : State) (die v : Nat) : State :=
  let p := splitOf s die
  let put (p : StoreSplit) : State := { s with splits := s.splits.putD .reset die p }
  if p.apply then (if bitOf v 0 then s else put { p with apply := false })
  else
    let r := splitRequest p v
    if bitOf v 0 then
      if splitRefused r then put { r with errc := Nat.min (p.errc + 1) 65535 } else put { r with apply := true }
    else put r

end Sys2Proof.Machine
end

