-- ==== Sys2Proof/Machine/DevWrite.lean ====
section
/-! DEFINITION. Writes of the device-register space (R455): each register by its 8-byte offset, with the checks of its
own rule. -/

namespace Sys2Proof.Machine

/-- A write to one register: the value the register would hold after it, and which halves are written (R455). -/
structure RegWrite where
  v : Nat
  lo : Bool
  hi : Bool
  /-- by the host, not by supervisor code -/
  host : Bool
  deriving DecidableEq, Repr

/-- Bit 0 is a write-1 action that this write takes. -/
def RegWrite.acts (w : RegWrite) : Bool := w.lo && bitOf w.v 0

/-! ## Posted writes of the host (R232, R233) -/

/-- The address that BAR2 maps (R232). -/
def barTwo (s : State) (off : Nat) : Nat := s.net.hwbase * 2 ^ 36 + off % 2 ^ 36

/-- The layout of a host access (R233): the line's own while it is held at its home, else HWNL. -/
def hostNl (s : State) (pa : Nat) : Nat :=
  let e := s.sectors.getD .clean (pa / 64)
  if (heldAt s (pa / 128) || classOf pa == 8) && e.nl != 8 then e.nl else s.net.hwnl

/-- A posted write through BAR2 is performed at its home, sector by sector; elsewhere it is discarded. -/
def performHostWrite (s : State) (h : HostWrite) : State :=
  (sectorParts h.pa h.data.length).foldl (fun s (p, n) =>
    if storedAt s p then writeSector s none p ((h.data.drop (p - h.pa)).take n) (hostNl s p) 2 else s) s

/-- Every posted write that is held or under way is performed, in order. What the host does next at BAR0 follows them. -/
def drainHost (s : State) : State :=
  let ws := s.hostWrites
  ws.foldl performHostWrite { s with hostWrites := [] }

/-! ## Launch queues (R53 to R55) -/

/-- A write of LQBASE. -/
def writeLqBase (s : State) (q : Nat) (v : Word64) : State :=
  let r := queueOf s q
  let v := v / 4096 * 4096
  if r.enable && v != r.base then queueError s q 8 else setQueue s q { r with base := v }

/-- A write of the configuration word (R54). With the configuration record rejected no queue can be enabled (R451): the attempt
is an error like the other writes that R54 turns away (DESIGN CHOICE, log 40). -/
def writeLqConfig (s : State) (q v : Nat) : State :=
  let r := queueOf s q
  let asid := bitsOf v 63 48
  let prio := bitsOf v 47 42
  let log2n := bitsOf v 41 38
  let en := bitOf v 37
  let dev := bitOf v 36
  if en ∧ (47 < prio ∨ log2n < 4 ∨ s.house.bootst ≠ 0) then queueError s q 8
  else if r.enable = true ∧ (asid ≠ r.asid ∨ log2n ≠ r.log2n ∨ dev ≠ r.devlaunch) then queueError s q 8
  else
    let opens := en && !r.enable
    setQueue s q { r with asid := asid, prio := prio, log2n := log2n, enable := en, devlaunch := dev,
                          head := if opens then r.tail else r.head, nerr := if opens then 0 else r.nerr }

/-- A write of LQTAIL (R55). -/
def writeLqTail (s : State) (q : Nat) (v : BitVec 32) : State :=
  let r := queueOf s q
  if r.devlaunch ∨ 2 ^ r.log2n < (v - r.head).toNat then queueError s q 8 else setQueue s q { r with tail := v }

def writeQueueReg (s : State) (q off : Nat) (w : RegWrite) : State :=
  match off with
  | 0x00 => writeLqBase s q (BitVec.ofNat 64 w.v)
  | 0x08 => writeLqConfig s q w.v
  | 0x10 => if w.lo then writeLqTail s q (BitVec.ofNat 32 w.v) else s
  | 0x28 => if w.acts then terminateQueue s q else s
  | _ => s

/-! ## Translation registers (R190, R200, R201, R203, R447) -/

/-- A write of FRTAIL (R200): held records are written while there is room. -/
def writeFrTail (s : State) (slot : Nat) (v : BitVec 32) : State :=
  let c := ctxOf s slot
  if 2 ^ ringLog c.frlog < (c.frhead - v).toNat then s
  else
    let s := updCtx s slot fun c => { c with frtail := v }
    releaseHeld s slot c.heldFaults.length

/-- A write of ASID and VALID. -/
def writeAsid (s : State) (slot v : Nat) : State :=
  let c := ctxOf s slot
  if c.valid then (if bitOf v 0 then s else endContext s slot)
  else if bitOf v 0 then setCtx s slot { c with asid := bitsOf v 63 48, valid := true, emeter := 0 }
  else setCtx s slot { c with asid := bitsOf v 63 48 }

def writeXlateReg (s : State) (slot off : Nat) (w : RegWrite) : State :=
  let c := ctxOf s slot
  match off with
  | 0x00 => if c.valid then s else setCtx s slot { c with root := bitsOf w.v 51 12 }
  | 0x08 => writeAsid s slot w.v
  | 0x10 => setCtx s slot { c with dbmap := if c.valid then c.dbmap else bitsOf w.v 51 12, dten := bitOf w.v 0 }
  | 0x18 => if w.acts then beginHarvest s slot else s
  | 0x20 => setCtx s slot { c with fring := bitsOf w.v 51 12, frlog := bitsOf w.v 3 0 }
  | 0x30 => if w.lo then resumeHostFault s slot (w.v % 2 ^ 32) else s
  | 0x38 => if w.lo then writeFrTail s slot (BitVec.ofNat 32 w.v) else s
  | _ => s

/-! ## Other banks -/

/-- Frame pools (R199). -/
def writePoolReg (s : State) (die off : Nat) (w : RegWrite) : State :=
  let p := poolOf s die
  match off with
  | 0x00 => setPool s die { p with base := bitsOf w.v 51 12, log := bitsOf w.v 3 0 }
  | 0x10 => if w.lo then setPool s die { p with tail := BitVec.ofNat 32 w.v } else s
  | _ => s

/-- Contract-report rings (R217). -/
def writeReportReg (s : State) (slot off : Nat) (w : RegWrite) : State :=
  match off with
  | 0x00 => updCtx s slot fun c => { c with crbase := bitsOf w.v 51 12, crlog := bitsOf w.v 3 0 }
  | 0x10 => if w.lo then updCtx s slot fun c => { c with crtail := BitVec.ofNat 32 w.v } else s
  | _ => s

/-- A power of two between two bounds. -/
def powerOfTwo (n lo hi : Nat) : Bool := lo ≤ n && n ≤ hi && 2 ^ Nat.log2 n == n

/-- Network control registers (R223): a field outside its range discards the write whole. -/
def writeNetReg (s : State) (off v : Nat) : State :=
  match off with
  | 0x00 =>
    let adpth := bitsOf v 30 25
    let bomax := bitsOf v 24 12
    let bomin := bitsOf v 11 0
    if 1 ≤ adpth ∧ powerOfTwo bomin 16 256 ∧ powerOfTwo bomax bomin 4096 then
      { s with net := { s.net with adpth := adpth, bomax := bomax, bomin := bomin } }
    else s
  | 0x08 => { s with net := { s.net with domid := bitsOf v 6 0 } }
  | 0x10 =>
    if bitsOf v 19 16 ≤ 7 then { s with net := { s.net with hwnl := bitsOf v 19 16, hwbase := bitsOf v 15 0 } } else s
  | _ => s

/-- Link error injectors (R238): a lane that the link does not have is discarded. -/
def writeInjectorReg (s : State) (i off : Nat) (w : RegWrite) : State :=
  let j := injectorOf s i
  match off with
  | 0x00 =>
    let lane := bitsOf w.v 15 10
    let s := setInjector s i
      { j with nth := bitsOf w.v 63 32, delay := bitsOf w.v 31 16, lane := if i < 8 ∨ lane < 8 then lane else j.lane,
               precrc := bitOf w.v 3, mode := bitsOf w.v 2 1, arm := if w.lo then bitOf w.v 0 else j.arm }
    if w.acts then armInjector s i else s
  | 0x08 => setInjector s i { j with mask := w.v % 2 ^ 32 }
  | _ => s

/-- Trap and notification registers (R390). -/
def writeTrapReg (s : State) (slot off : Nat) (w : RegWrite) : State :=
  let c := ctxOf s slot
  match off with
  | 0x00 => setCtx s slot { c with handler := BitVec.ofNat 64 (bitsOf w.v 51 3 * 8), hvalid := bitOf w.v 0 }
  | 0x08 =>
    if w.lo then
      let s := if bitOf w.v 0 && !c.pre then beginPre s slot else s
      if bitOf w.v 1 && !c.res && c.state == 2 then beginRes s slot else s
    else s
  | 0x10 => setCtx s slot { c with nrbase := bitsOf w.v 51 12, nrlog := bitsOf w.v 3 0 }
  | 0x20 => if w.lo then setCtx s slot { c with nrtail := BitVec.ofNat 32 w.v } else s
  | 0x28 => setCtx s slot { c with wva := bitsOf w.v 51 0 }
  | 0x30 => setCtx s slot { c with wen := bitOf w.v 9, wkind := bitsOf w.v 8 6, wlog := bitsOf w.v 5 0 }
  | 0x38 =>
    setCtx s slot { c with impbase := bitsOf w.v 51 12, impq := bitsOf w.v 11 4, impgo := c.impgo || w.acts }
  | _ => s

/-- Housekeeping registers (R448): only the host writes them. -/
def writeHouseReg (s : State) (off : Nat) (w : RegWrite) : State :=
  let h := s.house
  if !w.host then s
  else if off = 0x10 then
    (if h.rsgo && w.lo then s else { s with house := { h with rsbuf := bitsOf w.v 51 12, rsgo := h.rsgo || w.acts } })
  else if off = 0x18 then { s with house := { h with rssize := BitVec.ofNat 32 (w.v / 2 ^ 32) } }
  else s

/-- The register at an aligned 8-byte offset takes a write. -/
def writeReg (s : State) (off : Nat) (w : RegWrite) : State :=
  if 0x100000 ≤ off ∧ off < 0x104000 then writeQueueReg s ((off - 0x100000) / 64) (off % 64) w
  else if off = 0x104000 then { s with guard := BitVec.ofNat 32 w.v }
  else if 0x110000 ≤ off ∧ off < 0x111000 then writeXlateReg s ((off - 0x110000) / 64) (off % 64) w
  else if 0x112000 ≤ off ∧ off < 0x112100 then writePoolReg s ((off - 0x112000) / 64) (off % 64) w
  else if 0x114000 ≤ off ∧ off < 0x114100 ∧ off % 64 = 0 then
    (if w.host then writeSplit s ((off - 0x114000) / 64) w.v else s)
  else if 0x116000 ≤ off ∧ off < 0x117000 then writeReportReg s ((off - 0x116000) / 64) (off % 64) w
  else if 0x118000 ≤ off ∧ off < 0x118018 then writeNetReg s (off - 0x118000) w.v
  else if 0x11A400 ≤ off ∧ off < 0x11A700 then writeInjectorReg s ((off - 0x11A400) / 32) (off % 32) w
  else if 0x11B000 ≤ off ∧ off < 0x11B800 then
    (if w.host then
      { s with admitRegs := s.admitRegs.putD 0 ((off - 0x11B000) / 8) (BitVec.ofNat 64 w.v &&& 0xFFFF7F3F00000001#64) }
     else s)
  else if 0x11D000 ≤ off ∧ off < 0x11E000 then writeTrapReg s ((off - 0x11D000) / 64) (off % 64) w
  else if off = 0x11E008 then
    (if w.host then { s with scrubReg := { s.scrubReg with mgslot := w.v % 64 } } else s)
  else if 0x120000 ≤ off ∧ off < 0x120148 then writeHouseReg s (off - 0x120000) w
  else s

/-- A write of 1, 2, 4, 8 or 16 bytes (R455): narrow and misaligned ones are discarded. -/
def devWrite (s : State) (host : Bool) (off n v : Nat) : State :=
  if off % n ≠ 0 then s
  else
    match n with
    | 4 =>
      let old := devReg s (off / 8 * 8)
      if off % 8 = 0 then
        writeReg s off { v := old / 2 ^ 32 * 2 ^ 32 + v % 2 ^ 32, lo := true, hi := false, host := host }
      else
        writeReg s (off - 4) { v := old % 2 ^ 32 + v % 2 ^ 32 * 2 ^ 32, lo := false, hi := true, host := host }
    | 8 => writeReg s off { v := v % 2 ^ 64, lo := true, hi := true, host := host }
    | 16 =>
      let s := writeReg s off { v := v % 2 ^ 64, lo := true, hi := true, host := host }
      writeReg s (off + 8) { v := v / 2 ^ 64 % 2 ^ 64, lo := true, hi := true, host := host }
    | _ => s

end Sys2Proof.Machine
end

