-- ==== Sys2Proof/Machine/MemSys.lean ====
section
/-! DEFINITION. The memory accesses of words, lane by lane: apertures (R180 to R182), the checks of R255 and their
precedence (R197, R389), the first level (R256, R332), homes, and the placement of atomics (R355). -/

namespace Sys2Proof.Machine

/-! ## Apertures (R180, R182) -/

/-- Where an effective address lies. -/
inductive Aperture where
  /-- a global or converted stack address -/
  | global (va : Nat)
  | spad (off : Nat)
  | group (gid off : Nat)
  | bad (cause : Nat)
  deriving DecidableEq, Repr

/-- R182's conversion. -/
def stackVa (l : Launch) (k lane off : Nat) : Nat :=
  l.stack + k * 32 * l.stkSz + off / 16 * 512 + lane * 16 + off % 16

/-- A group id that a group entry of the launch defines (R29), with that entry. -/
def Launch.groupOf (l : Launch) (gid : Nat) : Option GroupEntry :=
  l.groups.find? fun g => g.gbase ≤ gid && gid < g.gbase + l.nblk / (g.gspan + 1)

/-- Classifies one access of n bytes of a lane (R180). -/
def apertureOf (s : State) (x : Warp) (ldg : Bool) (lane n ga : Nat) : Aperture :=
  let l := launchAt s x.launch
  let top := ga / 2 ^ 48
  let off := ga % 2 ^ 48
  if top = 0xFFFF then
    if x.isCallee then .bad 1
    else if ldg then .bad 2
    else if off + n ≤ (blockAt s x.block).spSize then .spad off else .bad 1
  else if top = 0xFFFE then
    if ldg then .bad 2
    else if l.stkSz < off + n then .bad 1
    else
      let va := stackVa l x.stkIdx lane off
      if va + n ≤ 2 ^ 52 then .global va else .bad 1
  else if top = 0xFFFD then
    if x.isCallee then .bad 1
    else if !ldg then .bad 2
    else
      let gid := off / 2 ^ 32
      let o := off % 2 ^ 32
      if (l.groupOf gid).isSome && o + n ≤ l.spadBytes then .group gid o else .bad 1
  else if ldg then .bad 2
  else if ga < 2 ^ 52 then (if ga + n ≤ 2 ^ 52 then .global ga else .bad 1)
  else .bad 0

/-! ## The checks of one lane (R255, R263, R390) -/

/-- What a lane's access reaches. -/
inductive Target where
  | phys (pa e : Nat)
  /-- the block's own scratchpad, by physical address -/
  | spad (pa : Nat)
  /-- a discarded page, read as zeros -/
  | zeros
  | group (gid off : Nat)
  deriving DecidableEq, Repr

/-- The outcome of a lane's checks. -/
inductive Checked where
  | ok (t : Target)
  /-- a fault; PAGE may go to the host (R200) -/
  | bad (name : FaultName) (cause : Nat) (toHost : Bool)
  /-- GRADE: a table entry past correction, with the GRADE register's value -/
  | lost (gw : Word32)
  deriving DecidableEq, Repr

/-- What kind of access a word makes. -/
structure AccessKind where
  acc : Acc
  ldg : Bool := false
  /-- an atomic (R263) -/
  atomic : Bool := false
  /-- raises WATCH as a read or a write (R390) -/
  watchRd : Bool := false
  watchWr : Bool := false
  /-- raises PAGE of every cause to its handler: a system word (R411) -/
  noHost : Bool := false
  /-- goes to its home whatever the first level holds: an atomic, or CH .nol1 -/
  home : Bool := false
  /-- asks nothing of the network but a write-back -/
  maint : Bool := false
  deriving DecidableEq, Repr

def loadKind : AccessKind := { acc := .rd, watchRd := true }
def storeKind : AccessKind := { acc := .wr, watchWr := true }
def atomKind : AccessKind := { acc := .rw, atomic := true, watchRd := true, watchWr := true, home := true }
def maintKind : AccessKind := { acc := .wr, maint := true }
def groupKind : AccessKind := { acc := .rd, ldg := true }

/-- The access as CH has it made. -/
def AccessKind.by (k : AccessKind) (ch : Cache) : AccessKind := { k with home := k.home || ch == .nol1 }

/-- The die whose pool serves a page: that of its frame, else the issuing core's (R198). -/
def pageDie (s : State) (slot core va : Nat) : Nat :=
  match (walk s slot va).2 with
  | .leaf _ e _ => if classOf (leafFrame e) < 4 then classOf (leafFrame e) else coreDie core
  | _ => coreDie core

/-- A PAGE fault goes to the host: cause 0, or an empty pool (R198, R200). -/
def pageToHost (s : State) (x : Warp) (k : AccessKind) (cause va : Nat) : Bool :=
  !k.noHost && (cause == 0 || poolEmpty s (pageDie s x.ctx x.core va))

/-- The cause of PROT at a frame that does not serve the access: an atomic on a class that has none (R263), or a peer that is
unreachable or refuses (R237). -/
def frameFault (s : State) (k : AccessKind) (asid pa : Nat) : Option Nat :=
  if k.atomic && (classOf pa == 10 || classOf pa == 14 || classOf pa == 15) then some 4
  else if peerDown s pa || peerRefused s pa asid then some 3
  else none

/-- The translation of a global access: before a PROT of its frame is raised too, the TLBs' entries go and the tables are
walked afresh (R192). -/
def xlateFor (s : State) (x : Warp) (k : AccessKind) (va : Nat) : State × Xl :=
  let hit := tlbHit s x.core x.asid va
  let user := x.handler.isNone
  match xlate s x.core x.asid va k.acc user with
  | (s, .ok pa e) =>
    if hit && (frameFault s k x.asid pa).isSome then rewalk s x.core x.asid va k.acc user else (s, .ok pa e)
  | r => r

/-- A global access of one lane: translation, class, watch, and after it an entry past correction (R389). -/
def checkGlobal (s : State) (x : Warp) (k : AccessKind) (n va : Nat) : State × Checked :=
  let watch (r : Checked) : Checked :=
    if k.watchRd && watched s x.ctx 0 va n then .bad .watch 0 false
    else if k.watchWr && watched s x.ctx 1 va n then .bad .watch 1 false
    else r
  match xlateFor s x k va with
  | (s, .fault .page c) => (s, .bad .page c (pageToHost s x k c va))
  | (s, .fault nm c) => (s, .bad nm c false)
  | (s, .lost gw) => (s, watch (.lost gw))
  | (s, .zeros) => (s, watch (.ok .zeros))
  | (s, .ok pa e) =>
    match frameFault s k x.asid pa with
    | some c => (s, .bad .prot c false)
    | none => (s, watch (.ok (.phys pa e)))

/-- The checks of one lane in their order (R255). -/
def checkLane (s : State) (x : Warp) (k : AccessKind) (n lane : Nat) (ga : Word64) : State × Checked :=
  let a := apertureOf s x k.ldg lane n ga.toNat
  match a with
  | .bad c => (s, .bad .aperture c false)
  | _ =>
    if ga.toNat % n ≠ 0 then (s, .bad .misalign 0 false)
    else
      match a with
      | .spad off => (s, .ok (.spad (spadAddr x.core ((blockAt s x.block).spBase + off))))
      | .group gid off => (s, .ok (.group gid off))
      | .global va => checkGlobal s x k n va
      | .bad c => (s, .bad .aperture c false)

/-! ## The checks of a word (R197, R389) -/

/-- Rank in the precedence of R197, extended by R389. -/
def faultRank (name : FaultName) (cause : Nat) : Nat :=
  match name with
  | .aperture => 0
  | .misalign => 1
  | .prot => 2
  | .page => if cause = 0 then 3 else 4
  | .watch => 5
  | _ => 6

/-- One lane of a word: its number, its address, its outcome. -/
structure LaneCheck where
  lane : Nat
  ga : Word64
  res : Checked
  deriving DecidableEq, Repr

/-- Checks every lane of G. -/
def checkLanes (s : State) (x : Warp) (k : AccessKind) (n : Nat) (g : Lanes) (addr : Nat → Word64) :
    State × List LaneCheck :=
  (lanesOf g).foldl (fun (s, cs) l =>
    let (s, r) := checkLane s x k n l (addr l)
    (s, cs ++ [{ lane := l, ga := addr l, res := r }])) (s, [])

/-- The place of a lane's fault in the precedence of R197. -/
def Checked.rank : Checked → Option Nat
  | .ok _ => none
  | .bad n q _ => some (faultRank n q)
  | .lost _ => some (faultRank .grade 3)

/-- The failing lane whose fault ranks first, the lowest among equals. -/
def worstLane (cs : List LaneCheck) : Option LaneCheck :=
  cs.foldl (fun best c =>
    match c.res.rank, best.bind (·.res.rank) with
    | some r, some b => if r < b then some c else best
    | some _, none => some c
    | none, _ => best) none

/-- KIND of a host fault record (R200). -/
def Acc.hostKind : Acc → Nat
  | .rd => 0 | .wr => 1 | .fetch => 2 | .rw => 3

/-- The fault of some lanes, at the addresses of those that meet it. -/
def laneFault (cs : List LaneCheck) (r : Checked) (n : FaultName) (q info : Nat) : FaultInfo :=
  let hit := cs.filter (·.res == r)
  FaultInfo.perLane n q info (laneMask fun l => hit.any (·.lane == l)) fun l => ((hit.find? (·.lane == l)).map (·.ga)).getD 0

/-- The fault of a word, with the lanes that meet it. INFO of GRADE is the upper half of the GRADE register (R393). -/
def wordFault (cs : List LaneCheck) : Option (FaultInfo × Bool) :=
  match worstLane cs with
  | some { res := .bad n q h, .. } => some (laneFault cs (.bad n q h) n q 0, h)
  | some { res := .lost gw, .. } => some (laneFault cs (.lost gw) .grade 3 (gw.toNat / 2 ^ 16), false)
  | _ => none

/-- A word traps by such a fault; GRADE writes the GRADE register too (R249). -/
def checkTrap (s : State) (w : Nat) (f : FaultInfo) : WordEnd :=
  .trap (if f.name = .grade then recordGrade s w (BitVec.ofNat 32 (f.info * 2 ^ 16 + 3)) else s) f

/-- The lanes that passed, with what they reach. -/
def passedLanes (cs : List LaneCheck) : List (Nat × Word64 × Target) :=
  cs.filterMap fun c => match c.res with | .ok t => some (c.lane, c.ga, t) | _ => none

/-- A mask of n bytes from an offset of a line. -/
def byteMask (off n : Nat) : BitVec 128 := BitVec.ofNat 128 ((2 ^ n - 1) * 2 ^ off)

/-- An access of n bytes asks something of the network: all but those to the core's own scratchpad, under its own lease, or that
its first level serves from a line it holds (R256, R342). -/
def beyondCore (s : State) (core : Nat) (k : AccessKind) (n : Nat) (t : Target) : Bool :=
  match t with
  | .phys pa _ =>
    !leasedBy s core (pa / 128) && pa / 2 ^ 24 != 9 * 2 ^ 24 + core &&
      (match l1Find s core (pa / 128) with
       | none => !k.maint
       | some l =>
         if k.maint then l.dirty != 0
         else k.home || (k.acc == .rd && l.valid &&& byteMask (pa % 128) n != byteMask (pa % 128) n))
  | .group _ _ => true
  | _ => false

/-- The word needs the core's request queue to the network while that is full (R95). -/
def queueHolds (s : State) (core : Nat) (k : AccessKind) (n : Nat) (ts : List (Nat × Word64 × Target)) : Bool :=
  s.fullQueues.contains core && ts.any fun (_, _, t) => beyondCore s core k n t

/-- An access that reaches a scratchpad row, by its own aperture or through a class-0x9 page. -/
def Target.onSpad : Target → Bool
  | .spad _ => true
  | .phys pa _ => pa / 2 ^ 48 % 16 == 9
  | _ => false

/-- The core, not its own, that is being moved and whose scratchpad an access is aimed at: it is refused (R439). Its word, with
which the transport takes place, waits (log 16). -/
def movedTarget (s : State) (core : Nat) (t : Target) : Option Nat :=
  match t with
  | .phys pa _ =>
    let c := pa / 2 ^ 24 % 256
    if pa / 2 ^ 48 % 16 = 9 ∧ c ≠ core ∧ coreShut s c = true then some c else none
  | _ => none

/-- Some lane reaches a scratchpad row while a group load of the warp has not read its members yet: accesses to one byte
keep their order (R333). -/
def groupHolds (x : Warp) (ts : List (Nat × Word64 × Target)) : Bool :=
  x.groupPending != [] && ts.any fun (_, _, t) => t.onSpad

/-- What a word whose accesses are checked has to wait for, if anything, before it makes them. -/
def accessWait (s : State) (i : Issuer) (k : AccessKind) (n : Nat) (ts : List (Nat × Word64 × Target)) : Option Park :=
  if groupHolds i.x ts then some (.pending i.x.groupPending)
  else if queueHolds s i.x.core k n ts then some .network
  else ((ts.filterMap fun (_, _, t) => movedTarget s i.x.core t).head?).map .moving

/-- A word's lanes are checked; if none fails, and its requests find room, the body goes on with them. -/
def withLanes (s : State) (i : Issuer) (k : AccessKind) (n : Nat) (g : Lanes) (addr : Nat → Word64)
    (body : State → List (Nat × Word64 × Target) → WordEnd) : WordEnd :=
  let (s, cs) := checkLanes s i.x k n g addr
  match wordFault cs with
  | some (f, true) => .host s f k.acc.hostKind
  | some (f, false) => checkTrap s i.w f
  | none =>
    let ts := passedLanes cs
    match accessWait s i k n ts with
    | some c => .park s c
    | none => body s ts

/-! ## The first level (R256) -/

/-- The bytes of a 512-bit sector. -/
def sectorBytes (d : Nat) : List Byte := leBytes 64 d

/-- Opens one sector of a line at home for a fill: its bytes as corrected, and what the line is to know of it. -/
def fillHalf (s : State) (pa nl : Nat) (was : Bool) : State × List Byte × L1Half :=
  if unserved s pa then (s, List.replicate 64 0, { bad := 0, groups := [], src := 2, nl := nl })
  else
    let nlo := openedNl s pa nl was
    let (s', dec, src) := openSector s pa nl was
    (if !was && heldAt s' (pa / 128) then takeLayout s' pa nl dec else s', sectorBytes dec.data,
      { bad := dec.bad, groups := dec.groups, src := src, nl := nlo })

/-- The same of a sector whose data has met flips that no link has seen (R226). -/
def spoilHalf (s : State) (pa nl : Nat) (was : Bool) (flips : List Nat) (half : List Byte × L1Half) :
    State × List Byte × L1Half :=
  if flips.isEmpty || half.2.bad != 0 then (s, half)
  else
    let (free, s) := freshWord s
    let dec := decodeSector free half.2.nl (pa / 64) (leNat half.1)
      (toggleFlips (s.sectors.getD .clean (pa / 64)).flips (sectorFlips flips))
    (countDecode s pa was false nl dec, sectorBytes dec.data, { half.2 with bad := dec.bad, groups := dec.groups })

/-- What is known of a sector that no read has opened. -/
def L1Half.blank (nl : Nat) : L1Half := { bad := 0, groups := [], src := 0, nl := nl }

/-- Reads a line at home by one request, opening the sectors that are wanted. -/
def homeLine (s : State) (core line nl : Nat) (lo hi : Bool) : State × List Byte × List L1Half :=
  let pa := line * 128
  let (s, flips) := travel s (some core) pa false
  let (s, was) := requestLine s (some core) pa 0
  let half (s : State) (p : Nat) (want : Bool) : State × List Byte × L1Half :=
    if want then fillHalf s p nl was else (s, List.replicate 64 0, .blank nl)
  let (s, a) := half s pa lo
  let (s, b) := half s (pa + 64) hi
  let s := recodeLine s pa nl was
  let (s, a) := spoilHalf s pa nl was (if lo then flips else []) a
  let (s, b) := spoilHalf s (pa + 64) nl was (if lo then [] else flips) b
  (s, a.1 ++ b.1, [a.2, b.2])

/-- Reads a whole line at home for a fill. -/
def fillLine (s : State) (core line nl : Nat) : State × List Byte × List L1Half := homeLine s core line nl true true

/-- What a line in the first level delivers: a byte that this core has written since is good whatever its sector held, and
only the others are graded. -/
def L1Line.deliver (l : L1Line) (off n tp : Nat) : Deliv :=
  let h := l.halves.getD (off / 64) { bad := 0, groups := [], src := 0, nl := 0 }
  let half := leNat ((l.data.drop (off / 64 * 64)).take 64)
  let mine (k : Nat) : Bool := l.good.getLsbD (off + k)
  let others := (List.range n).filter fun k => !mine k
  let d := deliverBytes h.nl tp (l.line * 2 + off / 64) h.src
    { data := half, bad := h.bad, groups := h.groups, corrected := false } (others.map fun k => off % 64 + k)
  let at_ (k : Nat) : Nat := others.idxOf k
  { d with data := (List.range n).map fun k => if mine k then l.data.getD (off + k) 0 else d.data.getD (at_ k) 0,
           poison := (List.range n).map fun k => !mine k && d.poison.getD (at_ k) false }

/-- Which bytes of a line an update gives. -/
def updMask (upd : List (Option Byte)) : BitVec 128 := BitVec.ofNat 128 (upd.foldr (fun b m => 2 * m + b2n b.isSome) 0)

/-- A line filled from home, merged under its dirty bytes. -/
def L1Line.refill (l : L1Line) (fill : List Byte) (halves : List L1Half) : L1Line :=
  { l with data := (List.range 128).map fun k => if l.dirty.getLsbD k then l.data.getD k 0 else fill.getD k 0,
           valid := BitVec.allOnes 128, halves := halves, good := l.dirty }

/-- A load served by the first level. -/
def l1Read (s : State) (core pa n nl tp : Nat) (ch : Cache) : State × Deliv :=
  match l1Find s core (pa / 128) with
  | some l =>
    let l := { l with prio := ch }
    if l.valid &&& byteMask (pa % 128) n = byteMask (pa % 128) n then (l1Put s l, l.deliver (pa % 128) n tp)
    else
      let (s, fill, halves) := fillLine s core (pa / 128) nl
      let l := l.refill fill halves
      (l1Put s l, l.deliver (pa % 128) n tp)
  | none =>
    match l1Room s core (pa / 128) with
    | (s, false) => readHome s (some core) pa n nl tp
    | (s, true) =>
      let (s, fill, halves) := fillLine s core (pa / 128) nl
      let l : L1Line := { core := core, line := pa / 128, data := fill, valid := BitVec.allOnes 128, dirty := 0,
                          prio := ch, halves := halves, good := 0, nl := nl, tp := tp }
      (l1Put s l, l.deliver (pa % 128) n tp)

/-- A store into the first level under the line's dirty mask. -/
def l1Write (s : State) (core line : Nat) (upd : List (Option Byte)) (nl tp : Nat) (ch : Cache) : State :=
  let m := updMask upd
  let merge := List.zipWith fun (b : Option Byte) old => b.getD old
  match l1Find s core line with
  | some l =>
    l1Put s { l with data := merge upd l.data, valid := l.valid ||| m, dirty := l.dirty ||| m, good := l.good ||| m,
                     prio := ch, nl := nl, tp := tp }
  | none =>
    match l1Room s core line with
    | (s, false) => maskedLine s (some core) line (upd.take 64) (upd.drop 64) nl tp
    | (s, true) =>
      l1Put s { core := core, line := line, data := merge upd (List.replicate 128 0), valid := m, dirty := m, prio := ch,
                halves := List.replicate 2 (.blank nl), good := m, nl := nl, tp := tp }

/-- The classes that the first level holds (R256). -/
def l1Class (pa : Nat) : Bool := classOf pa < 4 || classOf pa == 8

/-- The first level serves an access of its core to a line: by class and CH, and not one that the core holds under a lease,
which stands at home (R256, R342). -/
def byL1 (s : State) (core : Nat) (ch : Cache) (pa : Nat) : Bool :=
  l1Class pa && ch != .nol1 && !leasedBy s core (pa / 128)

/-- Lines that a word accesses at their homes: without the first level, under a lease, or at a peer package (R256). -/
def atHome (s : State) (core : Nat) (ch : Cache) (pa : Nat) : Bool :=
  (l1Class pa && !byL1 s core ch pa) || classOf pa == 12

/-- What an access at home does; one under the core's own lease is none of R216's accesses. -/
def countedUnless (s : State) (core pa : Nat) (t : State) : State := if leasedBy s core (pa / 128) then uncounted s t else t

/-- A read by a lane at what its address reaches, but for lines read at home. -/
def readTarget (s : State) (core n : Nat) (ch : Cache) (t : Target) : State × Deliv :=
  match t with
  | .zeros => (s, Deliv.good (List.replicate n 0))
  | .spad pa => (noteSpad s pa n, readSpad s pa n)
  | .group _ _ => (s, Deliv.good (List.replicate n 0))
  | .phys pa e =>
    if byL1 s core ch pa then l1Read s core pa n (leafNl e) (leafTp e) ch
    else
      let (t, d) := physRead (flushLine s core (pa / 128)) (some core) pa n (leafNl e) (leafTp e)
      (countedUnless s core pa t, d)

/-- What names a line read at home: its number and the layout and tail policy of the translation. -/
def homeKey (pa e : Nat) : Nat := pa / 128 * 32 + leafNl e * 4 + leafTp e

/-- The lines that the lanes of a word read at home, each by one request for the sectors they touch (R216, R256). -/
def homeLines (s : State) (core n : Nat) (ch : Cache) (ts : List (Nat × Word64 × Target)) : State × List (Nat × L1Line) :=
  let wanted : List (Nat × Nat) := ts.filterMap fun (_, _, t) =>
    match t with
    | .phys pa e => if atHome s core ch pa then some (pa, e) else none
    | _ => none
  wanted.foldl (fun (s, lines) (pa, e) =>
    let key := homeKey pa e
    if lines.any (·.1 == key) then (s, lines)
    else
      let mine := wanted.filter fun (p, q) => homeKey p q == key
      let (t, data, halves) := homeLine (flushLine s core (pa / 128)) core (pa / 128) (leafNl e)
        (mine.any fun (p, _) => p % 128 < 64) (mine.any fun (p, _) => 64 < p % 128 + n)
      let l : L1Line := { core := core, line := pa / 128, data := data, valid := BitVec.allOnes 128, dirty := 0, prio := ch,
                          halves := halves, good := 0, nl := leafNl e, tp := leafTp e }
      (countedUnless s core pa t, lines ++ [(key, l)])) (s, [])

/-- A write by physical address, device registers among the classes (R184, R455). -/
def physWrite (s : State) (core : Option Nat) (pa : Nat) (bytes : List Byte) (nl tp : Nat) : State :=
  if classOf pa = 14 then devWrite s false (offOf pa) bytes.length (leNat bytes) else plainWrite s core pa bytes nl tp

/-- A store of bytes of one line, given as 128 optional bytes; the frame is marked before the write (R203). -/
def writeLine (s : State) (x : Warp) (ch : Cache) (pa e : Nat) (upd : List (Option Byte)) : State :=
  let s := markDirty s x.core x.ctx pa
  if byL1 s x.core ch pa then l1Write s x.core (pa / 128) upd (leafNl e) (leafTp e) ch
  else
    countedUnless s x.core pa
      (maskedLine (flushLine s x.core (pa / 128)) (some x.core) (pa / 128) (upd.take 64) (upd.drop 64) (leafNl e) (leafTp e))

/-- A store of bytes of one scratchpad row, given as 64 optional bytes. -/
def writeRow (s : State) (row : Nat) (upd : List (Option Byte)) : State :=
  let s := { s with mem := setMasked s.mem (row * 64) upd }
  if upd.all Option.isSome then
    cleanRows { s with spadMarks := s.spadMarks.filter (· != row) } (· == row)
  else s

/-- The unit of which a store word's lanes write bytes together: a line or a scratchpad row, with its first address and
its size. Stores elsewhere are written lane by lane. -/
def storeUnit (t : Target) : Option (Nat × Nat) :=
  match t with
  | .spad pa => some (pa / 64 * 64, 64)
  | .phys pa _ => if l1Class pa || classOf pa == 12 then some (pa / 128 * 128, 128) else none
  | _ => none

/-- The physical address of a target. -/
def Target.pa : Target → Nat
  | .phys pa _ => pa
  | .spad pa => pa
  | _ => 0

/-- The bytes that lanes write in a unit: the highest lane's remain (R257). -/
def unitBytes (base size n : Nat) (v : Nat → Nat) (ts : List (Nat × Word64 × Target)) : List (Option Byte) :=
  let mine := (ts.filter fun (_, _, t) => storeUnit t == some (base, size)).reverse
  (List.range size).map fun k =>
    mine.findSome? fun (l, _, t) =>
      if t.pa ≤ base + k && base + k < t.pa + n then some (BitVec.ofNat 8 (v l / 2 ^ (8 * (base + k - t.pa)))) else none

/-- Writes a word's lanes, unit by unit in the order of their first lanes; ts holds the lanes still to go. -/
def writeUnits (x : Warp) (n : Nat) (ch : Cache) (v : Nat → Nat) (all : List (Nat × Word64 × Target)) :
    List (Nat × Word64 × Target) → List Nat → State → State
  | [], _, s => s
  | (l, _, t) :: ts, done, s =>
    match storeUnit t, t with
    | some (base, size), t =>
      if done.contains base then writeUnits x n ch v all ts done s
      else
        let upd := unitBytes base size n v all
        let s := match t with
          | .phys pa e => writeLine s x ch pa e upd
          | _ => writeRow s (base / 64) upd
        writeUnits x n ch v all ts (base :: done) s
    | none, .phys pa e =>
      writeUnits x n ch v all ts done
        (physWrite (markDirty s x.core x.ctx pa) (some x.core) pa (leBytes n (v l)) (leafNl e) (leafTp e))
    | none, _ => writeUnits x n ch v all ts done s

/-- Writes every lane of a store word. -/
def writeLanes (s : State) (x : Warp) (n : Nat) (ch : Cache) (ts : List (Nat × Word64 × Target)) (v : Nat → Nat) : State :=
  writeUnits x n ch v ts ts [] s

/-- A store of bytes by one lane. -/
def writeTarget (s : State) (x : Warp) (bytes : List Byte) (ch : Cache) (t : Target) : State :=
  writeLanes s x bytes.length ch [(0, 0, t)] fun _ => leNat bytes

/-! ## Atomics and their placement (R261, R263, R355, R356) -/

/-- An entry of the placement table changes its counter. -/
def chargeHome (s : State) (core pa : Nat) : State :=
  let k := placeIdx core pa
  let line := pa / 128
  let s := bumpPlace s k (s.sole.find? line != some core) 1
  { s with sole := s.sole.put line core }

/-- Grants a lease on a line (R356), to a core or to package p as holder 256 + p, whose entries are its own. -/
def grantLease (s : State) (core line : Nat) : State :=
  let s := { s with leases := s.leases ++ [{ line := line, core := core, granted := s.mem.bytes (line * 128) 128 }] }
  if 256 ≤ core then s
  else
    let k := placeIdx core (line * 128)
    { s with place := s.place.put k { placeOf s k with lease := some line } }

/-- A way for a leased line: false when all eight ways of its set hold leases (R256). -/
def leaseRoom (s : State) (core line : Nat) : State × Bool := l1Room (flushLine s core line) core line

/-- Where an atomic executes, and what that does to leases and counters; the data stands at home either way. -/
def placeAtomic (s : State) (core pa : Nat) : State :=
  if !(l1Class pa || classOf pa == 12) then s
  else
    let k := placeIdx core pa
    let e := placeOf s k
    let line := pa / 128
    if e.lease = some line then s
    else if e.counter ≤ 1 ∧ e.lease = none then
      if s.leases.any (·.line == line) then chargeHome (reachHome (bumpPlace s k true 1) (some core) pa) core pa
      else
        match leaseRoom s core line with
        | (s, true) => grantLease (reachHome s (some core) pa) core line
        | (s, false) => chargeHome (reachHome s (some core) pa) core pa
    else chargeHome (reachHome s (some core) pa) core pa

/-- One single-copy-atomic step of a lane: what it read, and the state after f has given the new value. A poisoned
read performs no update (R246, R261). R216 counts an atomic at home once and one under a lease not at all. -/
def atomicStep (s : State) (x : Warp) (n : Nat) (t : Target) (f : Nat → Option Nat) : State × Deliv :=
  match t with
  | .zeros | .group _ _ => (s, Deliv.good (List.replicate n 0))
  | .spad pa =>
    let s := noteSpad s pa n
    let d := readSpad s pa n
    if d.isPoison then (s, d)
    else (match f (leNat d.data) with | some v => writeSpad s pa (leBytes n v) | none => s, d)
  | .phys pa e =>
    let s := placeAtomic (flushLine s x.core (pa / 128)) x.core pa
    let (t, d) := physRead s (some x.core) pa n (leafNl e) (leafTp e)
    let t := countedUnless s x.core pa t
    if d.isPoison then (t, d)
    else
      match f (leNat d.data) with
      | some v =>
        (uncounted t (physWrite (markDirty t x.core x.ctx pa) (some x.core) pa (leBytes n v) (leafNl e) (leafTp e)), d)
      | none => (t, d)

/-! ## What deliveries report (R138, R245, R246, R249) -/

/-- The delivery of highest grade. -/
def worstDeliv (ds : List (Nat × Word64 × Deliv)) : Option Deliv :=
  ds.foldl (fun best (_, _, d) =>
    if d.grade = 0 then best
    else match best with
      | some b => if b.grade < d.grade then some d else best
      | none => some d) none

/-- The GRADE register's value for a word's deliveries, if some was graded. -/
def gradeOf (ds : List (Nat × Word64 × Deliv)) : Option Word32 :=
  (worstDeliv ds).map fun d => gradeWord d.src d.nl d.grade

/-- The tail elements that a word consumed under TP 1 or 2, each once (R245). -/
def tailsOf (ds : List (Nat × Word64 × Deliv)) : List Nat := (ds.flatMap fun (_, _, d) => d.tails).eraseDups

/-- Counts tail elements in TAILN of a context. -/
def countTails (s : State) (slot n : Nat) : State :=
  if n = 0 then s else updCtx s slot fun c => { c with tailn := Nat.min (c.tailn + n) (2 ^ 64 - 1) }

/-- The GRADE fault of the lanes that met poison; deferred faults carry bit 7 of CAUSE (R456). -/
def poisonFault (ds : List (Nat × Word64 × Deliv)) (deferred : Bool) : Option FaultInfo :=
  let hit := ds.filter fun (_, _, d) => d.isPoison
  match worstDeliv hit with
  | none => none
  | some d =>
    some (FaultInfo.perLane .grade (d.grade + (if deferred then 0x80 else 0)) ((gradeWord d.src d.nl d.grade).toNat / 2 ^ 16)
      (laneMask fun l => hit.any (·.1 == l)) fun l => ((hit.find? (·.1 == l)).map (·.2.1)).getD 0)

/-- The data of a lane as a number. -/
def dataOf (ds : List (Nat × Word64 × Deliv)) (l : Nat) : Nat := ((ds.find? (·.1 == l)).map fun x => leNat x.2.2.data).getD 0

end Sys2Proof.Machine
end

