-- ==== Sys2Proof/Machine/MemInstr.lean ====
section
/-! DEFINITION. The memory instructions (R253 to R271). -/

namespace Sys2Proof.Machine

/-! ## Addresses and registers -/

/-- The registers of an address base. -/
def baseRegs : Base → List Reg
  | .v n => vRegs true n.val
  | .s n => sRegs true n.val

/-- The address base of a lane. -/
def Warp.baseOf (x : Warp) (b : Base) (l : Nat) : Word64 :=
  match b with
  | .v n => x.laneV true n.val l
  | .s n => x.uniS true n.val

/-- The effective address of a lane (R86). -/
def Warp.effAddr (x : Warp) (m : MAddr) (l : Nat) : Word64 := x.baseOf m.base l + m.off.signExtend 64

/-- The effective address under a word offset, in units of 4 bytes. -/
def Warp.wordAddr (x : Warp) (m : WAddr) (l : Nat) : Word64 := x.baseOf m.base l + 4 * m.woff.signExtend 64

/-- Registers that n bytes fill. -/
def regsFor (n : Nat) : Nat := (n + 3) / 4

/-- The V registers that hold n bytes from d. -/
def dataRegs (d n : Nat) : List Reg := (List.range (regsFor n)).map fun k => .v (d + k)

/-- The n bytes that a lane holds in registers from d. -/
def Warp.dataNat (x : Warp) (d n l : Nat) : Nat :=
  ((List.range (regsFor n)).map fun k => ((x.getV (d + k)).lane l).toNat * 2 ^ (32 * k)).foldl (· + ·) 0 % 2 ^ (8 * n)

/-- The extension of LD (R258). -/
def loadExtend (sz : MSize) (v : Nat) : Nat :=
  match sz with
  | .i8 => wrapTo 32 (signedOf 8 v)
  | .i16 => wrapTo 32 (signedOf 16 v)
  | _ => v

/-- A word of the memory chapter. -/
def memSpec (opc : Nat) (g : Guard) (b : Base) (reads writes : List Reg) : WordSpec :=
  { opc := opc, guard := g, reads := baseRegs b ++ reads, writes := writes }

/-- The word of an access that carries an order: as a release it follows earlier group loads. -/
def WordSpec.ordered (ws : WordSpec) (ord : Order) : WordSpec :=
  { ws with orders := match ord with | .rel | .ar => true | _ => false }

/-! ## What orders do in the first level (R329, R335) -/

def acquires : Order → Bool
  | .acq | .ar => true
  | _ => false

def releases : Order → Bool
  | .rel | .ar => true
  | _ => false

/-- Before the access. -/
def orderBefore (s : State) (core : Nat) (sco : Scope) (ord : Order) : State :=
  if releases ord then releaseScope s core sco else s

/-- After the access. -/
def orderAfter (s : State) (core : Nat) (sco : Scope) (ord : Order) : State :=
  if acquires ord then acquireScope s core sco else s

/-! ## Reads of a word's lanes -/

/-- What lanes receive: lane, generic address, delivery. -/
abbrev Lot := List (Nat × Word64 × Deliv)

/-- Reads every lane in ascending order; lines read at home come by one request each. -/
def readLanes (s : State) (core n : Nat) (ch : Cache) (ts : List (Nat × Word64 × Target)) : State × Lot :=
  let (s, lines) := homeLines s core n ch ts
  let served (t : Target) : Option Deliv :=
    match t with
    | .phys pa e => (lines.find? (·.1 == homeKey pa e)).map fun (_, l) => l.deliver (pa % 128) n (leafTp e)
    | _ => none
  ts.foldl (fun (s, ds) (l, ga, t) =>
    match served t with
    | some d => (s, ds ++ [(l, ga, d)])
    | none =>
      let (s, d) := readTarget s core n ch t
      (s, ds ++ [(l, ga, d)])) (s, [])

/-- The lanes of a lot without poison. -/
def cleanLanes (ds : Lot) : Lanes := laneMask fun l => ds.any fun (k, _, d) => k == l && !d.isPoison

/-- The lanes of a lot. -/
def lotLanes (ds : Lot) : Lanes := laneMask fun l => ds.any fun (k, _, _) => k == l

/-- The row that a function of the lane fills. -/
def rowOf (f : Nat → Word32) : Row := (List.range 32).map f

/-- Destinations of n bytes in V registers from d, in the lanes of a mask. -/
def vDests (x : Warp) (d n : Nat) (m : Lanes) (f : Nat → Nat) : List PDest :=
  (List.range (regsFor n)).map fun k => .v (x.regV (d + k)) m (rowOf fun l => BitVec.ofNat 32 (f l / 2 ^ (32 * k)))

/-- Destinations of n bytes in S registers from d. -/
def sDests (x : Warp) (d n v : Nat) : List PDest :=
  (List.range (regsFor n)).map fun k => .s (x.regS (d + k)) (BitVec.ofNat 32 (v / 2 ^ (32 * k)))

/-- The tail elements that count: those of lanes that receive their data. -/
def tailsIn (ds : Lot) (m : Lanes) : List Nat := tailsOf (ds.filter fun (l, _, _) => m.getLsbD l)

/-- A word's results are on their way, and the split waits for them to land when an enabled flag comes with them (R138). -/
def sendLater (s : State) (i : Issuer) (p : Pending) (wait : Bool) : WordEnd :=
  let s := addLater s i.w p
  if wait || (i.x.handler.isNone && enabledFlags i.x.flags p.flags != 0) then .doneWait s (.landing p.stamp)
  else .done s 0

/-- A load ends: what it delivers lands later; poison is a deferred fault, and then only the lanes of keep are
written (R246, R456). A quiet one raises no flag (R260). -/
def loadEnd (s : State) (i : Issuer) (ds : Lot) (keep : Lanes) (quiet : Bool) (dests : Lanes → List PDest) : WordEnd :=
  let f := poisonFault ds true
  let m := if f.isSome then keep else lotLanes ds
  let tails := tailsIn ds m
  let s := countTails s i.x.ctx (if quiet then 0 else tails.length)
  sendLater s i { plainPending s i.w i.e (dests m) with
                    flags := if tails.isEmpty || quiet then 0 else fTAIL, grade := gradeOf ds, fault := f } false

/-! ## Loads and stores (R258, R259) -/

/-- LD (R258). -/
def execLd (g : Guard) (sz : MSize) (sco : Scope) (ord : Order) (ch : Cache) (d : Fin 256) (m : MAddr) (s : State) :
    Host.Outcome State Fault Refusal :=
  issue (memSpec 0x60 g m.base [] (dataRegs d.val sz.bytes)) (fun s i k =>
    withLanes s i (loadKind.by ch) sz.bytes k (i.x.effAddr m) fun s ts =>
      let (s, ds) := readLanes s i.x.core sz.bytes ch ts
      loadEnd (orderAfter s i.x.core sco ord) i ds 0 false fun ls =>
        vDests i.x d.val sz.bytes ls fun l => loadExtend sz (dataOf ds l)) s

/-- ST (R258). -/
def execSt (g : Guard) (sz : MSize) (sco : Scope) (ord : Order) (ch : Cache) (d : Fin 256) (m : MAddr) (s : State) :
    Host.Outcome State Fault Refusal :=
  issue ((memSpec 0x61 g m.base (dataRegs d.val sz.bytes) []).ordered ord) (fun s i k =>
    withLanes s i (storeKind.by ch) sz.bytes k (i.x.effAddr m) fun s ts =>
      .done (writeLanes (orderBefore s i.x.core sco ord) i.x sz.bytes ch ts fun l => i.x.dataNat d.val sz.bytes l) 0) s

/-- The one lane that a uniform access goes by (R259). -/
def leadLane (g : Lanes) : Lanes := match lowestLane g with | some l => 1#32 <<< l | none => 0

/-- The S registers that hold n bytes from d. -/
def uniRegs (d n : Nat) : List Reg := (List.range (regsFor n)).map fun k => .s (d + k)

/-- The n bytes held in S registers from d. -/
def Warp.uniNat (x : Warp) (d n : Nat) : Nat :=
  ((List.range (regsFor n)).map fun k => (x.getS (d + k)).toNat * 2 ^ (32 * k)).foldl (· + ·) 0 % 2 ^ (8 * n)

/-- LDS (R259). -/
def execLds (g : Guard) (sz : MSize) (sco : Scope) (ord : Order) (ch : Cache) (d : Fin 64) (m : MAddr) (s : State) :
    Host.Outcome State Fault Refusal :=
  issue (memSpec 0x62 g m.base [] (uniRegs d.val sz.bytes)) (fun s i k =>
    withLanes s i (loadKind.by ch) sz.bytes (leadLane k) (i.x.effAddr m) fun s ts =>
      let (s, ds) := readLanes s i.x.core sz.bytes ch ts
      loadEnd (orderAfter s i.x.core sco ord) i ds 0 false fun _ =>
        sDests i.x d.val sz.bytes (loadExtend sz (dataOf ds ((lowestLane k).getD 0)))) s

/-- STS (R259). -/
def execSts (g : Guard) (sz : MSize) (sco : Scope) (ord : Order) (ch : Cache) (d : Fin 64) (m : MAddr) (s : State) :
    Host.Outcome State Fault Refusal :=
  issue ((memSpec 0x63 g m.base (uniRegs d.val sz.bytes) []).ordered ord) (fun s i k =>
    withLanes s i (storeKind.by ch) sz.bytes (leadLane k) (i.x.effAddr m) fun s ts =>
      .done (writeLanes (orderBefore s i.x.core sco ord) i.x sz.bytes ch ts fun _ => i.x.uniNat d.val sz.bytes) 0) s

/-! ## Atomics (R260 to R263) -/

/-- The type under which an atomic or a group load reads its elements. -/
def sizeTy : MSize → Ty
  | .b64 => .n64
  | .f32 => .f32
  | .bf16x2 => .bf16x2
  | .f16x2 => .f16x2
  | .i32 => .i32
  | .i64 => .i64
  | .f64 => .f64
  | _ => .n32

/-- A size of floating-point elements. -/
def sizeFloat : MSize → Bool
  | .f32 | .bf16x2 | .f16x2 | .f64 => true
  | _ => false

/-- Round to nearest even, subnormals kept (R135). -/
def rneKeep : FMod := { rnd := .rne, ftz := false }

/-- The new value of an atomic: o in memory, x the lane's operand (R260). -/
def atomValue (op : AtomOp) (sz : MSize) (o x : Nat) : Nat :=
  let w := 8 * sz.bytes
  let pick (max : Bool) : Nat :=
    if sz = .f32 then (fpMinMax .f32 max o x).1
    else if (valueOf (sizeTy sz) w x < valueOf (sizeTy sz) w o) != max then x else o
  match op with
  | .add =>
    if sizeFloat sz then (perFloat (sizeTy sz) fun k => fpAdd (fmtOf (sizeTy sz)) rneKeep (elemOf (sizeTy sz) o k) (elemOf (sizeTy sz) x k)).1
    else (o + x) % 2 ^ w
  | .min => pick false
  | .max => pick true
  | .and => Nat.land o x
  | .or => Nat.lor o x
  | .xor => Nat.xor o x
  | .exch => x
  | .inc => if x ≤ o then 0 else o + 1
  | .dec => if o = 0 ∨ x < o then x else o - 1

/-- Every lane's atomic step, in ascending lane order (R257, R261). -/
def atomicLanes (s : State) (x : Warp) (n : Nat) (ts : List (Nat × Word64 × Target)) (f : Nat → Nat → Option Nat) :
    State × Lot :=
  ts.foldl (fun (s, ds) (l, ga, t) =>
    let (s, d) := atomicStep s x n t (f l)
    (s, ds ++ [(l, ga, d)])) (s, [])

/-- The steps of an atomic word between what its order asks before and after. -/
def atomicWord (s : State) (i : Issuer) (sco : Scope) (ord : Order) (n : Nat) (ts : List (Nat × Word64 × Target))
    (f : Nat → Nat → Option Nat) : State × Lot :=
  let (s, ds) := atomicLanes (orderBefore s i.x.core sco ord) i.x n ts f
  (orderAfter s i.x.core sco ord, ds)

/-- ATOM (R261). -/
def execAtom (g : Guard) (op : AtomOp) (sz : MSize) (sco : Scope) (ord : Order) (d : Fin 256) (m : WAddr) (x : Fin 256)
    (s : State) : Host.Outcome State Fault Refusal :=
  issue { (memSpec 0x65 g m.base (dataRegs x.val sz.bytes) (dataRegs d.val sz.bytes)).ordered ord with unclean := true }
    (fun s i k =>
      withLanes s i atomKind sz.bytes k (i.x.wordAddr m) fun s ts =>
        let (s, ds) := atomicWord s i sco ord sz.bytes ts fun l o =>
          some (atomValue op sz o (i.x.dataNat x.val sz.bytes l))
        loadEnd s i ds (cleanLanes ds) (sizeFloat sz) fun ls => vDests i.x d.val sz.bytes ls (dataOf ds)) s

/-- RED (R261): nothing is delivered. -/
def execRed (g : Guard) (op : AtomOp) (sz : MSize) (sco : Scope) (ord : Order) (m : WAddr) (x : Fin 256) (s : State) :
    Host.Outcome State Fault Refusal :=
  issue { (memSpec 0x66 g m.base (dataRegs x.val sz.bytes) []).ordered ord with unclean := true } (fun s i k =>
    withLanes s i atomKind sz.bytes k (i.x.wordAddr m) fun s ts =>
      let (s, ds) := atomicWord s i sco ord sz.bytes ts fun l o =>
        some (atomValue op sz o (i.x.dataNat x.val sz.bytes l))
      loadEnd s i ds (cleanLanes ds) (sizeFloat sz) fun _ => []) s

/-- The compare and swap of a lane: the new value when what was read equals the compare value. -/
def Warp.casValue (w : Warp) (x n l o : Nat) : Option Nat :=
  let v := w.dataNat x (2 * n) l
  if o = v % 2 ^ (8 * n) then some (v / 2 ^ (8 * n)) else none

/-- Some lane of a CAS stores: only then is the word a release (R262, R337). -/
def casStores (s : State) (w : Warp) (x n : Nat) (ts : List (Nat × Word64 × Target)) : Bool :=
  (atomicLanes s w n ts (w.casValue x n)).2.any fun (l, _, d) => !d.isPoison && (w.casValue x n l (leNat d.data)).isSome

/-- CAS (R262). -/
def execCas (g : Guard) (sz : MSize) (sco : Scope) (ord : Order) (d : Fin 256) (m : WAddr) (x : Fin 256) (s : State) :
    Host.Outcome State Fault Refusal :=
  let n := sz.bytes
  issue { (memSpec 0x67 g m.base (dataRegs x.val (2 * n)) (dataRegs d.val n)).ordered ord with unclean := true } (fun s i k =>
    withLanes s i atomKind n k (i.x.wordAddr m) fun s ts =>
      let s := if casStores s i.x x.val n ts then orderBefore s i.x.core sco ord else s
      let (s, ds) := atomicLanes s i.x n ts (i.x.casValue x.val n)
      let s := orderAfter s i.x.core sco ord
      loadEnd s i ds (cleanLanes ds) false fun ls => vDests i.x d.val n ls (dataOf ds)) s

/-! ## Group loads (R264 to R266): members are read when the word lands -/

/-- The flags that a group load may raise (R265, R266). -/
def groupFlags : Nat := fIV + fOF + fUF + fNX + fABSENT

/-- LDG (R264). -/
def execLdg (g : Guard) (op : LdgOp) (sz : MSize) (width : Fin 3) (_sco : Scope) (ord : Order) (d : Fin 256) (m : WAddr)
    (s : State) : Host.Outcome State Fault Refusal :=
  let n := sz.bytes * 2 ^ width.val
  issue (memSpec 0x64 g m.base [] (dataRegs d.val n)) (fun s i k =>
    withLanes s i groupKind n k (i.x.wordAddr m) fun s ts =>
      let m' := laneMask fun l => ts.any (·.1 == l)
      let r : LdgReq := { op := op, sz := sz, elems := 2 ^ width.val, d := d.val, lanes := m',
                          addr := (List.range 32).map fun l => i.x.wordAddr m l, acq := acquires ord }
      sendLater s i { plainPending s i.w i.e (vDests i.x d.val n m' fun _ => 0) with ldg := some r }
        (acquires ord || (i.x.handler.isNone && enabledFlags i.x.flags groupFlags != 0))) s

/-! ## Fences and first-level maintenance (R267 to R270) -/

/-- FENCE (R267). -/
def execFence (g : Guard) (sco : Scope) (ord : Order) (s : State) : Host.Outcome State Fault Refusal :=
  issue { opc := 0x68, guard := g, orders := true } (fun s i _ =>
    .done (orderAfter (orderBefore s i.x.core sco ord) i.x.core sco ord) 0) s

/-- One lane of PREF: a line that no first level holds is dropped (R268). -/
def prefLane (s : State) (x : Warp) (ch : Cache) (t : Target) : State :=
  match t with
  | .phys pa e =>
    if !l1Class pa then s
    else if ch = .nol1 then uncounted s (fillLine s x.core (pa / 128) (leafNl e)).1
    else uncounted s (l1Read s x.core pa 1 (leafNl e) (leafTp e) ch).1
  | _ => s

/-- The lanes whose lines PREF brings in: a lane whose access would fault is dropped (R268). -/
def prefetched (cs : List LaneCheck) : List (Nat × Word64 × Target) :=
  (passedLanes cs).filter fun (_, _, t) => match t with | .phys pa _ => l1Class pa | _ => false

/-- PREF (R268). -/
def execPref (g : Guard) (ch : Cache) (m : MAddr) (s : State) : Host.Outcome State Fault Refusal :=
  issue (memSpec 0x69 g m.base [] []) (fun s i k =>
    let (s, cs) := checkLanes s i.x (loadKind.by ch) 1 k (i.x.effAddr m)
    if queueHolds s i.x.core (loadKind.by ch) 1 (prefetched cs) then .park s .network
    else .done ((prefetched cs).foldl (fun s (_, _, t) => prefLane s i.x ch t) s) 0) s

/-- Writes back the dirty bytes of one first-level line, which stays valid and clean. -/
def cleanLine (s : State) (core line : Nat) : State :=
  match l1Find s core line with
  | some l => { writeBack s l with l1 := (writeBack s l).l1.map fun k => if k.core = core ∧ k.line = line then k.cleaned else k }
  | none => s

/-- Acts on the first-level line of every lane's address. -/
def maintWord (opc : Nat) (g : Guard) (acq : Bool) (m : MAddr) (f : State → Nat → Nat → State) (s : State) :
    Host.Outcome State Fault Refusal :=
  issue { memSpec opc g m.base [] [] with orders := acq } (fun s i k =>
    withLanes s i maintKind 1 k (i.x.effAddr m) fun s ts =>
      .done (ts.foldl (fun s (_, _, t) =>
        match t with
        | .phys pa _ => f s i.x.core (pa / 128)
        | _ => s) s) 0) s

/-- CWB (R269); its order form adds nothing where write-backs are performed at once (log 3). -/
def execCwb (g : Guard) (_rel : Bool) (m : MAddr) (s : State) : Host.Outcome State Fault Refusal :=
  maintWord 0x6A g false m cleanLine s

/-- CINV (R270). CINV.acq follows the lane's earlier group loads: no other load is still to be performed (log 3). -/
def execCinv (g : Guard) (acq : Bool) (m : MAddr) (s : State) : Host.Outcome State Fault Refusal :=
  maintWord 0x6B g acq m flushLine s

/-! ## Polling (R271) -/

/-- The back-off after a failed check. -/
def nextBackoff (k : Nat) : Nat := if k = 0 then 1 else Nat.min (2 * k) 256

/-- A check of WAITNE's lanes: poison is found at the word, a lane still equal parks it. -/
def waitneCheck (s : State) (i : Issuer) (sco : Scope) (ord : Order) (d x n : Nat)
    (ts : List (Nat × Word64 × Target)) : WordEnd :=
  let (s, ds) := readLanes s i.x.core n .nol1 ts
  let s := match gradeOf ds with | some gw => recordGrade s i.w gw | none => s
  match poisonFault ds false with
  | some f => .trap s f
  | none =>
    if ds.all fun (l, _, v) => leNat v.data != i.x.dataNat x n l then
      let s := updWarp s i.w fun w => { w.setSplit i.e (fun p => { p with wk := 0 }) with backoff := false }
      let s := updWarp (orderAfter s i.x.core sco ord) i.w fun w =>
        (List.range (regsFor n)).foldl (fun w k =>
          w.putV (d + k) (lotLanes ds) fun l => BitVec.ofNat 32 (dataOf ds l / 2 ^ (32 * k))) w
      let tails := tailsIn ds (lotLanes ds)
      .done (countTails s i.x.ctx tails.length) (if tails.isEmpty then 0 else fTAIL)
    else
      let k := nextBackoff i.p.wk
      .park (updWarp s i.w fun w => { w.setSplit i.e (fun p => { p with wk := k }) with backoff := true }) (.waitne k k)

/-- WAITNE (R271). -/
def execWaitne (g : Guard) (sz : MSize) (sco : Scope) (ord : Order) (d : Fin 256) (m : MAddr) (x : Fin 256) (s : State) :
    Host.Outcome State Fault Refusal :=
  let n := sz.bytes
  issue (memSpec 0x6D g m.base (dataRegs x.val n) (dataRegs d.val n)) (fun s i k =>
    withLanes s i (loadKind.by .nol1) n k (i.x.effAddr m) fun s ts => waitneCheck s i sco ord d.val x.val n ts) s

end Sys2Proof.Machine
end

