-- ==== Sys2Proof/Machine/Store.lean ====
section
/-! DEFINITION. Residency contracts changed by RESIDE (R272, R273) and the key-value reserve (R213 to R215, R274,
R275). -/

namespace Sys2Proof.Machine

/-- A C-format word whose S results land later. -/
def lateWord (s : State) (i : Issuer) (dests : List PDest) (wait : Bool) : WordEnd :=
  sendLater s i (plainPending s i.w i.e dests) wait

/-- A status that its split waits for (R272). -/
def statusWord (s : State) (i : Issuer) (sd v : Nat) : WordEnd := lateWord s i (sDests i.x sd 4 v) true

/-! ## RESIDE -/

/-- The range that a RESIDE names: base and length, or none when it is refused (R273). -/
def resideRange (x : Warp) (sa sb : Nat) : Option (Nat × Nat) :=
  let base := (x.getT sa).toNat
  let len := (x.getS sb).toNat
  if base % 65536 ≠ 0 ∨ len = 0 ∨ 2 ^ 52 < base + len * 65536 then none else some (base, len)

/-- The contract of a launch that covers exactly a range. -/
def exactContract (s : State) (l base len : Nat) : Option Contract :=
  s.contracts.find? fun c => c.launch == l && c.base == base && c.len == len

/-- Some contract of a launch shares a byte with a range. -/
def overlapsContract (s : State) (l base len : Nat) : Bool :=
  s.contracts.any fun c => c.launch == l && c.base < base + len * 65536 && base < c.base + c.len * 65536

/-- Changes the contract of a launch with a range index. -/
def updContract (s : State) (l k : Nat) (f : Contract → Contract) : State :=
  { s with contracts := s.contracts.map fun c => if c.launch = l ∧ c.index = k then f c else c }

/-- The rank of a contract among all: launches in order of admission, then range index (R210). -/
def contractRank (l : Launch) (k : Nat) : Nat := l.admitted.getD 0 * 2 ^ 32 + k

/-- A contract joins the list after those of earlier admitted launches and of its own (R33). -/
def addContract (cs : List Contract) (c : Contract) : List Contract :=
  (cs.filter fun k => k.rank / 2 ^ 32 ≤ c.rank / 2 ^ 32) ++ c :: cs.filter fun k => c.rank / 2 ^ 32 < k.rank / 2 ^ 32

/-- Opens a contract by RESIDE (R272). -/
def openContract (s : State) (x : Warp) (base len : Nat) (cls : Reuse) (report ntreq : Bool) : State :=
  let l := launchAt s x.launch
  let k := l.ranges.length + l.opened
  let c : Contract :=
    { launch := x.launch, asid := x.asid, ltag := 0, index := k, base := base, len := len, cls := cls, report := report,
      ntreq := ntreq, rank := contractRank l k, pinned := false, byReside := true,
      frames := contractFrames s x.asid base len, pinFrames := [], window := [], due := [] }
  updLaunch { s with contracts := addContract s.contracts c } x.launch fun l => { l with opened := l.opened + 1 }

/-- RESIDE.class (R272): its status and what it changes. -/
def resideClass (s : State) (x : Warp) (range : Option (Nat × Nat)) (cls : Reuse) (report ntreq : Bool) : State × Nat :=
  match range with
  | none => (s, 2)
  | some (base, len) =>
    match exactContract s x.launch base len with
    | some c => (updContract s x.launch c.index fun k => { k with cls := cls, report := report, ntreq := ntreq }, 0)
    | none =>
      if overlapsContract s x.launch base len then (s, 2)
      else if 64 ≤ (s.contracts.filter (·.launch == x.launch)).length then (s, 3)
      else (openContract s x base len cls report ntreq, 0)

/-- RESIDE.class. -/
def execResideClass (g : Guard) (sd sa sb : Fin 64) (cls : Reuse) (report ntreq : Bool) (s : State) :
    Host.Outcome State Fault Refusal :=
  issue { opc := 0x6C, guard := g, reads := sRegs true sa.val ++ sRegs false sb.val, writes := sRegs false sd.val }
    (fun s i _ =>
      let (s, v) := resideClass s i.x (resideRange i.x sa.val sb.val) cls report ntreq
      statusWord s i sd.val v) s

/-- The pages of a range as its tables hold them now: frame and layout of each 64 KiB unit, when all are present HBM
pages. -/
def hbmUnits (s : State) (asid base len : Nat) : Option (List (Nat × Nat)) :=
  match slotOfAsid s asid with
  | none => none
  | some slot =>
    (List.range len).foldl (fun r i =>
      match r, (walk s slot (base + i * 65536)).2 with
      | some us, .leaf _ e size =>
        let pa := leafFrame e + (base + i * 65536) % size.bytes
        if leafPst e = 0 ∧ classOf pa < 4 then some (us ++ [(pa / 65536, leafNl e)]) else none
      | _, _ => none) (some [])

/-- The lines of a 64 KiB frame. -/
def frameLines (f : Nat) : List Nat := (List.range 512).map (f * 512 + ·)

/-- Locked lines of a home slice. -/
def lockedAt (s : State) (slice : Nat) : Nat := (s.lines.filter fun l => l.locked && homeSlice (l.line * 128) == slice).length

/-- A home slice lacks locked room for its share of some lines (R212). -/
def lacksRoom (s : State) (lines : List Nat) : Bool :=
  let fresh := lines.filter fun l => !(s.lines.any fun k => k.locked && k.line == l)
  let slices := (fresh.map fun l => homeSlice (l * 128)).eraseDups
  slices.any fun z =>
    (splitOf s (z / 128)).lock * 4096 < lockedAt s z + (fresh.filter fun l => homeSlice (l * 128) == z).length

/-- One line is filled into the locked area: both its sectors take the page's layout (R209, R212). -/
def lockLine (s : State) (line nl : Nat) : State :=
  let was := heldAt s line
  let dirty := ((s.lines.find? fun l => l.line == line).map (·.dirty)).getD 0
  let s := [0, 1].foldl (fun s half =>
    let pa := line * 128 + half * 64
    let (s, dec, _) := openSector s pa nl was
    takeLayout s pa nl dec) s
  { s with lines := (s.lines.filter fun l => l.line != line) ++
      [{ line := line, dirty := dirty, locked := true, streaming := false }] }

/-- RESIDE.pin (R212, R273). -/
def residePin (s : State) (x : Warp) (range : Option (Nat × Nat)) : State × Nat :=
  match range with
  | none => (s, 2)
  | some (base, len) =>
    match exactContract s x.launch base len with
    | none => (s, 2)
    | some c =>
      match hbmUnits s x.asid base len with
      | none => (s, 5)
      | some us =>
        if lacksRoom s (us.flatMap fun u => frameLines u.1).eraseDups then (s, 1)
        else
          let s := us.foldl (fun s (f, nl) => (frameLines f).foldl (fun s l => lockLine s l nl) s) s
          (updContract s x.launch c.index fun k =>
            { k with pinned := true, pinFrames := (k.pinFrames ++ us.map (·.1)).eraseDups }, 0)

/-- RESIDE.pin. -/
def execResidePin (g : Guard) (sd sa sb : Fin 64) (s : State) : Host.Outcome State Fault Refusal :=
  issue { opc := 0x6C, guard := g, reads := sRegs true sa.val ++ sRegs false sb.val, writes := sRegs false sd.val }
    (fun s i _ =>
      let (s, v) := residePin s i.x (resideRange i.x sa.val sb.val)
      statusWord s i sd.val v) s

/-- RESIDE.unpin and RESIDE.close act on an exact contract. -/
def onExact (s : State) (x : Warp) (range : Option (Nat × Nat)) (f : State → Contract → State) : State × Nat :=
  match range with
  | none => (s, 2)
  | some (base, len) =>
    match exactContract s x.launch base len with
    | none => (s, 2)
    | some c => (f s c, 0)

/-- RESIDE.unpin (R212, R272). -/
def execResideUnpin (g : Guard) (sd sa sb : Fin 64) (s : State) : Host.Outcome State Fault Refusal :=
  issue { opc := 0x6C, guard := g, reads := sRegs true sa.val ++ sRegs false sb.val, writes := sRegs false sd.val }
    (fun s i _ =>
      let (s, v) := onExact s i.x (resideRange i.x sa.val sb.val) fun s c =>
        unlockContract s c
      statusWord s i sd.val v) s

/-- RESIDE.close (R272). -/
def execResideClose (g : Guard) (sd sa sb : Fin 64) (s : State) : Host.Outcome State Fault Refusal :=
  issue { opc := 0x6C, guard := g, reads := sRegs true sa.val ++ sRegs false sb.val, writes := sRegs false sd.val }
    (fun s i _ =>
      let (s, v) := onExact s i.x (resideRange i.x sa.val sb.val) fun s c =>
        let s := unlockContract s c
        { s with contracts := s.contracts.filter fun k => !(k.launch == c.launch && k.index == c.index) }
      statusWord s i sd.val v) s

/-- The context is the owner of a die (R206). -/
def ownsDie (s : State) (asid die : Nat) : Bool := (splitOf s die).owner == asid

/-- A context owns the key-value reserve of a die (R215). -/
def ownsReserve (s : State) (asid die : Nat) : Bool := ownsDie s asid die && (splitOf s die).kv != 0

/-- RESIDE.tprio (R214, R272). -/
def execResideTprio (g : Guard) (sd sa : Fin 64) (cls : Fin 8) (s : State) : Host.Outcome State Fault Refusal :=
  issue { opc := 0x6C, guard := g, reads := sRegs false sa.val, writes := sRegs false sd.val } (fun s i _ =>
    let v := (i.x.getS sa.val).toNat
    let die := bitsOf v 13 12
    if ownsReserve s i.x.asid die then
      statusWord { s with tensors := s.tensors.putD 0 (die * 4096 + bitsOf v 11 0) cls.val } i sd.val 0
    else statusWord s i sd.val 4) s

/-! ## The key-value reserve (R213 to R215) -/

/-- A key with a reserved bit set. -/
def keyBad (key : Word64) : Bool := bitsOf key.toNat 63 50 != 0 || bitsOf key.toNat 3 0 != 0

def keyDie (key : Word64) : Nat := bitsOf key.toNat 49 48
def keyTensor (key : Word64) : Nat := bitsOf key.toNat 47 36

/-- h of a key's home slice. -/
def keyHash (key : Word64) : Nat := lineHash (bitsOf key.toNat 47 4)

/-- Entries that a slice of a die owns, in ascending order. -/
def ownedEntries (s : State) (die h : Nat) : List Nat :=
  let n := (splitOf s die).kv * 2 ^ 26 / (2048 * 2 ^ (splitOf s die).esz)
  ((List.range (n / 128)).map fun k => k * 128 + h)

/-- A key's result word (R274). -/
def kvResult (status die off : Nat) : Nat := status * 2 ^ 61 + die * 2 ^ 46 + off

/-- The offset of an entry (R213). -/
def kvOffset (s : State) (die e : Nat) : Nat := pinEnd s die + e * (2048 * 2 ^ (splitOf s die).esz)

/-- A present key's entry. -/
def kvAt (s : State) (die : Nat) (key : Word64) : Option KvEntry := s.kv.find? fun k => k.die == die && k.key == key

/-- Records a reference to an entry, with its PIN bit. -/
def kvTouch (s : State) (die e : Nat) (pin : Option Bool) : State :=
  { s with seq := s.seq + 1,
           kv := s.kv.map fun k =>
             if k.die = die ∧ k.entry = e then { k with stamp := s.seq, pin := pin.getD k.pin } else k }

/-- The rows of a slice's tag array that a lookup reads (R213). -/
def tagRows (s : State) (key : Word64) : List Nat :=
  (ownedEntries s (keyDie key) (keyHash key)).map fun e => chipRow 6 (keyDie key * 2 ^ 32 + e)

/-- Tags past correction: metadata, graded 3 (R243), found by a lookup of the owner. -/
def tagsBad (s : State) (asid : Nat) (key : Word64) : Bool :=
  !keyBad key && ownsReserve s asid (keyDie key) && !chipsClean s && (tagRows s key).any (rowBad s)

/-- A lookup meets the errors of the tags. -/
def noteTags (s : State) (asid : Nat) (key : Word64) : State :=
  if keyBad key || !ownsReserve s asid (keyDie key) || chipsClean s then s else (tagRows s key).foldl noteRow s

/-- KVFIND at the home slice (R275). -/
def kvFind (s : State) (asid : Nat) (key : Word64) : State × Nat :=
  let die := keyDie key
  if keyBad key then (s, kvResult 6 0 0)
  else if !ownsReserve s asid die then (s, kvResult 5 0 0)
  else
    match kvAt s die key with
    | some k => (kvTouch s die k.entry none, kvResult 0 die (kvOffset s die k.entry))
    | none => (s, kvResult 1 0 0)

/-- A newly tagged entry: its lines read as zero (R214). -/
def kvTag (s : State) (die e : Nat) (key : Word64) (pin : Bool) : State :=
  let lo := 8 * 2 ^ 48 + die * 2 ^ 46 + kvOffset s die e
  let hi := lo + 2048 * 2 ^ (splitOf s die).esz
  let s := cleanRows s (· == chipRow 6 (die * 2 ^ 32 + e))
  { s with seq := s.seq + 1,
           mem := List.filter (fun x => x.1 < lo || hi ≤ x.1) s.mem,
           sectors := List.filter (fun x => x.1 * 64 < lo || hi ≤ x.1 * 64) s.sectors,
           kv := (s.kv.filter fun k => !(k.die == die && k.entry == e)) ++
                   [{ die := die, entry := e, key := key, pin := pin, stamp := s.seq }] }

/-- The priority class of an entry's tensor (R214). -/
def kvClass (s : State) (k : KvEntry) : Nat := s.tensors.getD 0 (k.die * 4096 + keyTensor k.key)

/-- v of R214 among the candidates: lowest class, then least recent, then lowest number. -/
def kvVictim (s : State) (cand : List KvEntry) : Option KvEntry :=
  cand.foldl (fun best k =>
    match best with
    | none => some k
    | some b =>
      if kvClass s k < kvClass s b ∨ (kvClass s k = kvClass s b ∧
          (k.stamp < b.stamp ∨ (k.stamp = b.stamp ∧ k.entry < b.entry))) then some k else best) none

/-- KVPUT at the home slice (R214, R275): result and evicted key. -/
def kvPut (s : State) (asid : Nat) (key : Word64) (pin : Bool) : State × Nat × Option Word64 :=
  let die := keyDie key
  if keyBad key then (s, kvResult 6 0 0, none)
  else if !ownsReserve s asid die then (s, kvResult 5 0 0, none)
  else
    match kvAt s die key with
    | some k => (kvTouch s die k.entry (some pin), kvResult 0 die (kvOffset s die k.entry), none)
    | none =>
      let owned := ownedEntries s die (keyHash key)
      let held := s.kv.filter fun k => k.die == die && owned.contains k.entry
      match owned.find? fun e => !(held.any (·.entry == e)) with
      | some e => (kvTag s die e key pin, kvResult 2 die (kvOffset s die e), none)
      | none =>
        match kvVictim s (held.filter fun k => !k.pin) with
        | none => (s, kvResult 4 0 0, none)
        | some v => (kvTag s die v.entry key pin, kvResult 3 die (kvOffset s die v.entry), some v.key)

/-- Removes the entries of a die that satisfy a test: the count, or all ones when the context is not the owner
(R275). -/
def kvRemove (s : State) (asid die : Nat) (p : KvEntry → Bool) : State × Nat :=
  if !ownsDie s asid die then (s, 0xFFFFFFFF)
  else
    let gone := s.kv.filter fun k => k.die == die && p k
    ({ s with kv := s.kv.filter fun k => !(k.die == die && p k) }, gone.length)

def kvDrop (s : State) (asid : Nat) (key : Word64) : State × Nat := kvRemove s asid (keyDie key) (·.key == key)
def kvDropTensor (s : State) (asid die tensor : Nat) : State × Nat :=
  kvRemove s asid die fun k => keyTensor k.key == tensor

/-- KVFIND (R275). Tags past correction deliver nothing: a deferred GRADE (R246). -/
def execKvfind (g : Guard) (sd sa : Fin 64) (s : State) : Host.Outcome State Fault Refusal :=
  issue { opc := 0x6E, guard := g, reads := sRegs true sa.val, writes := sRegs true sd.val } (fun s i k =>
    let key := i.x.getT sa.val
    let bad := tagsBad s i.x.asid key
    let s := noteTags s i.x.asid key
    if bad then
      let gw := gradeWord 2 0 3
      let (s, f) := noAddress s .grade 0x83 (gw.toNat / 2 ^ 16) k
      sendLater s i { plainPending s i.w i.e (sDests i.x sd.val 8 0) with grade := some gw, fault := some f } false
    else
      let (s, v) := kvFind s i.x.asid key
      lateWord s i (sDests i.x sd.val 8 v) false) s

/-- KVPUT (R275): the pair at SC is written with status 3 alone. -/
def execKvput (g : Guard) (pin : Bool) (sd sa sc : Fin 64) (s : State) : Host.Outcome State Fault Refusal :=
  issue { opc := 0x6F, guard := g, reads := sRegs true sa.val, writes := sRegs true sd.val ++ sRegs true sc.val }
    (fun s i _ =>
      let key := i.x.getT sa.val
      let (s, v, old) := kvPut (noteTags s i.x.asid key) i.x.asid key pin
      let dests := sDests i.x sd.val 8 v ++ (match old with | some k => sDests i.x sc.val 8 k.toNat | none => [])
      lateWord s i dests false) s

/-- KVDROP (R275). -/
def execKvdrop (g : Guard) (sd sa : Fin 64) (s : State) : Host.Outcome State Fault Refusal :=
  issue { opc := 0x70, guard := g, reads := sRegs true sa.val, writes := sRegs false sd.val } (fun s i _ =>
    let (s, v) := kvDrop s i.x.asid (i.x.getT sa.val)
    statusWord s i sd.val v) s

/-- KVDROP.tensor (R275). -/
def execKvdropTensor (g : Guard) (sd sa : Fin 64) (s : State) : Host.Outcome State Fault Refusal :=
  issue { opc := 0x70, guard := g, reads := sRegs false sa.val, writes := sRegs false sd.val } (fun s i _ =>
    let v := (i.x.getS sa.val).toNat
    let (s, n) := kvDropTensor s i.x.asid (bitsOf v 13 12) (bitsOf v 11 0)
    statusWord s i sd.val n) s

end Sys2Proof.Machine
end

