-- ==== Sys2Proof/Machine/Cards.lean ====
section
/-! DEFINITION. Cards (R277 to R295, R309 to R322): the reading and checking of a record, its footprints (R282) and
its edges (R283). -/

namespace Sys2Proof.Machine

/-! ## Fields of a record -/

/-- An operand format word (R311). -/
structure OpFmt where
  /-- 0 SB2, 1 SB4, 2 SB7, 3 BF16, 4 FP16 -/
  fmt : Nat
  len32 : Bool
  scoff : Nat
  deriving DecidableEq, Repr

/-- A tile descriptor (R311). -/
structure TileDesc where
  ncb : Nat
  mr : Nat
  tbase : Nat
  deriving DecidableEq, Repr

/-- An addressed operand of rows: base, signed stride, bytes a row, rows (R282). -/
structure Rows where
  base : Word64
  stride : Int
  len : Nat
  rows : Nat
  deriving DecidableEq, Repr

/-- The parameters of MDRAIN (R320, R321). -/
structure Drain where
  dfmt : Nat
  rfmt : Nat
  len32 : Bool
  thr : Nat
  tdesc : TileDesc
  factor : Nat
  key : Nat
  clr : Bool
  drop : Bool
  res : Bool
  dst : Word64
  dstr : Int
  rstr : Int
  rsrc : Word64
  dsca : Word64
  seed : Nat
  deriving DecidableEq, Repr

/-- What a well-formed record asks for. -/
inductive CardOp where
  | cpy (src dst : Rows)
  | cpym (rowBuffers : Bool) (mask : Nat) (src : Rows) (doff : Nat) (dstr : Int)
  | cpysc (out : Bool) (mem : Word64) (smoff nrec : Nat)
  | xpose (e : Nat) (src dst : Word64) (rows cols : Nat) (sstr dstr : Int)
  | sred (op : AtomOp) (sz : MSize) (src dst : Word64) (n : Nat)
  | bload (src : Word64) (stride : Int) (b : OpFmt)
  | minit (anchor : BitVec 16) (t : TileDesc)
  | product (sparse : Bool) (src : Word64) (stride : Int) (a b : OpFmt) (t : TileDesc) (coop : Bool)
  | mdrain (d : Drain)
  deriving DecidableEq, Repr

/-- The signed value of 32 bits. -/
def signed32 (v : Nat) : Int := signedOf 32 v

/-- A word of a card's record, as a number. -/
def Card.word (c : Card) (i : Nat) : Nat := (c.words.getD i 0).toNat

/-- A word of the format block. -/
def Card.fword (c : Card) (i : Nat) : Nat := (c.fmt.getD i 0).toNat

/-- CSCO (R280): 0 and 1 act as 2. -/
def Card.csco (c : Card) : Nat := Nat.max 2 (bitsOf (c.word 0) 63 61)

/-- SER. -/
def Card.ser (c : Card) : Bool := bitOf (c.word 0) 60

/-- Words from i on are zero. -/
def Card.restZero (c : Card) (i : Nat) : Bool := (c.words.drop i).all (· == 0)

/-- The kind-specific bits that a kind does not list are zero: it lists the bits of a mask. -/
def Card.ctlZero (c : Card) (mask : Nat) : Bool := Nat.land (c.word 0 % 2 ^ 52) (2 ^ 52 - 1 - mask) == 0

/-- The operand format word; none when a field is out of range (R311). -/
def opFmt (w : Nat) (isB : Bool) : Option OpFmt :=
  let fmt := bitsOf w 2 0
  let r : OpFmt := { fmt := fmt, len32 := bitOf w 3, scoff := bitsOf w 31 16 }
  if bitsOf w 15 4 ≠ 0 ∨ 4 < fmt ∨ (isB = true ∧ 2 < fmt) ∨ (2 < fmt ∧ r.len32 = true) ∨ (fmt ≤ 2 ∧ r.scoff % 2 ≠ 0) then none
  else some r

/-- The tile descriptor; none when a field is out of range. -/
def tileDesc (w : Nat) : Option TileDesc :=
  let r : TileDesc := { ncb := bitsOf w 22 16, mr := bitsOf w 15 8, tbase := bitsOf w 7 0 }
  if bitsOf w 31 23 ≠ 0 ∨ r.ncb = 0 ∨ 64 < r.ncb ∨ r.mr = 0 ∨ 128 < r.mr then none else some r

/-- Row blocks of a descriptor, and the tiles it names (R312). -/
def TileDesc.rowBlocks (t : TileDesc) : Nat := (t.mr + 15) / 16
def TileDesc.count (t : TileDesc) : Nat := t.rowBlocks * t.ncb

/-- CPY's record (R292). -/
def cpyOp (c : Card) : Option CardOp :=
  let rlen := bitsOf (c.word 3) 63 32
  let nrow := bitsOf (c.word 3) 31 16
  if !c.ctlZero 0 || !c.restZero 5 || bitsOf (c.word 3) 15 0 ≠ 0 || rlen < 4 || 2 ^ 24 < rlen || nrow = 0 then none
  else
    some (.cpy { base := c.words.getD 1 0, stride := signed32 (bitsOf (c.word 4) 63 32), len := rlen, rows := nrow }
               { base := c.words.getD 2 0, stride := signed32 (bitsOf (c.word 4) 31 0), len := rlen, rows := nrow })

/-- Blocks of a cluster. -/
def Launch.clusterSize (l : Launch) : Nat := let (x, y, z) := l.cluster; x * y * z

/-- CPYM's record (R293, R306). -/
def cpymOp (s : State) (c : Card) : Option CardOp :=
  let rlen := bitsOf (c.word 3) 63 32
  let nrow := bitsOf (c.word 3) 31 16
  let dk := bitsOf (c.word 0) 17 16
  let mask := bitsOf (c.word 0) 15 0
  let doff := bitsOf (c.word 2) 18 0
  if !c.ctlZero 0x3FFFF || !c.restZero 5 || bitsOf (c.word 3) 15 0 ≠ 0 || rlen < 4 || 2 ^ 24 < rlen || nrow = 0 ||
      1 < dk || mask = 0 || 2 ^ (launchAt s c.launch).clusterSize ≤ mask || bitsOf (c.word 2) 63 19 ≠ 0 ||
      (dk = 1 && (popCount 16 mask ≠ 2 || doff ≠ 0)) then none
  else
    some (.cpym (dk == 1) mask
      { base := c.words.getD 1 0, stride := signed32 (bitsOf (c.word 4) 63 32), len := rlen, rows := nrow } doff
      (signed32 (bitsOf (c.word 4) 31 0)))

/-- CPYSC's record (R294). -/
def cpyscOp (c : Card) : Option CardOp :=
  let n := bitsOf (c.word 3) 15 0
  if !c.ctlZero 1 || !c.restZero 4 || bitsOf (c.word 2) 63 32 ≠ 0 || bitsOf (c.word 3) 63 16 ≠ 0 || n = 0 || 16384 < n then
    none
  else some (.cpysc (bitOf (c.word 0) 0) (c.words.getD 1 0) (bitsOf (c.word 2) 31 0) n)

/-- XPOSE's record (R295). -/
def xposeOp (c : Card) : Option CardOp :=
  let e := 2 ^ bitsOf (c.word 0) 1 0
  let rows := bitsOf (c.word 3) 31 16
  let cols := bitsOf (c.word 3) 15 0
  if !c.ctlZero 3 || !c.restZero 5 || bitsOf (c.word 3) 63 32 ≠ 0 || rows = 0 || 256 < rows || cols = 0 || 256 < cols ||
      65536 < rows * cols * e then none
  else
    some (.xpose e (c.words.getD 1 0) (c.words.getD 2 0) rows cols (signed32 (bitsOf (c.word 4) 63 32))
      (signed32 (bitsOf (c.word 4) 31 0)))

/-- SRED's operations: the first six of R260. -/
def sredOp (n : Nat) : Option AtomOp := [AtomOp.add, .min, .max, .and, .or, .xor][n]?

/-- The sizes by code. -/
def sizeOf (n : Nat) : Option MSize :=
  [MSize.b8, .b16, .b32, .b64, .b128, .i8, .i16, .f32, .bf16x2, .f16x2, .i32, .i64, .f64][n]?

/-- SRED's record (R295). -/
def sredCard (c : Card) : Option CardOp :=
  let n := bitsOf (c.word 3) 31 0
  match sredOp (bitsOf (c.word 0) 20 16), sizeOf (bitsOf (c.word 0) 15 12) with
  | some op, some sz =>
    if !c.ctlZero 0x1FF000 || !c.restZero 4 || bitsOf (c.word 3) 63 32 ≠ 0 || n = 0 || 2 ^ 24 < n || !op.sizes.contains sz then none
    else some (.sred op sz (c.words.getD 1 0) (c.words.getD 2 0) n)
  | _, _ => none

/-- BLOAD's record and its format word (R311, R314). -/
def bloadOp (m : Nat) (c : Card) : Option CardOp :=
  match opFmt (c.fword 1) true with
  | some b =>
    if m = 0 || !c.ctlZero 0 || !c.restZero 3 || bitsOf (c.word 2) 31 0 ≠ 0 then none
    else some (.bload (c.words.getD 1 0) (signed32 (bitsOf (c.word 2) 63 32)) b)
  | none => none

/-- MINIT's record (R315). -/
def minitOp (c : Card) : Option CardOp :=
  match tileDesc (bitsOf (c.word 1) 31 0) with
  | some t =>
    if !c.ctlZero 0 || !c.restZero 2 || bitsOf (c.word 1) 47 32 ≠ 0 then none
    else some (.minit (BitVec.ofNat 16 (bitsOf (c.word 1) 63 48)) t)
  | none => none

/-- The product record and its format block (R311, R316). -/
def productOp (m : Nat) (sparse : Bool) (c : Card) : Option CardOp :=
  match opFmt (c.fword 0) false, opFmt (c.fword 1) true, tileDesc (c.fword 2) with
  | some a, some b, some t =>
    let coop := bitOf (c.fword 3) 0
    if m = 0 || !c.ctlZero 0 || !c.restZero 3 || bitsOf (c.word 2) 31 0 ≠ 0 || bitsOf (c.fword 3) 31 1 ≠ 0 ||
        (coop && (c.word 1 ≠ 0 || c.word 2 ≠ 0)) then none
    else some (.product sparse (c.words.getD 1 0) (signed32 (bitsOf (c.word 2) 63 32)) a b t coop)
  | _, _, _ => none

/-- MDRAIN's record and format block (R320, R321). -/
def mdrainOp (c : Card) : Option CardOp :=
  match tileDesc (c.fword 2) with
  | some t =>
    let f := c.fword 0
    let dfmt := bitsOf f 2 0
    let len32 := bitOf f 3
    let res := bitOf (c.word 0) 0
    if !c.ctlZero 7 || !c.restZero 6 || bitsOf f 31 6 ≠ 0 || bitsOf f 5 4 = 3 || 5 < dfmt || (len32 && dfmt < 3) ||
        (!res && (c.word 3 ≠ 0 || bitsOf (c.word 2) 31 0 ≠ 0)) || (dfmt < 3 && c.word 4 ≠ 0) ||
        bitsOf (c.word 5) 31 0 ≠ 0 then none
    else
      some (.mdrain
        { dfmt := dfmt, rfmt := bitsOf f 5 4, len32 := len32, thr := c.fword 1, tdesc := t, factor := c.fword 3,
          key := c.fword 4, clr := bitOf (c.word 0) 2, drop := bitOf (c.word 0) 1, res := res,
          dst := c.words.getD 1 0, dstr := signed32 (bitsOf (c.word 2) 63 32),
          rstr := signed32 (bitsOf (c.word 2) 31 0), rsrc := c.words.getD 3 0, dsca := c.words.getD 4 0,
          seed := bitsOf (c.word 5) 63 32 })
  | none => none

/-- The record as checked by the Barouche (R281): none is malformed. -/
def cardOp (s : State) (c : Card) : Option CardOp :=
  let m := (blockAt s c.block).macs
  if bitsOf (c.word 0) 59 52 ≠ c.kind then none
  else if c.kind = 0x80 then cpyOp c
  else if c.kind = 0x81 then cpymOp s c
  else if c.kind = 0x82 then cpyscOp c
  else if c.kind = 0x83 then xposeOp c
  else if c.kind = 0x84 then sredCard c
  else if c.kind = 0x91 then bloadOp m c
  else if c.kind = 0x92 then minitOp c
  else if c.kind = 0x93 then productOp m false c
  else if c.kind = 0x94 then productOp m true c
  else if c.kind = 0x95 then mdrainOp c
  else none

/-! ## Addresses of operands -/

/-- Where a generic address of a card lies: the apertures that cards accept. -/
inductive CardBase where
  | global (va : Nat)
  | spad (off : Nat)
  | bad
  deriving DecidableEq, Repr

def cardBase (a : Word64) : CardBase :=
  if a.toNat < 2 ^ 52 then .global a.toNat
  else if a.toNat / 2 ^ 48 = 0xFFFF then .spad (a.toNat % 2 ^ 48)
  else .bad

/-- The lowest byte of rows and the byte after the highest, from a base (R282). -/
def Rows.low (r : Rows) (base : Nat) : Int :=
  let last : Int := base + (r.rows - 1 : Nat) * r.stride
  if last < base then last else base
def Rows.high (r : Rows) (base : Nat) : Int :=
  let last : Int := base + (r.rows - 1 : Nat) * r.stride
  (if last < base then (base : Int) else last) + r.len

/-- The extent of an operand of rows. -/
def Rows.extent (r : Rows) : List Extent :=
  match cardBase r.base with
  | .global va => [{ dom := .global, lo := (r.low va).toNat, hi := (r.high va).toNat - 1 }]
  | .spad off => [{ dom := .scratch, lo := (r.low off).toNat, hi := (r.high off).toNat - 1 }]
  | .bad => []

/-- A single run of n bytes. -/
def runAt (a : Word64) (n : Nat) : Rows := { base := a, stride := 0, len := n, rows := 1 }

/-- b of an operand format; the row buffer turns BF16 and FP16 into SB7 (R300). -/
def OpFmt.sb (f : OpFmt) : SbFmt := match f.fmt with | 0 => .sb2 | 1 => .sb4 | _ => .sb7

/-- Bytes of a row of n elements. -/
def OpFmt.rowBytes (f : OpFmt) (n : Nat) : Nat := if 2 < f.fmt then 2 * n else n / 16 * sbBytes f.sb

/-- n of an arrangement (R296). -/
def arrN (m k : Nat) : Nat := if k = 0 then 0 else 16384 * m / k

/-- B's columns in scratchpad (R314). -/
def bColumns (m k : Nat) (src : Word64) (stride : Int) (b : OpFmt) : Rows :=
  { base := src, stride := stride, len := b.rowBytes k, rows := arrN m k }

/-- Elements of an A row. -/
def rowElems (sparse : Bool) (k : Nat) : Nat := if sparse then k / 2 else k

/-- A's rows in scratchpad (R316). -/
def aRows (sparse : Bool) (k : Nat) (src : Word64) (stride : Int) (a : OpFmt) (t : TileDesc) : Rows :=
  { base := src, stride := stride, len := a.rowBytes (rowElems sparse k), rows := t.mr }

/-- Bytes of an element of a drain's plain destination or residual. -/
def plainSize (f : Nat) : Nat := if f = 0 then 4 else 2

/-- The SB format of a drain. -/
def Drain.sb (d : Drain) : SbFmt := match d.dfmt with | 3 => .sb2 | 4 => .sb4 | _ => .sb7

/-- A drain's destination, residual and scale operands (R322). -/
def Drain.dstRows (d : Drain) : Rows :=
  { base := d.dst, stride := d.dstr, rows := d.tdesc.mr,
    len := if d.dfmt < 3 then 16 * d.tdesc.ncb * plainSize d.dfmt else d.tdesc.ncb * sbBytes d.sb }
def Drain.resRows (d : Drain) : Rows :=
  { base := d.rsrc, stride := d.rstr, rows := d.tdesc.mr, len := 16 * d.tdesc.ncb * plainSize d.rfmt }
def Drain.scaleRun (d : Drain) : Rows := runAt d.dsca (2 * d.tdesc.mr * d.tdesc.ncb)

/-- Extents in the other domains. -/
def TileDesc.extent (t : TileDesc) : Extent := { dom := .acc, lo := t.tbase, hi := t.tbase + t.count - 1 }
def scaleExtent (off n : Nat) : Extent := { dom := .scale, lo := off, hi := off + n - 1 }
def macroExtent (m : Nat) : Extent := { dom := .macros, lo := 0, hi := m - 1 }

/-! ## Footprints (R282, R292 to R295, R314 to R316, R322) -/

/-- The scale records of n elements in rows. -/
def OpFmt.scaleExtents (f : OpFmt) (n : Nat) : List Extent :=
  if 2 < f.fmt then [] else [scaleExtent f.scoff (2 * (n / 16))]

/-- The block's index within its cluster (R293). -/
def clusterIndex (l : Launch) (linear : Nat) : Nat :=
  let (x, y, z) := l.coords linear
  let (cx, cy, cz) := l.cluster
  x % cx + cx * (y % cy + cy * (z % cz))

/-- Read and write footprints of a card that will run under arrangement k. -/
def cardFootprint (s : State) (c : Card) (op : CardOp) : List Extent × List Extent :=
  let m := (blockAt s c.block).macs
  let k := c.arrK
  match op with
  | .cpy src dst => (src.extent, dst.extent)
  | .cpym rb mask src doff dstr =>
    let own := bitOf mask (clusterIndex (launchAt s c.launch) c.linear)
    (src.extent,
      if !rb && own then
        ({ src with base := BitVec.ofNat 64 (0xFFFF * 2 ^ 48 + doff), stride := dstr } : Rows).extent else [])
  | .cpysc out mem smoff n =>
    let a := (runAt mem (2 * n)).extent
    let b := [scaleExtent smoff (2 * n)]
    if out then (b, a) else (a, b)
  | .xpose e src dst rows cols sstr dstr =>
    (({ base := src, stride := sstr, len := cols * e, rows := rows } : Rows).extent,
     ({ base := dst, stride := dstr, len := rows * e, rows := cols } : Rows).extent)
  | .sred _ sz src dst n => ((runAt src (n * sz.bytes)).extent, (runAt dst (n * sz.bytes)).extent)
  | .bload src stride b =>
    ((bColumns m k src stride b).extent ++ b.scaleExtents (k * arrN m k), [macroExtent m])
  | .minit _ t => ([], [t.extent])
  | .product sparse src stride a _ t coop =>
    ((if coop then [] else (aRows sparse k src stride a t).extent) ++ a.scaleExtents (t.mr * rowElems sparse k) ++
      [macroExtent m, t.extent], [t.extent])
  | .mdrain d =>
    (d.tdesc.extent :: (if d.res then d.resRows.extent else []),
     d.dstRows.extent ++ (if d.dfmt < 3 then [] else d.scaleRun.extent) ++ (if d.clr then [d.tdesc.extent] else []))

/-- Two extents overlap. -/
def Extent.meets (a b : Extent) : Bool := a.dom == b.dom && a.lo ≤ b.hi && b.lo ≤ a.hi

/-- Two sets of extents overlap. -/
def meets (as bs : List Extent) : Bool := as.any fun a => bs.any a.meets

/-- Tiles of a card's footprints never take an edge from an MDRAIN, which waits for them at issue (R322). -/
def withoutTiles (c : Card) (es : List Extent) : List Extent :=
  if c.kind = 0x95 then es.filter fun e => e.dom != .acc else es

/-- OP and SZ of SRED records. -/
def sameSred (a b : Card) : Bool :=
  a.kind == 0x84 && b.kind == 0x84 && bitsOf (a.word 0) 20 12 == bitsOf (b.word 0) 20 12

/-- The edge E → C (R283, R295). -/
def hasEdge (e c : Card) : Bool :=
  c.ser || meets e.writes (withoutTiles c c.reads) || meets e.reads (withoutTiles c c.writes) ||
    (!sameSred e c && meets e.writes (withoutTiles c c.writes))

/-! ## MARR and the arrangement that a card runs under (R313) -/

/-- The MARRs of a block that are parked now, in the table that a handler's trap set aside too. -/
def liveMarrs (s : State) (b : Nat) : List Marr :=
  let parked (t : DivTable) (e : Nat) : Bool :=
    let p := t.splits.getD e .none
    p.valid && (match p.park with | some (.cards es) => es.any (·.dom == .macros) | _ => false)
  (blockAt s b).marrs.filter fun r =>
    let x := warpAt s r.warp
    match x.handler with
    | some h => parked h.table r.split || parked x.table r.split
    | none => parked x.table r.split

/-- An MARR takes effect. -/
def marrServes (m lg : Nat) : Bool := 2 ^ lg ≤ m

/-- The arrangement that a card issued now will run under. -/
def nextArrangement (s : State) (b : Nat) : Nat :=
  let x := blockAt s b
  (liveMarrs s b).foldl (fun k r => if marrServes x.macs r.lg then 128 * 2 ^ r.lg else k) x.arrK

/-- A matrix card, a card that reads or writes macros. -/
def Card.isMatrix (c : Card) : Bool := 0x90 ≤ c.kind
def Card.usesMacros (c : Card) : Bool := (c.reads ++ c.writes).any (·.dom == .macros)

/-- The card belongs to the warp in a slot: its issuer, or the same warp restored (R139, R400). -/
def Card.isOf (c : Card) (w : Nat) : Bool := c.warp == w && (!c.orphan || c.linked)

/-- Cards of a block in flight. -/
def cardsOf (s : State) (b : Nat) : List (Nat × Card) := s.cards.select fun _ c => c.block == b

/-- The predecessors of a card issued now (R283, R313). -/
def predsOf (s : State) (c : Card) : List Nat :=
  ((cardsOf s c.block).filter fun e => hasEdge e.2 c).map (·.1) ++
    (if c.isMatrix then (liveMarrs s c.block).map (·.id) else [])

/-- A predecessor still holds a card back. -/
def predHolds (s : State) (c : Card) (p : Nat) : Bool :=
  (s.cards.find? p).isSome || (liveMarrs s c.block).any (·.id == p)

/-- Cards whose last predecessor has just ended take this moment as the one at which they became ready (R305). -/
def markReady (s : State) : State :=
  let due (c : Card) : Bool := c.ready.isNone && !(c.preds.any fun p => predHolds s c p)
  if s.cards.any fun (_, c) => due c then
    { s with cards := s.cards.mapVals (fun _ c => if due c then { c with ready := some s.seq } else c), seq := s.seq + 1 }
  else s

/-- A card of the block holds one of some extents, for reading or writing (R95). -/
def cardsHold (s : State) (b : Nat) (es : List Extent) : Bool :=
  (cardsOf s b).any fun e => meets (e.2.reads ++ e.2.writes) es

end Sys2Proof.Machine
end

