-- ==== Sys2Proof/Machine/CardRun.lean ====
section
/-! DEFINITION. The data cards at work (R279, R285, R287, R289, R292 to R295): how a card reads and writes bytes, and
what CPY, CPYM, CPYSC, XPOSE and SRED do. -/

namespace Sys2Proof.Machine

/-! ## A card under way -/

/-- A card's progress: flags raised, tail elements consumed, the fault that ended it. -/
structure Run where
  s : State
  flags : Nat
  tails : List Nat
  fault : Option (Nat × Word64)
  deriving DecidableEq, Repr

def Run.start (s : State) : Run := { s := s, flags := 0, tails := [], fault := none }

/-- The card reads or writes global bytes: before it does, the dirty bytes of its core's first level reach home, those
outside its footprints with them (R279; log 12). -/
def beforeGlobal (s : State) (c : Card) : State :=
  if (c.reads ++ c.writes).any (·.dom == .global) then releaseL1 s c.core else s

/-- Some line of the card is aimed at a core that refuses it (R439). -/
def linesRefused (s : State) (c : Card) : Bool :=
  !s.moves.isEmpty && (c.reads ++ c.writes).any fun e =>
    if e.dom = .global then
      (List.range (e.hi / 65536 + 1 - e.lo / 65536)).any fun u =>
        match frameOfVa s c.ctx ((e.lo / 65536 + u) * 65536) with
        | some f => classOf (f * 65536) == 9 && coreShut s (bitsOf (f * 65536) 31 24)
        | none => false
    else coreShut s c.core

/-- The card ends with a cause and the faulting generic address. -/
def Run.stop (r : Run) (cause : Nat) (a : Word64) : Run := { r with fault := some (cause, a) }

/-- Raises card flags. -/
def Run.flag (r : Run) (f : Nat) : Run := { r with flags := joinFlags r.flags f }

/-- One step after another, until a fault. -/
def Run.each {α : Type} (r : Run) (xs : List α) (f : Run → α → Run) : Run :=
  xs.foldl (fun r x => if r.fault.isSome then r else f r x) r

/-- A further step, unless the card has ended. -/
def Run.andThen (r : Run) (f : Run → Run) : Run := if r.fault.isSome then r else f r

/-! ## Addresses -/

/-- The address of a row. -/
def Rows.at (r : Rows) (i : Nat) : Word64 := BitVec.ofInt 64 (r.base.toNat + i * r.stride)

/-- The limit of an aperture for a card: bytes of the window or of the block's scratchpad. -/
def cardLimit (s : State) (c : Card) (b : CardBase) : Nat :=
  match b with
  | .global _ => 2 ^ 52
  | .spad _ => (blockAt s c.block).spSize
  | .bad => 0

/-- The place of an address in its aperture. -/
def CardBase.pos : CardBase → Nat
  | .global va => va
  | .spad off => off
  | .bad => 0

/-- The first row of an operand that lies beyond its aperture (R180): cause 1 with that row's address. -/
def rowsBeyond (s : State) (c : Card) (r : Rows) (globalOnly : Bool) : Option (Nat × Word64) :=
  let b := cardBase r.base
  let bad := match b with | .bad => true | .spad _ => globalOnly | .global _ => false
  if bad then some (1, r.base)
  else if r.low b.pos < 0 ∨ (cardLimit s c b : Int) < r.high b.pos then
    let out (i : Nat) : Bool :=
      let p : Int := b.pos + i * r.stride
      decide (p < 0) || decide ((cardLimit s c b : Int) < p + r.len)
    some (1, r.at (((List.range r.rows).find? out).getD 0))
  else none

/-- A base, stride or length that breaks an alignment: cause 2. -/
def rowsSkew (r : Rows) (n : Nat) : Option (Nat × Word64) :=
  if r.base.toNat % n ≠ 0 ∨ r.stride % n ≠ 0 ∨ r.len % n ≠ 0 then some (2, r.base) else none

/-- Ends the card with the first fault of a list. -/
def Run.check (r : Run) (fs : List (Option (Nat × Word64))) : Run :=
  match (fs.filterMap id).head? with
  | some f => { r with fault := some f }
  | none => r

/-! ## Bytes -/

/-- Frames that the copy cards and drains accept, and those of the slice units (R292, R295). -/
def copyClasses : List Nat := [0, 1, 2, 3, 8, 12, 15]
def xposeClasses : List Nat := [0, 1, 2, 3, 8]
def sredClasses : List Nat := [0, 1, 2, 3, 8, 12]

/-- What a card's translation finds (R193, R289). -/
inductive Reach where
  | phys (pa e : Nat)
  | zeros
  | bad (cause : Nat)
  deriving DecidableEq, Repr

def cardReach (s : State) (c : Card) (classes : List Nat) (va : Nat) (k : Acc) : State × Reach :=
  match xlate s c.core c.asid va k (!c.sup) with
  | (s, .ok pa e) =>
    if !classes.contains (classOf pa) then (s, .bad 6) else if peerDown s pa || peerRefused s pa c.asid then (s, .bad 3) else (s, .phys pa e)
  | (s, .zeros) => (s, .zeros)
  | (s, .fault .page _) => (s, .bad 4)
  | (s, .fault _ _) => (s, .bad 3)
  | (s, .lost _) => (s, .bad 3)

/-- Bytes that a card has read, which of them are poison, and which came as GRADE 1 elements of an SB layout (R244). -/
structure Bytes where
  data : List Byte
  poison : List Bool
  soft : List Nat
  deriving DecidableEq, Repr

def Bytes.none : Bytes := { data := [], poison := [], soft := [] }
def Bytes.append (a b : Bytes) : Bytes :=
  { data := a.data ++ b.data, poison := a.poison ++ b.poison, soft := a.soft ++ b.soft.map (a.data.length + ·) }
def Bytes.bad (b : Bytes) : Bool := b.poison.any id

/-- The bytes of a delivery at a physical address that hold bits of its GRADE 1 elements, under the SB layouts (R242). -/
def softBytes (pa : Nat) (d : Deliv) : List Nat :=
  match layoutOf d.nl with
  | some (w, _) =>
    if d.nl < 4 then []
    else (List.range d.data.length).filter fun i => d.tails.any fun t =>
      let lo := t % 2 ^ 20 * w
      let at_ := (pa + i) % 65536 * 8
      t / 2 ^ 20 == pa / 65536 && lo < at_ + 8 && at_ < lo + w
  | none => []

/-- A read within one line: the issuing core's dirty bytes reach home first, and its copy goes (R279, R332). -/
def cardReadPart (r : Run) (c : Card) (classes : List Nat) (va n : Nat) : Run × Bytes :=
  match cardReach r.s c classes va .rd with
  | (s, .bad q) => ({ r with s := s }.stop q (BitVec.ofNat 64 va), Bytes.none)
  | (s, .zeros) => ({ r with s := s }, { data := List.replicate n 0, poison := List.replicate n false, soft := [] })
  | (s, .phys pa e) =>
    let (s, d) := physRead (flushLine s c.core (pa / 128)) (some c.core) pa n (leafNl e) (leafTp e)
    ({ r with s := s, flags := if d.tails.isEmpty then r.flags else joinFlags r.flags fTAIL, tails := r.tails ++ d.tails },
     { data := d.data, poison := d.poison, soft := softBytes pa d })

/-- A line that a card reads or writes counts once in R216's windows: work that goes on in a line adds nothing. -/
def Run.oneLine (t r : Run) (again : Bool) : Run := if again then { t with s := uncounted r.s t.s } else t

/-- Reads n bytes at a generic address; more says that the run goes on where the last read of it ended. -/
def cardRead (r : Run) (c : Card) (classes : List Nat) (a : Word64) (n : Nat) (more : Bool := false) : Run × Bytes :=
  match cardBase a with
  | .bad => (r.stop 1 a, Bytes.none)
  | .spad off =>
    let pa := spadAddr c.core ((blockAt r.s c.block).spBase + off)
    let d := readSpad r.s pa n
    ({ r with s := noteSpad r.s pa n }, { data := d.data, poison := d.poison, soft := [] })
  | .global va =>
    (lineParts va n).foldl (fun (r, b) (p, k) =>
      if r.fault.isSome then (r, b)
      else
        let (t, b') := cardReadPart r c classes p k
        (t.oneLine r (more && p % 128 != 0), b.append b')) (r, Bytes.none)

/-- A poison mark on a memory sector (R247). -/
def markSector (s : State) (pa : Nat) : State :=
  let e := s.sectors.getD .clean (pa / 64)
  if e.mark ∨ classOf pa = 15 then s
  else countMark (setSector s (pa / 64) { nl := if e.nl = 8 then 0 else e.nl, flips := [], mark := true })

/-- The bytes of a part of a list. -/
def Bytes.part (b : Bytes) (i n : Nat) : Bytes :=
  { data := (b.data.drop i).take n, poison := (b.poison.drop i).take n,
    soft := (b.soft.filter fun k => i ≤ k && k < i + n).map (· - i) }

/-- Marks on the sectors that poisoned bytes feed. -/
def markPoisoned (s : State) (pa : Nat) (b : Bytes) : State :=
  (sectorParts pa b.data.length).foldl (fun s (p, k) => if (b.part (p - pa) k).bad then markSector s p else s) s

/-- Writes within one line. The frame is marked dirty first (R203); the issuing core's copy of the line goes (R287). -/
def cardWritePart (r : Run) (c : Card) (classes : List Nat) (va : Nat) (b : Bytes) : Run :=
  match cardReach r.s c classes va .wr with
  | (s, .bad q) => { r with s := s }.stop q (BitVec.ofNat 64 va)
  | (s, .zeros) => { r with s := s }
  | (s, .phys pa e) =>
    let s := flushLine (markDirty s c.core c.ctx pa) c.core (pa / 128)
    let s := plainWrite s (some c.core) pa b.data (leafNl e) (leafTp e)
    { r with s := markPoisoned s pa b }

/-- Writes scratchpad bytes of a core, marking every row that a poisoned byte feeds. -/
def spadWrite (s : State) (pa : Nat) (b : Bytes) : State :=
  let s := writeSpad s pa b.data
  if b.bad then
    (List.range b.poison.length).foldl (fun s i => if b.poison.getD i false then markSpad s (pa + i) else s) s
  else s

/-- Writes bytes at a generic address; more as for a read. -/
def cardWrite (r : Run) (c : Card) (classes : List Nat) (a : Word64) (b : Bytes) (more : Bool := false) : Run :=
  match cardBase a with
  | .bad => r.stop 1 a
  | .spad off => { r with s := spadWrite r.s (spadAddr c.core ((blockAt r.s c.block).spBase + off)) b }
  | .global va => r.each (lineParts va b.data.length) fun r (p, k) =>
      (cardWritePart r c classes p (b.part (p - va) k)).oneLine r (more && p % 128 != 0)

/-! ## CPY (R292) -/

/-- Copies one run of bytes, line by line of the source. -/
def copyRun (r : Run) (c : Card) (src dst : Word64) (n : Nat) : Run :=
  r.each (lineParts src.toNat n) fun r (p, k) =>
    let (r, b) := cardRead r c copyClasses (BitVec.ofNat 64 p) k
    r.andThen fun r => cardWrite r c copyClasses (dst + BitVec.ofNat 64 (p - src.toNat)) b (decide (src.toNat < p))

def runCpy (r : Run) (c : Card) (src dst : Rows) : Run :=
  (r.check [rowsBeyond r.s c src false, rowsBeyond r.s c dst false, rowsSkew src 4, rowsSkew dst 4]).each
    (List.range src.rows) fun r i => copyRun r c (src.at i) (dst.at i) src.len

/-! ## CPYM (R293, R306) -/

/-- A cluster member as a card or a group load finds it. -/
inductive Member where
  /-- resident, by block key -/
  | live (b : Nat)
  /-- saved and not restored -/
  | held
  | gone
  deriving DecidableEq, Repr

/-- A block whose shared-state warp has not yet returned from its restore (R266, R401). -/
def restoring (s : State) (b : Nat) : Bool :=
  s.warps.any fun (_, x) => x.block == b && x.handler.isSome && x.fault.toNat / 2 ^ 16 == 17 * 256 + 2 && x.fault.getLsbD 0

/-- A resident block as a member: gone once all its warps have ended. One whose core is being moved is reached after the move
(R439). -/
def memberOf (s : State) (b : Nat) : Member :=
  let x := blockAt s b
  if x.ended = x.warps.length then .gone else if restoring s b || coreShut s x.core then .held else .live b

/-- The block of a card's cluster with a cluster index. -/
def clusterMember (s : State) (c : Card) (i : Nat) : Member :=
  let l := launchAt s c.launch
  let mine (linear : Nat) : Bool := l.clusterOf linear == l.clusterOf c.linear && clusterIndex l linear == i
  match s.blocks.first fun k x => decide (k < calleeBase) && x.launch == c.launch && mine x.linear with
  | some (k, _) => memberOf s k
  | none => if s.saved.any fun x => x.launch == c.launch && x.entry.isNone && mine x.linear then .held else .gone

/-- The targets that TMASK names. -/
def targetsOf (s : State) (c : Card) (mask : Nat) : List Member :=
  ((List.range 16).filter fun i => bitOf mask i).map fun i => clusterMember s c i

/-- The live targets of a list. -/
def liveKeys (ts : List Member) : List Nat := ts.filterMap fun t => match t with | .live b => some b | _ => none

/-- The destination in a target's allocation. -/
def doffRows (src : Rows) (doff : Nat) (dstr : Int) : Rows :=
  { src with base := BitVec.ofNat 64 (0xFFFF * 2 ^ 48 + doff), stride := dstr }

/-- A destination beyond some live target's allocation: cause 1. -/
def targetBeyond (s : State) (ts : List Nat) (d : Rows) (doff : Nat) : Option (Nat × Word64) :=
  if ts.any fun b => decide (d.low doff < 0) || decide (((blockAt s b).spSize : Int) < d.high doff) then some (1, d.base)
  else none

/-- One row into the scratchpads of several blocks. -/
def deliverRow (s : State) (ts : List Nat) (off : Nat) (b : Bytes) : State :=
  ts.foldl (fun s k => let x := blockAt s k; spadWrite s (spadAddr x.core (x.spBase + off)) b) s

def runCpym (r : Run) (c : Card) (mask : Nat) (src : Rows) (doff : Nat) (dstr : Int) : Run :=
  let ts := targetsOf r.s c mask
  let live := liveKeys ts
  let d := doffRows src doff dstr
  let r := r.check [rowsBeyond r.s c src false, targetBeyond r.s live d doff, rowsSkew src 4, rowsSkew d 4]
  let r := r.each (List.range src.rows) fun r i =>
    let (r, b) := cardRead r c copyClasses (src.at i) src.len
    r.andThen fun r => { r with s := deliverRow r.s live ((d.at i).toNat % 2 ^ 48) b }
  r.andThen fun r => if ts.contains .gone then r.flag fABSENT else r

/-! ## CPYSC (R294) -/

/-- The base and size of a block's scale-memory allotment (R304). -/
def scaleBase (x : Block) : Nat := 3072 * x.macFirst
def scaleSize (x : Block) : Nat := 3072 * x.macs

/-- Scale-memory bytes of a block, with the rows that are marked or bad. -/
def scaleBytes (s : State) (c : Card) (off n : Nat) : Bytes :=
  let b := scaleBase (blockAt s c.block)
  { data := readScale s c.core (b + off) n, poison := (List.range n).map fun i => scaleRowBad s c.core (b + off + i),
    soft := [] }

/-- A read of a block's allotment meets the errors of its rows. -/
def noteScaleOf (s : State) (c : Card) (off n : Nat) : State := noteScale s c.core (scaleBase (blockAt s c.block) + off) n

def runCpysc (r : Run) (c : Card) (out : Bool) (mem : Word64) (off n : Nat) : Run :=
  let x := blockAt r.s c.block
  let r := r.check [if scaleSize x < off + 2 * n then some (1, 0) else none, rowsBeyond r.s c (runAt mem (2 * n)) false,
    rowsSkew (runAt mem (2 * n)) 2, if off % 2 ≠ 0 then some (2, 0) else none]
  r.andThen fun r =>
    if out then cardWrite { r with s := noteScaleOf r.s c off (2 * n) } c copyClasses mem (scaleBytes r.s c off (2 * n))
    else
      let (r, b) := cardRead r c copyClasses mem (2 * n)
      r.andThen fun r =>
        let s := writeScale r.s c.core (scaleBase x + off) b.data
        { r with s := (List.range (2 * n)).foldl (fun s i =>
            if b.poison.getD i false then markScale s c.core (scaleBase x + off + i) else s) s }

/-! ## XPOSE and SRED (R295) -/

/-- The transpose unit reads the rows and writes them as columns (R295). -/
def runXpose (r : Run) (c : Card) (e : Nat) (src dst : Word64) (rows cols : Nat) (sstr dstr : Int) : Run :=
  let a : Rows := { base := src, stride := sstr, len := cols * e, rows := rows }
  let b : Rows := { base := dst, stride := dstr, len := rows * e, rows := cols }
  let r := r.check [rowsBeyond r.s c a true, rowsBeyond r.s c b true, rowsSkew a e, rowsSkew b e]
  let (r, m) := (List.range rows).foldl (fun (r, m) i =>
    if r.fault.isSome then (r, m)
    else
      let (r, v) := cardRead r c xposeClasses (a.at i) (cols * e)
      (r, m ++ [v])) (r, ([] : List Bytes))
  r.each (List.range cols) fun r j =>
    cardWrite r c xposeClasses (b.at j) ((m.map fun v => v.part (j * e) e).foldl Bytes.append Bytes.none)

/-- One element's update at its home: poison already there takes none (R261, R295). An element of a line already begun adds
nothing to R216's counts. -/
def sredElement (r : Run) (c : Card) (op : AtomOp) (sz : MSize) (va : Nat) (v : Bytes) (more : Bool) : Run :=
  match cardReach r.s c sredClasses va .rw with
  | (s, .bad q) => { r with s := s }.stop q (BitVec.ofNat 64 va)
  | (s, .zeros) => { r with s := s }
  | (s, .phys pa e) =>
    let s := flushLine s c.core (pa / 128)
    let (t, d) := physRead s (some c.core) pa sz.bytes (leafNl e) (leafTp e)
    let s := if more then uncounted s t else t
    if d.isPoison then { r with s := s }
    else
      let new := leBytes sz.bytes (atomValue op sz (leNat d.data) (leNat v.data))
      let s := uncounted s (plainWrite (markDirty s c.core c.ctx pa) (some c.core) pa new (leafNl e) (leafTp e))
      { r with s := if v.bad then markSector s pa else s }

/-- SRED: it raises no flag. -/
def runSred (r : Run) (c : Card) (op : AtomOp) (sz : MSize) (src dst : Word64) (n : Nat) : Run :=
  let z := sz.bytes
  let r := r.check [rowsBeyond r.s c (runAt src (n * z)) false, rowsBeyond r.s c (runAt dst (n * z)) true,
    rowsSkew (runAt src (n * z)) z, rowsSkew (runAt dst (n * z)) z]
  let r := r.each (List.range n) fun r i =>
    let (r, v) := cardRead r c copyClasses (src + BitVec.ofNat 64 (i * z)) z (decide (0 < i))
    r.andThen fun r => sredElement r c op sz (dst.toNat + i * z) v (decide (0 < i) && (dst.toNat + i * z) % 128 != 0)
  { r with flags := 0, tails := [] }

end Sys2Proof.Machine
end

