-- ==== Sys2Proof/Machine/Calls.lean ====
section
/-! DEFINITION. The call stack of a warp, with its spill to lane 0's stack (R114 to R118), and the reconvergence
header of a dividing word (R76, R100). -/

namespace Sys2Proof.Machine

/-- An operation that may stop its word instead. -/
inductive Try (α : Type) where
  | ok (a : α)
  | stop (e : WordEnd)

/-- The generic address of an offset in a lane's stack. -/
def stackAddr (off : Int) : Word64 := BitVec.ofInt 64 (0xFFFE000000000000 + off)

/-- The lane-0 check of a spill or reload of 16 bytes. An entry below the stack's base is APERTURE with cause 1 of lane 0, its FADDR
the base plus the negative offset (DESIGN CHOICE, log 61). -/
def callAccess (s : State) (i : Issuer) (k : AccessKind) (off : Int) : State × Try Target :=
  let ga := stackAddr off
  if off < 0 then (s, .stop (.trap s (FaultInfo.perLane .aperture 1 0 1#32 fun _ => ga)))
  else
    let (s, cs) := checkLanes s i.x k 16 1#32 fun _ => ga
    match wordFault cs, cs with
    | some (f, true), _ => (s, .stop (.host s f k.acc.hostKind))
    | some (f, false), _ => (s, .stop (checkTrap s i.w f))
    | none, { res := .ok t, .. } :: _ => if queueHolds s i.x.core k 16 [(0, ga, t)] then (s, .stop (.park s .network)) else (s, .ok t)
    | none, _ :: _ => (s, .stop (.trap s (i.fault .aperture 1 0)))
    | none, [] => (s, .stop (.trap s (i.fault .aperture 1 0)))

/-- The 16 bytes of a spilled entry (R118). -/
def CallEntry.bytes (c : CallEntry) : List Byte :=
  leBytes 8 c.rh.toNat ++ leBytes 8 (packFields [(c.own, 0), (c.depth, 8)])

/-- The entry that 16 bytes hold. -/
def CallEntry.ofBytes (b : List Byte) : CallEntry :=
  let hi := leNat (b.drop 8)
  { rh := BitVec.ofNat 64 (leNat (b.take 8)), own := hi % 4, depth := bitsOf hi 11 8 }

/-- Spills the oldest entry when sixteen are held (R118). -/
def spillCall (s : State) (i : Issuer) : Try State :=
  let x := warpAt s i.w
  match x.table.calls with
  | c :: rest =>
    if x.table.calls.length < 16 then .ok s
    else
      let off : Int := (launchAt s x.launch).stkSz - 16 * ((x.table.cspill.toNat : Int) + 1)
      match callAccess s i storeKind off with
      | (_, .stop e) => .stop e
      | (s, .ok t) =>
        let s := writeTarget s x c.bytes .dflt t
        .ok (updWarp s i.w fun x =>
          { x with table := { x.table with calls := rest, cspill := x.table.cspill + 1,
                                           spillOwn := x.table.spillOwn ++ [c.own] } })
  | [] => .ok s

/-- Room for one more entry on chip: a handler's stack holds four and never spills (R118). The fault of a fifth push, with which the
warp is killed, is DIVERGE with cause 3 (DESIGN CHOICE, log 61). -/
def callRoom (s : State) (i : Issuer) : Try State :=
  let x := warpAt s i.w
  if x.handler.isSome then
    if x.table.calls.length ≥ 4 then .stop (.trap s (i.fault .diverge 3 0)) else .ok s
  else spillCall s i

/-- The return entry of a split of the issuing warp (R115). -/
def putCall (s : State) (i : Issuer) (e : Nat) : State :=
  updWarp s i.w fun x =>
    let c : CallEntry := { rh := i.fall, own := e, depth := (x.splitAt e).frames.length }
    { x with table := { x.table with calls := x.table.calls ++ [c] } }

/-- Pushes a return entry for split e of the issuing warp (R115, R118). -/
def pushCall (s : State) (i : Issuer) (e : Nat) : Try State :=
  match callRoom s i with
  | .ok s => .ok (putCall s i e)
  | .stop e => .stop e

/-- RET's reload: the newest spilled entry becomes the oldest on chip (R117, R118). It is made before the pop. With it go the
flags that the word raises: what it receives is graded as a load's data is (R245, R249). -/
def reloadCall (s : State) (i : Issuer) : Try (State × Nat) :=
  let x := warpAt s i.w
  let off : Int := (launchAt s x.launch).stkSz - 16 * (x.table.cspill.toNat : Int)
  if x.table.cspill = 0 then .ok (s, 0)
  else
    match callAccess s i loadKind off with
    | (_, .stop e) => .stop e
    | (s, .ok t) =>
      let (s, d) := readTarget s x.core 16 .dflt t
      let got := [(0, stackAddr off, d)]
      let s := match gradeOf got with | some gw => recordGrade s i.w gw | none => s
      match poisonFault got false with
      | some f => .stop (.trap s f)
      | none =>
        let s := countTails s x.ctx (tailsOf got).length
        .ok (updWarp s i.w fun x =>
          { x with table := ({ x.table with calls := CallEntry.ofBytes d.data :: x.table.calls, cspill := x.table.cspill - 1,
                                            spillOwn := x.table.spillOwn.dropLast } : DivTable).trimSpill },
          if (tailsOf got).isEmpty then 0 else fTAIL)

/-- The place of the newest on-chip entry that a split owns. -/
def DivTable.newestCall (t : DivTable) (e : Nat) : Option (Nat × CallEntry) :=
  ((List.range t.calls.length).reverse.findSome? fun k =>
    match t.calls[k]? with
    | some c => if c.own = e then some (k, c) else none
    | none => none)

/-- The reconvergence header of the block, read when the word divides its split (R76). -/
def reconverge (s : State) (i : Issuer) : State × Try (Option Word64) :=
  let rcv := (HFmt.ofWord i.b.header).rcv
  if rcv = 0 then (s, .ok none)
  else
    let h := headerAt i.b.hdrAt (rcv.signExtend 32)
    match fetchWord s i.x.core i.x.ctx i.x.asid i.x.handler.isNone h with
    | (s, .ok w) => (s, if isHeader w then .ok (some h) else .stop (.trap s (FaultInfo.uniform .illegal 0 0 h)))
    | (s, .bad n c gw) =>
      let f := FaultInfo.perLane n c (gw.toNat / 2 ^ 16) (i.x.active i.e) fun _ => h
      let s := if n = .grade then recordGrade s i.w gw else s
      (s, .stop (if n = .page then .host s f 2 else .trap s f))

/-- The outcome of a division: the state, the entry that holds the lanes not taken when one was made. -/
structure Divided where
  s : State
  other : Option Nat

/-- Divides split e of the issuing warp (R100): DIVERGE with cause 0 when there is no room. -/
def divideSplit (s : State) (i : Issuer) (e : Nat) (t n : Lanes) (taken : Word64) (other : Place) : Try Divided :=
  let x := warpAt s i.w
  let go (s : State) (h : Option Word64) : Try Divided :=
    match x.divide e t n taken other h with
    | none => .stop (.trap s (i.fault .diverge 0 0))
    | some x' =>
      let k := (List.range 4).find? fun k => !(x.splitAt k).valid && (x'.splitAt k).valid
      .ok { s := updWarp s i.w fun _ => x', other := k }
  if t = 0 ∨ n = 0 then go s none
  else
    match reconverge s i with
    | (_, .stop e) => .stop e
    | (s, .ok h) => go s h

end Sys2Proof.Machine
end

