-- ==== Sys2Proof/Machine/Control.lean ====
section
/-! DEFINITION. The control-flow instructions (R107 to R122). -/

namespace Sys2Proof.Machine

/-- A word without register operands. -/
def plainSpec (opc : Nat) (g : Guard) : WordSpec := { opc := opc, guard := g }

/-- NOP (R109). -/
def execNop (g : Guard) (s : State) : Host.Outcome State Fault Refusal :=
  issue (plainSpec 0x00 g) (fun s _ _ => .done s 0) s

/-- YIELD (R109). -/
def execYield (g : Guard) (s : State) : Host.Outcome State Fault Refusal :=
  issue (plainSpec 0x01 g) (fun s _ _ => .yield s) s

/-- The lanes of a mask end as by EXIT; the others fall through (R110). -/
def exitLanes (s : State) (i : Issuer) (g : Lanes) : State :=
  updWarp s i.w fun x => (x.endLanes g).setSplit i.e fun p => p.goTo ⟨i.fall, none⟩

/-- EXIT (R110). -/
def execExit (g : Guard) (s : State) : Host.Outcome State Fault Refusal :=
  issue { plainSpec 0x02 g with transfer := true, noHandler := true } (fun s i m => .moved (exitLanes s i m)) s

/-- BRK (R111). -/
def execBrk (g : Guard) (imm : BitVec 16) (s : State) : Host.Outcome State Fault Refusal :=
  issue (plainSpec 0x03 g) (fun s i _ => .trapNext s (i.fault .brk 0 imm.toNat)) s

/-- TRAP (R111). -/
def execTrap (g : Guard) (imm : BitVec 16) (s : State) : Host.Outcome State Fault Refusal :=
  issue { plainSpec 0x0C g with transfer := true } (fun s i _ => .trapFall s (i.fault .swTrap 0 imm.toNat)) s

/-- The lowest lane of one mask is in another. -/
def leads (active g : Lanes) : Bool :=
  match lowestLane active with
  | some l => g.getLsbD l
  | none => false

/-- BRA's taken set (R112). -/
def braTaken (mode : BraMode) (active g : Lanes) : Lanes :=
  let whole (c : Bool) : Lanes := if c then active else 0
  match mode with
  | .uni => whole (leads active g)
  | .any => whole (g != 0)
  | .all => whole (g == active)
  | .none => whole (g == 0)
  | .div => g

/-- BRA (R112). -/
def execBra (g : Guard) (mode : BraMode) (tgt : BitVec 32) (s : State) : Host.Outcome State Fault Refusal :=
  issue { plainSpec 0x04 g with transfer := true, always := true } (fun s i m =>
    let active := i.x.active i.e
    let t := braTaken mode active m
    match divideSplit s i i.e t (active &&& ~~~t) (headerAt i.b.hdrAt tgt) ⟨i.fall, none⟩ with
    | .ok d => .moved d.s
    | .stop e => e) s

/-- The target of a lane of BRX or CALLV: its W pair (R113). -/
def laneTarget (i : Issuer) (reg : Fin 256) (l : Nat) : Word64 := i.x.laneV true reg.val l

/-- MISALIGN at a target whose low three bits are not zero. -/
def misTarget (l : Nat) (x : Word64) : FaultInfo := FaultInfo.perLane .misalign 0 0 (1#32 <<< l) fun _ => x

/-- One division of R113 for a split: the lanes still to serve, and what it makes of them. -/
def brxStep (s : State) (i : Issuer) (e : Nat) (div : Bool) (reg : Fin 256) (l : Nat) (left : Lanes) :
    Lanes × Try Divided :=
  let x := laneTarget i reg l
  let active := (warpAt s i.w).active e
  let t := if div then laneMask fun k => left.getLsbD k && laneTarget i reg k == x else active
  let rest := left &&& ~~~t
  (rest, divideSplit s i e t (active &&& ~~~t) x (if rest ≠ 0 then i.here else ⟨i.fall, none⟩))

/-- BRX (R113). -/
def execBrx (g : Guard) (div : Bool) (reg : Fin 256) (s : State) : Host.Outcome State Fault Refusal :=
  issue { plainSpec 0x05 g with transfer := true, reads := vRegs true reg.val } (fun s i m =>
    let l := (lowestLane m).getD 0
    if laneTarget i reg l % 8 ≠ 0 then .trap s (misTarget l (laneTarget i reg l))
    else
      match (brxStep s i i.e div reg l m).2 with
      | .ok d => .moved d.s
      | .stop e => e) s

/-- CALL (R115): taken by every lane when the lowest is in G. -/
def execCall (g : Guard) (tgt : BitVec 32) (s : State) : Host.Outcome State Fault Refusal :=
  issue { plainSpec 0x06 g with transfer := true } (fun s i m =>
    if leads (i.x.active i.e) m then
      match pushCall s i i.e with
      | .stop e => e
      | .ok s => .moved (updSplit s i.w i.e fun p => p.goTo ⟨headerAt i.b.hdrAt tgt, none⟩)
    else .done s 0) s

/-- CALLV's divisions after the first: each acts on the entry that holds the lanes not yet served (R113). One whose push or
whose reconvergence header faults ends them: what went before stands, and the lanes left issue the word again, where they meet
that fault (DESIGN CHOICE, log 105). -/
def callvMore (i : Issuer) (reg : Fin 256) : Nat → State → Nat → Lanes → State
  | 0, s, _, _ => s
  | n + 1, s, e, left =>
    match lowestLane left with
    | none => s
    | some l =>
      if laneTarget i reg l % 8 ≠ 0 then s
      else
        match brxStep s i e true reg l left with
        | (_, .stop _) => s
        | (rest, .ok d) =>
          match pushCall d.s i e with
          | .stop _ => s
          | .ok s' =>
            match d.other with
            | some k => callvMore i reg n s' k rest
            | none => s'

/-- CALLV (R113, R115). Its division is tried before the push makes room, and made after it: a word that faults has had no
effect. -/
def execCallv (g : Guard) (div : Bool) (reg : Fin 256) (s : State) : Host.Outcome State Fault Refusal :=
  issue { plainSpec 0x07 g with transfer := true, reads := vRegs true reg.val } (fun s i m =>
    let l := (lowestLane m).getD 0
    if laneTarget i reg l % 8 ≠ 0 then .trap s (misTarget l (laneTarget i reg l))
    else
      match (brxStep s i i.e div reg l m).2 with
      | .stop e => e
      | .ok _ =>
        match callRoom s i with
        | .stop e => e
        | .ok s =>
          match brxStep s i i.e div reg l m with
          | (_, .stop e) => e
          | (rest, .ok d) =>
            let t := putCall d.s i i.e
            match d.other with
            | some k => .moved (callvMore i reg 3 t k rest)
            | none => .moved t) s

/-- RET (R117): at call depth 0 the active lanes end. In a handler, where lanes cannot end by EXIT, that is ILLEGAL (DESIGN CHOICE,
log 104). -/
def execRet (g : Guard) (s : State) : Host.Outcome State Fault Refusal :=
  issue { plainSpec 0x08 g with transfer := true } (fun s i m =>
    if leads (i.x.active i.e) m then
      if i.x.table.callDepth i.e = 0 then
        if i.x.handler.isSome then .trap s (i.fault .illegal 0 0) else .moved (exitLanes s i (i.x.active i.e))
      else
        match i.x.table.newestCall i.e with
        | none => .trap s (i.fault .diverge 3 0)
        | some (_, c) =>
          if c.depth ≠ i.p.frames.length then .trap s (i.fault .diverge 2 0)
          else
            match reloadCall s i with
            | .stop e => e
            | .ok (s, raised) =>
              let k := (((warpAt s i.w).table.newestCall i.e).map (·.1)).getD 0
              .movedRaising (updWarp s i.w fun x =>
                { x with table := ({ x.table with calls := x.table.calls.eraseIdx k }).setSplit i.e
                                    fun p => p.goTo ⟨c.rh, none⟩ }) raised ⟨c.rh, none⟩
    else .done s 0) s

/-- Enqueues one item of a lane (R119): false when the entry does not exist or its queue is full. -/
def enqueueItem (s : State) (l die entry : Nat) (item : List Byte) : State × Bool :=
  match (launchAt s l).dqs.find? fun d => d.die == die && d.entry == entry with
  | none => (s, false)
  | some d =>
    if d.count ≥ Config.dispatchCap then (s, false)
    else
      (updLaunch (deviceWrite s (d.place s (d.head + d.count)) item) l fun x => { x with dqs := x.dqs.map fun k =>
        if k.die = die ∧ k.entry = entry then k.push else k }, true)

/-- The 16 payload bytes of a lane: its X quad. -/
def quadBytes (x : Warp) (n l : Nat) : List Byte :=
  [0, 1, 2, 3].flatMap fun k => leBytes 4 ((x.getV (n + k)).lane l).toNat

/-- DISPATCH (R119). -/
def execDispatch (g : Guard) (reg aux : Fin 256) (pd : Fin 8) (s : State) : Host.Outcome State Fault Refusal :=
  issue { plainSpec 0x09 g with transfer := true, noHandler := true, unclean := true, orders := true,
                                reads := vQuad reg.val ++ [.v aux.val], writes := pRegs pd.val } (fun s i m =>
    let s := releaseScope s i.x.core .die
    let (s, got) := (lanesOf m).foldl (fun (s, got) l =>
      let entry := ((i.x.getV aux.val).lane l).toNat
      let (s, ok) := enqueueItem s i.x.launch (coreDie i.x.core) entry (quadBytes i.x reg.val l)
      (s, if ok then got ||| (1#32 <<< l) else got)) (s, (0 : Lanes))
    .done (updWarp s i.w fun x => x.putP pd.val m got) 0) s

/-- Role r of a launch (R27): role 0 stands in the record itself. -/
def Launch.role (l : Launch) (r : Nat) : Option RoleEntry :=
  if r = 0 then
    some { entry := bitsOf (l.word 4) 63 32, vreg := 8 * (bitsOf (l.word 2) 55 51 + 1), cls := bitsOf (l.word 3) 42 41,
           lim := l.wpb }
  else l.roles[r - 1]?

/-- Other live warps of the block in a role (R105). -/
def roleCount (s : State) (b w r : Nat) : Nat :=
  (s.warps.select fun k x => x.block == b && x.role == r && k != w).length

/-- ROLE (R105, R106, R120). -/
def execRole (g : Guard) (pd : Fin 8) (sb : Fin 64) (r : Fin 8) (s : State) : Host.Outcome State Fault Refusal :=
  issue { plainSpec 0x0A g with noHandler := true, unclean := true, writes := pRegs pd.val ++ sRegs true sb.val }
    (fun s i m =>
      let fails : WordEnd := .unwritten (updWarp s i.w fun x => x.putP pd.val m 0)
      let l := launchAt s i.x.launch
      match l.role r.val with
      | none => fails
      | some e =>
        if i.x.table.valid.length ≠ 1 ∨ i.p.frames ≠ [] ∨ i.p.spilled ≠ 0 ∨ e.lim ≤ roleCount s i.x.block i.w r.val then fails
        else
          let held := i.x.pendingRegs.filter fun q => match q with | .v n => decide (e.vreg ≤ n) | _ => false
          if held ≠ [] then .park s (.pending held)
          else
            let entry := l.kimg + BitVec.ofNat 64 e.entry
            .done (updWarp s i.w fun x =>
              (({ x with role := r.val, cls := e.cls, nextAllot := some e.vreg }.putP pd.val m m).putS sb.val
                (loWord entry)).putS (sb.val + 1) (hiWord entry)) 0) s

/-- LAUNCH's entry (R55, R121): false when the queue or the address does not serve. -/
def launchEntry (s : State) (asid q ra : Nat) (ser : Bool) : State × Bool :=
  let r := queueOf s q
  if 256 ≤ q ∨ r.enable = false ∨ r.devlaunch = false ∨ r.asid ≠ asid ∨ 2 ^ r.log2n ≤ (r.tail - r.head).toNat ∨
      ra % 128 ≠ 0 ∨ 2 ^ 52 ≤ ra then (s, false)
  else
    match unitWrite s asid (r.base.toNat + 8 * (r.tail.toNat % 2 ^ r.log2n)) (leBytes 8 (ra + b2n ser)) with
    | (s, true) => (setQueue s q { r with tail := r.tail + 1 }, true)
    | (s, false) => (s, false)

/-- LAUNCH (R121). -/
def execLaunch (g : Guard) (ser : Bool) (pd : Fin 8) (sa sb : Fin 64) (s : State) : Host.Outcome State Fault Refusal :=
  issue { plainSpec 0x0B g with noHandler := true, unclean := true, orders := true, reads := sRegs true sa.val ++ sRegs false sb.val,
                                writes := pRegs pd.val } (fun s i m =>
    let s := releaseScope s i.x.core .device
    let (s, ok) := launchEntry s i.x.asid (i.x.getS sb.val).toNat (i.x.getT sa.val).toNat ser
    .done (updWarp s i.w fun x => x.putP pd.val m (if ok then m else 0)) 0) s

/-- Lanes held in the frames of a split: those still to run and those that have run (R122; DEDUCED, log 7). -/
def Split.heldLanes (p : Split) : Lanes := p.frames.foldl (fun m f => m ||| f.pmask ||| (f.dm &&& ~~~p.mask)) 0

/-- The splits parked at the issuing split's WSYNC word. -/
def wsyncMates (i : Issuer) : List Nat :=
  i.x.table.valid.filter fun e => e != i.e && (let p := i.x.splitAt e
    p.pc == i.p.pc && p.word && (match p.park with | some (.wsync _) => true | _ => false))

/-- Lanes at the word, and lanes that need not reach it (R122). -/
def wsyncHere (i : Issuer) : Lanes :=
  (wsyncMates i).foldl (fun m e => m ||| i.x.active e) (i.x.active i.e)
def wsyncExcused (x : Warp) : Lanes :=
  x.table.valid.foldl (fun m e =>
    let p := x.splitAt e
    m ||| p.heldLanes ||| (if p.waiting then p.mask else 0)) 0

/-- A parked mate resumes at the following word; one whose signature would fail issues its word itself. -/
def wsyncRelease (ws : WordSpec) (i : Issuer) (pd : Nat) (val : Bool) (s : State) (e : Nat) : State :=
  let p := i.x.splitAt e
  let j : Issuer := { i with e := e, p := p }
  if j.sigBad ws then updSplit s i.w e fun p => { p with park := none }
  else
    let s := updWarp s i.w fun x => x.putP pd (i.x.active e) (if val then i.x.active e else 0)
    updSplit s i.w e fun p =>
      let p := { p with park := none, sig := j.sig ws }
      if i.last ws then p.goTo ⟨i.fall, none⟩ else { p with pc := (i.after ws).pc }

/-- WSYNC (R122): the predicate is written in every lane of the splits that were parked at it, as R122 says, and not only in
their lanes of G, as R108 would have it (DEDUCED, log 103). -/
def execWsync (g : Guard) (pd : Fin 8) (sa : Fin 64) (s : State) : Host.Outcome State Fault Refusal :=
  let ws : WordSpec := { plainSpec 0x0D g with noHandler := true, orders := true, reads := sRegs false sa.val, writes := pRegs pd.val }
  issue ws (fun s i m =>
    let want := (i.x.getS sa.val ||| m) &&& i.x.alive
    let here := wsyncHere i
    if want &&& ~~~(here ||| wsyncExcused i.x) ≠ 0 then .park s (.wsync (i.x.getS sa.val ||| m))
    else
      let val := want &&& ~~~here == 0
      let mine := i.x.active i.e
      let s := updWarp s i.w fun x => x.putP pd.val mine (if val then mine else 0)
      .done ((wsyncMates i).foldl (wsyncRelease ws i pd.val val) s) 0) s

end Sys2Proof.Machine
end

