-- ==== Sys2Proof/Machine/Landing.lean ====
section
/-! DEFINITION. How pending writes land (R95, R96, R246, R375, R456), with the group loads of R264 to R266, whose
members are read then. -/

namespace Sys2Proof.Machine

/-! ## Group loads (R265, R266) -/

/-- The members of the group instance that an id names, by linear number (R29). -/
def groupMembers (l : Launch) (gid : Nat) : List Nat :=
  match l.groupOf gid with
  | some g => (List.range (g.gspan + 1)).map ((gid - g.gbase) * (g.gspan + 1) + ·)
  | none => []

/-- A member block of a launch: one that is being moved is read after the move (R358). -/
def launchMember (s : State) (launch linear : Nat) : Member :=
  match s.blocks.first fun k x => decide (k < 4096) && x.launch == launch && x.linear == linear with
  | some (k, x) => if memberOf s k != .gone && movingCore s x.core then .held else memberOf s k
  | none => if s.saved.any fun x => x.launch == launch && x.entry.isNone && x.linear == linear then .held else .gone

/-- A node of the Swallowtail tree: none is poison, else the parts of the element and the flags raised below it. -/
abbrev GroupNode := Option (List Nat × Nat)

/-- An element as the leaves hold it: the halves of bf16x2 are widened to f32 (R264). -/
def groupLeaf (op : LdgOp) (sz : MSize) (v : Nat) : List Nat :=
  if op = .add ∧ sz = .bf16x2 then [v % 2 ^ 16 * 2 ^ 16, v / 2 ^ 16 % 2 ^ 16 * 2 ^ 16] else [v]

/-- One part of a combination (R264). -/
def groupPart (op : LdgOp) (sz : MSize) (x y : Nat) : Nat × Nat :=
  let w := 8 * sz.bytes
  let less (a b : Nat) : Bool := valueOf (sizeTy sz) w a < valueOf (sizeTy sz) w b
  match op with
  | .add => if sizeFloat sz then fpAdd .f32 rneKeep x y else ((x + y) % 2 ^ w, 0)
  | .min => if sz = .f32 then fpMinMax .f32 false x y else (if less y x then y else x, 0)
  | .max => if sz = .f32 then fpMinMax .f32 true x y else (if less x y then y else x, 0)
  | .and => (Nat.land x y, 0)
  | .or => (Nat.lor x y, 0)
  | .xor => (Nat.xor x y, 0)

/-- comb of R265 on two nodes that are present: poison spreads. -/
def groupComb (op : LdgOp) (sz : MSize) (a b : GroupNode) : GroupNode :=
  match a, b with
  | some (xs, f), some (ys, f') =>
    let ps := (xs.zip ys).map fun (x, y) => groupPart op sz x y
    some (ps.map (·.1), (ps.map (·.2)).foldl joinFlags (joinFlags f f'))
  | _, _ => none

/-- The tree over the 2^j positions from a; a position is physical core * 16 + block slot, so that routers and
quadrants are its upper levels (R265). None is absent. -/
def groupTree (op : LdgOp) (sz : MSize) : Nat → Nat → List (Nat × GroupNode) → Option GroupNode
  | _, _, [] => none
  | 0, _, m :: _ => some m.2
  | j + 1, a, ms =>
    match groupTree op sz j a (ms.filter (·.1 < a + 2 ^ j)), groupTree op sz j (a + 2 ^ j) (ms.filter (a + 2 ^ j ≤ ·.1)) with
    | some x, some y => some (groupComb op sz x y)
    | some x, none => some x
    | none, y => y

/-- The element when every member is absent (R266). -/
def groupEmpty (op : LdgOp) (sz : MSize) : Nat :=
  let w := 8 * sz.bytes
  match op with
  | .add | .or | .xor => 0
  | .and => 2 ^ w - 1
  | .min => if sz = .f32 then FFmt.infField .f32 else if sz = .b32 then 2 ^ 32 - 1 else 2 ^ (w - 1) - 1
  | .max => if sz = .f32 then FFmt.sign .f32 true + FFmt.infField .f32 else if sz = .b32 then 0 else 2 ^ (w - 1)

/-- The element at the root: the halves of bf16x2 are rounded to bfloat16. -/
def groupRoot (op : LdgOp) (sz : MSize) (ps : List Nat) : Nat × Nat :=
  if op = .add ∧ sz = .bf16x2 then
    let lo := fpConvert .f32 .bf16 rneKeep (ps.getD 0 0)
    let hi := fpConvert .f32 .bf16 rneKeep (ps.getD 1 0)
    (lo.1 + hi.1 * 2 ^ 16, joinFlags lo.2 hi.2)
  else (ps.getD 0 0, 0)

/-- What one lane's elements come to. -/
structure GroupLane where
  lane : Nat
  gid : Nat
  value : Nat
  flags : Nat
  absent : Bool
  poison : Bool
  /-- the source of R249 of the first poisoned row -/
  src : Nat
  deriving DecidableEq, Repr

/-- The position of a block in the tree (R358): die, quadrant, router, port and block slot. -/
def blockPosition (s : State) (b : Nat) : Nat :=
  let x := blockAt s b
  coreDie x.core * 1024 + remapEntry s.remap x.core % 64 * 16 + x.slot

/-- One element of one lane. -/
def groupElement (s : State) (r : LdgReq) (live : List Nat) (off : Nat) : Option GroupNode :=
  groupTree r.op r.sz 12 0 (live.map fun b =>
    let x := blockAt s b
    let d := readSpad s (spadAddr x.core (x.spBase + off)) r.sz.bytes
    (blockPosition s b, if d.isPoison then none else some (groupLeaf r.op r.sz (leNat d.data), 0)))

/-- The source of R249 of the first poisoned row that some elements are read from. -/
def groupSource (s : State) (r : LdgReq) (live : List Nat) (off : Nat) : Nat :=
  ((live.map fun b =>
    let x := blockAt s b
    readSpad s (spadAddr x.core (x.spBase + off)) (r.sz.bytes * r.elems)).find? (·.isPoison)).elim 0 (·.src)

/-- One lane of a group load. -/
def groupLane (s : State) (launch : Nat) (r : LdgReq) (l : Nat) : GroupLane :=
  let a := (r.addr.getD l 0).toNat
  let gid := bitsOf a 47 32
  let ms := (groupMembers (launchAt s launch) gid).map (launchMember s launch)
  let live := liveKeys ms
  let els := (List.range r.elems).map fun k =>
    match groupElement s r live (a % 2 ^ 32 + k * r.sz.bytes) with
    | none => (groupEmpty r.op r.sz, 0, false)
    | some none => (0, 0, true)
    | some (some (ps, f)) => let (v, f') := groupRoot r.op r.sz ps; (v, joinFlags f f', false)
  { lane := l, gid := gid,
    value := (els.foldr (fun e v => v * 2 ^ (8 * r.sz.bytes) + e.1) 0),
    flags := (els.map (·.2.1)).foldl joinFlags 0, absent := ms.any (· == .gone), poison := els.any (·.2.2),
    src := groupSource s r live (a % 2 ^ 32) }

/-- Some member that a group load reads has been saved and not yet restored, or is being moved. -/
def groupHeld (s : State) (launch : Nat) (r : LdgReq) : Bool :=
  (lanesOf r.lanes).any fun l =>
    (groupMembers (launchAt s launch) (bitsOf (r.addr.getD l 0).toNat 47 32)).any fun b => launchMember s launch b == .held

/-- The rows of the members' scratchpads that a group load reads over the network: on-chip errors found there are counted
(R252). The lanes answered are those whose data met flips that no link has seen (R226, log 109). -/
def groupNotes (s : State) (w : Nat) (r : LdgReq) : State × List Nat :=
  let k := (warpAt s w).launch
  let core := (warpAt s w).core
  (lanesOf r.lanes).foldl (fun t l =>
    let a := (r.addr.getD l 0).toNat
    (liveKeys ((groupMembers (launchAt s k) (bitsOf a 47 32)).map (launchMember s k))).foldl (fun (s, hit) b =>
      let x := blockAt s b
      let pa := spadAddr x.core (x.spBase + a % 2 ^ 32)
      let (s, flips) := travel s (some core) pa false
      (noteSpad s pa (r.sz.bytes * r.elems), if flips.isEmpty then hit else hit ++ [l])) t) (s, [])

/-- The pending write of a group load once its members are read, hit being the lanes whose data was damaged on the way. -/
def groupRead (s : State) (w : Nat) (p : Pending) (r : LdgReq) (hit : List Nat) : Pending :=
  let x := warpAt s w
  let l := launchAt s x.launch
  let rs := (lanesOf r.lanes).map fun k =>
    let g := groupLane s x.launch r k
    if hit.contains k && !g.poison then { g with poison := true, src := 3 } else g
  let faulty (g : GroupLane) : Bool := g.absent && ((l.groupOf g.gid).map (·.faultPolicy)).getD false
  let report (f : GroupLane → Bool) (nm : FaultName) (cause info : Nat) : FaultInfo :=
    FaultInfo.perLane nm cause info (laneMask fun k => rs.any fun g => g.lane == k && f g) fun k => r.addr.getD k 0
  let gw := gradeWord (((rs.find? (·.poison)).map (·.src)).getD 3) 0 3
  let fault : Option FaultInfo :=
    match rs.find? faulty with
    | some g => some (report faulty .groupAbsent 0x80 g.gid)
    | none => if rs.any (·.poison) then some (report (·.poison) .grade 0x83 (gw.toNat / 2 ^ 16)) else none
  let val (k : Nat) : Nat := ((rs.find? (·.lane == k)).map (·.value)).getD 0
  let n := r.sz.bytes * r.elems
  { p with
    ldg := none, fault := fault,
    grade := if rs.any (·.poison) then some gw else none,
    flags := if fault.isSome then 0
      else joinFlags ((rs.map (·.flags)).foldl joinFlags 0) (flagIf (rs.any (·.absent)) fABSENT),
    dests := (p.dests.zip (List.range (regsFor n))).map fun (d, k) =>
      match d with
      | .v reg ls _ => .v reg (if fault.isSome then 0 else ls) (rowOf fun l => BitVec.ofNat 32 (val l / 2 ^ (32 * k)))
      | d => d }

/-! ## Landing (R96) -/

/-- Writes one destination. A write of S62 or S63 under MSG by a user word is discarded (R375), and so is one of a V register
that a ROLE has taken away since (R106). -/
def landDest (byHandler : Bool) (x : Warp) (d : PDest) : Warp :=
  match d with
  | .v r ls row => if ls = 0 ∨ (r < 256 ∧ x.allot ≤ r) then x else x.setRawV r (Row.upd (x.rawV r) ls row.lane)
  | .s r v => if x.msg && !byHandler && (r == 62 || r == 63) then x else x.setRawS r v
  | .p r ls vs => x.putP r ls vs

/-- A landing write of S61 by a user word sends a flit to MTGT as it stood at issue (R375). -/
def landSends (x : Warp) (p : Pending) : Bool :=
  x.msg && !p.handler && p.fault.isNone && p.dests.any fun d => d.reg == .s 61

/-- The lanes that a write fills whole, for its register file rows (R250). -/
def landRows (s : State) (w : Nat) (p : Pending) : State :=
  p.dests.foldl (fun s d =>
    match d with
    | .v _ ls _ => cleanRegRows s w ls [d.reg]
    | _ => s) s

/-- Adds a deferred fault, in the order that its word issued. -/
def insertDeferred (l : List Pending) (p : Pending) : List Pending :=
  l.takeWhile (·.stamp ≤ p.stamp) ++ p :: l.dropWhile (·.stamp ≤ p.stamp)

/-- What landing does to the warp: destinations, flags, GRADE; a fault or an enabled flag is kept for its trap. With a
fault no S destination is written (R246, R456). -/
def Warp.land (x : Warp) (p : Pending) : Warp :=
  let ds := p.dests.filter fun d => match d with | .s _ _ => p.fault.isNone | _ => true
  let x := ds.foldl (landDest p.handler) x
  let x := x.mergeFlags p.handler p.flags
  let x := match p.grade with | some g => { x with grade := g } | none => x
  let hot := if p.handler then 0 else enabledFlags x.userFlags p.flags
  if p.fault.isSome then { x with deferred := insertDeferred x.deferred p }
  else if hot ≠ 0 then
    let q : Pending := { p with dests := [], fault := some (FaultInfo.uniform .numeric 0 hot p.pc) }
    { x with deferred := insertDeferred x.deferred q }
  else x

/-- No earlier pending write shares a register: writes to one register land in issue order. -/
def landsNext (x : Warp) (n : Nat) (p : Pending) : Bool :=
  let rs := p.dests.map PDest.reg
  (x.pend.take n).all fun q => q.dests.all fun d => !rs.contains d.reg

/-- The n-th pending write of a warp lands, if it may. -/
def landWrite (s : State) (w n : Nat) : State :=
  let x := warpAt s w
  match x.pend[n]? with
  | none => s
  | some p =>
    let held := match p.ldg with | some r => groupHeld s x.launch r | none => false
    if held || !landsNext x n p || (landSends x p && (windowFull s w p.mtgt).isSome) then s
    else
      let s := match p.ldg with | some r => if r.acq then acquireL1 s x.core else s | none => s
      let (s, p) := match p.ldg with
        | some r =>
          let (t, hit) := groupNotes s w r
          (t, groupRead s w p r hit)
        | none => (s, p)
      let s := landRows (updWarp s w fun x => { x with pend := x.pend.eraseIdx n }.land p) w p
      if landSends x p then
        let y := warpAt s w
        sendFlit s w p.mtgt (pairWord (y.rawS 60) (y.rawS 61))
      else s

end Sys2Proof.Machine
end

