-- ==== Sys2Proof/Machine/MatrixRun.lean ====
section
/-! DEFINITION. The matrix engine at work (R146 to R149, R296 to R308, R314 to R322): the B tile, exact block sums, the
anchored accumulator, drains, and the row-buffer queues. -/

namespace Sys2Proof.Machine

/-! ## Arithmetic of the accumulator (R146, R147) -/

/-- NANWORD. -/
def nanWord : Word64 := 0x8000000000000000#64

/-- An exact dyadic number v·2^e. -/
abbrev Dyadic := Int × Int

/-- rne of v·2^e in units of 2^q. -/
def rneTo (x : Dyadic) (q : Int) : Int :=
  let n := (roundAt .rne (decide (x.1 < 0)) x.1.natAbs x.2 q).1
  if x.1 < 0 then -(n : Int) else n

/-- floor(log2 |x|) of a number that is not zero. -/
def dyLog (x : Dyadic) : Int := expOf x.1.natAbs x.2

/-- The largest of a list of numbers. -/
def largest (xs : List Int) : Option Int :=
  xs.foldl (fun m x => match m with | none => some x | some y => some (if y < x then x else y)) none

/-- d of R147: tried upward from a number at which it cannot yet hold. -/
def leastShift (fits : Int → Bool) : Nat → Int → Int
  | 0, d => d
  | n + 1, d => if fits d then d else leastShift fits n (d + 1)

/-- A row segment: sixteen words and an anchor. -/
structure Segment where
  words : List Word64
  anchor : BitVec 16
  deriving DecidableEq, Repr

/-- t within the range of a word, and SAT (R147). -/
def clampWord (t : Int) : Word64 × Nat :=
  if 2 ^ 63 - 1 < t then (BitVec.ofInt 64 (2 ^ 63 - 1), fSAT)
  else if t < -(2 ^ 63 - 1) then (BitVec.ofInt 64 (-(2 ^ 63 - 1)), fSAT)
  else (BitVec.ofInt 64 t, 0)

/-- The sums of the columns that still hold numbers, with their words. -/
def liveSums (ws : List Word64) (ss : List (Option Dyadic)) : List (Word64 × Dyadic) :=
  (ws.zip ss).filterMap fun (w, s) => match s with | some x => if w = nanWord then none else some (w, x) | none => none

/-- One k-block's sums into a segment (R147); none is NaN. -/
def accumulate (g : Segment) (ss : List (Option Dyadic)) : Segment × Nat :=
  let iv := flagIf ((g.words.zip ss).any fun (w, s) => s.isNone && w != nanWord) fIV
  let ws := (g.words.zip ss).map fun (w, s) => if s.isNone then nanWord else w
  let live := liveSums ws ss
  let logs := (live.filter fun x => x.2.1 != 0).map fun x => dyLog x.2
  match largest logs, decide (g.anchor = autoAnchor) with
  | none, true => ({ g with words := ws }, iv)
  | top, auto =>
    let a : Int := if auto then top.getD 0 - 40 else g.anchor.toInt
    let fits (d : Int) : Bool := live.all fun (w, x) =>
      (rneTo (w.toInt, 0) d).natAbs < 2 ^ 62 && (rneTo x (a + d)).natAbs < 2 ^ 62
    let low : Int := match top with | some t => if 0 < t - 62 - a then t - 62 - a else 0 | none => 0
    let d0 := leastShift fits 8 low
    let d := if 32767 - a < d0 then 32767 - a else d0
    let step (w : Word64) (s : Option Dyadic) : Word64 × Nat :=
      match s with
      | none => (w, 0)
      | some x => if w = nanWord then (w, 0) else clampWord (rneTo (w.toInt, 0) d + rneTo x (a + d))
    let out := (ws.zip ss).map fun (w, s) => step w s
    ({ words := out.map (·.1), anchor := BitVec.ofInt 16 (a + d) }, (out.map (·.2)).foldl joinFlags iv)

/-! ## Segments in the accumulator memory (R304, R312) -/

/-- The physical tile of a block's tile number. -/
def physTile (x : Block) (t : Nat) : Nat := x.tiles.getD t 0

/-- The tile of a descriptor that holds an element's row block and column block. -/
def TileDesc.tileAt (t : TileDesc) (i cb : Nat) : Nat := t.tbase + i / 16 * t.ncb + cb

def segment (s : State) (core tile row : Nat) : Segment :=
  { words := (List.range 16).map fun j => accWord s core tile row j, anchor := anchorOf s core tile row }

/-- A segment written whole: its two rows of words hold no error. -/
def putSegment (s : State) (core tile row : Nat) (g : Segment) : State :=
  let s := cleanRows s fun r => r / 2 * 2 == chipRow 2 (accKey core tile row 0 / 8)
  setAnchor ((List.range 16).foldl (fun s j => setAcc s core tile row j (g.words.getD j 0)) s) core tile row g.anchor

/-- A segment that delivers poison: marked, or with a bad row of words or anchors (R247, R250). -/
def segPoison (s : State) (core tile row : Nat) : Bool :=
  segMarked s core tile row || accRowBad s (accKey core tile row 0) || accRowBad s (accKey core tile row 8) ||
    anchorRowBad s core tile

/-- A poisoned sum reaches a segment: it takes a mark, and its anchor is a free value (R247, log 8). -/
def poisonSegment (s : State) (core tile row : Nat) : State :=
  let (f, s) := freshWord (markSeg s core tile row)
  setAnchor s core tile row (f.setWidth 16)

/-! ## The B tile (R296, R298) -/

/-- The macro that holds row r and column c of the logical tile under arrangement k. -/
def macroOf (x : Block) (k r c : Nat) : Nat := x.macFirst + r / 128 + k / 128 * (c / 128)

/-- A cell of the logical tile, and the B scale record of a column's k-block. -/
def cellAt (s : State) (x : Block) (k r c : Nat) : Nat :=
  (s.cells.getD 0 (cellKey x.core (macroOf x k r c) (r % 128) (c % 128))).toNat
def brecAt (s : State) (x : Block) (k q c : Nat) : Nat :=
  (s.bscale.getD 0 (bscaleKey x.core (macroOf x k (16 * q) c) (q % 8) (c % 128))).toNat

/-- Under 32-element blocks E comes from the first record of two (R143). -/
def joinRecord (len32 : Bool) (rec : Nat → Nat) (q : Nat) : Nat :=
  if len32 then rec (q / 2 * 2) / 256 * 256 + rec q % 256 else rec q

/-- aint of a field (R301). -/
def aintOf (b field : Nat) (mu : Bool) : Int :=
  let v : Int := (field % 2 ^ b) * 2 ^ (1 - b2n mu)
  if bitOf field b then -v else v

/-- The residue of an integer by which the engine checks its sums (R307). -/
def checkMod (v : Int) : Nat := (v % 251).toNat

/-- The check cell of a row of the logical tile, for the macro that holds a column. -/
def checkAt (s : State) (x : Block) (k r c : Nat) : Nat :=
  (s.checks.getD 0 (macroRow x.core (macroOf x k r c) (r % 128))).toNat

/-- One block of a column: sixteen cells with their record, and their part of the check column (R298, R307). -/
def loadBlock (s : State) (x : Block) (k c q b bits rc : Nat) : State :=
  let cells := (List.range 16).foldl (fun t i =>
    let r := 16 * q + i
    Tbl.putD (α := BitVec 8) t 0 (cellKey x.core (macroOf x k r c) (r % 128) (c % 128))
      (BitVec.ofNat 8 (bits / 2 ^ ((b + 1) * i) % 2 ^ (b + 1)))) s.cells
  { s with cells := cells,
           bscale := Tbl.putD (α := BitVec 16) s.bscale 0 (bscaleKey x.core (macroOf x k (16 * q) c) (q % 8) (c % 128))
             (BitVec.ofNat 16 rc),
           checks := (List.range 16).foldl (fun t i =>
             let r := 16 * q + i
             let v := aintOf b (bits / 2 ^ ((b + 1) * i) % 2 ^ (b + 1)) (bitOf rc (i / 2))
             if v = 0 then t
             else
               let key := macroRow x.core (macroOf x k r c) (r % 128)
               Tbl.putD (α := BitVec 8) t 0 key (BitVec.ofNat 8 (checkMod ((t.getD (0 : BitVec 8) key).toNat + v)))) s.checks }

/-- The scale record at an offset of the allotment. -/
def recordOf (b : Bytes) (q : Nat) : Nat := (b.data.getD (2 * q) 0).toNat + 256 * (b.data.getD (2 * q + 1) 0).toNat

/-- An extent of the scale allotment that is beyond it: cause 1. -/
def scaleBeyond (s : State) (c : Card) (off n : Nat) : Option (Nat × Word64) :=
  if scaleSize (blockAt s c.block) < off + n then some (1, 0) else none

/-- An operand that must lie in scratchpad (R314, R317). -/
def spadBeyond (s : State) (c : Card) (r : Rows) : Option (Nat × Word64) :=
  match cardBase r.base with
  | .spad _ => rowsBeyond s c r false
  | _ => some (1, r.base)

/-- BLOAD's checks (R314). -/
def checkBload (s : State) (c : Card) (src : Word64) (stride : Int) (b : OpFmt) : List (Option (Nat × Word64)) :=
  let x := blockAt s c.block
  let n := arrN x.macs c.arrK
  [spadBeyond s c (bColumns x.macs c.arrK src stride b), scaleBeyond s c b.scoff (2 * n * (c.arrK / 16)),
   if src.toNat % 2 ≠ 0 ∨ stride % 2 ≠ 0 then some (2, src) else none]

/-- BLOAD (R298, R299, R314): the whole tile, and a mark when any source row is poisoned. -/
def runBload (r : Run) (c : Card) (src : Word64) (stride : Int) (b : OpFmt) : Run :=
  let x := blockAt r.s c.block
  let k := c.arrK
  let n := arrN x.macs k
  let cols := bColumns x.macs k src stride b
  let scales := scaleBytes r.s c b.scoff (2 * n * (k / 16))
  let r := { r with s := clearMacros (noteScaleOf r.s c b.scoff (2 * n * (k / 16))) x.core x.macFirst x.macs }
  let (r, bad) := (List.range n).foldl (fun (r, bad) j =>
    let (r, v) := cardRead r c copyClasses (cols.at j) cols.len
    let s := (List.range (k / 16)).foldl (fun s q =>
      loadBlock s x k j q (sbBits b.sb) (leNat ((v.data.drop (q * sbBytes b.sb)).take (sbBytes b.sb)))
        (joinRecord b.len32 (fun q => recordOf scales (j * (k / 16) + q)) q)) r.s
    ({ r with s := s }, bad || v.bad)) (r, scales.bad)
  let s := updBlock r.s c.block fun x => { x with bFmt := some (b.sb, b.len32), bMark := bad }
  { r with s := if bad then countMark s else s }

/-! ## A rows (R300, R303) -/

/-- One 16-element block of a row: its shared exponent and the signed integers aint of its elements (R301). -/
structure ABlock where
  e : Nat
  aint : List Int
  deriving DecidableEq, Repr

/-- A block from its fields and record. -/
def blockFrom (b : Nat) (fields : List Nat) (rc : Nat) : ABlock :=
  { e := rc / 256 % 256, aint := (List.range 16).map fun i => aintOf b (fields.getD i 0) (bitOf rc (i / 2)) }

/-- The fields of a stored block. -/
def fieldsOf (b bits : Nat) : List Nat := (List.range 16).map fun i => bits / 2 ^ ((b + 1) * i) % 2 ^ (b + 1)

/-- A row as blocks, and the flags of its conversion; rec gives the row's records (R300). -/
def rowBlocks (a : OpFmt) (n : Nat) (row : List Byte) (rec : Nat → Nat) : List ABlock × Nat :=
  if a.fmt ≤ 2 then
    ((List.range (n / 16)).map fun q =>
      blockFrom (sbBits a.sb) (fieldsOf (sbBits a.sb) (leNat ((row.drop (q * sbBytes a.sb)).take (sbBytes a.sb))))
        (joinRecord a.len32 rec q), 0)
  else
    let f := if a.fmt = 3 then FFmt.bf16 else FFmt.f16
    let v (i : Nat) : Fp := unpack f false ((row.getD (2 * i) 0).toNat + 256 * (row.getD (2 * i + 1) 0).toNat)
    (List.range (n / 16)).foldl (fun (bs, fl) q =>
      let (hs, fl') := sbEncode .sb7 ((List.range 16).map fun i => v (16 * q + i))
      match hs with
      | h :: _ => (bs ++ [blockFrom 7 h.fields h.scale], joinFlags fl fl')
      | [] => (bs, fl)) ([], 0)

/-! ## Block sums (R301, R303) -/

/-- A product term: A's integer, B's integer, B's exponent. -/
abbrev Term := Int × Int × Nat

/-- The block sum of terms that share one A block; none is NaN. -/
def blockSum (ea ba bb : Nat) (ts : List Term) : Option Dyadic :=
  if ea = 255 ∨ ts.any (fun t => t.2.2 == 255) then none
  else if ea = 0 then some (0, 0)
  else
    let nz := ts.filter fun t => t.2.2 != 0
    let lo := nz.foldl (fun m t => Nat.min m t.2.2) 255
    some ((nz.map fun t => t.1 * t.2.1 * 2 ^ (t.2.2 - lo)).foldl (· + ·) 0, (ea : Int) + lo - 254 - ba - bb)

/-- The index string as a number (R318). -/
def indexString (c : Card) : Nat :=
  (c.idx.foldl (fun (n, i) w => (n + w.toNat * 2 ^ (32 * i), i + 1)) (0, 0)).1

/-- The dense position of compressed element e (R303). -/
def densePos (str e : Nat) : Nat := 4 * (e / 2) + bitsOf str (2 * e + 1) (2 * e)

/-- The index string serves an arrangement (R318). -/
def indexOk (c : Card) (k : Nat) : Bool :=
  let str := indexString c
  decide (k ≤ 32 * c.idx.length) &&
    (List.range (k / 4)).all fun g => bitsOf str (4 * g + 1) (4 * g) < bitsOf str (4 * g + 3) (4 * g + 2)

/-- The rows of B that the elements of A block q meet: the dense positions of a compressed block (R303). -/
def positionsOf (c : Card) (sparse : Bool) (q : Nat) : List Nat :=
  let str := if sparse then indexString c else 0
  (List.range 16).map fun i => if sparse then densePos str (16 * q + i) else 16 * q + i

/-- The terms of a column for A block q. -/
def termsOf (s : State) (x : Block) (c : Card) (sparse : Bool) (bb q col : Nat) (a : ABlock) : List Term :=
  let k := c.arrK
  (a.aint.zip (positionsOf c sparse q)).map fun (v, p) =>
    let rc := brecAt s x k (p / 16) col
    (v, aintOf bb (cellAt s x k p col) (bitOf rc (p % 16 / 2)), rc / 256 % 256)

/-- A raw block sum, exact (R301). -/
def rawSum (ts : List Term) : Int := (ts.map fun t => t.1 * t.2.1).foldl (· + ·) 0

/-- A raw block sum that goes wrong by some amount, as one more term. -/
def strayTerms (ts : List Term) (delta : Int) : List Term :=
  match ts with
  | t :: _ => if delta = 0 then ts else ts ++ [(delta, 1, t.2.2)]
  | [] => []

/-- By how much the sum of a row's k-block and column goes wrong. -/
def strayOf (s : State) (id i q col : Nat) : Int :=
  ((s.engineErrors.filter fun e => e.card == id && e.row == i && e.block == q && e.col == col).map (·.delta)).foldl (· + ·) 0

/-- b of the resident B; a cleared one holds zeros under any. -/
def residentBits (x : Block) : Nat := match x.bFmt with | some (f, _) => sbBits f | none => 2

/-- The terms of a row as the engine sums them: by k-block, then by column. -/
def rowTerms (s : State) (x : Block) (c : Card) (sparse : Bool) (id i cols : Nat) (bs : List ABlock) : List (List (List Term)) :=
  (bs.zip (List.range bs.length)).map fun (a, q) => (List.range cols).map fun col =>
    strayTerms (termsOf s x c sparse (residentBits x) q col a) (strayOf s id i q col)

/-- The test of R307 for one k-block and the macros that hold 128 columns from 128·g on. -/
def checkHolds (s : State) (x : Block) (c : Card) (sparse : Bool) (q g : Nat) (a : ABlock) (ts : List (List Term)) : Bool :=
  let sums := (((ts.drop (128 * g)).take 128).map rawSum).foldl (· + ·) 0
  let product := ((a.aint.zip (positionsOf c sparse q)).map fun (v, p) => v * (checkAt s x c.arrK p (128 * g) : Int)).foldl
    (· + ·) 0
  checkMod sums == checkMod product

/-- Every macro of every k-block of a row passes the test. -/
def rowHolds (s : State) (x : Block) (c : Card) (sparse : Bool) (cols : Nat) (bs : List ABlock) (ts : List (List (List Term))) :
    Bool :=
  (bs.zip (ts.zip (List.range bs.length))).all fun (a, t, q) =>
    (List.range ((cols + 127) / 128)).all fun g => checkHolds s x c sparse q g a t

/-- The resident B is marked, or a row of its macros is bad. -/
def residentBad (s : State) (x : Block) : Bool :=
  x.bMark || (!chipsClean s && (List.range x.macs).any fun j =>
    (List.range 128).any fun r => macroRowBad s x.core (x.macFirst + j) r)

/-! ## Product cards (R307, R316, R317) -/

/-- One row's sums into its segments. -/
def productRow (s : State) (x : Block) (t : TileDesc) (ba i : Nat) (bs : List ABlock) (ts : List (List (List Term))) :
    State × Nat :=
  (List.range t.ncb).foldl (fun (s, fl) cb =>
    let tile := physTile x (t.tileAt i cb)
    let row := i % 16
    let bad := segPoison s x.core tile row
    let s := noteSeg s x.core tile row
    if bad then (poisonSegment s x.core tile row, fl)
    else
      let (g, fl') := (bs.zip ts).foldl (fun (r : Segment × Nat) (a, cols) =>
        let (g, f) := accumulate r.1 (((cols.drop (16 * cb)).take 16).map (blockSum a.e ba (residentBits x)))
        (g, joinFlags r.2 f)) (segment s x.core tile row, 0)
      (putSegment s x.core tile row g, joinFlags fl fl')) (s, 0)

/-- A poisoned row marks every segment it feeds (R307). -/
def poisonRow (s : State) (x : Block) (t : TileDesc) (i : Nat) : State :=
  (List.range t.ncb).foldl (fun s cb => poisonSegment s x.core (physTile x (t.tileAt i cb)) (i % 16)) s

/-- A GRADE 1 element of a block whose E is 255 counts as GRADE 2 where it meets its record (R244). -/
def softPoison (a : OpFmt) (row recs : Bytes) : Bool :=
  decide (a.fmt ≤ 2) && row.soft.any fun i =>
    joinRecord a.len32 (fun q => recordOf recs q) (i / sbBytes a.sb) / 256 == 255

/-- One row of a product card, its bytes and its records at hand. No sum of a row that fails the check is accumulated. -/
def feedRow (r : Run) (id : Nat) (c : Card) (sparse : Bool) (a : OpFmt) (t : TileDesc) (i : Nat) (row recs : Bytes) :
    Run :=
  let x := blockAt r.s c.block
  let bad := residentBad r.s x
  let r := { r with s := noteMacros r.s x.core x.macFirst x.macs }
  if row.bad || recs.bad || bad || softPoison a row recs then { r with s := poisonRow r.s x t i }
  else
    let (bs, f1) := rowBlocks a (rowElems sparse c.arrK) row.data fun q => recordOf recs q
    let cols := 16 * t.ncb
    let ts := rowTerms r.s x c sparse id i cols bs
    if rowHolds r.s x c sparse cols bs ts then
      let (s, f2) := productRow r.s x t (if a.fmt ≤ 2 then sbBits a.sb else 7) i bs ts
      { r with s := s, flags := joinFlags r.flags (joinFlags f1 f2) }
    else r.stop 11 0

/-- The place of the records of row i of A in the allotment, and their bytes. -/
def rowRecordRun (c : Card) (sparse : Bool) (a : OpFmt) (i : Nat) : Nat × Nat :=
  let n := rowElems sparse c.arrK / 16
  if a.fmt ≤ 2 then (a.scoff + 2 * i * n, 2 * n) else (0, 0)

/-- The records of row i of A. -/
def rowRecords (s : State) (c : Card) (sparse : Bool) (a : OpFmt) (i : Nat) : Bytes :=
  let (off, n) := rowRecordRun c sparse a i
  if n = 0 then Bytes.none else scaleBytes s c off n

/-- A descriptor's tiles lie within the block's N (R312). -/
def tilesBeyond (s : State) (c : Card) (t : TileDesc) : Option (Nat × Word64) :=
  if (blockAt s c.block).tiles.length < t.tbase + t.count ∨ 256 < t.tbase + t.count then some (8, 0) else none

/-- The block may run co-operative cards (R306). -/
def coopBlock (x : Block) : Bool := x.macs == 8 && x.arrK == 256

/-- The checks at launch, in their order (R317, R318). -/
def checkProduct (s : State) (c : Card) (sparse : Bool) (src : Word64) (stride : Int) (a b : OpFmt) (t : TileDesc)
    (coop : Bool) : List (Option (Nat × Word64)) :=
  let x := blockAt s c.block
  let n := arrN x.macs c.arrK
  let unlike := match x.bFmt with | some (f, l) => f != b.sb || l != b.len32 | none => false
  let rows := aRows sparse c.arrK src stride a t
  [tilesBeyond s c t,
   if t.ncb ≠ n / 16 ∨ unlike = true then some (9, 0) else none,
   if coop && !coopBlock x then some (12, 0) else none,
   if coop then none else spadBeyond s c rows,
   if a.fmt ≤ 2 then scaleBeyond s c a.scoff (2 * t.mr * (rowElems sparse c.arrK / 16)) else none,
   if !coop && (src.toNat % 2 ≠ 0 || stride % 2 ≠ 0) then some (2, src) else none,
   if sparse && !indexOk c c.arrK then some (10, 0) else none]

/-- MMA and MMASP with A in scratchpad. -/
def runProduct (r : Run) (id : Nat) (c : Card) (sparse : Bool) (src : Word64) (stride : Int) (a : OpFmt) (t : TileDesc) :
    Run :=
  let rows := aRows sparse c.arrK src stride a t
  r.each (List.range t.mr) fun r i =>
    let (r, v) := cardRead r c copyClasses (rows.at i) rows.len
    let (off, n) := rowRecordRun c sparse a i
    r.andThen fun r => feedRow { r with s := noteScaleOf r.s c off n } id c sparse a t i v (rowRecords r.s c sparse a i)

/-! ## MINIT (R315) -/

/-- Every tile of a descriptor set to zero words and one anchor. -/
def setTiles (s : State) (c : Card) (t : TileDesc) (anchor : BitVec 16) : State :=
  let x := blockAt s c.block
  (List.range t.count).foldl (fun s i => setTile s x.core (physTile x (t.tbase + i)) anchor) s

def runMinit (r : Run) (c : Card) (anchor : BitVec 16) (t : TileDesc) : Run :=
  { r with s := setTiles r.s c t anchor }

/-! ## MDRAIN (R149, R308, R320 to R322) -/

/-- The format of a plain destination or residual: 0 f32, 1 bf16, 2 f16. -/
def plainFmt (f : Nat) : FFmt := match f with | 0 => .f32 | 1 => .bf16 | _ => .f16

/-- An element's binary32 value before delivery (R149). -/
def drainValue (d : Drain) (g : Segment) (i j : Nat) (res : Option Nat) : Nat × Nat :=
  let w := g.words.getD (j % 16) 0
  let v0 : Nat × Nat :=
    if g.anchor = autoAnchor then (0, 0)
    else if w = nanWord then (FFmt.f32.nan, 0)
    else roundTo .f32 .rne false (decide (w.toInt < 0)) w.toInt.natAbs g.anchor.toInt
  let v1 : Nat × Nat :=
    match res with
    | some x =>
      let r := sumFp .f32 rneKeep [some (unpack .f32 false v0.1), some (unpack (plainFmt d.rfmt) false x)]
      (r.1, joinFlags v0.2 r.2)
    | none => v0
  if d.drop then
    if kcg d.key d.seed i j < d.thr then (0, v1.2)
    else
      let r := fpMul .f32 rneKeep v1.1 d.factor
      (r.1, joinFlags v1.2 r.2)
  else v1

/-- The residual elements of a row segment, with their poison. -/
def residualOf (r : Run) (c : Card) (d : Drain) (i cb : Nat) : Run × Bytes :=
  let z := plainSize d.rfmt
  if d.res then cardRead r c copyClasses (d.resRows.at i + BitVec.ofNat 64 (16 * cb * z)) (16 * z) else (r, Bytes.none)

/-- Sixteen elements of a row as binary32 values: values, flags, poison of each. -/
def drainSegment (r : Run) (c : Card) (d : Drain) (i cb : Nat) : Run × List Nat × List Bool :=
  let x := blockAt r.s c.block
  let tile := physTile x (d.tdesc.tileAt i cb)
  let bad := segPoison r.s x.core tile (i % 16)
  let g := segment r.s x.core tile (i % 16)
  let z := plainSize d.rfmt
  let r := { r with s := noteSeg r.s x.core tile (i % 16) }
  let (r, b) := residualOf r c d i cb
  let els := (List.range 16).map fun j =>
    if bad then (0, 0)
    else drainValue d g i (16 * cb + j) (if d.res then some (leNat ((b.data.drop (z * j)).take z)) else none)
  let pois := (List.range 16).map fun j => bad || (List.range z).any fun y => b.poison.getD (z * j + y) false
  (r.flag ((els.map (·.2)).foldl joinFlags 0), els.map (·.1), pois)

/-- Delivers a row segment to a plain destination. -/
def drainPlain (r : Run) (c : Card) (d : Drain) (i cb : Nat) : Run :=
  let z := plainSize d.dfmt
  let (r, vs, pois) := drainSegment r c d i cb
  r.andThen fun r =>
    let out := vs.map fun v => if d.dfmt = 0 then (v, 0) else fpConvert .f32 (plainFmt d.dfmt) rneKeep v
    cardWrite (r.flag ((out.map (·.2)).foldl joinFlags 0)) c copyClasses (d.dstRows.at i + BitVec.ofNat 64 (16 * cb * z))
      { data := out.flatMap fun v => leBytes z v.1, poison := pois.flatMap fun p => List.replicate z p, soft := [] }

/-- Delivers a block of w row segments to an SB destination, with its records. -/
def drainBlock (r : Run) (c : Card) (d : Drain) (i cb w : Nat) : Run :=
  let z := sbBytes d.sb
  let (r, vs, pois) := (List.range w).foldl (fun (r, vs, pois) k =>
    let (r, v, p) := drainSegment r c d i (cb + k)
    (r, vs ++ v, pois ++ p)) (r, ([] : List Nat), ([] : List Bool))
  r.andThen fun r =>
    let bad := pois.any id
    let (hs, fl) := sbEncode d.sb (vs.map (unpack .f32 false))
    let els := hs.flatMap fun h => leBytes z (h.bits d.sb)
    let recs := hs.flatMap fun h => leBytes 2 h.scale
    let r := cardWrite (r.flag fl) c copyClasses (d.dstRows.at i + BitVec.ofNat 64 (cb * z))
      { data := els, poison := els.map fun _ => bad, soft := [] }
    r.andThen fun r => cardWrite r c copyClasses (d.dsca + BitVec.ofNat 64 (2 * (i * d.tdesc.ncb + cb)))
      { data := recs, poison := recs.map fun _ => bad, soft := [] }

/-- MDRAIN's checks. -/
def checkDrain (s : State) (c : Card) (d : Drain) : List (Option (Nat × Word64)) :=
  let a := if d.dfmt = 0 then 4 else 2
  [tilesBeyond s c d.tdesc,
   if d.len32 && d.tdesc.ncb % 2 ≠ 0 then some (9, 0) else none,
   rowsBeyond s c d.dstRows false,
   if d.res then rowsBeyond s c d.resRows false else none,
   if d.dfmt < 3 then none else rowsBeyond s c d.scaleRun false,
   if d.dst.toNat % a ≠ 0 ∨ d.dstr % a ≠ 0 then some (2, d.dst) else none,
   if d.res && (d.rsrc.toNat % plainSize d.rfmt ≠ 0 || d.rstr % plainSize d.rfmt ≠ 0) then some (2, d.rsrc) else none,
   if d.dsca.toNat % 2 ≠ 0 then some (2, d.dsca) else none]

/-- One tile, or two under 32-column blocks: its rows in ascending order, then CLR. -/
def drainTile (r : Run) (c : Card) (d : Drain) (rb cb w : Nat) : Run :=
  let x := blockAt r.s c.block
  let r := r.each ((List.range 16).filter fun i => rb * 16 + i < d.tdesc.mr) fun r i =>
    if d.dfmt < 3 then drainPlain r c d (rb * 16 + i) cb else drainBlock r c d (rb * 16 + i) cb w
  r.andThen fun r =>
    if d.clr then
      { r with s := (List.range w).foldl (fun s k =>
          setTile s x.core (physTile x (d.tdesc.tileAt (rb * 16) (cb + k))) autoAnchor) r.s }
    else r

def runMdrain (r : Run) (c : Card) (d : Drain) : Run :=
  let w := if d.len32 then 2 else 1
  r.each (List.range d.tdesc.rowBlocks) fun r rb =>
    r.each (List.range (d.tdesc.ncb / w)) fun r k => drainTile r c d rb (k * w) w

/-! ## Checks at launch (R312, R314, R317) -/

/-- The first check that a matrix card fails as it launches: cause and address. -/
def launchFault (s : State) (c : Card) : Option (Nat × Word64) :=
  let fs := match cardOp s c with
    | some (.bload src stride b) => checkBload s c src stride b
    | some (.minit _ t) => [tilesBeyond s c t]
    | some (.product sparse src stride a b t coop) => checkProduct s c sparse src stride a b t coop
    | some (.mdrain d) => checkDrain s c d
    | _ => []
  (fs.filterMap id).head?

/-! ## Row-buffer queues (R306) -/

/-- Bytes that a queue holds. -/
def queueBytes (x : Block) : Nat := (x.rbq.map fun r => r.bytes.length).foldl (· + ·) 0

/-- The checks before any row is sent: two blocks on different cores, each with eight macros. -/
def checkBuffers (s : State) (ts : List Member) : Option (Nat × Word64) :=
  let ks := liveKeys ts
  let cores := ks.map fun k => (blockAt s k).core
  if cores.eraseDups.length ≠ cores.length ∨ ks.any (fun k => (blockAt s k).macs != 8) then some (1, 0) else none

/-- One row into both queues. -/
def queueRow (s : State) (ts : List Nat) (b : Bytes) : State :=
  ts.foldl (fun s k => updBlock s k fun x => { x with rbq := x.rbq ++ [{ bytes := b.data, bad := b.bad, soft := b.soft }] }) s

/-- A CPYM card with DKIND 1 sends its next row; none while a queue lacks room. -/
def sendRow (s : State) (c : Card) (mask : Nat) (src : Rows) : Option Run :=
  let ts := targetsOf s c mask
  let live := liveKeys ts
  let r := (Run.start (beforeGlobal s c)).check
    (if c.rows = 0 then [rowsBeyond s c src false, checkBuffers s ts, rowsSkew src 4] else [])
  if ts.contains .held then none
  else if r.fault.isSome then some r
  else if live.any (fun k => Config.rowQueueBytes < queueBytes (blockAt s k) + src.len) then none
  else
    let (r, b) := cardRead r c copyClasses (src.at c.rows) src.len
    some (r.andThen fun r =>
      let r := { r with s := queueRow r.s live b }
      if ts.contains .gone then r.flag fABSENT else r)

/-- A co-operative product card takes its next row; none while its queue is empty. -/
def takeRow (s : State) (id : Nat) (c : Card) (sparse : Bool) (a : OpFmt) (t : TileDesc) : Option Run :=
  match (blockAt s c.block).rbq with
  | [] => none
  | q :: rest =>
    let s := updBlock s c.block fun x => { x with rbq := rest }
    if q.bytes.length ≠ a.rowBytes (rowElems sparse c.arrK) then some ((Run.start s).stop 12 0)
    else
      let (off, n) := rowRecordRun c sparse a c.rows
      some (feedRow (Run.start (noteScaleOf s c off n)) id c sparse a t c.rows
        { data := q.bytes, poison := List.replicate q.bytes.length q.bad, soft := q.soft } (rowRecords s c sparse a c.rows))

/-- What a row-buffer card keeps of a row's work. -/
def keepRow (id : Nat) (r : Run) : State :=
  { r.s with cards := r.s.cards.modify id fun c =>
      { c with rows := c.rows + b2n r.fault.isNone, flags := joinFlags c.flags r.flags, tails := c.tails ++ r.tails,
               failed := r.fault } }

/-- Rows that a row-buffer card moves in all; none for other cards. -/
def rowsOf (op : CardOp) : Option Nat :=
  match op with
  | .cpym true _ src _ _ => some src.rows
  | .product _ _ _ _ _ t true => some t.mr
  | _ => none

/-- A launched row-buffer card moves one row, if it can. -/
def stepRow (s : State) (id : Nat) (c : Card) : Option State :=
  if c.cancelled || !c.launched || c.failed.isSome || !coreRuns s c.core || linesRefused s c then none
  else
    match cardOp s c with
    | some (.cpym true mask src _ _) => if src.rows ≤ c.rows then none else (sendRow s c mask src).map (keepRow id)
    | some (.product sparse _ _ a _ t true) => if t.mr ≤ c.rows then none else (takeRow s id c sparse a t).map (keepRow id)
    | _ => none

/-- Every row that can move moves, within a bound. -/
def pumpRows : Nat → State → State
  | 0, s => s
  | n + 1, s =>
    match (s.cards.filterMap fun (k, c) => stepRow s k c).head? with
    | some s' => pumpRows n s'
    | none => s

/-- Rows left to move in the whole package. -/
def rowsLeft (s : State) : Nat :=
  (s.cards.map fun (_, c) => match (cardOp s c).bind rowsOf with | some n => n - c.rows + 1 | none => 0).foldl (· + ·) 0

/-- The row-buffer queues move on. -/
def pump (s : State) : State := pumpRows (rowsLeft s) s

end Sys2Proof.Machine
end

