-- ==== Sys2Proof/Machine/CardInstr.lean ====
section
/-! DEFINITION. The words that issue cards (R277 to R279, R309, R310) and the batch words (R288 to R291). -/

namespace Sys2Proof.Machine

/-! ## Issue of a card -/

/-- A card-issue word: its record offset, its tag, and the further registers that it reads. -/
def cardSpec (kind : Nat) (g : Guard) (sd sa : Fin 64) (more : List Reg) : WordSpec :=
  { opc := kind, guard := g, unclean := true, orders := true, noCallee := decide (0x90 ≤ kind), reads := sRegs false sa.val ++ more,
    writes := sRegs false sd.val }

/-- The checks of the record offset (R278): the fault's name, cause and address. -/
def offsetFault (s : State) (x : Warp) (off : Nat) : Option (FaultName × Nat × Word64) :=
  let a := BitVec.ofNat 64 (0xFFFF * 2 ^ 48 + off)
  if x.isCallee ∨ (blockAt s x.block).spSize ≤ off + 63 then some (.aperture, 1, a)
  else if off % 64 ≠ 0 then some (.misalign, 0, a)
  else none

/-- The eight words of a record. -/
def recordWords (bytes : List Byte) : List Word64 :=
  (List.range 8).map fun k => BitVec.ofNat 64 (leNat ((bytes.drop (8 * k)).take 8))

/-- Cards in the slots of a core. -/
def slotsUsed (s : State) (core : Nat) : Nat := (s.cards.select fun _ c => c.core == core).length

/-- A new card before its footprints are known. -/
def newCard (s : State) (i : Issuer) (kind : Nat) (words : List Word64) (fmt idx : List Word32) : Card :=
  { tag := s.cardCtr.getD 0 i.x.core, kind := kind, core := i.x.core, warp := i.w, num := i.x.num, block := i.x.block,
    launch := i.x.launch, ctx := i.x.ctx, asid := i.x.asid, words := words, fmt := fmt, idx := idx,
    arrK := nextArrangement s i.x.block, batch := none, orphan := false, linked := false, silent := false, reads := [], writes := [], preds := [],
    ready := none, launched := false, cancelled := false, linear := (blockAt s i.x.block).linear, sup := i.x.handler.isSome, rows := 0,
    flags := 0, tails := [], failed := none, stamp := s.seq }

/-- The footprints and edges of a new card; a malformed one has none. -/
def withEdges (s : State) (c : Card) : Card :=
  match cardOp s c with
  | none => c
  | some op =>
    let fp := cardFootprint s c op
    let c := { c with reads := fp.1, writes := fp.2 }
    { c with preds := predsOf s c }

/-- The tiles that MDRAIN waits for (R322). -/
def drainTiles (kind : Nat) (fmt : List Word32) : List Extent :=
  if kind = 0x95 then (match tileDesc (fmt.getD 2 0).toNat with | some t => [t.extent] | none => []) else []

/-- The record is read and the card takes a slot (R278); its tag lands later. -/
def issueCard (kind : Nat) (sd sa : Fin 64) (fmt idx : Warp → List Word32) (s : State) (i : Issuer) (g : Lanes) :
    WordEnd :=
  let off := (i.x.getS sa.val).toNat
  match offsetFault s i.x off with
  | some (nm, q, a) => .trap s (FaultInfo.perLane nm q 0 g fun _ => a)
  | none =>
    let at_ := spadAddr i.x.core ((blockAt s i.x.block).spBase + off)
    let d := readSpad s at_ 64
    let s := noteSpad s at_ 64
    let tiles := drainTiles kind (fmt i.x)
    if d.isPoison then
      let gw := gradeWord d.src 0 3
      .trap (recordGrade s i.w gw)
        (FaultInfo.perLane .grade 3 (gw.toNat / 2 ^ 16) g fun _ => BitVec.ofNat 64 (0xFFFF * 2 ^ 48 + off))
    else if tiles ≠ [] ∧ cardsHold s i.x.block tiles = true then .park s (.cards tiles)
    else if Config.cardSlots ≤ slotsUsed s i.x.core then .park s .slot
    else
      let c := withEdges s (newCard s i kind (recordWords d.data) (fmt i.x) (idx i.x))
      let s := { s with cards := s.cards.put s.nextId c, nextId := s.nextId + 1,
                        cardCtr := s.cardCtr.put i.x.core ((c.tag + 1) % 65536) }
      let s := if c.csco < 3 then s
        else updWarp s i.w fun x => { x with awayBatches := (x.awayBatches.filter (· != none)) ++ [none] }
      lateWord (markReady s) i (sDests i.x sd.val 4 c.tag) false

/-- A data card's word. -/
def dataCard (kind : Nat) (g : Guard) (sd sa : Fin 64) (s : State) : Host.Outcome State Fault Refusal :=
  issue (cardSpec kind g sd sa []) (issueCard kind sd sa (fun _ => []) fun _ => []) s

/-- CPY (R292). -/
def execCpy (g : Guard) (sd sa : Fin 64) (s : State) : Host.Outcome State Fault Refusal := dataCard 0x80 g sd sa s

/-- CPYM (R293). -/
def execCpym (g : Guard) (sd sa : Fin 64) (s : State) : Host.Outcome State Fault Refusal := dataCard 0x81 g sd sa s

/-- CPYSC (R294). -/
def execCpysc (g : Guard) (sd sa : Fin 64) (s : State) : Host.Outcome State Fault Refusal := dataCard 0x82 g sd sa s

/-- XPOSE (R295). -/
def execXpose (g : Guard) (sd sa : Fin 64) (s : State) : Host.Outcome State Fault Refusal := dataCard 0x83 g sd sa s

/-- SRED (R295). -/
def execSred (g : Guard) (sd sa : Fin 64) (s : State) : Host.Outcome State Fault Refusal := dataCard 0x84 g sd sa s

/-! ## Matrix cards (R309, R311) -/

/-- The registers of a format block. -/
def fmtRegs (sb : Nat) : List Reg := [.s sb, .s (sb + 1), .s (sb + 2), .s (sb + 3)]

/-- The words of a format block. -/
def fmtWords (sb : Nat) (x : Warp) : List Word32 := (List.range 4).map fun k => x.getS (sb + k)

/-- BLOAD (R314): it reads only S(SB+1). -/
def execBload (g : Guard) (sd sa sb : Fin 64) (s : State) : Host.Outcome State Fault Refusal :=
  issue (cardSpec 0x91 g sd sa [.s (sb.val + 1)])
    (issueCard 0x91 sd sa (fun x => [0, x.getS (sb.val + 1), 0, 0]) fun _ => []) s

/-- MINIT (R315). -/
def execMinit (g : Guard) (sd sa : Fin 64) (s : State) : Host.Outcome State Fault Refusal :=
  issue (cardSpec 0x92 g sd sa []) (issueCard 0x92 sd sa (fun _ => []) fun _ => []) s

/-- MMA (R316). -/
def execMma (g : Guard) (sd sa sb : Fin 64) (s : State) : Host.Outcome State Fault Refusal :=
  issue (cardSpec 0x93 g sd sa (fmtRegs sb.val)) (issueCard 0x93 sd sa (fmtWords sb.val) fun _ => []) s

/-- The lanes that a selector names (R318). -/
def indexLanes (sel : Fin 5) : List Nat := if sel.val = 4 then List.range 32 else (List.range 8).map (8 * sel.val + ·)

/-- MMASP (R316, R318): the index string is read from every selected lane. -/
def execMmasp (g : Guard) (sel : Fin 5) (sd sa sb : Fin 64) (vc : Fin 256) (s : State) :
    Host.Outcome State Fault Refusal :=
  issue (cardSpec 0x94 g sd sa (fmtRegs sb.val ++ vRegs false vc.val))
    (issueCard 0x94 sd sa (fmtWords sb.val) fun x => (indexLanes sel).map (x.getV vc.val).lane) s

/-- MDRAIN (R320, R322): the key stands in fifth place. -/
def execMdrain (g : Guard) (sd sa sb sc : Fin 64) (s : State) : Host.Outcome State Fault Refusal :=
  issue (cardSpec 0x95 g sd sa (fmtRegs sb.val ++ sRegs false sc.val))
    (issueCard 0x95 sd sa (fun x => fmtWords sb.val x ++ [x.getS sc.val]) fun _ => []) s

/-! ## Batches (R288, R290, R291) -/

/-- What is kept of the open set goes with it into a batch. -/
def closeBatch (n : Nat) (l : List (Option Nat × Nat)) : List (Option Nat × Nat) := l.map fun f => (some (f.1.getD n), f.2)

/-- AFENCE (R288). -/
def execAfence (g : Guard) (sd : Fin 64) (s : State) : Host.Outcome State Fault Refusal :=
  issue { opc := 0x85, guard := g, writes := sRegs false sd.val } (fun s i _ =>
    let n := (i.x.batch + 1) % 65536
    let close (c : Card) : Card := if c.isOf i.w && c.batch.isNone then { c with batch := some n } else c
    let s := { s with cards := s.cards.mapVals fun _ c => close c }
    .done (updWarp s i.w fun x =>
      let x : Warp := { x with
        batch := n,
        faultList := x.faultList.map fun (r : CardReport) => if r.batch = none then { r with batch := some n } else r,
        cardFlags := closeBatch n x.cardFlags, awayFlags := closeBatch n x.awayFlags,
        awayBatches := x.awayBatches.map fun b => some (b.getD n) }
      x.putS sd.val (BitVec.ofNat 32 n)) 0) s

/-- Distance back from the counter (R288). -/
def batchAge (c n : Nat) : Nat := (c + 65536 - n % 65536) % 65536

/-- The batch number that an AWAIT takes: one not reached counts as the counter. -/
def reachedBatch (c n : Nat) : Nat := if batchAge c n < 32768 then n % 65536 else c

/-- A batch, or the open set, is covered by an AWAIT of n, or of all. -/
def coversBatch (c : Nat) (n b : Option Nat) : Bool :=
  match n, b with
  | none, _ => true
  | some _, none => false
  | some k, some b => batchAge c (reachedBatch c k) ≤ batchAge c b

/-- Some covered card has not ended. -/
def batchRuns (s : State) (w : Nat) (n : Option Nat) : Bool :=
  s.cards.any fun (_, c) => c.isOf w && coversBatch (warpAt s w).batch n c.batch

/-- A report's batch is reached (R288), as AWAIT n asks of it (R410). -/
def reportReached (c : Nat) (n b : Option Nat) : Bool :=
  match n, b with
  | some _, some b => decide (batchAge c b < 32768)
  | _, _ => true

/-- The report that an AWAIT raises: the earliest covered one, or a LOST report that is due (R289, R291, R410). -/
def dueReport (x : Warp) (n : Option Nat) : Option Nat :=
  x.faultList.findIdx? fun r => r.cause == 7 || (coversBatch x.batch n r.batch && reportReached x.batch n r.batch)

/-- A raised report leaves the list; an entry with the lost mark leaves a LOST report behind. -/
def dropReport (l : List CardReport) (k : Nat) : List CardReport :=
  match l[k]? with
  | some r => if r.lost then l.set k { card := r.card, tag := 0xFFFF, cause := 7, batch := none, lost := false, addr := 0 }
              else l.eraseIdx k
  | none => l

/-- The fault of a report (R291, R307). -/
def CardReport.fault (r : CardReport) : FaultInfo :=
  FaultInfo.uniform (if r.cause = 11 then .mmaCheck else .cardFault) r.cause r.tag r.addr

/-- Card flags that raise NUMERIC at an AWAIT (R139, R291). Of those merged while the warp was away, the ones that FLAGS now
enables (DEDUCED, log 38). -/
def dueFlags (x : Warp) (n : Option Nat) : Nat :=
  let due (l : List (Option Nat × Nat)) : Nat :=
    ((l.filter fun f => coversBatch x.batch n f.1).map (·.2)).foldl joinFlags 0
  joinFlags (due x.cardFlags) (enabledFlags x.userFlags (due x.awayFlags))

/-- What an AWAIT that has completed leaves of the card flags. -/
def Warp.awaited (x : Warp) (n : Option Nat) : Warp :=
  { x with cardFlags := x.cardFlags.filter fun f => !coversBatch x.batch n f.1,
           awayFlags := x.awayFlags.filter fun f => !coversBatch x.batch n f.1 }

/-- The acquire of covered cards' writes, each at its completion scope: one of block scope does nothing to a first level
(R291, R337). -/
def acquireCards (s : State) (w : Nat) (n : Option Nat) : State :=
  let x := warpAt s w
  if x.awayBatches.any (coversBatch x.batch n) then
    acquireL1 (updWarp s w fun x => { x with awayBatches := x.awayBatches.filter fun b => !coversBatch x.batch n b }) x.core
  else s

/-- AWAIT of a batch or of all (R291). -/
def awaitBody (n : Warp → Option Nat) (s : State) (i : Issuer) (_ : Lanes) : WordEnd :=
  let k := n i.x
  match dueReport i.x k with
  | some j =>
    let r := i.x.faultList.getD j { card := 0, tag := 0, cause := 0, batch := none, lost := false, addr := 0 }
    .trap (updWarp s i.w fun x => { x with faultList := dropReport x.faultList j }) r.fault
  | none =>
    if batchRuns s i.w k then .park s (.batch k)
    else
      let s := acquireCards s i.w k
      let hot := dueFlags i.x k
      if i.x.handler.isSome = true then .done s 0
      else
        let s := updWarp s i.w (·.awaited k)
        if hot = 0 then .done s 0 else .trapNext s (i.fault .numeric 0 hot)

/-- AWAIT (R291). -/
def execAwaitBatch (g : Guard) (sa : Fin 64) (s : State) : Host.Outcome State Fault Refusal :=
  issue { opc := 0x86, guard := g, reads := sRegs false sa.val } (awaitBody fun x => some (x.getS sa.val).toNat) s

/-- AWAIT.all (R291). -/
def execAwaitAll (g : Guard) (s : State) : Host.Outcome State Fault Refusal :=
  issue { opc := 0x86, guard := g } (awaitBody fun _ => none) s

/-- ATEST of a batch or of all (R291). -/
def atestBody (pd : Nat) (n : Warp → Option Nat) (s : State) (i : Issuer) (g : Lanes) : WordEnd :=
  let runs := batchRuns s i.w (n i.x)
  let s := if runs then s else acquireCards s i.w (n i.x)
  .done (updWarp s i.w fun x => x.putP pd g (if runs then 0 else g)) 0

/-- ATEST (R291). -/
def execAtest (g : Guard) (pd : Fin 8) (sa : Fin 64) (s : State) : Host.Outcome State Fault Refusal :=
  issue { opc := 0x87, guard := g, reads := sRegs false sa.val, writes := pRegs pd.val }
    (atestBody pd.val fun x => some (x.getS sa.val).toNat) s

/-- ATEST.all (R291). -/
def execAtestAll (g : Guard) (pd : Fin 8) (s : State) : Host.Outcome State Fault Refusal :=
  issue { opc := 0x87, guard := g, writes := pRegs pd.val } (atestBody pd.val fun _ => none) s

end Sys2Proof.Machine
end

