-- ==== Sys2Proof/Machine/MatrixInstr.lean ====
section
/-! DEFINITION. MARR (R313), the accumulator words MREAD and MWRITE (R323, R324) and the tile words ACGROW and
ACFREE (R276). -/

namespace Sys2Proof.Machine

/-! ## MARR (R296, R297, R313) -/

/-- The record of an MARR that this split has parked at before. -/
def parkedMarr (s : State) (i : Issuer) (lg : Nat) : Option Marr :=
  (blockAt s i.x.block).marrs.find? fun r => r.warp == i.w && r.split == i.e && r.lg == lg

/-- What holds an MARR of a block back, parked before or not: matrix cards that use the macros, but for those issued after
it, and earlier MARRs. -/
def marrHeld (s : State) (b : Nat) (own : Option Marr) : Bool :=
  let after (c : Card) : Bool := match own with | some r => c.preds.contains r.id | none => false
  (cardsOf s b).any (fun e => e.2.usesMacros && e.2.isMatrix && !after e.2) ||
    (liveMarrs s b).any fun r => match own with | some o => r.id < o.id | none => true

/-- What an MARR waits for. -/
def marrWaits (s : State) (i : Issuer) (lg : Nat) : Bool := marrHeld s i.x.block (parkedMarr s i lg)

/-- An MARR parks; the first time it takes its place in issue order. -/
def parkMarr (s : State) (i : Issuer) (lg : Nat) : WordEnd :=
  let x := blockAt s i.x.block
  let s := match parkedMarr s i lg with
    | some _ => s
    | none =>
      { updBlock s i.x.block (fun x =>
          { x with marrs := (x.marrs.filter fun r => r.warp != i.w || r.split != i.e) ++
              [({ id := s.nextId, warp := i.w, split := i.e, lg := lg } : Marr)] }) with nextId := s.nextId + 1 }
  .park s (.cards [macroExtent x.macs])

/-- The arrangement takes effect (R296, R297): cells zero, records E = 0, the resident B cleared. -/
def setArrangement (s : State) (b lg : Nat) : State :=
  let x := blockAt s b
  updBlock (clearMacros s x.core x.macFirst x.macs) b fun x =>
    { x with arrK := 128 * 2 ^ lg, bFmt := none, bMark := false }

/-- MARR (R313). -/
def execMarr (g : Guard) (sd : Fin 64) (lg : Fin 4) (s : State) : Host.Outcome State Fault Refusal :=
  issue { opc := 0x90, guard := g, noCallee := true, writes := sRegs false sd.val } (fun s i _ =>
    if marrWaits s i lg.val then parkMarr s i lg.val
    else
      let s := updBlock s i.x.block fun x =>
        { x with marrs := x.marrs.filter fun r => r.warp != i.w || r.split != i.e }
      if marrServes (blockAt s i.x.block).macs lg.val then
        .done (updWarp (setArrangement (markReady s) i.x.block lg.val) i.w fun x => x.putS sd.val 0) 0
      else .done (updWarp (markReady s) i.w fun x => x.putS sd.val 1) 0) s

/-! ## MREAD and MWRITE (R323, R324) -/

/-- A row descriptor: the tile and the row pair. -/
structure RowDesc where
  tile : Nat
  pair : Nat
  deriving DecidableEq, Repr

def rowDesc (w : Word32) : RowDesc := { tile := bitsOf w.toNat 7 0, pair := bitsOf w.toNat 10 8 }

/-- The row that a lane stands for; under .anc lane l stands for row l. -/
def laneRow (r : RowDesc) (anc : Bool) (l : Nat) : Nat := if anc then l else 2 * r.pair + l / 16

/-- An accumulator word: the tile is checked, and the word waits for cards that hold it; the body gets the physical
tile. -/
def withTile (sa : Nat) (body : State → Issuer → Lanes → RowDesc → Nat → WordEnd) (s : State) (i : Issuer) (g : Lanes) :
    WordEnd :=
  let r := rowDesc (i.x.getS sa)
  let x := blockAt s i.x.block
  if x.tiles.length ≤ r.tile then
    let (s, f) := noAddress s .aperture 3 0 g
    .trap s f
  else
    let es : List Extent := [{ dom := .acc, lo := r.tile, hi := r.tile }]
    if cardsHold s i.x.block es then .park s (.cards es) else body s i g r (physTile x r.tile)

/-- The lanes that meet a marked segment or a GRADE 3 row. -/
def poisonLanes (s : State) (core tile : Nat) (r : RowDesc) (anc : Bool) (g : Lanes) : Lanes :=
  laneMask fun l => g.getLsbD l && (!anc || decide (l < 16)) &&
    (if anc then segMarked s core tile l || anchorRowBad s core tile
     else segMarked s core tile (laneRow r anc l) || accRowBad s (accKey core tile (laneRow r anc l) (l % 16)))

/-- SRC of the poison that MREAD meets, by its lowest lane: a propagated mark, or the array (R249). -/
def mreadSrc (s : State) (core tile : Nat) (r : RowDesc) (anc : Bool) (bad : Lanes) : Nat :=
  if segMarked s core tile (laneRow r anc ((lowestLane bad).getD 0)) then 7 else 5

/-- MREAD meets the errors of the segments that its lanes read. -/
def noteMread (s : State) (core tile : Nat) (r : RowDesc) (anc : Bool) (g : Lanes) : State :=
  if chipsClean s then s
  else if anc then (if g &&& halfLanes 0 = 0 then s else noteRow s (chipRow 3 (core * 512 + tile / 2)))
  else
    (((lanesOf g).map fun l => chipRow 2 (accKey core tile (laneRow r anc l) (l % 16) / 8)).eraseDups).foldl noteRow s

/-- MREAD of words or anchors. -/
def mreadBody (anc : Bool) (d : Nat) (s : State) (i : Issuer) (g : Lanes) (r : RowDesc) (tile : Nat) : WordEnd :=
  let bad := poisonLanes s i.x.core tile r anc g
  let s := noteMread s i.x.core tile r anc g
  if bad ≠ 0 then
    let gw := gradeWord (mreadSrc s i.x.core tile r anc bad) 0 3
    let (s, f) := noAddress (recordGrade s i.w gw) .grade 3 (gw.toNat / 2 ^ 16) bad
    .trap s f
  else
    let f (l : Nat) : Nat :=
      if anc then (if l < 16 then (anchorOf s i.x.core tile l).toNat else 0)
      else (accWord s i.x.core tile (laneRow r anc l) (l % 16)).toNat
    lateWord s i (vDests i.x d (if anc then 4 else 8) g f) false

/-- MREAD (R323, R324). -/
def execMread (g : Guard) (d : Fin 256) (sa : Fin 64) (s : State) : Host.Outcome State Fault Refusal :=
  issue { opc := 0x96, guard := g, noCallee := true, reads := sRegs false sa.val, writes := vRegs true d.val }
    (withTile sa.val (mreadBody false d.val)) s

/-- MREAD.anc (R323, R324). -/
def execMreadAnc (g : Guard) (d : Fin 256) (sa : Fin 64) (s : State) : Host.Outcome State Fault Refusal :=
  issue { opc := 0x96, guard := g, noCallee := true, reads := sRegs false sa.val, writes := vRegs false d.val }
    (withTile sa.val (mreadBody true d.val)) s

/-- A segment written by sixteen lanes: its mark and its bad rows go. -/
def freshSegment (s : State) (core tile row : Nat) : State :=
  let k := accKey core tile row 0
  cleanRows (unmarkSeg s core tile row) fun q => q == chipRow 2 (k / 8) || q == chipRow 2 (k / 8 + 1)

/-- MWRITE (R323, R324). -/
def execMwrite (g : Guard) (sa : Fin 64) (b : Fin 256) (s : State) : Host.Outcome State Fault Refusal :=
  issue { opc := 0x97, guard := g, noCallee := true, reads := sRegs false sa.val ++ vRegs true b.val }
    (withTile sa.val fun s i g r tile =>
      let s := (lanesOf g).foldl (fun s l =>
        setAcc s i.x.core tile (laneRow r false l) (l % 16) (i.x.laneV true b.val l)) s
      let s := if g &&& halfLanes 0 = halfLanes 0 then freshSegment s i.x.core tile (2 * r.pair) else s
      .done (if g &&& halfLanes 1 = halfLanes 1 then freshSegment s i.x.core tile (2 * r.pair + 1) else s) 0) s

/-- MWRITE.anc (R323, R324). -/
def execMwriteAnc (g : Guard) (sa : Fin 64) (b : Fin 256) (s : State) : Host.Outcome State Fault Refusal :=
  issue { opc := 0x97, guard := g, noCallee := true, reads := sRegs false sa.val ++ vRegs false b.val }
    (withTile sa.val fun s i g _ tile =>
      .done ((lanesOf g).foldl (fun s l =>
        if l < 16 then setAnchor s i.x.core tile l (((i.x.getV b.val).lane l).setWidth 16) else s) s) 0) s

/-! ## ACGROW and ACFREE (R276) -/

/-- The physical tiles of a core that no block holds. -/
def freeTiles (s : State) (core : Nat) : List Nat :=
  let held := (s.blocks.map fun (_, x) => if x.core = core then x.tiles else []).flatten
  (List.range 256).filter fun t => !held.contains t

/-- A tile word fails. -/
def tileFail (s : State) (w sd : Nat) : WordEnd := .done (updWarp s w fun x => x.putS sd 0xFFFFFFFF#32) 0

/-- ACGROW (R276): the lowest free tiles (DESIGN CHOICE, log 21). -/
def execAcgrow (g : Guard) (sd : Fin 64) (n : BitVec 16) (s : State) : Host.Outcome State Fault Refusal :=
  issue { opc := 0x71, guard := g, noCallee := true, writes := sRegs false sd.val } (fun s i _ =>
    let x := blockAt s i.x.block
    let free := freeTiles s i.x.core
    let old := x.tiles.length
    if free.length < n.toNat ∨ 256 < old + n.toNat then tileFail s i.w sd.val
    else
      let more := free.take n.toNat
      let s := more.foldl (fun s t => setTile s i.x.core t autoAnchor) s
      let s := updBlock s i.x.block fun x => { x with tiles := x.tiles ++ more }
      .done (updWarp s i.w fun x => x.putS sd.val (BitVec.ofNat 32 old)) 0) s

/-- ACFREE (R276): its result is a pending write, as R273 has it. -/
def execAcfree (g : Guard) (sd : Fin 64) (n : BitVec 16) (s : State) : Host.Outcome State Fault Refusal :=
  issue { opc := 0x72, guard := g, noCallee := true, writes := sRegs false sd.val } (fun s i _ =>
    let x := blockAt s i.x.block
    let old := x.tiles.length
    if old < n.toNat then lateWord s i (sDests i.x sd.val 4 0xFFFFFFFF) false
    else
      let es : List Extent := if n = 0 then [] else [{ dom := .acc, lo := old - n.toNat, hi := old - 1 }]
      if cardsHold s i.x.block es then .park s (.cards es)
      else
        let s := (x.tiles.drop (old - n.toNat)).foldl (fun s t => setTile s i.x.core t 0) s
        let s := updBlock s i.x.block fun x => { x with tiles := x.tiles.take (old - n.toNat) }
        lateWord s i (sDests i.x sd.val 4 0) false) s

end Sys2Proof.Machine
end

