-- ==== Sys2Proof/Machine/SyncInstr.lean ====
section
/-! DEFINITION. The barrier words (R362 to R373). -/

namespace Sys2Proof.Machine

/-! ## Naming a barrier -/

/-- The scope of a barrier level (R349). -/
def levelScope : BarLvl → Scope
  | .block => .block
  | .cluster => .cluster
  | .die => .die
  | .grid => .device

/-- A barrier word: ILLEGAL in a callee warp, and some of them in a handler (R364). -/
def barSpec (opc : Nat) (g : Guard) (reads writes : List Reg) (inHandler : Bool) : WordSpec :=
  { opc := opc, guard := g, reads := reads, writes := writes, noHandler := !inHandler, noCallee := true, unclean := true }

/-- A barrier that the launch declares, or the fault of R364. -/
def onBarrier (s : State) (i : Issuer) (g : Lanes) (bar : Bar) (f : Nat → Barrier → WordEnd) : WordEnd :=
  match barDeclared (launchOf s i.w) bar, barFind s i.x.block bar with
  | true, some (k, b) => f k b
  | _, _ =>
    let (s, fl) := noAddress s .prot 5 0 g
    .trap s fl

/-- The warps of a block, by warp number, as keys; none where a number's warp has ended. -/
def warpNumbered (s : State) (b num : Nat) : Option Nat :=
  (s.warps.first fun _ x => x.block == b && x.num == num).map (·.1)

/-! ## BARA and BARW (R366 to R369) -/

/-- The status and the predicate of a barrier word (R366). -/
def barrierDests (i : Issuer) (g : Lanes) (pd sc status : Nat) : List PDest :=
  sDests i.x sc 4 status ++ if pd = 7 then [] else [.p pd g (if status < 2 then g else 0)]

/-- The status and the predicate are on their way; status 3 sets ABANDONED. -/
def barrierStatus (s : State) (i : Issuer) (g : Lanes) (pd sc status : Nat) : WordEnd :=
  sendLater s i { plainPending s i.w i.e (barrierDests i g pd sc status) with
                    flags := if status = 3 then fABANDONED else 0 } false

/-- BARA (R367). A warp whose last phase has flipped sees that as it arrives again: an acquire (R337). -/
def execBara (g : Guard) (pd : Fin 8) (sc : Fin 64) (bar : Bar) (s : State) : Host.Outcome State Fault Refusal :=
  issue { barSpec 0xA0 g [] (pRegs pd.val ++ sRegs false sc.val) false with orders := true } (fun s i g =>
    onBarrier s i g bar fun k b =>
      let s := releaseScope s i.x.core (levelScope bar.lvl)
      let (b, r) := b.arrive i.w
      let s := if r = .done then acquireScope s i.x.core (levelScope bar.lvl) else s
      barrierStatus (setBarrier s k b) i g pd.val sc.val r.code) s

/-- BARW (R368). A phase that had completed before a kill keeps its outcome (R352, R373). -/
def execBarw (g : Guard) (pd : Fin 8) (sc : Fin 64) (bar : Bar) (s : State) : Host.Outcome State Fault Refusal :=
  issue (barSpec 0xA1 g [] (pRegs pd.val ++ sRegs false sc.val) false) (fun s i g =>
    onBarrier s i g bar fun k b =>
      let woken := i.p.park == some .woken
      if b.aband && !woken then barrierStatus s i g pd.val sc.val 3
      else if b.has i.w (·.arrived) then
        let b := b.upd (i.w / 64) fun l => { l with waiter := l.waiter ||| slotBit i.w }
        .park { s with barriers := s.barriers.put k b } (.barrier k)
      else barrierStatus (acquireScope s i.x.core (levelScope bar.lvl)) i g pd.val sc.val 0) s

/-! ## BARS (R370) -/

/-- The root word. -/
def Barrier.rootWord (b : Barrier) : Nat :=
  packFields [(b2n b.aband, 31), (b2n b.phase, 30), (b.exp.toNat, 15), (b.arr.toNat, 0)]

/-- The own word of a warp. -/
def Barrier.ownWord (b : Barrier) (w : Nat) : Nat :=
  packFields [(b2n (b.has w (·.member)), 3), (b2n (b.has w (·.waiter)), 2), (b2n (b.has w (·.early)), 1),
    (b2n (b.has w (·.arrived)), 0)]

/-- A snapshot lands in SD. -/
def snapshot (s : State) (i : Issuer) (sd v : Nat) : WordEnd := lateWord s i (sDests i.x sd 4 v) false

/-- BARS.root (R370). -/
def execBarsRoot (g : Guard) (sd : Fin 64) (bar : Bar) (s : State) : Host.Outcome State Fault Refusal :=
  issue (barSpec 0xA2 g [] (sRegs false sd.val) true) (fun s i g =>
    onBarrier s i g bar fun _ b => snapshot s i sd.val b.rootWord) s

/-- BARS.own (R370). -/
def execBarsOwn (g : Guard) (sd : Fin 64) (bar : Bar) (s : State) : Host.Outcome State Fault Refusal :=
  issue (barSpec 0xA2 g [] (sRegs false sd.val) true) (fun s i g =>
    onBarrier s i g bar fun _ b => snapshot s i sd.val (b.ownWord i.w)) s

/-! ## BARQ (R371) -/

/-- The key of the warp of a number of a block that has not ended: one that TRET.saved has saved stays in its barriers' records, at
the slot it held (R371, R407). -/
def memberNumbered (s : State) (b num : Nat) : Option Nat :=
  match warpNumbered s b num with
  | some w => some w
  | none => if (blockAt s b).saved.contains num then (blockAt s b).warps[num]? else none

/-- The mask over a block's warps, by warp number, of one set of a barrier. -/
def shareMask (s : State) (b : Nat) (k : Barrier) (f : BarLocal → BitVec 64) : Nat :=
  (laneMask fun n => match memberNumbered s b n with | some w => k.has w f | none => false).toNat

/-- A field read of a barrier: 0 when it is undeclared (R364). -/
def barq (g : Guard) (sd : Fin 64) (bar : Bar) (f : State → Nat → Barrier → Nat) (s : State) :
    Host.Outcome State Fault Refusal :=
  issue { barSpec 0xA3 g [] (sRegs false sd.val) true with sys := true } (fun s i _ =>
    match barDeclared (launchOf s i.w) bar, barFind s i.x.block bar with
    | true, some (_, k) => snapshot s i sd.val (f s i.x.block k)
    | _, _ => snapshot s i sd.val 0) s

/-- BARQ.root (R371). -/
def execBarqRoot (g : Guard) (sd : Fin 64) (bar : Bar) (s : State) : Host.Outcome State Fault Refusal :=
  barq g sd bar (fun _ _ k => k.rootWord) s

/-- BARQ.mem (R371). -/
def execBarqMem (g : Guard) (sd : Fin 64) (bar : Bar) (s : State) : Host.Outcome State Fault Refusal :=
  barq g sd bar (fun s b k => shareMask s b k (·.member)) s

/-- BARQ.arr (R371). -/
def execBarqArr (g : Guard) (sd : Fin 64) (bar : Bar) (s : State) : Host.Outcome State Fault Refusal :=
  barq g sd bar (fun s b k => shareMask s b k (·.arrived)) s

/-- BARQ.early (R371). -/
def execBarqEarly (g : Guard) (sd : Fin 64) (bar : Bar) (s : State) : Host.Outcome State Fault Refusal :=
  barq g sd bar (fun s b k => shareMask s b k (·.early)) s

/-- BARQ.wait (R371). -/
def execBarqWait (g : Guard) (sd : Fin 64) (bar : Bar) (s : State) : Host.Outcome State Fault Refusal :=
  barq g sd bar (fun s b k => shareMask s b k (·.waiter)) s

/-! ## BARSET (R372) -/

/-- A field write of a barrier: discarded when it is undeclared (R364). -/
def barset (g : Guard) (sa : Fin 64) (bar : Bar) (f : State → Nat → Word32 → Barrier → Barrier) (s : State) :
    Host.Outcome State Fault Refusal :=
  issue { barSpec 0xA4 g (sRegs false sa.val) [] true with sys := true } (fun s i _ =>
    match barDeclared (launchOf s i.w) bar, barFind s i.x.block bar with
    | true, some (n, k) => .done (setBarrier s n (f s i.x.block (i.x.getS sa.val) k)) 0
    | _, _ => .done s 0) s

/-- Replaces the root's fields; taking ABAND from 0 to 1 abandons the barrier. -/
def setRoot (moving : Nat → Bool) (v : Word32) (k : Barrier) : Barrier :=
  let k := if v.getLsbD 31 && !k.aband then k.abandon moving else k
  { k with aband := v.getLsbD 31, phase := v.getLsbD 30, exp := (v.extractLsb' 15 15), arr := (v.extractLsb' 0 15) }

/-- Writes one set for the block's warps that have not ended; one that has is in none of them (R351, R372). -/
def setShare (s : State) (b : Nat) (v : Word32) (f : BarLocal → BitVec 64 → BarLocal) (get : BarLocal → BitVec 64)
    (k : Barrier) : Barrier :=
  (List.range 32).foldl (fun k n =>
    match memberNumbered s b n with
    | none => k
    | some w => k.upd (w / 64) fun l =>
        f l (if v.getLsbD n then get l ||| slotBit w else get l &&& ~~~(slotBit w))) k

/-- BARSET.root (R372). -/
def execBarsetRoot (g : Guard) (sa : Fin 64) (bar : Bar) (s : State) : Host.Outcome State Fault Refusal :=
  barset g sa bar (fun s _ v k => setRoot (movingCore s) v k) s

/-- BARSET.mem (R372). -/
def execBarsetMem (g : Guard) (sa : Fin 64) (bar : Bar) (s : State) : Host.Outcome State Fault Refusal :=
  barset g sa bar (fun s b v k => setShare s b v (fun l m => { l with member := m }) (·.member) k) s

/-- BARSET.arr (R372). -/
def execBarsetArr (g : Guard) (sa : Fin 64) (bar : Bar) (s : State) : Host.Outcome State Fault Refusal :=
  barset g sa bar (fun s b v k => setShare s b v (fun l m => { l with arrived := m }) (·.arrived) k) s

/-- BARSET.early (R372). -/
def execBarsetEarly (g : Guard) (sa : Fin 64) (bar : Bar) (s : State) : Host.Outcome State Fault Refusal :=
  barset g sa bar (fun s b v k => setShare s b v (fun l m => { l with early := m }) (·.early) k) s

/-- BARSET.wait (R372): WAITER holds exactly the parked warps, whatever is written. -/
def execBarsetWait (g : Guard) (sa : Fin 64) (bar : Bar) (s : State) : Host.Outcome State Fault Refusal :=
  barset g sa bar (fun _ _ _ k => k) s

end Sys2Proof.Machine
end

