-- ==== Sys2Proof/Machine/Gangs.lean ====
section
/-! DEFINITION. Gangs (R57), the release of saved blocks (R399), and the cores that are free for a move (R439). -/

namespace Sys2Proof.Machine

/-! ## Gangs (R29, R57) -/

/-- The linear number of block coordinates (R19). -/
def Launch.linearOf (l : Launch) (x y z : Nat) : Nat := let (nx, ny, _) := l.grid; x + nx * (y + ny * z)

/-- The blocks of the cluster that holds a block, in ascending linear order. -/
def clusterBlocks (l : Launch) (b : Nat) : List Nat :=
  let (x, y, z) := l.coords b
  let (cx, cy, cz) := l.cluster
  (List.range cz).flatMap fun k => (List.range cy).flatMap fun j => (List.range cx).map fun i =>
    l.linearOf (x / cx * cx + i) (y / cy * cy + j) (z / cz * cz + k)

/-- The blocks of a group instance that holds a block. -/
def groupBlocks (g : GroupEntry) (b : Nat) : List Nat :=
  let n := g.gspan + 1
  (List.range n).map (b / n * n + ·)

/-- One round of closing a set of blocks under its clusters and group instances. -/
def gangGrow (l : Launch) (bs : List Nat) : List Nat :=
  (bs.flatMap fun b => clusterBlocks l b ++ l.groups.flatMap fun g => groupBlocks g b).eraseDups

/-- The closure, by rounds while the set grows. -/
def gangClose (l : Launch) : Nat → List Nat → List Nat
  | 0, bs => bs
  | n + 1, bs => let next := gangGrow l bs; if next.length = bs.length then bs else gangClose l n next

/-- Some die-group or grid barrier is declared. -/
def Launch.wholeGrid (l : Launch) : Bool := bitsOf (l.word 3) 63 56 != 0

/-- The blocks that one die has to hold together (R29): a block's cluster, with every group instance and cluster that it
touches, in ascending linear order. That such a set is closed under every cluster and instance it touches is DEDUCED: gangs
partition the grid (log 22). -/
def unitOf (l : Launch) (b : Nat) : List Nat :=
  if l.groups = [] then clusterBlocks l b
  else
    let bs := gangClose l l.nblk [b]
    (List.range l.nblk).filter bs.contains

/-- The gang of a block, in ascending linear order (R57). -/
def gangOf (l : Launch) (b : Nat) : List Nat := if l.wholeGrid then List.range l.nblk else unitOf l b

/-! ## Release of saved blocks (R399, R400) -/

/-- Every warp of a block has ended or been saved. -/
def Block.settled (x : Block) : Bool := x.ended + x.saved.length == x.warps.length

/-- A barrier of a wider level that its warps are members of forgets the share of a block that leaves its core: EXP and ARR
stand (R353). -/
def dropShare (s : State) (x : Block) : State :=
  let bits := x.warps.foldl (fun m w => m ||| slotBit w) 0#64
  { s with barriers := s.barriers.mapVals fun _ k =>
      if k.launch = x.launch ∧ k.lvl ≠ .block ∧ (k.locals.find? x.core).isSome = true then
        { k.upd x.core (fun l => { member := l.member &&& ~~~bits, arrived := l.arrived &&& ~~~bits,
                                   early := l.early &&& ~~~bits, waiter := l.waiter &&& ~~~bits }) with
          wake := k.wake.filter fun w => !x.warps.contains w,
          done := k.done.filter fun w => !x.warps.contains w }
      else k }

/-- The key that cards of a released block carry: no block has it. -/
def departed : Nat := 2 ^ 32

/-- What RES needs of a block that leaves the core. -/
def savedRecord (s : State) (b : Nat) : Saved :=
  let x := blockAt s b
  { launch := x.launch, linear := x.linear, core := x.core, slot := x.slot,
    entry := if b < calleeBase then none else some (x.linear % 16), macFirst := x.macFirst, macs := x.macs,
    spBase := x.spBase, spSize := x.spSize, ntile := x.tiles.length, wslots := x.warps.map (· % 64),
    killed := x.killed, ended := (List.range x.warps.length).filter fun n => !x.saved.contains n,
    awayFlags := x.awayFlags, owed := x.owed, late := x.late }

/-- A block whose warps have all been saved or have ended leaves its core; cards still in flight run on (R400). -/
def releaseSavedBlock (s : State) (b : Nat) : State :=
  let x := blockAt s b
  let s := releaseL1 s x.core
  let s := { s with saved := s.saved ++ [savedRecord s b],
                    cards := s.cards.mapVals fun _ c => if c.block = b then { c with orphan := true, linked := false, block := departed } else c }
  let s := updBlock (dropShare s x) b fun x => { x with rq := [], rbq := [] }
  freeBlock s b

/-- The resident blocks of a block's gang. -/
def gangMates (s : State) (b : Nat) : List Nat :=
  if calleeBase ≤ b then [b]
  else
    let x := blockAt s b
    let g := gangOf (launchAt s x.launch) x.linear
    (s.blocks.select fun k y => decide (k < calleeBase) && y.launch == x.launch && g.contains y.linear).keys

/-- The cards of a block that are still in flight touch the global domain alone: they may run on without it (R400). -/
def cardsMayStay (s : State) (b : Nat) : Bool :=
  s.cards.all fun (_, c) => c.block != b || (c.reads ++ c.writes).all (·.dom == .global)

/-- The blocks of a gang are released together, once every one of them has reached that point (R399) and has no card in flight
that needs its core (R400). -/
def releaseGang (s : State) (b : Nat) : State :=
  let mates := gangMates s b
  if mates.all fun k => (blockAt s k).settled && cardsMayStay s k then
    (mates.filter fun k => (blockAt s k).saved != []).foldl releaseSavedBlock s
  else s

/-! ## Cores free for a move (R439) -/

/-- The logical core of a die that a physical core backs. -/
def logicalOf (s : State) (die phys : Nat) : Option Nat :=
  ((List.range 64).map (die * 64 + ·)).find? fun c => remapEntry s.remap c % 64 == phys

/-- A core is in warn (R434): thermal states are kept by physical core. -/
def inWarn (s : State) (die phys : Nat) : Bool := (s.warns.getD .reset (die * 64 + phys)).on

/-- A core of a die is free to receive a move. -/
def coreFree (s : State) (die phys : Nat) : Bool :=
  match logicalOf s die phys with
  | none => false
  | some c =>
    coreValid s c && !(s.blocks.any fun x => x.2.core == c) && !inWarn s die phys &&
      !(s.launches.any fun x => x.2.callee.any fun k => k.key / 64 == c) &&
      !(s.moves.any fun m => m.logical / 64 == die && m.target == phys) &&
      !(s.moveAsks.any fun m => m.core / 64 == die && m.target == phys)

/-- The coolest free core of a die, ties to the lower physical index. -/
def coolestFree (s : State) (die : Nat) : Option Nat :=
  ((List.range 64).filter (coreFree s die)).foldl (fun best p =>
    match best with
    | none => some p
    | some q => if (s.temps.getD 0 (die * 64 + p)) < (s.temps.getD 0 (die * 64 + q)) then some p else some q) none

/-- Every resident of a core belongs to a launch that may move. -/
def coreMigratable (s : State) (core : Nat) : Bool :=
  s.blocks.all fun x => x.2.core != core || (launchAt s x.2.launch).migratable

/-- A move of the core is asked for or under way. -/
def movePending (s : State) (core : Nat) : Bool :=
  s.moveAsks.any (·.core == core) || s.moves.any (·.logical == core)

end Sys2Proof.Machine
end

