-- ==== Sys2Proof/Machine/Records.lean ====
section
/-! DEFINITION. The divergence record (R410) and the checks that DVLOAD makes of one (R411). -/

namespace Sys2Proof.Machine

/-! ## Writing a record -/

/-- A frame (R410); no H reads as zero. -/
def Frame.record (f : Frame) : List Byte :=
  leBytes 8 ((f.h.getD 0).toNat) ++ leBytes 8 f.ppc.toNat ++ leBytes 4 f.dm.toNat ++ leBytes 4 f.pmask.toNat

/-- A split entry: frame 0 is the lowest of its stack. An entry that is not valid is all zeros (R423; DEDUCED, log 106). -/
def Split.record (p : Split) : List Byte :=
  let frames := p.frames.reverse
  if !p.valid then List.replicate 224 0
  else leBytes 8 p.pc.toNat ++ leBytes 4 p.mask.toNat ++ leBytes 2 p.sig.toNat ++ leBytes 2 p.spilled.toNat ++
    leBytes 8 (packFields [(b2n p.valid, 0), (p.join, 4), (p.frames.length, 8), (b2n p.word, 12)]) ++
    leBytes 8 (if p.word then p.hdr.toNat else 0) ++
    (List.range 8).flatMap fun k => (match frames[k]? with | some f => f.record | Option.none => List.replicate 24 0#8)

/-- A join record; one that is not valid is all zeros (R423; DEDUCED, log 106). -/
def Join.record (j : Join) : List Byte :=
  if !j.valid then List.replicate 16 0
  else leBytes 8 j.h.toNat ++ leBytes 4 j.dm.toNat ++ leBytes 4 (packFields [(b2n j.valid, 0), (j.parent, 4)])

def CallEntry.record (c : CallEntry) : List Byte :=
  leBytes 8 c.rh.toNat ++ leBytes 4 (packFields [(c.own, 0), (c.depth, 8), (1, 31)]) ++ leBytes 4 0

/-- A fault-list entry. -/
def CardReport.record (r : CardReport) : List Byte :=
  leBytes 4 (packFields [(r.tag, 0), (r.cause, 16), (b2n r.batch.isNone, 29), (b2n r.lost, 30), (1, 31)]) ++
    leBytes 2 (r.batch.getD 0) ++ leBytes 2 0 ++ leBytes 8 r.addr.toNat

/-- A table's entries in a record of n items, each of m bytes. -/
def recordTable {α : Type} (xs : List α) (n m : Nat) (f : α → List Byte) : List Byte :=
  (List.range n).flatMap fun k => match xs[k]? with | some x => f x | none => List.replicate m 0#8

/-- The warp word. -/
def warpWord (x : Warp) (h : Handler) : Nat :=
  packFields [(h.table.cspill.toNat, 48), (h.table.calls.length, 43), (x.role, 40), (x.allot / 8 - 1, 35),
    (h.tsplit, 33), (b2n h.tword, 32), (x.batch, 16)]

/-- The divergence record of a warp in a handler (R410): 1,536 bytes. -/
def divRecord (x : Warp) (h : Handler) : List Byte :=
  recordTable h.table.splits 4 224 Split.record ++ recordTable h.table.joins 4 16 Join.record ++
    recordTable h.table.calls 16 16 CallEntry.record ++ leBytes 8 (warpWord x h) ++ leBytes 8 h.tpc.toNat ++
    leBytes 8 (match x.hostFault with | some q => 2 ^ 63 + q | none => 0) ++
    leBytes 8 (if h.tword then h.thdr.toNat else 0) ++ recordTable x.faultList 8 16 CardReport.record ++
    List.replicate 160 0#8

/-! ## Reading a record -/

/-- n bytes of a record, as a number. -/
def recNat (b : List Byte) (at_ n : Nat) : Nat := leNat ((b.drop at_).take n)

/-- A frame of a record. That PPC may name a word of a block (R113) the record cannot say: the header is kept when the
preserved table holds the same frame (DEDUCED, log 7). -/
def recFrame (b : List Byte) (at_ : Nat) (old : List Frame) : Frame :=
  let h := recNat b at_ 8
  let ppc := BitVec.ofNat 64 (recNat b (at_ + 8) 8)
  { h := if h = 0 then none else some (BitVec.ofNat 64 h), ppc := ppc, dm := BitVec.ofNat 32 (recNat b (at_ + 16) 4),
    pmask := BitVec.ofNat 32 (recNat b (at_ + 20) 4),
    pword := (old.find? fun f => f.ppc == ppc).bind (·.pword) }

def recSplit (b : List Byte) (e : Nat) (old : Split) : Split :=
  let a := 224 * e
  let c := recNat b (a + 16) 8
  let pc := BitVec.ofNat 64 (recNat b a 8)
  let same := old.valid && old.pc == pc && old.word == bitOf c 12
  { Split.none with
    valid := bitOf c 0, pc := pc, word := bitOf c 12, hdr := BitVec.ofNat 64 (recNat b (a + 24) 8),
    mask := BitVec.ofNat 32 (recNat b (a + 8) 4), join := bitsOf c 6 4, sig := BitVec.ofNat 16 (recNat b (a + 12) 2),
    frames := ((List.range (bitsOf c 11 8)).map fun f => recFrame b (a + 32 + 24 * f) old.frames).reverse,
    spilled := BitVec.ofNat 16 (recNat b (a + 14) 2), entered := same && old.entered, waiting := same && old.waiting,
    lastRun := old.lastRun }

def recJoin (b : List Byte) (j : Nat) : Join :=
  let a := 0x380 + 16 * j
  { valid := bitOf (recNat b (a + 12) 4) 0, h := BitVec.ofNat 64 (recNat b a 8),
    dm := BitVec.ofNat 32 (recNat b (a + 8) 4), parent := bitsOf (recNat b (a + 12) 4) 6 4 }

def recCall (b : List Byte) (c : Nat) : Option CallEntry :=
  let a := 0x3C0 + 16 * c
  let k := recNat b (a + 8) 4
  if bitOf k 31 then some { rh := BitVec.ofNat 64 (recNat b a 8), own := bitsOf k 1 0, depth := bitsOf k 11 8 } else none

def recReport (b : List Byte) (i : Nat) : Option CardReport :=
  let a := 0x4E0 + 16 * i
  let k := recNat b a 4
  if bitOf k 31 then
    some { card := 0, tag := bitsOf k 15 0, cause := bitsOf k 23 16,
           batch := if bitOf k 29 then none else some (recNat b (a + 4) 2), lost := bitOf k 30,
           addr := BitVec.ofNat 64 (recNat b (a + 8) 8) }
  else none

/-- The fields of the warp word. -/
structure RecWarp where
  cspill : Nat
  csn : Nat
  role : Nat
  allot : Nat
  tsplit : Nat
  tword : Bool
  batch : Nat
  deriving DecidableEq, Repr

def recWarp (b : List Byte) : RecWarp :=
  let w := recNat b 0x4C0 8
  { cspill := bitsOf w 63 48, csn := bitsOf w 47 43, role := bitsOf w 42 40, allot := 8 * (bitsOf w 39 35 + 1),
    tsplit := bitsOf w 34 33, tword := bitOf w 32, batch := bitsOf w 31 16 }

/-! ## The checks of DVLOAD (R411) -/

/-- The bits of each byte of the record that the fields of R410 cover (DEDUCED, log 45: a bit of a listed word that no field
names lies outside the fields). -/
def recMask (i : Nat) : Nat :=
  let part (first : Nat) (masks : List Nat) : Nat := masks.getD (i - first) 0
  if i < 0x380 then (if i % 224 < 16 ∨ 24 ≤ i % 224 then 0xFF else part (i / 224 * 224 + 16) [0x71, 0x1F])
  else if i < 0x3C0 then (if i % 16 < 12 then 0xFF else part (i / 16 * 16 + 12) [0x71])
  else if i < 0x4C0 then (if i % 16 < 8 then 0xFF else part (i / 16 * 16 + 8) [0x03, 0x0F, 0, 0x80])
  else if i < 0x4C8 then (if i < 0x4C2 then 0 else 0xFF)
  else if i < 0x4D0 then 0xFF
  else if i < 0x4D8 then part 0x4D0 [0xFF, 0xFF, 0xFF, 0, 0, 0, 0, 0x80]
  else if i < 0x4E0 then 0xFF
  else if i < 0x560 then (if 8 ≤ i % 16 then 0xFF else part (i / 16 * 16) [0xFF, 0xFF, 0xFF, 0xE0, 0xFF, 0xFF])
  else 0

/-- A byte of the record sets a bit outside the fields. -/
def recSpare (i : Nat) (v : Byte) : Bool := Nat.land v.toNat (255 - recMask i) != 0

/-- An address of a header or word is 8-byte aligned. -/
def aligned8 (a : Word64) : Bool := a.toNat % 8 == 0

/-- A split entry of a record that no DVSAVE wrote. -/
def recSplitBad (b : List Byte) (e : Nat) : Bool :=
  let a := 224 * e
  let c := recNat b (a + 16) 8
  let p := recSplit b e .none
  (4 ≤ p.join && p.join ≤ 6) || 8 < bitsOf c 11 8 ||
    (p.valid && (!aligned8 p.pc || (p.word && !aligned8 p.hdr) || p.frames.any fun f => f.h.any fun h => !aligned8 h))

/-- A join record that no DVSAVE wrote. -/
def recJoinBad (b : List Byte) (j : Nat) : Bool :=
  let r := recJoin b j
  (4 ≤ r.parent && r.parent ≤ 6) || (r.valid && !aligned8 r.h)

/-- A call-stack entry of a record that no DVSAVE wrote. -/
def recCallBad (b : List Byte) (c : Nat) : Bool :=
  match recCall b c with
  | some r => 8 < r.depth || !aligned8 r.rh
  | none => 8 < bitsOf (recNat b (0x3C0 + 16 * c + 8) 4) 11 8

/-- V registers of a role of a warp: a callee warp has those of its dispatch entry (R66, R67). -/
def Warp.roleAllot (x : Warp) (l : Launch) (r : Nat) : Option Nat :=
  match x.item with
  | some k => if r = 0 then (l.disp[k]?).map (·.vreg) else none
  | none => (l.role r).map (·.vreg)

/-- Other warps of the block leave no room in a role. -/
def roleFull (s : State) (w r : Nat) : Bool :=
  let x := warpAt s w
  if x.isCallee then false
  else match (launchAt s x.launch).role r with
    | some e => decide (e.lim ≤ roleCount s x.block w r)
    | none => true

/-- DVLOAD refuses the record with status 1. -/
def recRefused (s : State) (w : Nat) (b : List Byte) : Bool :=
  let x := warpAt s w
  let k := recWarp b
  (b.zipIdx.any fun q => recSpare q.2 q.1) || (List.range 4).any (recSplitBad b) ||
    (List.range 4).any (recJoinBad b) ||
    (List.range 16).any (recCallBad b) || 16 < k.csn ||
    (k.tword && recNat b 0x4D8 8 % 8 != 0) || x.roleAllot (launchAt s x.launch) k.role != some k.allot ||
    roleFull s w k.role

/-! ## Installing a record -/

/-- The owners of spilled entries: those held when the count is the same, else as lane 0's stack names them
(R118; DEDUCED, log 23). An
entry whose owner is not valid has been discarded (R116). -/
def recOwners (s : State) (x : Warp) (old : DivTable) (b : List Byte) : List Nat :=
  let n := (recWarp b).cspill
  if old.spillOwn.length = n then old.spillOwn
  else
    let l := launchAt s x.launch
    (List.range n).map fun k =>
      match (unitRead s x.asid (stackVa l x.stkIdx 0 (l.stkSz - 16 * (k + 1))) 16).2 with
      | some bs => let own := (CallEntry.ofBytes bs).own; if (recSplit b own .none).valid then own else 4
      | none => 4

/-- DVLOAD's replacement of the preserved state (R411). The record of a warp that was saved while its host fault record was
held back has no SEQ: a restored warp keeps the one that has been written since (R201). -/
def Warp.loadRecord (x : Warp) (h : Handler) (b : List Byte) (owners : List Nat) (cls : Nat) : Warp :=
  let k := recWarp b
  let hf := recNat b 0x4D0 8
  let restored := x.fault.toNat / 2 ^ 16 == 17 * 256 + 2
  let t : DivTable :=
    { splits := (List.range 4).map fun e => recSplit b e (h.table.splits.getD e .none),
      joins := (List.range 4).map (recJoin b), calls := (List.range 16).filterMap (recCall b),
      cspill := BitVec.ofNat 16 k.cspill, spillOwn := owners }
  { x with
    handler := some { h with table := t, tpc := BitVec.ofNat 64 (recNat b 0x4C8 8), tword := k.tword,
                             thdr := BitVec.ofNat 64 (recNat b 0x4D8 8), tsplit := k.tsplit, cls := cls },
    role := k.role, nextAllot := if k.allot = x.allot then none else some k.allot, batch := k.batch,
    faultList := (List.range 8).filterMap (recReport b),
    hostFault := if bitOf hf 63 then some (hf % 2 ^ 24) else if restored then x.hostFault else none }

end Sys2Proof.Machine
end

