-- ==== Sys2Proof/Machine/SysMem.lean ====
section
/-! DEFINITION. Memory operands of the system words (R404): their checks, their reads and writes, and the images of
QSAVE and QLOAD (R418, R419). -/

namespace Sys2Proof.Machine

/-! ## Accesses of a system word (R404) -/

/-- A system word's access raises every PAGE fault in its handler, where it is a double fault. -/
def sysKind (wr : Bool) : AccessKind :=
  { acc := if wr then .wr else .rd, watchRd := !wr, watchWr := wr, noHost := true }

/-- The pieces of n bytes: 64 each, then falling powers of two. -/
def sysPieces (n : Nat) : List (Nat × Nat) :=
  (List.range (n / 64)).map (fun k => (64 * k, 64)) ++
    ([32, 16, 8, 4, 2, 1].filter fun p => n % 64 / p % 2 == 1).map fun p => (n / 64 * 64 + n % 64 / (2 * p) * (2 * p), p)

/-- CAUSE of the APERTURE of an address outside the global window that a system word may not take: the first of R180's that holds. -/
def sysCause (x : Warp) (ga : Nat) : Nat :=
  let top := ga / 2 ^ 48
  if top = 0xFFFF ∨ top = 0xFFFD then (if x.isCallee then 1 else 2) else if top = 0xFFFE then 2 else 0

/-- Checks a run of n bytes from a generic address that must be a multiple of align: what its pieces reach, or the fault. -/
def sysCheck (s : State) (i : Issuer) (g : Lanes) (wr : Bool) (ga : Word64) (n align : Nat) :
    Try (State × List (Nat × Nat × Target)) :=
  let fault (nm : FaultName) (q : Nat) : FaultInfo := FaultInfo.perLane nm q 0 g fun _ => ga
  let top := ga.toNat / 2 ^ 48
  if top = 0xFFFE ∨ top = 0xFFFD then .stop (.trap s (fault .aperture (sysCause i.x ga.toNat)))
  else
    match apertureOf s i.x false 0 n ga.toNat with
    | .bad q => .stop (.trap s (fault .aperture q))
    | _ =>
      if ga.toNat % align ≠ 0 then .stop (.trap s (fault .misalign 0))
      else
        let (s, cs) := (sysPieces n).foldl (fun (r : State × List (Nat × Nat × LaneCheck)) p =>
          let a := ga + BitVec.ofNat 64 p.1
          let (s, c) := checkLane r.1 i.x (sysKind wr) p.2 0 a
          (s, r.2 ++ [(p.1, p.2, { lane := 0, ga := a, res := c })])) (s, [])
        match worstLane (cs.map (·.2.2)) with
        | some { res := .bad nm q _, ga := a, .. } => .stop (.trap s (FaultInfo.perLane nm q 0 g fun _ => a))
        | some { res := .lost gw, ga := a, .. } =>
          .stop (checkTrap s i.w (FaultInfo.perLane .grade 3 (gw.toNat / 2 ^ 16) g fun _ => a))
        | _ => .ok (s, cs.filterMap fun (o, k, c) => match c.res with | .ok t => some (o, k, t) | _ => none)

/-- A checked run; nothing is done when the check fails, and the word waits as a lane's access would. -/
def sysAccess (s : State) (i : Issuer) (g : Lanes) (wr : Bool) (ga : Word64) (n align : Nat)
    (body : State → List (Nat × Nat × Target) → WordEnd) : WordEnd :=
  match sysCheck s i g wr ga n align with
  | .ok r =>
    match accessWait r.1 i (sysKind wr) n (r.2.map fun p => (p.1, ga, p.2.2)) with
    | some c => .park r.1 c
    | none => body r.1 r.2
  | .stop e => e

/-- What a checked run delivers; what is graded in it is recorded as for a load (R249). -/
def sysDelivery (s : State) (i : Issuer) (ga : Word64) (ts : List (Nat × Nat × Target)) : State × Deliv :=
  let (s, d) := ts.foldl (fun (r : State × Deliv) p =>
    let (s, d) := readTarget r.1 i.x.core p.2.1 .dflt p.2.2
    (s, r.2.append d)) (s, Deliv.good [])
  (match gradeOf [(0, ga, d)] with | some gw => recordGrade s i.w gw | none => s, d)

/-- The tail elements of a delivery are counted and set TAIL (R245); seen holds those that the word has consumed before, and the
answer all of them. A handler takes no NUMERIC (R391). -/
def sysTails (s : State) (i : Issuer) (ga : Word64) (d : Deliv) (seen : List Nat) : State × List Nat :=
  let fresh := (tailsOf [(0, ga, d)]).filter fun t => !seen.contains t
  let s := countTails s i.x.ctx fresh.length
  (if fresh.isEmpty then s else updWarp s i.w fun x => { x with flags := orFlags x.flags fTAIL }, seen ++ fresh)

/-- Reads what a checked run reaches: poison is GRADE at the word. The body is given the bytes and the tail elements so far. -/
def sysRead (s : State) (i : Issuer) (g : Lanes) (ga : Word64) (ts : List (Nat × Nat × Target)) (seen : List Nat)
    (body : State → List Byte → List Nat → WordEnd) : WordEnd :=
  let (s, d) := sysDelivery s i ga ts
  if d.isPoison then
    .trap s (FaultInfo.perLane .grade d.grade ((gradeWord d.src d.nl d.grade).toNat / 2 ^ 16) g fun _ => ga)
  else
    let (s, seen) := sysTails s i ga d seen
    body s d.data seen

/-- Writes a checked run; a poisoned piece leaves a mark (R247). -/
def sysWrite (s : State) (i : Issuer) (ts : List (Nat × Nat × Target)) (b : Bytes) : State :=
  ts.foldl (fun s p =>
    let piece := b.part p.1 p.2.1
    let s := writeTarget s i.x piece.data .dflt p.2.2
    if piece.bad then
      match p.2.2 with
      | .spad pa => markSpad s pa
      | .phys pa _ => markSector (flushLine s i.x.core (pa / 128)) pa
      | _ => s
    else s) s

/-- Good bytes. -/
def Bytes.good (data : List Byte) : Bytes := { data := data, poison := List.replicate data.length false, soft := [] }

/-! ## Images (R418) -/

/-- The receive queue; flits that cannot be read are written as poison (R247). -/
def rqImage (x : Block) (bad : Bool) : Bytes :=
  { Bytes.good (leBytes 8 x.rq.length ++ x.rq.flatMap fun f => leBytes 8 f.word.toNat) with
    poison := List.replicate 8 false ++ x.rq.flatMap fun f => List.replicate 8 (bad || f.bad) }

/-- The bits of sixteen cells of a column, as an SB block (R314). -/
def cellBlock (s : State) (x : Block) (k c q b : Nat) : Nat :=
  ((List.range 16).map fun i =>
    let r := 16 * q + i
    (s.cells.getD 0 (cellKey x.core (macroOf x k r c) (r % 128) (c % 128))).toNat % 2 ^ (b + 1) * 2 ^ ((b + 1) * i)).foldl
      (· + ·) 0

/-- The scale record stored for a column and k-block. -/
def cellRecord (s : State) (x : Block) (k c q : Nat) : Nat :=
  (s.bscale.getD 0 (bscaleKey x.core (macroOf x k (16 * q) c) (q % 8) (c % 128))).toNat

/-- Code of a resident format: 0 SB2, 1 SB4, 2 SB7, 7 cleared. -/
def fmtCode : Option (SbFmt × Bool) → Nat
  | none => 7
  | some (.sb2, _) => 0
  | some (.sb4, _) => 1
  | some (.sb7, _) => 2

/-- The macros. An image of a cleared B holds its header alone (DEDUCED, log 24). -/
def macImage (s : State) (x : Block) : Bytes :=
  let k := x.arrK
  let n := arrN x.macs k
  let head := [BitVec.ofNat 8 (if k = 0 then 0 else Nat.log2 (k / 128)), BitVec.ofNat 8 (fmtCode x.bFmt),
    BitVec.ofNat 8 (match x.bFmt with | some (_, l) => b2n l | none => 0), BitVec.ofNat 8 (b2n x.bMark)] ++ leBytes 4 n ++
    leBytes 56 0
  match x.bFmt with
  | none => Bytes.good head
  | some (f, _) =>
    let cols := (List.range n).flatMap fun c => (List.range (k / 16)).flatMap fun q =>
      leBytes (sbBytes f) (cellBlock s x k c q (sbBits f))
    let recs := (List.range n).flatMap fun c => (List.range (k / 16)).flatMap fun q => leBytes 2 (cellRecord s x k c q)
    let bad := x.bMark || (List.range x.macs).any fun m => (List.range 128).any fun r => macroRowBad s x.core (x.macFirst + m) r
    { data := head ++ cols ++ recs,
      poison := List.replicate 64 false ++ List.replicate cols.length bad ++ List.replicate recs.length false,
      soft := [] }

/-- The row-buffer queue of the block's core. -/
def rbqImage (x : Block) : Bytes :=
  let len := match x.rbq with | r :: _ => r.bytes.length | [] => 0
  let head := leBytes 8 x.rbq.length ++ leBytes 8 len
  { data := head ++ x.rbq.flatMap (·.bytes),
    poison := List.replicate 16 false ++ x.rbq.flatMap fun r => List.replicate r.bytes.length r.bad, soft := [] }

/-- A card of the block moves rows through the row buffers (R306). -/
def rowCards (s : State) (b : Nat) : Bool :=
  (cardsOf s b).any fun e => (e.2.kind == 0x81 && bitsOf (e.2.word 0) 17 16 == 1) ||
    ((e.2.kind == 0x93 || e.2.kind == 0x94) && bitOf (e.2.fword 3) 0)

/-- A park at words that wait for cards: macros, or the row buffers, which have no extent. -/
def cardWait (s : State) (b : Nat) (es : List Extent) : Bool := if es.isEmpty then rowCards s b else cardsHold s b es

/-- QSAVE of one image. -/
def qsaveBody (sd sa : Nat) (holds : Option (Block → List Extent)) (note : State → Block → State)
    (image : State → Block → Bytes) (s : State) (i : Issuer) (g : Lanes) : WordEnd :=
  let x := blockAt s i.x.block
  match holds with
  | some f => if cardWait s i.x.block (f x) then .park s (.cards (f x)) else go x
  | none => go x
where
  go (x : Block) : WordEnd :=
    let b := image s x
    let s := note s x
    let ga := i.x.getT sa
    sysAccess s i g true ga b.data.length 64 fun s ts =>
      statusWord (sysWrite s i ts b) i sd b.data.length

/-- QLOAD reads an image's first bytes, checks them, and installs the image. -/
def qloadBody (sd sa head : Nat) (total : Block → List Byte → Option Nat)
    (install : State → Nat → List Byte → State) (s : State) (i : Issuer) (g : Lanes) : WordEnd :=
  let ga := i.x.getT sa
  let x := blockAt s i.x.block
  sysAccess s i g false ga head 64 fun s ts => sysRead s i g ga ts [] fun s h seen =>
    match total x h with
    | none => statusWord s i sd 1
    | some n =>
      if n ≤ head then statusWord (install s i.x.block h) i sd 0
      else
        sysAccess s i g false ga n 64 fun s ts => sysRead s i g ga ts seen fun s b _ =>
          statusWord (install s i.x.block b) i sd 0

/-! ## What QLOAD accepts (R419) -/

/-- The length of a receive-queue image; none when its count is out of range. A callee warp has no queue (R404). -/
def rqTotal (s : State) (x : Block) (h : List Byte) : Option Nat :=
  let n := leNat (h.take 8)
  let queue := (launchAt s x.launch).msg && x.warps.all fun w => !(warpAt s w).isCallee
  if (if queue then 64 else 0) < n then none else some (8 + 8 * n)

/-- The receive queue is replaced, and flits are accepted again. -/
def loadRq (s : State) (b : Nat) (img : List Byte) : State :=
  let n := leNat (img.take 8)
  updBlock s b fun x =>
    { x with rq := (List.range n).map fun k => { word := BitVec.ofNat 64 (recNat img (8 + 8 * k) 8), near := false, bad := false }, rqHold := false }

/-- The header of a macro image: FMT 0 to 2 or 7, flags 0 or 1, an arrangement of the block's macros. -/
def macTotal (x : Block) (h : List Byte) : Option Nat :=
  let at_ (k : Nat) : Nat := (h.getD k 0).toNat
  let k := if x.macs = 0 then 0 else 128 * 2 ^ at_ 0
  if (x.macs = 0 && at_ 0 != 0) || (x.macs != 0 && (8 < at_ 0 || !marrServes x.macs (at_ 0))) || (2 < at_ 1 && at_ 1 != 7) ||
      1 < at_ 2 || 1 < at_ 3 || recNat h 4 4 != arrN x.macs k then none
  else some 8

/-- The arrangement comes back, its cells cleared. -/
def loadMac (s : State) (b : Nat) (img : List Byte) : State :=
  if (blockAt s b).macs = 0 then s else setArrangement s b (img.getD 0 0).toNat

/-- A row-buffer image: at most 32 KiB of rows. -/
def rbqTotal (x : Block) (h : List Byte) : Option Nat :=
  let n := recNat h 0 8
  let len := recNat h 8 8
  if 32768 < n * len || (n != 0 && len == 0) || (n == 0 && len != 0) || (n != 0 && x.macs != 8) then none
  else some (16 + n * len)

def loadRbq (s : State) (b : Nat) (img : List Byte) : State :=
  let n := recNat img 0 8
  let len := recNat img 8 8
  updBlock s b fun x =>
    { x with rbq := (List.range n).map fun k => { bytes := (img.drop (16 + k * len)).take len, bad := false, soft := [] } }

end Sys2Proof.Machine
end

