-- ==== Sys2Proof/Machine/SysInstr.lean ====
section
/-! DEFINITION. The system instructions (R404 to R420). -/

namespace Sys2Proof.Machine

/-- A system word (R404). -/
def sysSpec (opc : Nat) (g : Guard) (reads writes : List Reg) : WordSpec :=
  { opc := opc, guard := g, reads := reads, writes := writes, sys := true }

/-- A system word that acts as FENCE.ar too (R346): it follows the warp's earlier group loads (R267). -/
def mapSpec (opc : Nat) (g : Guard) (reads writes : List Reg) : WordSpec := { sysSpec opc g reads writes with orders := true }

/-- The handler that runs; a system word issues in no other mode. -/
def Issuer.handler (i : Issuer) : Handler :=
  match i.x.handler with
  | some h => h
  | none => { table := i.x.table, flags := 0, tpc := 0, tword := false, thdr := 0, tsplit := 0, fault := 0, bankV := [],
              bankS := [], cls := 0 }

/-! ## TRET (R407) -/

/-- A pending write of the handler's words has not landed. -/
def handlerPends (x : Warp) : Bool := (x.pend ++ x.deferred).any (·.handler)

/-- The FAULT value of a PREEMPT, and its cause (R393). -/
def preemptCause (fault : Word32) : Option Nat :=
  if bitsOf fault.toNat 31 24 = 17 then some (bitsOf fault.toNat 23 16) else none

/-- TRET (R407, R419): a shared-state warp's return from its restore opens the block's queue. -/
def execTret (g : Guard) (s : State) : Host.Outcome State Fault Refusal :=
  issue (sysSpec 0xC0 g [] []) (fun s i _ =>
    if handlerPends i.x then .park s .handlerWrites
    else
      let f := i.handler.fault
      let s := if preemptCause f = some 2 ∧ f.getLsbD 0 = true then updBlock s i.x.block fun x => { x with rqHold := false } else s
      .left (returnFromTrap (endRun s i.w i.e) i.w)) s

/-- Card flags and batches of a warp that is saved: they wait for the AWAIT of the restored warp (R139, R291). -/
def Warp.awayRecords (x : Warp) : List (Nat × Option Nat × Nat) :=
  (x.awayBatches.map (·, 0) ++ x.cardFlags ++ x.awayFlags).map (x.num, ·)

/-- The warp leaves its slot without withdrawing from any barrier (R399, R407). -/
def saveWarp (s : State) (w : Nat) : State :=
  let x := warpAt s w
  let s := clearFocus (orphanCards (holdSaved s w) w) w
  let s := updBlock s x.block fun b => { b with saved := b.saved ++ [x.num], awayFlags := b.awayFlags ++ x.awayRecords }
  releaseGang { s with warps := s.warps.del w } x.block

/-- TRET.saved (R399, R407): ILLEGAL but in a handler that PREEMPT with cause 0 or 1 opened. -/
def execTretSaved (g : Guard) (s : State) : Host.Outcome State Fault Refusal :=
  issue (sysSpec 0xC0 g [] []) (fun s i _ =>
    match preemptCause i.handler.fault with
    | some 0 | some 1 => .left (saveWarp (endRun s i.w i.e) i.w)
    | _ => .trap s (i.fault .illegal 0 0)) s

/-! ## Translation (R346, R408, R409) -/

/-- A FENCE.ar at device scope. Accesses that an old translation served are performed: dirty first-level bytes reach home,
those of warps that have ended or been saved among them, and writes on their way to host memory arrive. -/
def mappingFence (s : State) (i : Issuer) : State :=
  let s := (dirtyCores s).foldl releaseL1 s
  acquireScope (releaseScope (drainEgress s) i.x.core .device) i.x.core .device

/-- The end of a TLBI or GENADV: the units of contracts whose mapping has changed are translated again (R33). -/
def mappingDone (s : State) (i : Issuer) (changed : Nat → Bool) : State := retranslate (mappingFence s i) i.x.asid changed

/-- Drops the entries that hold any byte of a range. -/
def tlbDropRange (s : State) (asid va n : Nat) : State :=
  { s with tlb := s.tlb.filter fun t =>
      !(t.asid == asid && t.vpage * t.size.bytes < va + n && va < (t.vpage + 1) * t.size.bytes) }

/-- A range of 64 KiB units that TLBI and PGDISC accept (R408, R420). -/
def unitRange (va units : Nat) : Bool := va % 65536 == 0 && units != 0 && va + units * 65536 ≤ 2 ^ 52

/-- TLBI.page (R408). -/
def execTlbiPage (g : Guard) (sa : Fin 64) (s : State) : Host.Outcome State Fault Refusal :=
  issue (mapSpec 0xC1 g (sRegs true sa.val) []) (fun s i _ =>
    let va := (i.x.getT sa.val).toNat
    .done (mappingDone (tlbDrop s i.x.asid va) i (changedUnits s i.x.ctx i.x.asid va 1)) 0) s

/-- TLBI.range (R408). A base that is not 64 KiB aligned makes the word have no effect (DESIGN CHOICE, log 25). -/
def execTlbiRange (g : Guard) (sa sb : Fin 64) (s : State) : Host.Outcome State Fault Refusal :=
  issue (mapSpec 0xC1 g (sRegs true sa.val ++ sRegs false sb.val) []) (fun s i _ =>
    let va := (i.x.getT sa.val).toNat
    let n := (i.x.getS sb.val).toNat
    if unitRange va n then
      .done (mappingDone (tlbDropRange s i.x.asid va (n * 65536)) i (changedUnits s i.x.ctx i.x.asid va (n * 65536))) 0
    else .done s 0) s

/-- TLBI.asid (R408). -/
def execTlbiAsid (g : Guard) (s : State) : Host.Outcome State Fault Refusal :=
  issue (mapSpec 0xC1 g [] []) (fun s i _ =>
    .done (mappingDone { s with tlb := s.tlb.filter fun t => t.asid != i.x.asid } i fun _ => true) 0) s

/-- What a split has fetched goes, but for a run that has begun (R73). -/
def dropFetched (s : State) (asid : Nat) : State :=
  let keeps (w e : Nat) : Bool := s.runs.any fun (_, r) => r == (w, e)
  let drop (w : Nat) (t : DivTable) : DivTable :=
    { t with splits := t.splits.zipIdx.map fun (p, e) => if keeps w e then p else { p with blk := none } }
  { s with warps := s.warps.mapVals fun w x => if x.asid = asid then { x with table := drop w x.table } else x }

/-- GENADV (R196, R409). -/
def execGenadv (g : Guard) (s : State) : Host.Outcome State Fault Refusal :=
  issue (mapSpec 0xC2 g [] []) (fun s i _ =>
    let gen := (ctxOf s i.x.ctx).gen + 1
    let s := mappingFence s i
    let s := updCtx s i.x.ctx fun c => { c with gen := gen }
    let s := { s with tlb := s.tlb.filter fun t => !(t.asid == i.x.asid && t.gen == gen),
                      icache := s.icache.filter fun t => !(t.asid == i.x.asid && t.gen == gen) }
    .done (retranslate (dropFetched s i.x.asid) i.x.asid fun _ => true) 0) s

/-! ## Divergence records and signatures (R410 to R412) -/

/-- DVSAVE (R410, R411). -/
def execDvsave (g : Guard) (sa : Fin 64) (s : State) : Host.Outcome State Fault Refusal :=
  issue (sysSpec 0xC3 g (sRegs true sa.val) []) (fun s i m =>
    sysAccess s i m true (i.x.getT sa.val) 1536 64 fun s ts =>
      .done (sysWrite s i ts (Bytes.good (divRecord i.x i.handler))) 0) s

/-- The priority class that comes with a role. -/
def Warp.roleClass (x : Warp) (l : Launch) (r : Nat) : Nat :=
  match x.item with
  | some k => ((l.disp[k]?).map (·.cls)).getD 0
  | none => ((l.role r).map (·.cls)).getD 0

/-- DVLOAD (R410, R411). -/
def execDvload (g : Guard) (sd sa : Fin 64) (s : State) : Host.Outcome State Fault Refusal :=
  issue (sysSpec 0xC4 g (sRegs true sa.val) (sRegs false sd.val)) (fun s i m =>
    let ga := i.x.getT sa.val
    sysAccess s i m false ga 1536 64 fun s ts => sysRead s i m ga ts [] fun s b _ =>
      if recRefused s i.w b then statusWord s i sd.val 1
      else
        let k := recWarp b
        let owners := recOwners s i.x i.handler.table b
        let cls := i.x.roleClass (launchAt s i.x.launch) k.role
        statusWord (updWarp s i.w fun x => x.loadRecord i.handler b owners cls) i sd.val 0) s

/-- SIGSET (R412). -/
def execSigset (g : Guard) (sa : Fin 64) (n : Fin 4) (s : State) : Host.Outcome State Fault Refusal :=
  issue (sysSpec 0xC5 g (sRegs false sa.val) []) (fun s i _ =>
    let v := (i.x.getS sa.val).extractLsb' 0 16
    .done (updWarp s i.w fun x =>
      { x with handler := x.handler.map fun h => { h with table := h.table.setSplit n.val fun p => { p with sig := v } } }) 0) s

/-- SIGRD (R412). -/
def execSigrd (g : Guard) (sd : Fin 64) (n : Fin 4) (s : State) : Host.Outcome State Fault Refusal :=
  issue (sysSpec 0xC6 g [] (sRegs false sd.val)) (fun s i _ =>
    lateWord s i (sDests i.x sd.val 4 (i.handler.table.splits.getD n.val .none).sig.toNat) false) s

/-! ## MAPFT (R413) -/

/-- A frame of 64 KiB as zeros, performed at device scope: no first-level copy of it stays. -/
def zeroFrame (s : State) (pa : Nat) : State :=
  let inFrame (l : L1Line) : Bool := pa ≤ l.line * 128 && l.line * 128 < pa + 65536
  let s := (s.l1.filter inFrame).foldl (fun s l => flushLine s l.core l.line) s
  { s with mem := List.filter (fun x => x.1 < pa || pa + 65536 ≤ x.1) s.mem,
           sectors := List.filter (fun x => x.1 < pa / 64 || pa / 64 + 1024 ≤ x.1) s.sectors,
           backing := List.filter (fun x => x.1 < pa / 64 || pa / 64 + 1024 ≤ x.1) s.backing,
           leases := s.leases.filter fun l => l.line * 128 < pa || pa + 65536 ≤ l.line * 128 }

/-- The leaf on its new frame: PST, A and D clear, every other field kept. -/
def presentLeaf (e frame : Nat) : Nat :=
  packFields [(bitsOf e 63 52, 52), (frame, 0), (bitsOf e 15 10, 10), (bitsOf e 5 0, 0)]

/-- A frame that no entry took is the next that its die's pool gives. -/
def keepFrame (s : State) (die f : Nat) : State := setPool s die { poolOf s die with kept := f :: (poolOf s die).kept }

/-- MAPFT's rounds (R413): one whose swap fails against a leaf that is not present walks again, its frame kept meanwhile. -/
def mapftLoop (i : Issuer) (sd va : Nat) (bad : FaultName → Nat → Nat → FaultInfo) : Nat → State → WordEnd
  | 0, s => statusWord s i sd 3
  | n + 1, s =>
    match walkBy s (some (coreDie i.x.core)) i.x.ctx va with
    | (s, .malformed) => .trap s (bad .prot 2 0)
    | (s, .lost gw) => .trap (recordGrade s i.w gw) (bad .grade 3 (gw.toNat / 2 ^ 16))
    | (s, .invalid) => statusWord s i sd 3
    | (s, .leaf at_ e size) =>
      if leafPst e = 0 then statusWord s i sd 1
      else if size ≠ .p64K then statusWord s i sd 3
      else
        let die := if classOf (leafFrame e) < 4 then classOf (leafFrame e) else coreDie i.x.core
        match takeFrame s die with
        | (s, none) => statusWord s i sd 2
        | (s, some f) =>
          let s := zeroFrame (markDirty s i.x.core i.x.ctx f) f
          match swapEntry s at_ e (presentLeaf e f) with
          | (s, true) =>
            let changed := changedUnits s i.x.ctx i.x.asid va 1
            let s := if leafPst e = 1 then mappingFence (tlbDrop s i.x.asid va) i else s
            statusWord (retranslate s i.x.asid changed) i sd 0
          | (s, false) =>
            let s := keepFrame s die f
            let now := leNat (s.mem.bytes at_ 8)
            if bitOf now 0 && bitOf now 1 && leafPst now == 0 then statusWord s i sd 1 else mapftLoop i sd va bad n s

/-- MAPFT (R413), after the warp's group loads where the leaf was discarded, since it then acts as TLBI.page (R408). What its address
cannot be is APERTURE, in a callee warp with cause 1 for the scratchpad's and the groups' (R180). -/
def execMapft (g : Guard) (sd sa : Fin 64) (s : State) : Host.Outcome State Fault Refusal :=
  issue (mapSpec 0xC7 g (sRegs true sa.val) (sRegs false sd.val)) (fun s i m =>
    let va := (i.x.getT sa.val).toNat
    let bad (nm : FaultName) (q info : Nat) : FaultInfo := FaultInfo.perLane nm q info m fun _ => i.x.getT sa.val
    if 2 ^ 52 ≤ va then .trap s (bad .aperture (sysCause i.x va) 0)
    else mapftLoop i sd.val va bad (s.races.length + 2) s) s

/-! ## KILLW and MIGR (R414, R415) -/

/-- KILLW (R414): a warp that kills itself writes no status. -/
def execKillw (g : Guard) (sd sa : Fin 64) (s : State) : Host.Outcome State Fault Refusal :=
  issue (sysSpec 0xC8 g (sRegs false sa.val) (sRegs false sd.val)) (fun s i _ =>
    let n := (i.x.getS sa.val).toNat
    match if n < 32 then warpNumbered s i.x.block n else none with
    | none => statusWord s i sd.val 1
    | some w => if w = i.w then .left (killWarp s w 0 0 0 true) else statusWord (killWarp s w 0 0 0 true) i sd.val 0) s

/-- MIGR's status (R415). Where several hold, the order of 1 and 2 is the model's (DESIGN CHOICE, log 44); a move that is pending
comes before what the target is (R440). -/
def migrStatus (s : State) (core v : Nat) : Nat :=
  let die := coreDie core
  if !coreMigratable s core then 1
  else if v / 128 ≠ 0 then 2
  else if movePending s core then 3
  else if bitOf v 6 && (coolestFree s die).isNone || !bitOf v 6 && !coreFree s die (v % 64) then 2
  else 0

/-- An accepted MIGR waits for the handler's TRET. -/
def askMigr (s : State) (i : Issuer) (v : Nat) : State :=
  { s with moveAsks := s.moveAsks ++ [
      { core := i.x.core, warp := some i.w,
        target := if bitOf v 6 then (coolestFree s (coreDie i.x.core)).getD 0 else v % 64 }] }

/-- MIGR (R415). -/
def execMigr (g : Guard) (sd sa : Fin 64) (s : State) : Host.Outcome State Fault Refusal :=
  issue (sysSpec 0xC9 g (sRegs false sa.val) (sRegs false sd.val)) (fun s i _ =>
    let v := (i.x.getS sa.val).toNat
    let n := migrStatus s i.x.core v
    statusWord (if n = 0 then askMigr s i v else s) i sd.val n) s

/-! ## SCRUB and KEYZ (R403, R416, R417) -/

/-- Bytes left in the page that holds the first entry, for a global list; a scratchpad list has the block's allocation (R180). -/
def pageLeft (s : State) (i : Issuer) (ga : Nat) : Nat :=
  if 2 ^ 52 ≤ ga then (blockAt s i.x.block).spSize - ga % 2 ^ 48
  else match (walk s i.x.ctx ga).2 with
    | .leaf _ _ size => size.bytes - ga % size.bytes
    | _ => 0

/-- The entries of a list at a physical address, with the events of their reading; one past correction is kind 2, which asks
for nothing. -/
def scrubList (s : State) (pa n : Nat) : State × List Word64 :=
  (List.range n).foldl (fun (r : State × List Word64) k =>
    let (s, v) := deviceRead r.1 (pa + 8 * k) 8
    (s, r.2 ++ [BitVec.ofNat 64 (v.getD 2)])) (s, [])

/-- Lines of a run of bytes that the core holds go home: what it has written is part of what it reads (R404). -/
def flushRun (s : State) (core pa n : Nat) : State :=
  (s.l1.filter fun l => l.core == core && pa / 128 ≤ l.line && l.line ≤ (pa + n - 1) / 128).foldl
    (fun s l => flushLine s core l.line) s

/-- The physical address at which a checked run begins. -/
def runStart (ts : List (Nat × Nat × Target)) : Nat :=
  match ts with
  | (_, _, .phys pa _) :: _ | (_, _, .spad pa) :: _ => pa
  | _ => 0

/-- SCRUB (R403, R417): the quarantine begins. -/
def execScrub (g : Guard) (sd sa sb : Fin 64) (s : State) : Host.Outcome State Fault Refusal :=
  issue (sysSpec 0xCA g (sRegs true sa.val ++ sRegs false sb.val) (sRegs false sd.val)) (fun s i m =>
    let ga := i.x.getT sa.val
    let n := (i.x.getS sb.val).toNat
    if s.scrubReg.mgslot ≠ i.x.ctx then .trap s (i.fault .priv 0 0)
    else if s.scrubReg.sbusy then statusWord s i sd.val 1
    else if n = 0 ∨ 2 ^ 20 < n then statusWord s i sd.val 2
    else
      sysAccess s i m false ga 8 8 fun s ts =>
        if pageLeft s i ga.toNat < 8 * n then statusWord s i sd.val 2
        else
          let pa := runStart ts
          let s := flushRun s i.x.core pa (8 * n)
          let (s, list) := scrubList s pa n
          let s := { s with scrubReg :=
            { s.scrubReg with slist := pa / 4096, scount := n, sdone := 0, quar := true, sbusy := true, slot := i.x.ctx,
                              entries := list } }
          statusWord s i sd.val 0) s

/-- KEYZ (R417): accesses under the slot are performed, and no translation under it stays. -/
def execKeyz (g : Guard) (sa : Fin 64) (s : State) : Host.Outcome State Fault Refusal :=
  issue (sysSpec 0xCB g (sRegs false sa.val) []) (fun s i _ =>
    let k := (i.x.getS sa.val).toNat % 64
    if s.scrubReg.mgslot ≠ i.x.ctx then .trap s (i.fault .priv 0 0)
    else if s.zeroised.contains k then .done s 0
    else
      let s := (s.l1.map (·.core)).eraseDups.foldl releaseL1 s
      .done { s with zeroised := s.zeroised ++ [k],
                     tlb := s.tlb.filter fun t => !(t.leaf.getLsbD 58 && bitsOf t.leaf.toNat 57 52 == k) } 0) s

/-! ## QSAVE and QLOAD (R418, R419) -/

/-- A QSAVE or QLOAD word. -/
def queueSpec (opc : Nat) (g : Guard) (sd sa : Fin 64) : WordSpec := sysSpec opc g (sRegs true sa.val) (sRegs false sd.val)

/-- QSAVE.rq (R418). -/
def execQsaveRq (g : Guard) (sd sa : Fin 64) (s : State) : Host.Outcome State Fault Refusal :=
  issue (queueSpec 0xCC g sd sa) (qsaveBody sd.val sa.val none (fun s x => noteRow s (flitRow (x.core * 16 + x.slot)))
    fun s x => rqImage x (rowBad s (flitRow (x.core * 16 + x.slot)))) s

/-- QSAVE.mac (R418). -/
def execQsaveMac (g : Guard) (sd sa : Fin 64) (s : State) : Host.Outcome State Fault Refusal :=
  issue (queueSpec 0xCC g sd sa) (qsaveBody sd.val sa.val (some fun x => [macroExtent x.macs])
    (fun s x => noteMacros s x.core x.macFirst x.macs) macImage) s

/-- QSAVE.rbq (R418). -/
def execQsaveRbq (g : Guard) (sd sa : Fin 64) (s : State) : Host.Outcome State Fault Refusal :=
  issue (queueSpec 0xCC g sd sa) (qsaveBody sd.val sa.val (some fun _ => []) (fun s _ => s) fun _ x => rbqImage x) s

/-- QLOAD.rq (R419). -/
def execQloadRq (g : Guard) (sd sa : Fin 64) (s : State) : Host.Outcome State Fault Refusal :=
  issue (queueSpec 0xCD g sd sa) (qloadBody sd.val sa.val 8 (rqTotal s) loadRq) s

/-- QLOAD.mac (R419): like MARR it waits for cards that use the macros. -/
def execQloadMac (g : Guard) (sd sa : Fin 64) (s : State) : Host.Outcome State Fault Refusal :=
  issue (queueSpec 0xCD g sd sa) (fun s i m =>
    let es := [macroExtent (blockAt s i.x.block).macs]
    if cardsHold s i.x.block es then .park s (.cards es)
    else qloadBody sd.val sa.val 8 macTotal loadMac s i m) s

/-- QLOAD.rbq (R419). -/
def execQloadRbq (g : Guard) (sd sa : Fin 64) (s : State) : Host.Outcome State Fault Refusal :=
  issue (queueSpec 0xCD g sd sa) (qloadBody sd.val sa.val 16 rbqTotal loadRbq) s

/-! ## PGDISC (R420) -/

/-- Discards the present leaf that begins at va and lies wholly below hi: one that has changed before the swap is read again. -/
def discardLeaf (die slot hi va : Nat) : Nat → State → State × Nat
  | 0, s => (s, 0)
  | n + 1, s =>
    match walkBy s (some die) slot va with
    | (s, .leaf at_ e size) =>
      if leafPst e = 0 ∧ va % size.bytes = 0 ∧ va + size.bytes ≤ hi then
        match swapEntry s at_ e (e + 2 ^ 8) with
        | (s, true) => (s, 1)
        | (s, false) => discardLeaf die slot hi va n s
      else (s, 0)
    | (s, _) => (s, 0)

/-- Discards the present leaves that lie wholly in units 64 KiB units from va; n counts the units still to visit. -/
def discardFrom (die slot hi : Nat) : Nat → State → Nat → Nat → State × Nat
  | 0, s, _, k => (s, k)
  | n + 1, s, va, k =>
    let (s, d) := discardLeaf die slot hi va (s.races.length + 1) s
    discardFrom die slot hi n s (va + 65536) (k + d)

/-- PGDISC (R420). A range that R408 gives no effect changes no leaf (DESIGN CHOICE, log 25). -/
def execPgdisc (g : Guard) (sd sa sb : Fin 64) (s : State) : Host.Outcome State Fault Refusal :=
  issue (mapSpec 0xCE g (sRegs true sa.val ++ sRegs false sb.val) (sRegs false sd.val)) (fun s i _ =>
    let va := (i.x.getT sa.val).toNat
    let n := (i.x.getS sb.val).toNat
    if unitRange va n then
      let (s, k) := discardFrom (coreDie i.x.core) i.x.ctx (va + n * 65536) n s va 0
      let changed := changedUnits s i.x.ctx i.x.asid va (n * 65536)
      statusWord (mappingDone (tlbDropRange s i.x.asid va (n * 65536)) i changed) i sd.val k
    else statusWord s i sd.val 0) s

end Sys2Proof.Machine
end

