-- ==== Sys2Proof/Machine/EvIssue.lean ====
section
/-! DEFINITION. The events of issue: fetching a block (R71 to R74), choosing the next run (R97, R98), landing writes
(R96) and the traps that are taken between runs (R388, R389, R398, R439, R456). -/

namespace Sys2Proof.Machine

/-! ## Fetch -/

/-- Where the block of a split begins. -/
def Split.blockAt (p : Split) : Word64 := if p.word then p.hdr else p.pc

/-- A split that has a block to fetch. -/
def wantsFetch (x : Warp) (e : Nat) : Bool :=
  let p := x.splitAt e
  p.valid && p.blk.isNone && !p.waiting && !x.stopped && !x.hostParked

/-- A trap of a split that is no word's: it is to resume where it stands. That may be a word within a block, whose block is
then fetched again from its header; where that fetch faults, the split resumes at the word, since R72 speaks only of the
header's PC (DESIGN CHOICE, log 31). -/
def trapSplit (s : State) (w e : Nat) (f : FaultInfo) : State := takeTrap s w e f ((warpAt s w).splitAt e).place

/-- A fault of fetch (R72): PAGE goes to the host whatever its cause (R200). -/
def fetchFault (s : State) (w e : Nat) (name : FaultName) (cause : Nat) (gw : Word32) (va : Word64) : State :=
  let x := warpAt s w
  let lanes := x.active e
  let f := FaultInfo.perLane name cause (gw.toNat / 2 ^ 16) lanes fun _ => va
  if name = .page then escalate s w e va 2 cause lanes
  else if name = .grade then trapSplit (recordGrade s w gw) w e f
  else trapSplit s w e f

/-- A split that stands at a word is at one of the words of its block (R407). -/
def wordInBlock (p : Split) (b : Fetched) : Bool :=
  !p.word || (p.pc.toNat % 8 == 0 && b.hdrAt.toNat < p.pc.toNat && p.pc.toNat ≤ b.hdrAt.toNat + 8 * b.words.length)

/-- Fetches and checks the block of a split (R71, R72, R90, R104). A PC with bits 2:0 not zero, which SETS of TPC can give, is
ILLEGAL at that address: R71 rules it out and does not say what happens (DESIGN CHOICE, log 32). -/
def fetchSplit (s : State) (w e : Nat) : State :=
  let x := warpAt s w
  let p := x.splitAt e
  let illegal (s : State) (a : Word64) : State := trapSplit s w e (FaultInfo.uniform .illegal 0 0 a)
  if p.frames = [] ∧ p.spilled ≠ 0 ∧ p.word = false then trapSplit s w e (FaultInfo.uniform .diverge 1 0 p.pc)
  else if p.blockAt.toNat % 8 ≠ 0 then illegal s p.blockAt
  else
    match fetchBlock s x.core x.ctx x.asid x.handler.isNone x.allot p.blockAt with
    | (s, .bad n c gw a) => fetchFault s w e n c gw a
    | (s, .illegal) => illegal s p.blockAt
    | (s, .ok b) =>
      if wordInBlock p b then
        let s := prefetchHints s x.core x.ctx x.asid x.handler.isNone b
        updSplit s w e fun p => { p with blk := some b }
      else illegal s p.pc

/-- BLOCK_FETCH (R71). -/
def execBlockFetch (w : Nat) (e : Fin 4) (s : State) : Host.Outcome State Fault Refusal :=
  .next (if wantsFetch (warpAt s w) e.val && coreRuns s (warpAt s w).core then fetchSplit s w e.val else s)

/-! ## What stands between a warp and its next run -/

/-- A deferred fault of the mode the warp is in (R456). -/
def dueDeferred (x : Warp) : List (Nat × Pending) :=
  (List.range x.deferred.length).filterMap fun k =>
    match x.deferred[k]? with
    | some p => if p.handler == x.handler.isSome then some (k, p) else none
    | none => none

/-- The split whose run boundary takes a deferred fault: its own, or the lowest when that has merged. -/
def deferredSplit (x : Warp) (p : Pending) : Nat :=
  if (x.splitAt p.split).valid then p.split else x.table.valid.headD 0

/-- Some trap acts before the next run of a split. -/
def trapFirst (x : Warp) (e : Nat) : Bool :=
  (dueDeferred x).any (fun d => deferredSplit x d.2 == e) || (x.handler.isNone && (x.preemptDue || x.migrateDue.isSome))

/-- The event finds the warp between runs. -/
def betweenRuns (s : State) (w e : Nat) : Bool :=
  let x := warpAt s w
  (s.warps.find? w).isSome && (x.splitAt e).valid && !x.stopped && !(s.runs.any fun r => r.2.1 == w)

/-- WSYNC's condition for a parked split (R122). -/
def wsyncReady (x : Warp) (e : Nat) (m : Lanes) : Bool :=
  let p := x.splitAt e
  let here := x.table.valid.foldl (fun ls k =>
    let q := x.splitAt k
    if k == e || (q.pc == p.pc && q.word && (match q.park with | some (.wsync _) => true | _ => false)) then ls ||| x.active k
    else ls) (0 : Lanes)
  (m &&& x.alive) &&& ~~~(here ||| wsyncExcused x) == 0

/-- A parked split is ready to be examined again (R95). A WAITNE whose k runs have passed is ready for its re-check, whatever
that will find, and the re-check is a run: it counts for what others wait for, failed or not (DESIGN CHOICE, log 33). -/
def parkReady (s : State) (w e : Nat) : Bool :=
  let x := warpAt s w
  match (x.splitAt e).park with
  | none => true
  | some (.pending rs) => x.waitsOn rs == []
  | some (.cards es) =>
    match (liveMarrs s x.block).find? fun r => r.warp == w && r.split == e with
    | some r => !marrHeld s x.block (some r)
    | none => !cardWait s x.block es
  | some (.batch n) => (dueReport x n).isSome || !batchRuns s w n
  | some (.barrier _) => false
  | some .woken => true
  | some (.waitne left _) => left == 0
  | some (.flit since) => earlierReaders s x.block since < (blockAt s x.block).rq.length
  | some .slot => slotsUsed s x.core < Config.cardSlots
  | some (.request k) => decide (((s.chans.find? k).map (·.window.length)).getD 0 < 16)
  | some .network => !s.fullQueues.contains x.core
  | some .handlerWrites => !handlerPends x
  | some (.landing k) => !(x.pend.any (·.stamp == k))
  | some (.moving c) => !coreShut s c
  | some (.wsync m) => wsyncReady x e m
  | some (.hostFault _) | some .hostFaultHeld => false

/-- A split is ready (R97). -/
def splitReady (s : State) (w e : Nat) : Bool :=
  let x := warpAt s w
  let p := x.splitAt e
  p.valid && p.blk.isSome && !p.waiting && !x.stopped && !x.hostParked && coreRuns s x.core && parkReady s w e && !trapFirst x e

/-- The ready splits of a warp. -/
def readySplits (s : State) (w : Nat) : List Nat := (warpAt s w).table.valid.filter (splitReady s w)

/-! ## Choosing the next run (R98) -/

/-- The effective class (R97). -/
def Warp.effClass (x : Warp) : Nat := if x.backoff && x.handler.isNone then 0 else x.cls

/-- The keys of the ready warps of a quarter. -/
def readyWarps (s : State) (core quarter : Nat) : List Nat :=
  (s.warps.select fun w x => x.core == core && x.quarter == quarter && readySplits s w != []).keys

/-- The better of two by a measure; the first stays on a tie. -/
def pickBest (xs : List Nat) (better : Nat → Nat → Bool) : Option Nat :=
  xs.foldl (fun best k => match best with | none => some k | some b => if better k b then some k else some b) none

/-- The one of some ready warps whose run is next (R98): stamps order the ends of runs, so that the least has waited longest. -/
def chooseAmong (s : State) (cand : List Nat) : Option Nat :=
  let x := warpAt s
  let starved := cand.filter fun w => 48 ≤ (x w).passed
  if starved ≠ [] then pickBest starved fun a b => (x b).passed < (x a).passed
  else pickBest cand fun a b =>
    (x b).effClass < (x a).effClass || ((x a).effClass == (x b).effClass && (x a).lastRun < (x b).lastRun)

/-- The warp of a quarter whose run is next (R98). -/
def chooseWarp (s : State) (core quarter : Nat) : Option Nat := chooseAmong s (readyWarps s core quarter)

/-- The split of that warp whose run is next. -/
def chooseSplit (s : State) (w : Nat) : Option Nat :=
  let x := warpAt s w
  pickBest (readySplits s w) fun a b => (x.splitAt a).lastRun < (x.splitAt b).lastRun

/-- One run of another warp has passed by the WAITNE back-offs of a warp (R97, R271). -/
def Warp.countBackoff (x : Warp) : Warp :=
  { x with table := { x.table with splits := x.table.splits.map fun p =>
      match p.park with
      | some (.waitne left k) => { p with park := some (.waitne (left - 1) k) }
      | _ => p } }

/-- The region of R398 when a run of a block begins: an IDEM header opens it, IDCONT goes on with it, any other block
closes it. -/
def Warp.enterRegion (x : Warp) (b : Fetched) (first : Bool) : Warp :=
  if x.handler.isSome || !first then x
  else
    let h := HFmt.ofWord b.header
    if h.idem = 1#1 then { x with region := some { clean := true, hdr := b.hdrAt, live := h.live.toNat } }
    else if h.idcont = 1#1 then x
    else { x with region := none }

/-- The block has IDEM or IDCONT. -/
def Fetched.idempotent (b : Fetched) : Bool :=
  (HFmt.ofWord b.header).idem == 1#1 || (HFmt.ofWord b.header).idcont == 1#1

/-- A split's run begins at the first word of a block, whose header is folded, but for a handler (R91, R92), or where it
resumes within one. -/
def Split.enterBlock (p : Split) (b : Fetched) (handler : Bool) : Split :=
  let p := { p with idem := b.idempotent }
  if p.word then p
  else { p with pc := b.hdrAt + 8, word := true, hdr := b.hdrAt, entered := false,
                sig := if handler then p.sig else if p.m then 1 else 0 }

/-- The run of a split begins, unless another run of its quarter is under way (R93): it holds the issue slot at its first word,
or where it resumes. -/
def beginRun (s : State) (w e : Nat) : State :=
  let x := warpAt s w
  let p := x.splitAt e
  match p.blk, s.runs.find? (quarterKey x) with
  | none, _ | _, some _ => s
  | some b, none =>
    let ready := readyWarps s x.core x.quarter
    let s := { s with warps := s.warps.mapVals fun k y =>
      if k = w then { y with passed := 0, backoff := y.backoff && (match p.park with | some (.waitne _ _) => true | _ => false) }
      else if y.core = x.core ∧ y.quarter = x.quarter then
        (if ready.contains k then { y with passed := y.passed + 1 } else y).countBackoff
      else y }
    let s := updWarp s w fun y => (y.enterRegion b (!p.word)).setSplit e (·.enterBlock b y.handler.isSome)
    { s with focus := some (w, e), runs := s.runs.put (quarterKey x) (w, e), ran := countRun s.ran (x.core * 64 + x.ctx) }
where
  /-- one more run of a context on a core in this epoch (R438) -/
  countRun (t : Tbl Nat) (k : Nat) : Tbl Nat := t.put k (t.getD 0 k + 1)

/-! ## The fast throttle (R433) -/

/-- g of the island of a core: of every 64 issue cycles of a quarter runs are withheld in so many, the first ones (DESIGN CHOICE,
log 107). -/
def gateOf (s : State) (core : Nat) : Nat := (s.islands.getD .reset (islandAt s core)).gate

/-- The contexts that own some of these warps. -/
def contextsOf (s : State) (ws : List Nat) : List Nat := (ws.map fun w => (warpAt s w).ctx).eraseDups

/-- The context whose turn the floor of R433 makes it: it has waited so long that, with one cycle for each context that has a ready
warp, its 64 cycles would else run out. -/
def floorDue (g : Gate) (ctxs : List Nat) : Option Nat :=
  pickBest (ctxs.filter fun c => decide (63 ≤ g.idle.getD 0 c + ctxs.length)) fun a b => g.idle.getD 0 b < g.idle.getD 0 a

/-- The warp whose run begins in this issue cycle of a throttled quarter, if any: one of the context that is due, or, unless runs
are withheld, the one that R98 chooses. -/
def gatedChoice (s : State) (g : Gate) (core quarter : Nat) : Option Nat :=
  let cand := readyWarps s core quarter
  match floorDue g (contextsOf s cand) with
  | some c => chooseAmong s (cand.filter fun w => (warpAt s w).ctx == c)
  | none => if g.cycle < gateOf s core then none else chooseAmong s cand

/-- An issue cycle of a throttled quarter has passed. -/
def Gate.tick (g : Gate) (ctxs : List Nat) (ran : Option Nat) : Gate :=
  { cycle := (g.cycle + 1) % 64,
    idle := ctxs.foldl (fun t c => t.put c (if ran = some c then 0 else g.idle.getD 0 c + 1)) [] }

/-- The next run of a quarter, if one begins now, with what the throttle then remembers. -/
def nextRun (s : State) (core quarter : Nat) : Option Nat × Tbl Gate :=
  let key := core * 4 + quarter
  if gateOf s core = 0 then (chooseWarp s core quarter, s.gates.del key)
  else
    let g := s.gates.getD { cycle := 0, idle := [] } key
    let w := gatedChoice s g core quarter
    (w, s.gates.put key (g.tick (contextsOf s (readyWarps s core quarter)) (w.map fun w => (warpAt s w).ctx)))

/-- QUARTER_RUN_SELECT (R98, R433): in a quarter with no run under way. -/
def execQuarterRunSelect (core : Nat) (quarter : Fin 4) (s : State) : Host.Outcome State Fault Refusal :=
  .next (
    if (s.runs.find? (core * 4 + quarter.val)).isSome then s
    else
      let (w, gates) := nextRun s core quarter.val
      match w with
      | some w => (match chooseSplit s w with | some e => beginRun { s with gates := gates } w e | none => { s with gates := gates })
      | none => { s with gates := gates })

/-- A parked WAITNE becomes ready to check again (R97, R271) once k runs of other warps have passed, or while no other warp of
the quarter is ready, where time passes for them. Its run begins when it is the one that R98 chooses. -/
def execWaitneRecheck (w : Nat) (e : Fin 4) (s : State) : Host.Outcome State Fault Refusal :=
  .next (
    let x := warpAt s w
    match (x.splitAt e.val).park with
    | some (.waitne left k) =>
      let t := updSplit s w e.val fun p => { p with park := some (.waitne 0 k) }
      if (left == 0 || (readyWarps s x.core x.quarter).all (· == w)) && splitReady t w e.val then
        if gateOf t x.core = 0 ∧ chooseWarp t x.core x.quarter = some w ∧ chooseSplit t w = some e.val then beginRun t w e.val
        else t
      else s
    | _ => s)

/-! ## Landing and deferred faults -/

/-- PENDING_WRITE_LANDS (R96). -/
def execPendingWriteLands (w n : Nat) (s : State) : Host.Outcome State Fault Refusal := .next (landWrite s w n)

/-- The first deferred fault that a split's run boundary takes. -/
def nextDeferred (x : Warp) (e : Nat) : Option (Nat × Pending) :=
  match (dueDeferred x).head? with
  | some d => if deferredSplit x d.2 = e then some d else none
  | none => none

/-- DEFERRED_FAULT_TAKEN (R138, R456): one a trap, in the order their words issued. A warp parked under R200 stands at a park point,
where it is taken too. -/
def execDeferredFaultTaken (w : Nat) (e : Fin 4) (s : State) : Host.Outcome State Fault Refusal :=
  .next (
    let x := warpAt s w
    if betweenRuns s w e.val then
      match nextDeferred x e.val with
      | some (k, p) =>
        (match p.fault with
         | some f => trapSplit (updWarp s w fun x => { x with deferred := x.deferred.eraseIdx k }) w e.val f
         | none => s)
      | none => s
    else s)

/-! ## PREEMPT and MIGRATE (R398, R439) -/

/-- The warp is the lowest-numbered of its block that has not ended. A callee warp has no share of a block (R66). -/
def sharedState (s : State) (w : Nat) : Bool :=
  let x := warpAt s w
  let nums := (s.warps.select fun _ y => y.block == x.block).map (·.2.num) ++ (blockAt s x.block).saved
  !x.isCallee && nums.all (x.num ≤ ·)

/-- The block in which a split stands, or which it ran last, has IDEM or IDCONT (R398). -/
def Split.inIdem (p : Split) : Bool :=
  match p.word, p.blk with
  | true, some b => b.idempotent
  | _, _ => p.idem

/-- PREEMPT of a warp (R398): discard when its one split, with DEPTH 0, is in an idempotent block and the region is clean. -/
def preemptFault (s : State) (w e : Nat) : FaultInfo :=
  let x := warpAt s w
  let info := b2n (sharedState s w)
  let p := x.splitAt e
  match x.region with
  | some r =>
    if r.clean && x.table.valid.length == 1 && p.frames == [] && p.inIdem then FaultInfo.uniform .preempt 1 info r.hdr
    else FaultInfo.uniform .preempt 0 info p.pc
  | none => FaultInfo.uniform .preempt 0 info p.pc

/-- PREEMPT_TAKEN (R398). -/
def execPreemptTaken (w : Nat) (e : Fin 4) (s : State) : Host.Outcome State Fault Refusal :=
  .next (
    let x := warpAt s w
    if betweenRuns s w e.val && x.preemptDue && x.handler.isNone && dueDeferred x == [] then
      let s := endLeases s x.core
      trapSplit (updWarp s w fun x => { x with preemptDue := false }) w e.val (preemptFault s w e.val)
    else s)

/-- MIGRATE_TAKEN (R439): INFO holds the new physical core. -/
def execMigrateTaken (w : Nat) (e : Fin 4) (s : State) : Host.Outcome State Fault Refusal :=
  .next (
    let x := warpAt s w
    match x.migrateDue with
    | some phys =>
      if betweenRuns s w e.val && x.handler.isNone && dueDeferred x == [] && !x.preemptDue then
        trapSplit (updWarp s w fun x => { x with migrateDue := none }) w e.val (FaultInfo.uniform .migrate 0 phys 0)
      else s
    | none => s)

end Sys2Proof.Machine
end

