-- ==== Sys2Proof/Machine/EvCards.lean ====
section
/-! DEFINITION. The events of cards (R284, R287, R289), the waking of barrier waiters (R349) and the arrival of flits
(R360). -/

namespace Sys2Proof.Machine

/-! ## Launch (R284, R308) -/

/-- Every predecessor has ended. -/
def predsDone (s : State) (c : Card) : Bool := !(c.preds.any fun p => predHolds s c p)

/-- A card may launch but for the cards ahead of it: predecessors done, its core not held by a move (R439). -/
def launchable (s : State) (c : Card) : Bool :=
  !c.launched && !c.cancelled && predsDone s c && !movingCore s c.core && coreRuns s c.core

/-- The card stands before another in its engine's order: that of issue (R284), for the units of the matrix engine that of becoming
ready, ties by issue (R305). -/
def readyBefore (a : Nat × Card) (b : Nat × Card) : Bool :=
  let at_ (c : Card) : Nat := if 2 ≤ (engineOf c.kind).1 then c.ready.getD c.stamp else 0
  at_ a.2 < at_ b.2 || (at_ a.2 == at_ b.2 && a.1 < b.1)

/-- Launched cards of one engine of a core. -/
def engineLoad (s : State) (core engine : Nat) : Nat :=
  (s.cards.select fun _ c => c.core == core && c.launched && (engineOf c.kind).1 == engine).length

/-- The card is the next of its engine. -/
def launchesNow (s : State) (id : Nat) (c : Card) : Bool :=
  let (eng, room) := engineOf c.kind
  launchable s c && decide (engineLoad s c.core eng < room) &&
    !(s.cards.any fun (k, d) => readyBefore (k, d) (id, c) && d.core == c.core && (engineOf d.kind).1 == eng && launchable s d)

/-- CARD_LAUNCH: a matrix card is checked as it launches (R312, R317). -/
def execCardLaunch (id : Nat) (s : State) : Host.Outcome State Fault Refusal :=
  .next (match s.cards.find? id with
    | some c =>
      if launchesNow s id c then pump { s with cards := s.cards.put id { c with launched := true, failed := launchFault s c } } else s
    | none => s)

/-! ## The work of a card -/

/-- What a card does from its launch to its completion, in one step (log 12); a row-buffer card's rows have moved
before. -/
def runCard (s : State) (id : Nat) (c : Card) : Run :=
  let r := Run.start (beforeGlobal s c)
  match cardOp s c, c.failed with
  | none, _ => r.stop 0 0
  | some (.cpym true ..), f | some (.product _ _ _ _ _ _ true), f => { r with flags := c.flags, fault := f }
  | some _, some (q, a) => r.stop q a
  | some op, none =>
    match op with
    | .cpy src dst => runCpy r c src dst
    | .cpym true _ _ _ _ => { r with flags := c.flags, fault := c.failed }
    | .cpym false mask src doff dstr => runCpym r c mask src doff dstr
    | .cpysc out mem smoff n => runCpysc r c out mem smoff n
    | .xpose e src dst rows cols sstr dstr => runXpose r c e src dst rows cols sstr dstr
    | .sred op sz src dst n => runSred r c op sz src dst n
    | .bload src stride b => runBload r c src stride b
    | .minit a t => runMinit r c a t
    | .product _ _ _ _ _ _ true => { r with flags := c.flags, fault := c.failed }
    | .product sparse src stride a _ t false => runProduct r id c sparse src stride a t
    | .mdrain d => runMdrain r c d

/-- A CPYM whose targets are saved and not yet restored waits for them (R293). -/
def targetsHeld (s : State) (c : Card) : Bool :=
  match cardOp s c with
  | some (.cpym _ mask _ _ _) => (targetsOf s c mask).contains .held
  | _ => false

/-- Rows of a row-buffer card are still to move. -/
def rowsPending (s : State) (c : Card) : Bool :=
  match (cardOp s c).bind rowsOf with
  | some n => c.failed.isNone && decide (c.rows < n)
  | none => false

/-- The engine can bring the card to its end now. -/
def runnable (s : State) (c : Card) : Bool :=
  c.launched && !c.cancelled && coreRuns s c.core && !rowsPending s c && !targetsHeld s c && !linesRefused s c

/-! ## Where a card's flags and reports go (R139, R289, R400, R444) -/

/-- The warp that a card belongs to: its issuer, or the same warp restored. -/
def Card.owner (c : Card) : Option Nat := if c.isOf c.warp then some c.warp else none

/-- Flags reach the flag word of a warp that has been saved; its AWAIT will see them too (R139). -/
def mergeSaved (s : State) (c : Card) (flags : Nat) : State :=
  let l := launchAt s c.launch
  let va := l.save + 128 * c.linear + 4 * c.num
  let away := [(c.num, c.batch, flags)]
  let s := if c.block ≠ departed then updBlock s c.block fun x => { x with awayFlags := x.awayFlags ++ away }
    else { s with saved := s.saved.map fun (x : Saved) =>
      if x.launch = c.launch ∧ x.linear = c.linear ∧ x.entry.isNone = true then { x with awayFlags := x.awayFlags ++ away }
      else x }
  match unitReadNat s c.asid va 4 with
  | (s, some old) => (unitWrite s c.asid va (leBytes 4 (Nat.lor old flags))).1
  | (s, none) => s

/-- A saved block is the one that issued a card. -/
def isCardBlock (c : Card) (x : Saved) : Bool := x.launch == c.launch && x.linear == c.linear && x.entry.isNone

/-- The card's block is saved, and its warp had ended before (R444). -/
def endedAway (s : State) (c : Card) : Bool := c.block == departed && s.saved.any fun x => isCardBlock c x && x.ended.contains c.num

/-- A card's flags at its completion. An enabled one is kept for the AWAIT of its batch (R139). -/
def mergeCardFlags (s : State) (c : Card) (flags : Nat) : State :=
  if flags = 0 then s
  else
    match c.owner with
    | some w =>
      updWarp s w fun x =>
        let hot := enabledFlags x.userFlags flags
        let y := x.mergeFlags false flags
        if hot = 0 then y else { y with cardFlags := y.cardFlags ++ [(c.batch, hot)] }
    | none =>
      if endedAway s c then
        { s with saved := s.saved.map fun (x : Saved) =>
            if isCardBlock c x then { x with late := x.late.put c.num (joinFlags (x.late.getD 0 c.num) flags) } else x }
      else if c.block = departed ∨ (blockAt s c.block).saved.contains c.num = true then mergeSaved s c flags
      else updBlock s c.block fun x => { x with late := x.late.put c.num (joinFlags (x.late.getD 0 c.num) flags) }

/-- Adds a report in the order in which the cards were issued, when the list has room (R289). -/
def addReport (l : List CardReport) (r : CardReport) : List CardReport :=
  if l.any (fun q => q.lost || q.cause == 7) then l
  else if l.length < 8 then l.takeWhile (·.card ≤ r.card) ++ r :: l.dropWhile (·.card ≤ r.card)
  else l.modify (l.length - 1) fun q => { q with lost := true }

/-- A block counts as one that ended with a killed warp. -/
def countOrphanFault (s : State) (c : Card) : State :=
  if c.block ≠ departed then updBlock s c.block fun x => { x with killed := true }
  else
    { s with blocks := s.blocks.mapVals fun _ x =>
               if x.launch = c.launch ∧ x.linear = c.linear then { x with killed := true } else x,
             saved := s.saved.map fun x =>
               if x.launch = c.launch ∧ x.linear = c.linear ∧ x.entry.isNone = true then { x with killed := true } else x }

/-- The report of a card that has faulted (R289); that of an orphan goes to the host (R400). -/
def reportCard (s : State) (id : Nat) (c : Card) (cause : Nat) (a : Word64) : State :=
  if c.silent then countOrphanFault s c
  else if c.orphan then
    notify (countOrphanFault s c) c.ctx
      { kind := 4, core := c.core, slot := c.warp % 64,
        fault := (FaultInfo.uniform (if cause = 11 then .mmaCheck else .cardFault) cause c.tag 0).word.toNat, addr := a.toNat,
        block := c.linear, aux := 0 }
  else
    let r : CardReport := { card := id, tag := c.tag, cause := cause, batch := c.batch, lost := false, addr := a }
    updWarp s c.warp fun x => { x with faultList := addReport x.faultList r }

/-! ## The end of a card -/

/-- The slot frees; cards that waited for this one become ready, and the row-buffer queues move on. -/
def freeCard (s : State) (id : Nat) : State := pump (markReady { s with cards := s.cards.del id })

/-- Cards with an edge from one that faulted or was cancelled are cancelled. -/
def cancelAfter (s : State) (id : Nat) : State :=
  { s with cards := s.cards.mapVals fun _ (c : Card) => if c.preds.contains id then { c with cancelled := true } else c }

/-- A card completes with the flags and tail elements of its work. At system scope its writes to host memory are performed
first (R287, R329). -/
def completeCard (id : Nat) (c : Card) (r : Run) : State :=
  let s := if c.csco = 7 then drainEgress r.s else r.s
  freeCard (countTails (mergeCardFlags s c r.flags) c.ctx (r.tails ++ c.tails).eraseDups.length) id

/-- CARD_COMPLETE (R287). -/
def execCardComplete (id : Nat) (s : State) : Host.Outcome State Fault Refusal :=
  .next (match s.cards.find? id with
    | some c =>
      if runnable s c then
        let r := runCard s id c
        if r.fault.isSome then s else completeCard id c r
      else s
    | none => s)

/-- A card faults: what it has written stays, what follows it is cancelled, the report is made. MMACHECK is counted and
notified (R307). -/
def failCard (s : State) (id : Nat) (c : Card) (cause : Nat) (a : Word64) (flags : Nat) (tails : List Nat) : State :=
  let s := if cause = 11 then countGrade s (coreDie c.core) 2 0 3 else s
  let s := countTails (mergeCardFlags s c flags) c.ctx tails.eraseDups.length
  freeCard (reportCard (cancelAfter s id) id c cause a) id

/-- The check of R281 fails. -/
def malformed (s : State) (c : Card) : Bool := (cardOp s c).isNone

/-- CARD_FAULT (R289): a malformed record at once, a cancelled card, or one whose work meets a fault. Cards of a
terminated launch end without a report (R70). -/
def execCardFault (id : Nat) (s : State) : Host.Outcome State Fault Refusal :=
  .next (match s.cards.find? id with
    | some c =>
      if c.cancelled then
        if (launchAt s c.launch).terminated || (s.launches.find? c.launch).isNone then freeCard s id
        else failCard s id c 5 0 c.flags c.tails
      else if malformed s c then failCard s id c 0 0 0 []
      else if runnable s c then
        let r := runCard s id c
        match r.fault with
        | some (q, a) => failCard r.s id c q a r.flags (r.tails ++ c.tails)
        | none => s
      else s
    | none => s)

/-! ## Barriers and flits -/

/-- BARRIER_WAKE (R349, R353). -/
def execBarrierWake (bar : Nat) (s : State) : Host.Outcome State Fault Refusal := .next (wakeBarrier s bar (movingCore s))

/-- What a receive queue answers to a flit (R360). -/
inductive Receipt where
  | accepted | refused | discarded
  deriving DecidableEq, Repr

/-- A flit at a block slot: a moving core and a full queue refuse it, a slot without a block of the launch discards
it. -/
def receipt (s : State) (core slot launch : Nat) : Receipt :=
  let b := core * 16 + slot
  let x := blockAt s b
  if !coreValid s core then .discarded
  else if coreShut s core then .refused
  else if (s.blocks.find? b).isNone || x.launch != launch || !(launchAt s launch).msg then .discarded
  else if x.rqHold || decide (64 ≤ x.rq.length) then .refused
  else .accepted

/-! ## The escape class (R228) -/

/-- The one buffer that a port holds for the escape class is free. -/
def escapeFree (s : State) (k port : Nat) : Bool := !(s.chans.any fun (j, c) => j != k && c.escape && c.place == port)

/-- The entry as an escape packet: class 2 (R230), on its minimal route alone. -/
def NetEntry.escaping (e : NetEntry) : NetEntry :=
  { e with via := none, ident := (e.ident &&& ~~~(3#64 <<< 24)) ||| (2#64 <<< 24) }

/-- A packet that has taken part in eight steps moves into the escape class as soon as its port's buffer is free. -/
def intoEscape (s : State) (k : Nat) : State :=
  match s.chans.find? k with
  | some c =>
    match c.window with
    | e :: rest =>
      if 8 ≤ c.steps ∧ c.escape = false ∧ escapeFree s k c.place = true then
        { s with chans := s.chans.put k { c with escape := true, window := e.escaping :: rest } }
      else s
    | [] => s
  | none => s

/-- The packets that may enter the escape class do. -/
def fillEscape (s : State) : State := (s.chans.select fun _ c => decide (8 ≤ c.steps)).keys.foldl intoEscape s

/-! ## The receipt of flits (R224 to R226, R230, R360) -/

/-- The entry at the head of a replay window has been taken: it leaves the window, and the next number is expected. A buffer that it
frees serves the next packet of the escape class. -/
def popWindow (s : State) (k : Nat) : State :=
  fillEscape { s with chans := s.chans.modify k fun c =>
      { c with window := c.window.drop 1, expect := c.expect + 1, wait := none, probing := false, steps := 0, escape := false,
               place := c.port s } }

/-- A refused entry waits to be resent (R225). -/
def refuseHead (s : State) (k : Nat) : State :=
  match s.chans.find? k with
  | some c =>
    match c.window with
    | e :: rest =>
      let s := drawJitter s (c.port s)
      let e : NetEntry := { e with tries := e.tries + 1 }
      { s with chans := s.chans.put k { c with window := e :: rest,
                                               wait := some (backoffWait s e.tries (jitterOf s (c.port s))) } }
    | [] => s
  | none => s

/-- n negative acknowledgements, counted at the port of the queue that returns them, of which the first makes the sender replay from
the head (R224, R225, R231). -/
def nackHead (s : State) (k : Nat) (n : Nat := 1) : State :=
  match s.chans.find? k with
  | some c => refuseHead (updLog s (c.target s) fun l => { l with nacks := satAdd32 l.nacks n }) k
  | none => s

/-- Delivers a flit from the head of a channel's window. -/
def deliverFlit (s : State) (k core slot : Nat) (f : Flit) (launch : Nat) : State :=
  match receipt s core slot launch with
  | .accepted => popWindow (updBlock s (core * 16 + slot) fun x => { x with rq := x.rq ++ [f] }) k
  | .refused => nackHead s k
  | .discarded => countLife (popWindow s k) lifeFlits 1

/-- The flit at the head of a channel is gone without an answer: the sender's timeout replays it (R230). -/
def loseHead (s : State) (k : Nat) : State :=
  { s with chans := s.chans.modify k fun c =>
      { c with window := match c.window with | e :: rest => { e with lost := true } :: rest | [] => [] } }

/-- The flit as it comes out of its links: what no link has seen shows up where it is consumed (R226; log 109). -/
def NetEntry.received (e : NetEntry) : Flit :=
  let flips := e.flips.filter fun f => 72 ≤ f && f < 136
  { word := BitVec.ofNat 64 (flipBits e.payload.toNat (flips.map (· - 72))), near := e.near, bad := flips != [] }

/-- A channel has had its turn (R229). -/
def takeTurn (s : State) (k : Nat) : State :=
  { s with chans := s.chans.modify k fun c => { c with turn := s.seq }, seq := s.seq + 1 }

/-- The sequence number that the receiver reads. -/
def NetEntry.shownSeq (e : NetEntry) : BitVec 12 :=
  match e.seen with | some w => BitVec.ofNat 12 (bitsOf w.toNat 23 12) | none => e.seq

/-- The identity that the entry shows passes the second check of R230, and is of the address space of the flit's launch; one that
does not is turned away. -/
def NetEntry.identOk (s : State) (e : NetEntry) (launch : Nat) : Bool :=
  match e.seen with
  | some w => identServed s w && (launchAt s launch).asid == bitsOf w.toNat 63 48
  | none => true

/-- The entry at the head of a window reaches its receiver (R224, R226, R230): one that fails the CRC of its last link is replayed
there; an uncorrectable identity word is discarded without an answer, a corrected one passes; an entry out of sequence or without room
is refused. Behind a lost entry, what follows arrives out of sequence. idErr bits of the identity word are in error at the router
before the queue. -/
def receiveHead (s : State) (k : Nat) (room crcOk : Bool) (idErr : Nat) : State :=
  match s.chans.find? k with
  | none => s
  | some c =>
    match c.window with
    | [] => s
    | e :: rest =>
      let s := takeTurn s k
      if c.wait.isSome then s
      else if e.lost then (if rest.isEmpty then s else nackHead s k rest.length)
      else
        match crcOk, c.links.getLast? with
        | false, some i => crcReplay s i 0
        | _, _ =>
          let check := identCheck (List.replicate idErr 0)
          let s := logIdent s (c.target s) check
          if check = .dropped then loseHead s k
          else if room && e.shownSeq == c.expect && e.identOk s c.launch then deliverFlit s k c.core c.slot e.received c.launch
          else nackHead s k

/-- MESSAGE_ARRIVE (R360): flits of one channel arrive in the order sent. -/
def execMessageArrive (k : Nat) (s : State) : Host.Outcome State Fault Refusal := .next (receiveHead s k true true 0)

end Sys2Proof.Machine
end

