-- ==== Sys2Proof/Machine/Admission.lean ====
section
/-! DEFINITION. The admission unit: reading a launch (R22 to R31), its errors (R23, R29, R31, R69), what a block needs
(R28, R60, R61), placement (R62), and the start of warps (R25, R63, R66). -/

namespace Sys2Proof.Machine

/-! ## Reading a launch (R24, R27, R31, R55) -/

/-- n words of 8 bytes by virtual address; none when some part is unreadable. -/
def readWords (s : State) (asid va n : Nat) : State × Option (List Word64) :=
  let (s, r) := unitRead s asid va (8 * n)
  (s, r.map fun bs => (List.range n).map fun k => BitVec.ofNat 64 (leNat ((bs.drop (8 * k)).take 8)))

/-- Counts of a launch record (R22). -/
def Launch.ngrp (l : Launch) : Nat := bitsOf (l.word 3) 52 48
def Launch.ndsp (l : Launch) : Nat := bitsOf (l.word 3) 47 43
def Launch.rcount (l : Launch) : Nat := bitsOf (l.word 4) 31 16

/-- Descriptor entries (R27). -/
def roleEntry (w : Word64) : RoleEntry :=
  let n := w.toNat
  { entry := bitsOf n 63 32, vreg := 8 * (bitsOf n 31 27 + 1), cls := bitsOf n 26 25, lim := bitsOf n 24 19 }
def groupEntry (w : Word64) : GroupEntry :=
  let n := w.toNat
  { gbase := bitsOf n 63 48, gspan := bitsOf n 47 42, faultPolicy := bitOf n 41 }
def dispatchEntry (w : Word64) : DispatchEntry :=
  let n := w.toNat
  { entry := bitsOf n 63 32, vreg := 8 * (bitsOf n 31 27 + 1), cls := bitsOf n 26 25, slots := bitsOf n 24 19 }

/-- A range-list entry of two words (R31); the reuse classes by code. -/
def reuseCode (n : Nat) : Reuse := match n with | 0 => .none | 1 => .low | 2 => .high | _ => .streaming
def rangeEntry (ws : List Word64) (k : Nat) : RangeEntry :=
  let b := (ws.getD (2 * k + 1) 0).toNat
  { base := (ws.getD (2 * k) 0).toNat, len := bitsOf b 63 32, cls := reuseCode (bitsOf b 31 30), ntreq := bitOf b 29,
    report := bitOf b 28 }

/-- A launch with the tables that its record names, as words. -/
structure LaunchText where
  l : Launch
  desc : List Word64
  list : List Word64
  deriving DecidableEq, Repr

/-- A launch of a record, its tables and a queue entry. Its PRIO is that of its queue as the entry is taken: a PRIO written
to the queue later does not move it (DESIGN CHOICE, log 39). -/
def launchOfText (rva q asid prio : Nat) (ser : Bool) (words desc list : List Word64) : LaunchText :=
  let l : Launch := { Launch.blank with rva := rva, words := words, queue := q, asid := asid, ser := ser, prio := prio }
  let nr := Nat.min l.nrole desc.length
  let ng := Nat.min l.ngrp (desc.length - nr)
  { desc := desc, list := list,
    l := { l with
           roles := (desc.take nr).map roleEntry,
           groups := ((desc.drop nr).take ng).map groupEntry,
           disp := ((desc.drop (nr + ng)).take l.ndsp).map dispatchEntry,
           ranges := (List.range (Nat.min l.rcount (list.length / 2))).map (rangeEntry list) } }

/-- Entries of the descriptor table, and words of the range list, that are read: a count that is itself malformed reads
nothing. -/
def descCount (l : Launch) : Nat := if 16 < l.ngrp ∨ 16 < l.ndsp then 0 else l.nrole + l.ngrp + l.ndsp
def listWords (l : Launch) : Nat := if 64 < l.rcount then 0 else 2 * l.rcount

/-- What reading a queue entry's launch finds: RECORDFAULT with or without the record itself. -/
inductive LaunchRead where
  | noRecord
  | noTables (l : Launch)
  | ok (t : LaunchText)
  deriving DecidableEq, Repr

/-- Reads a launch record with its tables. A table address outside the global window makes the read fail here, so that the
error is RECORDFAULT, which R69 tests first, and not MALFORMED (DESIGN CHOICE, log 35). Record, table and list are read in one step:
of words that software modifies meanwhile, each is the one that stands at home at that moment (DESIGN CHOICE, log 112). -/
def readLaunch (s : State) (q asid prio rva : Nat) (ser : Bool) : State × LaunchRead :=
  match readWords s asid rva 16 with
  | (s, none) => (s, .noRecord)
  | (s, some ws) =>
    let l := (launchOfText rva q asid prio ser ws [] []).l
    match readWords s asid (l.word 5) (descCount l) with
    | (s, none) => (s, .noTables l)
    | (s, some desc) =>
      match readWords s asid (l.word 6) (listWords l) with
      | (s, none) => (s, .noTables l)
      | (s, some list) => (s, .ok (launchOfText rva q asid prio ser ws desc list))

/-! ## Malformed records (R22, R23, R27, R29, R31) -/

/-- An address field lies outside the global window or breaks its alignment. -/
def badAddr (a al : Nat) : Bool := a % al != 0 || 2 ^ 52 ≤ a

/-- Reserved bits of the record, and values that their rows call malformed. -/
def recordWordsBad (l : Launch) : Bool :=
  let (x, y, z) := l.grid
  let (cx, cy, cz) := l.cluster
  let w2 := l.word 2
  let w3 := l.word 3
  bitsOf (l.word 1) 3 0 != 0 || bitsOf w2 58 56 != 0 || bitsOf w2 6 0 != 0 || bitsOf w3 36 12 != 0 || bitOf w3 3 ||
    bitsOf (l.word 4) 15 0 != 0 || (l.words.drop 12).any (· != 0) ||
    128 < bitsOf w2 50 43 || 256 < bitsOf w2 42 34 || 4 < bitsOf w2 33 31 || 16 < l.ngrp || 16 < l.ndsp ||
    l.dieMask == 0 || (l.migNote && !l.migratable) || 64 < l.rcount ||
    x == 0 || y == 0 || z == 0 || 16 < cx * cy * cz || x % cx != 0 || y % cy != 0 || z % cz != 0 ||
    2 ^ 32 ≤ x * y * z || l.stkSz % 16 != 0 || bitsOf (l.word 4) 63 32 % 8 != 0

/-- Address fields of the record. -/
def recordAddrsBad (l : Launch) : Bool :=
  badAddr (l.word 0) 64 || (l.word 5 == 0 && l.nrole + l.ngrp + l.ndsp != 0) || badAddr (l.word 5) 8 ||
    (l.rcount != 0 && badAddr (l.word 6) 16) || 2 ^ 52 ≤ l.word 7 || badAddr (l.word 8) 65536 ||
    badAddr (l.word 10) 4096 || badAddr (l.word 11) 8

/-- A descriptor entry is malformed: reserved bits, limits, entry addresses. -/
def descBad (t : LaunchText) : Bool :=
  let nr := t.l.roles.length
  let ng := t.l.groups.length
  ((t.desc.take nr).any fun w => bitsOf w.toNat 18 0 != 0) ||
    (((t.desc.drop nr).take ng).any fun w => bitsOf w.toNat 40 0 != 0) ||
    ((t.desc.drop (nr + ng)).any fun w => bitsOf w.toNat 18 0 != 0) ||
    (t.l.roles.any fun r => r.lim == 0 || 32 < r.lim || r.entry % 8 != 0) ||
    (t.l.disp.any fun d => d.slots == 0 || d.entry % 8 != 0)

/-- The ids of a group entry. -/
def groupIds (l : Launch) (g : GroupEntry) : Nat × Nat := (g.gbase, g.gbase + l.nblk / (g.gspan + 1))

/-- Group entries break R29. -/
def groupsBad (l : Launch) : Bool :=
  (l.groups.any fun g => l.nblk % (g.gspan + 1) != 0 || 65536 < (groupIds l g).2) ||
    (List.range l.groups.length).any fun i => (List.range i).any fun j =>
      match l.groups[i]?, l.groups[j]? with
      | some a, some b => (groupIds l a).1 < (groupIds l b).2 && (groupIds l b).1 < (groupIds l a).2
      | _, _ => false

/-- Range-list entries break R31. -/
def rangesBad (t : LaunchText) : Bool :=
  let rs := t.l.ranges
  ((List.range rs.length).any fun k => bitsOf (t.list.getD (2 * k + 1) 0).toNat 27 0 != 0) ||
    (rs.any fun r => r.len == 0 || r.base % 65536 != 0 || 2 ^ 52 < r.base + r.len * 65536) ||
    (List.range rs.length).any fun i => (List.range i).any fun j =>
      match rs[i]?, rs[j]? with
      | some a, some b => a.base < b.base + b.len * 65536 && b.base < a.base + a.len * 65536
      | _, _ => false

/-- The record fails R23, with or without its tables' addresses. -/
def launchMalformed (t : LaunchText) : Bool :=
  recordWordsBad t.l || recordAddrsBad t.l || descBad t || groupsBad t.l || rangesBad t

/-! ## What a block needs (R22, R28, R60, R61) -/

/-- Tiles, macros, roles of a block. -/
def Launch.tiles (l : Launch) : Nat := bitsOf (l.word 2) 42 34
def Launch.macCount (l : Launch) : Nat := let n := bitsOf (l.word 2) 33 31; if n = 0 then 0 else 2 ^ (n - 1)

/-- Allotment and limit of each role, largest allotment first, ties by lower role (R28). -/
def roleOrder (l : Launch) : List (Nat × Nat) :=
  let rs := ((List.range (l.nrole + 1)).filterMap l.role).map fun r => (r.vreg, r.lim)
  (List.range 32).reverse.flatMap fun k => rs.filter fun r => r.1 == 8 * (k + 1)

/-- The registers that n warps of a quarter could hold (R28). -/
def regNeed (l : Launch) (n : Nat) : Nat :=
  ((roleOrder l).foldl (fun (need, n) (v, lim) => (need + Nat.min n lim * v, n - Nat.min n lim)) (0, n)).1

/-- A reserved callee slot. -/
def calleeSlots (s : State) : List CalleeSlot := s.launches.flatMap fun (_, l) => l.callee

/-- Warp slots in use: of resident blocks, and reserved for callees. -/
def usedSlots (s : State) : List Nat :=
  ((s.blocks.select fun k _ => decide (k < calleeBase)).flatMap fun (_, b) => b.warps) ++ (calleeSlots s).map (·.key)

/-- Slots in use in a quarter, numbered core*4 + quarter. -/
def usedIn (s : State) (cq : Nat) : List Nat := (usedSlots s).filter fun k => k / 16 == cq
def freeSlots (s : State) (cq : Nat) : Nat := 16 - (usedIn s cq).length

/-- Registers in use in a quarter. -/
def usedRegs (s : State) (cq : Nat) : Nat :=
  let mine := (s.blocks.select fun k b => decide (k < calleeBase) && b.core == cq / 4).map fun (_, b) =>
    regNeed (launchAt s b.launch) (b.warps.filter fun k => k / 16 == cq).length
  mine.foldl (· + ·) 0 + ((calleeSlots s).filter fun c => c.key / 16 == cq).foldl (fun n c => n + c.vreg) 0
def freeRegs (s : State) (cq : Nat) : Nat := Config.quarterRegs - usedRegs s cq

/-- Free warp slots of a core, a quadrant, a die. -/
def coreSlots (s : State) (core : Nat) : Nat :=
  if coreValid s core then ((List.range 4).map fun q => freeSlots s (core * 4 + q)).foldl (· + ·) 0 else 0
def quadSlots (s : State) (quad : Nat) : Nat := ((List.range 16).map fun c => coreSlots s (quad * 16 + c)).foldl (· + ·) 0
def dieSlots (s : State) (die : Nat) : Nat := ((List.range 4).map fun q => quadSlots s (die * 4 + q)).foldl (· + ·) 0

/-- Keys in order of a measure, largest first, ties to the one that stands first. -/
def orderBy (f : Nat → Nat) : List Nat → List Nat
  | [] => []
  | k :: ks =>
    let rest := orderBy f ks
    rest.takeWhile (fun j => f k < f j) ++ k :: rest.dropWhile (fun j => f k < f j)

/-- A quarter takes n warps of a launch (R60). -/
def quarterFits (s : State) (l : Launch) (cq n : Nat) : Bool := n ≤ freeSlots s cq && regNeed l n ≤ freeRegs s cq

/-- The most warps of a launch, up to n, that a quarter takes. -/
def quarterRoom (s : State) (l : Launch) (cq n : Nat) : Nat :=
  (List.range (n + 1)).foldl (fun m k => if quarterFits s l cq k then k else m) 0

/-- The quarter of each warp under the spread division (R61). -/
def spreadOf (s : State) (l : Launch) (core : Nat) : Option (List Nat) :=
  let qs := (List.range l.wpb).map (· % 4)
  if (List.range 4).all fun q => quarterFits s l (core * 4 + q) (qs.filter (· == q)).length then some qs else none

/-- The packed division (R61): quarters by most free registers. -/
def packedOf (s : State) (l : Launch) (core : Nat) : Option (List Nat) :=
  let order := orderBy (fun q => freeRegs s (core * 4 + q)) (List.range 4)
  let (qs, left) := order.foldl (fun (qs, left) q =>
    let n := quarterRoom s l (core * 4 + q) left
    (qs ++ List.replicate n q, left - n)) (([] : List Nat), l.wpb)
  if left = 0 then some qs else none

/-- The lowest free warp slots of a core for warps of given quarters (log 21), as warp keys. -/
def slotKeys (s : State) (core : Nat) (qs : List Nat) : List Nat :=
  (qs.foldl (fun (keys, used) q =>
    let cq := core * 4 + q
    match ((List.range 16).map (cq * 16 + ·)).find? fun k => !used.contains k with
    | some k => (keys ++ [k], k :: used)
    | none => (keys, used)) (([] : List Nat), usedSlots s)).1

/-- Blocks of a core, callee warps aside. -/
def blocksOn (s : State) (core : Nat) : List Block :=
  (s.blocks.select fun k b => decide (k < calleeBase) && b.core == core).map (·.2)

/-- The lowest base of a free run of scratchpad, by 4 KiB (log 21). -/
def freeSpad (s : State) (core n : Nat) : Option Nat :=
  ((List.range 129).map (· * 4096)).find? fun o =>
    o + n ≤ 524288 && (blocksOn s core).all fun b => b.spSize == 0 || o + n ≤ b.spBase || b.spBase + b.spSize ≤ o

/-- The lowest free aligned macro set (log 21). -/
def freeMacros (s : State) (core m : Nat) : Option Nat :=
  if m = 0 then some 0
  else ((List.range (8 / m)).map (· * m)).find? fun o =>
    (blocksOn s core).all fun b => b.macs == 0 || o + m ≤ b.macFirst || b.macFirst + b.macs ≤ o

/-- Physical tiles that no block of a core holds, lowest first. -/
def tilesLeft (s : State) (core : Nat) : List Nat :=
  let held := (blocksOn s core).flatMap (·.tiles)
  (List.range 256).filter fun t => !held.contains t

/-- A core that a scrub still overwrites takes no block of another context (R403). -/
def scrubHolds (s : State) (asid core : Nat) : Bool :=
  let r := s.scrubReg
  r.sbusy && (ctxOf s r.slot).asid != asid && r.entries.any fun w => bitsOf w.toNat 1 0 == 1 && bitsOf w.toNat 15 8 == core

/-- A move makes a core unavailable: its source, and its target from the choice on (R439). -/
def moveHolds (s : State) (core : Nat) : Bool :=
  let phys := remapEntry s.remap core % 64
  (s.moves.any fun m => m.logical == core || (m.logical / 64 == core / 64 && m.target == phys)) ||
    s.moveAsks.any fun m => m.core == core || (m.core / 64 == core / 64 && m.target == phys)

/-- What a placement of one block takes. -/
structure Seat where
  core : Nat
  slot : Nat
  keys : List Nat
  spBase : Nat
  macFirst : Nat
  tiles : List Nat
  deriving DecidableEq, Repr

/-- The seat of a block of a launch on a core, if it fits (R60, R61). -/
def seatOn (s : State) (l : Launch) (core : Nat) : Option Seat :=
  if !coreValid s core || scrubHolds s l.asid core || moveHolds s core then none
  else
    let qs := match spreadOf s l core with | some q => some q | none => packedOf s l core
    match (List.range 16).find? fun b => (s.blocks.find? (core * 16 + b)).isNone, qs,
        freeSpad s core l.spadBytes, freeMacros s core l.macCount with
    | some b, some qs, some sp, some m =>
      let ts := tilesLeft s core
      if ts.length < l.tiles then none
      else some { core := core, slot := b, keys := slotKeys s core qs, spBase := sp, macFirst := m, tiles := ts.take l.tiles }
    | _, _, _, _ => none

/-! ## Placement (R60, R62) -/

/-- A block record at a seat; its warps start later. -/
def Seat.block (p : Seat) (k linear : Nat) (l : Launch) : Block :=
  { Block.blank with
    launch := k, linear := linear, core := p.core, slot := p.slot, spBase := p.spBase,
    spSize := l.spadBytes, macFirst := p.macFirst, macs := l.macCount, tiles := p.tiles,
    arrK := if l.macCount = 0 then 0 else 128, warps := p.keys }

/-- Reserves a seat. -/
def takeSeat (s : State) (k linear : Nat) (p : Seat) : State :=
  { s with blocks := s.blocks.put (p.core * 16 + p.slot) (p.block k linear (launchAt s k)) }

/-- One block goes to the core of a quadrant that fits it and has the most free warp slots. -/
def placeBlock (s : State) (k quad linear : Nat) : Option State :=
  (orderBy (coreSlots s) ((List.range 16).map (quad * 16 + ·))).findSome? fun core =>
    (seatOn s (launchAt s k) core).map (takeSeat s k linear)

/-- Every block of a list, one after another. -/
def placeEach (k quad : Nat) : List Nat → State → Option State
  | [], s => some s
  | b :: bs, s => match placeBlock s k quad b with | some s => placeEach k quad bs s | none => none

/-- Cluster-barrier sets in use in a quadrant: each is one cluster of one launch. -/
def clusterSets (s : State) (quad : Nat) : Nat :=
  (((s.barriers.select fun _ b => b.lvl == .cluster && b.quad == quad).map fun (_, b) => (b.launch, b.inst)).eraseDups).length

/-- Die-barrier sets in use on a die, and grid-barrier sets. -/
def dieSets (s : State) (die : Nat) : Nat :=
  (((s.barriers.select fun _ b => b.lvl == .die && b.inst == die).map fun (_, b) => b.launch).eraseDups).length
def gridSets (s : State) : Nat := (((s.barriers.select fun _ b => b.lvl == .grid).map fun (_, b) => b.launch).eraseDups).length

/-- The warps of some resident blocks. -/
def warpsOf (s : State) (bs : List Nat) : List Nat := bs.flatMap fun b => (blockAt s b).warps

/-- A barrier at its reset values (R350), with its members; a cluster's members share a quadrant. -/
def freshBarrier (k idx inst : Nat) (lvl : BarLvl) (exp : Nat) (members : List Nat) : Barrier :=
  let locals := members.foldl (fun (t : Tbl BarLocal) w =>
    let r := Tbl.getD t .reset (w / 64)
    Tbl.put t (w / 64) { r with member := r.member ||| slotBit w }) []
  { lvl := lvl, inst := inst, launch := k, idx := idx, phase := false, exp := BitVec.ofNat 15 exp, arr := 0, aband := false,
    wake := [], done := [], quad := members.headD 0 / 1024, locals := locals, late := [] }

/-- The barriers of one instance of a level, by the mask of those declared. -/
def addBarriers (s : State) (k inst : Nat) (lvl : BarLvl) (mask exp : Nat) (members : List Nat) : State :=
  ((List.range 16).filter (bitOf mask)).foldl (fun s i =>
    { s with barriers := s.barriers.put s.nextId (freshBarrier k i inst lvl exp members), nextId := s.nextId + 1 }) s

/-- Masks of declared barriers (R22). -/
def Launch.barb (l : Launch) : Nat := bitsOf (l.word 2) 30 15
def Launch.barc (l : Launch) : Nat := bitsOf (l.word 2) 14 7
def Launch.bard (l : Launch) : Nat := bitsOf (l.word 3) 63 60
def Launch.barg (l : Launch) : Nat := bitsOf (l.word 3) 59 56

/-- Resident blocks of a launch that satisfy a test. -/
def residents (s : State) (k : Nat) (p : Block → Bool) : List Nat :=
  (s.blocks.select fun b x => decide (b < calleeBase) && x.launch == k && p x).keys

/-- Limits that a placement observes. sets: barrier sets count. -/
structure Rules where
  sets : Bool
  deriving DecidableEq, Repr

/-- One cluster on a quadrant, with its cluster-barrier set. -/
def placeCluster (r : Rules) (k : Nat) (bs : List Nat) (s : State) (quad : Nat) : Option State :=
  let l := launchAt s k
  if r.sets ∧ l.barc ≠ 0 ∧ 16 ≤ clusterSets s quad then none
  else
    match placeEach k quad bs s with
    | none => none
    | some s =>
      let inst := l.clusterOf (bs.headD 0)
      let mine := warpsOf s (residents s k fun x => bs.contains x.linear)
      some (if l.barc = 0 then s else addBarriers s k inst .cluster l.barc mine.length mine)

/-- One cluster on a die: quadrants by most free warp slots. -/
def clusterOnDie (r : Rules) (k : Nat) (bs : List Nat) (s : State) (die : Nat) : Option State :=
  (orderBy (quadSlots s) ((List.range 4).map (die * 4 + ·))).findSome? (placeCluster r k bs s)

/-- The clusters of a gang, each by its blocks, in ascending order. -/
def gangClusters (l : Launch) (gang : List Nat) : List (List Nat) :=
  let heads := gang.filter fun b => (clusterBlocks l b).head? == some b
  heads.map (clusterBlocks l)

/-- All clusters of a gang on one die. -/
def gangOnDie (r : Rules) (k : Nat) (cs : List (List Nat)) (s : State) (die : Nat) : Option State :=
  cs.foldl (fun r' c => r'.bind fun s => clusterOnDie r k c s die) (some s)

/-- Dies of DIEMASK by most free warp slots. -/
def dieOrder (s : State) (l : Launch) (ok : Nat → Bool) : List Nat :=
  orderBy (dieSlots s) ((List.range 4).filter fun d => bitOf l.dieMask d && ok d)

/-- The die-barrier and grid-barrier sets of a whole-grid gang: one on each die that it uses. -/
def gridBarriers (r : Rules) (s : State) (k : Nat) : Option State :=
  let l := launchAt s k
  let dies := ((residents s k fun _ => true).map fun b => coreDie (blockAt s b).core).eraseDups
  if r.sets ∧ (l.bard ≠ 0 ∧ dies.any (fun d => 8 ≤ dieSets s d) ∨ l.barg ≠ 0 ∧ 8 ≤ gridSets s) then none
  else
    let s := if l.bard = 0 then s else dies.foldl (fun s d =>
      let ws := warpsOf s (residents s k fun x => coreDie x.core == d)
      addBarriers s k d .die l.bard ws.length ws) s
    let ws := warpsOf s (residents s k fun _ => true)
    some (if l.barg = 0 then s else addBarriers s k 0 .grid l.barg ws.length ws)

/-- What one die takes at a time of a whole-grid gang: each cluster, with the group instances that it meets (R29, R62). -/
def gridUnits (l : Launch) : List (List (List Nat)) :=
  if l.groups = [] then (gangClusters l (List.range l.nblk)).map ([·])
  else (((List.range l.nblk).map (unitOf l)).eraseDups).map (gangClusters l)

/-- Places a gang (R62); in a whole-grid gang each unit goes to one die, whole (R29; log 22). -/
def placeGang (r : Rules) (s : State) (k : Nat) (gang : List Nat) (ok : Nat → Bool) : Option State :=
  let l := launchAt s k
  if l.wholeGrid then
    ((gridUnits l).foldl (fun (r' : Option State) u => r'.bind fun s => (dieOrder s l ok).findSome? (gangOnDie r k u s))
      (some s)).bind fun s => gridBarriers r s k
  else (dieOrder s l ok).findSome? (gangOnDie r k (gangClusters l gang) s)

/-! ## Callee slots and dispatch queues (R30, R66) -/

/-- Units of the dispatch-queue reserve of a die in use. -/
def unitsOn (s : State) (die : Nat) : List Nat := s.launches.flatMap fun (_, l) => (l.dqs.filter (·.die == die)).map (·.unit)

/-- The lowest free unit of the reserve (R30, R206; log 21). -/
def freeUnit (s : State) (die : Nat) : Option Nat :=
  (List.range (splitOf s die).dq).find? fun u => !(unitsOn s die).contains u

/-- One callee slot on a die, off the slots to avoid: the quarter with the most free warp slots among those with
registers for it. -/
def placeCallee (avoid : List Nat) (s : State) (k die entry vreg : Nat) : Option State :=
  let qs := ((List.range 256).map (die * 256 + ·)).filter fun cq =>
    let core := cq / 4
    coreValid s core && !scrubHolds s (launchAt s k).asid core && !moveHolds s core &&
      ((List.range 16).any fun w => !(usedIn s cq).contains (cq * 16 + w) && !avoid.contains (cq * 16 + w)) &&
      vreg ≤ freeRegs s cq
  match (orderBy (freeSlots s) qs).head? with
  | none => none
  | some cq =>
    (((List.range 16).map (cq * 16 + ·)).find? fun w => !(usedIn s cq).contains w && !avoid.contains w).map fun w =>
      updLaunch s k fun l => { l with callee := l.callee ++ [{ die := die, entry := entry, key := w, vreg := vreg }] }

/-- The queue and the slots of one dispatch entry on one die; slots that it has already count. -/
def reserveEntry (avoid : List Nat) (k : Nat) (s : State) (de : Nat × Nat) : Option State :=
  let (die, e) := de
  match (launchAt s k).disp[e]? with
  | none => some s
  | some d =>
    match freeUnit s die with
    | none => none
    | some u =>
      let s := updLaunch s k fun l => { l with dqs := l.dqs ++ [{ die := die, unit := u, entry := e, head := 0, count := 0 }] }
      let have_ := ((launchAt s k).callee.filter fun c => c.die == die && c.entry == e).length
      (List.range (d.slots - have_)).foldl (fun r _ => r.bind fun s => placeCallee avoid s k die e d.vreg) (some s)

/-- Every callee reservation of a launch. -/
def reserveCallees (avoid : List Nat) (s : State) (k : Nat) : Option State :=
  let l := launchAt s k
  let des := ((List.range 4).filter (bitOf l.dieMask)).flatMap fun d => (List.range l.disp.length).map fun e => (d, e)
  (des.foldl (fun r de => r.bind fun s => reserveEntry avoid k s de) (some s)).map fun s =>
    updLaunch s k fun l => { l with calleeReserved := true }

/-- A gang with, when it is the first, the callee reservations of its launch. A hold keeps the blocks of a gang off a die,
not callee slots (DESIGN CHOICE, log 36). -/
def placeWithCallees (r : Rules) (s : State) (k : Nat) (gang : List Nat) (ok : Nat → Bool) : Option State :=
  (placeGang r s k gang ok).bind fun s =>
    if (launchAt s k).calleeReserved then some s else reserveCallees [] s k

/-! ## The idle device (R69) -/

/-- The package with every resource free, holding one launch; with unbounded dispatch reserves. -/
def idleState (s : State) (k : Nat) : State :=
  { s with blocks := [], barriers := [], warps := [], saved := [], moves := [], moveAsks := [],
           launches := (s.launches.select fun j _ => j == k).mapVals fun _ l =>
             { l with callee := [], dqs := [], calleeReserved := false },
           scrubReg := { s.scrubReg with sbusy := false },
           splits := s.splits.mapVals fun _ p => { p with dq := 255 } }

/-- The same with a dispatch reserve on every die. -/
def idleWide (s : State) (k : Nat) : State :=
  let t := idleState s k
  { t with splits := (List.range 4).foldl (fun (m : Tbl StoreSplit) d => m.put d { splitOf t d with dq := 255 }) t.splits }

/-- The gangs whose placement is tried on an idle device: all of one shape without groups. -/
def trialGangs (l : Launch) : List (List Nat) :=
  if l.wholeGrid ∨ l.groups = [] then [gangOf l 0]
  else (((List.range l.nblk).map (gangOf l)).eraseDups)

/-- TOOBIG: a gang has no place with every resource free. The code also stands for callee slots that do not fit beside the
gang (DESIGN CHOICE, log 37). -/
def tooBig (s : State) (k : Nat) : Bool :=
  let t := idleWide s k
  (trialGangs (launchAt s k)).any fun g => (placeWithCallees { sets := false } t k g fun _ => true).isNone

/-- POOL: a dispatch queue or a barrier set cannot be had on an idle device. -/
def poolShort (s : State) (k : Nat) : Bool :=
  let l := launchAt s k
  let t := idleWide s k
  ((List.range 4).any fun d => bitOf l.dieMask d && (splitOf s d).dq < l.disp.length) ||
    (trialGangs l).any fun g => (placeGang { sets := true } t k g fun _ => true).isNone

/-- COMPL is unmapped or unwritable. -/
def complBad (s : State) (l : Launch) : Bool :=
  match unitXlate s l.asid (l.word 11) .wr with
  | (s, .ok pa _) => peerDown s pa
  | _ => true

/-! ## Start of warps (R25, R63, R67) -/

/-- A warp at its start, before role, class and arguments. -/
def startWarp (s : State) (l : Launch) (k b key num : Nat) (slot : Nat) : Warp :=
  let core := key / 64
  { Warp.blank with
    core := core, quarter := key % 64 / 16, slot := key % 16, launch := k, block := b, num := num, ctx := slot,
    asid := l.asid, flags := startFlags (bitsOf (l.word 3) 11 4 * 16), mtgt := BitVec.ofNat 32 (core * 16 + (blockAt s b).slot),
    faddr := List.replicate 32 0, stkIdx := key, live := allLanes, lastRun := s.seq,
    sr := (Tbl.put (Tbl.put ([] : Tbl Word32) 0 (BitVec.ofNat 32 (l.word 7))) 1 (BitVec.ofNat 32 (l.word 7 / 2 ^ 32))) }

/-- The first header of a warp. -/
def entryAt (l : Launch) (off : Nat) : Word64 := l.kimg + BitVec.ofNat 64 off

/-- A warp of a block starts (R25). -/
def bootWarp (s : State) (b key num : Nat) : State :=
  let x := blockAt s b
  let l := launchAt s x.launch
  let slot := (slotOfAsid s l.asid).getD 0
  match l.role 0 with
  | none => s
  | some r =>
    let w := { startWarp s l x.launch b key num slot with
               cls := r.cls, msg := l.msg, allot := r.vreg, table := DivTable.start (entryAt l r.entry) allLanes }
    { s with warps := s.warps.put key w, seq := s.seq + 1 }

/-- The arrays of a block as it starts: tiles zero with every anchor AUTO, the rest zero since its resources were freed
(R276, R445). -/
def openArrays (s : State) (b : Nat) : State :=
  let x := blockAt s b
  x.tiles.foldl (fun s t => setTile s x.core t autoAnchor) s

/-- A placed block starts: its block barriers, its arrays, its warps. -/
def bootBlock (s : State) (b : Nat) : State :=
  let x := blockAt s b
  let l := launchAt s x.launch
  let s := addBarriers (openArrays s b) x.launch b .block l.barb x.warps.length x.warps
  (List.range x.warps.length).foldl (fun s n => bootWarp s b (x.warps.getD n 0) n) s

/-- Contracts of the range list take effect (R32, R33). -/
def openRanges (s : State) (k : Nat) : State :=
  let l := launchAt s k
  if l.admitted.isSome then s
  else
    let s := updLaunch { s with seq := s.seq + 1 } k fun l => { l with admitted := some s.seq }
    let l := launchAt s k
    (List.range l.ranges.length).foldl (fun s i =>
      match l.ranges[i]? with
      | none => s
      | some r =>
        let c : Contract :=
          { launch := k, asid := l.asid, ltag := BitVec.ofNat 32 (l.word 9), index := i, base := r.base, len := r.len,
            cls := r.cls, report := r.report, ntreq := r.ntreq, rank := contractRank l i, pinned := false, byReside := false,
            frames := contractFrames s l.asid r.base r.len, pinFrames := [], window := [], due := [] }
        { s with contracts := addContract s.contracts c }) s

/-- The lowest block of the gang that follows, or the block count (R57, R453). -/
def nextHead (l : Launch) (gang : List Nat) : Nat :=
  if l.wholeGrid then l.nblk
  else
    let after := (List.range l.nblk).find? fun b => l.next < b && !gang.contains b && (gangOf l b).head? == some b
    after.getD l.nblk

/-- A head gang is admitted. -/
def admitGang (s : State) (k : Nat) (gang : List Nat) : State :=
  let s := openRanges s k
  let bs := residents s k fun x => gang.contains x.linear
  let s := bs.foldl bootBlock s
  updLaunch s k fun l => { l with next := nextHead l gang, since := none, held := false }

end Sys2Proof.Machine
end

