-- ==== Sys2Proof/Machine/EvLaunch.lean ====
section
/-! DEFINITION. The events of launches: taking queue entries (R54 to R56, R69), placement decisions (R58, R59), the
forming of callee warps (R67), retirement (R444), host termination (R70), and writes of the queue registers. -/

namespace Sys2Proof.Machine

/-! ## Taking an entry (R56, R69) -/

/-- Every block of the launches taken from a queue has been admitted. -/
def allAdmitted (s : State) (q : Nat) : Bool := s.launches.all fun (_, l) => l.queue != q || decide (l.nblk ≤ l.next)

/-- The launch of the previous entry has ended. -/
def lastEnded (s : State) (r : LQueue) : Bool :=
  match r.last with | some k => (s.launches.find? k).isNone | none => true

/-- A die of a launch has a store-split request pending (R207). -/
def splitPends (s : State) (l : Launch) : Bool := (List.range 4).any fun d => bitOf l.dieMask d && (splitOf s d).apply

/-- The entry at LQHEAD is consumed; the launch taken from it, if it was not rejected, is the queue's last. -/
def consumeEntry (s : State) (q : Nat) (last : Option Nat) : State :=
  let r := queueOf s q
  setQueue s q { r with head := r.head + 1, last := last }

/-- A launch error (R69): the completion word carries STATUS 3 when the record is known and COMPL can be written. -/
def rejectEntry (s : State) (q code : Nat) (l : Option Launch) : State :=
  let s := match l with
    | some l => if code = 5 ∨ badAddr (l.word 11) 8 = true then s else (writeCompletion s l 3).1
    | none => s
  notifyHost (queueError (consumeEntry s q none) q code)

/-- The first of the codes 1, 3, 4 and 5 that rejects a launch held under a number. -/
def launchError (s : State) (k : Nat) (t : LaunchText) : Option Nat :=
  if launchMalformed t then some 1
  else if tooBig s k then some 3
  else if poolShort s k then some 4
  else if complBad s t.l then some 5
  else none

/-- A launch that has been read is taken or rejected. -/
def takeLaunch (s : State) (q : Nat) (t : LaunchText) : State :=
  let k := s.nextId
  let s' := { s with launches := s.launches.put k t.l, nextId := k + 1 }
  match launchError s' k t with
  | some c => rejectEntry s q c (some t.l)
  | none => consumeEntry s' q (some k)

/-- LQ_ENTRY_TAKE (R56). While a split request of a die that the record names is pending, the entry is not taken, whatever
its record holds (R207). -/
def takeEntry (s : State) (q : Nat) : State :=
  let r := queueOf s q
  if !r.enable || r.head == r.tail || !allAdmitted s q then s
  else
    match unitReadNat s r.asid (r.base.toNat + 8 * (r.head.toNat % 2 ^ r.log2n)) 8 with
    | (s, none) => rejectEntry s q 2 none
    | (s1, some e) =>
      if bitOf e 0 && !lastEnded s r then s
      else
        let bad := bitsOf e 6 1 != 0
        match readLaunch s1 q r.asid r.prio (e / 128 * 128) (bitOf e 0) with
        | (s2, .noRecord) => rejectEntry s2 q (if bad then 6 else 2) none
        | (s2, .noTables l) => if splitPends s l then s else rejectEntry s2 q (if bad then 6 else 2) (some l)
        | (s2, .ok t) =>
          if splitPends s t.l then s
          else if bad then rejectEntry s2 q 6 (some t.l)
          else takeLaunch s2 q t

/-- LQ_ENTRY_TAKE. -/
def execLqEntryTake (q : Nat) (s : State) : Host.Outcome State Fault Refusal := .next (takeEntry s q)

/-! ## Placement decisions (R58, R59) -/

/-- The context of a launch runs, or is being resumed: a context that is pre-empted admits nothing (R398, R453). -/
def contextRuns (s : State) (l : Launch) : Bool :=
  match slotOfAsid s l.asid with
  | some c => (ctxOf s c).state == 0 || (ctxOf s c).state == 3
  | none => false

/-- The launch has a head gang, which is still to be placed. -/
def Launch.headLeft (l : Launch) : Bool := !l.terminated && decide (l.next < l.nblk)

/-- The launch has a head gang that may be considered (R58). -/
def hasHead (s : State) (l : Launch) : Bool := l.headLeft && contextRuns s l

/-- Launches with a head gang, by PRIO and then by the order in which their entries were taken. -/
def headOrder (s : State) : List Nat :=
  let ks := (s.launches.select fun _ l => hasHead s l).keys
  (List.range 48).reverse.flatMap fun p => ks.filter fun k => Nat.min (launchAt s k).prio 47 == p

/-- Of two held gangs, a became held no later than b. -/
def heldBefore (s : State) (a b : Nat) : Bool :=
  let x := ((launchAt s a).since).getD 0
  let y := ((launchAt s b).since).getD 0
  x < y || (x == y && a ≤ b)

/-- Held launches, earliest first. -/
def heldOrder (s : State) (ks : List Nat) : List Nat :=
  let hs := ks.filter fun k => (launchAt s k).held
  hs.foldl (fun r k => r.takeWhile (fun j => heldBefore s j k) ++ k :: r.dropWhile (fun j => heldBefore s j k)) []

/-- The places of held gangs in the order are taken by the held gangs, earliest held first (R59). -/
def considerOrder (s : State) : List Nat :=
  let ks := headOrder s
  (ks.foldl (fun (out, hs) k =>
    if (launchAt s k).held then
      (match hs with | h :: rest => (out ++ [h], rest) | [] => (out ++ [k], hs))
    else (out ++ [k], hs)) (([] : List Nat), heldOrder s ks)).1

/-- A hold of another gang keeps a launch off a die until that gang is placed, whatever the state of its context (R59; between
held gangs of one PRIO the earlier goes first, DEDUCED, log 26). -/
def heldOff (s : State) (k d : Nat) : Bool :=
  let x := launchAt s k
  s.launches.any fun (j, h) =>
    j != k && h.held && h.headLeft && bitOf h.dieMask d &&
      (decide (x.prio < h.prio) || (x.prio == h.prio && !(x.held && heldBefore s k j)))

/-- Tries the head gangs in order: the first that can be placed is admitted; those passed over have been considered. -/
def decide1 : List Nat → State → State
  | [], s => s
  | k :: ks, s =>
    let gang := gangOf (launchAt s k) (launchAt s k).next
    match placeWithCallees { sets := true } s k gang fun d => !heldOff s k d with
    | some s => admitGang s k gang
    | none => decide1 ks (updLaunch s k fun l => { l with since := some (l.since.getD s.now) })

/-- PLACEMENT_DECISION (R58). -/
def execPlacementDecision (s : State) : Host.Outcome State Fault Refusal := .next (decide1 (considerOrder s) s)

/-- GUARD in ns, held to its range (R59). -/
def guardNs (s : State) : Nat := 1000 * Nat.max 10 (Nat.min s.guard.toNat 1000000)

/-- The clock moves on to a time, never back. -/
def setNow (s : State) (t : Nat) : State := { s with now := Nat.max s.now t }

/-- GANG_HELD (R59). -/
def execGangHeld (k t : Nat) (s : State) : Host.Outcome State Fault Refusal :=
  .next (
    let s := setNow s t
    updLaunch s k fun l =>
      match l.since with
      | some t0 => if t0 + guardNs s ≤ s.now then { l with held := true } else l
      | none => l)

/-! ## Callee warps (R67) -/

/-- A reserved slot that holds no warp. -/
def calleeFree (s : State) (c : CalleeSlot) : Bool :=
  (s.warps.find? c.key).isNone && (s.blocks.find? (calleeBase + c.key)).isNone && !movingCore s (c.key / 64)

/-- The queue that forms a warp next: the fullest with a free slot, ties to the lower entry. -/
def formingQueue (s : State) (k die : Nat) : Option (DQueue × CalleeSlot) :=
  let l := launchAt s k
  let cand := l.dqs.filterMap fun d =>
    if d.die = die ∧ d.count ≠ 0 then
      (l.callee.find? fun c => c.die == die && c.entry == d.entry && calleeFree s c).map fun c => (d, c)
    else none
  cand.foldl (fun best x =>
    match best with
    | none => some x
    | some y =>
      if y.1.count < x.1.count ∨ (y.1.count = x.1.count ∧ x.1.entry < y.1.entry) then some x
      else some y) none

/-- A slot's ordinal among those reserved for its entry on its die (DEDUCED, log 26). -/
def slotOrdinal (l : Launch) (c : CalleeSlot) : Nat :=
  ((l.callee.filter fun x => x.die == c.die && x.entry == c.entry).findIdx? (·.key == c.key)).getD 0

/-- Payload word k of an item. -/
def itemWord (item : List Byte) (k : Nat) : Word32 := BitVec.ofNat 32 (leNat ((item.drop (4 * k)).take 4))

/-- V0 to V3 of a callee warp. -/
def payloadRegs (items : List (List Byte)) : Tbl Row :=
  (List.range 4).map fun k => (k, (List.range 32).map fun l => itemWord (items.getD l []) k)

/-- The lanes 0 to n - 1. -/
def lowLanes (n : Nat) : Lanes := laneMask fun l => decide (l < n)

/-- Forms one callee warp. Its start is an acquire at die scope (R119, R337). -/
def formCallee (s : State) (k die : Nat) : State :=
  match formingQueue s k die with
  | none => s
  | some (d, c) =>
    let l := launchAt s k
    match l.disp[d.entry]? with
    | none => s
    | some e =>
      let n := Nat.min 32 d.count
      let (s, items) := queueItems s d n
      let b := calleeBase + c.key
      let core := c.key / 64
      let blk : Block := { Block.blank with launch := k, linear := d.entry, core := core, warps := [c.key] }
      let slot := (slotOfAsid s l.asid).getD 0
      let x := startWarp s l k b c.key (slotOrdinal l c) slot
      let m := lowLanes n
      let x : Warp := { x with
        item := some d.entry, cls := e.cls, allot := e.vreg, live := m, mtgt := BitVec.ofNat 32 (core * 16),
        v := payloadRegs items, table := DivTable.start (entryAt l e.entry) m }
      let s := updLaunch s k fun l => { l with dqs := l.dqs.map fun q =>
        if q.die = die ∧ q.entry = d.entry then q.drop n else q }
      acquireScope { s with blocks := s.blocks.put b blk, warps := s.warps.put c.key x, seq := s.seq + 1 } core .die

/-- CALLEE_WARP_FORM (R67); a context that does not run forms none. -/
def execCalleeWarpForm (k : Nat) (die : Fin 4) (s : State) : Host.Outcome State Fault Refusal :=
  .next (if contextRuns s (launchAt s k) then formCallee s k die.val else s)

/-! ## Retirement, termination, registers: the host's writes follow its earlier posted ones (R233) -/

/-- BLOCK_RETIRE (R444). -/
def execBlockRetire (b : Nat) (s : State) : Host.Outcome State Fault Refusal := .next (retireBlock s b)

/-- LQCONFIG_WRITE (R54). -/
def execLqConfigWrite (q : Nat) (v : BitVec 64) (s : State) : Host.Outcome State Fault Refusal :=
  .next (writeLqConfig (drainHost s) (q % 256) v.toNat)

/-- LQBASE_WRITE (R54). -/
def execLqBaseWrite (q : Nat) (v : BitVec 64) (s : State) : Host.Outcome State Fault Refusal :=
  .next (writeLqBase (drainHost s) (q % 256) v)

/-- LQTAIL_WRITE (R55). -/
def execLqTailWrite (q : Nat) (v : BitVec 32) (s : State) : Host.Outcome State Fault Refusal :=
  .next (writeLqTail (drainHost s) (q % 256) v)

/-- TERM (R70). -/
def execTerm (q : Nat) (s : State) : Host.Outcome State Fault Refusal := .next (terminateQueue (drainHost s) (q % 256))

end Sys2Proof.Machine
end

