-- ==== Sys2Proof/Machine/EvStore.lean ====
section
/-! DEFINITION. The events of translation and of the memory-side store (R191, R200 to R218, R447), of banks (R251) and
of leases (R355 to R357). -/

namespace Sys2Proof.Machine

/-! ## Translation and contexts: the host's writes follow its earlier posted ones (R233) -/

/-- PAGE_WALK (R191): a walk for a core fills its TLBs and sets A, and D for a write. -/
def execPageWalk (core asid va : Nat) (write : Bool) (s : State) : Host.Outcome State Fault Refusal :=
  .next (match slotOfAsid s asid with
    | some slot =>
      if va < 2 ^ 52 then (xlateWalk s (core % 256) slot asid va (if write then .wr else .rd) false).1 else s
    | none => s)

/-- FRESUME (R201). -/
def execFresume (slot : Nat) (seq : BitVec 32) (s : State) : Host.Outcome State Fault Refusal :=
  .next (resumeHostFault (drainHost s) (slot % 64) seq.toNat)

/-- FRTAIL_WRITE (R200). -/
def execFrtailWrite (slot : Nat) (v : BitVec 32) (s : State) : Host.Outcome State Fault Refusal :=
  .next (writeFrTail (drainHost s) (slot % 64) v)

/-- DEPOCH (R203). -/
def execDepoch (slot : Nat) (s : State) : Host.Outcome State Fault Refusal := .next (beginHarvest (drainHost s) (slot % 64))

/-- HARVEST_EPOCH_COMPLETE (R203). -/
def execHarvestEpochComplete (slot : Nat) (s : State) : Host.Outcome State Fault Refusal :=
  .next (completeHarvest s (slot % 64))

/-- CONTEXT_END (R447). -/
def execContextEnd (slot : Nat) (s : State) : Host.Outcome State Fault Refusal :=
  .next (
    let s := drainHost s
    if (ctxOf s (slot % 64)).valid then endContext s (slot % 64) else s)

/-! ## The store split (R206, R207) -/

/-- APPLY (R206): a write of the request register with APPLY 1. -/
def execApply (die : Fin 4) (v : BitVec 64) (s : State) : Host.Outcome State Fault Refusal :=
  .next (writeSplit (drainHost s) die.val (v ||| 1).toNat)

/-- APPLY_WITHDRAW (R207). -/
def execApplyWithdraw (die : Fin 4) (s : State) : Host.Outcome State Fault Refusal :=
  .next (
    let s := drainHost s
    if (splitOf s die.val).apply then writeSplit s die.val 0 else s)

/-- Nothing is left on a die (R207). -/
def quiescent (s : State) (die : Nat) : Bool :=
  !(s.blocks.any fun (_, b) => coreDie b.core == die) && !(s.warps.any fun (_, w) => coreDie w.core == die) &&
    !(s.cards.any fun (_, c) => coreDie c.core == die) && !(s.launches.any fun (_, l) => bitOf l.dieMask die)

/-- The requested fields in force. -/
def StoreSplit.install (p : StoreSplit) : StoreSplit :=
  { p with apply := false, cache := if p.npin = 0 ∧ p.nkv = 0 then 16 else p.ncache, pin := p.npin, kv := p.nkv,
           lock := p.nlock, esz := p.nesz, dq := p.ndq }

/-- A class-0x8 address of a die that the change of split does not keep: only unlocked pinned bytes that stay below the new
unlocked size are kept (R207). -/
def dropsPinned (p : StoreSplit) (die a : Nat) : Bool :=
  let lo := 8 * 2 ^ 48 + die * 2 ^ 46
  lo + Nat.min (p.pin - p.lock) (p.npin - p.nlock) * 2 ^ 26 ≤ a && a < lo + 2 ^ 46

/-- Every line of a die that its store holds is written back and invalidated. -/
def emptyStore (s : State) (die : Nat) : State :=
  ((s.lines.filter fun l => dieOf (l.line * 128) == die).map (·.line)).foldl dropLine s

/-- Applies a pending split to a quiescent die: lines written back and dropped, key-value entries dropped, pinned lines
beyond the new unlocked size zeroed. -/
def applySplit (s : State) (die : Nat) : State :=
  let p := splitOf s die
  if p.apply && quiescent s die then
    let s := emptyStore s die
    { s with kv := s.kv.filter fun k => k.die != die,
             mem := List.filter (fun x => !dropsPinned p die x.1) s.mem,
             sectors := List.filter (fun x => !dropsPinned p die (x.1 * 64)) s.sectors,
             splits := s.splits.putD .reset die p.install }
  else s

/-- SPLIT_APPLIED (R207). -/
def execSplitApplied (die : Fin 4) (s : State) : Host.Outcome State Fault Refusal := .next (applySplit s die.val)

/-! ## At the home slice (R208 to R218) -/

/-- A line request is served at its home; a write request carries an empty byte mask. -/
def serveLine (s : State) (core : Option Nat) (pa : Nat) (write : Bool) (nl : Nat) : State :=
  if !storedAt s pa then s
  else if write then maskedSector s core (pa / 64) (List.replicate 64 none) nl 2
  else (readSector s core (pa / 64 * 64) 64 nl 2).1

/-- A request whose generation is not the current one is rejected without effect: the core counts it, translates again under
the current generation and sends it again (R195). -/
def resendLine (s : State) (t : HomeTag) (write : Bool) : State :=
  let s := { s with genReplays := s.genReplays.put t.core (s.genReplays.getD 0 t.core + 1) }
  match xlate s (t.core % 256) t.asid t.va (if write then .wr else .rd) true with
  | (s, .ok pa e) => serveLine s (some (t.core % 256)) pa write (leafNl e)
  | (s, _) => s

/-- HOME_ACCESS (R195, R209, R210, R230): a line request of a core under its tag, or of an agent that carries none. A tag that
names no valid context slot is rejected, and a core of a stopped island sends nothing (R435). -/
def execHomeAccess (pa : Nat) (req : LineRequest) (nl : Fin 8) (s : State) : Host.Outcome State Fault Refusal :=
  .next (match req.tag with
    | none => serveLine s none pa req.write nl.val
    | some t =>
      match slotOfAsid s t.asid, coreRuns s (t.core % 256) with
      | none, _ | _, false => s
      | some slot, true =>
        if (ctxOf s slot).gen.toNat = t.gen then serveLine s (some (t.core % 256)) pa req.write nl.val
        else resendLine s t req.write)

/-- HBM_FILL (R208): the line is brought into the cache partition. -/
def execHbmFill (line : Nat) (s : State) : Host.Outcome State Fault Refusal :=
  .next (if storedAt s (line * 128) && !heldAt s line then (touchLine s (line * 128) 0).1 else s)

/-- R216's condition on the counts of a window: KIND when a report is due. -/
def windowReport (cls : Reuse) (accesses misses : Nat) : Option Nat :=
  let hits := accesses - misses
  match cls with
  | .none | .streaming => if 32768 ≤ hits then some 1 else none
  | .low => if 61440 ≤ misses then some 0 else if misses ≤ 4096 then some 1 else none
  | .high => if 16384 ≤ misses then some 0 else none

/-- The code of a reuse class. -/
def Reuse.toCode : Reuse → Nat
  | .none => 0 | .low => 1 | .high => 2 | .streaming => 3

/-- The 32 bytes of a contract report (R217). -/
def reportBytes (c : Contract) (die kind misses now : Nat) : List Byte :=
  leBytes 8 (packFields [(c.ltag.toNat, 32), (c.index % 64, 26), (Reuse.toCode c.cls, 24), (die, 22), (kind, 21), (c.asid, 0)]) ++
    leBytes 8 misses ++ leBytes 8 now ++ leBytes 8 0

/-- Writes a record to a context's contract-report ring (R217). -/
def writeReport (s : State) (slot : Nat) (b : List Byte) : State :=
  let c := ctxOf s slot
  let size := 2 ^ ringLog c.crlog
  if (c.crhead - c.crtail).toNat = size then
    updCtx s slot fun c => { c with crlost := Nat.min (c.crlost + 1) (2 ^ 32 - 1) }
  else
    updCtx (drainEgress (deviceWrite s (c.crbase * 4096 + 32 * (c.crhead.toNat % size)) b)) slot fun c => { c with crhead := c.crhead + 1 }

/-- The oldest full window of a contract, named by its rank, on a die is judged (R216). -/
def endWindow (s : State) (rank die : Nat) : State :=
  match s.contracts.find? fun c => c.rank == rank with
  | none => s
  | some c =>
    match c.due.find? (·.1 == die) with
    | none => s
    | some w =>
      let s := { s with contracts := s.contracts.map fun k => if k.rank = rank then { k with due := k.due.erase w } else k }
      match windowReport c.cls windowSize w.2, slotOfAsid s c.asid with
      | some kind, some slot => writeReport s slot (reportBytes c die kind w.2 s.now)
      | _, _ => s

/-- MISS_RATIO_WINDOW_END (R216). -/
def execMissRatioWindowEnd (rank : Nat) (die : Fin 4) (s : State) : Host.Outcome State Fault Refusal :=
  .next (endWindow s rank die.val)

/-- HOME_ATOMIC (R218): an atomic executes at a line's home, under the line's own layout (log 19); poison there is left
as it is (R261). -/
def execHomeAtomic (core pa : Nat) (op : AtomOp) (sz : MSize) (x : BitVec 64) (s : State) :
    Host.Outcome State Fault Refusal :=
  .next (
    if !storedAt s pa || pa % sz.bytes != 0 || !op.sizes.contains sz || !coreRuns s (core % 256) then s
    else
      let e := s.sectors.getD .clean (pa / 64)
      let nl := if e.nl = 8 then 0 else e.nl
      let s := chargeHome (reachHome s (some (core % 256)) pa) (core % 256) pa
      let (s, d) := readSector s (some (core % 256)) pa sz.bytes nl 2
      if d.isPoison then s
      else uncounted s (writeSector s (some (core % 256)) pa (leBytes sz.bytes (atomValue op sz (leNat d.data) x.toNat)) nl 2))

/-- KV_OP_AT_HOME (R215). -/
def execKvOpAtHome (asid : Nat) (die : Fin 4) (op : KvOp) (s : State) : Host.Outcome State Fault Refusal :=
  .next (match op with
    | .find key => if keyDie key = die.val then (kvFind s asid key).1 else s
    | .put key pin => if keyDie key = die.val then (kvPut s asid key pin).1 else s
    | .drop key => if keyDie key = die.val then (kvDrop s asid key).1 else s
    | .dropTensor t => (kvDropTensor s asid die.val t).1)

/-! ## Banks (R251): nine banks and one spare to an array, bank k belonging to array k / 9 -/

/-- The array has its spare in use. -/
def spareUsed (s : State) (array : Nat) : Bool := s.banks.any fun (k, b) => k / 9 == array && b.spared

/-- BANK_FAILED (R251): a bank with 16 errors is counted and notified; it is served by rebuilding from now on. -/
def execBankFailed (k : Nat) (s : State) : Host.Outcome State Fault Refusal :=
  .next (if (bankOf s k).failed || decide (bankErrors s k < 16) then s else declareBank s k)

/-- What a row's banks hold once bank b has been copied into the spare: its word is rebuilt unless another bank of the row is down
(R250, R251). -/
def rebuiltFlips (s : State) (row b : Nat) : List Nat :=
  if (List.range 9).any fun c => c != b && bankDown s row c then rowFlips s row
  else (rowFlips s row).filter fun f => f / 72 != b

/-- SPARE_SUBSTITUTE (R251): one spare to an array, which holds the failed bank's rebuilt contents. -/
def execSpareSubstitute (k : Nat) (s : State) : Host.Outcome State Fault Refusal :=
  .next (
    let b := bankOf s k
    if b.failed && !b.spared && !spareUsed s (k / 9) then
      { setBank s k { errors := [], failed := false, spared := true } with
          bspare := Nat.min (s.bspare + 1) (2 ^ 32 - 1),
          rowErrors := s.rowErrors.filterMap fun (r, fs) =>
            let fs := if arrayOfRow r = k / 9 then rebuiltFlips s r (k % 9) else fs
            if fs.isEmpty then none else some (r, fs) }
    else s)

/-! ## Leases (R355 to R357) -/

/-- The lease on a line. -/
def leaseOn (s : State) (line : Nat) : Option Lease := s.leases.find? fun l => l.line == line

/-- A holder has room for a lease on a line: a core in its placement entry and in its first level; a peer package, which is
holder 256 + PKG, sees to that itself. -/
def holderRoom (s : State) (core line : Nat) : State × Bool :=
  if 256 ≤ core then (s, true)
  else if (placeOf s (placeIdx core (line * 128))).lease.isSome then (s, false)
  else leaseRoom s core line

/-- An agent's accesses reach a home: a peer's, or those of a core whose island is not stopped (R435). -/
def agentRuns (s : State) (core : Nat) : Bool := decide (256 ≤ core) || coreRuns s core

/-- LEASE_GRANT (R356): nothing else holds the line, and the holder has room. A peer leases lines of this package alone. -/
def execLeaseGrant (core line : Nat) (s : State) : Host.Outcome State Fault Refusal :=
  .next (
    let pa := line * 128
    let core := core % 384
    if (leaseOn s line).isNone && agentRuns s core && (storedAt s pa || (classOf pa == 12 && decide (core < 256))) then
      match holderRoom s core line with
      | (s, true) => grantLease (reachHome s (some core) pa) core line
      | (s, false) => s
    else s)

/-- The holder ends a lease: what it holds of the line is written back. -/
def giveUpLease (s : State) (line : Nat) (how : LeaseEnd) : State :=
  match leaseOn s line with
  | some l => endLease (flushLine s l.core line) line how
  | none => s

/-- LEASE_END (R356): the holder writes the line back. -/
def execLeaseEnd (core line : Nat) (s : State) : Host.Outcome State Fault Refusal :=
  .next (if (leaseOn s line).map (·.core) = some core then giveUpLease s line .expired else s)

/-- LEASE_RECALL (R356): an access of another agent. -/
def execLeaseRecall (core line : Nat) (s : State) : Host.Outcome State Fault Refusal :=
  .next (if (leaseOn s line).map (·.core) = some core ∨ agentRuns s core = false then s else giveUpLease s line .recalled)

/-- Lost-lease poison: the line has its value of the grant, and every sector is GRADE 3 (R357). That of a peer's line is counted
and told at its own home. -/
def loseLease (s : State) (l : Lease) : State :=
  let pa := l.line * 128
  let held := heldAt s l.line
  let s := endLease { s with mem := s.mem.setBytes pa l.granted } l.line .expired
  let s := l1Drop s l.core l.line
  let mark (s : State) (k : Nat) : State :=
    let e := s.sectors.getD .clean k
    setSector s k { nl := if e.nl = 8 then 0 else e.nl, flips := [], mark := true }
  let s := mark (mark s (2 * l.line)) (2 * l.line + 1)
  if classOf pa = 12 then s else countGrade s (dieOf pa) (countClass pa held) 0 3

/-- LEASE_EXPIRY (R357). -/
def execLeaseExpiry (line : Nat) (s : State) : Host.Outcome State Fault Refusal :=
  .next (match leaseOn s line with | some l => loseLease s l | none => s)

end Sys2Proof.Machine
end

