-- ==== Sys2Proof/Machine/EvNet.lean ====
section
/-! DEFINITION. The events of the package network (R223 to R231, R238, R239), of the host link (R232 to R234, R455) and of
the domain (R236, R237, R355). -/

namespace Sys2Proof.Machine

/-! ## Drop and replay (R224 to R226, R230) -/

/-- NET_ENTRY_RECEIVE (R224, R226, R230). -/
def execNetEntryReceive (k : Nat) (room crcOk : Bool) (idErr : Fin 3) (s : State) : Host.Outcome State Fault Refusal :=
  .next (receiveHead s k room crcOk idErr.val)

/-- The refused entry and every later one of its window are sent again, in order, with their original bits (R225, R239). -/
def resendWindow (s : State) (k : Nat) (c : Chan) : State :=
  let (s, w) := c.window.foldl (fun (r : State × List NetEntry) e =>
    let (s, e) := sendEntry r.1 c.links e
    (s, r.2 ++ [e])) (s, [])
  { s with chans := s.chans.put k { c with wait := none, window := w } }

/-- NET_RESEND (R225): the wait is over. -/
def execNetResend (k : Nat) (s : State) : Host.Outcome State Fault Refusal :=
  .next (match s.chans.find? k with
    | some c => if c.wait.isSome then resendWindow (takeTurn s k) k { c with turn := s.seq } else s
    | none => s)

/-- NET_ACK_TIMEOUT (R225): the entry counts as refused. -/
def execNetAckTimeout (k : Nat) (s : State) : Host.Outcome State Fault Refusal :=
  .next (match s.chans.find? k with
    | some c => if c.wait.isNone && !c.window.isEmpty then refuseHead (takeTurn s k) k else s
    | none => s)

/-! ## Deadlock and the escape class (R227, R228) -/

/-- The head of a channel stands in an input buffer and cannot move: it is not lost, its sender does not wait to send it again, and
it is in no escape buffer, where no packet waits in a cycle (R227, R228). -/
def Chan.stuck (c : Chan) : Bool :=
  match c.window with
  | e :: _ => !e.lost && c.wait.isNone && !c.escape
  | [] => false

/-- DEADLOCK_PROBE (R227). -/
def execDeadlockProbe (k : Nat) (s : State) : Host.Outcome State Fault Refusal :=
  .next { s with chans := s.chans.modify k fun c => if c.stuck then { c with probing := true } else c }

/-- One synchronised step of a cycle of packets that stand in different places: each takes the place that the next one vacates. -/
def stepCycle (s : State) (ks : List Nat) : State :=
  let cs := ks.filterMap s.chans.find?
  let places := cs.map (·.place)
  if cs.length = ks.length ∧ (cs.all Chan.stuck && (places.eraseDups == places)) = true then
    fillEscape ((ks.zip (places.drop 1 ++ places.take 1)).foldl (fun s (k, p) =>
      { s with chans := s.chans.modify k fun c => { c with place := p, steps := c.steps + 1 } }) s)
  else s

/-- PROBE_RETURN (R227): the packets on the cycle move; sequence numbers stay. -/
def execProbeReturn (k : Nat) (cycle : List Nat) (s : State) : Host.Outcome State Fault Refusal :=
  .next (match s.chans.find? k with
    | some c =>
      if c.probing then
        let s := { s with chans := s.chans.modify k fun c => { c with probing := false } }
        stepCycle s (k :: cycle).eraseDups
      else s
    | none => s)

/-- PROBE_LOST (R227). -/
def execProbeLost (k : Nat) (s : State) : Host.Outcome State Fault Refusal :=
  .next { s with chans := s.chans.modify k fun c => { c with probing := false } }

/-- NET_CONTROL_WRITE (R223), after the host's earlier posted writes. -/
def execNetControlWrite (off : Nat) (v : BitVec 64) (s : State) : Host.Outcome State Fault Refusal :=
  .next (writeNetReg (drainHost s) off v.toNat)

/-! ## Link error injectors (R238, R239) -/

/-- INJECTOR_ARM (R239), after the host's earlier posted writes. -/
def execInjectorArm (i : Nat) (s : State) : Host.Outcome State Fault Refusal :=
  .next (let s := drainHost s; if i < 24 then armInjector s i else s)

/-- INJECTOR_FIRE (R239): the flit at which COUNT reaches NTH is the head of a channel that is sent again over link i. A flit that is
sent for the first time meets the injector in the step of its word. -/
def execInjectorFire (i k : Nat) (s : State) : Host.Outcome State Fault Refusal :=
  .next (
    let j := injectorOf s i
    match s.chans.find? k with
    | some c =>
      if j.arm && j.count + 1 == j.nth && c.wait.isSome && c.links.contains i then
        resendWindow (takeTurn s k) k { c with turn := s.seq }
      else s
    | none => s)

/-! ## The host link (R232, R233) -/

/-- HOST_POSTED_WRITE (R233): with the relaxed-ordering attribute it is not held; any other write waits until the
earlier ones are performed. -/
def execHostPostedWrite (off : Nat) (data : List Byte) (relaxed : Bool) (s : State) :
    Host.Outcome State Fault Refusal :=
  .next (
    let h : HostWrite := { pa := barTwo s off, data := data, relaxed := relaxed }
    if relaxed then performHostWrite s h else { s with hostWrites := s.hostWrites ++ [h] })

/-- Free bytes (log 8). -/
def freshBytes : Nat → State → State × List Byte
  | 0, s => (s, [])
  | n + 1, s =>
    let (w, s) := freshWord s
    let (s, bs) := freshBytes n s
    (s, BitVec.ofNat 8 w.toNat :: bs)

/-- What a BAR2 read returns of one sector: all ones where nothing is stored; what poison reads as is not stated. -/
def hostReadPart (s : State) (p n : Nat) : State × List Byte :=
  if storedAt s p then
    let (s, d) := readSector s none p n (hostNl s p) 2
    if d.isPoison then freshBytes n s else (s, d.data)
  else if classOf p = 8 then (s, List.replicate n 0)
  else (s, List.replicate n 0xFF)

/-- A read through BAR2. -/
def hostReadMem (s : State) (off n : Nat) : State × List Byte :=
  (sectorParts (barTwo s off) n).foldl (fun (s, bs) (p, k) => let (s, b) := hostReadPart s p k; (s, bs ++ b)) (s, [])

/-- Where host reads of BAR0 begin in the numbering of HOST_READ: BAR2 offsets lie below it. -/
def barZero : Nat := 2 ^ 40

/-- HOST_READ (R233): it completes after every earlier posted write. -/
def execHostRead (off n : Nat) (s : State) : Host.Outcome State Fault Refusal :=
  .next (
    let s := drainHost s
    let (s, bs) := if off < barZero then hostReadMem s off n else (s, leBytes n (devRead s (off - barZero) n))
    { s with replies := s.replies ++ [{ off := off, data := bs }] })

/-- DEVICE_REGISTER_ACCESS (R455): a write by the host, after its earlier posted writes. -/
def execDeviceRegisterAccess (off size : Nat) (v : BitVec 128) (s : State) :
    Host.Outcome State Fault Refusal :=
  .next (devWrite (drainHost s) true off size v.toNat)

/-- HOST_EGRESS (R234): the oldest write leaves, and is performed in host memory. -/
def execHostEgress (s : State) : Host.Outcome State Fault Refusal := .next (egressOne s)

/-! ## The domain (R236, R237, R355) -/

/-- The local ASID under which an admission entry lets a remote address space in (R237). An entry whose context slot is not
valid supplies none and admits nothing (DESIGN CHOICE, log 41). -/
def admittedAs (s : State) (pkg asid : Nat) : Option Nat :=
  (List.range 256).findSome? fun i =>
    let e := (s.admitRegs.getD 0 i).toNat
    let c := ctxOf s (bitsOf e 37 32)
    if bitOf e 0 && bitsOf e 63 48 == asid && bitsOf e 46 40 == pkg && c.valid then some c.asid else none

/-- The local place of a class-0xC address (R236). -/
def peerLocal (pa : Nat) : Nat :=
  let die := bitsOf pa 39 38
  let off := bitsOf pa 36 0
  if bitOf pa 37 then 8 * 2 ^ 48 + die * 2 ^ 46 + off else die * 2 ^ 48 + off

/-- The layout that a sector has, under which a peer's access goes (log 13). -/
def ownNl (s : State) (pa : Nat) : Nat := let e := s.sectors.getD .clean (pa / 64); if e.nl = 8 then 0 else e.nl

/-- A peer reads bytes. -/
def peerRead (s : State) (who p n : Nat) : State × List Byte :=
  (sectorParts p n).foldl (fun (s, bs) (q, k) =>
    if storedAt s q then
      let (s, d) := readSector s (some who) q k (ownNl s q) 2
      (s, bs ++ d.data)
    else (s, bs ++ List.replicate k 0)) (s, [])

/-- A peer writes bytes. -/
def peerWrite (s : State) (who p : Nat) (bs : List Byte) : State :=
  (sectorParts p bs.length).foldl (fun s (q, n) =>
    if storedAt s q then writeSector s (some who) q ((bs.drop (q - p)).take n) (ownNl s q) 2 else s) s

/-- A peer's atomic executes at home (R218); poison is left as it is (R261). -/
def peerAtomic (s : State) (who p : Nat) (op : AtomOp) (sz : MSize) (x : BitVec 64) : State × List Byte :=
  if !storedAt s p || p % sz.bytes != 0 || !op.sizes.contains sz then (s, [])
  else
    let (s, d) := readSector s (some who) p sz.bytes (ownNl s p) 2
    if d.isPoison then (s, d.data)
    else
      (uncounted s (writeSector s (some who) p (leBytes sz.bytes (atomValue op sz (leNat d.data) x.toNat)) (ownNl s p) 2), d.data)

/-- A peer's compare-and-swap executes at home (R262). -/
def peerCas (s : State) (who p : Nat) (sz : MSize) (old new : BitVec 64) : State × List Byte :=
  let n := sz.bytes
  if !storedAt s p || p % n != 0 || !(sz == .b32 || sz == .b64) then (s, [])
  else
    let (s, d) := readSector s (some who) p n (ownNl s p) 2
    if d.isPoison || leNat d.data != old.toNat % 2 ^ (8 * n) then (s, d.data)
    else (uncounted s (writeSector s (some who) p (leBytes n new.toNat) (ownNl s p) 2), d.data)

/-- A peer asks for a lease: it is granted with the line's data when nothing else holds one (R356). -/
def peerLease (s : State) (who p : Nat) : State × List Byte :=
  if (leaseOn s (p / 128)).isSome || !storedAt s p then (s, [])
  else
    let s := reachHome s (some who) p
    (grantLease s who (p / 128), s.mem.bytes (p / 128 * 128) 128)

/-- What is served to a peer, which reaches the home as agent 256 + PKG. -/
def peerServe (s : State) (pkg p : Nat) : PeerOp → State × List Byte
  | .read n => peerRead s (256 + pkg) p n
  | .write bs => (peerWrite s (256 + pkg) p bs, [])
  | .atomic op sz x => peerAtomic s (256 + pkg) p op sz x
  | .cas sz old new => peerCas s (256 + pkg) p sz old new
  | .lease => peerLease s (256 + pkg) p

/-- The reply to a peer crosses the domain link towards it (R235, R239): payload flips that its CRC has not seen come with it, bit f
of the packet being bit f - 72 of its data. -/
def replyOver (s : State) (pkg : Nat) (bs : List Byte) : State × List Byte :=
  if s.injectors.isEmpty then (s, bs)
  else
    let link := 8 + Config.domainLink pkg % 16
    let (s, flips) := sendPacket (256 + link) none (Config.packetFlits false true) [link] (s.injectors.length + 1) s
    let mine := flips.filter fun f => 72 ≤ f && f < 72 + 8 * bs.length
    (s, leBytes bs.length (flipBits (leNat bs) (mine.map (· - 72))))

/-- PEER_REQUEST (R237): a request that an entry admits is served under that entry's ASID; any other returns refused. -/
def execPeerRequest (pkg asid pa : Nat) (op : PeerOp) (s : State) : Host.Outcome State Fault Refusal :=
  .next (
    let who := admittedAs s pkg asid
    let (s, bs) := if who.isSome then peerServe s pkg (peerLocal pa) op else (s, [])
    let (s, bs) := replyOver s pkg bs
    { s with peerReplies := s.peerReplies ++ [{ pkg := pkg, asid := who, data := bs }] })

/-- PEER_UNREACHABLE (R355). -/
def execPeerUnreachable (pkg : Nat) (down : Bool) (s : State) : Host.Outcome State Fault Refusal :=
  .next { s with peersDown := if down then (if s.peersDown.contains pkg then s.peersDown else s.peersDown ++ [pkg])
                              else s.peersDown.filter (· != pkg) }

end Sys2Proof.Machine
end

