-- ==== Sys2Proof/Machine/EvContext.lean ====
section
/-! DEFINITION. The events of contexts: pre-emption and resumption (R398 to R401), suspended launches (R452, R453), and
the scrub (R403, R416). -/

namespace Sys2Proof.Machine

/-! ## Pre-emption (R398, R399) -/

/-- PRE (R398). -/
def execPre (slot : Nat) (s : State) : Host.Outcome State Fault Refusal := .next (beginPre (drainHost s) (slot % 64))

/-- Blocks of a context that have warps saved. -/
def savedBlocks (s : State) (slot : Nat) : List Nat :=
  let asid := (ctxOf s slot).asid
  (s.blocks.select fun _ x => (launchAt s x.launch).asid == asid && x.saved != []).keys

/-- Releases the gangs that are settled, and completes the pre-emption when no block is left. -/
def completePre (s : State) (slot : Nat) : State :=
  let s := (savedBlocks s slot).foldl (fun s b => if (s.blocks.find? b).isSome then releaseGang s b else s) s
  settlePreempt s slot

/-- PREEMPT_COMPLETE (R399). -/
def execPreemptComplete (slot : Nat) (s : State) : Host.Outcome State Fault Refusal := .next (completePre s (slot % 64))

/-- RES (R401). -/
def execRes (slot : Nat) (s : State) : Host.Outcome State Fault Refusal := .next (beginRes (drainHost s) (slot % 64))

/-! ## Re-admission (R401) -/

/-- The keys of a saved block's warps. -/
def Saved.keys (r : Saved) : List Nat := r.wslots.map (r.core * 64 + ·)

/-- What a saved block takes is free on its core. No hold of R59 keeps it off, whatever the PRIO of a held gang (DESIGN CHOICE,
log 113). -/
def savedFits (s : State) (r : Saved) : Bool :=
  let l := launchAt s r.launch
  let bs := blocksOn s r.core
  coreValid s r.core && !scrubHolds s l.asid r.core && !moveHolds s r.core &&
    (match r.entry with
     | some _ => r.keys.all fun k => (s.warps.find? k).isNone && (s.blocks.find? (calleeBase + k)).isNone
     | none =>
       (s.blocks.find? (r.core * 16 + r.slot)).isNone && (r.keys.all fun k => !(usedSlots s).contains k) &&
         ((List.range 4).all fun q => quarterFits s l (r.core * 4 + q) (r.wslots.filter (· / 16 == q)).length) &&
         (bs.all fun b => b.spSize == 0 || r.spBase + r.spSize ≤ b.spBase || b.spBase + b.spSize ≤ r.spBase) &&
         (bs.all fun b => b.macs == 0 || r.macs == 0 || r.macFirst + r.macs ≤ b.macFirst || b.macFirst + b.macs ≤ r.macFirst) &&
         decide (r.ntile ≤ (tilesLeft s r.core).length))

/-- The key of the block that a saved block becomes. -/
def Saved.key (r : Saved) : Nat :=
  match r.entry with | some _ => calleeBase + r.keys.headD 0 | none => r.core * 16 + r.slot

/-- The block as re-admitted: its receive queue refuses flits until it is reloaded (R419). -/
def Saved.block (s : State) (r : Saved) : Block :=
  { Block.blank with
    launch := r.launch, linear := r.linear, core := r.core, slot := r.slot, spBase := r.spBase, spSize := r.spSize,
    macFirst := r.macFirst, macs := r.macs, tiles := (tilesLeft s r.core).take r.ntile,
    arrK := if r.macs = 0 then 0 else 128, rqHold := r.entry.isNone && (launchAt s r.launch).msg, warps := r.keys,
    ended := r.ended.length, killed := r.killed, owed := r.owed, late := r.late }

/-- The numbers of the warps to restore, lowest first. -/
def Saved.live (r : Saved) : List Nat := (List.range r.wslots.length).filter fun n => !r.ended.contains n

/-- A restored warp's part in its launch: its dispatch entry, or role 0. -/
def Saved.seatOf (r : Saved) (l : Launch) (key : Nat) (x : Warp) : Warp :=
  match r.entry with
  | some e =>
    let d := l.disp.getD e { entry := 0, vreg := 8, cls := 0, slots := 0 }
    { x with item := some e, cls := d.cls, allot := d.vreg,
             num := slotOrdinal l { die := coreDie r.core, entry := e, key := key, vreg := d.vreg } }
  | none =>
    match l.role 0 with
    | some d => { x with cls := d.cls, allot := d.vreg, msg := l.msg }
    | none => x

/-- One restored warp: in a handler with PREEMPT cause 2, its preserved table empty (R401). The resume address, TPC and FADDR, is
zero until DVLOAD gives it (R407). Its cards still in flight are its own again (R139, R291), and a
host fault record that it left unanswered awaits its FRESUME in this slot (R201). -/
def restoreWarp (r : Saved) (s : State) (n : Nat) : State :=
  let key := r.keys.getD n 0
  let l := launchAt s r.launch
  let slot := (slotOfAsid s l.asid).getD 0
  let c := ctxOf s slot
  let x := startWarp s l r.launch r.key key n slot
  let x := r.seatOf l key x
  let who := (r.launch, r.linear, x.num)
  let mine := r.awayFlags.filterMap fun f => if f.1 = n then some f.2 else none
  let x : Warp := { x with sr := [], flags := 0, awayFlags := mine.filter (·.2 != 0), awayBatches := (mine.map (·.1)).eraseDups,
                           hostFault := (c.savedFaults.find? (·.1 == who)).map (·.2),
                           hostHeld := c.heldFaults.any (·.saved == some who),
                           table := { DivTable.start 0 allLanes with splits := List.replicate 4 Split.none } }
  let f := FaultInfo.uniform .preempt 2 (b2n (r.entry.isNone && r.live.head? == some n)) 0
  let y := if c.hvalid then x.openHandler 0 f ⟨0, none⟩ c.handler else x
  let s := { s with warps := s.warps.put key y, seq := s.seq + 1,
                    cards := s.cards.mapVals fun _ (c : Card) =>
                      if c.block = r.key ∧ c.num = n ∧ c.orphan = true then { c with warp := key, linked := true } else c }
  let s := updCtx s slot fun c =>
    { c with savedFaults := c.savedFaults.filter (·.1 != who),
             heldFaults := c.heldFaults.map fun (h : HeldFault) =>
               if h.saved = some who then { h with warp := key, saved := none } else h }
  if c.hvalid then s else killNow s key f.word f.lowAddr 0 true

/-- The block's warps are members of its wider barriers again (R353, R371). -/
def rejoinBarriers (s : State) (b : Nat) : State :=
  let x := blockAt s b
  let l := launchAt s x.launch
  { s with barriers := s.barriers.mapVals fun _ k =>
      let mine := k.launch == x.launch && match k.lvl with
        | .block => false
        | .cluster => k.inst == l.clusterOf x.linear
        | .die => k.inst == coreDie x.core
        | .grid => true
      if mine then (x.warps.filter fun w => (s.warps.find? w).isSome).foldl (fun k w => k.upd (w / 64) fun r => { r with member := r.member ||| slotBit w }) k else k }

/-- A saved block is re-admitted, and the cards that ran on without it are its cards again (R283). -/
def readmit (s : State) (r : Saved) : State :=
  let l := launchAt s r.launch
  let b := r.key
  let back (c : Card) : Bool := c.block == departed && c.launch == r.launch && c.linear == r.linear && r.entry.isNone
  let s := { s with blocks := s.blocks.put b (r.block s), saved := s.saved.erase r,
                    cards := s.cards.mapVals fun _ c => if back c then { c with block := b } else c }
  let s := if r.entry.isSome then s
    else addBarriers (openArrays s b) r.launch b .block l.barb r.live.length (r.live.map fun n => r.keys.getD n 0)
  let s := r.live.foldl (restoreWarp r) s
  if r.entry.isSome then s else rejoinBarriers s b

/-- The saved blocks of a context in STATE 3 that fit now. -/
def readmittable (s : State) (slot : Nat) : Option Saved :=
  let c := ctxOf s slot
  if c.state = 3 then s.saved.find? fun r => (launchAt s r.launch).asid == c.asid && savedFits s r else none

/-- SAVED_BLOCK_READMIT (R401). -/
def execSavedBlockReadmit (slot : Nat) (s : State) : Host.Outcome State Fault Refusal :=
  .next (match readmittable s (slot % 64) with
    | some r => settleResume (readmit s r) (slot % 64)
    | none => s)

/-! ## Suspended-launch records (R453) -/

/-- A field of n bytes placed at an offset, over a list of bytes. -/
def putBytes (b : List Byte) (off n v : Nat) : List Byte := b.take off ++ leBytes n v ++ b.drop (off + n)

/-- MAC code of R22. -/
def macCode (m : Nat) : Nat := if m = 0 then 0 else Nat.log2 m + 1

/-- A saved-block entry. -/
def Saved.bytes (r : Saved) : List Byte :=
  let ws := (List.range r.wslots.length).foldl (fun n k => n + r.wslots.getD k 0 * 2 ^ (6 * k)) 0
  leBytes 4 (if r.entry.isSome then 0xFFFFFFFF else r.linear) ++
    leBytes 2 (packFields [(r.core, 0), (r.slot, 8), (r.entry.getD 0, 12)]) ++
    leBytes 1 (packFields [(r.macFirst, 0), (macCode r.macs, 3)]) ++ leBytes 1 (r.spBase / 4096) ++ leBytes 2 r.ntile ++
    leBytes 6 (r.wslots.length - 1) ++ leBytes 24 ws ++ leBytes 8 0

/-- A dispatch-queue image. -/
def DQueue.bytes (s : State) (d : DQueue) : List Byte :=
  let items := (List.range d.count).flatMap fun k => s.mem.bytes (d.place s (d.head + k)) 16
  leBytes 4 (packFields [(d.die, 0), (d.entry, 8)]) ++ leBytes 12 d.count ++ items ++
    List.replicate (65536 - items.length) 0

/-- The record of one launch. -/
def launchRecord (s : State) (k : Nat) (l : Launch) : List Byte :=
  let mine := s.saved.filter (·.launch == k)
  let head := (List.range 16).flatMap (fun i => leBytes 8 (l.word i)) ++ leBytes 8 l.rva ++ leBytes 4 l.next ++ leBytes 4 l.nret ++
    leBytes 2 l.nflt ++ leBytes 2 mine.length ++ leBytes 2 l.dqs.length ++ leBytes 2 (b2n l.ser) ++ leBytes 2 l.asid
  let body := head ++ List.replicate (256 - head.length) 0 ++ mine.flatMap Saved.bytes ++ l.dqs.flatMap (DQueue.bytes s)
  body ++ List.replicate ((64 - body.length % 64) % 64) 0

/-- Bytes of the header, and of a record with these counts. -/
def recordSize (nsaved ndq : Nat) : Nat := (256 + 48 * nsaved + 65552 * ndq + 63) / 64 * 64

/-- A dispatch-queue image as read. -/
structure ImportQueue where
  die : Nat
  entry : Nat
  items : List (List Byte)
  deriving DecidableEq, Repr

/-- One record of an import image, read at a physical address. -/
structure ImportRecord where
  words : List Word64
  rva : Nat
  next : Nat
  nret : Nat
  nflt : Nat
  ser : Bool
  saved : List Saved
  dqs : List ImportQueue
  /-- a field is out of range -/
  bad : Bool
  deriving DecidableEq, Repr

/-- The n bytes at a physical address, with the events of their reading; zero where past correction. -/
def physBytes (s : State) (pa n : Nat) : State × List Byte :=
  let (s, d) := deviceDeliv s pa n
  (s, if d.isPoison then List.replicate n 0 else d.data)

/-- A saved-block entry: its launch is set later. -/
def importSaved (spad : Nat) (b : List Byte) : Saved × Bool :=
  let blk := recNat b 0 4
  let core := recNat b 4 1
  let sl := recNat b 5 1
  let mc := recNat b 6 1
  let nw := recNat b 10 1
  let ws := recNat b 16 24
  let isC := blk == 0xFFFFFFFF
  let code := bitsOf mc 5 3
  let m := if code = 0 then 0 else 2 ^ (code - 1)
  ({ launch := 0, linear := if isC then bitsOf sl 7 4 else blk, core := core, slot := bitsOf sl 3 0,
     entry := if isC then some (bitsOf sl 7 4) else none, macFirst := bitsOf mc 2 0, macs := m,
     spBase := recNat b 7 1 * 4096, spSize := if isC then 0 else spad, ntile := recNat b 8 2,
     wslots := (List.range (nw % 32 + 1)).map fun w => bitsOf ws (6 * w + 5) (6 * w), killed := false, ended := [],
     awayFlags := [], owed := [], late := [] },
   4 < code || 31 < nw || 256 < recNat b 8 2)

/-- A dispatch-queue image at a physical address. -/
def importQueue (s : State) (pa : Nat) : State × ImportQueue × Bool :=
  let (s, h) := physBytes s pa 16
  let n := recNat h 4 4
  let (s, b) := physBytes s (pa + 16) (16 * Nat.min n 4096)
  (s, { die := recNat h 0 1, entry := recNat h 1 1,
        items := (List.range (Nat.min n 4096)).map fun k => (b.drop (16 * k)).take 16 },
   4096 < n || 3 < recNat h 0 1 || 15 < recNat h 1 1)

/-- The record at a physical address, and where the next one begins. -/
def importRecord (s : State) (pa : Nat) : State × ImportRecord × Nat :=
  let (s, h) := physBytes s pa 256
  let words := (List.range 16).map fun k => BitVec.ofNat 64 (recNat h (8 * k) 8)
  let l : Launch := { Launch.blank with words := words }
  let ns := recNat h 0x92 2
  let nq := recNat h 0x94 2
  let (s, b) := physBytes s (pa + 256) (48 * ns)
  let sv := (List.range ns).map fun k => importSaved l.spadBytes ((b.drop (48 * k)).take 48)
  let (s, qs) := (List.range (Nat.min nq 64)).foldl (fun (r : State × List (ImportQueue × Bool)) k =>
    let (s, q) := importQueue r.1 (pa + 256 + 48 * ns + 65552 * k)
    (s, r.2 ++ [q])) (s, [])
  (s, { words := words, rva := recNat h 0x80 8, next := recNat h 0x88 4, nret := recNat h 0x8C 4,
        nflt := recNat h 0x90 2, ser := bitOf (recNat h 0x96 2) 0, saved := sv.map (·.1), dqs := qs.map (·.1),
        bad := sv.any (·.2) || qs.any (·.2) || 64 < nq || l.nblk < recNat h 0x88 4 },
   pa + recordSize ns nq)

/-- The records of an image; none when its magic or its count is out of range. -/
def importImage (s : State) (pa : Nat) : State × Option (List ImportRecord) :=
  let (s, h) := physBytes s pa 64
  let n := recNat h 4 4
  if recNat h 0 4 ≠ 0x4A51494D ∨ 4096 < n then (s, none)
  else
    let (s, rs, _) := (List.range n).foldl (fun (r : State × List ImportRecord × Nat) _ =>
      let (s, x, next) := importRecord r.1 r.2.2
      (s, r.2.1 ++ [x], next)) (s, [], pa + 64)
    (s, some rs)

/-- The launch of a record, with the tables that it names read under the slot's address space, and whether they could be read. -/
def importLaunch (s : State) (q asid prio : Nat) (r : ImportRecord) : State × LaunchText × Bool :=
  let l : Launch := { Launch.blank with words := r.words }
  let (s, desc) := readWords s asid (l.word 5) (descCount l)
  let (s, list) := readWords s asid (l.word 6) (listWords l)
  let t := launchOfText r.rva q asid prio r.ser r.words (desc.getD []) (list.getD [])
  (s, { t with l := { t.l with next := r.next, nret := r.nret, nflt := r.nflt } }, desc.isSome && list.isSome)

/-- Two saved entries claim one block slot, warp slot, macro or scratchpad byte. -/
def savedClash (a b : Saved) : Bool :=
  a.core == b.core && (a.wslots.any b.wslots.contains ||
    (a.entry.isNone && b.entry.isNone &&
      (a.slot == b.slot || (decide (a.macFirst < b.macFirst + b.macs) && decide (b.macFirst < a.macFirst + a.macs)) ||
        (decide (a.spBase < b.spBase + b.spSize) && decide (b.spBase < a.spBase + a.spSize)))))

/-- Some two entries of a list clash. -/
def anyClash : List Saved → Bool
  | [] => false
  | a :: rest => rest.any (savedClash a) || anyClash rest

/-- An entry is out of range for its launch. -/
def savedBad (s : State) (l : Launch) (r : Saved) : Bool :=
  !coreValid s r.core || r.wslots.eraseDups.length != r.wslots.length || decide (524288 < r.spBase + r.spSize) ||
    decide (8 < r.macFirst + r.macs) ||
    (match r.entry with | some e => decide (l.ndsp ≤ e) | none => decide (l.nblk ≤ r.linear))

/-- The record is malformed (R453): tables that cannot be read put nothing in their place. -/
def recordBad (s : State) (r : ImportRecord) (t : LaunchText) : Bool :=
  r.bad || launchMalformed t || r.saved.any (savedBad s t.l) || r.dqs.any fun d => decide (t.l.ndsp ≤ d.entry)

/-- Clusters with a saved block, each with the core of its first one. -/
def savedClusters (l : Launch) (rs : List Saved) : List (Nat × Nat) :=
  let cs := (rs.filter (·.entry.isNone)).map fun r => (l.clusterOf r.linear, r.core)
  ((cs.map (·.1)).eraseDups).filterMap fun i => (cs.find? (·.1 == i))

/-- A wide barrier at its reset values, with no member resident yet; its set lies where a core says. -/
def importBarriers (s : State) (k inst : Nat) (lvl : BarLvl) (mask exp core : Nat) : State :=
  ((List.range 16).filter (bitOf mask)).foldl (fun s i =>
    let b := { freshBarrier k i inst lvl exp [] with quad := core / 16 }
    { s with barriers := s.barriers.put s.nextId b, nextId := s.nextId + 1 }) s

/-- The barrier sets of an imported launch; none when one cannot be had. -/
def importSets (s : State) (k : Nat) (rs : List Saved) : Option State :=
  let l := launchAt s k
  let s := if l.barc = 0 then some s
    else (savedClusters l rs).foldl (fun r (i, core) => r.bind fun s =>
      if 16 ≤ clusterSets s (core / 16) then none
      else some (importBarriers s k i .cluster l.barc (l.clusterSize * l.wpb) core)) (some s)
  let s := s.bind fun s => if l.bard = 0 then some s
    else ((List.range 4).filter (bitOf l.dieMask)).foldl (fun r d => r.bind fun s =>
      if 8 ≤ dieSets s d then none
      else
        let n := ((rs.filter fun x => x.entry.isNone && coreDie x.core == d).map (·.wslots.length)).foldl (· + ·) 0
        some (importBarriers s k d .die l.bard n (d * 64))) (some s)
  s.bind fun s => if l.barg = 0 then some s
    else if 8 ≤ gridSets s then none else some (importBarriers s k 0 .grid l.barg (l.nblk * l.wpb) 0)

/-- Reserves everything of one record and makes it a taken launch with its saved blocks; none when something is
missing. -/
def importOne (avoid : List Nat) (s : State) (rt : ImportRecord × LaunchText) : Option State :=
  let (r, t) := rt
  let k := s.nextId
  let own := r.saved.filterMap fun x => x.entry.map fun e =>
    ({ die := coreDie x.core, entry := e, key := x.keys.headD 0,
       vreg := (t.l.disp.getD e { entry := 0, vreg := 8, cls := 0, slots := 0 }).vreg } : CalleeSlot)
  if own.any fun c => (usedSlots s).contains c.key then none
  else
    let l := { t.l with callee := own }
    let s := { s with launches := s.launches.put k l, nextId := k + 1 }
    ((reserveCallees avoid s k).bind fun s => importSets s k r.saved).map fun s =>
      let s := r.dqs.foldl (fun s q => q.items.foldl (fun s i => (enqueueItem s k q.die q.entry i).1) s) s
      let s := { s with saved := s.saved ++ r.saved.map fun (x : Saved) => { x with launch := k } }
      if r.next = 0 ∧ r.saved = [] then s else openRanges s k

/-- The import ends with an outcome (R390). -/
def endImport (s : State) (slot code : Nat) : State := updCtx s slot fun c => { c with impgo := false, imperr := code }

/-- The slot is idle (R453, step 1). -/
def importIdle (s : State) (slot : Nat) : Bool :=
  let c := ctxOf s slot
  c.valid && c.state == 0 && !(s.launches.any fun (_, l) => l.asid == c.asid) &&
    !(s.blocks.any fun (_, b) => (launchAt s b.launch).asid == c.asid)

/-- The import of an image (R453): all of it or nothing. A table that cannot be read leaves what it names unreserved: IMPERR 4
(DESIGN CHOICE, log 82). -/
def importAll (s : State) (slot : Nat) : State :=
  let c := ctxOf s slot
  let q := queueOf s c.impq
  if !importIdle s slot then endImport s slot 1
  else if q.asid ≠ c.asid then endImport s slot 2
  else
    match importImage s (c.impbase * 4096) with
    | (s, none) => endImport s slot 3
    | (s, some rs) =>
      let (s, ts) := rs.foldl (fun (x : State × List (ImportRecord × LaunchText × Bool)) r =>
        let (s, t) := importLaunch x.1 c.impq c.asid q.prio r
        (s, x.2 ++ [(r, t)])) (s, [])
      let go := ts.map fun (r, t) => (r, t.1)
      if (go.any fun (r, t) => recordBad s r t) || anyClash (rs.flatMap (·.saved)) then endImport s slot 3
      else if ts.any fun t => !t.2.2 then endImport s slot 4
      else
        let avoid := rs.flatMap fun r => r.saved.flatMap Saved.keys
        match go.foldl (fun r x => r.bind fun s => importOne avoid s x) (some s) with
        | none => endImport s slot 4
        | some s' =>
          let last := if go.isEmpty then q.last else some (s'.launches.keys.getLastD 0)
          let s' := setQueue s' c.impq { queueOf s' c.impq with last := last }
          updCtx (endImport s' slot 0) slot fun c => { c with state := 2 }

/-- IMPGO (R390, R453): a write while it reads 1 is discarded; the import then acts. -/
def execImpgo (slot : Nat) (s : State) : Host.Outcome State Fault Refusal := .next (importAll (drainHost s) (slot % 64))

/-! ## RESYNC (R452) -/

/-- The 8-byte registers at consecutive offsets. -/
def regBytes (s : State) (off n : Nat) : List Byte := (List.range n).flatMap fun k => leBytes 8 (devReg s (off + 8 * k))

/-- Valid context slots. -/
def validSlots (s : State) : List Nat := (List.range 64).filter fun k => (ctxOf s k).valid

/-- Host-fault records of a slot that its host has not consumed, those consumed whose warps still wait for FRESUME, and those held
back, with the SEQ that they will have (R200, R201; log 83). -/
def pendingFaults (s : State) (slot : Nat) : List (List Byte) :=
  let c := ctxOf s slot
  let n := (c.frhead - c.frtail).toNat
  let inRing (q : Nat) : Bool := (q + 2 ^ 24 - c.frtail.toNat % 2 ^ 24) % 2 ^ 24 < n
  ((List.range n).map fun k => s.mem.bytes (c.fring * 4096 + 32 * ((c.frtail.toNat + k) % 2 ^ ringLog c.frlog)) 32) ++
    ((c.asked.select fun q _ => awaited s slot q && !inRing q).map (·.2)) ++
    (c.heldFaults.zipIdx.map fun (h, k) => hostRecord h ((c.frhead.toNat + k) % 2 ^ 24))

/-- The records of each section of a summary. -/
def resyncSections (s : State) : List (List (List Byte)) :=
  [ (validSlots s).map fun k => regBytes s (0x110000 + 64 * k) 8 ++ regBytes s (0x11D000 + 64 * k) 8,
    (List.range 256).map fun q => regBytes s (0x100000 + 64 * q) 8,
    (validSlots s).flatMap (pendingFaults s),
    (List.range 64).map fun i => regBytes s (0x11F100 + 8 * i) 1,
    ((List.range 280).map fun p => regBytes s (0x119000 + 16 * p) 2) ++ ((List.range 450).map fun k => regBytes s (0x11C000 + 8 * k) 1),
    (s.launches.select fun _ l => match slotOfAsid s l.asid with | some k => (ctxOf s k).state == 2 | none => false).map
      fun (k, l) => launchRecord s k l ]

/-- The pieces of a summary: each section's header and its records. -/
def resyncPieces (s : State) : List (List Byte) :=
  let secs := resyncSections s
  (List.range secs.length).flatMap fun i =>
    let recs := secs.getD i []
    leBytes 8 ((i + 1) * 2 ^ 56 + (recs.map List.length).foldl (· + ·) 0) :: recs

/-- The pieces that fit in a size. -/
def fitPieces : Nat → List (List Byte) → List Byte
  | _, [] => []
  | n, p :: ps => if p.length ≤ n then p ++ fitPieces (n - p.length) ps else []

/-- Writes a summary (R452). -/
def writeSummary (s : State) : State :=
  let h := s.house
  let b := fitPieces h.rssize.toNat (resyncPieces s)
  let s := deviceWrite s (h.rsbuf * 4096) b
  { s with house := { s.house with rsgo := false, rsused := BitVec.ofNat 32 b.length } }

/-- RSGO (R448, R452). -/
def execRsgo (s : State) : Host.Outcome State Fault Refusal := .next (if s.recovery then s else writeSummary (drainHost s))

/-! ## The scrub (R403, R416) -/

/-- A warp whose registers, the handler bank's among them, are zero. -/
def Warp.zeroRegs (x : Warp) : Warp :=
  { x with v := [], sr := [], pr := [], handler := x.handler.map fun h => { h with bankV := [], bankS := [] } }

/-- A core's arrays are cleared: what warps that are resident there hold of the register file is zero too. -/
def scrubCore (s : State) (core : Nat) : State :=
  let s := { clearRegs s fun w => w / 64 == core with
    warps := s.warps.mapVals fun w x => if w / 64 = core then x.zeroRegs else x }
  let s := (List.range 256).foldl (fun s t => setTile s core t 0) s
  let s := clearScale (clearMacros s core 0 8) core 0 8
  clearSpad s core 0 524288

/-- One entry of the list. -/
def scrubEntry (s : State) (w : Word64) : State :=
  let n := w.toNat
  match bitsOf n 1 0 with
  | 0 => zeroFrame s (leafFrame n)
  | 1 => scrubCore s (bitsOf n 15 8)
  | _ => s

/-- The scrub finishes: a kind-3 record, and the quarantine ends. -/
def finishScrub (s : State) : State :=
  let r := s.scrubReg
  let s := { s with scrubReg := { r with sdone := r.scount, quar := false, sbusy := false, entries := [] } }
  if !(ctxOf s r.slot).valid then notifyHost s
  else notify s r.slot { kind := 3, core := 0xFF, slot := 0, fault := 0, addr := 0, block := 0, aux := 0 }

/-- The scrub of the next entry, counted in SDONE; with the last one it finishes. -/
def scrubNext (s : State) : State :=
  let r := s.scrubReg
  if !r.sbusy then s
  else
    let s := match r.entries[r.sdone]? with | some e => scrubEntry s e | none => s
    let s := { s with scrubReg := { r with sdone := r.sdone + 1 } }
    if r.sdone + 1 < r.scount then s else finishScrub s

/-- SCRUB_COMPLETE (R403): the scrub goes on, entry by entry, to its completion. -/
def execScrubComplete (s : State) : Host.Outcome State Fault Refusal := .next (scrubNext s)

end Sys2Proof.Machine
end

