-- ==== Sys2Proof/Machine/EvPower.lean ====
section
/-! DEFINITION. Power (R426 to R438): the market that sets each island's operating point, caps, near-threshold mode, the
fast throttle and the throttle levels. -/

namespace Sys2Proof.Machine

/-! ## Islands (R426, R436) -/

/-- Changes one island. -/
def updIsland (s : State) (i : Nat) (f : Island → Island) : State :=
  { s with islands := s.islands.putD .reset i (f (islandOf s i)) }

/-- The highest point that an island may reach (R426; without a configuration record 7, log 6). -/
def islandLimit (s : State) (i : Nat) : Nat := s.limits.getD 7 i

/-- An island is active: a block is resident, or a callee slot reserved, on one of its cores. -/
def islandActive (s : State) (i : Nat) : Bool :=
  s.blocks.any (fun x => islandAt s x.2.core == i) || s.launches.any fun x => x.2.callee.any fun c => islandAt s (c.key / 64) == i

/-- Its base point (R429), within its limit. -/
def basePoint (s : State) (i : Nat) : Nat :=
  if islandActive s i && !(islandOf s i).nt then Nat.min 2 (islandLimit s i) else 1

/-- LEVEL (R436). -/
def Island.levelNow (x : Island) : Nat :=
  if 0 < x.gate then 4 else if x.shutdown.on then 3 else if x.throttle.on then 2 else if x.capped then 1 else 0

/-- The context slots with blocks on the cores that satisfy a test. -/
def contextsOn (s : State) (p : Nat → Bool) : List Nat :=
  ((s.blocks.select fun b x => decide (b < calleeBase) && p x.core).filterMap fun x => slotOfAsid s (launchAt s x.2.launch).asid).eraseDups

/-- A throttle record of a context (R436). -/
def throttleRecord (s : State) (slot i level : Nat) : State :=
  let s := updCtx s slot fun c => { c with throttled := c.throttled.put i (s.now, none) }
  notify s slot { kind := 1, core := 0xFF, slot := 0, fault := 0, addr := 0, block := 0, aux := level }

/-- A millisecond has passed since the last record of a context for an island. -/
def throttleFree (s : State) (c : Ctx) (i : Nat) : Bool :=
  match c.throttled.find? i with
  | some v => v.1 + 1000000 ≤ s.now
  | none => true

/-- The highest level of an island that a record of a context has still to report. -/
def keptLevel (c : Ctx) (i : Nat) : Option Nat := (c.throttled.find? i).bind (·.2)

/-- A record is due: it is written at once, or its highest level kept until the millisecond has passed. -/
def reportLevel (s : State) (slot i level : Nat) : State :=
  let c := ctxOf s slot
  let level := Nat.max level ((keptLevel c i).getD 0)
  if throttleFree s c i then throttleRecord s slot i level
  else updCtx s slot fun c => { c with throttled := c.throttled.modify i fun v => (v.1, some level) }

/-- An island's LEVEL follows its state. A rise of LEVEL is reported (R436), and so is a lowering of the point that was to be in
force (R397). -/
def refreshLevel (s : State) (i was : Nat) : State :=
  let old := (islandOf s i).level
  let lv := (islandOf s i).levelNow
  let s := updIsland s i fun x => { x with level := lv }
  if old < lv ∨ (islandOf s i).target < was then
    (contextsOn s fun c => islandAt s c == i).foldl (fun s k => reportLevel s k i lv) s
  else s

/-- Records kept back for a context are written once their millisecond has passed. -/
def flushThrottled (s : State) (slot : Nat) : State :=
  let c := ctxOf s slot
  c.throttled.foldl (fun s (i, v) =>
    match v.2 with
    | some level => if throttleFree s c i then throttleRecord s slot i level else s
    | none => s) s

/-! ## The bids (R428) -/

/-- Frequency of each point in units of 0.01 GHz, and voltage in units of 0.01 V. -/
def pointFreq (p : Nat) : Nat := [0, 30, 50, 70, 85, 100, 110, 120].getD p 0
def pointVolt (p : Nat) : Nat := [0, 45, 60, 68, 74, 80, 86, 92].getD p 0

/-- f·V² of a point. -/
def pointCost (p : Nat) : Nat := pointFreq p * pointVolt p * pointVolt p

/-- The denominator over which scaled powers are whole numbers. -/
def costUnit : Nat := ((List.range 8).map fun p => Nat.max 1 (pointCost p)).foldl (fun a b => a / Nat.gcd a b * b) 1

/-- A power measured at one point, scaled to another, in units of 1 W / costUnit. -/
def scaledPower (watts cur p : Nat) : Nat :=
  if pointCost cur = 0 then watts * costUnit else watts * pointCost p * (costUnit / pointCost cur)

/-- The point of step k. -/
def stepPoint (k : Nat) : Nat := [3, 5, 6, 7].getD k 7

/-- The point that an island has after the first n steps of its quadrant's bid. -/
def pointAfter (s : State) (i n : Nat) : Nat :=
  let b := basePoint s i
  if n = 0 then b else Nat.max b (Nat.min (islandLimit s i) (stepPoint (n - 1)))

/-- The measure of an island in the epoch just ended. -/
def measureOf (m : EpochMeasure) (i : Nat) : IslandMeasure :=
  (m.islands.find? (·.island == i)).getD { island := i, watts := 0, ready := 0 }

/-- The islands for which a quadrant bids. -/
def biddingIslands (s : State) (q : Nat) : List Nat :=
  ((List.range 4).map (q * 4 + ·)).filter fun i => islandActive s i && !(islandOf s i).nt

/-- The weight of a quadrant: one plus the highest PRIO of its blocks. -/
def bidWeight (s : State) (q : Nat) : Nat :=
  1 + ((s.blocks.select fun b x => decide (b < calleeBase) && islandAt s x.core / 4 == q).map fun x => (launchAt s x.2.launch).prio).foldl Nat.max 0

/-- The islands that step k raises. -/
def raisedBy (s : State) (q k : Nat) : List Nat :=
  (biddingIslands s q).filter fun i => pointAfter s i k < pointAfter s i (k + 1)

/-- Step k's tokens and value; the value in units of 0.01 GHz. -/
def bidStep (s : State) (m : EpochMeasure) (q k : Nat) : Nat × Nat :=
  let is := raisedBy s q k
  let cost := (is.map fun i =>
    let w := (measureOf m i).watts
    let cur := (islandOf s i).point
    scaledPower w cur (pointAfter s i (k + 1)) - scaledPower w cur (pointAfter s i k)).foldl (· + ·) 0
  let gain := (is.map fun i =>
    (measureOf m i).ready * (pointFreq (pointAfter s i (k + 1)) - pointFreq (pointAfter s i k))).foldl (· + ·) 0
  ((cost + costUnit - 1) / costUnit, bidWeight s q * gain)

/-- A quadrant's bid: it ends before the first step that raises no island. -/
def bidOf (s : State) (m : EpochMeasure) (q : Nat) : List (Nat × Nat) :=
  ((List.range 4).takeWhile fun k => raisedBy s q k != []).map (bidStep s m q)

/-! ## The clearing (R429, R431, R432) -/

/-- The allowance in units of 0.1 W: the peak bound and the average bound over the 99,999 epochs before. -/
def allowance (p : Power) : Int :=
  let e : Nat := (p.history.take 99999).foldl (· + ·) 0
  min ((10 * p.pcap : Nat) : Int) (((p.acap * 1000000 : Nat) : Int) - Int.ofNat e)

/-- The first step of each quadrant's bid that has not been granted; an empty list for a quadrant out of the clearing. -/
structure Clearing where
  left : List (List (Nat × Nat))
  granted : List Nat
  /-- tokens left, in units of 0.1 W / costUnit -/
  tokens : Nat
  deriving DecidableEq, Repr

/-- The quadrant whose step has the highest ratio, ties to the first met counting up from a start. -/
def Clearing.best (c : Clearing) (start : Nat) : Option (Nat × Nat) :=
  (List.range 16).foldl (fun best k =>
    let q := (start + k) % 16
    match (c.left.getD q []).head?, best with
    | some (t, _), none => some (q, t)
    | some (t, v), some (b, bt) =>
      let bv := ((c.left.getD b []).headD (0, 0)).2
      if bv * t < v * bt then some (q, t) else best
    | none, _ => best) none

/-- The arbiter's loop. -/
def clearBids (start : Nat) : Nat → Clearing → Clearing
  | 0, c => c
  | n + 1, c =>
    match c.best start with
    | none => c
    | some (q, t) =>
      let cost := 10 * t * costUnit
      if cost ≤ c.tokens then
        clearBids start n { left := c.left.modify q (·.drop 1), granted := c.granted.modify q (· + 1), tokens := c.tokens - cost }
      else clearBids start n { c with left := c.left.set q [] }

/-- What is left of the allowance over the base points, non-core power and filler, in units of 0.1 W / costUnit. -/
def marketTokens (s : State) (m : EpochMeasure) : Int :=
  let base := (m.islands.map fun x => scaledPower x.watts (islandOf s x.island).point (basePoint s x.island)).foldl (· + ·) 0
  allowance s.power * (costUnit : Int) - ((10 * base + 10 * (m.nonCore + m.filler) * costUnit : Nat) : Int)

/-- Steps granted to each quadrant. -/
def grantSteps (s : State) (m : EpochMeasure) (epoch : Nat) : List Nat :=
  let a := marketTokens s m
  if a < 0 then List.replicate 16 0
  else (clearBids (epoch % 16) 80
    { left := (List.range 16).map (bidOf s m), granted := List.replicate 16 0, tokens := a.toNat }).granted

/-- The lowest of the granted point, the thermal ceilings and near-threshold mode (R427, R432, R434, R435). -/
def Island.ceiling (x : Island) (p : Nat) : Nat :=
  let p := if x.throttle.on then Nat.min p 4 else p
  let p := if x.nt then Nat.min p 1 else p
  if x.shutdown.on then 0 else p

/-- The logical cores of an island. -/
def islandCores (s : State) (i : Nat) : List Nat := (List.range 4).filterMap fun k => logicalOf s (i / 16) ((4 * i + k) % 64)

/-- The point that an island is to have when p is granted to it. With a move of one of its cores under way it does not stop before
that has ended (R440). -/
def ceilingOf (s : State) (i p : Nat) : Nat :=
  let x := islandOf s i
  if x.shutdown.on && (islandCores s i).any (movingCore s) then x.point else x.ceiling p

/-- Energy charged to a context slot's meter, or to EFREE (R430). -/
def chargeSlot (s : State) (slot e : Nat) : State :=
  updCtx s (slot % 64) fun c => { c with emeter := c.emeter + BitVec.ofNat 64 e }
def chargeFree (s : State) (e : Nat) : State :=
  { s with power := { s.power with efree := s.power.efree + BitVec.ofNat 64 e } }

/-- Energy shared among context slots in proportion to their parts; what does not divide, or has no taker, is charged to EFREE
(DESIGN CHOICE, log 108). -/
def chargeShares (s : State) (e : Nat) (parts : List (Nat × Nat)) : State :=
  let sum := (parts.map (·.2)).foldl (· + ·) 0
  let given := parts.map fun (k, n) => (k, e * n / sum)
  chargeFree (given.foldl (fun s (k, e) => chargeSlot s k e) s) (e - (given.map (·.2)).foldl (· + ·) 0)

/-- Runs on a core in this epoch, by context slot. -/
def runsOn (s : State) (core : Nat) : List (Nat × Nat) := (s.ran.select fun k _ => k / 64 == core).map fun (k, n) => (k % 64, n)

/-- The epoch's energies are attributed (R437, R438): those of a core by runs, those of cards by their issuers, those of requests by
their address spaces, that of filler by the currents withdrawn. -/
def attributeEnergy (s : State) (m : EpochMeasure) : State :=
  let s := m.cores.foldl (fun s (c, e) => chargeShares s e (runsOn s c)) s
  let s := m.cards.foldl (fun s (k, e) => chargeSlot s k e) s
  let s := m.requests.foldl (fun s (a, e) =>
    match slotOfAsid s a with
    | some k => chargeSlot s k e
    | none => chargeFree s e) s
  chargeFree (chargeShares s (10 * m.filler) m.departed) m.other

/-- The meters and integrators take the epoch's energies (R430, R431, R438). -/
def chargeEnergy (s : State) (m : EpochMeasure) : State :=
  let s := { attributeEnergy s m with ran := [] }
  let h := (m.total :: s.power.history).take 100000
  { s with power := { s.power with history := h, plast := m.total / 10 % 65536, pavg := h.foldl (· + ·) 0 / 1000000 % 65536 } }

/-- Lifetime counter key of an island's time at a point (R454). -/
def lifeVolt (i p : Nat) : Nat := 65536 + i * 8 + p

/-- One island takes what the clearing gives it. -/
def setGrant (s : State) (m : EpochMeasure) (i n : Nat) : State :=
  let p := pointAfter s i (if islandActive s i && !(islandOf s i).nt then n else 0)
  let capped := islandActive s i && !(islandOf s i).nt && decide (p < islandLimit s i)
  let s := countLife s (lifeVolt i (islandOf s i).point) 1
  let granted := scaledPower (measureOf m i).watts (islandOf s i).point p
  updIsland s i fun x => { x with target := ceilingOf s i p, capped := capped, grant := some granted }

/-- The end of an epoch: energies are charged, the market clears under the number of the epoch that ends, and the islands'
next points are set. -/
def clearEpoch (s : State) (m : EpochMeasure) : State :=
  let s := chargeEnergy s m
  let e := s.power.epoch.toNat
  let g := grantSteps s m e
  let s := setNow { s with power := { s.power with epoch := s.power.epoch + 1 } } ((e + 1) * 10000)
  let was := (List.range 64).map fun i => (islandOf s i).target
  let s := (List.range 64).foldl (fun s i => setGrant s m i (g.getD (i / 4) 0)) s
  let s := (List.range 64).foldl flushThrottled s
  (List.range 64).foldl (fun s i => refreshLevel s i (was.getD i 0)) s

/-- EPOCH_CLEARING (R428, R429). -/
def execEpochClearing (m : EpochMeasure) (s : State) : Host.Outcome State Fault Refusal := .next (if s.recovery then s else clearEpoch s m)

/-- OPERATING_POINT_CHANGE (R426): the island reaches the point set for it. -/
def execOperatingPointChange (i : Nat) (s : State) : Host.Outcome State Fault Refusal :=
  .next (updIsland s (i % 64) fun x => { x with point := x.target })

/-- NEAR_THRESHOLD_WINDOW (R427): of the window's issue cycles, in how many the island's cores were stalled; the share of the
home accesses that fell in ranges with NTREQ is counted, and counted afresh from now on. -/
def execNearThresholdWindow (i stalled cycles : Nat) (s : State) : Host.Outcome State Fault Refusal :=
  .next (
    let i := i % 64
    let x := islandOf s i
    let (a, n) := s.islandUse.getD (0, 0) i
    let ntreq := decide (a < 2 * n)
    let s := { s with islandUse := s.islandUse.del i }
    if !x.nt && islandActive s i && (decide (75 * cycles < 100 * stalled) || ntreq) then
      refreshLevel (updIsland s i fun x => { x with nt := true, target := Nat.min x.target 1, capped := false }) i x.target
    else if x.nt && decide (100 * stalled ≤ 60 * cycles) && !ntreq then updIsland s i fun x => { x with nt := false }
    else s)

/-- CAP_COMMAND (R430): outside its range it is refused. -/
def execCapCommand (pcap acap : Nat) (seq : BitVec 32) (s : State) : Host.Outcome State Fault Refusal :=
  .next (if s.recovery = false ∧ 300 ≤ pcap ∧ pcap ≤ 2900 ∧ 300 ≤ acap ∧ acap ≤ pcap then
      countLife { s with power := { s.power with pcap := pcap, acap := acap, capseq := seq } } lifeCaps 1
    else s)

/-- The package is over its allowance at a sample, and an island draws more than its grant (R433). Before the first clearing nothing
has been granted, and nothing is withheld (DESIGN CHOICE, log 107). -/
def overGrant (s : State) (m : PowerSample) (i : Nat) : Bool :=
  decide (allowance s.power < ((10 * m.package : Nat) : Int)) &&
    (match (islandOf s i).grant, m.islands.find? (·.1 == i) with
     | some g, some (_, watts) => decide (g < watts * costUnit)
     | _, _ => false)

/-- FAST_THROTTLE_SAMPLE (R433) of a quadrant. -/
def execFastThrottleSample (q : Fin 16) (m : PowerSample) (s : State) : Host.Outcome State Fault Refusal :=
  .next (((List.range 4).map (q.val * 4 + ·)).foldl (fun s i =>
    let hot := overGrant s m i
    refreshLevel (updIsland s i fun x => { x with gate := if hot then Nat.min (x.gate + 8) 63 else x.gate - 8 }) i 0) s)

end Sys2Proof.Machine
end

