-- ==== Sys2Proof/Machine/EvThermal.lean ====
section
/-! DEFINITION. Thermal states (R434, R435) and thermal migration (R439, R440). -/

namespace Sys2Proof.Machine

/-! ## Readings (R434) -/

/-- A state is entered at a hot reading and released at a cool one, each at least 1 ms after the other. -/
def Thermal.read (x : Thermal) (hot cool : Bool) (t : Nat) : Thermal :=
  if x.on then
    if cool ∧ (x.entered.getD 0) + 1000000 ≤ t then { x with on := false, released := some t } else x
  else
    match x.released with
    | some r => if hot ∧ r + 1000000 ≤ t then { x with on := true, entered := some t } else x
    | none => if hot then { x with on := true, entered := some t } else x

/-- The hottest last reading of an island's four cores, in units of 0.25 °C. -/
def hottest (s : State) (i : Nat) : Nat := ((List.range 4).map fun k => (s.temps.getD 0 (4 * i + k)).toNat).foldl Nat.max 0

/-- The lowest block of a context on a core, as a record names it. -/
def blockNamed (s : State) (slot core : Nat) : Nat :=
  match s.blocks.first fun b x => b < calleeBase && x.core == core && slotOfAsid s (launchAt s x.launch).asid == some slot with
  | some (_, x) => x.linear
  | none => 0xFFFFFFFF

/-- A kind-5 record of a core to every context resident on it. -/
def thermalRecord (s : State) (core aux : Nat) : State :=
  (contextsOn s (· == core)).foldl (fun s k =>
    notify s k { kind := 5, core := core, slot := 0, fault := 0, addr := 0, aux := aux,
                 block := if aux = 0 then blockNamed s k core else 0xFFFFFFFF }) s

/-- A core in warn: its residents are to be moved if they may and can; at the entry into warn a notice says so when they
are not. -/
def warnCore (s : State) (core : Nat) (entry : Bool) : State :=
  if !(s.blocks.any fun x => x.2.core == core) || movePending s core then s
  else
    match if coreMigratable s core then coolestFree s (coreDie core) else none with
    | some p => { s with moveAsks := s.moveAsks ++ [{ core := core, target := p, warp := none }] }
    | none => if entry then thermalRecord s core 1 else s

/-- The island stops (R435), unless a move of one of its cores has still to end (R440). A run under way there stands until the
island restarts. -/
def stopIsland (s : State) (i : Nat) : State :=
  let cores := islandCores s i
  if cores.any (movingCore s) then s
  else
    let s := cores.foldl (fun s c => releaseL1 (endLeases s c) c) s
    let s := { s with focus := s.focus.filter fun f => !cores.contains (warpAt s f.1).core }
    updIsland s i fun x => { x with point := 0, target := 0 }

/-- The island restarts at its base point. -/
def restartIsland (s : State) (i : Nat) : State :=
  if (islandOf s i).point = 0 then
    let p := basePoint s i
    updIsland s i fun x => { x with point := x.ceiling p, target := x.ceiling p }
  else s

/-- Lifetime counter key of a core's temperature bin of 2 °C (R454). -/
def lifeTemp (core temp : Nat) : Nat := 131072 + core * 128 + temp / 8

/-- The island's thermal states follow its hottest core. -/
def readIsland (s : State) (i t : Nat) : State :=
  let h := hottest s i
  let x := islandOf s i
  let sd := x.shutdown.read (decide (440 ≤ h)) (decide (h ≤ 428)) t
  let s := updIsland s i fun x =>
    { x with tmax := h / 4, throttle := x.throttle.read (decide (400 ≤ h)) (decide (h ≤ 388)) t, shutdown := sd }
  let s := updIsland s i fun x => { x with target := ceilingOf s i x.target }
  let s := if sd.on && !x.shutdown.on then stopIsland s i else if x.shutdown.on && !sd.on then restartIsland s i else s
  refreshLevel s i x.target

/-- THERMAL_READING (R434) of a physical core, numbered die*64 + index. -/
def execThermalReading (core : Nat) (temp : BitVec 10) (t : Nat) (s : State) : Host.Outcome State Fault Refusal :=
  .next (
    let p := core % 256
    let s := (List.range 64).foldl flushThrottled (setNow s t)
    let s := countLife { s with temps := s.temps.putD 0 p temp } (lifeTemp p temp.toNat) 1
    let was := (s.warns.getD .reset p).on
    let w := (s.warns.getD .reset p).read (decide (380 ≤ temp.toNat)) (decide (temp.toNat ≤ 368)) s.now
    let s := { s with warns := s.warns.putD .reset p w }
    let s := readIsland s (p / 4) s.now
    match logicalOf s (p / 64) (p % 64) with
    | some c => if w.on then warnCore s c (!was) else s
    | none => s)

/-! ## Migration (R439, R440) -/

/-- The first move asked for on a die that may begin. MIGR waits for its handler's TRET (R415). -/
def dueAsk (s : State) (die : Nat) : Option MoveAsk :=
  if s.moves.any fun m => m.logical / 64 == die then none
  else
    match s.moveAsks.find? fun a => a.core / 64 == die with
    | some a =>
      (match a.warp.bind s.warps.find? with
       | some x => if x.handler.isSome then none else some a
       | none => some a)
    | none => none

/-- A move begins: the core's warps stop. With no resident left there is nothing to move. -/
def startMove (s : State) (a : MoveAsk) : State :=
  let s := { s with moveAsks := s.moveAsks.erase a }
  if s.blocks.any fun x => x.2.core == a.core then
    let m : Move :=
      { logical := a.core, source := remapEntry s.remap a.core % 64, target := a.target, byMigr := a.warp.isSome, kills := [] }
    { s with moves := s.moves ++ [m],
             warps := s.warps.mapVals fun _ x => if x.core = a.core then { x with stopped := true } else x }
  else s

/-- THERMAL_MIGRATION_START (R439). -/
def execThermalMigrationStart (core : Nat) (s : State) : Host.Outcome State Fault Refusal :=
  .next (match dueAsk s (coreDie core) with
    | some a => if a.core = core then startMove s a else s
    | none => s)

/-- A core's first-level, instruction-cache and TLB contents go; its dirty bytes are written back. -/
def emptyCore (s : State) (core : Nat) : State :=
  let s := releaseL1 (endLeases s core) core
  { s with l1 := s.l1.filter (·.core != core), icache := s.icache.filter (·.core != core), tlb := s.tlb.filter (·.home != core) }

/-- The PHYS fields of two entries of the remap table are exchanged (R65). -/
def exchangePhys (s : State) (a b : Nat) : State :=
  let x := remapEntry s.remap a
  let y := remapEntry s.remap b
  { s with remap := (s.remap.put a (x / 128 * 128 + y % 64)).put b (y / 128 * 128 + x % 64) }

/-- The warps of a moved core resume; those of a launch with MIGNOTE take MIGRATE (R389). -/
def resumeMoved (s : State) (core phys : Nat) : State :=
  { s with warps := s.warps.mapVals fun _ x =>
      if x.core = core then
        { x with stopped := false,
                 migrateDue := if (launchAt s x.launch).migNote && !x.isCallee then some phys else x.migrateDue }
      else x }

/-- What has reached the shares of a core's blocks while it was moved is applied (R353). -/
def barriersCatchUp (s : State) (core : Nat) : State :=
  { s with barriers := s.barriers.mapVals fun _ k =>
      if k.late.any (·.1 == core) then (k.catchUp core).settle (movingCore s) else k }

/-- The move ends. -/
def endMove (s : State) (m : Move) : State :=
  let other := (logicalOf s (coreDie m.logical) m.target).getD m.logical
  let s := emptyCore (emptyCore s m.logical) other
  let s := exchangePhys { s with moves := s.moves.erase m } m.logical other
  let s := barriersCatchUp s m.logical
  let s := resumeMoved s m.logical m.target
  let s := m.kills.foldl (fun s (w, f, a, q, n) => killNow s w f a q n) s
  let s := thermalRecord s m.logical 0
  let i := coreDie m.logical * 16 + m.source / 4
  pump (if (islandOf s i).shutdown.on then refreshLevel (stopIsland s i) i (islandOf s i).target else s)

/-- THERMAL_MIGRATION_COMPLETE (R439). -/
def execThermalMigrationComplete (core : Nat) (s : State) : Host.Outcome State Fault Refusal :=
  .next (match s.moves.find? (·.logical == core) with
    | some m => if coreAtRest s core then endMove s m else s
    | none => s)

end Sys2Proof.Machine
end

