-- ==== Sys2Proof/Machine/Sha.lean ====
section
/-! DEFINITION. SHA-256, which measured boot uses (R449): the standard's function over a list of bytes. Its constants
are computed as the standard defines them, from the roots of the first primes. -/

namespace Sys2Proof.Machine

/-- The greatest r below 2^bits that passes a test which holds up to r and not beyond it. -/
def greatest (test : Nat → Bool) : Nat → Nat → Nat
  | 0, r => r
  | b + 1, r => greatest test b (if test (r + 2 ^ b) then r + 2 ^ b else r)

/-- The first n primes. -/
def firstPrimes (n : Nat) : List Nat :=
  (((List.range 512).drop 2).filter fun p => ((List.range 23).drop 2).all fun q => p % q != 0 || p == q).take n

/-- The first 32 bits after the point of a prime's root of degree k. -/
def primeRoot (k p : Nat) : Word32 := BitVec.ofNat 32 (greatest (fun r => r ^ k ≤ p * 2 ^ (32 * k)) 37 0)

/-- Exclusive or of x turned right by each count. -/
def turns (x : Word32) (ns : List Nat) : Word32 := ns.foldl (fun y n => y ^^^ x.rotateRight n) 0

/-- A list of bytes as big-endian words. -/
def beWords : List Byte → List Word32
  | p :: q :: r :: t :: rest => (p ++ q ++ r ++ t : BitVec 32) :: beWords rest
  | _ => []

/-- A message with its end mark and its length in bits, in blocks of 64 bytes. -/
def padMessage (msg : List Byte) : List Byte :=
  let fill := 64 * ((msg.length + 72) / 64) - msg.length - 9
  msg ++ [0x80#8] ++ List.replicate fill 0#8 ++ (leBytes 8 (8 * msg.length)).reverse

/-- The chaining value as its two registers, newest first: what enters at a and moves to d, and what enters at e and
moves to h. -/
structure Chain where
  up : List Word32
  dn : List Word32
  deriving DecidableEq, Repr

/-- A round with its constant and message word: each register takes one new value and drops its last. -/
def Chain.round (c : Chain) (k w : Word32) : Chain :=
  let at' (l : List Word32) (j : Nat) := l.getD j 0
  let choose := at' c.dn 2 ^^^ (at' c.dn 0 &&& (at' c.dn 1 ^^^ at' c.dn 2))
  let most := (at' c.up 0 &&& (at' c.up 1 ||| at' c.up 2)) ||| (at' c.up 1 &&& at' c.up 2)
  let t := k + w + choose + at' c.dn 3 + turns (at' c.dn 0) [6, 11, 25]
  { up := (most + turns (at' c.up 0) [2, 13, 22] + t) :: c.up.take 3, dn := (at' c.up 3 + t) :: c.dn.take 3 }

/-- All rounds of a block: the message words wait in order, and each one used puts its successor at the back. -/
def Chain.rounds : List Word32 → List Word32 → Chain → Chain
  | [], _, c => c
  | k :: ks, ws, c =>
    let w (j : Nat) := ws.getD j 0
    let next := w 0 + w 9 + (turns (w 1) [7, 18] ^^^ (w 1 >>> 3)) + (turns (w 14) [17, 19] ^^^ (w 14 >>> 10))
    Chain.rounds ks (ws.drop 1 ++ [next]) (c.round k (w 0))

/-- One block of sixteen words. -/
def Chain.block (ks : List Word32) (c : Chain) (ws : List Word32) : Chain :=
  let r := Chain.rounds ks ws c
  { up := List.zipWith (· + ·) c.up r.up, dn := List.zipWith (· + ·) c.dn r.dn }

/-- The digest's 32 bytes, in the standard's order. -/
def sha256 (msg : List Byte) : List Byte :=
  let start := (firstPrimes 8).map (primeRoot 2)
  let ks := (firstPrimes 64).map (primeRoot 3)
  let ws := beWords (padMessage msg)
  let c0 : Chain := { up := start.take 4, dn := start.drop 4 }
  let c := (List.range (ws.length / 16)).foldl (fun (c : Chain) n => c.block ks ((ws.drop (16 * n)).take 16)) c0
  (c.up ++ c.dn).flatMap fun w => (leBytes 4 w.toNat).reverse

end Sys2Proof.Machine
end

