-- ==== Sys2Proof/Machine/EvBoot.lean ====
section
/-! DEFINITION. Measured boot and the configuration record (R449, R451), attestation (R450), the lifetime fold (R454) and the
loss of power (R403). -/

namespace Sys2Proof.Machine

/-! ## What a reset keeps -/

/-- The bank of the last completed fold. -/
def lastBank (h : House) : Tbl Nat := h.banks.getD ((h.lseq.toNat + 1) % 2) []

/-- What the part and its flash hold: the same after any reset (R448, R451, R454). -/
def House.kept (h : House) : House :=
  { House.reset with part := h.part, step := h.step, hbm := h.hbm, lseq := h.lseq, banks := h.banks, recVersion := h.recVersion }

/-- A physical address lies outside the package's on-chip arrays: HBM, host memory, peer packages. -/
def offChip (pa : Nat) : Bool := classOf pa < 4 || classOf pa == 12 || classOf pa == 15

/-- A physical address lies outside the package. -/
def outside (pa : Nat) : Bool := classOf pa == 12 || classOf pa == 15

/-- Memory and sector states at the addresses that satisfy a test. -/
def keepMem (s : State) (p : Nat → Bool) (t : State) : State :=
  { t with mem := List.filter (fun x => p x.1) s.mem, sectors := List.filter (fun x => p (x.1 * 64)) s.sectors }

/-- The scrub after a reset: one that ran starts again from the first frame of the retained list (R403); what one that had ended
left in the registers is gone (R416). -/
def Scrub.kept (r : Scrub) : Scrub := if r.sbusy then { r with sdone := 0, mgslot := 0 } else { Scrub.reset with quar := r.quar }

/-- The loss of power: everything that is not flash or another's goes. -/
def losePower (s : State) : State :=
  keepMem s outside
    { State.reset with agenda := s.agenda, freeCount := s.freeCount, house := s.house.kept, life := lastBank s.house,
                       peersDown := s.peersDown, peersRefusing := s.peersRefusing }

/-- A reset with power on: HBM and the retained list stay. What the stores held goes back to HBM first (log 4). -/
def warmReset (s : State) : State :=
  keepMem ((s.lines.map (·.line)).foldl dropLine s) offChip { losePower s with scrubReg := s.scrubReg.kept }

/-! ## Measured boot (R449, R451) -/

/-- Extends a measurement register with a digest of 32 bytes. -/
def extendMreg (s : State) (m : Nat) (digest : List Byte) : State :=
  let old := leBytes 32 (s.house.mreg.getD 0 m).toNat
  { s with house := { s.house with mreg := s.house.mreg.putD 0 m (BitVec.ofNat 256 (leNat (sha256 (old ++ digest)))) } }

/-- Every core is held disabled. -/
def disableAll (s : State) : State := { s with remap := (List.range 256).map fun c => (c, c % 64) }

/-- The populated HBM of each die in GiB under an ordering code (R1, R2). -/
def partHbm (part : Nat) : List Nat := List.replicate 4 (if part == 0x0256 then 64 else 128)

/-- The configuration record rules the machine: disabled cores, island limits, reset caps, PART and with it HBMSZ (R1, R64,
R426, R430). -/
def applyRecord (s : State) (r : List Byte) : State :=
  let part := Config.recordPart r % 65536
  let caps := part == 0x0512 || part == 0x0256
  { s with
    remap := (List.range 256).filterMap fun c =>
      if (Config.recordDisabled r).contains c then some (c, c % 64) else none
    limits := (List.range 64).map fun i => (i, Config.recordLimit r i % 8)
    power := if caps then { s.power with pcap := Config.recordPcap r % 65536, acap := Config.recordAcap r % 65536 } else s.power
    house := { s.house with part := part, hbm := partHbm part, recVersion := Config.recordVersion r } }

/-- The boot from the ROM on: firmware, configuration record, later stages. -/
def bootFrom (s : State) (fw cfg : List Byte) (later : List (Nat × BitVec 256)) : State :=
  let s := extendMreg s 0 (sha256 fw)
  if !Config.signatureOk fw then disableAll { s with house := { s.house with bootst := 2 } }
  else
    let s := extendMreg s 1 (sha256 cfg)
    let s := if Config.signatureOk cfg && decide (s.house.recVersion ≤ Config.recordVersion cfg) then applyRecord s cfg
      else disableAll { s with house := { s.house with bootst := 1 } }
    later.foldl (fun s (m, d) => if 2 ≤ m ∧ m ≤ 7 then extendMreg s m (leBytes 32 d.toNat) else s) s

/-- MEASURED_BOOT (R449): a reset and the boot that follows it. -/
def execMeasuredBoot (fw cfg : List Byte) (later : List (Nat × BitVec 256)) (s : State) : Host.Outcome State Fault Refusal :=
  .next (bootFrom (warmReset s) fw cfg later)

/-- POWER_LOSS (R403). -/
def execPowerLoss (s : State) : Host.Outcome State Fault Refusal := .next (losePower s)

/-! ## Attestation and the lifetime counters (R450, R454) -/

/-- The signed bytes of a report. -/
def attestBody (s : State) (nonce : List Byte) : List Byte :=
  leBytes 4 0x4A514154 ++ leBytes 4 s.house.lseq.toNat ++ (List.range 32).map (nonce.getD · 0) ++
    ((List.range 8).flatMap fun m => leBytes 32 (s.house.mreg.getD 0 m).toNat) ++ leBytes 8 (houseReg s 0)

/-- ATTESTATION_REQUEST (R450): the requester receives the report and its signature. -/
def execAttestationRequest (nonce : List Byte) (s : State) : Host.Outcome State Fault Refusal :=
  .next (if s.recovery then s else
    let b := attestBody s nonce
    let sig := (List.range 384).map ((Config.attest b).getD · 0)
    { s with replies := s.replies ++ [{ off := 0, data := b ++ sig }] })

/-- Lifetime counter keys of the grade counters begin here. -/
def lifeGrade : Nat := 1048576

/-- Lifetime counter keys of the port logs begin here, four a port. -/
def lifeLog : Nat := 2097152

/-- The counts of a port's log by their lifetime counter keys. -/
def portCounts (port : Nat) (l : PortLog) : List (Nat × Nat) :=
  [l.hdrop, l.hfix, l.crcx, l.nacks].zipIdx.map fun (n, j) => (lifeLog + 4 * port + j, n)

/-- The counts of a fold: the lifetime counters, with the grade counters and the port logs since the last reset (R231, R252). -/
def foldCounts (s : State) : Tbl Nat :=
  let grades := (List.range 450).map fun j => (lifeGrade + j, gradeReg s (8 * j))
  let since := grades ++ s.logs.flatMap fun (p, l) => portCounts p l
  (since.filter fun x => x.2 != 0).foldl (fun t (k, n) => Tbl.put t k (Tbl.getD t 0 k + n)) s.life

/-- LIFETIME_FOLD (R454). -/
def execLifetimeFold (s : State) : Host.Outcome State Fault Refusal :=
  .next <| if s.recovery then s else { s with house := { s.house with
      banks := s.house.banks.set (s.house.lseq.toNat % 2) (foldCounts s), lseq := s.house.lseq + 1, foldAt := s.now } }

end Sys2Proof.Machine
end

