-- ==== Sys2Proof/Machine/Auto.lean ====
section
/-! DEFINITION. What the package does next by itself when the agenda is empty and no run is going (log 1). -/

namespace Sys2Proof.Machine

/-! ## What waits to be done, kind by kind -/

/-- The first of a list for which a test holds, as an event. -/
def firstEvent {α : Type} (xs : List α) (p : α → Bool) (f : α → Instr) : Option Instr := (xs.find? p).map f

/-- A step of a device part would change something. -/
def changes (s t : State) : Bool := t != s

/-- A pending write that may land now. -/
def landable (s : State) (w n : Nat) : Bool :=
  let x := warpAt s w
  match x.pend[n]? with
  | none => false
  | some p =>
    !(match p.ldg with | some r => groupHeld s x.launch r | none => false) && landsNext x n p &&
      !(landSends x p && (windowFull s w p.mtgt).isSome)

/-- A landing. -/
def autoLanding (s : State) : Option Instr :=
  (s.warps.findSome? fun (w, x) => ((List.range x.pend.length).find? (landable s w)).map fun n => (w, n)).map
    fun (w, n) => .pendingWriteLands w n

/-- The traps that a warp between runs takes first. -/
def warpTrap (w : Nat) (x : Warp) : Option Instr :=
  if x.stopped then none
  else
    match [(0 : Fin 4), 1, 2, 3].find? fun e => (x.splitAt e.val).valid && (nextDeferred x e.val).isSome with
    | some e => some (.deferredFaultTaken w e)
    | none =>
      match [(0 : Fin 4), 1, 2, 3].find? fun e => (x.splitAt e.val).valid with
      | some e =>
        if x.handler.isSome || dueDeferred x != [] then none
        else if x.preemptDue then some (.preemptTaken w e)
        else if x.migrateDue.isSome then some (.migrateTaken w e)
        else none
      | none => none

def autoTrap (s : State) : Option Instr := s.warps.findSome? fun (w, x) => warpTrap w x

/-- How a card ends, when it may. -/
def cardEnd (s : State) (id : Nat) (c : Card) : Option Instr :=
  if c.cancelled || malformed s c then some (.cardFault id)
  else if runnable s c then (if (runCard s id c).fault.isSome then some (.cardFault id) else some (.cardComplete id))
  else none

/-- Cards launch, and end as malformed or cancelled, at once (R281). Others end after 64 later runs and accesses, or when
nothing else is left to do: what their warps do next comes before, as it does on a device whose cards take long. -/
def autoLaunchCard (s : State) : Option Instr :=
  s.cards.findSome? fun (id, c) =>
    if c.cancelled || malformed s c then some (.cardFault id) else if launchesNow s id c then some (.cardLaunch id) else none
def autoCardDue (s : State) : Option Instr :=
  s.cards.findSome? fun (id, c) => if c.stamp + 64 ≤ s.seq then cardEnd s id c else none
def autoCard (s : State) : Option Instr := s.cards.findSome? fun (id, c) => cardEnd s id c

/-- Readied barrier waiters. -/
def autoWake (s : State) : Option Instr :=
  firstEvent s.barriers (fun b => b.2.wake.any fun w => !movingCore s (w / 64)) fun b => .barrierWake b.1

/-- What a channel's head does next: it arrives when its queue takes it, and is resent when that may succeed. One that is lost
with nothing behind it is missed at the sender's timeout. -/
def chanEvent (s : State) (k : Nat) (c : Chan) : Option Instr :=
  match c.window with
  | [] => none
  | e :: rest =>
    if receipt s c.core c.slot c.launch == .refused then none
    else if c.wait.isSome then some (.netResend k)
    else if e.lost && rest.isEmpty then some (.netAckTimeout k)
    else some (.messageArrive k)

/-- Channels take turns, so that none waits without end (R229): the one whose last event lies farthest back. -/
def autoMessage (s : State) : Option Instr :=
  (s.chans.foldl (fun (best : Option (Nat × Instr)) (k, c) =>
    match chanEvent s k c, best with
    | none, _ => best
    | some i, none => some (c.turn, i)
    | some i, some (t, _) => if c.turn < t then some (c.turn, i) else best) none).map (·.2)

/-- A block to fetch. -/
def autoFetch (s : State) : Option Instr :=
  s.warps.findSome? fun (w, x) =>
    if coreRuns s x.core then ([(0 : Fin 4), 1, 2, 3].find? fun e => wantsFetch x e.val).map fun e => .blockFetch w e else none

/-- Contexts: import, summary, scrub, harvest, pre-emption, resumption. -/
def autoContext (s : State) : Option Instr :=
  if s.house.rsgo && !s.recovery then some .rsgo
  else if s.scrubReg.sbusy then some .scrubComplete
  else s.ctxs.findSome? fun (k, c) =>
    if c.impgo && changes s (importAll s k) then some (.impgo k)
    else if c.depoch then some (.harvestEpochComplete k)
    else if c.state = 1 && changes s (completePre s k) then some (.preemptComplete k)
    else if (readmittable s k).isSome then some (.savedBlockReadmit k)
    else none

/-- Stores: splits that may be applied, windows that have ended. -/
def autoStore (s : State) : Option Instr :=
  (firstEvent [(0 : Fin 4), 1, 2, 3] (fun d => (splitOf s d.val).apply && quiescent s d.val) fun d => .splitApplied d).orElse
    fun _ => s.contracts.findSome? fun c =>
      c.due.head?.map fun d => .missRatioWindowEnd c.rank (BitVec.ofNat 2 d.1).toFin

/-- Launches: retirement, taking entries, placement, callee warps. -/
def autoLaunch (s : State) : Option Instr :=
  (firstEvent s.blocks (fun b => mayRetire s b.1) fun b => .blockRetire b.1).orElse fun _ =>
  (firstEvent s.queues (fun q => changes s (takeEntry s q.1)) fun q => .lqEntryTake q.1).orElse fun _ =>
  (firstEvent s.launches (fun l => !l.2.held && (match l.2.since with | some t => decide (t + guardNs s ≤ s.now) | none => false))
    fun l => .gangHeld l.1 s.now).orElse fun _ =>
  (if s.launches.any (fun l => hasHead s l.2) && changes s (decide1 (considerOrder s) s) then some .placementDecision
   else none).orElse fun _ =>
  s.launches.findSome? fun (k, l) =>
    if contextRuns s l then
      firstEvent [(0 : Fin 4), 1, 2, 3] (fun d => (formingQueue s k d.val).isSome) fun d => .calleeWarpForm k d
    else none

/-- Islands and moves. -/
def autoPower (s : State) : Option Instr :=
  (firstEvent s.islands (fun i => i.2.point != i.2.target) fun i => .operatingPointChange i.1).orElse fun _ =>
  ((List.range 4).findSome? fun d => (dueAsk s d).map fun a => .thermalMigrationStart a.core).orElse fun _ =>
  firstEvent s.moves (fun m => coreAtRest s m.logical) fun m => .thermalMigrationComplete m.logical

/-- The host link's queue towards the host. -/
def autoHost (s : State) : Option Instr := if s.egress != [] then some .hostEgress else none

/-- The parked WAITNEs, as warp, split and what is left of the back-off. -/
def backoffs (s : State) : List (Nat × Fin 4 × Nat) :=
  s.warps.flatMap fun (w, x) =>
    if x.stopped || !coreRuns s x.core then []
    else [(0 : Fin 4), 1, 2, 3].filterMap fun e =>
      match (x.splitAt e.val).valid, (x.splitAt e.val).park with
      | true, some (.waitne left _) => some (w, e, left)
      | _, _ => none

/-- When a parked WAITNE last checked. -/
def lastCheck (s : State) (b : Nat × Fin 4 × Nat) : Nat := ((warpAt s b.1).splitAt b.2.1.val).lastRun

/-- The one of them that has waited longest. -/
def oldestBackoff (s : State) (bs : List (Nat × Fin 4 × Nat)) : Option (Nat × Fin 4 × Nat) :=
  bs.foldl (fun best b => match best with
    | none => some b
    | some c => if lastCheck s b < lastCheck s c then some b else some c) none

/-- In a quarter where no warp but its own is ready a back-off counts time as runs: here the runs and accesses of the rest of the
package since the last check (R271, log 1). -/
def dueBackoffs (s : State) : List (Nat × Fin 4 × Nat) :=
  (backoffs s).filter fun b =>
    let x := warpAt s b.1
    b.2.2 != 0 && decide (lastCheck s b + b.2.2 ≤ s.seq) && (readyWarps s x.core x.quarter).all (· == b.1)

/-- Quarters take turns: the one whose ready warp has waited longest. A check of WAITNE that is due and has waited longer
comes first. -/
def autoRun (s : State) : Option Instr :=
  let ready := (s.warps.select fun w _ => readySplits s w != []).keys
  let run := pickBest ready fun a b => (warpAt s a).lastRun < (warpAt s b).lastRun
  match oldestBackoff s (dueBackoffs s), run with
  | some b, some w => if lastCheck s b < (warpAt s w).lastRun then some (.waitneRecheck b.1 b.2.1) else some (quarterOf w)
  | some b, none => some (.waitneRecheck b.1 b.2.1)
  | none, some w => some (quarterOf w)
  | none, none => none
where
  quarterOf (w : Nat) : Instr := .quarterRunSelect (warpAt s w).core (BitVec.ofNat 2 (warpAt s w).quarter).toFin

/-- With nothing else to do, the back-off that has waited longest ends. -/
def autoRecheck (s : State) : Option Instr :=
  (oldestBackoff s (backoffs s)).map fun b => .waitneRecheck b.1 b.2.1

/-- The next step of the package's own: each kind of work in turn, runs last. -/
def nextAuto (s : State) : Option Instr :=
  [autoLanding, autoTrap, autoLaunchCard, autoCardDue, autoWake, autoMessage, autoFetch, autoContext, autoStore, autoLaunch,
    autoPower, autoHost, autoRun, autoCard, autoRecheck].findSome? fun f => f s

/-! ## The parts of a step -/

/-- The meaning of an instruction or event. -/
abbrev Exec := Instr → State → Host.Outcome State Fault Refusal

/-- The issuing split's next word is decoded and carried out; what decode refuses is ILLEGAL at the word. -/
def stepWord (ex : Exec) (s : State) : Host.Outcome State Fault Refusal :=
  match issuer s with
  | none => .next { s with focus := none }
  | some i =>
    match decodeAt i with
    | some k => ex k s
    | none => issueIllegal s

/-- Flips a position in a list of flipped ones: twice is as it was. -/
def toggle (l : List Nat) (b : Nat) : List Nat := if l.contains b then l.erase b else l ++ [b]

/-- A sector whose bits an error has flipped: a bit flipped twice is as it was. -/
def Sector.struck (e : Sector) (bits : List Nat) : Sector :=
  let flips := bits.foldl toggle e.flips
  { e with nl := if e.nl = 8 ∧ flips ≠ [] then 0 else e.nl, flips := flips }

/-- A soft error flips bits of a sector (log 10): of a held line's copy, beneath which HBM keeps what it has (R240, log 111). -/
def softError (s : State) (pa : Nat) (bits : List Nat) : State :=
  let sec := pa / 64
  let e := s.sectors.getD .clean sec
  let keep := heldAt s (pa / 128) && (s.backing.find? sec).isNone
  { setSector s sec (e.struck bits) with backing := if keep then s.backing.put sec e else s.backing }

/-- A soft error in HBM: of a held line it strikes what stands beneath the copy. -/
def hbmError (s : State) (pa : Nat) (bits : List Nat) : State :=
  let sec := pa / 64
  if heldAt s (pa / 128) then
    { s with backing := s.backing.put sec ((s.backing.getD (s.sectors.getD .clean sec) sec).struck bits) }
  else softError s pa bits

/-- A soft error flips bits of an on-chip row (R250, log 10). -/
def rowError (s : State) (row : Nat) (bits : List Nat) : State :=
  let flips := (bits.filter (· < 648)).foldl toggle (rowFlips s row)
  { s with rowErrors := if flips = [] then s.rowErrors.del row else s.rowErrors.put row flips }

/-- A core's request queue to the network fills up or frees an entry (R95). -/
def requestQueue (s : State) (core : Nat) (full : Bool) : State :=
  let others := s.fullQueues.filter (· != core)
  { s with fullQueues := if full then others ++ [core] else others }

/-- A peer's admission table turns an ASID away or lets it in (R237). -/
def peerRefuses (s : State) (pkg asid : Nat) (refused : Bool) : State :=
  let others := s.peersRefusing.filter (· != (pkg, asid))
  { s with peersRefusing := if refused then others ++ [(pkg, asid)] else others }

/-- A first-level line is evicted; a lease on it ends with it (R356). -/
def evictLine (s : State) (core line : Nat) : State :=
  let s := flushLine s core line
  if (leaseOn s line).map (·.core) = some core then endLease s line .expired else s

/-- A split whose run is under way and may go on (R93). -/
def midRun (s : State) (w e : Nat) : Bool :=
  let x := warpAt s w
  s.runs.find? (quarterKey x) == some (w, e) && coreRuns s x.core

/-- One entry of the agenda (log 1). -/
def stepInput (ex : Exec) (s : State) (k : Input) : Host.Outcome State Fault Refusal :=
  match k with
  | .event i => if i.isEvent then ex i s else .next s
  | .issue w e => if midRun s w e then stepWord ex { s with focus := some (w, e) } else .next s
  | .softError pa bits => .next (softError s pa bits)
  | .hbmError pa bits => .next (hbmError s pa bits)
  | .refused core port n => .next (refuseRequest s core port n)
  | .rowError row bits => .next (rowError s row bits)
  | .requestQueue core full => .next (requestQueue s core full)
  | .peerRefuses pkg asid refused => .next (peerRefuses s pkg asid refused)
  | .engineError e => .next { s with engineErrors := e :: s.engineErrors }
  | .entryRace pa v => .next { s with races := s.races ++ [(pa, v % 2 ^ 64)] }
  | .evict core line => .next (evictLine s core line)

/-- The first run that stands between two of its words and may go on. -/
def runToResume (s : State) : Option (Nat × Nat) :=
  (s.runs.first fun _ r => midRun s r.1 r.2).map (·.2)

/-- What the package does by itself: the host's posted writes are performed first (R233), the network takes what stands in full
request queues (R229), then a run under way goes on; with
nothing to do, nothing changes. -/
def stepAuto (ex : Exec) (s : State) : Host.Outcome State Fault Refusal :=
  if s.hostWrites != [] then .next (drainHost s)
  else if s.fullQueues != [] then .next { s with fullQueues := [] }
  else
    match runToResume s with
    | some r => stepWord ex { s with focus := some r }
    | none =>
      match nextAuto s with
      | some i => ex i s
      | none => .next s

/-! ## Placing one instruction (log 9) -/

/-- The header of a block of n words that cannot be misread: no hint, no signature. -/
def plainHeader (n : Nat) : Word64 := BitVec.ofNat 64 (0xFF * 2 ^ 56 + n * 2 ^ 51)

/-- A warp alone in a block of its launch, in the middle of a run at the first word of a fetched block. -/
def placeWord (s : State) (nbits w : Nat) : State :=
  let v := w % 2 ^ nbits
  let w0 := BitVec.ofNat 64 v
  let words := if needsLiteral w0 then [w0, BitVec.ofNat 64 (v / 2 ^ 64)] else [w0]
  let hdr : Word64 := 0x1000
  let t := DivTable.start hdr allLanes
  let x : Warp := { Warp.blank with
    allot := 256, live := allLanes,
    table := t.setSplit 0 fun p =>
      { p with pc := hdr + 8, word := true, hdr := hdr, sig := 1,
               blk := some { hdrAt := hdr, header := plainHeader words.length, words := words } } }
  { s with warps := s.warps.put 0 x, blocks := s.blocks.put 0 { Block.blank with warps := [0] },
           launches := s.launches.put 0 Launch.blank, focus := some (0, 0), runs := s.runs.put 0 (0, 0), agenda := [] }

end Sys2Proof.Machine
end

