-- ==== Sys2Proof/Machine/Compare.lean ====
section
/-! DEFINITION. Compare, select and classify (R163 to R165). -/

namespace Sys2Proof.Machine

/-- The conditions of ISET. -/
def icond (c : ICond) (x y : Int) : Bool :=
  match c with
  | .eq => decide (x = y)
  | .ne => decide (x ≠ y)
  | .lt => decide (x < y)
  | .le => decide (x ≤ y)
  | .gt => decide (y < x)
  | .ge => decide (y ≤ x)

/-- The combine codes of R163. -/
def combineWith (c : Combine) (r p : Bool) : Bool :=
  match c with
  | .none => r
  | .and => r && p
  | .or => r || p
  | .xor => r != p

/-- A comparison's result: true in a predicate, all ones in a mask. -/
def truth (r : Bool) : Word64 := if r then 0xFFFFFFFF else 0

/-- The registers of a comparison; the combining predicate is read only with a combine code. -/
def cmpSpec (opc : Nat) (g : Guard) (ty : Ty) (comb : Combine) (d : Dst) (a b : Src) (pc : Fin 8) : WordSpec :=
  let ws := aluSpec opc g [(ty, a), (ty, b)] false d
  { ws with reads := ws.reads ++ (if comb = .none then [] else pRegs pc.val) }

/-- ISET (R163). -/
def execIset (g : Guard) (ty : Ty) (cond : ICond) (comb : Combine) (d : Dst) (a b : Src) (pc : Fin 8) (s : State) :
    Host.Outcome State Fault Refusal :=
  issue (cmpSpec 0x30 g ty comb d a b pc)
    (pureBody false d fun x l =>
      truth (combineWith comb
        (icond cond (valueOf ty (elemWidth ty) (x.src ty a l).toNat) (valueOf ty (elemWidth ty) (x.src ty b l).toNat))
        ((x.pred pc.val).getLsbD l))) s

/-- The conditions of FSET: the outcome and whether a quiet NaN sets IV (R164). -/
def fcond (c : FCond) (a b : Fp) : Bool × Bool :=
  let un := a.isNan || b.isNan
  let lt := fpLess a b
  let gt := fpLess b a
  let eq := !un && !lt && !gt
  match c with
  | .eq => (eq, false)
  | .ne => (!un && !eq, false)
  | .lt => (lt, un)
  | .le => (lt || eq, un)
  | .gt => (gt, un)
  | .ge => (gt || eq, un)
  | .num => (!un, false)
  | .nan => (un, false)
  | .equ => (un || eq, false)
  | .neu => (un || !eq, false)
  | .ltu => (un || lt, false)
  | .leu => (un || lt || eq, false)
  | .gtu => (un || gt, false)
  | .geu => (un || gt || eq, false)

/-- FSET (R164). -/
def execFset (g : Guard) (ty : Ty) (cond : FCond) (comb : Combine) (d : Dst) (a b : Src) (pc : Fin 8) (s : State) :
    Host.Outcome State Fault Refusal :=
  issue (cmpSpec 0x31 g ty comb d a b pc)
    (laneBody false d fun x l =>
      let p := unpack (fmtOf ty) false (x.src ty a l).toNat
      let q := unpack (fmtOf ty) false (x.src ty b l).toNat
      let r := fcond cond p q
      (truth (combineWith comb r.1 ((x.pred pc.val).getLsbD l)), flagIf (r.2 || p.isSig || q.isSig) fIV)) s

/-- SEL (R165). -/
def execSel (g : Guard) (ty : Ty) (d : Dst) (a b : Src) (pc : Fin 8) (s : State) : Host.Outcome State Fault Refusal :=
  let ws := aluSpec 0x32 g [(ty, a), (ty, b)] ty.is64 d
  issue { ws with reads := ws.reads ++ pRegs pc.val }
    (pureBody ty.is64 d fun x l => if (x.pred pc.val).getLsbD l then x.src ty a l else x.src ty b l) s

/-- FCLASS to a predicate (R165): bit (class) of the mask. -/
def execFclassPred (g : Guard) (ty : Ty) (pd : Fin 8) (a mask : Src) (s : State) : Host.Outcome State Fault Refusal :=
  issue (aluSpec 0x36 g [(ty, a), (.b32, mask)] false (.p pd))
    (pureBody false (.p pd) fun x l =>
      truth (bitOf ((x.src .b32 mask l).toNat % 2 ^ 10) (fpClass (fmtOf ty) (x.src ty a l).toNat))) s

/-- FCLASS to a mask (R165): 2^class. -/
def execFclassMask (g : Guard) (ty : Ty) (d : Dst) (a : Src) (s : State) : Host.Outcome State Fault Refusal :=
  alu1 0x36 g ty .b32 d a (fun x => (2 ^ fpClass (fmtOf ty) x, 0)) s

/-- PLOP (R130): bit 4a+2b+c of the truth table. -/
def execPlop (g : Guard) (pd pa pb pc : Fin 8) (f : BitVec 8) (s : State) : Host.Outcome State Fault Refusal :=
  issue { opc := 0x33, guard := g, reads := pRegs pa.val ++ pRegs pb.val ++ pRegs pc.val, writes := pRegs pd.val }
    (pureBody false (.p pd) fun x l =>
      let bit (p : Fin 8) := b2n ((x.pred p.val).getLsbD l)
      truth (f.getLsbD (4 * bit pa + 2 * bit pb + bit pc))) s

end Sys2Proof.Machine
end

