-- ==== Sys2Proof/Machine/Convert.lean ====
section
/-! DEFINITION. Conversions, block-format words and the generator (R174 to R179). -/

namespace Sys2Proof.Machine

/-- An integer type of 32 or 64 bits. -/
def isInt (ty : Ty) : Bool := [Ty.i32, .n32, .i64, .n64].contains ty

/-- A type of 16-bit floating elements. -/
def isHalf (ty : Ty) : Bool := [Ty.bf16x2, .f16x2].contains ty

/-- The conversion of R174 on operand bits; b is the second f32 or the element chosen. -/
def convert (ty sty : Ty) (m : FMod) (a b : Nat) : Nat × Nat :=
  if isInt sty then
    if isInt ty then (wrapTo (elemWidth ty) (valueOf sty (elemWidth sty) a), 0)
    else intToFp (fmtOf ty) m (valueOf sty (elemWidth sty) a)
  else if isInt ty then fpToInt (fmtOf sty) m ty a
  else if isHalf sty && isHalf ty then perFloat ty fun k => fpConvert (fmtOf sty) (fmtOf ty) m (elemOf sty a k)
  else if isHalf sty then fpConvert (fmtOf sty) (fmtOf ty) m (elemOf sty a (b % 2))
  else if isHalf ty then perFloat ty fun k => fpConvert (fmtOf sty) (fmtOf ty) m (if k = 0 then a else b)
  else fpConvert (fmtOf sty) (fmtOf ty) m a

/-- The type that gives B its width and its immediate: f32 beside an f32 A, else a plain number. -/
def cvtTyB (sty : Ty) : Ty := if sty = .f32 then .f32 else .b32

/-- CVT (R174, R175). -/
def execCvt (g : Guard) (ty sty : Ty) (m : FMod) (d : Dst) (a b : Src) (s : State) : Host.Outcome State Fault Refusal :=
  if sty = .f32 ∧ isHalf ty = true then
    alu2 0x50 g sty (cvtTyB sty) ty d a b (convert ty sty m) s
  else
    alu1 0x50 g sty ty d a (fun x => convert ty sty m x (match b with | .imm i => i.toNat | _ => 0)) s

/-- The value of a lane for SBPACK and SBSCL: f32, or bfloat16 in bits 15:0. -/
def sbSource (ty : Ty) (x : Nat) : Fp := if ty = .f32 then unpack .f32 false x else unpack .bf16 false (x % 2 ^ 16)

/-- The halves of SBPACK over the lanes that take part, others +0.0, and the flags (R176). -/
def sbPackHalves (x : Warp) (g : Lanes) (ty : Ty) (fmt : SbFmt) (len32 : Bool) (a : Src) : List SbHalf × Nat :=
  let v (l : Nat) : Fp := if g.getLsbD l then sbSource ty (x.src ty a l).toNat else .fin false 0 0
  if len32 then sbEncode fmt ((List.range 32).map v)
  else
    let (h0, f0) := sbEncode fmt ((List.range 16).map v)
    let (h1, f1) := sbEncode fmt ((List.range 16).map fun i => v (16 + i))
    (h0 ++ h1, joinFlags f0 f1)

/-- What SBPACK delivers to a lane (R176). -/
def sbPackLane (fmt : SbFmt) (dense : Bool) (hs : List SbHalf) (l : Nat) : Word64 :=
  let h := hs.getD (l / 16) { scale := 0, fields := [] }
  let i := l % 16
  let low := if dense then (if i < sbBits fmt + 1 then h.bits fmt / 2 ^ (16 * i) % 2 ^ 16 else 0) else h.fields.getD i 0
  BitVec.ofNat 64 (h.scale * 2 ^ 16 + low)

/-- SBPACK (R176): the flags are raised once for the word. -/
def execSbpack (g : Guard) (ty : Ty) (fmt : SbFmt) (dense len32 : Bool) (d : Dst) (a : Src) (s : State) :
    Host.Outcome State Fault Refusal :=
  issue (aluSpec 0x51 g [(ty, a)] false d)
    (fun s i m =>
      let r := sbPackHalves i.x m ty fmt len32 a
      .done (updWarp s i.w fun x => x.dst false d m (sbPackLane fmt dense r.1)) r.2) s

/-- The block bytes of SBUNPK in a quad, as a number. -/
def quadBits (x : Warp) (n l : Nat) : Nat :=
  ((List.range 4).map fun k => ((x.getV (n + k)).lane l).toNat * 2 ^ (32 * k)).foldl (· + ·) 0

/-- Element i of a quad's block under a record (R177). -/
def sbUnpack (fmt : SbFmt) (bits sc i : Nat) : Nat :=
  sbToF32 fmt (sc / 256 % 256) (bitOf sc (i / 2)) (bits / 2 ^ ((sbBits fmt + 1) * i) % 2 ^ (sbBits fmt + 1))

/-- SBUNPK (R177). B and C are plain 32-bit numbers, immediates among them (DESIGN CHOICE, log 115). -/
def execSbunpk (g : Guard) (fmt : SbFmt) (d : Dst) (a : Fin 256) (b c : Src) (s : State) :
    Host.Outcome State Fault Refusal :=
  issue { opc := 0x52, guard := g, lit := anyLit [b, c], reads := vQuad a.val ++ srcRegs false b ++ srcRegs false c,
          writes := dstRegs false d }
    (pureBody false d fun x l =>
      BitVec.ofNat 64 (sbUnpack fmt (quadBits x a.val l) (x.src .b32 b l).toNat ((x.src .b32 c l).toNat % 16))) s

/-- One value under a given record (R178). -/
def sbScaleTo (fmt : SbFmt) (v : Fp) (sc i : Nat) : Nat × Nat :=
  let b := sbBits fmt
  let e := sc / 256 % 256
  if e = 255 then (0, 0)
  else if v.isNan then (0, fIV)
  else if e = 0 then (b2n (signOf v) * 2 ^ b, flagIf (!v.isZero) fNX)
  else
    let r := sbMantissa b v (sbUnit b e (bitOf sc (i / 2)))
    (b2n (signOf v) * 2 ^ b + r.1, r.2)

/-- SBSCL (R178). B and C are plain 32-bit numbers, immediates among them (DESIGN CHOICE, log 115). -/
def execSbscl (g : Guard) (ty : Ty) (fmt : SbFmt) (d : Dst) (a b c : Src) (s : State) :
    Host.Outcome State Fault Refusal :=
  alu3 0x53 g ty .b32 .b32 .b32 d a b c (fun x y z => sbScaleTo fmt (sbSource ty x) y (z % 16)) s

/-- What RNG delivers from x (R179). -/
def rngValue (ty : Ty) (x : Nat) : Nat :=
  if ty = .f32 then (roundTo .f32 .rne false false (x / 256) (-24)).1 else x

/-- RNG (R179): each source is a 32-bit number. -/
def execRng (g : Guard) (ty : Ty) (d : Dst) (a b c : Src) (s : State) : Host.Outcome State Fault Refusal :=
  alu3 0x54 g .n32 .n32 .n32 .b32 d a b c
    (fun x y z => (rngValue ty (kcgMix (Nat.xor x (Nat.xor y z))), 0)) s

end Sys2Proof.Machine
end

