-- ==== Sys2Proof/Machine/Approx.lean ====
section
/-! DEFINITION. The approximations (R170, R171). The manual bounds each result and fixes its special and exact
cases; within the bound the result is free (log 8). The exact value is computed here to well beyond binary32, so that
the bound can be tested. -/

namespace Sys2Proof.Machine

/-! ## Fixed-point evaluation, scale 2^128 -/

/-- One in fixed point. -/
def fxOne : Nat := 2 ^ 128

/-- ln 2 in fixed point. -/
def fxLn2 : Nat := 0xb17217f7d1cf79abc9e3b39803f2f6af

/-- 2π at scale 2^320: enough for the reduction of every binary32. -/
def twoPi : Nat := 0x6487ed5110b4611a62633145c06e0e68948127044533e63a0105df531d89cd9128a5043cc71a026ef

/-- The power series of e^t from term k on, t below ln 2; term is t^k/k!. -/
def expSeries (t : Nat) : Nat → Nat → Nat → Nat
  | 0, _, _ => 0
  | n + 1, k, term => term + expSeries t n (k + 1) (term * t / fxOne / (k + 1))

/-- 2^f for f in [0, 1), both in fixed point. -/
def fxExp2 (f : Nat) : Nat := expSeries (f * fxLn2 / fxOne) 48 0 fxOne

/-- The series of atanh: u^(2k+1)/(2k+1) from an odd exponent on. -/
def atanhSeries (u2 : Nat) : Nat → Nat → Nat → Nat
  | 0, _, _ => 0
  | n + 1, k, pow => pow / k + atanhSeries u2 n (k + 2) (pow * u2 / fxOne)

/-- log2 of z in [1, 2), in fixed point. -/
def fxLog2 (z : Nat) : Nat :=
  let u := (z - fxOne) * fxOne / (z + fxOne)
  2 * atanhSeries (u * u / fxOne) 48 1 u * fxOne / fxLn2

/-- The alternating series of sine (from k = 1, term r) or cosine (from k = 0, term 1): each next term is
−term · r² / ((k+1)(k+2)). -/
def trigSeries (r2 : Nat) : Nat → Nat → Int → Int
  | 0, _, _ => 0
  | n + 1, k, term => term + trigSeries r2 n (k + 2) (-(term * r2 / fxOne / ((k + 1) * (k + 2))))

/-- m·2^e mod 2π in fixed point. -/
def reduceTwoPi (m : Nat) (e : Int) : Nat := m * 2 ^ (e + 320).toNat % twoPi / 2 ^ 192

/-- m·2^e in fixed point. -/
def toFx (m : Nat) (e : Int) : Nat := if -128 ≤ e then m * 2 ^ (e + 128).toNat else m / 2 ^ (-128 - e).toNat

/-! ## Exact values -/

/-- A signed dyadic number. -/
structure Dyad where
  m : Int
  e : Int
  deriving DecidableEq, Repr

/-- What R171 and the exact cases of R170 give, or the exact result that an approximation approaches. -/
inductive ApproxGoal where
  | special (bits flags : Nat)
  | exact (neg : Bool) (m : Nat) (e : Int)
  | near (y : Dyad)
  deriving DecidableEq, Repr

/-- m is a power of two. -/
def isPow2 (m : Nat) : Bool := m == 2 ^ Nat.log2 m

/-- 2^(m·2^e), for a magnitude and a sign. -/
def exp2Of (neg : Bool) (m : Nat) (e : Int) : ApproxGoal :=
  if 9 ≤ expOf m e then (if neg then .near ⟨1, -400⟩ else .near ⟨1, 400⟩)
  else
    let x := toFx m e
    let whole := x / fxOne
    let frac := x % fxOne
    if 0 ≤ e ∨ m % 2 ^ (-e).toNat = 0 then
      if neg ∧ 149 < whole then .near ⟨1, -whole⟩
      else if !neg ∧ 127 < whole then .near ⟨1, whole⟩ else .exact false 1 (if neg then -whole else whole)
    else if neg then
      (if frac = 0 then .near ⟨fxOne - 1, -128 - (whole : Int)⟩
       else .near ⟨fxExp2 (fxOne - frac), -128 - (whole + 1 : Int)⟩)
    else .near ⟨(if frac = 0 then fxOne + 1 else fxExp2 frac), (whole : Int) - 128⟩

/-- e^t − 1 over e^t + 1 with t = 2·m·2^e: the hyperbolic tangent of a magnitude below 32. -/
def tanhOf (m : Nat) (e : Int) : Nat :=
  let t := toFx (2 * m) e * fxOne / fxLn2
  let g := fxExp2 (t % fxOne) * 2 ^ (t / fxOne)
  (g - fxOne) * fxOne / (g + fxOne)

/-- What a function of R170 gives for an operand; FTZ has already made a subnormal operand zero. -/
def target (k : Approx) (a : Fp) : ApproxGoal :=
  let inf (n : Bool) := FFmt.f32.sign n + FFmt.f32.infField
  let one := 0x3F800000
  match a with
  | .nan s => .special FFmt.f32.nan (flagIf s fIV)
  | .inf n =>
    match k with
    | .rcp => .special (FFmt.f32.sign n) 0
    | .rsq => if n then .special FFmt.f32.nan fIV else .special 0 0
    | .exp2 => if n then .special 0 0 else .special (inf false) 0
    | .log2 => if n then .special FFmt.f32.nan fIV else .special (inf false) 0
    | .sin | .cos => .special FFmt.f32.nan fIV
    | .tanh => .special (FFmt.f32.sign n + one) 0
  | .fin n m e =>
    if m = 0 then
      match k with
      | .rcp => .special (inf n) fDZ
      | .rsq => .special (inf n) fDZ
      | .exp2 | .cos => .special one 0
      | .log2 => .special (inf true) fDZ
      | .sin | .tanh => .special (FFmt.f32.sign n) 0
    else
      let x := expOf m e
      let z := m * fxOne / 2 ^ Nat.log2 m
      let signed (v : Int) : Int := if n then -v else v
      match k with
      | .rcp => if isPow2 m then .exact n 1 (-x) else .near ⟨signed (2 ^ 256 / m), -256 - e⟩
      | .rsq =>
        if n then .special FFmt.f32.nan fIV
        else if isPow2 m && x % 2 == 0 then .exact false 1 (-(x / 2))
        else
          let m2 := if e % 2 = 0 then m else 2 * m
          let e2 := if e % 2 = 0 then e else e - 1
          .near ⟨2 ^ 256 / isqrt (m2 * 2 ^ 200), -156 - e2 / 2⟩
      | .exp2 => exp2Of n m e
      | .log2 =>
        if n then .special FFmt.f32.nan fIV
        else if isPow2 m then .exact (decide (x < 0)) x.natAbs 0
        else .near ⟨x * fxOne + fxLog2 z, -128⟩
      | .sin =>
        if x < -30 then .near ⟨signed m, e⟩
        else let r := reduceTwoPi m e; .near ⟨signed (trigSeries (r * r / fxOne) 48 1 r), -128⟩
      | .cos =>
        let r := reduceTwoPi m e
        .near ⟨trigSeries (r * r / fxOne) 48 0 fxOne, -128⟩
      | .tanh =>
        if x < -20 then .near ⟨signed m, e⟩
        else if 5 ≤ x then .near ⟨signed (fxOne - 1), -128⟩
        else .near ⟨signed (tanhOf m e), -128⟩

/-! ## The bounds (R170) -/

/-- a < b for dyadic numbers. -/
def Dyad.less (a b : Dyad) : Bool :=
  let q := if a.e < b.e then a.e else b.e
  decide (a.m * 2 ^ (a.e - q).toNat < b.m * 2 ^ (b.e - q).toNat)

/-- The distance of two dyadic numbers. -/
def Dyad.dist (a b : Dyad) : Dyad :=
  let q := if a.e < b.e then a.e else b.e
  ⟨(a.m * 2 ^ (a.e - q).toNat - b.m * 2 ^ (b.e - q).toNat).natAbs, q⟩

/-- The ulp of R170 at a value. -/
def ulpExp (y : Dyad) : Int :=
  let x := expOf y.m.natAbs y.e
  (if x < FFmt.f32.emin then FFmt.f32.emin else x) - 23

/-- The bound of R170 on the error of a result near y for this operand. -/
def bound (k : Approx) (a : Fp) (y : Dyad) : Dyad :=
  match k with
  | .rcp => ⟨1, ulpExp y⟩
  | .sin | .cos => ⟨1, -21⟩
  | .log2 =>
    match a with
    | .fin _ m e => if expOf m e = -1 ∨ expOf m e = 0 ∨ (expOf m e = 1 ∧ isPow2 m = true) then ⟨1, -22⟩ else ⟨2, ulpExp y⟩
    | _ => ⟨2, ulpExp y⟩
  | _ => ⟨2, ulpExp y⟩

/-- A binary32 pattern is finite and within the bound: below it for FRCP, at most it for the others. -/
def within (k : Approx) (a : Fp) (y : Dyad) (c : Nat) : Bool :=
  match unpack .f32 false c with
  | .fin n m e =>
    let d := (Dyad.mk (if n then -(m : Int) else m) e).dist y
    let b := bound k a y
    decide (expOf y.m.natAbs y.e < 128) && (if k = .rcp then d.less b else !(b.less d))
  | _ => false

/-- The result of an approximation on binary32: the fixed function of the bits where it keeps its bound. Where the
exact value overflows, and where the fixed function is not known to keep it, the exact value is rounded. -/
def approx32 (k : Approx) (m : FMod) (a : Nat) : Nat × Nat :=
  let v := unpack .f32 m.ftz a
  match target k v with
  | .special b fl => (b, fl)
  | .exact n x e => roundTo .f32 .rne m.ftz n x e
  | .near y =>
    let c := (Config.approx k (BitVec.ofNat 32 a) m.ftz).toNat
    if within k v y c then
      if c % 2 ^ 31 < 2 ^ 23 then (if m.ftz then c / 2 ^ 31 * 2 ^ 31 else c, fUF + fNX) else (c, fNX)
    else
      let r := roundTo .f32 .rne m.ftz (decide (y.m < 0)) (2 * y.m.natAbs + 1) (y.e - 1)
      (r.1, joinFlags r.2 fNX)

/-- An approximation of one element: for the 16-bit types the binary32 result is rounded to the element (R170). -/
def approxElem (k : Approx) (ty : Ty) (m : FMod) (a : Nat) : Nat × Nat :=
  let f := fmtOf ty
  if ty = .f32 then approx32 k m a
  else
    let (x, f0) := fpConvert f .f32 { rnd := .rne, ftz := m.ftz } a
    let (y, f1) := approx32 k m x
    let (z, f2) := fpConvert .f32 f m y
    (z, joinFlags f0 (joinFlags f1 f2))

end Sys2Proof.Machine
end

