-- ==== Sys2Proof/Machine/FloatAlu.lean ====
section
/-! DEFINITION. The floating-point instructions (R166 to R173). -/

namespace Sys2Proof.Machine

/-- Two sources, element by element. -/
def float2 (opc : Nat) (g : Guard) (ty : Ty) (d : Dst) (a b : Src) (f : Nat → Nat → Nat × Nat) (s : State) :
    Host.Outcome State Fault Refusal :=
  alu2 opc g ty ty ty d a b (fun x y => perFloat ty fun k => f (elemOf ty x k) (elemOf ty y k)) s

/-- One source, element by element. -/
def float1 (opc : Nat) (g : Guard) (ty : Ty) (d : Dst) (a : Src) (f : Nat → Nat × Nat) (s : State) :
    Host.Outcome State Fault Refusal :=
  alu1 opc g ty ty d a (fun x => perFloat ty fun k => f (elemOf ty x k)) s

/-- FADD (R167). -/
def execFadd (g : Guard) (ty : Ty) (m : FMod) (d : Dst) (a b : Src) (s : State) : Host.Outcome State Fault Refusal :=
  float2 0x38 g ty d a b (fpAdd (fmtOf ty) m) s

/-- FSUB (R167). -/
def execFsub (g : Guard) (ty : Ty) (m : FMod) (d : Dst) (a b : Src) (s : State) : Host.Outcome State Fault Refusal :=
  float2 0x39 g ty d a b (fpSub (fmtOf ty) m) s

/-- FMUL (R167). -/
def execFmul (g : Guard) (ty : Ty) (m : FMod) (d : Dst) (a b : Src) (s : State) : Host.Outcome State Fault Refusal :=
  float2 0x3A g ty d a b (fpMul (fmtOf ty) m) s

/-- FFMA (R167): the product is not rounded. -/
def execFfma (g : Guard) (ty : Ty) (m : FMod) (d : Dst) (a b c : Src) (s : State) : Host.Outcome State Fault Refusal :=
  alu3 0x3B g ty ty ty ty d a b c
    (fun x y z => perFloat ty fun k => fpFma (fmtOf ty) m (elemOf ty x k) (elemOf ty y k) (elemOf ty z k)) s

/-- FMIN (R168). -/
def execFmin (g : Guard) (ty : Ty) (d : Dst) (a b : Src) (s : State) : Host.Outcome State Fault Refusal :=
  float2 0x3C g ty d a b (fpMinMax (fmtOf ty) false) s

/-- FMAX (R168). -/
def execFmax (g : Guard) (ty : Ty) (d : Dst) (a b : Src) (s : State) : Host.Outcome State Fault Refusal :=
  float2 0x3D g ty d a b (fpMinMax (fmtOf ty) true) s

/-- FRCP (R170, R171). -/
def execFrcp (g : Guard) (ty : Ty) (m : FMod) (d : Dst) (a : Src) (s : State) : Host.Outcome State Fault Refusal :=
  float1 0x3E g ty d a (approxElem .rcp ty m) s

/-- FRSQ (R170, R171). -/
def execFrsq (g : Guard) (ty : Ty) (m : FMod) (d : Dst) (a : Src) (s : State) : Host.Outcome State Fault Refusal :=
  float1 0x3F g ty d a (approxElem .rsq ty m) s

/-- FSQRT (R169). -/
def execFsqrt (g : Guard) (ty : Ty) (m : FMod) (d : Dst) (a : Src) (s : State) : Host.Outcome State Fault Refusal :=
  float1 0x40 g ty d a (fpSqrt (fmtOf ty) m) s

/-- FDIV (R169). -/
def execFdiv (g : Guard) (ty : Ty) (m : FMod) (d : Dst) (a b : Src) (s : State) : Host.Outcome State Fault Refusal :=
  float2 0x41 g ty d a b (fpDiv (fmtOf ty) m) s

/-- FEXP2 (R170, R171). -/
def execFexp2 (g : Guard) (ty : Ty) (m : FMod) (d : Dst) (a : Src) (s : State) : Host.Outcome State Fault Refusal :=
  float1 0x42 g ty d a (approxElem .exp2 ty m) s

/-- FLOG2 (R170, R171). -/
def execFlog2 (g : Guard) (ty : Ty) (m : FMod) (d : Dst) (a : Src) (s : State) : Host.Outcome State Fault Refusal :=
  float1 0x43 g ty d a (approxElem .log2 ty m) s

/-- FSIN (R170, R171). -/
def execFsin (g : Guard) (ty : Ty) (m : FMod) (d : Dst) (a : Src) (s : State) : Host.Outcome State Fault Refusal :=
  float1 0x44 g ty d a (approxElem .sin ty m) s

/-- FCOS (R170, R171). -/
def execFcos (g : Guard) (ty : Ty) (m : FMod) (d : Dst) (a : Src) (s : State) : Host.Outcome State Fault Refusal :=
  float1 0x45 g ty d a (approxElem .cos ty m) s

/-- FTANH (R170, R171). -/
def execFtanh (g : Guard) (ty : Ty) (m : FMod) (d : Dst) (a : Src) (s : State) : Host.Outcome State Fault Refusal :=
  float1 0x46 g ty d a (approxElem .tanh ty m) s

/-- The exact value of FDOT2, rounded once to binary32 (R172). -/
def dot2 (ty : Ty) (m : FMod) (a b c : Nat) : Nat × Nat :=
  let f := fmtOf ty
  let prod (k : Nat) := (unpack f m.ftz (elemOf ty a k)).mul (unpack f m.ftz (elemOf ty b k))
  sumFp .f32 m [prod 0, prod 1, some (unpack .f32 m.ftz c)]

/-- FDOT2: c and d are f32. -/
def execFdot2 (g : Guard) (ty : Ty) (m : FMod) (d : Dst) (a b c : Src) (s : State) : Host.Outcome State Fault Refusal :=
  alu3 0x47 g ty ty .f32 .f32 d a b c (dot2 ty m) s

/-- FRND (R173). -/
def execFrnd (g : Guard) (ty : Ty) (m : FMod) (d : Dst) (a : Src) (s : State) : Host.Outcome State Fault Refusal :=
  float1 0x48 g ty d a (fpRnd (fmtOf ty) m) s

/-- FSCALE (R173): b is any i32. -/
def execFscale (g : Guard) (ty : Ty) (m : FMod) (d : Dst) (a b : Src) (s : State) : Host.Outcome State Fault Refusal :=
  alu2 0x49 g ty .i32 ty d a b (fun x y => fpScale (fmtOf ty) m x (signedOf 32 y)) s

/-- FGETX (R173): the result is an i32. -/
def execFgetx (g : Guard) (ty : Ty) (d : Dst) (a : Src) (s : State) : Host.Outcome State Fault Refusal :=
  alu1 0x4A g ty .i32 d a (fpGetx (fmtOf ty)) s

/-- FGETM (R173). -/
def execFgetm (g : Guard) (ty : Ty) (d : Dst) (a : Src) (s : State) : Host.Outcome State Fault Refusal :=
  alu1 0x4B g ty ty d a (fpGetm (fmtOf ty)) s

end Sys2Proof.Machine
end

