-- ==== Sys2Proof/Machine/Move.lean ====
section
/-! DEFINITION. Cross-lane operations, moves, predicate packing and special registers (R123 to R130, R406). -/

namespace Sys2Proof.Machine

/-! ## Cross-lane operations (R123) -/

/-- A cross-lane word gives each lane that takes part a value computed from the whole warp. -/
def crossBody (is64 : Bool) (d : Dst) (f : Warp → Lanes → Nat → Word64) (s : State) (i : Issuer) (g : Lanes) : WordEnd :=
  .done (updWarp s i.w fun x => x.dst is64 d g (f i.x g)) 0

/-- VOTE's values: the lanes that hold true (R124). -/
def voteLanes (x : Warp) (g : Lanes) (pa : Fin 8) (neg : Bool) : Lanes :=
  g &&& (if neg then ~~~(x.pred pa.val) else x.pred pa.val)

/-- VOTE's result (R124). -/
def voteResult (op : VoteOp) (g votes : Lanes) : Word64 :=
  match op with
  | .any => truth (votes != 0)
  | .all => truth (votes == g)
  | .uni => truth (votes == 0 || votes == g)
  | .ballot => wide votes

/-- VOTE (R124). -/
def execVote (g : Guard) (op : VoteOp) (neg : Bool) (d : Dst) (pa : Fin 8) (s : State) :
    Host.Outcome State Fault Refusal :=
  issue { opc := 0x34, guard := g, cross := true, reads := pRegs pa.val, writes := dstRegs false d }
    (crossBody false d fun x m _ => voteResult op m (voteLanes x m pa neg)) s

/-- The lanes of a mask that hold a lane's value (R125). -/
def sameValue (x : Warp) (is64 : Bool) (a : Nat) (m : Lanes) (l : Nat) : Lanes :=
  laneMask fun k => m.getLsbD k && x.laneV is64 a k == x.laneV is64 a l

/-- MATCH (R125). -/
def execMatchLanes (g : Guard) (ty : Ty) (all : Bool) (d : Dst) (a : Fin 256) (s : State) :
    Host.Outcome State Fault Refusal :=
  issue { opc := 0x35, guard := g, cross := true, reads := vRegs ty.is64 a.val, writes := dstRegs false d }
    (crossBody false d fun x m l =>
      let eq := sameValue x ty.is64 a.val m l
      wide (if all then (if eq = m then m else 0) else eq)) s

/-- SHFL's source lane (R126). -/
def shflSource (mode : ShflMode) (w l b : Nat) : Nat :=
  let base := l - l % w
  match mode with
  | .idx => base + b % w
  | .up => if b < w ∧ base + b ≤ l then l - b else l
  | .down => if b < w ∧ l + b < base + w then l + b else l
  | .xor => base + Nat.xor (l - base) (b % w)

/-- SHFL (R126). -/
def execShfl (g : Guard) (ty : Ty) (mode : ShflMode) (seg : Fin 6) (d a : Fin 256) (b : Src) (s : State) :
    Host.Outcome State Fault Refusal :=
  issue { opc := 0x5A, guard := g, lit := b.isLit, cross := true, reads := vRegs ty.is64 a.val ++ srcRegs false b,
          writes := vRegs ty.is64 d.val }
    (crossBody ty.is64 (.v d) fun x _ l =>
      x.laneV ty.is64 a.val (shflSource mode (2 ^ seg.val) l (x.src .n32 b l).toNat)) s

/-- BCAST (R127). -/
def execBcast (g : Guard) (ty : Ty) (d : Dst) (a : Fin 256) (b : Src) (s : State) : Host.Outcome State Fault Refusal :=
  issue { opc := 0x5B, guard := g, lit := b.isLit, cross := true, reads := vRegs ty.is64 a.val ++ srcRegs false b,
          writes := dstRegs ty.is64 d }
    (crossBody ty.is64 d fun x _ _ => x.laneV ty.is64 a.val ((x.src .n32 b 0).toNat % 32)) s

/-- The f32 tree over n lanes from lo: n halves at each level (R127). -/
def sumTree (m : FMod) (v : Nat → Nat) (g : Lanes) : Nat → Nat → Option (Nat × Nat)
  | 0, lo => if g.getLsbD lo then some (v lo, 0) else none
  | k + 1, lo =>
    match sumTree m v g k lo, sumTree m v g k (lo + 2 ^ k) with
    | some (x, f), some (y, f') =>
      let r := fpAdd .f32 m x y
      some (r.1, joinFlags r.2 (joinFlags f f'))
    | some r, none => some r
    | none, r => r

/-- A NaN result is canonical. -/
def canonNan (f : FFmt) (x : Nat) : Nat := if (unpack f false x).isNan then f.nan else x

/-- REDUX's integer and logic steps (R127). -/
def reduxStep (ty : Ty) (op : ReduxOp) (x y : Nat) : Nat :=
  match op with
  | .add => (x + y) % 2 ^ 32
  | .min => if valueOf ty 32 y < valueOf ty 32 x then y else x
  | .max => if valueOf ty 32 x < valueOf ty 32 y then y else x
  | .and => Nat.land x y
  | .or => Nat.lor x y
  | .xor => Nat.xor x y

/-- REDUX over the values of the lanes that take part: the result and its flags (R127). -/
def reduxValue (ty : Ty) (op : ReduxOp) (m : FMod) (v : Nat → Nat) (g : Lanes) : Nat × Nat :=
  match (lanesOf g).map v with
  | [] => (0, 0)
  | x :: xs =>
    if ty = .f32 then
      match op with
      | .add => let r := (sumTree m v g 5 0).getD (0, 0); (canonNan .f32 r.1, r.2)
      | _ => xs.foldl (fun (a, f) y => let r := fpMinMax .f32 (op == .max) a y; (r.1, joinFlags f r.2))
               (fpMinMax .f32 (op == .max) x x)
    else (xs.foldl (reduxStep ty op) x, 0)

/-- REDUX (R127). -/
def execRedux (g : Guard) (ty : Ty) (op : ReduxOp) (m : FMod) (d : Dst) (a : Fin 256) (s : State) :
    Host.Outcome State Fault Refusal :=
  issue { opc := 0x5C, guard := g, cross := true, reads := vRegs false a.val, writes := dstRegs false d }
    (fun s i k =>
      let r := reduxValue ty op m (fun l => ((i.x.getV a.val).lane l).toNat) k
      .done (updWarp s i.w fun x => x.dst false d k fun _ => BitVec.ofNat 64 r.1) r.2) s

/-! ## Moves (R128, R130) -/

/-- MOV (R128). -/
def execMov (g : Guard) (ty : Ty) (d : Dst) (a : Src) (s : State) : Host.Outcome State Fault Refusal :=
  alu1 0x58 g ty ty d a (fun x => (x, 0)) s

/-- MOVL (R128): four registers, read before any is written. -/
def execMovl (g : Guard) (d a : Fin 256) (s : State) : Host.Outcome State Fault Refusal :=
  issue { opc := 0x59, guard := g, reads := vQuad a.val, writes := vQuad d.val } (fun s i m =>
    .done (updWarp s i.w fun x =>
      [0, 1, 2, 3].foldl (fun x k => x.putV (d.val + k) m fun l => (i.x.getV (a.val + k)).lane l) x) 0) s

/-- All seven predicates. -/
def allPreds : List Reg := (List.range 7).map Reg.p

/-- P0 to P6 of a lane in bits 6:0 (R130). -/
def packPreds (x : Warp) (l : Nat) : Word64 :=
  BitVec.ofNat 64 (((List.range 7).map fun k => b2n ((x.pred k).getLsbD l) * 2 ^ k).foldl (· + ·) 0)

/-- PMOV pack (R130). -/
def execPmovPack (g : Guard) (d : Dst) (s : State) : Host.Outcome State Fault Refusal :=
  issue { opc := 0x37, guard := g, reads := allPreds, writes := dstRegs false d } (pureBody false d packPreds) s

/-- PMOV unpack (R130). -/
def execPmovUnpack (g : Guard) (a : Src) (s : State) : Host.Outcome State Fault Refusal :=
  issue { opc := 0x37, guard := g, lit := a.isLit, reads := srcRegs false a, writes := allPreds } (fun s i m =>
    .done (updWarp s i.w fun x =>
      (List.range 7).foldl (fun x k => x.putP k m (laneMask fun l => (i.x.src .b32 a l).getLsbD k)) x) 0) s

/-! ## Special registers (R129, R406) -/

/-- What a block-related register reads in a callee warp. -/
def noneWord : Word64 := 0xFFFFFFFF#64

/-- GETS of a register of the block; all ones in a callee warp. -/
def blockReg (s : State) (x : Warp) (f : Launch → Nat → Nat) : Word64 :=
  if x.isCallee then noneWord else BitVec.ofNat 64 (f (launchAt s x.launch) (blockAt s x.block).linear)

/-- The supervisor special registers (R406). -/
def getSuper (x : Warp) (h : Handler) (code l : Nat) : Word64 :=
  if code < 72 then wide ((if code + 184 < x.allot then x.rawV (code + 184) else .zero).lane l)
  else if code < 76 then wide (x.rawS (code - 16))
  else match code with
    | 76 => wide h.flags
    | 77 => h.tpc
    | 78 => BitVec.ofNat 64 h.tsplit
    | 79 => BitVec.ofNat 64 x.stkIdx
    | 80 => 1
    | _ => BitVec.ofNat 64 x.tcount

/-- The user special registers (R129), but for CLOCK. -/
def getUser (s : State) (x : Warp) (e code l : Nat) : Word64 :=
  let n (v : Nat) : Word64 := BitVec.ofNat 64 v
  match code with
  | 0 => n l
  | 1 => n x.num
  | 2 => blockReg s x fun _ b => b
  | 3 => blockReg s x fun k b => (k.coords b).1
  | 4 => blockReg s x fun k b => (k.coords b).2.1
  | 5 => blockReg s x fun k b => (k.coords b).2.2
  | 6 => n (launchAt s x.launch).grid.1
  | 7 => n (launchAt s x.launch).grid.2.1
  | 8 => n (launchAt s x.launch).grid.2.2
  | 9 => n x.core
  | 10 => blockReg s x fun k b => k.clusterOf b
  | 11 => n (coreDie x.core)
  | 12 => n x.asid
  | 14 => wide x.flags
  | 15 => wide (x.splitAt e).mask
  | 16 => n x.role
  | 17 => wide x.mtgt
  | 18 => wide x.fault
  | 19 => x.faddr.getD l 0
  | 20 => wide x.grade
  | 21 => match x.item with | some k => n k | none => noneWord
  | _ => n x.batch

/-- CLOCK: the cycles of the core since reset. How many pass from one read to the next is a free value (log 8). -/
def readClock (s : State) (core : Nat) : Word64 × State :=
  let k := coreDie core * 64 + remapEntry s.remap core % 64
  let last := s.clocks.getD 0 k
  let (f, s) := freshWord s
  let t := last + 1 + Nat.min f.toNat (2 ^ 64 - 2 - last)
  (BitVec.ofNat 64 t, { s with clocks := s.clocks.put k t })

/-- What GETS delivers to a lane. -/
def getSpecial (s : State) (x : Warp) (e code l : Nat) : Word64 :=
  match x.handler with
  | some h => if 64 ≤ code then getSuper x h code l else getUser s x e code l
  | none => getUser s x e code l

/-- The warp's own register that HIDV or HIDS names (R406). -/
def hiddenReg (code : Nat) : List Reg :=
  if 64 ≤ code ∧ code < 72 then [.v (code + 184)] else if 72 ≤ code ∧ code < 76 then [.s (code - 16)] else []

/-- Privilege and reserved codes: PRIV in user mode from 64 on; reserved and unwritable ones ILLEGAL in a handler. -/
def specialSpec (opc : Nat) (g : Guard) (code : BitVec 8) (lastOk : Nat) : WordSpec :=
  { opc := opc, guard := g, sys := decide (64 ≤ code.toNat), noHandler := decide (lastOk < code.toNat) }

/-- GETS (R129, R406). -/
def execGets (g : Guard) (ty : Ty) (d : Dst) (code : BitVec 8) (s : State) : Host.Outcome State Fault Refusal :=
  issue { specialSpec 0x5D g code 81 with writes := dstRegs ty.is64 d } (fun s i m =>
    let waits := (hiddenReg code.toNat).filter i.x.pendingRegs.contains
    if waits ≠ [] then .park s (.pending waits)
    else if code = 13 then
      let (t, s) := readClock s i.x.core
      .done (updWarp s i.w fun x => x.dst ty.is64 d m fun _ => t) 0
    else .done (updWarp s i.w fun x => x.dst ty.is64 d m fun l => getSpecial s i.x i.e code.toNat l) 0) s

/-- What SETS writes: v is the value of the lowest lane that takes part, f that of each lane (R129, R137, R374,
R406). -/
def Warp.setSpecial (x : Warp) (code : Nat) (m : Lanes) (v : Word64) (f : Nat → Word64) : Warp :=
  if code = 14 then { x with flags := writeFlags (loWord v) }
  else if code = 17 then { x with mtgt := loWord v &&& 0xFFF#32 }
  else if 64 ≤ code ∧ code < 72 then
    (if code + 184 < x.allot then
      x.setRawV (code + 184) (Row.upd (x.rawV (code + 184)) m fun l => loWord (f l)) else x)
  else if 72 ≤ code ∧ code < 76 then x.setRawS (code - 16) (loWord v)
  else
    { x with handler := x.handler.map fun h =>
        match code with
        | 76 => { h with flags := writeFlags (loWord v) }
        | 77 => { h with tpc := v, tword := false, thdr := 0 }
        | 78 => { h with tsplit := v.toNat % 4 }
        | _ => h }

/-- SETS (R129, R406). -/
def execSets (g : Guard) (ty : Ty) (code : BitVec 8) (a : Src) (s : State) : Host.Outcome State Fault Refusal :=
  issue { specialSpec 0x5E g code 78 with lit := a.isLit, unclean := true, reads := srcRegs ty.is64 a } (fun s i m =>
    let waits := (hiddenReg code.toNat).filter i.x.pendingRegs.contains
    if waits ≠ [] then .park s (.pending waits)
    else
      .done (updWarp s i.w fun x =>
        x.setSpecial code.toNat m (i.x.src ty a ((lowestLane m).getD 0)) fun l => i.x.src ty a l) 0) s

end Sys2Proof.Machine
end

