-- ==== Sys2Proof/Machine/Dispatch.lean ====
section
/-! DEFINITION. The dispatch of every instruction and event of the opcode table to its meaning. -/

namespace Sys2Proof.Machine

def exec (i : Instr) (s : State) : Host.Outcome State Fault Refusal :=
  match i with
  | .nop g => Sys2Proof.Machine.execNop g s
  | .yield g => Sys2Proof.Machine.execYield g s
  | .exit g => Sys2Proof.Machine.execExit g s
  | .brk g imm => Sys2Proof.Machine.execBrk g imm s
  | .bra g mode tgt => Sys2Proof.Machine.execBra g mode tgt s
  | .brx g div reg => Sys2Proof.Machine.execBrx g div reg s
  | .call g tgt => Sys2Proof.Machine.execCall g tgt s
  | .callv g div reg => Sys2Proof.Machine.execCallv g div reg s
  | .ret g => Sys2Proof.Machine.execRet g s
  | .dispatch g reg aux pd => Sys2Proof.Machine.execDispatch g reg aux pd s
  | .role g pd sb r => Sys2Proof.Machine.execRole g pd sb r s
  | .launch g ser pd sa sb => Sys2Proof.Machine.execLaunch g ser pd sa sb s
  | .trap g imm => Sys2Proof.Machine.execTrap g imm s
  | .wsync g pd sa => Sys2Proof.Machine.execWsync g pd sa s
  | .add g ty sat d a b => Sys2Proof.Machine.execAdd g ty sat d a b s
  | .sub g ty sat d a b => Sys2Proof.Machine.execSub g ty sat d a b s
  | .addc g ty d a b pc => Sys2Proof.Machine.execAddc g ty d a b pc s
  | .subb g ty d a b pc => Sys2Proof.Machine.execSubb g ty d a b pc s
  | .mul g ty d a b => Sys2Proof.Machine.execMul g ty d a b s
  | .mulhi g ty d a b => Sys2Proof.Machine.execMulhi g ty d a b s
  | .mad g ty d a b c => Sys2Proof.Machine.execMad g ty d a b c s
  | .madw g ty d a b c => Sys2Proof.Machine.execMadw g ty d a b c s
  | .min g ty d a b => Sys2Proof.Machine.execMin g ty d a b s
  | .max g ty d a b => Sys2Proof.Machine.execMax g ty d a b s
  | .abs g ty sat d a => Sys2Proof.Machine.execAbs g ty sat d a s
  | .neg g ty sat d a => Sys2Proof.Machine.execNeg g ty sat d a s
  | .and g ty d a b => Sys2Proof.Machine.execAnd g ty d a b s
  | .or g ty d a b => Sys2Proof.Machine.execOr g ty d a b s
  | .xor g ty d a b => Sys2Proof.Machine.execXor g ty d a b s
  | .not g ty d a => Sys2Proof.Machine.execNot g ty d a s
  | .shl g ty d a b => Sys2Proof.Machine.execShl g ty d a b s
  | .shr g ty d a b => Sys2Proof.Machine.execShr g ty d a b s
  | .sar g ty d a b => Sys2Proof.Machine.execSar g ty d a b s
  | .rot g ty right d a b => Sys2Proof.Machine.execRot g ty right d a b s
  | .bfe g ty d a b => Sys2Proof.Machine.execBfe g ty d a b s
  | .bfi g ty d a b c => Sys2Proof.Machine.execBfi g ty d a b c s
  | .popc g ty d a => Sys2Proof.Machine.execPopc g ty d a s
  | .clz g ty d a => Sys2Proof.Machine.execClz g ty d a s
  | .brev g ty d a => Sys2Proof.Machine.execBrev g ty d a s
  | .prmt g d a b c => Sys2Proof.Machine.execPrmt g d a b c s
  | .sad g ty d a b c => Sys2Proof.Machine.execSad g ty d a b c s
  | .lea g sx sh d a b => Sys2Proof.Machine.execLea g sx sh d a b s
  | .idiv g ty d a b => Sys2Proof.Machine.execIdiv g ty d a b s
  | .irem g ty d a b => Sys2Proof.Machine.execIrem g ty d a b s
  | .lop3 g ty f d a b c => Sys2Proof.Machine.execLop3 g ty f d a b c s
  | .iset g ty cond comb d a b pc => Sys2Proof.Machine.execIset g ty cond comb d a b pc s
  | .fset g ty cond comb d a b pc => Sys2Proof.Machine.execFset g ty cond comb d a b pc s
  | .sel g ty d a b pc => Sys2Proof.Machine.execSel g ty d a b pc s
  | .plop g pd pa pb pc f => Sys2Proof.Machine.execPlop g pd pa pb pc f s
  | .fclassPred g ty pd a mask => Sys2Proof.Machine.execFclassPred g ty pd a mask s
  | .fclassMask g ty d a => Sys2Proof.Machine.execFclassMask g ty d a s
  | .vote g op neg d pa => Sys2Proof.Machine.execVote g op neg d pa s
  | .matchLanes g ty all d a => Sys2Proof.Machine.execMatchLanes g ty all d a s
  | .pmovPack g d => Sys2Proof.Machine.execPmovPack g d s
  | .pmovUnpack g a => Sys2Proof.Machine.execPmovUnpack g a s
  | .fadd g ty m d a b => Sys2Proof.Machine.execFadd g ty m d a b s
  | .fsub g ty m d a b => Sys2Proof.Machine.execFsub g ty m d a b s
  | .fmul g ty m d a b => Sys2Proof.Machine.execFmul g ty m d a b s
  | .ffma g ty m d a b c => Sys2Proof.Machine.execFfma g ty m d a b c s
  | .fmin g ty d a b => Sys2Proof.Machine.execFmin g ty d a b s
  | .fmax g ty d a b => Sys2Proof.Machine.execFmax g ty d a b s
  | .frcp g ty m d a => Sys2Proof.Machine.execFrcp g ty m d a s
  | .frsq g ty m d a => Sys2Proof.Machine.execFrsq g ty m d a s
  | .fsqrt g ty m d a => Sys2Proof.Machine.execFsqrt g ty m d a s
  | .fdiv g ty m d a b => Sys2Proof.Machine.execFdiv g ty m d a b s
  | .fexp2 g ty m d a => Sys2Proof.Machine.execFexp2 g ty m d a s
  | .flog2 g ty m d a => Sys2Proof.Machine.execFlog2 g ty m d a s
  | .fsin g ty m d a => Sys2Proof.Machine.execFsin g ty m d a s
  | .fcos g ty m d a => Sys2Proof.Machine.execFcos g ty m d a s
  | .ftanh g ty m d a => Sys2Proof.Machine.execFtanh g ty m d a s
  | .fdot2 g ty m d a b c => Sys2Proof.Machine.execFdot2 g ty m d a b c s
  | .frnd g ty m d a => Sys2Proof.Machine.execFrnd g ty m d a s
  | .fscale g ty m d a b => Sys2Proof.Machine.execFscale g ty m d a b s
  | .fgetx g ty d a => Sys2Proof.Machine.execFgetx g ty d a s
  | .fgetm g ty d a => Sys2Proof.Machine.execFgetm g ty d a s
  | .cvt g ty sty m d a b => Sys2Proof.Machine.execCvt g ty sty m d a b s
  | .sbpack g ty fmt dense len32 d a => Sys2Proof.Machine.execSbpack g ty fmt dense len32 d a s
  | .sbunpk g fmt d a b c => Sys2Proof.Machine.execSbunpk g fmt d a b c s
  | .sbscl g ty fmt d a b c => Sys2Proof.Machine.execSbscl g ty fmt d a b c s
  | .rng g ty d a b c => Sys2Proof.Machine.execRng g ty d a b c s
  | .mov g ty d a => Sys2Proof.Machine.execMov g ty d a s
  | .movl g d a => Sys2Proof.Machine.execMovl g d a s
  | .shfl g ty mode seg d a b => Sys2Proof.Machine.execShfl g ty mode seg d a b s
  | .bcast g ty d a b => Sys2Proof.Machine.execBcast g ty d a b s
  | .redux g ty op m d a => Sys2Proof.Machine.execRedux g ty op m d a s
  | .gets g ty d code => Sys2Proof.Machine.execGets g ty d code s
  | .sets g ty code a => Sys2Proof.Machine.execSets g ty code a s
  | .ld g sz sco ord ch d m => Sys2Proof.Machine.execLd g sz sco ord ch d m s
  | .st g sz sco ord ch d m => Sys2Proof.Machine.execSt g sz sco ord ch d m s
  | .lds g sz sco ord ch d m => Sys2Proof.Machine.execLds g sz sco ord ch d m s
  | .sts g sz sco ord ch d m => Sys2Proof.Machine.execSts g sz sco ord ch d m s
  | .ldg g op sz width sco ord d m => Sys2Proof.Machine.execLdg g op sz width sco ord d m s
  | .atom g op sz sco ord d m x => Sys2Proof.Machine.execAtom g op sz sco ord d m x s
  | .red g op sz sco ord m x => Sys2Proof.Machine.execRed g op sz sco ord m x s
  | .cas g sz sco ord d m x => Sys2Proof.Machine.execCas g sz sco ord d m x s
  | .fence g sco ord => Sys2Proof.Machine.execFence g sco ord s
  | .pref g ch m => Sys2Proof.Machine.execPref g ch m s
  | .cwb g rel m => Sys2Proof.Machine.execCwb g rel m s
  | .cinv g acq m => Sys2Proof.Machine.execCinv g acq m s
  | .waitne g sz sco ord d m x => Sys2Proof.Machine.execWaitne g sz sco ord d m x s
  | .waitneRecheck w e => Sys2Proof.Machine.execWaitneRecheck w e s
  | .resideClass g sd sa sb cls report ntreq => Sys2Proof.Machine.execResideClass g sd sa sb cls report ntreq s
  | .residePin g sd sa sb => Sys2Proof.Machine.execResidePin g sd sa sb s
  | .resideUnpin g sd sa sb => Sys2Proof.Machine.execResideUnpin g sd sa sb s
  | .resideTprio g sd sa cls => Sys2Proof.Machine.execResideTprio g sd sa cls s
  | .resideClose g sd sa sb => Sys2Proof.Machine.execResideClose g sd sa sb s
  | .kvfind g sd sa => Sys2Proof.Machine.execKvfind g sd sa s
  | .kvput g pin sd sa sc => Sys2Proof.Machine.execKvput g pin sd sa sc s
  | .kvdrop g sd sa => Sys2Proof.Machine.execKvdrop g sd sa s
  | .kvdropTensor g sd sa => Sys2Proof.Machine.execKvdropTensor g sd sa s
  | .acgrow g sd n => Sys2Proof.Machine.execAcgrow g sd n s
  | .acfree g sd n => Sys2Proof.Machine.execAcfree g sd n s
  | .cpy g sd sa => Sys2Proof.Machine.execCpy g sd sa s
  | .cpym g sd sa => Sys2Proof.Machine.execCpym g sd sa s
  | .cpysc g sd sa => Sys2Proof.Machine.execCpysc g sd sa s
  | .xpose g sd sa => Sys2Proof.Machine.execXpose g sd sa s
  | .sred g sd sa => Sys2Proof.Machine.execSred g sd sa s
  | .afence g sd => Sys2Proof.Machine.execAfence g sd s
  | .awaitBatch g sa => Sys2Proof.Machine.execAwaitBatch g sa s
  | .awaitAll g => Sys2Proof.Machine.execAwaitAll g s
  | .atest g pd sa => Sys2Proof.Machine.execAtest g pd sa s
  | .atestAll g pd => Sys2Proof.Machine.execAtestAll g pd s
  | .marr g sd lg => Sys2Proof.Machine.execMarr g sd lg s
  | .bload g sd sa sb => Sys2Proof.Machine.execBload g sd sa sb s
  | .minit g sd sa => Sys2Proof.Machine.execMinit g sd sa s
  | .mma g sd sa sb => Sys2Proof.Machine.execMma g sd sa sb s
  | .mmasp g sel sd sa sb vc => Sys2Proof.Machine.execMmasp g sel sd sa sb vc s
  | .mdrain g sd sa sb sc => Sys2Proof.Machine.execMdrain g sd sa sb sc s
  | .mread g d sa => Sys2Proof.Machine.execMread g d sa s
  | .mreadAnc g d sa => Sys2Proof.Machine.execMreadAnc g d sa s
  | .mwrite g sa b => Sys2Proof.Machine.execMwrite g sa b s
  | .mwriteAnc g sa b => Sys2Proof.Machine.execMwriteAnc g sa b s
  | .bara g pd sc bar => Sys2Proof.Machine.execBara g pd sc bar s
  | .barw g pd sc bar => Sys2Proof.Machine.execBarw g pd sc bar s
  | .barsRoot g sd bar => Sys2Proof.Machine.execBarsRoot g sd bar s
  | .barsOwn g sd bar => Sys2Proof.Machine.execBarsOwn g sd bar s
  | .barqRoot g sd bar => Sys2Proof.Machine.execBarqRoot g sd bar s
  | .barqMem g sd bar => Sys2Proof.Machine.execBarqMem g sd bar s
  | .barqArr g sd bar => Sys2Proof.Machine.execBarqArr g sd bar s
  | .barqEarly g sd bar => Sys2Proof.Machine.execBarqEarly g sd bar s
  | .barqWait g sd bar => Sys2Proof.Machine.execBarqWait g sd bar s
  | .barsetRoot g sa bar => Sys2Proof.Machine.execBarsetRoot g sa bar s
  | .barsetMem g sa bar => Sys2Proof.Machine.execBarsetMem g sa bar s
  | .barsetArr g sa bar => Sys2Proof.Machine.execBarsetArr g sa bar s
  | .barsetEarly g sa bar => Sys2Proof.Machine.execBarsetEarly g sa bar s
  | .barsetWait g sa bar => Sys2Proof.Machine.execBarsetWait g sa bar s
  | .tret g => Sys2Proof.Machine.execTret g s
  | .tretSaved g => Sys2Proof.Machine.execTretSaved g s
  | .tlbiPage g sa => Sys2Proof.Machine.execTlbiPage g sa s
  | .tlbiRange g sa sb => Sys2Proof.Machine.execTlbiRange g sa sb s
  | .tlbiAsid g => Sys2Proof.Machine.execTlbiAsid g s
  | .genadv g => Sys2Proof.Machine.execGenadv g s
  | .dvsave g sa => Sys2Proof.Machine.execDvsave g sa s
  | .dvload g sd sa => Sys2Proof.Machine.execDvload g sd sa s
  | .sigset g sa n => Sys2Proof.Machine.execSigset g sa n s
  | .sigrd g sd n => Sys2Proof.Machine.execSigrd g sd n s
  | .mapft g sd sa => Sys2Proof.Machine.execMapft g sd sa s
  | .killw g sd sa => Sys2Proof.Machine.execKillw g sd sa s
  | .migr g sd sa => Sys2Proof.Machine.execMigr g sd sa s
  | .scrub g sd sa sb => Sys2Proof.Machine.execScrub g sd sa sb s
  | .keyz g sa => Sys2Proof.Machine.execKeyz g sa s
  | .qsaveRq g sd sa => Sys2Proof.Machine.execQsaveRq g sd sa s
  | .qsaveMac g sd sa => Sys2Proof.Machine.execQsaveMac g sd sa s
  | .qsaveRbq g sd sa => Sys2Proof.Machine.execQsaveRbq g sd sa s
  | .qloadRq g sd sa => Sys2Proof.Machine.execQloadRq g sd sa s
  | .qloadMac g sd sa => Sys2Proof.Machine.execQloadMac g sd sa s
  | .qloadRbq g sd sa => Sys2Proof.Machine.execQloadRbq g sd sa s
  | .pgdisc g sd sa sb => Sys2Proof.Machine.execPgdisc g sd sa sb s
  | .blockFetch w e => Sys2Proof.Machine.execBlockFetch w e s
  | .quarterRunSelect core quarter => Sys2Proof.Machine.execQuarterRunSelect core quarter s
  | .pendingWriteLands w n => Sys2Proof.Machine.execPendingWriteLands w n s
  | .deferredFaultTaken w e => Sys2Proof.Machine.execDeferredFaultTaken w e s
  | .preemptTaken w e => Sys2Proof.Machine.execPreemptTaken w e s
  | .migrateTaken w e => Sys2Proof.Machine.execMigrateTaken w e s
  | .cardLaunch card => Sys2Proof.Machine.execCardLaunch card s
  | .cardComplete card => Sys2Proof.Machine.execCardComplete card s
  | .cardFault card => Sys2Proof.Machine.execCardFault card s
  | .barrierWake bar => Sys2Proof.Machine.execBarrierWake bar s
  | .messageArrive chan => Sys2Proof.Machine.execMessageArrive chan s
  | .lqEntryTake q => Sys2Proof.Machine.execLqEntryTake q s
  | .placementDecision => Sys2Proof.Machine.execPlacementDecision s
  | .gangHeld launch t => Sys2Proof.Machine.execGangHeld launch t s
  | .calleeWarpForm launch die => Sys2Proof.Machine.execCalleeWarpForm launch die s
  | .blockRetire block => Sys2Proof.Machine.execBlockRetire block s
  | .lqConfigWrite q v => Sys2Proof.Machine.execLqConfigWrite q v s
  | .lqBaseWrite q v => Sys2Proof.Machine.execLqBaseWrite q v s
  | .lqTailWrite q v => Sys2Proof.Machine.execLqTailWrite q v s
  | .term q => Sys2Proof.Machine.execTerm q s
  | .pageWalk core asid va write => Sys2Proof.Machine.execPageWalk core asid va write s
  | .fresume slot seq => Sys2Proof.Machine.execFresume slot seq s
  | .frtailWrite slot v => Sys2Proof.Machine.execFrtailWrite slot v s
  | .depoch slot => Sys2Proof.Machine.execDepoch slot s
  | .harvestEpochComplete slot => Sys2Proof.Machine.execHarvestEpochComplete slot s
  | .contextEnd slot => Sys2Proof.Machine.execContextEnd slot s
  | .apply die v => Sys2Proof.Machine.execApply die v s
  | .applyWithdraw die => Sys2Proof.Machine.execApplyWithdraw die s
  | .splitApplied die => Sys2Proof.Machine.execSplitApplied die s
  | .homeAccess pa req nl => Sys2Proof.Machine.execHomeAccess pa req nl s
  | .hbmFill line => Sys2Proof.Machine.execHbmFill line s
  | .missRatioWindowEnd contract die => Sys2Proof.Machine.execMissRatioWindowEnd contract die s
  | .homeAtomic core pa op sz x => Sys2Proof.Machine.execHomeAtomic core pa op sz x s
  | .kvOpAtHome asid die op => Sys2Proof.Machine.execKvOpAtHome asid die op s
  | .netEntryReceive chan room crcOk idErr => Sys2Proof.Machine.execNetEntryReceive chan room crcOk idErr s
  | .netResend chan => Sys2Proof.Machine.execNetResend chan s
  | .netAckTimeout chan => Sys2Proof.Machine.execNetAckTimeout chan s
  | .deadlockProbe chan => Sys2Proof.Machine.execDeadlockProbe chan s
  | .probeReturn chan cycle => Sys2Proof.Machine.execProbeReturn chan cycle s
  | .probeLost chan => Sys2Proof.Machine.execProbeLost chan s
  | .netControlWrite off v => Sys2Proof.Machine.execNetControlWrite off v s
  | .hostPostedWrite off data relaxed => Sys2Proof.Machine.execHostPostedWrite off data relaxed s
  | .hostRead off n => Sys2Proof.Machine.execHostRead off n s
  | .deviceRegisterAccess off size v => Sys2Proof.Machine.execDeviceRegisterAccess off size v s
  | .hostEgress => Sys2Proof.Machine.execHostEgress s
  | .peerRequest pkg asid pa op => Sys2Proof.Machine.execPeerRequest pkg asid pa op s
  | .injectorArm n => Sys2Proof.Machine.execInjectorArm n s
  | .injectorFire n chan => Sys2Proof.Machine.execInjectorFire n chan s
  | .peerUnreachable pkg down => Sys2Proof.Machine.execPeerUnreachable pkg down s
  | .bankFailed bank => Sys2Proof.Machine.execBankFailed bank s
  | .spareSubstitute bank => Sys2Proof.Machine.execSpareSubstitute bank s
  | .leaseGrant core line => Sys2Proof.Machine.execLeaseGrant core line s
  | .leaseEnd core line => Sys2Proof.Machine.execLeaseEnd core line s
  | .leaseRecall core line => Sys2Proof.Machine.execLeaseRecall core line s
  | .leaseExpiry line => Sys2Proof.Machine.execLeaseExpiry line s
  | .pre slot => Sys2Proof.Machine.execPre slot s
  | .preemptComplete slot => Sys2Proof.Machine.execPreemptComplete slot s
  | .res slot => Sys2Proof.Machine.execRes slot s
  | .savedBlockReadmit slot => Sys2Proof.Machine.execSavedBlockReadmit slot s
  | .impgo slot => Sys2Proof.Machine.execImpgo slot s
  | .scrubComplete => Sys2Proof.Machine.execScrubComplete s
  | .rsgo => Sys2Proof.Machine.execRsgo s
  | .epochClearing m => Sys2Proof.Machine.execEpochClearing m s
  | .operatingPointChange island => Sys2Proof.Machine.execOperatingPointChange island s
  | .nearThresholdWindow island stalled cycles => Sys2Proof.Machine.execNearThresholdWindow island stalled cycles s
  | .capCommand pcap acap seq => Sys2Proof.Machine.execCapCommand pcap acap seq s
  | .fastThrottleSample quadrant hot => Sys2Proof.Machine.execFastThrottleSample quadrant hot s
  | .thermalReading core temp t => Sys2Proof.Machine.execThermalReading core temp t s
  | .thermalMigrationStart core => Sys2Proof.Machine.execThermalMigrationStart core s
  | .thermalMigrationComplete core => Sys2Proof.Machine.execThermalMigrationComplete core s
  | .measuredBoot fw cfgRec later => Sys2Proof.Machine.execMeasuredBoot fw cfgRec later s
  | .attestationRequest nonce => Sys2Proof.Machine.execAttestationRequest nonce s
  | .lifetimeFold => Sys2Proof.Machine.execLifetimeFold s
  | .powerLoss => Sys2Proof.Machine.execPowerLoss s

end Sys2Proof.Machine
end

