-- ==== Sys2Proof/Machine/Step.lean ====
section
/-! DEFINITION. One step of the package: the head of the agenda, else the next word of the run that holds the issue
slot, else what the package does next by itself (log 1). -/

namespace Sys2Proof.Machine

/-- One step. -/
def step (s : State) : Host.Outcome State Fault Refusal :=
  match s.agenda with
  | k :: rest => stepInput exec { s with agenda := rest } k
  | [] => if s.focus.isSome then stepWord exec s else stepAuto exec s

/-- The state with an instruction as the next word of a run: a resident warp of core 0 holds the issue slot, its
block is the instruction alone (log 9). -/
def State.withFetchWord (s : State) (nbits w : Nat) : State := placeWord s nbits w

end Sys2Proof.Machine
end

