-- ==== Sys2Proof/Safety.lean ====
section
/-! DEFINITION. The terms in which statements speak of a run: when a word of the split that holds the issue slot takes
its effect, what it leaves behind, and the forms that every step keeps. -/

namespace Sys2Proof.Machine

/-! ## When a word takes its effect -/

/-- The state from which the word reads its operands: the flit that it takes has left the receive queue (R375, R376); none
when there is no flit for it yet, or when the flit's row is GRADE 3. -/
def Issuer.fed (i : Issuer) (ws : WordSpec) (s : State) : Option State :=
  if i.takes ws (i.lanes ws) then
    if (blockAt s i.x.block).rq.length ≤ earlierReaders s i.x.block (i.since s) then none
    else
      match takeFlit s i.w with
      | .taken t => some t
      | .empty => none
      | .bad _ => none
  else some s

/-- The word is neither ILLEGAL nor privileged in user mode, waits for no register, for no group load that it has to follow and
for no replay window, and its signature check passes. -/
def Issuer.free (i : Issuer) (ws : WordSpec) (s : State) : Bool :=
  !i.illegal ws && !(ws.sys && i.x.handler.isNone) && i.awaited ws (i.lanes ws) == [] &&
    !(i.sends ws (i.lanes ws) && (windowFull s i.w i.x.mtgt).isSome) && !i.sigBad ws

/-- The state in which the word's own effect takes place, when it takes it now: its split's signature folded (R91), its park
ended. -/
def Issuer.begins (i : Issuer) (ws : WordSpec) (s : State) : Option State :=
  if i.free ws s then
    (i.fed ws s).bind fun t =>
      if i.poisoned ws t = 0 then some (updSplit (noteRegs t i.w (i.consumed ws)) i.w i.e fun p => { p with sig := i.sig ws, park := none }) else none
  else none

/-- The issuer as its word's effect sees it: the warp as it stands in that state. -/
def Issuer.within (i : Issuer) (s : State) : Issuer := { i with x := warpAt s i.w }

/-- The state after a word whose effect left s and raised flags (R77, R93, R138, R375). -/
def Issuer.finish (i : Issuer) (ws : WordSpec) (s : State) (raised : Nat) : State :=
  i.raise ws (i.complete ws (i.lanes ws) s) raised

/-- The word acts: some lane takes part, or the word acts without any. -/
def Issuer.acts (i : Issuer) (ws : WordSpec) : Prop := i.lanes ws ≠ 0 ∨ ws.always = true

/-- An instruction completes wherever its word takes its effect and the condition holds: eff says how, from the state in
which it takes it, with the issuer as it stands there and the lanes taking part. -/
def CompletesWhen (k : Instr) (ws : WordSpec) (cond : State → Issuer → Lanes → Prop) (eff : State → Issuer → Lanes → WordEnd)
    (s : State) : Prop :=
  ∀ i t, issuer s = some i → i.begins ws s = some t → i.acts ws → cond t (i.within t) (i.lanes ws) →
    exec k s = .next (i.conclude ws (i.lanes ws) (eff t (i.within t) (i.lanes ws)))

/-- An instruction completes wherever its word takes its effect. -/
def Completes (k : Instr) (ws : WordSpec) (eff : State → Issuer → Lanes → WordEnd) (s : State) : Prop :=
  CompletesWhen k ws (fun _ _ _ => True) eff s

/-! ## Lane-wise words, by their operands -/

/-- Each lane of g gets f in D; the flags that its lanes raise are merged. -/
def lanesGet (is64 : Bool) (d : Dst) (f : Warp → Nat → Nat × Nat) (s : State) (i : Issuer) (g : Lanes) : WordEnd :=
  .done (updWarp s i.w fun x => x.dst is64 d g fun l => BitVec.ofNat 64 (f x l).1) (laneFlags g fun l => (f i.x l).2)

/-- A word of one source: every lane that takes part gets f of its operand in D. -/
def Gives1 (k : Instr) (opc : Nat) (g : Guard) (ta td : Ty) (d : Dst) (a : Src) (f : Nat → Nat × Nat) (s : State) : Prop :=
  Completes k (aluSpec opc g [(ta, a)] td.is64 d) (lanesGet td.is64 d fun x l => f (x.src ta a l).toNat) s

/-- A word of two sources. -/
def Gives2 (k : Instr) (opc : Nat) (g : Guard) (ta tb td : Ty) (d : Dst) (a b : Src) (f : Nat → Nat → Nat × Nat) (s : State) :
    Prop :=
  Completes k (aluSpec opc g [(ta, a), (tb, b)] td.is64 d)
    (lanesGet td.is64 d fun x l => f (x.src ta a l).toNat (x.src tb b l).toNat) s

/-- A word of three sources. -/
def Gives3 (k : Instr) (opc : Nat) (g : Guard) (ta tb tc td : Ty) (d : Dst) (a b c : Src) (f : Nat → Nat → Nat → Nat × Nat)
    (s : State) : Prop :=
  Completes k (aluSpec opc g [(ta, a), (tb, b), (tc, c)] td.is64 d)
    (lanesGet td.is64 d fun x l => f (x.src ta a l).toNat (x.src tb b l).toNat (x.src tc c l).toNat) s

/-! ## Words that access memory -/

/-- Every lane of a word may make its access: the state after its translations, and what each lane reaches. -/
def reaches (s : State) (i : Issuer) (k : AccessKind) (n : Nat) (g : Lanes) (addr : Nat → Word64) :
    Option (State × List (Nat × Word64 × Target)) :=
  let r := checkLanes s i.x k n g addr
  if (wordFault r.2).isNone && (accessWait r.1 i k n (passedLanes r.2)).isNone then some (r.1, passedLanes r.2) else none

/-- A system word's run of n bytes may be accessed now: r holds the state after its translations, and what it reaches. -/
def sysReaches (s : State) (i : Issuer) (g : Lanes) (wr : Bool) (ga : Word64) (n align : Nat)
    (r : State × List (Nat × Nat × Target)) : Prop :=
  sysCheck s i g wr ga n align = .ok r ∧ accessWait r.1 i (sysKind wr) n (r.2.map fun p => (p.1, ga, p.2.2)) = none

/-- What a system word reads through a checked run holds no poison; q is the state after it, its bytes, and the tail elements that
the word has consumed. -/
def sysGets (r : State × List (Nat × Nat × Target)) (i : Issuer) (ga : Word64) (seen : List Nat)
    (q : State × List Byte × List Nat) : Prop :=
  let u := sysDelivery r.1 i ga r.2
  u.2.isPoison = false ∧ q = ((sysTails u.1 i ga u.2 seen).1, u.2.data, (sysTails u.1 i ga u.2 seen).2)

/-- A word whose lanes all may make their access, under a condition on what they reach, completes as eff says. -/
def CompletesOnWhen (m : Instr) (ws : WordSpec) (k : AccessKind) (n : Nat) (g : Issuer → Lanes → Lanes)
    (addr : Issuer → Nat → Word64) (cond : State → List (Nat × Word64 × Target) → Issuer → Prop)
    (eff : State → List (Nat × Word64 × Target) → Issuer → Lanes → WordEnd) (s : State) : Prop :=
  ∀ i t r, issuer s = some i → i.begins ws s = some t → i.acts ws →
    reaches t (i.within t) k n (g (i.within t) (i.lanes ws)) (addr (i.within t)) = some r → cond r.1 r.2 (i.within t) →
      exec m s = .next (i.conclude ws (i.lanes ws) (eff r.1 r.2 (i.within t) (i.lanes ws)))

/-- A word whose lanes all may make their access completes as eff says of what they reach. -/
def CompletesOn (m : Instr) (ws : WordSpec) (k : AccessKind) (n : Nat) (g : Issuer → Lanes → Lanes)
    (addr : Issuer → Nat → Word64) (eff : State → List (Nat × Word64 × Target) → Issuer → Lanes → WordEnd) (s : State) : Prop :=
  CompletesOnWhen m ws k n g addr (fun _ _ _ => True) eff s

/-! ## Words that issue cards -/

/-- A word issues a card (R278, R279): its record lies whole and aligned in the block's scratchpad without poison, no card holds
the tiles that it has to wait for, and the core has a free slot; the card then stands among the cards in flight under the
next number, with its record's words, and its tag is on its way. -/
def CardIssues (k : Instr) (kind : Nat) (g : Guard) (sd sa : Fin 64) (more : List Reg) (fmt idx : Warp → List Word32)
    (s : State) : Prop :=
  let place (t : State) (i : Issuer) : Nat := spadAddr i.x.core ((blockAt t i.x.block).spBase + (i.x.getS sa.val).toNat)
  let record (t : State) (i : Issuer) : Deliv := readSpad t (place t i) 64
  CompletesWhen k (cardSpec kind g sd sa more)
    (fun t i _ =>
      offsetFault t i.x (i.x.getS sa.val).toNat = none ∧ (record t i).isPoison = false ∧
        (drainTiles kind (fmt i.x) = [] ∨
          cardsHold (noteSpad t (place t i) 64) i.x.block (drainTiles kind (fmt i.x)) = false) ∧
        slotsUsed (noteSpad t (place t i) 64) i.x.core < Config.cardSlots)
    (fun t i _ =>
      let u := noteSpad t (place t i) 64
      let c := withEdges u (newCard u i kind (recordWords (record t i).data) (fmt i.x) (idx i.x))
      let u := { u with cards := u.cards.put u.nextId c, nextId := u.nextId + 1,
                        cardCtr := u.cardCtr.put i.x.core ((c.tag + 1) % 65536) }
      let u := if c.csco < 3 then u
        else updWarp u i.w fun x => { x with awayBatches := (x.awayBatches.filter (· != none)) ++ [none] }
      lateWord (markReady u) i (sDests i.x sd.val 4 c.tag) false) s

/-! ## What a word leaves as it was -/

/-- The words that may raise a flag (R138). -/
def mayRaise : Instr → Bool
  | .idiv .. | .irem .. | .fset .. | .fadd .. | .fsub .. | .fmul .. | .ffma .. | .fmin .. | .fmax .. | .frcp .. | .frsq ..
  | .fsqrt .. | .fdiv .. | .fexp2 .. | .flog2 .. | .fsin .. | .fcos .. | .ftanh .. | .fdot2 .. | .frnd .. | .fscale ..
  | .fgetx .. | .fgetm .. | .cvt .. | .sbpack .. | .sbunpk .. | .sbscl .. | .redux .. => true
  | _ => false

/-- The words that act on the registers of their own warp only, with what decode knows of each; SETS, whose destination is a
special register, is not among them. -/
def registerWord : Instr → Option WordSpec
  | .nop g => some (plainSpec 0x00 g)
  | .yield g => some (plainSpec 0x01 g)
  | .add g ty _ d a b => some (aluSpec 0x10 g [(ty, a), (ty, b)] ty.is64 d)
  | .sub g ty _ d a b => some (aluSpec 0x11 g [(ty, a), (ty, b)] ty.is64 d)
  | .addc g ty d a b pc => some (carrySpec 0x12 g ty d a b pc)
  | .subb g ty d a b pc => some (carrySpec 0x13 g ty d a b pc)
  | .mul g ty d a b => some (aluSpec 0x14 g [(ty, a), (ty, b)] ty.is64 d)
  | .mulhi g ty d a b => some (aluSpec 0x15 g [(ty, a), (ty, b)] ty.is64 d)
  | .mad g ty d a b c => some (aluSpec 0x16 g [(ty, a), (ty, b), (ty, c)] ty.is64 d)
  | .madw g ty d a b c => some (aluSpec 0x17 g [(ty, a), (ty, b), (wideTy ty, c)] (wideTy ty).is64 d)
  | .min g ty d a b => some (aluSpec 0x18 g [(ty, a), (ty, b)] ty.is64 d)
  | .max g ty d a b => some (aluSpec 0x19 g [(ty, a), (ty, b)] ty.is64 d)
  | .abs g ty _ d a => some (aluSpec 0x1A g [(ty, a)] ty.is64 d)
  | .neg g ty _ d a => some (aluSpec 0x1B g [(ty, a)] ty.is64 d)
  | .and g ty d a b => some (aluSpec 0x1C g [(ty, a), (ty, b)] ty.is64 d)
  | .or g ty d a b => some (aluSpec 0x1D g [(ty, a), (ty, b)] ty.is64 d)
  | .xor g ty d a b => some (aluSpec 0x1E g [(ty, a), (ty, b)] ty.is64 d)
  | .not g ty d a => some (aluSpec 0x1F g [(ty, a)] ty.is64 d)
  | .shl g ty d a b => some (aluSpec 0x20 g [(ty, a), (.n32, b)] ty.is64 d)
  | .shr g ty d a b => some (aluSpec 0x21 g [(ty, a), (.n32, b)] ty.is64 d)
  | .sar g ty d a b => some (aluSpec 0x22 g [(ty, a), (.n32, b)] ty.is64 d)
  | .rot g ty _ d a b => some (aluSpec 0x23 g [(ty, a), (.n32, b)] ty.is64 d)
  | .bfe g ty d a b => some (aluSpec 0x24 g [(ty, a), (.n32, b)] ty.is64 d)
  | .bfi g ty d a b c => some (aluSpec 0x25 g [(ty, a), (.n32, b), (ty, c)] ty.is64 d)
  | .popc g ty d a => some (aluSpec 0x26 g [(ty, a)] false d)
  | .clz g ty d a => some (aluSpec 0x27 g [(ty, a)] false d)
  | .brev g ty d a => some (aluSpec 0x28 g [(ty, a)] ty.is64 d)
  | .prmt g d a b c => some (aluSpec 0x29 g [(.b32, a), (.b32, b), (.b32, c)] false d)
  | .sad g ty d a b c => some (aluSpec 0x2A g [(ty, a), (ty, b), (.b32, c)] false d)
  | .lea g _ _ d a b => some (aluSpec 0x2B g [(.n64, a), (.b32, b)] true d)
  | .idiv g ty d a b => some (aluSpec 0x2C g [(ty, a), (ty, b)] ty.is64 d)
  | .irem g ty d a b => some (aluSpec 0x2D g [(ty, a), (ty, b)] ty.is64 d)
  | .lop3 g ty _ d a b c => some (aluSpec 0x2E g [(ty, a), (ty, b), (ty, c)] ty.is64 d)
  | .iset g ty _ comb d a b pc => some (cmpSpec 0x30 g ty comb d a b pc)
  | .fset g ty _ comb d a b pc => some (cmpSpec 0x31 g ty comb d a b pc)
  | .sel g ty d a b pc =>
    let ws := aluSpec 0x32 g [(ty, a), (ty, b)] ty.is64 d
    some { ws with reads := ws.reads ++ pRegs pc.val }
  | .plop g pd pa pb pc _ =>
    some { opc := 0x33, guard := g, reads := pRegs pa.val ++ pRegs pb.val ++ pRegs pc.val, writes := pRegs pd.val }
  | .vote g _ _ d pa => some { opc := 0x34, guard := g, cross := true, reads := pRegs pa.val, writes := dstRegs false d }
  | .matchLanes g ty _ d va =>
    some { opc := 0x35, guard := g, cross := true, reads := vRegs ty.is64 va.val, writes := dstRegs false d }
  | .fclassPred g ty pd a b => some (aluSpec 0x36 g [(ty, a), (.b32, b)] false (.p pd))
  | .fclassMask g ty d a => some (aluSpec 0x36 g [(ty, a)] false d)
  | .pmovPack g d => some { opc := 0x37, guard := g, reads := allPreds, writes := dstRegs false d }
  | .pmovUnpack g a => some { opc := 0x37, guard := g, lit := a.isLit, reads := srcRegs false a, writes := allPreds }
  | .fadd g ty _ d a b => some (aluSpec 0x38 g [(ty, a), (ty, b)] ty.is64 d)
  | .fsub g ty _ d a b => some (aluSpec 0x39 g [(ty, a), (ty, b)] ty.is64 d)
  | .fmul g ty _ d a b => some (aluSpec 0x3A g [(ty, a), (ty, b)] ty.is64 d)
  | .ffma g ty _ d a b c => some (aluSpec 0x3B g [(ty, a), (ty, b), (ty, c)] ty.is64 d)
  | .fmin g ty d a b => some (aluSpec 0x3C g [(ty, a), (ty, b)] ty.is64 d)
  | .fmax g ty d a b => some (aluSpec 0x3D g [(ty, a), (ty, b)] ty.is64 d)
  | .frcp g ty _ d a => some (aluSpec 0x3E g [(ty, a)] ty.is64 d)
  | .frsq g ty _ d a => some (aluSpec 0x3F g [(ty, a)] ty.is64 d)
  | .fsqrt g ty _ d a => some (aluSpec 0x40 g [(ty, a)] ty.is64 d)
  | .fdiv g ty _ d a b => some (aluSpec 0x41 g [(ty, a), (ty, b)] ty.is64 d)
  | .fexp2 g ty _ d a => some (aluSpec 0x42 g [(ty, a)] ty.is64 d)
  | .flog2 g ty _ d a => some (aluSpec 0x43 g [(ty, a)] ty.is64 d)
  | .fsin g ty _ d a => some (aluSpec 0x44 g [(ty, a)] ty.is64 d)
  | .fcos g ty _ d a => some (aluSpec 0x45 g [(ty, a)] ty.is64 d)
  | .ftanh g ty _ d a => some (aluSpec 0x46 g [(ty, a)] ty.is64 d)
  | .fdot2 g ty _ d a b c => some (aluSpec 0x47 g [(ty, a), (ty, b), (.f32, c)] false d)
  | .frnd g ty _ d a => some (aluSpec 0x48 g [(ty, a)] ty.is64 d)
  | .fscale g ty _ d a b => some (aluSpec 0x49 g [(ty, a), (.i32, b)] ty.is64 d)
  | .fgetx g ty d a => some (aluSpec 0x4A g [(ty, a)] false d)
  | .fgetm g ty d a => some (aluSpec 0x4B g [(ty, a)] ty.is64 d)
  | .cvt g ty sty _ d a b =>
    some (if sty = .f32 ∧ isHalf ty = true then aluSpec 0x50 g [(sty, a), (cvtTyB sty, b)] ty.is64 d
      else aluSpec 0x50 g [(sty, a)] ty.is64 d)
  | .sbpack g ty _ _ _ d a => some (aluSpec 0x51 g [(ty, a)] false d)
  | .sbunpk g _ d v b c =>
    some { opc := 0x52, guard := g, lit := anyLit [b, c], reads := vQuad v.val ++ srcRegs false b ++ srcRegs false c,
           writes := dstRegs false d }
  | .sbscl g ty _ d a b c => some (aluSpec 0x53 g [(ty, a), (.b32, b), (.b32, c)] false d)
  | .rng g _ d a b c => some (aluSpec 0x54 g [(.n32, a), (.n32, b), (.n32, c)] false d)
  | .mov g ty d a => some (aluSpec 0x58 g [(ty, a)] ty.is64 d)
  | .movl g vd va => some { opc := 0x59, guard := g, reads := vQuad va.val, writes := vQuad vd.val }
  | .shfl g ty _ _ vd va b =>
    some { opc := 0x5A, guard := g, lit := b.isLit, cross := true, reads := vRegs ty.is64 va.val ++ srcRegs false b,
           writes := vRegs ty.is64 vd.val }
  | .bcast g ty d va b =>
    some { opc := 0x5B, guard := g, lit := b.isLit, cross := true, reads := vRegs ty.is64 va.val ++ srcRegs false b,
           writes := dstRegs ty.is64 d }
  | .redux g _ _ _ d va =>
    some { opc := 0x5C, guard := g, cross := true, reads := vRegs false va.val, writes := dstRegs false d }
  | .gets g ty d code => some { specialSpec 0x5D g code 81 with writes := dstRegs ty.is64 d }
  | _ => none

/-- Outside one warp, two states differ at most in the issue slot, the stamps of runs, the errors of on-chip rows (of which none
is new) with what is counted of them, and the count of free values. -/
def sameElsewhere (w : Nat) (s u : State) : Prop :=
  u = { s with warps := u.warps, focus := u.focus, seq := u.seq, runs := u.runs, rowErrors := u.rowErrors,
               banks := u.banks, gcnt := u.gcnt, msix := u.msix, freeCount := u.freeCount, clocks := u.clocks } ∧
    (∀ k, k ≠ w → u.warps.find? k = s.warps.find? k) ∧ ∀ r ∈ u.rowErrors, r ∈ s.rowErrors

/-- Every register of a warp but those of a list is the same, and of those only the lanes of g of a vector register or a
predicate may differ. Registers go by their scoreboard numbers (R391); a vector register that the allotment of R106 gives up
is none of the warp's. -/
def sameRegisters (ds : List Reg) (g : Lanes) (x y : Warp) : Prop :=
  (∀ n l, n < y.allot ∨ 256 ≤ n → l < 32 → .v n ∉ ds ∨ g.getLsbD l = false → (y.rawV n).lane l = (x.rawV n).lane l) ∧
    (∀ n, .s n ∉ ds → y.rawS n = x.rawS n) ∧
      ∀ n l, .p n ∉ ds ∨ g.getLsbD l = false → (y.pred n).getLsbD l = (x.pred n).getLsbD l

/-- Nothing else of the warp differs but FLAGS, the places of its splits, its allotment, its stamps, whether its idempotent
region is clean (R398), and, where a run ends, the lanes and pending writes that R102 ends with a split. -/
def sameOtherwise (ended : Bool) (x y : Warp) : Prop :=
  y = { x with v := y.v, sr := y.sr, pr := y.pr, flags := y.flags, table := y.table, handler := y.handler, allot := y.allot,
               nextAllot := y.nextAllot, lastRun := y.lastRun, region := y.region, live := y.live, pend := y.pend,
               deferred := y.deferred } ∧
    y.handler.map (fun h => { h with bankV := [], bankS := [] }) = x.handler.map (fun h => { h with bankV := [], bankS := [] }) ∧
      (ended = false → y.live = x.live ∧ y.pend = x.pend ∧ y.deferred = x.deferred)

/-! ## What the words that access memory leave as it was -/

/-- What a word of loads, stores and atomics does in memory: its word, the kind of access, the bytes of each lane, the lanes that
access, their addresses, and whether it stores. -/
structure Access where
  ws : WordSpec
  kind : AccessKind
  bytes : Nat
  lanes : Lanes → Lanes
  addr : Warp → Nat → Word64
  stores : Bool

/-- The loads, stores and atomics (R258 to R263). -/
def accessWord : Instr → Option Access
  | .ld g sz _ _ ch d m => some ⟨memSpec 0x60 g m.base [] (dataRegs d.val sz.bytes), loadKind.by ch, sz.bytes, id, (·.effAddr m), false⟩
  | .lds g sz _ _ ch sd m =>
    some ⟨memSpec 0x62 g m.base [] (uniRegs sd.val sz.bytes), loadKind.by ch, sz.bytes, leadLane, (·.effAddr m), false⟩
  | .st g sz _ ord ch d m =>
    some ⟨(memSpec 0x61 g m.base (dataRegs d.val sz.bytes) []).ordered ord, storeKind.by ch, sz.bytes, id, (·.effAddr m), true⟩
  | .sts g sz _ ord ch sd m =>
    some ⟨(memSpec 0x63 g m.base (uniRegs sd.val sz.bytes) []).ordered ord, storeKind.by ch, sz.bytes, leadLane, (·.effAddr m), true⟩
  | .atom g _ sz _ ord d m x =>
    some ⟨{ (memSpec 0x65 g m.base (dataRegs x.val sz.bytes) (dataRegs d.val sz.bytes)).ordered ord with unclean := true }, atomKind,
      sz.bytes, id, (·.wordAddr m), true⟩
  | .red g _ sz _ ord m x =>
    some ⟨{ (memSpec 0x66 g m.base (dataRegs x.val sz.bytes) []).ordered ord with unclean := true }, atomKind, sz.bytes, id,
      (·.wordAddr m), true⟩
  | .cas g sz _ ord d m x =>
    some ⟨{ (memSpec 0x67 g m.base (dataRegs x.val (2 * sz.bytes)) (dataRegs d.val sz.bytes)).ordered ord with unclean := true },
      atomKind, sz.bytes, id, (·.wordAddr m), true⟩
  | _ => none

/-- The byte at a physical address as a core sees it: its first level's, where that holds it, else home's. -/
def byteSeen (s : State) (core a : Nat) : Byte :=
  match l1Find s core (a / 128) with
  | some l => if l.valid.getLsbD (a % 128) then l.data.getD (a % 128) 0 else s.mem.byte a
  | none => s.mem.byte a

/-- The byte stands in one layout: it is stored (R211), no write to it waits to leave for the host (R234), no link injector is
armed (R239), no bit of its sector is flipped, the sector was never written or was written in that layout (R240), and the
core's first level holds its line at most once, in that layout and without a stale copy of the byte. -/
def standsIn (s : State) (core a nl : Nat) : Prop :=
  let e := s.sectors.getD .clean (a / 64)
  unserved s a = false ∧ (∀ w ∈ s.egress, ¬(w.pa ≤ a ∧ a < w.pa + w.data.length)) ∧ (∀ j ∈ s.injectors, j.2.arm = false) ∧
  e.flips = [] ∧ (e.nl = 8 ∨ e.nl = nl) ∧
    match s.l1.filter fun l => l.core == core && l.line == a / 128 with
    | [] => True
    | [l] => l.nl = nl ∧ l.data.length = 128 ∧ (l.dirty.getLsbD (a % 128) = true → l.valid.getLsbD (a % 128) = true) ∧
        (l.valid.getLsbD (a % 128) = true → l.dirty.getLsbD (a % 128) = false → l.data.getD (a % 128) 0 = s.mem.byte a)
    | _ => False

/-- The lane's n bytes reach the byte's line only in that layout, and no register of a device. -/
def Target.layoutAt (t : Target) (n a nl : Nat) : Prop :=
  match t with
  | .phys pa e => classOf pa ≠ 14 ∧ (pa / 128 ≤ a / 128 ∧ a / 128 ≤ (pa + n) / 128 → leafNl e = nl)
  | _ => True

/-- The byte is none of the n that a store there would write, nor in the line of the bitmap byte that the store may mark
(R203). -/
def Target.spares (t : Target) (s : State) (slot n a : Nat) : Prop :=
  match t with
  | .phys pa _ =>
    ¬(pa ≤ a ∧ a < pa + n) ∧ ∀ k, dirtyIndex pa = some k → ((ctxOf s slot).dbmap * 4096 + k / 8) / 128 ≠ a / 128
  | .spad pa => ¬(pa ≤ a ∧ a < pa + n)
  | _ => True

/-- No sector holds a flipped bit, at its home or in HBM beneath it, and no link injector is armed. -/
def noFlips (s : State) : Prop := (∀ e ∈ s.sectors ++ s.backing, e.2.flips = []) ∧ ∀ j ∈ s.injectors, j.2.arm = false

/-! ## System words -/

/-- The words of opcodes C0 to CE, and GETS and SETS of the codes from 64 (R404), with what decode knows of each. -/
def systemWord : Instr → Option WordSpec
  | .tret g => some (sysSpec 0xC0 g [] [])
  | .tretSaved g => some (sysSpec 0xC0 g [] [])
  | .tlbiPage g sa => some (mapSpec 0xC1 g (sRegs true sa.val) [])
  | .tlbiRange g sa sb => some (mapSpec 0xC1 g (sRegs true sa.val ++ sRegs false sb.val) [])
  | .tlbiAsid g => some (mapSpec 0xC1 g [] [])
  | .genadv g => some (mapSpec 0xC2 g [] [])
  | .dvsave g sa => some (sysSpec 0xC3 g (sRegs true sa.val) [])
  | .dvload g sd sa => some (sysSpec 0xC4 g (sRegs true sa.val) (sRegs false sd.val))
  | .sigset g sa _ => some (sysSpec 0xC5 g (sRegs false sa.val) [])
  | .sigrd g sd _ => some (sysSpec 0xC6 g [] (sRegs false sd.val))
  | .mapft g sd sa => some (mapSpec 0xC7 g (sRegs true sa.val) (sRegs false sd.val))
  | .killw g sd sa => some (sysSpec 0xC8 g (sRegs false sa.val) (sRegs false sd.val))
  | .migr g sd sa => some (sysSpec 0xC9 g (sRegs false sa.val) (sRegs false sd.val))
  | .scrub g sd sa sb => some (sysSpec 0xCA g (sRegs true sa.val ++ sRegs false sb.val) (sRegs false sd.val))
  | .keyz g sa => some (sysSpec 0xCB g (sRegs false sa.val) [])
  | .qsaveRq g sd sa | .qsaveMac g sd sa | .qsaveRbq g sd sa => some (queueSpec 0xCC g sd sa)
  | .qloadRq g sd sa | .qloadMac g sd sa | .qloadRbq g sd sa => some (queueSpec 0xCD g sd sa)
  | .pgdisc g sd sa sb => some (mapSpec 0xCE g (sRegs true sa.val ++ sRegs false sb.val) (sRegs false sd.val))
  | .gets g ty d code => if 64 ≤ code.toNat then some { specialSpec 0x5D g code 81 with writes := dstRegs ty.is64 d } else none
  | .sets g ty code a =>
    if 64 ≤ code.toNat then some { specialSpec 0x5E g code 78 with lit := a.isLit, unclean := true, reads := srcRegs ty.is64 a }
    else none
  | _ => none

/-- The codes that the opcode map of R89 does not name. -/
def reservedCodes : List (Nat × Nat) :=
  [(0x0E, 0x0F), (0x2F, 0x2F), (0x4C, 0x4F), (0x55, 0x57), (0x5F, 0x5F), (0x73, 0x7F), (0x88, 0x8F), (0x98, 0x9F), (0xA5, 0xBF),
    (0xCF, 0xCF), (0xD0, 0xFE)]

end Sys2Proof.Machine
end

