-- ==== Sys2Proof/Certificates/Slice0/Obligations.lean ====
section
/-! DEFINITION. The statements for the provers. Where an instruction completes, the statement gives its effect where its word takes
it; the other statements say what the rules say of the machine. -/

section

open Sys2Proof Sys2Proof.Machine

/-! ## Where instructions complete: arithmetic -/

/-- Integer addition, multiplication, comparison and sign, absolute differences, division (R153 to R156, R161, R162): every lane that takes part receives
the exact result of its operands, wrapped or saturated to the type. -/
def Obligations.IntegerArithmeticCompletes : Prop :=
  ∀ (g : Guard) (ty : Ty) (sat : Bool) (d : Dst) (a b c : Src) (s : State),
    Gives2 (.add g ty sat d a b) 0x10 g ty ty ty d a b (perElem2 ty sat fun x y => x + y) s ∧
    Gives2 (.sub g ty sat d a b) 0x11 g ty ty ty d a b (perElem2 ty sat fun x y => x - y) s ∧
    Gives2 (.mul g ty d a b) 0x14 g ty ty ty d a b (perElem2 ty false fun x y => x * y) s ∧
    Gives2 (.mulhi g ty d a b) 0x15 g ty ty ty d a b (fun x y => (mulHigh ty x y, 0)) s ∧
    Gives3 (.mad g ty d a b c) 0x16 g ty ty ty ty d a b c
      (fun x y z => (wrapTo (elemWidth ty) (valueOf ty (elemWidth ty) x * valueOf ty (elemWidth ty) y + z), 0)) s ∧
    Gives3 (.madw g ty d a b c) 0x17 g ty ty (wideTy ty) (wideTy ty) d a b c
      (fun x y z => (wrapTo 64 (valueOf ty 32 x * valueOf ty 32 y + z), 0)) s ∧
    Gives2 (.min g ty d a b) 0x18 g ty ty ty d a b (perElem2 ty false fun x y => if x ≤ y then x else y) s ∧
    Gives2 (.max g ty d a b) 0x19 g ty ty ty d a b (perElem2 ty false fun x y => if x ≤ y then y else x) s ∧
    Gives1 (.abs g ty sat d a) 0x1A g ty ty d a (perElem1 ty sat fun x => if x < 0 then -x else x) s ∧
    Gives1 (.neg g ty sat d a) 0x1B g ty ty d a (perElem1 ty sat fun x => -x) s ∧
    Gives3 (.sad g ty d a b c) 0x2A g ty ty .b32 .b32 d a b c (fun x y z => ((absDiffs ty x y + z) % 2 ^ 32, 0)) s ∧
    Gives2 (.idiv g ty d a b) 0x2C g ty ty ty d a b (fun x y => ((divide ty x y).1, (divide ty x y).2.2)) s ∧
    Gives2 (.irem g ty d a b) 0x2D g ty ty ty d a b (fun x y => ((divide ty x y).2.1, (divide ty x y).2.2)) s

/-- ADDC and SUBB (R155): the carry or borrow comes from the predicate and goes back to it, in the lanes that take part; naming
P7 gives a carry of 1 and discards the one that comes out. -/
def Obligations.CarryWordsComplete : Prop :=
  ∀ (g : Guard) (ty : Ty) (d : Dst) (a b : Src) (pc : Fin 8) (s : State),
    Completes (.addc g ty d a b pc) (carrySpec 0x12 g ty d a b pc) (fun t i m =>
      .done (updWarp t i.w fun x =>
        (x.dst ty.is64 d m fun l => BitVec.ofNat 64
          (((x.src ty a l).toNat + (x.src ty b l).toNat + b2n ((x.pred pc.val).getLsbD l)) % 2 ^ elemWidth ty)).putP pc.val m
          (laneMask fun l => decide
            (2 ^ elemWidth ty ≤ (x.src ty a l).toNat + (x.src ty b l).toNat + b2n ((x.pred pc.val).getLsbD l)))) 0) s ∧
    Completes (.subb g ty d a b pc) (carrySpec 0x13 g ty d a b pc) (fun t i m =>
      .done (updWarp t i.w fun x =>
        (x.dst ty.is64 d m fun l => BitVec.ofNat 64 (wrapTo (elemWidth ty)
          (((x.src ty a l).toNat : Int) - (x.src ty b l).toNat - b2n ((x.pred pc.val).getLsbD l)))).putP pc.val m
          (laneMask fun l => decide
            (((x.src ty a l).toNat : Int) - (x.src ty b l).toNat - b2n ((x.pred pc.val).getLsbD l) < 0))) 0) s ∧
    ∀ (x : Warp) (n : Lanes) (v : Lanes), x.pred 7 = allLanes ∧ x.putP 7 n v = x

/-- Logic, shifts, fields, bit counts, byte permutation and address formation (R157 to R161). -/
def Obligations.BitWordsComplete : Prop :=
  ∀ (g : Guard) (ty : Ty) (f : BitVec 8) (right sx : Bool) (sh : Fin 8) (d : Dst) (a b c : Src) (s : State),
    Gives2 (.and g ty d a b) 0x1C g ty ty ty d a b (fun x y => (Nat.land x y, 0)) s ∧
    Gives2 (.or g ty d a b) 0x1D g ty ty ty d a b (fun x y => (Nat.lor x y, 0)) s ∧
    Gives2 (.xor g ty d a b) 0x1E g ty ty ty d a b (fun x y => (Nat.xor x y, 0)) s ∧
    Gives1 (.not g ty d a) 0x1F g ty ty d a (fun x => (2 ^ elemWidth ty - 1 - x % 2 ^ elemWidth ty, 0)) s ∧
    Gives2 (.shl g ty d a b) 0x20 g ty .n32 ty d a b (fun x n => (shiftLeft (elemWidth ty) x n, 0)) s ∧
    Gives2 (.shr g ty d a b) 0x21 g ty .n32 ty d a b (fun x n => (shiftRight (elemWidth ty) x n, 0)) s ∧
    Gives2 (.sar g ty d a b) 0x22 g ty .n32 ty d a b (fun x n => (shiftSign (elemWidth ty) x n, 0)) s ∧
    Gives2 (.rot g ty right d a b) 0x23 g ty .n32 ty d a b
      (fun x n => (rotLeft (elemWidth ty) x (if right then elemWidth ty - n % elemWidth ty else n), 0)) s ∧
    Gives2 (.bfe g ty d a b) 0x24 g ty .n32 ty d a b (fun x y => (extractField ty x y, 0)) s ∧
    Gives3 (.bfi g ty d a b c) 0x25 g ty .n32 ty ty d a b c (fun x y z => (insertField (elemWidth ty) x y z, 0)) s ∧
    Gives1 (.popc g ty d a) 0x26 g ty .b32 d a (fun x => (popCount (elemWidth ty) x, 0)) s ∧
    Gives1 (.clz g ty d a) 0x27 g ty .b32 d a (fun x => (leadZeros (elemWidth ty) x, 0)) s ∧
    Gives1 (.brev g ty d a) 0x28 g ty ty d a (fun x => (revBits (elemWidth ty) x, 0)) s ∧
    Gives3 (.prmt g d a b c) 0x29 g .b32 .b32 .b32 .b32 d a b c
      (fun x y z => (((List.range 4).map fun k => permByte x y (z / 16 ^ k % 16) * 2 ^ (8 * k)).foldl (· + ·) 0, 0)) s ∧
    Gives2 (.lea g sx sh d a b) 0x2B g .n64 .b32 .n64 d a b
      (fun x y => (wrapTo 64 (x + (if sx then signedOf 32 y else (y : Int)) * 2 ^ sh.val), 0)) s ∧
    Gives3 (.lop3 g ty f d a b c) 0x2E g ty ty ty ty d a b c (fun x y z => (logic3 (elemWidth ty) f x y z, 0)) s

/-- Floating-point arithmetic (R166 to R173): every element receives the rounded result of its operands, and the flags of
the lanes that take part are merged. -/
def Obligations.FloatWordsComplete : Prop :=
  ∀ (g : Guard) (ty : Ty) (m : FMod) (d : Dst) (a b c : Src) (s : State),
    Gives2 (.fadd g ty m d a b) 0x38 g ty ty ty d a b
      (fun x y => perFloat ty fun k => fpAdd (fmtOf ty) m (elemOf ty x k) (elemOf ty y k)) s ∧
    Gives2 (.fsub g ty m d a b) 0x39 g ty ty ty d a b
      (fun x y => perFloat ty fun k => fpSub (fmtOf ty) m (elemOf ty x k) (elemOf ty y k)) s ∧
    Gives2 (.fmul g ty m d a b) 0x3A g ty ty ty d a b
      (fun x y => perFloat ty fun k => fpMul (fmtOf ty) m (elemOf ty x k) (elemOf ty y k)) s ∧
    Gives3 (.ffma g ty m d a b c) 0x3B g ty ty ty ty d a b c
      (fun x y z => perFloat ty fun k => fpFma (fmtOf ty) m (elemOf ty x k) (elemOf ty y k) (elemOf ty z k)) s ∧
    Gives2 (.fmin g ty d a b) 0x3C g ty ty ty d a b
      (fun x y => perFloat ty fun k => fpMinMax (fmtOf ty) false (elemOf ty x k) (elemOf ty y k)) s ∧
    Gives2 (.fmax g ty d a b) 0x3D g ty ty ty d a b
      (fun x y => perFloat ty fun k => fpMinMax (fmtOf ty) true (elemOf ty x k) (elemOf ty y k)) s ∧
    Gives1 (.frcp g ty m d a) 0x3E g ty ty d a (fun x => perFloat ty fun k => approxElem .rcp ty m (elemOf ty x k)) s ∧
    Gives1 (.frsq g ty m d a) 0x3F g ty ty d a (fun x => perFloat ty fun k => approxElem .rsq ty m (elemOf ty x k)) s ∧
    Gives1 (.fsqrt g ty m d a) 0x40 g ty ty d a (fun x => perFloat ty fun k => fpSqrt (fmtOf ty) m (elemOf ty x k)) s ∧
    Gives2 (.fdiv g ty m d a b) 0x41 g ty ty ty d a b
      (fun x y => perFloat ty fun k => fpDiv (fmtOf ty) m (elemOf ty x k) (elemOf ty y k)) s ∧
    Gives1 (.fexp2 g ty m d a) 0x42 g ty ty d a (fun x => perFloat ty fun k => approxElem .exp2 ty m (elemOf ty x k)) s ∧
    Gives1 (.flog2 g ty m d a) 0x43 g ty ty d a (fun x => perFloat ty fun k => approxElem .log2 ty m (elemOf ty x k)) s ∧
    Gives1 (.fsin g ty m d a) 0x44 g ty ty d a (fun x => perFloat ty fun k => approxElem .sin ty m (elemOf ty x k)) s ∧
    Gives1 (.fcos g ty m d a) 0x45 g ty ty d a (fun x => perFloat ty fun k => approxElem .cos ty m (elemOf ty x k)) s ∧
    Gives1 (.ftanh g ty m d a) 0x46 g ty ty d a (fun x => perFloat ty fun k => approxElem .tanh ty m (elemOf ty x k)) s ∧
    Gives3 (.fdot2 g ty m d a b c) 0x47 g ty ty .f32 .f32 d a b c (dot2 ty m) s ∧
    Gives1 (.frnd g ty m d a) 0x48 g ty ty d a (fun x => perFloat ty fun k => fpRnd (fmtOf ty) m (elemOf ty x k)) s ∧
    Gives2 (.fscale g ty m d a b) 0x49 g ty .i32 ty d a b (fun x y => fpScale (fmtOf ty) m x (signedOf 32 y)) s ∧
    Gives1 (.fgetx g ty d a) 0x4A g ty .i32 d a (fpGetx (fmtOf ty)) s ∧
    Gives1 (.fgetm g ty d a) 0x4B g ty ty d a (fpGetm (fmtOf ty)) s

/-- Compare, select, classify and predicate logic (R130, R163 to R165): a comparison gives true or false in a predicate and
all ones or zero in a mask. -/
def Obligations.CompareWordsComplete : Prop :=
  ∀ (g : Guard) (ty : Ty) (ic : ICond) (fc : FCond) (comb : Combine) (d : Dst) (a b : Src) (pd pa pb pc : Fin 8)
    (f : BitVec 8) (s : State),
    Completes (.iset g ty ic comb d a b pc) (cmpSpec 0x30 g ty comb d a b pc) (fun t i m =>
      .done (updWarp t i.w fun x => x.dst false d m fun l => truth (combineWith comb
        (icond ic (valueOf ty (elemWidth ty) (x.src ty a l).toNat) (valueOf ty (elemWidth ty) (x.src ty b l).toNat))
        ((x.pred pc.val).getLsbD l))) (laneFlags m fun _ => 0)) s ∧
    Completes (.fset g ty fc comb d a b pc) (cmpSpec 0x31 g ty comb d a b pc) (fun t i m =>
      .done (updWarp t i.w fun x => x.dst false d m fun l => truth (combineWith comb
        (fcond fc (unpack (fmtOf ty) false (x.src ty a l).toNat) (unpack (fmtOf ty) false (x.src ty b l).toNat)).1
        ((x.pred pc.val).getLsbD l)))
        (laneFlags m fun l =>
          let p := unpack (fmtOf ty) false (i.x.src ty a l).toNat
          let q := unpack (fmtOf ty) false (i.x.src ty b l).toNat
          flagIf ((fcond fc p q).2 || p.isSig || q.isSig) fIV)) s ∧
    Completes (.sel g ty d a b pc)
      { aluSpec 0x32 g [(ty, a), (ty, b)] ty.is64 d with
        reads := (aluSpec 0x32 g [(ty, a), (ty, b)] ty.is64 d).reads ++ pRegs pc.val }
      (fun t i m => .done (updWarp t i.w fun x => x.dst ty.is64 d m fun l =>
        if (x.pred pc.val).getLsbD l then x.src ty a l else x.src ty b l) (laneFlags m fun _ => 0)) s ∧
    Completes (.plop g pd pa pb pc f)
      { opc := 0x33, guard := g, reads := pRegs pa.val ++ pRegs pb.val ++ pRegs pc.val, writes := pRegs pd.val }
      (fun t i m => .done (updWarp t i.w fun x => x.dst false (.p pd) m fun l =>
        truth (f.getLsbD (4 * b2n ((x.pred pa.val).getLsbD l) + 2 * b2n ((x.pred pb.val).getLsbD l) +
          b2n ((x.pred pc.val).getLsbD l)))) (laneFlags m fun _ => 0)) s ∧
    Completes (.fclassPred g ty pd a b) (aluSpec 0x36 g [(ty, a), (.b32, b)] false (.p pd)) (fun t i m =>
      .done (updWarp t i.w fun x => x.dst false (.p pd) m fun l =>
        truth (bitOf ((x.src .b32 b l).toNat % 2 ^ 10) (fpClass (fmtOf ty) (x.src ty a l).toNat))) (laneFlags m fun _ => 0)) s ∧
    Gives1 (.fclassMask g ty d a) 0x36 g ty .b32 d a (fun x => (2 ^ fpClass (fmtOf ty) x, 0)) s

/-- Conversions, block-format words and the generator (R174 to R179). CVT reads B only when it packs two f32 values. -/
def Obligations.ConversionsComplete : Prop :=
  ∀ (g : Guard) (ty sty : Ty) (m : FMod) (fmt : SbFmt) (dense len32 : Bool) (d : Dst) (v : Fin 256) (a b c : Src) (s : State),
    (sty = .f32 ∧ isHalf ty = true →
      Gives2 (.cvt g ty sty m d a b) 0x50 g sty (cvtTyB sty) ty d a b (convert ty sty m) s) ∧
    (¬(sty = .f32 ∧ isHalf ty = true) →
      Gives1 (.cvt g ty sty m d a b) 0x50 g sty ty d a
        (fun x => convert ty sty m x (match b with | .imm i => i.toNat | _ => 0)) s) ∧
    Completes (.sbpack g ty fmt dense len32 d a) (aluSpec 0x51 g [(ty, a)] false d) (fun t i k =>
      .done (updWarp t i.w fun x => x.dst false d k (sbPackLane fmt dense (sbPackHalves i.x k ty fmt len32 a).1))
        (sbPackHalves i.x k ty fmt len32 a).2) s ∧
    Completes (.sbunpk g fmt d v b c)
      { opc := 0x52, guard := g, lit := anyLit [b, c], reads := vQuad v.val ++ srcRegs false b ++ srcRegs false c,
        writes := dstRegs false d }
      (fun t i k => .done (updWarp t i.w fun x => x.dst false d k fun l =>
        BitVec.ofNat 64 (sbUnpack fmt (quadBits x v.val l) (x.src .b32 b l).toNat ((x.src .b32 c l).toNat % 16)))
        (laneFlags k fun _ => 0)) s ∧
    Gives3 (.sbscl g ty fmt d a b c) 0x53 g ty .b32 .b32 .b32 d a b c (fun x y z => sbScaleTo fmt (sbSource ty x) y (z % 16)) s ∧
    Gives3 (.rng g ty d a b c) 0x54 g .n32 .n32 .n32 .b32 d a b c
      (fun x y z => (rngValue ty (kcgMix (Nat.xor x (Nat.xor y z))), 0)) s

/-- Moves and cross-lane words (R123 to R130). -/
def Obligations.MovesComplete : Prop :=
  ∀ (g : Guard) (ty : Ty) (m : FMod) (op : VoteOp) (rop : ReduxOp) (mode : ShflMode) (neg all : Bool) (seg : Fin 6)
    (d : Dst) (vd va : Fin 256) (a b : Src) (pa : Fin 8) (s : State),
    Gives1 (.mov g ty d a) 0x58 g ty ty d a (fun x => (x, 0)) s ∧
    Completes (.movl g vd va) { opc := 0x59, guard := g, reads := vQuad va.val, writes := vQuad vd.val } (fun t i k =>
      .done (updWarp t i.w fun x =>
        [0, 1, 2, 3].foldl (fun x n => x.putV (vd.val + n) k fun l => (i.x.getV (va.val + n)).lane l) x) 0) s ∧
    Completes (.vote g op neg d pa) { opc := 0x34, guard := g, cross := true, reads := pRegs pa.val, writes := dstRegs false d }
      (fun t i k => .done (updWarp t i.w fun x => x.dst false d k fun _ => voteResult op k (voteLanes i.x k pa neg)) 0) s ∧
    Completes (.matchLanes g ty all d va)
      { opc := 0x35, guard := g, cross := true, reads := vRegs ty.is64 va.val, writes := dstRegs false d }
      (fun t i k => .done (updWarp t i.w fun x => x.dst false d k fun l =>
        wide (if all then (if sameValue i.x ty.is64 va.val k l = k then k else 0) else sameValue i.x ty.is64 va.val k l)) 0) s ∧
    Completes (.shfl g ty mode seg vd va b)
      { opc := 0x5A, guard := g, lit := b.isLit, cross := true, reads := vRegs ty.is64 va.val ++ srcRegs false b,
        writes := vRegs ty.is64 vd.val }
      (fun t i k => .done (updWarp t i.w fun x => x.dst ty.is64 (.v vd) k fun l =>
        i.x.laneV ty.is64 va.val (shflSource mode (2 ^ seg.val) l (i.x.src .n32 b l).toNat)) 0) s ∧
    Completes (.bcast g ty d va b)
      { opc := 0x5B, guard := g, lit := b.isLit, cross := true, reads := vRegs ty.is64 va.val ++ srcRegs false b,
        writes := dstRegs ty.is64 d }
      (fun t i k => .done (updWarp t i.w fun x => x.dst ty.is64 d k fun _ =>
        i.x.laneV ty.is64 va.val ((i.x.src .n32 b 0).toNat % 32)) 0) s ∧
    Completes (.redux g ty rop m d va)
      { opc := 0x5C, guard := g, cross := true, reads := vRegs false va.val, writes := dstRegs false d }
      (fun t i k => .done (updWarp t i.w fun x => x.dst false d k fun _ =>
        BitVec.ofNat 64 (reduxValue ty rop m (fun l => ((i.x.getV va.val).lane l).toNat) k).1)
        (reduxValue ty rop m (fun l => ((i.x.getV va.val).lane l).toNat) k).2) s ∧
    Completes (.pmovPack g d) { opc := 0x37, guard := g, reads := allPreds, writes := dstRegs false d }
      (fun t i k => .done (updWarp t i.w fun x => x.dst false d k (packPreds x)) (laneFlags k fun _ => 0)) s ∧
    Completes (.pmovUnpack g a) { opc := 0x37, guard := g, lit := a.isLit, reads := srcRegs false a, writes := allPreds }
      (fun t i k => .done (updWarp t i.w fun x =>
        (List.range 7).foldl (fun x n => x.putP n k (laneMask fun l => (i.x.src .b32 a l).getLsbD n)) x) 0) s

/-- GETS and SETS (R129, R406), for every register code: GETS gives each lane the register's value, SETS writes it, once no
register that the code names has a pending write. CLOCK is the clock's own free value (log 8). -/
def Obligations.SpecialRegistersComplete : Prop :=
  ∀ (g : Guard) (ty : Ty) (d : Dst) (code : BitVec 8) (a : Src) (s : State),
    CompletesWhen (.gets g ty d code) { specialSpec 0x5D g code 81 with writes := dstRegs ty.is64 d }
      (fun _ i _ => (hiddenReg code.toNat).all fun r => !i.x.pendingRegs.contains r)
      (fun t i m =>
        if code = 13 then .done (updWarp (readClock t i.x.core).2 i.w fun x => x.dst ty.is64 d m fun _ => (readClock t i.x.core).1) 0
        else .done (updWarp t i.w fun x => x.dst ty.is64 d m fun l => getSpecial t i.x i.e code.toNat l) 0) s ∧
    CompletesWhen (.sets g ty code a)
      { specialSpec 0x5E g code 78 with lit := a.isLit, unclean := true, reads := srcRegs ty.is64 a }
      (fun _ i _ => (hiddenReg code.toNat).all fun r => !i.x.pendingRegs.contains r)
      (fun t i m => .done (updWarp t i.w fun x =>
        x.setSpecial code.toNat m (i.x.src ty a ((lowestLane m).getD 0)) fun l => i.x.src ty a l) 0) s

/-! ## Where instructions complete: control flow -/

/-- NOP, YIELD, EXIT and the branches (R109, R110, R112, R113). A branch completes when its division has room; which free
entry and join record the division takes is the model's choice (log 116). -/
def Obligations.BranchesComplete : Prop :=
  ∀ (g : Guard) (mode : BraMode) (tgt : BitVec 32) (div : Bool) (reg : Fin 256) (d : Divided) (s : State),
    Completes (.nop g) (plainSpec 0x00 g) (fun t _ _ => .done t 0) s ∧
    Completes (.yield g) (plainSpec 0x01 g) (fun t _ _ => .yield t) s ∧
    Completes (.exit g) { plainSpec 0x02 g with transfer := true, noHandler := true } (fun t i m =>
      .moved (updWarp t i.w fun x => (x.endLanes m).setSplit i.e fun p => p.goTo ⟨i.fall, none⟩)) s ∧
    CompletesWhen (.bra g mode tgt) { plainSpec 0x04 g with transfer := true, always := true }
      (fun t i m =>
        let active := i.x.active i.e
        let taken := braTaken mode active m
        divideSplit t i i.e taken (active &&& ~~~taken) (headerAt i.b.hdrAt tgt) ⟨i.fall, none⟩ = .ok d)
      (fun _ _ _ => .moved d.s) s ∧
    CompletesWhen (.brx g div reg) { plainSpec 0x05 g with transfer := true, reads := vRegs true reg.val }
      (fun t i m =>
        let l := (lowestLane m).getD 0
        laneTarget i reg l % 8 = 0 ∧ (brxStep t i i.e div reg l m).2 = .ok d)
      (fun _ _ _ => .moved d.s) s

/-- CALL, CALLV and RET (R113, R115, R117, R118): taken, they push or pop a return entry and send the split on; RET at call
depth 0 ends the split's lanes, and in a handler, where the model chooses so (DESIGN CHOICE, log 104), it raises ILLEGAL; not taken,
CALL and RET fall through. The divisions of CALLV after the first are those of callvMore (log 105). -/
def Obligations.CallsComplete : Prop :=
  ∀ (g : Guard) (tgt : BitVec 32) (div : Bool) (reg : Fin 256) (d : Divided) (k n : Nat) (c : CallEntry) (u s : State),
    CompletesWhen (.call g tgt) { plainSpec 0x06 g with transfer := true }
      (fun t i m => leads (i.x.active i.e) m = true ∧ pushCall t i i.e = .ok u)
      (fun _ i _ => .moved (updSplit u i.w i.e fun p => p.goTo ⟨headerAt i.b.hdrAt tgt, none⟩)) s ∧
    CompletesWhen (.call g tgt) { plainSpec 0x06 g with transfer := true }
      (fun _ i m => leads (i.x.active i.e) m = false) (fun t _ _ => .done t 0) s ∧
    CompletesWhen (.callv g div reg) { plainSpec 0x07 g with transfer := true, reads := vRegs true reg.val }
      (fun t i m =>
        let l := (lowestLane m).getD 0
        laneTarget i reg l % 8 = 0 ∧ (∃ d0, (brxStep t i i.e div reg l m).2 = .ok d0) ∧ callRoom t i = .ok u ∧
          (brxStep u i i.e div reg l m).2 = .ok d ∧ d.other = none)
      (fun _ i _ => .moved (putCall d.s i i.e)) s ∧
    CompletesWhen (.callv g div reg) { plainSpec 0x07 g with transfer := true, reads := vRegs true reg.val }
      (fun t i m =>
        let l := (lowestLane m).getD 0
        laneTarget i reg l % 8 = 0 ∧ (∃ d0, (brxStep t i i.e div reg l m).2 = .ok d0) ∧ callRoom t i = .ok u ∧
          (brxStep u i i.e div reg l m).2 = .ok d ∧ d.other = some n)
      (fun _ i m =>
        .moved (callvMore i reg 3 (putCall d.s i i.e) n (brxStep u i i.e div reg ((lowestLane m).getD 0) m).1)) s ∧
    CompletesWhen (.ret g) { plainSpec 0x08 g with transfer := true }
      (fun _ i m => leads (i.x.active i.e) m = true ∧ i.x.table.callDepth i.e = 0 ∧ i.x.handler = none)
      (fun t i _ => .moved (exitLanes t i (i.x.active i.e))) s ∧
    CompletesWhen (.ret g) { plainSpec 0x08 g with transfer := true }
      (fun _ i m => leads (i.x.active i.e) m = true ∧ i.x.table.callDepth i.e = 0 ∧ i.x.handler.isSome = true)
      (fun t i _ => .trap t (i.fault .illegal 0 0)) s ∧
    CompletesWhen (.ret g) { plainSpec 0x08 g with transfer := true }
      (fun t i m => leads (i.x.active i.e) m = true ∧ i.x.table.callDepth i.e ≠ 0 ∧ i.x.table.newestCall i.e = some (k, c) ∧
        c.depth = i.p.frames.length ∧ reloadCall t i = .ok (u, n))
      (fun _ i _ =>
        let j := (((warpAt u i.w).table.newestCall i.e).map (·.1)).getD 0
        .movedRaising (updWarp u i.w fun x =>
          { x with table := ({ x.table with calls := x.table.calls.eraseIdx j }).setSplit i.e fun p => p.goTo ⟨c.rh, none⟩ })
          n ⟨c.rh, none⟩) s ∧
    CompletesWhen (.ret g) { plainSpec 0x08 g with transfer := true }
      (fun _ i m => leads (i.x.active i.e) m = false) (fun t _ _ => .done t 0) s

/-- BRK and TRAP trap (R111): BRK, to resume at the next word; TRAP, at the fall-through header; INFO is the immediate. -/
def Obligations.SoftwareTrapsTrap : Prop :=
  ∀ (g : Guard) (imm : BitVec 16) (s : State),
    Completes (.brk g imm) (plainSpec 0x03 g) (fun t i _ => .trapNext t (FaultInfo.uniform .brk 0 imm.toNat i.p.pc)) s ∧
    Completes (.trap g imm) { plainSpec 0x0C g with transfer := true }
      (fun t i _ => .trapFall t (FaultInfo.uniform .swTrap 0 imm.toNat i.p.pc)) s

/-- DISPATCH, ROLE, LAUNCH and WSYNC (R105, R106, R119 to R122): each answers in its predicate whether it has served. A ROLE that
fails has written its predicate and nothing else (R375). -/
def Obligations.LaunchWordsComplete : Prop :=
  ∀ (g : Guard) (ser : Bool) (reg aux : Fin 256) (pd r : Fin 8) (sa sb : Fin 64) (e : RoleEntry) (s : State),
    Completes (.dispatch g reg aux pd)
      { plainSpec 0x09 g with transfer := true, noHandler := true, unclean := true, orders := true,
                              reads := vQuad reg.val ++ [.v aux.val], writes := pRegs pd.val }
      (fun t i m =>
        let r := (lanesOf m).foldl (fun (q : State × Lanes) l =>
          let o := enqueueItem q.1 i.x.launch (coreDie i.x.core) ((i.x.getV aux.val).lane l).toNat (quadBytes i.x reg.val l)
          (o.1, if o.2 then q.2 ||| (1#32 <<< l) else q.2)) (releaseScope t i.x.core .die, 0)
        .done (updWarp r.1 i.w fun x => x.putP pd.val m r.2) 0) s ∧
    (let ws : WordSpec := { plainSpec 0x0A g with noHandler := true, unclean := true, writes := pRegs pd.val ++ sRegs true sb.val }
     CompletesWhen (.role g pd sb r) ws
      (fun t i _ => (launchAt t i.x.launch).role r.val = none ∨
        ∃ e, (launchAt t i.x.launch).role r.val = some e ∧ (i.x.table.valid.length ≠ 1 ∨ i.p.frames ≠ [] ∨ i.p.spilled ≠ 0 ∨
          e.lim ≤ roleCount t i.x.block i.w r.val))
      (fun t i m => .unwritten (updWarp t i.w fun x => x.putP pd.val m 0)) s ∧
     CompletesWhen (.role g pd sb r) ws
      (fun t i _ => (launchAt t i.x.launch).role r.val = some e ∧ i.x.table.valid.length = 1 ∧ i.p.frames = [] ∧
        i.p.spilled = 0 ∧ roleCount t i.x.block i.w r.val < e.lim ∧ ∀ n, .v n ∈ i.x.pendingRegs → n < e.vreg)
      (fun t i m =>
        let a := (launchAt t i.x.launch).kimg + BitVec.ofNat 64 e.entry
        .done (updWarp t i.w fun x =>
          (({ x with role := r.val, cls := e.cls, nextAllot := some e.vreg }.putP pd.val m m).putS sb.val (loWord a)).putS
            (sb.val + 1) (hiWord a)) 0) s) ∧
    Completes (.launch g ser pd sa sb)
      { plainSpec 0x0B g with noHandler := true, unclean := true, orders := true, reads := sRegs true sa.val ++ sRegs false sb.val,
                              writes := pRegs pd.val }
      (fun t i m =>
        let o := launchEntry (releaseScope t i.x.core .device) i.x.asid (i.x.getS sb.val).toNat (i.x.getT sa.val).toNat ser
        .done (updWarp o.1 i.w fun x => x.putP pd.val m (if o.2 then m else 0)) 0) s ∧
    (let ws : WordSpec := { plainSpec 0x0D g with noHandler := true, orders := true, reads := sRegs false sa.val, writes := pRegs pd.val }
     CompletesWhen (.wsync g pd sa) ws
      (fun _ i m => ((i.x.getS sa.val ||| m) &&& i.x.alive) &&& ~~~(wsyncHere i ||| wsyncExcused i.x) = 0)
      (fun t i m =>
        let val := ((i.x.getS sa.val ||| m) &&& i.x.alive) &&& ~~~(wsyncHere i) == 0
        let u := updWarp t i.w fun x => x.putP pd.val (i.x.active i.e) (if val then i.x.active i.e else 0)
        .done ((wsyncMates i).foldl (wsyncRelease ws i pd.val val) u) 0) s)

/-! ## Where instructions complete: memory -/

/-- LD, LDS, ST and STS (R257 to R259), and the group load LDG (R264 to R266): what the lanes reach is read and lands later, LDG's
members being read when it lands; a store writes, after what its order asks, every lane's bytes in ascending lane order. -/
def Obligations.LoadsAndStoresComplete : Prop :=
  ∀ (g : Guard) (sz : MSize) (sco : Scope) (ord : Order) (ch : Cache) (d : Fin 256) (sd : Fin 64) (m : MAddr) (op : LdgOp)
    (width : Fin 3) (wm : WAddr) (s : State),
    CompletesOn (.ld g sz sco ord ch d m) (memSpec 0x60 g m.base [] (dataRegs d.val sz.bytes)) (loadKind.by ch) sz.bytes
      (fun _ k => k) (fun i => i.x.effAddr m)
      (fun t ts i _ =>
        let r := readLanes t i.x.core sz.bytes ch ts
        loadEnd (orderAfter r.1 i.x.core sco ord) i r.2 0 false fun ls =>
          vDests i.x d.val sz.bytes ls fun l => loadExtend sz (dataOf r.2 l)) s ∧
    CompletesOn (.lds g sz sco ord ch sd m) (memSpec 0x62 g m.base [] (uniRegs sd.val sz.bytes)) (loadKind.by ch) sz.bytes
      (fun _ k => leadLane k) (fun i => i.x.effAddr m)
      (fun t ts i k =>
        let r := readLanes t i.x.core sz.bytes ch ts
        loadEnd (orderAfter r.1 i.x.core sco ord) i r.2 0 false fun _ =>
          sDests i.x sd.val sz.bytes (loadExtend sz (dataOf r.2 ((lowestLane k).getD 0)))) s ∧
    CompletesOn (.ldg g op sz width sco ord d wm) (memSpec 0x64 g wm.base [] (dataRegs d.val (sz.bytes * 2 ^ width.val))) groupKind
      (sz.bytes * 2 ^ width.val) (fun _ k => k) (fun i => i.x.wordAddr wm)
      (fun t ts i _ =>
        let ls := laneMask fun l => ts.any (·.1 == l)
        sendLater t i { plainPending t i.w i.e (vDests i.x d.val (sz.bytes * 2 ^ width.val) ls fun _ => 0) with
            ldg := some { op := op, sz := sz, elems := 2 ^ width.val, d := d.val, lanes := ls,
                          addr := (List.range 32).map fun l => i.x.wordAddr wm l, acq := acquires ord } }
          (acquires ord || (i.x.handler.isNone && enabledFlags i.x.flags groupFlags != 0))) s ∧
    CompletesOn (.st g sz sco ord ch d m) ((memSpec 0x61 g m.base (dataRegs d.val sz.bytes) []).ordered ord) (storeKind.by ch) sz.bytes
      (fun _ k => k) (fun i => i.x.effAddr m)
      (fun t ts i _ => .done (writeLanes (orderBefore t i.x.core sco ord) i.x sz.bytes ch ts fun l =>
        i.x.dataNat d.val sz.bytes l) 0) s ∧
    CompletesOn (.sts g sz sco ord ch sd m) ((memSpec 0x63 g m.base (uniRegs sd.val sz.bytes) []).ordered ord) (storeKind.by ch) sz.bytes
      (fun _ k => leadLane k) (fun i => i.x.effAddr m)
      (fun t ts i _ => .done (writeLanes (orderBefore t i.x.core sco ord) i.x sz.bytes ch ts fun _ =>
        i.x.uniNat sd.val sz.bytes) 0) s

/-- ATOM, RED and CAS (R260 to R263): every lane's step in ascending lane order; ATOM and CAS deliver what they read; a
CAS is a release only where some lane of it stores. -/
def Obligations.AtomicsComplete : Prop :=
  ∀ (g : Guard) (op : AtomOp) (sz : MSize) (sco : Scope) (ord : Order) (d x : Fin 256) (m : WAddr) (s : State),
    CompletesOn (.atom g op sz sco ord d m x)
      { (memSpec 0x65 g m.base (dataRegs x.val sz.bytes) (dataRegs d.val sz.bytes)).ordered ord with unclean := true } atomKind
      sz.bytes
      (fun _ k => k) (fun i => i.x.wordAddr m)
      (fun t ts i _ =>
        let r := atomicWord t i sco ord sz.bytes ts fun l o => some (atomValue op sz o (i.x.dataNat x.val sz.bytes l))
        loadEnd r.1 i r.2 (cleanLanes r.2) (sizeFloat sz) fun ls => vDests i.x d.val sz.bytes ls (dataOf r.2)) s ∧
    CompletesOn (.red g op sz sco ord m x)
      { (memSpec 0x66 g m.base (dataRegs x.val sz.bytes) []).ordered ord with unclean := true } atomKind sz.bytes
      (fun _ k => k) (fun i => i.x.wordAddr m)
      (fun t ts i _ =>
        let r := atomicWord t i sco ord sz.bytes ts fun l o => some (atomValue op sz o (i.x.dataNat x.val sz.bytes l))
        loadEnd r.1 i r.2 (cleanLanes r.2) (sizeFloat sz) fun _ => []) s ∧
    CompletesOn (.cas g sz sco ord d m x)
      { (memSpec 0x67 g m.base (dataRegs x.val (2 * sz.bytes)) (dataRegs d.val sz.bytes)).ordered ord with unclean := true } atomKind
      sz.bytes (fun _ k => k) (fun i => i.x.wordAddr m)
      (fun t ts i _ =>
        let swap (l o : Nat) : Option Nat :=
          if o = i.x.dataNat x.val (2 * sz.bytes) l % 2 ^ (8 * sz.bytes) then
            some (i.x.dataNat x.val (2 * sz.bytes) l / 2 ^ (8 * sz.bytes))
          else none
        let stores := (atomicLanes t i.x sz.bytes ts swap).2.any fun q =>
          !q.2.2.isPoison && (swap q.1 (leNat q.2.2.data)).isSome
        let r := atomicLanes (if stores then orderBefore t i.x.core sco ord else t) i.x sz.bytes ts swap
        loadEnd (orderAfter r.1 i.x.core sco ord) i r.2 (cleanLanes r.2) false fun ls =>
          vDests i.x d.val sz.bytes ls (dataOf r.2)) s

/-- FENCE, PREF, CWB, CINV and WAITNE (R267 to R271). WAITNE completes when every lane reads good data that
differs from its operand; a parked one is ready for its next check once its back-off has passed, and its run begins where R98
chooses it and nothing is withheld. -/
def Obligations.OrderingWordsComplete : Prop :=
  ∀ (g : Guard) (sz : MSize) (sco : Scope) (ord : Order) (ch : Cache) (flag : Bool) (d x : Fin 256) (m : MAddr) (s : State),
    Completes (.fence g sco ord) { opc := 0x68, guard := g, orders := true }
      (fun t i _ => .done (orderAfter (orderBefore t i.x.core sco ord) i.x.core sco ord) 0) s ∧
    CompletesWhen (.pref g ch m) (memSpec 0x69 g m.base [] [])
      (fun t i k => queueHolds (checkLanes t i.x (loadKind.by ch) 1 k (i.x.effAddr m)).1 i.x.core (loadKind.by ch) 1
        (prefetched (checkLanes t i.x (loadKind.by ch) 1 k (i.x.effAddr m)).2) = false)
      (fun t i k =>
        let r := checkLanes t i.x (loadKind.by ch) 1 k (i.x.effAddr m)
        .done ((prefetched r.2).foldl (fun u q => prefLane u i.x ch q.2.2) r.1) 0) s ∧
    CompletesOn (.cwb g flag m) (memSpec 0x6A g m.base [] []) maintKind 1 (fun _ k => k) (fun i => i.x.effAddr m)
      (fun t ts i _ => .done (ts.foldl (fun t q => match q.2.2 with
        | .phys pa _ => cleanLine t i.x.core (pa / 128)
        | _ => t) t) 0) s ∧
    CompletesOn (.cinv g flag m) { memSpec 0x6B g m.base [] [] with orders := flag } maintKind 1 (fun _ k => k) (fun i => i.x.effAddr m)
      (fun t ts i _ => .done (ts.foldl (fun t q => match q.2.2 with
        | .phys pa _ => flushLine t i.x.core (pa / 128)
        | _ => t) t) 0) s ∧
    CompletesOnWhen (.waitne g sz sco ord d m x) (memSpec 0x6D g m.base (dataRegs x.val sz.bytes) (dataRegs d.val sz.bytes))
      (loadKind.by .nol1)
      sz.bytes (fun _ k => k) (fun i => i.x.effAddr m)
      (fun t ts i =>
        let r := readLanes t i.x.core sz.bytes .nol1 ts
        poisonFault r.2 false = none ∧ ∀ q ∈ r.2, leNat q.2.2.data ≠ i.x.dataNat x.val sz.bytes q.1)
      (fun t ts i _ =>
        let r := readLanes t i.x.core sz.bytes .nol1 ts
        let u := match gradeOf r.2 with | some gw => recordGrade r.1 i.w gw | none => r.1
        let u := updWarp u i.w fun w => { w.setSplit i.e (fun p => { p with wk := 0 }) with backoff := false }
        let u := updWarp (orderAfter u i.x.core sco ord) i.w fun w =>
          (List.range (regsFor sz.bytes)).foldl (fun w k =>
            w.putV (d.val + k) (lotLanes r.2) fun l => BitVec.ofNat 32 (dataOf r.2 l / 2 ^ (32 * k))) w
        let tails := tailsIn r.2 (lotLanes r.2)
        .done (countTails u i.x.ctx tails.length) (if tails.isEmpty then 0 else fTAIL)) s ∧
    (∀ (w : Nat) (e : Fin 4) (b : Fetched) (left k : Nat),
      let y := warpAt s w
      let t := updSplit s w e.val fun p => { p with park := some (.waitne 0 k) }
      (y.splitAt e.val).park = some (.waitne left k) → (y.splitAt e.val).blk = some b →
        (left = 0 ∨ ∀ v ∈ readyWarps s y.core y.quarter, v = w) → splitReady t w e.val = true →
          (gateOf t y.core = 0 ∧ chooseWarp t y.core y.quarter = some w ∧ chooseSplit t w = some e.val →
            s.runs.find? (quarterKey y) = none → (s.warps.find? w).isSome = true → e.val < y.table.splits.length →
              ∃ u, exec (.waitneRecheck w e) s = .next u ∧ u.focus = some (w, e.val) ∧
                u.runs.find? (quarterKey y) = some (w, e.val)) ∧
          (¬(gateOf t y.core = 0 ∧ chooseWarp t y.core y.quarter = some w ∧ chooseSplit t w = some e.val) →
            exec (.waitneRecheck w e) s = .next t))

/-! ## Where instructions complete: the store and the arrays -/

/-- RESIDE (R272, R273): the contract changes as the range allows, and the split waits for the status. -/
def Obligations.ResideCompletes : Prop :=
  ∀ (g : Guard) (sd sa sb : Fin 64) (cls : Reuse) (report ntreq : Bool) (tc : Fin 8) (s : State),
    (let ws : WordSpec :=
       { opc := 0x6C, guard := g, reads := sRegs true sa.val ++ sRegs false sb.val, writes := sRegs false sd.val }
     Completes (.resideClass g sd sa sb cls report ntreq) ws (fun t i _ =>
       let r := resideClass t i.x (resideRange i.x sa.val sb.val) cls report ntreq
       statusWord r.1 i sd.val r.2) s ∧
     Completes (.residePin g sd sa sb) ws (fun t i _ =>
       let r := residePin t i.x (resideRange i.x sa.val sb.val)
       statusWord r.1 i sd.val r.2) s ∧
     Completes (.resideUnpin g sd sa sb) ws (fun t i _ =>
       let r := onExact t i.x (resideRange i.x sa.val sb.val) unlockContract
       statusWord r.1 i sd.val r.2) s ∧
     Completes (.resideClose g sd sa sb) ws (fun t i _ =>
       let r := onExact t i.x (resideRange i.x sa.val sb.val) fun t c =>
         { unlockContract t c with
           contracts := (unlockContract t c).contracts.filter fun k => !(k.launch == c.launch && k.index == c.index) }
       statusWord r.1 i sd.val r.2) s) ∧
    (let ws : WordSpec := { opc := 0x6C, guard := g, reads := sRegs false sa.val, writes := sRegs false sd.val }
     CompletesWhen (.resideTprio g sd sa tc) ws
       (fun t i _ => ownsReserve t i.x.asid (bitsOf (i.x.getS sa.val).toNat 13 12) = true)
       (fun t i _ =>
         let v := (i.x.getS sa.val).toNat
         statusWord { t with tensors := t.tensors.putD 0 (bitsOf v 13 12 * 4096 + bitsOf v 11 0) tc.val } i sd.val 0) s ∧
     CompletesWhen (.resideTprio g sd sa tc) ws
       (fun t i _ => ownsReserve t i.x.asid (bitsOf (i.x.getS sa.val).toNat 13 12) = false)
       (fun t i _ => statusWord t i sd.val 4) s)

/-- The key-value words (R213 to R215, R246, R275): their results are on their way, or a deferred GRADE where a tag is past
correction; KVPUT gives the evicted key at SC. -/
def Obligations.KeyValueWordsComplete : Prop :=
  ∀ (g : Guard) (pin : Bool) (sd sa sc : Fin 64) (s : State),
    (let ws : WordSpec := { opc := 0x6E, guard := g, reads := sRegs true sa.val, writes := sRegs true sd.val }
     CompletesWhen (.kvfind g sd sa) ws (fun t i _ => tagsBad t i.x.asid (i.x.getT sa.val) = false)
       (fun t i _ =>
         let r := kvFind (noteTags t i.x.asid (i.x.getT sa.val)) i.x.asid (i.x.getT sa.val)
         lateWord r.1 i (sDests i.x sd.val 8 r.2) false) s ∧
     CompletesWhen (.kvfind g sd sa) ws (fun t i _ => tagsBad t i.x.asid (i.x.getT sa.val) = true)
       (fun t i m =>
         let r := noAddress (noteTags t i.x.asid (i.x.getT sa.val)) .grade 0x83 ((gradeWord 2 0 3).toNat / 2 ^ 16) m
         sendLater r.1 i { plainPending r.1 i.w i.e (sDests i.x sd.val 8 0) with
           grade := some (gradeWord 2 0 3), fault := some r.2 } false) s) ∧
    Completes (.kvput g pin sd sa sc)
      { opc := 0x6F, guard := g, reads := sRegs true sa.val, writes := sRegs true sd.val ++ sRegs true sc.val }
      (fun t i _ =>
        let r := kvPut (noteTags t i.x.asid (i.x.getT sa.val)) i.x.asid (i.x.getT sa.val) pin
        lateWord r.1 i (sDests i.x sd.val 8 r.2.1 ++
          match r.2.2 with | some k => sDests i.x sc.val 8 k.toNat | none => []) false) s ∧
    Completes (.kvdrop g sd sa) { opc := 0x70, guard := g, reads := sRegs true sa.val, writes := sRegs false sd.val }
      (fun t i _ =>
        let r := kvDrop t i.x.asid (i.x.getT sa.val)
        statusWord r.1 i sd.val r.2) s ∧
    Completes (.kvdropTensor g sd sa) { opc := 0x70, guard := g, reads := sRegs false sa.val, writes := sRegs false sd.val }
      (fun t i _ =>
        let v := (i.x.getS sa.val).toNat
        let r := kvDropTensor t i.x.asid (bitsOf v 13 12) (bitsOf v 11 0)
        statusWord r.1 i sd.val r.2) s

/-- ACGROW, ACFREE and MARR (R273, R276, R296, R297, R313): ACFREE and MARR once no card of the block holds what they change; the
answer in SD says whether the word has served, ACFREE's as a pending write. -/
def Obligations.ArrayWordsComplete : Prop :=
  ∀ (g : Guard) (sd : Fin 64) (n : BitVec 16) (lg : Fin 4) (s : State),
    (let ws : WordSpec := { opc := 0x71, guard := g, noCallee := true, writes := sRegs false sd.val }
     let short (t : State) (i : Issuer) : Prop :=
       (freeTiles t i.x.core).length < n.toNat ∨ 256 < (blockAt t i.x.block).tiles.length + n.toNat
     CompletesWhen (.acgrow g sd n) ws (fun t i _ => short t i) (fun t i _ => tileFail t i.w sd.val) s ∧
     CompletesWhen (.acgrow g sd n) ws (fun t i _ => ¬short t i)
       (fun t i _ =>
         let more := (freeTiles t i.x.core).take n.toNat
         let u := more.foldl (fun u k => setTile u i.x.core k autoAnchor) t
         let u := updBlock u i.x.block fun x => { x with tiles := x.tiles ++ more }
         .done (updWarp u i.w fun x => x.putS sd.val (BitVec.ofNat 32 (blockAt t i.x.block).tiles.length)) 0) s) ∧
    (let ws : WordSpec := { opc := 0x72, guard := g, noCallee := true, writes := sRegs false sd.val }
     CompletesWhen (.acfree g sd n) ws (fun t i _ => (blockAt t i.x.block).tiles.length < n.toNat)
       (fun t i _ => lateWord t i (sDests i.x sd.val 4 0xFFFFFFFF) false) s ∧
     CompletesWhen (.acfree g sd n) ws
       (fun t i _ =>
         let old := (blockAt t i.x.block).tiles.length
         n.toNat ≤ old ∧
           cardsHold t i.x.block (if n = 0 then [] else [{ dom := .acc, lo := old - n.toNat, hi := old - 1 }]) = false)
       (fun t i _ =>
         let x := blockAt t i.x.block
         let u := (x.tiles.drop (x.tiles.length - n.toNat)).foldl (fun u k => setTile u i.x.core k 0) t
         let u := updBlock u i.x.block fun y => { y with tiles := y.tiles.take (x.tiles.length - n.toNat) }
         lateWord u i (sDests i.x sd.val 4 0) false) s) ∧
    (let ws : WordSpec := { opc := 0x90, guard := g, noCallee := true, writes := sRegs false sd.val }
     let gone (t : State) (i : Issuer) : State :=
       updBlock t i.x.block fun x => { x with marrs := x.marrs.filter fun r => r.warp != i.w || r.split != i.e }
     CompletesWhen (.marr g sd lg) ws
       (fun t i _ => marrWaits t i lg.val = false ∧ marrServes (blockAt (gone t i) i.x.block).macs lg.val = true)
       (fun t i _ =>
         .done (updWarp (setArrangement (markReady (gone t i)) i.x.block lg.val) i.w fun x => x.putS sd.val 0) 0) s ∧
     CompletesWhen (.marr g sd lg) ws
       (fun t i _ => marrWaits t i lg.val = false ∧ marrServes (blockAt (gone t i) i.x.block).macs lg.val = false)
       (fun t i _ => .done (updWarp (markReady (gone t i)) i.w fun x => x.putS sd.val 1) 0) s)

/-- MREAD and MWRITE (R323, R324), of words and of anchors: the tile is one of the block's, no card of the block holds it, and
for a read nothing in it is poisoned. -/
def Obligations.AccumulatorWordsComplete : Prop :=
  ∀ (g : Guard) (d b : Fin 256) (sa : Fin 64) (s : State),
    (let free (t : State) (i : Issuer) : Prop :=
       let r := rowDesc (i.x.getS sa.val)
       r.tile < (blockAt t i.x.block).tiles.length ∧
         cardsHold t i.x.block [{ dom := .acc, lo := r.tile, hi := r.tile }] = false
     let tile (t : State) (i : Issuer) : Nat := physTile (blockAt t i.x.block) (rowDesc (i.x.getS sa.val)).tile
     CompletesWhen (.mread g d sa)
       { opc := 0x96, guard := g, noCallee := true, reads := sRegs false sa.val, writes := vRegs true d.val }
       (fun t i m => free t i ∧ poisonLanes t i.x.core (tile t i) (rowDesc (i.x.getS sa.val)) false m = 0)
       (fun t i m =>
         let u := noteMread t i.x.core (tile t i) (rowDesc (i.x.getS sa.val)) false m
         lateWord u i (vDests i.x d.val 8 m fun l =>
           (accWord u i.x.core (tile t i) (2 * (rowDesc (i.x.getS sa.val)).pair + l / 16) (l % 16)).toNat) false) s ∧
     CompletesWhen (.mreadAnc g d sa)
       { opc := 0x96, guard := g, noCallee := true, reads := sRegs false sa.val, writes := vRegs false d.val }
       (fun t i m => free t i ∧ poisonLanes t i.x.core (tile t i) (rowDesc (i.x.getS sa.val)) true m = 0)
       (fun t i m =>
         let u := noteMread t i.x.core (tile t i) (rowDesc (i.x.getS sa.val)) true m
         lateWord u i (vDests i.x d.val 4 m fun l =>
           if l < 16 then (anchorOf u i.x.core (tile t i) l).toNat else 0) false) s ∧
     CompletesWhen (.mwrite g sa b)
       { opc := 0x97, guard := g, noCallee := true, reads := sRegs false sa.val ++ vRegs true b.val }
       (fun t i _ => free t i)
       (fun t i m =>
         let r := rowDesc (i.x.getS sa.val)
         let u := (lanesOf m).foldl (fun u l =>
           setAcc u i.x.core (tile t i) (2 * r.pair + l / 16) (l % 16) (i.x.laneV true b.val l)) t
         let u := if m &&& halfLanes 0 = halfLanes 0 then freshSegment u i.x.core (tile t i) (2 * r.pair) else u
         .done (if m &&& halfLanes 1 = halfLanes 1 then freshSegment u i.x.core (tile t i) (2 * r.pair + 1) else u) 0) s ∧
     CompletesWhen (.mwriteAnc g sa b)
       { opc := 0x97, guard := g, noCallee := true, reads := sRegs false sa.val ++ vRegs false b.val }
       (fun t i _ => free t i)
       (fun t i m => .done ((lanesOf m).foldl (fun u l =>
         if l < 16 then setAnchor u i.x.core (tile t i) l (((i.x.getV b.val).lane l).setWidth 16) else u) t) 0) s)

/-! ## Where instructions complete: cards -/

/-- The words that issue cards (R277 to R279, R292 to R295, R309, R314 to R322): with the record in the block's scratchpad
and a free slot, the card joins the cards in flight with the record's eight words, and its tag is on its way to SD. -/
def Obligations.CardsIssue : Prop :=
  ∀ (g : Guard) (sd sa sb sc : Fin 64) (sel : Fin 5) (vc : Fin 256) (s : State),
    CardIssues (.cpy g sd sa) 0x80 g sd sa [] (fun _ => []) (fun _ => []) s ∧
    CardIssues (.cpym g sd sa) 0x81 g sd sa [] (fun _ => []) (fun _ => []) s ∧
    CardIssues (.cpysc g sd sa) 0x82 g sd sa [] (fun _ => []) (fun _ => []) s ∧
    CardIssues (.xpose g sd sa) 0x83 g sd sa [] (fun _ => []) (fun _ => []) s ∧
    CardIssues (.sred g sd sa) 0x84 g sd sa [] (fun _ => []) (fun _ => []) s ∧
    CardIssues (.bload g sd sa sb) 0x91 g sd sa [.s (sb.val + 1)] (fun x => [0, x.getS (sb.val + 1), 0, 0]) (fun _ => []) s ∧
    CardIssues (.minit g sd sa) 0x92 g sd sa [] (fun _ => []) (fun _ => []) s ∧
    CardIssues (.mma g sd sa sb) 0x93 g sd sa (fmtRegs sb.val) (fmtWords sb.val) (fun _ => []) s ∧
    CardIssues (.mmasp g sel sd sa sb vc) 0x94 g sd sa (fmtRegs sb.val ++ vRegs false vc.val) (fmtWords sb.val)
      (fun x => (indexLanes sel).map (x.getV vc.val).lane) s ∧
    CardIssues (.mdrain g sd sa sb sc) 0x95 g sd sa (fmtRegs sb.val ++ sRegs false sc.val)
      (fun x => fmtWords sb.val x ++ [x.getS sc.val]) (fun _ => []) s

/-- AFENCE, AWAIT and ATEST (R288 to R291): AFENCE closes the open batch; AWAIT completes, an acquire of the covered cards' writes,
when no covered card runs, no report is due and no enabled card flag; ATEST always answers. -/
def Obligations.BatchWordsComplete : Prop :=
  ∀ (g : Guard) (sd sa : Fin 64) (pd : Fin 8) (s : State),
    Completes (.afence g sd) { opc := 0x85, guard := g, writes := sRegs false sd.val } (fun t i _ =>
      let n := (i.x.batch + 1) % 65536
      let u := { t with cards := t.cards.mapVals fun _ c =>
        if (c.isOf i.w && c.batch.isNone) = true then { c with batch := some n } else c }
      .done (updWarp u i.w fun x =>
        ({ x with
          batch := n,
          faultList := x.faultList.map fun r => if r.batch = none then { r with batch := some n } else r,
          cardFlags := x.cardFlags.map fun f => (some (f.1.getD n), f.2),
          awayFlags := x.awayFlags.map fun f => (some (f.1.getD n), f.2),
          awayBatches := x.awayBatches.map fun b => some (b.getD n) } : Warp).putS sd.val (BitVec.ofNat 32 n)) 0) s ∧
    (let calm (n : Warp → Option Nat) (t : State) (i : Issuer) : Prop :=
       dueReport i.x (n i.x) = none ∧ batchRuns t i.w (n i.x) = false ∧ (i.x.handler.isSome = true ∨ dueFlags i.x (n i.x) = 0)
     let seen (n : Warp → Option Nat) (t : State) (i : Issuer) (_ : Lanes) : WordEnd :=
       let u := acquireCards t i.w (n i.x)
       .done (if i.x.handler.isSome = true then u else updWarp u i.w (·.awaited (n i.x))) 0
     CompletesWhen (.awaitBatch g sa) { opc := 0x86, guard := g, reads := sRegs false sa.val }
       (fun t i _ => calm (fun x => some (x.getS sa.val).toNat) t i) (seen fun x => some (x.getS sa.val).toNat) s ∧
     CompletesWhen (.awaitAll g) { opc := 0x86, guard := g } (fun t i _ => calm (fun _ => none) t i) (seen fun _ => none) s) ∧
    (let answer (n : Warp → Option Nat) (t : State) (i : Issuer) (m : Lanes) : WordEnd :=
       if batchRuns t i.w (n i.x) = true then .done (updWarp t i.w fun x => x.putP pd.val m 0) 0
       else .done (updWarp (acquireCards t i.w (n i.x)) i.w fun x => x.putP pd.val m m) 0
     Completes (.atest g pd sa) { opc := 0x87, guard := g, reads := sRegs false sa.val, writes := pRegs pd.val }
       (answer fun x => some (x.getS sa.val).toNat) s ∧
     Completes (.atestAll g pd) { opc := 0x87, guard := g, writes := pRegs pd.val } (answer fun _ => none) s)

/-! ## Where instructions complete: barriers -/

/-- BARA, BARW and BARS on a barrier that the launch declares (R364 to R370): BARA arrives, a release, and for an arrival that counts in
the current phase an acquire too (the model's reading, DEDUCED, log 94); BARW completes when
its warp has not arrived, an acquire, and when the barrier is abandoned, unless the phase that readied it had completed before
(R352, R373); BARS takes a snapshot, at issue (DESIGN CHOICE, log 95). -/
def Obligations.BarrierWordsComplete : Prop :=
  ∀ (g : Guard) (pd : Fin 8) (sd : Fin 64) (bar : Bar) (k : Nat) (b : Barrier) (s : State),
    (let found (t : State) (i : Issuer) : Prop := barDeclared (launchOf t i.w) bar = true ∧ barFind t i.x.block bar = some (k, b)
     let ws (opc : Nat) : WordSpec := barSpec opc g [] (pRegs pd.val ++ sRegs false sd.val) false
     let snap : WordSpec := barSpec 0xA2 g [] (sRegs false sd.val) true
     CompletesWhen (.bara g pd sd bar) { ws 0xA0 with orders := true } (fun t i _ => found t i)
       (fun t i m =>
         let u := releaseScope t i.x.core (levelScope bar.lvl)
         let u := if (b.arrive i.w).2 = .done then acquireScope u i.x.core (levelScope bar.lvl) else u
         barrierStatus (setBarrier u k (b.arrive i.w).1) i m pd.val sd.val (b.arrive i.w).2.code) s ∧
     CompletesWhen (.barw g pd sd bar) (ws 0xA1) (fun t i _ => found t i ∧ b.aband = true ∧ i.p.park ≠ some .woken)
       (fun t i m => barrierStatus t i m pd.val sd.val 3) s ∧
     CompletesWhen (.barw g pd sd bar) (ws 0xA1)
       (fun t i _ => found t i ∧ (b.aband = false ∨ i.p.park = some .woken) ∧ b.has i.w (·.arrived) = false)
       (fun t i m => barrierStatus (acquireScope t i.x.core (levelScope bar.lvl)) i m pd.val sd.val 0) s ∧
     CompletesWhen (.barsRoot g sd bar) snap (fun t i _ => found t i)
       (fun t i _ => lateWord t i (sDests i.x sd.val 4
         (packFields [(b2n b.aband, 31), (b2n b.phase, 30), (b.exp.toNat, 15), (b.arr.toNat, 0)])) false) s ∧
     CompletesWhen (.barsOwn g sd bar) snap (fun t i _ => found t i)
       (fun t i _ => lateWord t i (sDests i.x sd.val 4
         (packFields [(b2n (b.has i.w (·.member)), 3), (b2n (b.has i.w (·.waiter)), 2), (b2n (b.has i.w (·.early)), 1),
           (b2n (b.has i.w (·.arrived)), 0)])) false) s)

/-- BARQ and BARSET in a handler (R364, R371, R372): a field of a declared barrier is read or replaced; of any other it reads
as zero and takes nothing. -/
def Obligations.BarrierFieldWordsComplete : Prop :=
  ∀ (g : Guard) (sd : Fin 64) (bar : Bar) (s : State),
    (let ws : WordSpec := { barSpec 0xA3 g [] (sRegs false sd.val) true with sys := true }
     let reads (k : Instr) (f : State → Nat → Barrier → Nat) : Prop := Completes k ws (fun t i _ =>
       match barDeclared (launchOf t i.w) bar, barFind t i.x.block bar with
       | true, some (_, b) => lateWord t i (sDests i.x sd.val 4 (f t i.x.block b)) false
       | _, _ => lateWord t i (sDests i.x sd.val 4 0) false) s
     reads (.barqRoot g sd bar) (fun _ _ b => b.rootWord) ∧
     reads (.barqMem g sd bar) (fun t n b => shareMask t n b (·.member)) ∧
     reads (.barqArr g sd bar) (fun t n b => shareMask t n b (·.arrived)) ∧
     reads (.barqEarly g sd bar) (fun t n b => shareMask t n b (·.early)) ∧
     reads (.barqWait g sd bar) (fun t n b => shareMask t n b (·.waiter))) ∧
    (let ws : WordSpec := { barSpec 0xA4 g (sRegs false sd.val) [] true with sys := true }
     let writes (k : Instr) (f : State → Nat → Word32 → Barrier → Barrier) : Prop := Completes k ws (fun t i _ =>
       match barDeclared (launchOf t i.w) bar, barFind t i.x.block bar with
       | true, some (n, b) => .done (setBarrier t n (f t i.x.block (i.x.getS sd.val) b)) 0
       | _, _ => .done t 0) s
     writes (.barsetRoot g sd bar) (fun t _ v b => setRoot (movingCore t) v b) ∧
     writes (.barsetMem g sd bar) (fun t n v b => setShare t n v (fun l m => { l with member := m }) (·.member) b) ∧
     writes (.barsetArr g sd bar) (fun t n v b => setShare t n v (fun l m => { l with arrived := m }) (·.arrived) b) ∧
     writes (.barsetEarly g sd bar) (fun t n v b => setShare t n v (fun l m => { l with early := m }) (·.early) b) ∧
     writes (.barsetWait g sd bar) (fun _ _ _ b => b))

/-! ## Where instructions complete: the system words, in a handler -/

/-- TRET and TRET.saved (R399, R407, R419): with no pending write of the handler left, TRET returns; TRET.saved leaves the
slot in a handler that PREEMPT with cause 0 or 1 opened. -/
def Obligations.TrapReturnsComplete : Prop :=
  ∀ (g : Guard) (s : State),
    CompletesWhen (.tret g) (sysSpec 0xC0 g [] []) (fun _ i _ => handlerPends i.x = false)
      (fun t i _ =>
        let f := i.handler.fault
        let u := if preemptCause f = some 2 ∧ f.getLsbD 0 = true then updBlock t i.x.block fun x => { x with rqHold := false }
          else t
        .left (returnFromTrap (endRun u i.w i.e) i.w)) s ∧
    CompletesWhen (.tretSaved g) (sysSpec 0xC0 g [] [])
      (fun _ i _ => preemptCause i.handler.fault = some 0 ∨ preemptCause i.handler.fault = some 1)
      (fun t i _ => .left (saveWarp (endRun t i.w i.e) i.w)) s

/-- TLBI and GENADV (R33, R196, R346, R408, R409): after the warp's earlier group loads have read, translations go, the context's
generation advances, and the units of contracts whose mapping has changed are translated again. A TLBI.range whose range R408 does not admit has no effect (the model's reading, log 25). -/
def Obligations.TranslationWordsComplete : Prop :=
  ∀ (g : Guard) (sa sb : Fin 64) (s : State),
    Completes (.tlbiPage g sa) (mapSpec 0xC1 g (sRegs true sa.val) [])
      (fun t i _ =>
        let va := (i.x.getT sa.val).toNat
        .done (mappingDone (tlbDrop t i.x.asid va) i (changedUnits t i.x.ctx i.x.asid va 1)) 0) s ∧
    Completes (.tlbiRange g sa sb) (mapSpec 0xC1 g (sRegs true sa.val ++ sRegs false sb.val) [])
      (fun t i _ =>
        let va := (i.x.getT sa.val).toNat
        let n := (i.x.getS sb.val).toNat
        if unitRange va n = true then
          .done (mappingDone (tlbDropRange t i.x.asid va (n * 65536)) i (changedUnits t i.x.ctx i.x.asid va (n * 65536))) 0
        else .done t 0) s ∧
    Completes (.tlbiAsid g) (mapSpec 0xC1 g [] [])
      (fun t i _ => .done (mappingDone { t with tlb := t.tlb.filter fun e => e.asid != i.x.asid } i fun _ => true) 0) s ∧
    Completes (.genadv g) (mapSpec 0xC2 g [] [])
      (fun t i _ =>
        let gen := (ctxOf t i.x.ctx).gen + 1
        let u := updCtx (mappingFence t i) i.x.ctx fun c => { c with gen := gen }
        let u := { u with tlb := u.tlb.filter fun e => !(e.asid == i.x.asid && e.gen == gen),
                          icache := u.icache.filter fun e => !(e.asid == i.x.asid && e.gen == gen) }
        .done (retranslate (dropFetched u i.x.asid) i.x.asid fun _ => true) 0) s

/-- DVSAVE, DVLOAD, SIGSET and SIGRD (R410 to R412), where the record's bytes may be accessed. -/
def Obligations.RecordWordsComplete : Prop :=
  ∀ (g : Guard) (sd sa : Fin 64) (n : Fin 4) (r : State × List (Nat × Nat × Target)) (q : State × List Byte × List Nat)
    (s : State),
    CompletesWhen (.dvsave g sa) (sysSpec 0xC3 g (sRegs true sa.val) [])
      (fun t i m => sysReaches t i m true (i.x.getT sa.val) 1536 64 r)
      (fun _ i _ => .done (sysWrite r.1 i r.2 (Bytes.good (divRecord i.x i.handler))) 0) s ∧
    (let ws := sysSpec 0xC4 g (sRegs true sa.val) (sRegs false sd.val)
     let got (t : State) (i : Issuer) (m : Lanes) : Prop :=
       sysReaches t i m false (i.x.getT sa.val) 1536 64 r ∧ sysGets r i (i.x.getT sa.val) [] q
     CompletesWhen (.dvload g sd sa) ws (fun t i m => got t i m ∧ recRefused q.1 i.w q.2.1 = true)
       (fun _ i _ => statusWord q.1 i sd.val 1) s ∧
     CompletesWhen (.dvload g sd sa) ws (fun t i m => got t i m ∧ recRefused q.1 i.w q.2.1 = false)
       (fun _ i _ =>
         let k := recWarp q.2.1
         let owners := recOwners q.1 i.x i.handler.table q.2.1
         let cls := i.x.roleClass (launchAt q.1 i.x.launch) k.role
         statusWord (updWarp q.1 i.w fun x => x.loadRecord i.handler q.2.1 owners cls) i sd.val 0) s) ∧
    Completes (.sigset g sa n) (sysSpec 0xC5 g (sRegs false sa.val) [])
      (fun t i _ => .done (updWarp t i.w fun x => { x with handler := x.handler.map fun h =>
        { h with table := h.table.setSplit n.val fun p => { p with sig := (i.x.getS sa.val).extractLsb' 0 16 } } }) 0) s ∧
    Completes (.sigrd g sd n) (sysSpec 0xC6 g [] (sRegs false sd.val))
      (fun t i _ => lateWord t i (sDests i.x sd.val 4 (i.handler.table.splits.getD n.val .none).sig.toNat) false) s

/-- MAPFT on a page that is not mapped or is mapped already, and on a lazy page when its die's pool has a frame (R413): it puts the
frame into the leaf; where the leaf has changed meanwhile it keeps the frame as the pool's next, and answers 1 when the leaf is
now present, or begins again at the walk. -/
def Obligations.MapFaultCompletes : Prop :=
  ∀ (g : Guard) (sd sa : Fin 64) (u u' v : State) (a e f : Nat) (size : PageSize) (s : State),
    (let ws := mapSpec 0xC7 g (sRegs true sa.val) (sRegs false sd.val)
     let low (i : Issuer) : Prop := (i.x.getT sa.val).toNat < 2 ^ 52
     let walked (t : State) (i : Issuer) : State × Walk := walkBy t (some (coreDie i.x.core)) i.x.ctx (i.x.getT sa.val).toNat
     let poolOf (i : Issuer) : Nat := if classOf (leafFrame e) < 4 then classOf (leafFrame e) else coreDie i.x.core
     CompletesWhen (.mapft g sd sa) ws (fun t i _ => low i ∧ walked t i = (u, .invalid)) (fun _ i _ => statusWord u i sd.val 3) s ∧
     CompletesWhen (.mapft g sd sa) ws (fun t i _ => low i ∧ walked t i = (u, .leaf a e size) ∧ leafPst e = 0)
       (fun _ i _ => statusWord u i sd.val 1) s ∧
     CompletesWhen (.mapft g sd sa) ws
       (fun t i _ => low i ∧ walked t i = (u, .leaf a e size) ∧ leafPst e ≠ 0 ∧ size ≠ .p64K)
       (fun _ i _ => statusWord u i sd.val 3) s ∧
     CompletesWhen (.mapft g sd sa) ws
       (fun t i _ => low i ∧ walked t i = (u, .leaf a e .p64K) ∧ leafPst e ≠ 0 ∧ takeFrame u (poolOf i) = (u', none))
       (fun _ i _ => statusWord u' i sd.val 2) s ∧
     let takes (t : State) (i : Issuer) (swapped : Bool) : Prop :=
       low i ∧ walked t i = (u, .leaf a e .p64K) ∧ leafPst e ≠ 0 ∧ takeFrame u (poolOf i) = (u', some f) ∧
         swapEntry (zeroFrame (markDirty u' i.x.core i.x.ctx f) f) a e (presentLeaf e f) = (v, swapped)
     let now : Nat := leNat (v.mem.bytes a 8)
     let present : Prop := (bitOf now 0 && bitOf now 1 && leafPst now == 0) = true
     CompletesWhen (.mapft g sd sa) ws (fun t i _ => takes t i true)
       (fun _ i _ =>
         let va := (i.x.getT sa.val).toNat
         let t := if leafPst e = 1 then mappingFence (tlbDrop v i.x.asid va) i else v
         statusWord (retranslate t i.x.asid (changedUnits v i.x.ctx i.x.asid va 1)) i sd.val 0) s ∧
     CompletesWhen (.mapft g sd sa) ws (fun t i _ => takes t i false ∧ present)
       (fun _ i _ => statusWord (keepFrame v (poolOf i) f) i sd.val 1) s ∧
     CompletesWhen (.mapft g sd sa) ws (fun t i _ => takes t i false ∧ ¬present)
       (fun t i m => mapftLoop i sd.val (i.x.getT sa.val).toNat (fun nm q info => FaultInfo.perLane nm q info m fun _ => i.x.getT sa.val)
         (t.races.length + 1) (keepFrame v (poolOf i) f)) s)

/-- KILLW and MIGR (R394, R414, R415). -/
def Obligations.KillAndMigrateComplete : Prop :=
  ∀ (g : Guard) (sd sa : Fin 64) (w : Nat) (s : State),
    (let ws (opc : Nat) := sysSpec opc g (sRegs false sa.val) (sRegs false sd.val)
     let named (t : State) (i : Issuer) : Option Nat :=
       if (i.x.getS sa.val).toNat < 32 then warpNumbered t i.x.block (i.x.getS sa.val).toNat else none
     CompletesWhen (.killw g sd sa) (ws 0xC8) (fun t i _ => named t i = none) (fun t i _ => statusWord t i sd.val 1) s ∧
     CompletesWhen (.killw g sd sa) (ws 0xC8) (fun t i _ => named t i = some w ∧ w ≠ i.w)
       (fun t i _ => statusWord (killWarp t w 0 0 0 true) i sd.val 0) s ∧
     CompletesWhen (.killw g sd sa) (ws 0xC8) (fun t i _ => named t i = some i.w)
       (fun t i _ => .left (killWarp t i.w 0 0 0 true)) s ∧
     CompletesWhen (.migr g sd sa) (ws 0xC9) (fun t i _ => migrStatus t i.x.core (i.x.getS sa.val).toNat = 0)
       (fun t i _ => statusWord (askMigr t i (i.x.getS sa.val).toNat) i sd.val 0) s ∧
     CompletesWhen (.migr g sd sa) (ws 0xC9) (fun t i _ => migrStatus t i.x.core (i.x.getS sa.val).toNat ≠ 0)
       (fun t i _ => statusWord t i sd.val (migrStatus t i.x.core (i.x.getS sa.val).toNat)) s)

/-- SCRUB, KEYZ and PGDISC (R403, R416, R417, R420), SCRUB and KEYZ by the context that MGSLOT names. PGDISC of a range that
R408 gives no effect discards no leaf and answers 0 (the model's choice, DESIGN CHOICE, log 25). -/
def Obligations.ScrubWordsComplete : Prop :=
  ∀ (g : Guard) (sd sa sb : Fin 64) (r : State × List (Nat × Nat × Target)) (s : State),
    (let ws := sysSpec 0xCA g (sRegs true sa.val ++ sRegs false sb.val) (sRegs false sd.val)
     let mine (t : State) (i : Issuer) : Prop := t.scrubReg.mgslot = i.x.ctx
     let count (i : Issuer) : Nat := (i.x.getS sb.val).toNat
     let fits (i : Issuer) : Prop := 0 < count i ∧ count i ≤ 2 ^ 20
     let reads (t : State) (i : Issuer) (m : Lanes) : Prop := sysReaches t i m false (i.x.getT sa.val) 8 8 r
     CompletesWhen (.scrub g sd sa sb) ws (fun t i _ => mine t i ∧ t.scrubReg.sbusy = true)
       (fun t i _ => statusWord t i sd.val 1) s ∧
     CompletesWhen (.scrub g sd sa sb) ws (fun t i _ => mine t i ∧ t.scrubReg.sbusy = false ∧ ¬fits i)
       (fun t i _ => statusWord t i sd.val 2) s ∧
     CompletesWhen (.scrub g sd sa sb) ws
       (fun t i m => mine t i ∧ t.scrubReg.sbusy = false ∧ fits i ∧ reads t i m ∧
         pageLeft r.1 i (i.x.getT sa.val).toNat < 8 * count i)
       (fun _ i _ => statusWord r.1 i sd.val 2) s ∧
     CompletesWhen (.scrub g sd sa sb) ws
       (fun t i m => mine t i ∧ t.scrubReg.sbusy = false ∧ fits i ∧ reads t i m ∧
         8 * count i ≤ pageLeft r.1 i (i.x.getT sa.val).toNat)
       (fun _ i _ =>
         let pa := runStart r.2
         let u := scrubList (flushRun r.1 i.x.core pa (8 * count i)) pa (count i)
         statusWord { u.1 with scrubReg :=
           { u.1.scrubReg with slist := pa / 4096, scount := count i, sdone := 0, quar := true, sbusy := true, slot := i.x.ctx,
                               entries := u.2 } } i sd.val 0) s ∧
     CompletesWhen (.keyz g sa) (sysSpec 0xCB g (sRegs false sa.val) []) (fun t i _ => mine t i)
       (fun t i _ =>
         let k := (i.x.getS sa.val).toNat % 64
         if t.zeroised.contains k = true then .done t 0
         else
           let u := (t.l1.map (·.core)).eraseDups.foldl releaseL1 t
           .done { u with zeroised := u.zeroised ++ [k],
                          tlb := u.tlb.filter fun e => !(e.leaf.getLsbD 58 && bitsOf e.leaf.toNat 57 52 == k) } 0) s) ∧
    Completes (.pgdisc g sd sa sb) (mapSpec 0xCE g (sRegs true sa.val ++ sRegs false sb.val) (sRegs false sd.val))
      (fun t i _ =>
        let va := (i.x.getT sa.val).toNat
        let n := (i.x.getS sb.val).toNat
        if unitRange va n = true then
          let r := discardFrom (coreDie i.x.core) i.x.ctx (va + n * 65536) n t va 0
          statusWord (mappingDone (tlbDropRange r.1 i.x.asid va (n * 65536)) i
            (changedUnits r.1 i.x.ctx i.x.asid va (n * 65536))) i sd.val r.2
        else statusWord t i sd.val 0) s

/-- QSAVE and QLOAD (R418, R419): with the queue, the macros or the row buffers free of cards, where the image may be accessed.
QSAVE writes the image and answers its length; QLOAD answers 1 to a header that it refuses, and installs any other image. -/
def Obligations.QueueImagesComplete : Prop :=
  ∀ (g : Guard) (sd sa : Fin 64) (r r' : State × List (Nat × Nat × Target)) (h b : State × List Byte × List Nat)
    (s : State),
    (let saves (k : Instr) (free : State → Nat → Prop) (met : State → Block → State) (image : State → Nat → Bytes) : Prop :=
       CompletesWhen k (queueSpec 0xCC g sd sa)
         (fun t i m => free t i.x.block ∧
           sysReaches (met t (blockAt t i.x.block)) i m true (i.x.getT sa.val) (image t i.x.block).data.length 64 r)
         (fun t i _ => statusWord (sysWrite r.1 i r.2 (image t i.x.block)) i sd.val (image t i.x.block).data.length) s
     let macs (t : State) (n : Nat) : List Extent := [macroExtent (blockAt t n).macs]
     let row (x : Block) : Nat := flitRow (x.core * 16 + x.slot)
     saves (.qsaveRq g sd sa) (fun _ _ => True) (fun t x => noteRow t (row x))
       (fun t n => rqImage (blockAt t n) (rowBad t (row (blockAt t n)))) ∧
     saves (.qsaveMac g sd sa) (fun t n => cardsHold t n (macs t n) = false)
       (fun t x => noteMacros t x.core x.macFirst x.macs) (fun t n => macImage t (blockAt t n)) ∧
     saves (.qsaveRbq g sd sa) (fun t n => rowCards t n = false) (fun t _ => t) (fun t n => rbqImage (blockAt t n))) ∧
    (let header (head : Nat) (t : State) (i : Issuer) (m : Lanes) : Prop :=
       sysReaches t i m false (i.x.getT sa.val) head 64 r ∧ sysGets r i (i.x.getT sa.val) [] h
     let whole (n : Nat) (i : Issuer) (m : Lanes) : Prop :=
       sysReaches h.1 i m false (i.x.getT sa.val) n 64 r' ∧ sysGets r' i (i.x.getT sa.val) h.2.2 b
     let short (k : Instr) (head : Nat) (free : State → Nat → Prop) (total : Block → List Byte → Option Nat)
         (install : State → Nat → List Byte → State) : Prop :=
       CompletesWhen k (queueSpec 0xCD g sd sa)
         (fun t i m => free t i.x.block ∧ header head t i m ∧ total (blockAt t i.x.block) h.2.1 = none)
         (fun _ i _ => statusWord h.1 i sd.val 1) s ∧
       ∀ n, CompletesWhen k (queueSpec 0xCD g sd sa)
           (fun t i m => free t i.x.block ∧ header head t i m ∧ total (blockAt t i.x.block) h.2.1 = some n ∧ n ≤ head)
           (fun _ i _ => statusWord (install h.1 i.x.block h.2.1) i sd.val 0) s
     let long (k : Instr) (head : Nat) (total : Block → List Byte → Option Nat) (install : State → Nat → List Byte → State) : Prop :=
       ∀ n, CompletesWhen k (queueSpec 0xCD g sd sa)
           (fun t i m => header head t i m ∧ total (blockAt t i.x.block) h.2.1 = some n ∧ head < n ∧ whole n i m)
           (fun _ i _ => statusWord (install b.1 i.x.block b.2.1) i sd.val 0) s
     short (.qloadRq g sd sa) 8 (fun _ _ => True) (rqTotal s) loadRq ∧ long (.qloadRq g sd sa) 8 (rqTotal s) loadRq ∧
     short (.qloadMac g sd sa) 8 (fun t n => cardsHold t n [macroExtent (blockAt t n).macs] = false) macTotal loadMac ∧
     short (.qloadRbq g sd sa) 16 (fun _ _ => True) rbqTotal loadRbq ∧ long (.qloadRbq g sd sa) 16 rbqTotal loadRbq)

/-! ## Where device steps and outside events complete -/

/-- Fetch, the choice of a run, which begins unless the quarter has one under way or the fast throttle withholds it (log 107),
landing, and the traps between runs (R71, R93, R96, R98, R388, R398, R433, R439, R456). -/
def Obligations.IssueEventsComplete : Prop :=
  ∀ (w n k q : Nat) (e : Fin 4) (quarter : Fin 4) (b : Fetched) (p : Pending) (f : FaultInfo) (gates : Tbl Gate) (s t : State),
    let x := warpAt s w
    let p0 := x.splitAt e.val
    (wantsFetch x e.val = true → coreRuns s x.core = true → (p0.spilled = 0 ∨ p0.frames ≠ [] ∨ p0.word = true) →
      p0.blockAt.toNat % 8 = 0 →
      fetchBlock s x.core x.ctx x.asid x.handler.isNone x.allot p0.blockAt = (t, .ok b) → wordInBlock p0 b = true →
      exec (.blockFetch w e) s =
        .next (updSplit (prefetchHints t x.core x.ctx x.asid x.handler.isNone b) w e.val fun p => { p with blk := some b })) ∧
    (s.runs.find? (k * 4 + quarter.val) = none → nextRun s k quarter.val = (some w, gates) → chooseSplit s w = some n →
      ((warpAt s w).splitAt n).blk = some b → s.runs.find? (quarterKey (warpAt s w)) = none →
      ∃ u, exec (.quarterRunSelect k quarter) s = .next u ∧ u.focus = some (w, n) ∧
        u.runs = s.runs.put (quarterKey (warpAt s w)) (w, n) ∧ u.gates = gates ∧ u.mem = s.mem ∧ u.cards = s.cards) ∧
    (s.runs.find? (k * 4 + quarter.val) = none → nextRun s k quarter.val = (none, gates) →
      exec (.quarterRunSelect k quarter) s = .next { s with gates := gates }) ∧
    (gateOf s k = 0 → nextRun s k quarter.val = (chooseWarp s k quarter.val, s.gates.del (k * 4 + quarter.val))) ∧
    (let g := s.gates.getD { cycle := 0, idle := [] } (k * 4 + quarter.val)
     g.cycle < gateOf s k → floorDue g (contextsOf s (readyWarps s k quarter.val)) = none → (nextRun s k quarter.val).1 = none) ∧
    ((s.runs.find? (k * 4 + quarter.val)).isSome = true → exec (.quarterRunSelect k quarter) s = .next s) ∧
    (x.pend[n]? = some p → (∀ r, p.ldg = some r → groupHeld s x.launch r = false) → landsNext x n p = true →
      (landSends x p = true → windowFull s w p.mtgt = none) →
      let r : State × Pending := match p.ldg with
        | some r =>
          let a := if r.acq = true then acquireL1 s x.core else s
          ((groupNotes a w r).1, groupRead a w p r (groupNotes a w r).2)
        | none => (s, p)
      let u := landRows (updWarp r.1 w fun x => { x with pend := x.pend.eraseIdx n }.land r.2) w r.2
      exec (.pendingWriteLands w n) s = .next (if landSends x r.2 = true then
        sendFlit u w r.2.mtgt (pairWord ((warpAt u w).rawS 60) ((warpAt u w).rawS 61)) else u)) ∧
    (betweenRuns s w e.val = true → nextDeferred x e.val = some (q, p) → p.fault = some f →
      exec (.deferredFaultTaken w e) s =
        .next (trapSplit (updWarp s w fun x => { x with deferred := x.deferred.eraseIdx q }) w e.val f)) ∧
    (betweenRuns s w e.val = true → x.handler = none → dueDeferred x = [] → x.preemptDue = true →
      exec (.preemptTaken w e) s =
        .next (let u := endLeases s x.core
               trapSplit (updWarp u w fun x => { x with preemptDue := false }) w e.val (preemptFault u w e.val))) ∧
    (betweenRuns s w e.val = true → x.handler = none → dueDeferred x = [] → x.preemptDue = false → x.migrateDue = some k →
      exec (.migrateTaken w e) s =
        .next (trapSplit (updWarp s w fun x => { x with migrateDue := none }) w e.val (FaultInfo.uniform .migrate 0 k 0)))

/-- Cards, barrier waiters and flits (R284, R287, R289, R307, R349, R360). -/
def Obligations.CardEventsComplete : Prop :=
  ∀ (id k cause : Nat) (a : Word64) (c : Card) (b : Barrier) (ch : Chan) (e : NetEntry) (rest : List NetEntry) (s : State),
    (s.cards.find? id = some c → launchesNow s id c = true →
      exec (.cardLaunch id) s =
        .next (pump { s with cards := s.cards.put id { c with launched := true, failed := launchFault s c } })) ∧
    (s.cards.find? id = some c → runnable s c = true → (runCard s id c).fault = none →
      exec (.cardComplete id) s = .next (completeCard id c (runCard s id c))) ∧
    (s.cards.find? id = some c → c.cancelled = true → (s.launches.find? c.launch).isSome = true →
      (launchAt s c.launch).terminated = false →
      exec (.cardFault id) s = .next (failCard s id c 5 0 c.flags c.tails)) ∧
    (s.cards.find? id = some c → c.cancelled = false → malformed s c = true →
      exec (.cardFault id) s = .next (failCard s id c 0 0 0 [])) ∧
    (s.cards.find? id = some c → c.cancelled = false → malformed s c = false → runnable s c = true →
      (runCard s id c).fault = some (cause, a) →
      exec (.cardFault id) s =
        .next (failCard (runCard s id c).s id c cause a (runCard s id c).flags ((runCard s id c).tails ++ c.tails))) ∧
    (s.barriers.find? k = some b → ∃ t, exec (.barrierWake k) s = .next t ∧
      t.barriers.find? k = some { b with wake := b.wake.filter fun w => movingCore s (w / 64),
                                         done := b.done.filter fun w => movingCore s (w / 64) }) ∧
    (s.chans.find? k = some ch → ch.window = e :: rest → ch.wait = none → e.lost = false → e.flips = [] → e.seen = none →
      e.seq = ch.expect → receipt s ch.core ch.slot ch.launch = .accepted →
      exec (.messageArrive k) s =
        .next (popWindow (updBlock (takeTurn s k) (ch.core * 16 + ch.slot) fun x =>
          { x with rq := x.rq ++ [{ word := e.payload, near := e.near, bad := false }] }) k))

/-- Taking an entry, placing the first gang in order that can be placed, holding one, forming a callee warp, retiring a block, and,
after the host's earlier posted writes (R233), ending a queue's launches and the queue registers, whose refused writes set ERR 8,
count in NERR and do no more (R53 to R59, R67, R70, R444; that nothing is notified of them is the model's choice, log 34, and so is
ERR for an ENABLE refused under R451, log 40). -/
def Obligations.LaunchEventsComplete : Prop :=
  ∀ (q k t : Nat) (die : Fin 4) (v : BitVec 64) (v32 : BitVec 32) (entry : Nat) (text : LaunchText) (before after : List Nat)
    (s s1 s2 u : State),
    (let r := queueOf s q
     r.enable = true → r.head ≠ r.tail → allAdmitted s q = true →
       unitReadNat s r.asid (r.base.toNat + 8 * (r.head.toNat % 2 ^ r.log2n)) 8 = (s1, some entry) →
       (bitOf entry 0 = false ∨ lastEnded s r = true) → bitsOf entry 6 1 = 0 →
       readLaunch s1 q r.asid r.prio (entry / 128 * 128) (bitOf entry 0) = (s2, .ok text) → splitPends s text.l = false →
       launchError { s2 with launches := s2.launches.put s2.nextId text.l, nextId := s2.nextId + 1 } s2.nextId text = none →
       exec (.lqEntryTake q) s = .next (consumeEntry
         { s2 with launches := s2.launches.put s2.nextId text.l, nextId := s2.nextId + 1 } q (some s2.nextId))) ∧
    (let passed (js : List Nat) : State := js.foldl (fun t j => updLaunch t j fun l => { l with since := some (l.since.getD t.now) }) s
     let gang (t : State) (j : Nat) : List Nat := gangOf (launchAt t j) (launchAt t j).next
     let placed (t : State) (j : Nat) : Option State :=
       placeWithCallees { sets := true } t j (gang t j) fun d => !heldOff t j d
     (∀ a j c, before = a ++ j :: c → placed (passed a) j = none) →
       (considerOrder s = before ++ k :: after → placed (passed before) k = some u →
         exec .placementDecision s = .next (admitGang u k (gang (passed before) k))) ∧
       (considerOrder s = before → exec .placementDecision s = .next (passed before))) ∧
    (∀ l t0, s.launches.find? k = some l → l.since = some t0 → t0 + guardNs s ≤ t → s.now ≤ t →
      exec (.gangHeld k t) s = .next { s with now := t, launches := s.launches.put k { l with held := true } }) ∧
    (∀ c, slotOfAsid s (launchAt s k).asid = some c → (ctxOf s c).state = 0 ∨ (ctxOf s c).state = 3 →
      exec (.calleeWarpForm k die) s = .next (formCallee s k die.val)) ∧
    (mayRetire s k = true → calleeBase ≤ k →
      let x := blockAt s k
      exec (.blockRetire k) s = .next (finishLaunch (updLaunch (freeBlock (mergeLate (drainEgress (releaseL1 s x.core)) x) k) x.launch fun l =>
        { l with nret := l.nret + 1, nflt := if x.killed = true then Nat.min (l.nflt + 1) 65535 else l.nflt }) x.launch)) ∧
    (mayRetire s k = true → k < calleeBase →
      let x := blockAt s k
      let t := updLaunch (freeBlock (mergeLate (drainEgress (releaseL1 s x.core)) x) k) x.launch fun l =>
        { l with nret := l.nret + 1, nflt := if x.killed = true then Nat.min (l.nflt + 1) 65535 else l.nflt }
      exec (.blockRetire k) s =
        .next (finishLaunch (dropClusterBarriers t x.launch ((launchAt t x.launch).clusterOf x.linear)) x.launch)) ∧
    (let t := drainHost s
     let r := queueOf t (q % 256)
     let refused : State := setQueue t (q % 256) { r with err := 8, nerr := Nat.min (r.nerr + 1) (2 ^ 32 - 1) }
     let asid := bitsOf v.toNat 63 48
     let prio := bitsOf v.toNat 47 42
     let log2n := bitsOf v.toNat 41 38
     let fields : LQueue := { r with asid := asid, prio := prio, log2n := log2n, devlaunch := bitOf v.toNat 36 }
     let good : Prop := prio ≤ 47 ∧ 4 ≤ log2n ∧ t.house.bootst = 0
     let keeps : Prop := asid = r.asid ∧ log2n = r.log2n ∧ bitOf v.toNat 36 = r.devlaunch
     (r.enable = false → bitOf v.toNat 37 = false → exec (.lqConfigWrite q v) s = .next (setQueue t (q % 256) fields)) ∧
     (r.enable = false → bitOf v.toNat 37 = true → good →
       exec (.lqConfigWrite q v) s = .next (setQueue t (q % 256) { fields with enable := true, head := r.tail, nerr := 0 })) ∧
     (r.enable = true → keeps → (bitOf v.toNat 37 = true → good) →
       exec (.lqConfigWrite q v) s = .next (setQueue t (q % 256) { r with prio := prio, enable := bitOf v.toNat 37 })) ∧
     ((bitOf v.toNat 37 = true ∧ ¬good) ∨ (r.enable = true ∧ ¬keeps) → exec (.lqConfigWrite q v) s = .next refused) ∧
     (r.enable = false ∨ v / 4096 * 4096 = r.base →
       exec (.lqBaseWrite q v) s = .next (setQueue t (q % 256) { r with base := v / 4096 * 4096 })) ∧
     (r.enable = true → v / 4096 * 4096 ≠ r.base → exec (.lqBaseWrite q v) s = .next refused) ∧
     (r.devlaunch = false → (v32 - r.head).toNat ≤ 2 ^ r.log2n →
       exec (.lqTailWrite q v32) s = .next (setQueue t (q % 256) { r with tail := v32 })) ∧
     (r.devlaunch = true ∨ 2 ^ r.log2n < (v32 - r.head).toNat → exec (.lqTailWrite q v32) s = .next refused) ∧
     exec (.term q) s = .next (terminateQueue t (q % 256)))

/-- Walks, host faults, harvests, the end of a context and the store split; what the host writes follows its earlier posted
writes (R191, R200 to R207, R233, R447). A write of FRTAIL lets held records into the ring, in order, until none is left or the
ring is full again; one beyond the ring is discarded. -/
def Obligations.TranslationEventsComplete : Prop :=
  ∀ (core asid va slot : Nat) (write : Bool) (seq v32 : BitVec 32) (die : Fin 4) (v : BitVec 64) (s : State),
    let h := drainHost s
    (slotOfAsid s asid = some slot → va < 2 ^ 52 →
      exec (.pageWalk core asid va write) s =
        .next (xlateWalk s (core % 256) slot asid va (if write then .wr else .rd) false).1) ∧
    exec (.fresume slot seq) s = .next (resumeHostFault h (slot % 64) seq.toNat) ∧
    (let c := ctxOf h (slot % 64)
     let u := updCtx h (slot % 64) fun c => { c with frtail := v32 }
     (2 ^ ringLog c.frlog < (c.frhead - v32).toNat → exec (.frtailWrite slot v32) s = .next h) ∧
     ((c.frhead - v32).toNat ≤ 2 ^ ringLog c.frlog →
       (c.heldFaults = [] → exec (.frtailWrite slot v32) s = .next u) ∧
       (∀ f, c.heldFaults = [f] → (c.frhead - v32).toNat < 2 ^ ringLog c.frlog →
         exec (.frtailWrite slot v32) s =
           .next (writeHostFault (updCtx u (slot % 64) fun c => { c with heldFaults := [] }) (slot % 64) f)) ∧
       ∃ t, exec (.frtailWrite slot v32) s = .next t ∧ t = releaseHeld u (slot % 64) c.heldFaults.length ∧
         ((ctxOf t (slot % 64)).heldFaults = [] ∨ hostRingFull (ctxOf t (slot % 64)) = true))) ∧
    exec (.depoch slot) s = .next (updCtx h (slot % 64) fun c => { c with depoch := true }) ∧
    ((ctxOf s (slot % 64)).depoch = true →
      exec (.harvestEpochComplete slot) s =
        .next (updCtx ((dirtyCores s).foldl releaseL1 s) (slot % 64) fun c => { c with depoch := false, known := [] })) ∧
    ((ctxOf h (slot % 64)).valid = true → contextBusy h (slot % 64) = false →
      ∃ t, exec (.contextEnd slot) s = .next t ∧ (ctxOf t (slot % 64)).valid = false ∧
        (ctxOf t (slot % 64)).emeter = (ctxOf h (slot % 64)).emeter) ∧
    ((splitOf h die.val).apply = false → splitRefused (splitRequest (splitOf h die.val) (v ||| 1).toNat) = false →
      let p := { splitRequest (splitOf h die.val) (v ||| 1).toNat with apply := true }
      exec (.apply die v) s = .next { h with splits := h.splits.putD .reset die.val p }) ∧
    ((splitOf h die.val).apply = true →
      exec (.applyWithdraw die) s = .next { h with splits := h.splits.putD .reset die.val { splitOf h die.val with apply := false } }) ∧
    ((splitOf s die.val).apply = true → quiescent s die.val = true →
      ∃ t, exec (.splitApplied die) s = .next t ∧ splitOf t die.val = (splitOf s die.val).install)

/-- What happens at the home slices: line requests, with a current tag, a stale one or none, fills, window ends with and without a
report, atomics, key-value operations, banks and leases (R195, R208, R209, R215 to R218, R251, R355 to R357, R435). The layout and
the tail policy of an atomic are the model's reading (DEDUCED, logs 19 and 89), and so is that a leased line stands at its home
(DEDUCED, log 91). -/
def Obligations.HomeEventsComplete : Prop :=
  ∀ (pa line rank core asid slot k : Nat) (write : Bool) (nl : Fin 8) (die : Fin 4) (op : AtomOp) (sz : MSize) (x : BitVec 64)
    (kop : KvOp) (l : Lease) (t : HomeTag) (c : Contract) (d : Nat × Nat) (u : State) (s : State),
    (storedAt s pa = true →
      let served (who : Option Nat) : State := if write = true then maskedSector s who (pa / 64) (List.replicate 64 none) nl.val 2
        else (readSector s who (pa / 64 * 64) 64 nl.val 2).1
      exec (.homeAccess pa { write := write, tag := none } nl) s = .next (served none) ∧
        (slotOfAsid s t.asid = some slot → (ctxOf s slot).gen.toNat = t.gen → coreRuns s (t.core % 256) = true →
          exec (.homeAccess pa { write := write, tag := some t } nl) s = .next (served (some (t.core % 256))))) ∧
    (slotOfAsid s t.asid = some slot → (ctxOf s slot).gen.toNat ≠ t.gen → coreRuns s (t.core % 256) = true →
      exec (.homeAccess pa { write := write, tag := some t } nl) s = .next (resendLine s t write)) ∧
    (slotOfAsid s t.asid = none ∨ coreRuns s (t.core % 256) = false →
      exec (.homeAccess pa { write := write, tag := some t } nl) s = .next s) ∧
    (storedAt s (line * 128) = true → heldAt s line = false →
      exec (.hbmFill line) s = .next (touchLine s (line * 128) 0).1) ∧
    ((s.contracts.find? fun c => c.rank == rank) = some c → (c.due.find? fun w => w.1 == die.val) = some d →
      let taken : State := { s with contracts := s.contracts.map fun k =>
        if k.rank = rank then { k with due := k.due.erase d } else k }
      (windowReport c.cls windowSize d.2 = none → exec (.missRatioWindowEnd rank die) s = .next taken) ∧
      (∀ kind, windowReport c.cls windowSize d.2 = some kind → slotOfAsid s c.asid = some slot →
        let x := ctxOf s slot
        let size := 2 ^ ringLog x.crlog
        ((x.crhead - x.crtail).toNat = size →
          exec (.missRatioWindowEnd rank die) s =
            .next (updCtx taken slot fun x => { x with crlost := Nat.min (x.crlost + 1) (2 ^ 32 - 1) })) ∧
        ((x.crhead - x.crtail).toNat ≠ size →
          exec (.missRatioWindowEnd rank die) s =
            .next (updCtx (drainEgress (deviceWrite taken (x.crbase * 4096 + 32 * (x.crhead.toNat % size))
              (reportBytes c die.val kind d.2 s.now))) slot fun x => { x with crhead := x.crhead + 1 })))) ∧
    (storedAt s pa = true → pa % sz.bytes = 0 → op.sizes.contains sz = true → coreRuns s (core % 256) = true →
      let e := s.sectors.getD .clean (pa / 64)
      let own := if e.nl = 8 then 0 else e.nl
      let r := readSector (chargeHome (reachHome s (some (core % 256)) pa) (core % 256) pa) (some (core % 256)) pa sz.bytes own 2
      r.2.isPoison = false →
        exec (.homeAtomic core pa op sz x) s =
          .next (uncounted r.1
            (writeSector r.1 (some (core % 256)) pa (leBytes sz.bytes (atomValue op sz (leNat r.2.data) x.toNat)) own 2))) ∧
    exec (.kvOpAtHome asid die kop) s = .next (match kop with
      | .find key => if keyDie key = die.val then (kvFind s asid key).1 else s
      | .put key pin => if keyDie key = die.val then (kvPut s asid key pin).1 else s
      | .drop key => if keyDie key = die.val then (kvDrop s asid key).1 else s
      | .dropTensor t => (kvDropTensor s asid die.val t).1) ∧
    ((bankOf s k).failed = false → 16 ≤ bankErrors s k →
      exec (.bankFailed k) s = .next (notifyHost
        { setBank s k { bankOf s k with failed := true } with bfail := Nat.min (s.bfail + 1) (2 ^ 32 - 1) })) ∧
    ((bankOf s k).failed = true → (bankOf s k).spared = false → spareUsed s (k / 9) = false →
      exec (.spareSubstitute k) s = .next
        { setBank s k { errors := [], failed := false, spared := true } with
            bspare := Nat.min (s.bspare + 1) (2 ^ 32 - 1),
            rowErrors := s.rowErrors.filterMap fun (r, fs) =>
              let fs := if arrayOfRow r = k / 9 then rebuiltFlips s r (k % 9) else fs
              if fs.isEmpty = true then none else some (r, fs) }) ∧
    (leaseOn s line = none → agentRuns s (core % 384) = true → storedAt s (line * 128) = true →
      holderRoom s (core % 384) line = (u, true) →
      exec (.leaseGrant core line) s = .next (grantLease (reachHome u (some (core % 384)) (line * 128)) (core % 384) line)) ∧
    (leaseOn s line = some l → l.core = core →
      exec (.leaseEnd core line) s = .next (endLease (flushLine s core line) line .expired)) ∧
    (leaseOn s line = some l → l.core ≠ core → agentRuns s core = true →
      exec (.leaseRecall core line) s = .next (endLease (flushLine s l.core line) line .recalled)) ∧
    (leaseOn s line = some l → exec (.leaseExpiry line) s = .next (loseLease s l))

/-- The network, its injectors in each of their modes, the host link, reads of memory and of registers, and the domain: reads,
writes, atomics, compare-and-swaps and leases of peers (R223 to R239, R355, R455). The reply to a peer crosses its domain link. -/
def Obligations.NetworkEventsComplete : Prop :=
  ∀ (k i off size n pkg asid local_ pa : Nat) (c : Chan) (e : NetEntry) (rest : List NetEntry) (cycle : List Nat) (v : BitVec 64)
    (v128 : BitVec 128) (data : List Byte) (op : PeerOp) (aop : AtomOp) (sz : MSize) (x y : BitVec 64) (p : Passed) (down : Bool)
    (s : State),
    (s.chans.find? k = some c → c.window = e :: rest → c.wait = none → e.lost = false →
      let t := takeTurn s k
      let sound : Prop := e.shownSeq = c.expect ∧ e.identOk t c.launch = true
      (sound → exec (.netEntryReceive k true true 0) s = .next (deliverFlit t k c.core c.slot e.received c.launch)) ∧
      (¬sound → exec (.netEntryReceive k true true 0) s = .next (nackHead t k)) ∧
      exec (.netEntryReceive k false true 0) s = .next (nackHead t k) ∧
      (sound → e.identOk (logIdent t (c.target t) .fixed) c.launch = true →
        exec (.netEntryReceive k true true 1) s =
          .next (deliverFlit (logIdent t (c.target t) .fixed) k c.core c.slot e.received c.launch)) ∧
      exec (.netEntryReceive k true true 2) s = .next (loseHead (logIdent t (c.target t) .dropped) k) ∧
      (c.links.getLast? = some i → exec (.netEntryReceive k true false 0) s = .next (crcReplay t i 0))) ∧
    (s.chans.find? k = some c → c.wait.isSome = true →
      exec (.netResend k) s = .next (resendWindow (takeTurn s k) k { c with turn := s.seq }) ∧
      (c.links = [] ∨ s.injectors = [] →
        let w := c.window.map fun (e : NetEntry) => { e with flips := [], lost := false, seen := none }
        exec (.netResend k) s = .next { takeTurn s k with
          chans := (takeTurn s k).chans.put k { c with turn := s.seq, wait := none, window := w } })) ∧
    (s.chans.find? k = some c → c.window ≠ [] → c.wait = none →
      exec (.netAckTimeout k) s = .next (refuseHead (takeTurn s k) k)) ∧
    (s.chans.find? k = some c → c.stuck = true →
      exec (.deadlockProbe k) s = .next { s with chans := s.chans.put k { c with probing := true } }) ∧
    (s.chans.find? k = some c → c.probing = true →
      exec (.probeReturn k cycle) s =
        .next (stepCycle { s with chans := s.chans.put k { c with probing := false } } (k :: cycle).eraseDups)) ∧
    (s.chans.find? k = some c →
      exec (.probeLost k) s = .next { s with chans := s.chans.put k { c with probing := false } }) ∧
    exec (.netControlWrite off v) s = .next (writeNetReg (drainHost s) off v.toNat) ∧
    exec (.hostPostedWrite off data true) s =
      .next (performHostWrite s { pa := barTwo s off, data := data, relaxed := true }) ∧
    exec (.hostPostedWrite off data false) s =
      .next { s with hostWrites := s.hostWrites ++ [{ pa := barTwo s off, data := data, relaxed := false }] } ∧
    (off < barZero → exec (.hostRead off n) s =
      .next { (hostReadMem (drainHost s) off n).1 with
        replies := (hostReadMem (drainHost s) off n).1.replies ++ [{ off := off, data := (hostReadMem (drainHost s) off n).2 }] }) ∧
    (barZero ≤ off → exec (.hostRead off n) s =
      .next { drainHost s with
        replies := (drainHost s).replies ++ [{ off := off, data := leBytes n (devRead (drainHost s) (off - barZero) n) }] }) ∧
    exec (.deviceRegisterAccess off size v128) s = .next (devWrite (drainHost s) true off size v128.toNat) ∧
    (∀ w ws, s.egress = w :: ws → exec .hostEgress s = .next { s with mem := s.mem.setBytes w.pa w.data, egress := ws }) ∧
    (let answered (r : State × List Byte) (who : Option Nat) : State :=
       let b := replyOver r.1 pkg r.2
       { b.1 with peerReplies := b.1.peerReplies ++ [{ pkg := pkg, asid := who, data := b.2 }] }
     let a := 256 + pkg
     let q := peerLocal pa
     let d := readSector s (some a) q sz.bytes (ownNl s q) 2
     let fits : Prop := storedAt s q = true ∧ q % sz.bytes = 0 ∧ d.2.isPoison = false
     (admittedAs s pkg asid = none → exec (.peerRequest pkg asid pa op) s = .next (answered (s, []) none)) ∧
     (admittedAs s pkg asid = some local_ →
       exec (.peerRequest pkg asid pa (.read n)) s = .next (answered (peerRead s a q n) (some local_)) ∧
       exec (.peerRequest pkg asid pa (.write data)) s = .next (answered (peerWrite s a q data, []) (some local_)) ∧
       (fits → aop.sizes.contains sz = true →
         exec (.peerRequest pkg asid pa (.atomic aop sz x)) s =
           .next (answered (uncounted d.1 (writeSector d.1 (some a) q
             (leBytes sz.bytes (atomValue aop sz (leNat d.2.data) x.toNat)) (ownNl d.1 q) 2), d.2.data) (some local_))) ∧
       (fits → sz = .b32 ∨ sz = .b64 → leNat d.2.data = x.toNat % 2 ^ (8 * sz.bytes) →
         exec (.peerRequest pkg asid pa (.cas sz x y)) s =
           .next (answered (uncounted d.1 (writeSector d.1 (some a) q (leBytes sz.bytes y.toNat) (ownNl d.1 q) 2), d.2.data)
             (some local_))) ∧
       (fits → sz = .b32 ∨ sz = .b64 → leNat d.2.data ≠ x.toNat % 2 ^ (8 * sz.bytes) →
         exec (.peerRequest pkg asid pa (.cas sz x y)) s = .next (answered (d.1, d.2.data) (some local_))) ∧
       (leaseOn s (q / 128) = none → storedAt s q = true →
         exec (.peerRequest pkg asid pa .lease) s =
           .next (answered (let u := reachHome s (some a) q
                            (grantLease u a (q / 128), u.mem.bytes (q / 128 * 128) 128)) (some local_)))) ∧
     (s.injectors = [] → replyOver s pkg data = (s, data))) ∧
    (i < 24 → exec (.injectorArm i) s = .next (let h := drainHost s
      setInjector h i { injectorOf h i with arm := true, count := 0, fired := false, counting := true })) ∧
    (s.chans.find? k = some c → (injectorOf s i).arm = true → (injectorOf s i).count + 1 = (injectorOf s i).nth →
      c.wait.isSome = true → c.links.contains i = true →
      exec (.injectorFire i k) s = .next (resendWindow (takeTurn s k) k { c with turn := s.seq })) ∧
    (p.lost = false → (injectorOf s i).arm = true → (injectorOf s i).count < (injectorOf s i).nth →
      (injectorOf s i).nth ≤ (injectorOf s i).count + n →
      let j := injectorOf s i
      let behind := j.count + n - j.nth
      let t := setInjector s i { j with arm := false, fired := true, count := (j.count + n) % 2 ^ 32 }
      (j.mode = 1 → crossLink n (s, p) i =
        (replayOn (updLog t (256 + i) fun l => { l with nacks := satAdd32 l.nacks behind }) i (behind + 1), p)) ∧
      (j.mode = 2 → crossLink n (s, p) i = (t, p)) ∧
      (j.mode ≠ 1 → j.mode ≠ 2 → j.precrc = false → crossLink n (s, p) i = (crcReplay t i behind, p)) ∧
      (j.mode ≠ 1 → j.mode ≠ 2 → j.precrc = true → crossLink n (s, p) i = passFlips t i p (laneFlips i j))) ∧
    exec (.peerUnreachable pkg false) s = .next { s with peersDown := s.peersDown.filter (· != pkg) } ∧
    (s.peersDown.contains pkg = false → down = true →
      exec (.peerUnreachable pkg down) s = .next { s with peersDown := s.peersDown ++ [pkg] })

/-- Pre-emption, resumption, import, the scrub, entry by entry, and the summary (R398 to R403, R452, R453), which a part in recovery
does not write (log 110). -/
def Obligations.ContextEventsComplete : Prop :=
  ∀ (slot : Nat) (r : Saved) (s : State),
    let h := drainHost s
    ((ctxOf h (slot % 64)).state = 0 →
      exec (.pre slot) s = .next
        (let u := updCtx h (slot % 64) fun c => { c with state := 1, pre := true }
         let t := (coresOf u (slot % 64)).foldl endLeases u
         { t with warps := t.warps.mapVals fun _ w => if w.ctx = slot % 64 then { w with preemptDue := true } else w })) ∧
    ((ctxOf s (slot % 64)).state = 1 →
      exec (.preemptComplete slot) s = .next (settlePreempt ((savedBlocks s (slot % 64)).foldl
        (fun t b => if (t.blocks.find? b).isSome then releaseGang t b else t) s) (slot % 64))) ∧
    ((ctxOf h (slot % 64)).state = 2 →
      exec (.res slot) s = .next (settleResume (updCtx h (slot % 64) fun c => { c with state := 3, res := true }) (slot % 64))) ∧
    (readmittable s (slot % 64) = some r →
      exec (.savedBlockReadmit slot) s = .next (settleResume (readmit s r) (slot % 64))) ∧
    (importIdle h (slot % 64) = false →
      exec (.impgo slot) s = .next (updCtx h (slot % 64) fun c => { c with impgo := false, imperr := 1 })) ∧
    exec (.impgo slot) s = .next (importAll h (slot % 64)) ∧
    (s.scrubReg.sbusy = true → s.scrubReg.sdone + 1 < s.scrubReg.scount → ∃ t, exec .scrubComplete s = .next t ∧
      t.scrubReg = { s.scrubReg with sdone := s.scrubReg.sdone + 1 } ∧
      ∀ e a, s.scrubReg.entries[s.scrubReg.sdone]? = some e → bitsOf e.toNat 1 0 = 0 →
        leafFrame e.toNat ≤ a → a < leafFrame e.toNat + 65536 → t.mem.byte a = 0) ∧
    (s.scrubReg.sbusy = true → s.scrubReg.scount ≤ s.scrubReg.sdone + 1 → ∃ t, exec .scrubComplete s = .next t ∧
      t.scrubReg = { s.scrubReg with sdone := s.scrubReg.scount, quar := false, sbusy := false, entries := [] }) ∧
    (s.recovery = false → ∃ t, exec .rsgo s = .next t ∧ t.house.rsgo = false ∧ t.house.rsused.toNat ≤ h.house.rssize.toNat) ∧
    (s.recovery = true → exec .rsgo s = .next s)

/-- EPOCH_CLEARING, OPERATING_POINT_CHANGE, NEAR_THRESHOLD_WINDOW, CAP_COMMAND and FAST_THROTTLE_SAMPLE complete in every state
(R426 to R433), but for a clearing and a cap command of a part in recovery, which do nothing (log 110): the epoch's energies are
charged and every island is set the lowest of its granted point and its ceilings; a point set is reached; near-threshold mode is
entered and left at its conditions; caps are taken within their range; a gate follows its samples of what its island was granted
(before the first clearing nothing, log 107). -/
def Obligations.PowerEventsComplete : Prop :=
  ∀ (m : EpochMeasure) (i stalled cycles pcap acap : Nat) (seq : BitVec 32) (q : Fin 16) (sample : PowerSample) (s : State),
    (let c := chargeEnergy s m
     s.recovery = false → ∃ t, exec (.epochClearing m) s = .next t ∧ t.power.epoch = s.power.epoch + 1 ∧
       t.power.efree = (attributeEnergy s m).power.efree ∧
       (∀ k, (ctxOf t k).emeter = (ctxOf (attributeEnergy s m) k).emeter) ∧
       t.power.history = (m.total :: s.power.history).take 100000 ∧ t.power.plast = m.total / 10 % 65536 ∧
       ∀ j, j < 64 → (islandOf t j).point = (islandOf s j).point ∧
         (islandOf t j).target = ceilingOf s j (pointAfter s j
           (if (islandActive s j && !(islandOf s j).nt) = true then (grantSteps c m s.power.epoch.toNat).getD (j / 4) 0 else 0))) ∧
    (s.recovery = true → exec (.epochClearing m) s = .next s) ∧
    (∀ k n, k < 64 → 0 < n → (ctxOf (chargeShares s i [(k, n)]) k).emeter = (ctxOf s k).emeter + BitVec.ofNat 64 i) ∧
    (∃ t, exec (.operatingPointChange i) s = .next t ∧
      islandOf t (i % 64) = { islandOf s (i % 64) with point := (islandOf s (i % 64)).target } ∧
      ∀ j, j ≠ i % 64 → islandOf t j = islandOf s j) ∧
    (let x := islandOf s (i % 64)
     let low := (s.islandUse.getD (0, 0) (i % 64)).1 < 2 * (s.islandUse.getD (0, 0) (i % 64)).2
     ∃ t, exec (.nearThresholdWindow i stalled cycles) s = .next t ∧ t.islandUse = s.islandUse.del (i % 64) ∧
       ((islandOf t (i % 64)).nt = true ↔
         if x.nt = true then ¬(100 * stalled ≤ 60 * cycles ∧ ¬low)
           else islandActive s (i % 64) = true ∧ (75 * cycles < 100 * stalled ∨ low)) ∧
       (x.nt = false → (islandOf t (i % 64)).nt = true → (islandOf t (i % 64)).target ≤ 1)) ∧
    (s.recovery = false → 300 ≤ pcap → pcap ≤ 2900 → 300 ≤ acap → acap ≤ pcap →
      ∃ t, exec (.capCommand pcap acap seq) s = .next t ∧
        t.power = { s.power with pcap := pcap, acap := acap, capseq := seq }) ∧
    (¬(s.recovery = false ∧ 300 ≤ pcap ∧ pcap ≤ 2900 ∧ 300 ≤ acap ∧ acap ≤ pcap) →
      exec (.capCommand pcap acap seq) s = .next s) ∧
    (∃ t, exec (.fastThrottleSample q sample) s = .next t ∧
      ∀ j, (islandOf t j).gate =
        if j / 4 = q.val then (if overGrant s sample j = true then Nat.min ((islandOf s j).gate + 8) 63 else (islandOf s j).gate - 8)
        else (islandOf s j).gate)

/-- THERMAL_READING, THERMAL_MIGRATION_START, THERMAL_MIGRATION_COMPLETE, MEASURED_BOOT, ATTESTATION_REQUEST, LIFETIME_FOLD and
POWER_LOSS complete (R434, R439, R440, R449 to R451, R454, R403): a reading is held; a core's warps stop as its move begins
and the move ends at rest; a boot measures the firmware and says whether it was accepted; a report is signed; a fold takes the
older bank; what is not flash or another package's is lost with the power. A part in recovery signs no report and folds nothing
(log 110). -/
def Obligations.DeviceEventsComplete : Prop :=
  ∀ (core n : Nat) (temp : BitVec 10) (a : MoveAsk) (mv : Move) (fw cfg nonce : List Byte) (later : List (Nat × BitVec 256))
    (s : State),
    (∃ t, exec (.thermalReading core temp n) s = .next t ∧ t.now = Nat.max s.now n ∧
      (∀ p, t.temps.getD 0 p = if p = core % 256 then temp else s.temps.getD 0 p) ∧
      t.warns.getD .reset (core % 256) = (s.warns.getD .reset (core % 256)).read (decide (380 ≤ temp.toNat))
        (decide (temp.toNat ≤ 368)) (Nat.max s.now n)) ∧
    (dueAsk s (coreDie core) = some a → a.core = core → (s.blocks.any fun b => b.2.core == core) = true →
      ∃ t, exec (.thermalMigrationStart core) s = .next t ∧ t.moveAsks = s.moveAsks.erase a ∧ movingCore t core = true ∧
        ∀ w x, t.warps.find? w = some x → x.core = core → x.stopped = true) ∧
    (s.moves.find? (·.logical == core) = some mv → coreAtRest s core = true →
      exec (.thermalMigrationComplete core) s = .next (endMove s mv)) ∧
    (let accepted := Config.signatureOk cfg = true ∧ s.house.recVersion ≤ Config.recordVersion cfg
     ∃ t, exec (.measuredBoot fw cfg later) s = .next t ∧
       t.house.mreg.getD 0 0 = BitVec.ofNat 256 (leNat (sha256 (leBytes 32 0 ++ sha256 fw))) ∧
       (Config.signatureOk fw = false → t.house.bootst = 2 ∧ t.house.part = s.house.part) ∧
       (Config.signatureOk fw = true → ¬accepted → t.house.bootst = 1 ∧ t.house.part = s.house.part) ∧
       (Config.signatureOk fw = true → accepted → t.house.bootst = 0 ∧ t.house.part = Config.recordPart cfg % 65536 ∧
         t.house.hbm = partHbm t.house.part ∧ t.house.recVersion = Config.recordVersion cfg)) ∧
    (s.recovery = true → exec (.attestationRequest nonce) s = .next s ∧ exec .lifetimeFold s = .next s) ∧
    (s.recovery = false → ∃ sig, sig.length = 384 ∧
      exec (.attestationRequest nonce) s = .next { s with replies := s.replies ++ [{ off := 0, data := attestBody s nonce ++ sig }] }) ∧
    (s.recovery = false → s.house.banks.length = 2 →
      ∃ t, exec .lifetimeFold s = .next t ∧ t.house.lseq = s.house.lseq + 1 ∧ t.house.foldAt = s.now ∧
        t.house.banks[s.house.lseq.toNat % 2]? = some (foldCounts s) ∧
        t.house.banks[(s.house.lseq.toNat + 1) % 2]? = s.house.banks[(s.house.lseq.toNat + 1) % 2]?) ∧
    (∃ t, exec .powerLoss s = .next t ∧ t.warps = [] ∧ t.blocks = [] ∧ t.launches = [] ∧ t.scrubReg = State.reset.scrubReg ∧
      t.house.part = s.house.part ∧ t.house.banks = s.house.banks ∧ t.life = lastBank s.house ∧
      ∀ p, t.mem.byte p = if outside p = true then s.mem.byte p else 0)

/-! ## Arithmetic, by the rules' own words -/

/-- R154: addition, subtraction, minimum, maximum, absolute value and negation go element by element; an exact result is wrapped
modulo 2^w without .sat and clamped to the type's range with it; comparisons are signed for i types and unsigned for n types; no
flag is raised. -/
def Obligations.ElementwiseArithmetic : Prop :=
  ∀ (g : Guard) (ty : Ty) (sat : Bool) (d : Dst) (a b : Src) (s : State), ty ∈ [.i32, .n32, .i64, .n64, .i16x2, .n16x2, .i8x4, .n8x4] →
    let w := elemWidth ty
    let signed : Bool := ty ∈ [.i32, .i64, .i16x2, .i8x4]
    let part (x k : Nat) : Nat := x / 2 ^ (w * k) % 2 ^ w
    let val (x : Nat) : Int := if signed ∧ 2 ^ (w - 1) ≤ x then (x : Int) - 2 ^ w else x
    let lo : Int := if signed then -2 ^ (w - 1) else 0
    let hi : Int := if signed then 2 ^ (w - 1) - 1 else 2 ^ w - 1
    let fit (e : Bool) (v : Int) : Nat := if e then ((max lo (min hi v)) % 2 ^ w).toNat else (v % 2 ^ w).toNat
    let all (f : Nat → Nat) : Nat := ((List.range (if w = 8 then 4 else if w = 16 then 2 else 1)).map fun k => f k * 2 ^ (w * k)).sum
    Gives2 (.add g ty sat d a b) 0x10 g ty ty ty d a b (fun x y => (all fun k => fit sat (val (part x k) + val (part y k)), 0)) s ∧
    Gives2 (.sub g ty sat d a b) 0x11 g ty ty ty d a b (fun x y => (all fun k => fit sat (val (part x k) - val (part y k)), 0)) s ∧
    Gives2 (.min g ty d a b) 0x18 g ty ty ty d a b
      (fun x y => (all fun k => fit false (min (val (part x k)) (val (part y k))), 0)) s ∧
    Gives2 (.max g ty d a b) 0x19 g ty ty ty d a b
      (fun x y => (all fun k => fit false (max (val (part x k)) (val (part y k))), 0)) s ∧
    Gives1 (.abs g ty sat d a) 0x1A g ty ty d a (fun x => (all fun k => fit sat |val (part x k)|, 0)) s ∧
    Gives1 (.neg g ty sat d a) 0x1B g ty ty d a (fun x => (all fun k => fit sat (-val (part x k)), 0)) s

/-- R158: SHL, SHR, SAR and ROT by n, bit by bit, for every count; w is 32 for TY 0 to 2 and 64 for TY 3 and 4. -/
def Obligations.ShiftsByAnyCount : Prop :=
  ∀ (g : Guard) (ty : Ty) (right : Bool) (d : Dst) (a b : Src) (s : State), ty ∈ [.b32, .i32, .n32, .i64, .n64] →
    let w := if ty.is64 then 64 else 32
    ∃ shl shr sar rot : Nat → Nat → Nat,
      Gives2 (.shl g ty d a b) 0x20 g ty .n32 ty d a b (fun x n => (shl x n, 0)) s ∧
      Gives2 (.shr g ty d a b) 0x21 g ty .n32 ty d a b (fun x n => (shr x n, 0)) s ∧
      Gives2 (.sar g ty d a b) 0x22 g ty .n32 ty d a b (fun x n => (sar x n, 0)) s ∧
      Gives2 (.rot g ty right d a b) 0x23 g ty .n32 ty d a b (fun x n => (rot x n, 0)) s ∧
      ∀ x n, shl x n = (if w ≤ n then 0 else x * 2 ^ n % 2 ^ w) ∧ shr x n < 2 ^ w ∧ sar x n < 2 ^ w ∧ rot x n < 2 ^ w ∧
        ∀ k, k < w → (shr x n).testBit k = (decide (k + n < w) && x.testBit (k + n)) ∧
          (sar x n).testBit k = x.testBit (if k + n < w then k + n else w - 1) ∧
          (rot x n).testBit (if right then k else (k + n) % w) = x.testBit (if right then (k + n) % w else k)

/-- R162: division rounds toward zero and the remainder has the sign of a; a divisor of zero gives all ones and a, with DZ, and
the most negative value by −1 gives a and 0, with OF. -/
def Obligations.DivisionAndItsBorders : Prop :=
  ∀ (g : Guard) (ty : Ty) (d : Dst) (a b : Src) (s : State), ty ∈ [.i32, .n32, .i64, .n64] →
    let w := if ty.is64 then 64 else 32
    let signed : Bool := ty ∈ [.i32, .i64]
    let val (x : Nat) : Int := if signed ∧ 2 ^ (w - 1) ≤ x % 2 ^ w then (x % 2 ^ w : Nat) - 2 ^ w else (x % 2 ^ w : Nat)
    let case (x y : Nat) (dz of ok : Nat × Nat) : Nat × Nat :=
      if y % 2 ^ w = 0 then dz
      else if signed ∧ x % 2 ^ w = 2 ^ (w - 1) ∧ y % 2 ^ w = 2 ^ w - 1 then of
      else ok
    let quot (x y : Nat) : Int := (if (val x < 0) = (val y < 0) then 1 else -1) * ((val x).natAbs / (val y).natAbs : Nat)
    Gives2 (.idiv g ty d a b) 0x2C g ty ty ty d a b
      (fun x y => case x y (2 ^ w - 1, 2) (x % 2 ^ w, 4) (((quot x y) % 2 ^ w).toNat, 0)) s ∧
    Gives2 (.irem g ty d a b) 0x2D g ty ty ty d a b
      (fun x y => case x y (x % 2 ^ w, 2) (0, 4) (((val x - val y * quot x y) % 2 ^ w).toNat, 0)) s

/-- R78 and R84: P7 reads as true in every lane and takes no write; an unguarded word takes every active lane; a word guarded by
the negation of P7 is refused by decode. -/
def Obligations.PredicateSevenIsTrue : Prop :=
  ∀ (x : Warp) (e : Nat) (g v : Lanes) (w : Word64) (lit : Option Word64),
    x.pred 7 = allLanes ∧ x.putP 7 g v = x ∧ x.taking e { p := 7, neg := false } = x.active e ∧
      (w.extractLsb' 52 4 = 15 → decodeWord w lit = none)

/-! ## Decoding and the step -/

/-- Words that the spec prints with their meanings decode to them: one or more of every format and of most families. -/
def Obligations.PrintedWordsDecode : Prop :=
  let u : Guard := { p := 7, neg := false }
  let is (w : Word64) (k : Instr) : Prop := decode (wordBytes w) = .ok k []
  decode (wordBytes 0x10E1010200003000 ++ wordBytes 0x3E8) = .ok (.add u .i32 false (.v 1) (.v 2) (.lit 0x3E8)) [] ∧
  is 0x10E1010264002000 (.add u .i32 false (.v 1) (.v 2) (.imm 100)) ∧
  is 0x38E5040405000000 (.fadd u .f32 { rnd := .rne, ftz := false } (.v 4) (.v 4) (.v 5)) ∧
  is 0x02E0000000000000 (.exit u) ∧
  is 0x30E2001300006204 (.iset u .n32 .gt .none (.p 0) (.s 19) (.imm 0) 0) ∧
  is 0x58E43C1400004100 (.mov u .n64 (.s 60) (.s 20)) ∧
  is 0x17E2040706045500 (.madw u .n32 (.s 4) (.s 7) (.s 6) (.s 4)) ∧
  is 0x60E2080400000010 (.ld u .b32 .none .rlx .dflt 8 { base := .v 4, off := 16 }) ∧
  is 0x62E3080200010040 (.lds u .b64 .none .rlx .dflt 8 { base := .s 2, off := 64 }) ∧
  is 0x68E0000000B80000 (.fence u .device .ar) ∧
  is 0x6FE00804000A0001 (.kvput u true 8 4 10) ∧
  is 0x80E0090400000000 (.cpy u 9 4) ∧
  is 0x93E0150508000000 (.mma u 21 5 8) ∧
  is 0x96E00C0C00000000 (.mread u 12 12) ∧
  is 0xA0E0010000050012 (.bara u 1 5 { lvl := .cluster, idx := 2 }) ∧
  is 0xA3E2280000000003 (.barqArr u 40 { lvl := .block, idx := 3 })

/-- Decoding an encoded well-formed instruction gives it back, whatever bytes follow, with every operand at every value that the
encoding admits. -/
def Obligations.DecodeInvertsEncode : Prop :=
  ∀ (i : Instr) (bs : List Byte), i.wf = true → i.isEvent = false → decode ((encode i).flatMap wordBytes ++ bs) = .ok i bs

/-- What a step does: with an empty agenda the word that decodes at the issuing split's PC is carried out, and a word that does
not decode is ILLEGAL there. That an event at the head of the agenda comes first, and that without one the package goes on by
itself in this order (the host's posted writes, the requests that wait in full queues, a run under way, then what else is due), is
the model's choice (DESIGN CHOICE, log 1): the spec leaves the order of the package's agents open. -/
def Obligations.StepRunsWhatDecodes : Prop :=
  ∀ (s : State) (i : Issuer) (k : Instr) (rest : List Input) (w e : Nat),
    (s.agenda = [] → issuer s = some i → decodeAt i = some k → step s = exec k s) ∧
    (s.agenda = [] → issuer s = some i → decodeAt i = none → step s = .next (i.trapHere s (i.fault .illegal 0 0))) ∧
    (s.agenda = .event k :: rest → k.isEvent = true → step s = exec k { s with agenda := rest }) ∧
    (s.agenda = .issue w e :: rest → midRun { s with agenda := rest } w e = true →
      issuer { s with agenda := rest, focus := some (w, e) } = some i → decodeAt i = some k →
        step s = exec k { s with agenda := rest, focus := some (w, e) }) ∧
    (s.agenda = [] → s.focus = none → s.hostWrites ≠ [] → step s = .next (drainHost s)) ∧
    (s.agenda = [] → s.focus = none → s.hostWrites = [] → s.fullQueues ≠ [] → step s = .next { s with fullQueues := [] }) ∧
    (s.agenda = [] → s.focus = none → s.hostWrites = [] → s.fullQueues = [] → runToResume s = some (w, e) →
      issuer { s with focus := some (w, e) } = some i → decodeAt i = some k → step s = exec k { s with focus := some (w, e) }) ∧
    (s.agenda = [] → s.focus = none → s.hostWrites = [] → s.fullQueues = [] → runToResume s = none →
      (nextAuto s = some k → step s = exec k s) ∧ (nextAuto s = none → step s = .next s))

/-- Every opcode is an instruction's, the header mark or reserved; a word of a reserved opcode, and a header where an
instruction is expected, are refused by name (R89, R90). -/
def Obligations.ReservedOpcodesRefused : Prop :=
  ∀ (w : Word64) (bs : List Byte),
    let opc := (w.extractLsb' 56 8).toNat
    (reservedCodes.any (fun r => r.1 ≤ opc ∧ opc ≤ r.2) = true → decode (wordBytes w ++ bs) = .bad .reservedOpcode) ∧
    (opc = 0xFF → decode (wordBytes w ++ bs) = .bad .header) ∧
    (reservedCodes.any (fun r => r.1 ≤ opc ∧ opc ≤ r.2) = false → opc ≠ 0xFF → (formOf opc).isSome = true)

/-- No step stops: whatever the state, the package has a next one. -/
def Obligations.StepAlwaysAnswers : Prop := ∀ s : State, ∃ t, step s = .next t

/-- Every step keeps memory in its canonical form. -/
def Obligations.StepKeepsMemoryForm : Prop :=
  ∀ s t : State, s.mem.wf = true → step s = .next t → t.mem.wf = true

/-- What reset leaves: memory in its form with nothing listed, no run, launch, block, warp, card or barrier; the launch queues
and context banks at their stated values (R53, R190); logical core L backed by physical core L (R64); the whole slice cache
(R206); the network's stated values (R223); the guard interval (R59). That every byte reads zero (log 4) and that no core is disabled
(log 6) are the model's choices (DESIGN CHOICE). -/
def Obligations.ResetLeaves : Prop :=
  let s := State.reset
  s.mem.wf = true ∧ (∀ a, s.mem.byte a = 0) ∧ s.focus = none ∧ s.warps = [] ∧ s.blocks = [] ∧ s.launches = [] ∧ s.cards = [] ∧
  s.barriers = [] ∧ s.now = 0 ∧
  (∀ q, s.queues.getD .reset q = LQueue.reset) ∧ LQueue.reset.enable = false ∧ LQueue.reset.tail = 0 ∧ LQueue.reset.head = 0 ∧
  (∀ c, ctxOf s c = Ctx.reset) ∧ Ctx.reset.hvalid = false ∧ Ctx.reset.frlog = 4 ∧
  (∀ l, l < 256 → (remapEntry s.remap l).testBit 7 = true ∧ remapEntry s.remap l % 64 = l % 64) ∧
  (∀ d, splitOf s d = StoreSplit.reset) ∧ StoreSplit.reset.cache = 16 ∧ StoreSplit.reset.pin = 0 ∧ StoreSplit.reset.kv = 0 ∧
  s.net.adpth = 32 ∧ s.net.bomax = 4096 ∧ s.net.bomin = 16 ∧ s.guard = 1000

/-! ## Frames -/

/-- A word that acts on registers, when no trap opens or closes a handler and it sends no flit: outside its warp nothing changes
but the issue slot, stamps and marks of rows written whole; of the registers only those it names as written, and of a vector
register or a predicate only the lanes that take part; FLAGS gains flags and loses none, and words that R138 does not name
leave it. SETS (R129, R406) leaves likewise all but the special register that it names: FLAGS for code 14, MTGT for 17, one of the
user's registers for 64 to 75, and one field of what its trap preserved for 76 to 78. -/
def Obligations.RegisterWordsFrame : Prop :=
  (∀ (k : Instr) (ws : WordSpec) (s t u : State) (i : Issuer) (y : Warp),
    registerWord k = some ws → issuer s = some i → i.begins ws s = some t → i.acts ws → i.sends ws (i.lanes ws) = false →
    i.x.stopped = false → exec k s = .next u → u.warps.find? i.w = some y → y.handler.isSome = i.x.handler.isSome →
      let x := warpAt t i.w
      sameElsewhere i.w t u ∧ sameRegisters (ws.writes.map x.regOf) (i.lanes ws) x y ∧
        sameOtherwise (i.last ws || ws.opc == 1 || x.nextAllot.isSome) x y ∧ (∃ m < 512, y.flags = x.flags ||| BitVec.ofNat 32 m) ∧
          (mayRaise k = false → y.flags = x.flags)) ∧
  (∀ (g : Guard) (ty : Ty) (code : BitVec 8) (a : Src) (s t u : State) (i : Issuer) (y : Warp),
    let ws : WordSpec := { specialSpec 0x5E g code 78 with lit := a.isLit, unclean := true, reads := srcRegs ty.is64 a }
    issuer s = some i → i.begins ws s = some t → i.acts ws → i.x.stopped = false →
    exec (.sets g ty code a) s = .next u → u.warps.find? i.w = some y → y.handler.isSome = i.x.handler.isSome →
      let x := warpAt t i.w
      let others (h : Handler) : Handler :=
        { h with bankV := [], bankS := [], flags := if code = 76 then 0 else h.flags, tpc := if code = 77 then 0 else h.tpc,
                 tword := if code = 77 then false else h.tword, thdr := if code = 77 then 0 else h.thdr,
                 tsplit := if code = 78 then 0 else h.tsplit }
      sameElsewhere i.w t u ∧ sameRegisters (hiddenReg code.toNat) (i.lanes ws) x y ∧
        sameOtherwise (i.last ws || x.nextAllot.isSome) { x with mtgt := y.mtgt, handler := y.handler } y ∧
          (code ≠ 14 → y.flags = x.flags) ∧ (code ≠ 17 → y.mtgt = x.mtgt) ∧ y.handler.map others = x.handler.map others)

/-- A word with no lane taking part has no effect but to pass (R78): its split goes on, and its signature has folded the word. -/
def Obligations.WordsWithoutLanesPass : Prop :=
  ∀ (k : Instr) (ws : WordSpec) (s t : State) (i : Issuer),
    (registerWord k = some ws ∨ systemWord k = some ws ∨ ∃ a, accessWord k = some a ∧ a.ws = ws) →
    issuer s = some i → i.begins ws s = some t → i.lanes ws = 0 → exec k s = .next (i.finish ws t 0)

/-- Loads, stores and atomics leave every byte of memory as the core sees it, but for the bytes that a store or an atomic writes at
the addresses that its lanes reach after translation; and they leave every register, for what they deliver lands later. A byte
is spoken of where it stands in one layout (R240); a store to a device's register acts as that register says, and a store may
mark its frame in the dirty bitmap (R203). -/
def Obligations.AccessesLeaveOtherBytes : Prop :=
  ∀ (k : Instr) (c : Access) (s t u : State) (i : Issuer) (y : Warp) (r : State × List (Nat × Word64 × Target)) (a nl : Nat),
    accessWord k = some c → issuer s = some i → i.begins c.ws s = some t → i.acts c.ws →
    reaches t (i.within t) c.kind c.bytes (c.lanes (i.lanes c.ws)) (c.addr (warpAt t i.w)) = some r → exec k s = .next u →
      ((∀ q ∈ r.2, q.2.2.layoutAt c.bytes a nl) → (c.stores = true → ∀ q ∈ r.2, q.2.2.spares r.1 i.x.ctx c.bytes a) →
        standsIn r.1 i.x.core a nl → byteSeen u i.x.core a = byteSeen r.1 i.x.core a) ∧
      (u.warps.find? i.w = some y → sameRegisters [] 0 (warpAt t i.w) y)

/-- A pending write that lands writes the registers that it names and no other, unless it opens a trap. -/
def Obligations.LandingsLeaveOtherRegisters : Prop :=
  ∀ (w n : Nat) (p : Pending) (s u : State) (y : Warp),
    (warpAt s w).pend[n]? = some p → exec (.pendingWriteLands w n) s = .next u → u.warps.find? w = some y →
      sameRegisters (p.dests.map PDest.reg) allLanes (warpAt s w) y ∧
        ∀ v, v ≠ w → u.warps.find? v = s.warps.find? v

/-- Translating an address changes no byte of memory but in the leaf that maps it, where A and D are set (R191), where no bit of
a sector is flipped and no other agent writes table entries meanwhile; and it leaves every warp and its registers. -/
def Obligations.TranslationLeavesMemory : Prop :=
  ∀ (s u : State) (core asid va slot a : Nat) (k : Acc) (user : Bool) (r : Xl),
    xlate s core asid va k user = (u, r) → u.warps = s.warps ∧ u.blocks = s.blocks ∧ u.cards = s.cards ∧
      (noFlips s → s.races = [] → slotOfAsid s asid = some slot →
        (∀ at_ e size, (walkBy s (some (coreDie core)) slot va).2 = .leaf at_ e size → a < at_ ∨ at_ + 8 ≤ a) → u.mem.byte a = s.mem.byte a)

/-- A word that issues a card changes no memory and no register: the card stands among those in flight, and its tag lands
later. -/
def Obligations.CardsLeaveTheRest : Prop :=
  ∀ (g : Guard) (sd sa sb sc : Fin 64) (sel : Fin 5) (vc : Fin 256) (k : Instr) (ws : WordSpec) (s t u : State) (i : Issuer),
    (k, ws) ∈ [(.cpy g sd sa, cardSpec 0x80 g sd sa []), (.cpym g sd sa, cardSpec 0x81 g sd sa []),
      (.cpysc g sd sa, cardSpec 0x82 g sd sa []), (.xpose g sd sa, cardSpec 0x83 g sd sa []),
      (.sred g sd sa, cardSpec 0x84 g sd sa []), (.bload g sd sa sb, cardSpec 0x91 g sd sa [.s (sb.val + 1)]),
      (.minit g sd sa, cardSpec 0x92 g sd sa []), (.mma g sd sa sb, cardSpec 0x93 g sd sa (fmtRegs sb.val)),
      (.mmasp g sel sd sa sb vc, cardSpec 0x94 g sd sa (fmtRegs sb.val ++ vRegs false vc.val)),
      (.mdrain g sd sa sb sc, cardSpec 0x95 g sd sa (fmtRegs sb.val ++ sRegs false sc.val))] →
    issuer s = some i → i.begins ws s = some t → i.acts ws → exec k s = .next u → u.cards.length = t.cards.length + 1 →
      ∀ y, u.warps.find? i.w = some y → y.handler.isSome = i.x.handler.isSome →
        sameElsewhere i.w { t with cards := u.cards, nextId := u.nextId, cardCtr := u.cardCtr } u ∧
          sameRegisters [] 0 (warpAt t i.w) y ∧ y.flags = (warpAt t i.w).flags

/-- Control words leave every register, whichever way they send the split; they leave FLAGS too, but that a RET which reloads a
spilled entry may raise the tail flag (R117, R245). -/
def Obligations.ControlLeavesRegisters : Prop :=
  ∀ (g : Guard) (mode : BraMode) (tgt : BitVec 32) (div : Bool) (reg : Fin 256) (k : Instr) (ws : WordSpec) (s t u : State)
    (i : Issuer) (y : Warp),
    (k, ws) ∈ [(.exit g, { plainSpec 0x02 g with transfer := true, noHandler := true }),
      (.bra g mode tgt, { plainSpec 0x04 g with transfer := true, always := true }),
      (.brx g div reg, { plainSpec 0x05 g with transfer := true, reads := vRegs true reg.val }),
      (.call g tgt, { plainSpec 0x06 g with transfer := true }),
      (.callv g div reg, { plainSpec 0x07 g with transfer := true, reads := vRegs true reg.val }),
      (.ret g, { plainSpec 0x08 g with transfer := true })] →
    issuer s = some i → i.begins ws s = some t → i.x.stopped = false → exec k s = .next u → u.warps.find? i.w = some y →
    y.handler.isSome = i.x.handler.isSome → sameRegisters [] 0 (warpAt t i.w) y ∧ (y.flags = (warpAt t i.w).flags ∨
      k = .ret g ∧ y.flags = (warpAt t i.w).flags ||| BitVec.ofNat 32 fTAIL)

/-! ## Traps and privilege -/

/-- Taking a trap (R391, R393). In user mode with a handler installed: FAULT and FADDR are written, the split table, the call
stack, FLAGS, the trapping split and its place are kept, the handler starts at HANDLER with FLAGS zero, class 3, every lane (the
reported lanes for PAGE of cause 1 or 2), an empty scratch bank, and every register as it was. With no handler installed, or
in a handler already, the warp is killed. -/
def Obligations.TrapSavesAndEnters : Prop :=
  ∀ (s : State) (w e : Nat) (f : FaultInfo) (r : Place) (x : Warp), s.warps.find? w = some x →
    (x.handler = none → (ctxOf s x.ctx).hvalid = true → e < x.table.splits.length → f.lanes ≠ 0 →
      ∃ y h, (takeTrap s w e f r).warps.find? w = some y ∧ y.handler = some h ∧
        y.fault = BitVec.ofNat 32 (f.name.code * 2 ^ 24 + f.cause % 256 * 2 ^ 16 + f.info % 65536) ∧ y.faddr = f.addr ∧
        h.flags = x.flags ∧ h.tsplit = e ∧ h.tpc = r.pc ∧ h.tword = r.word.isSome ∧ h.cls = x.cls ∧ h.table.calls = x.table.calls ∧
        h.table.joins = x.table.joins ∧
        (∀ n, n ≠ e → h.table.splits.getD n .none = x.table.splits.getD n .none) ∧
        (h.table.splits.getD e .none).mask = (x.table.splits.getD e .none).mask ∧
        (h.table.splits.getD e .none).sig = (x.table.splits.getD e .none).sig ∧
        (h.table.splits.getD e .none).frames = (x.table.splits.getD e .none).frames ∧
        y.flags = 0 ∧ y.cls = 3 ∧ y.table.valid = [0] ∧ y.table.calls = [] ∧
        (y.splitAt 0).pc = (ctxOf s x.ctx).handler ∧
        (y.splitAt 0).mask = (if f.name = .page ∧ (f.cause = 1 ∨ f.cause = 2) then f.lanes else allLanes) ∧
        (∀ n, n < 256 → y.rawV n = x.rawV n) ∧ (∀ n, n < 256 → y.rawS n = x.rawS n) ∧ (∀ n, y.pred n = x.pred n) ∧
        (∀ n l, 248 ≤ n → n < 256 → l < 32 → (y.getV n).lane l = 0) ∧ ∀ n, 56 ≤ n → n < 60 → y.getS n = 0) ∧
    (x.handler.isSome = true ∨ (ctxOf s x.ctx).hvalid = false → x.stopped = false → (takeTrap s w e f r).warps.find? w = none)

/-- TRET (R407): the handler's table, call stack, FLAGS and scratch bank go, and what the trap preserved comes back as the
handler has left it; the trapping split, when it is the only one, resumes at TPC; with no valid split left the warp ends. -/
def Obligations.TrapReturnRestores : Prop :=
  ∀ (s : State) (w : Nat) (x : Warp) (h : Handler), s.warps.find? w = some x → x.handler = some h →
    (∀ y, (returnFromTrap s w).warps.find? w = some y →
      y.handler = none ∧ y.flags = h.flags ∧ y.cls = h.cls ∧ (∀ n, n < 256 → y.rawV n = x.rawV n) ∧
        (∀ n, n < 256 → y.rawS n = x.rawS n) ∧ ∀ n, y.pred n = x.pred n) ∧
    (h.table.valid = [] → (returnFromTrap s w).warps.find? w = none) ∧
    (h.table.valid = [h.tsplit] → h.tword = true → x.hostFault = none → x.hostHeld = false → (h.table.splits.getD h.tsplit .none).mask &&& x.live ≠ 0 →
      ∃ y, (returnFromTrap s w).warps.find? w = some y ∧ (y.splitAt h.tsplit).valid = true ∧ (y.splitAt h.tsplit).pc = h.tpc ∧
        (y.splitAt h.tsplit).word = true ∧ (y.splitAt h.tsplit).hdr = h.thdr ∧ (y.splitAt h.tsplit).park = none ∧
        (y.splitAt h.tsplit).mask = (h.table.splits.getD h.tsplit .none).mask ∧
        (y.splitAt h.tsplit).sig = (h.table.splits.getD h.tsplit .none).sig)

/-- A system word in user mode is PRIV at the word, whatever its lanes, and has no effect (R389, R404). -/
def Obligations.SystemWordsArePrivileged : Prop :=
  ∀ (k : Instr) (ws : WordSpec) (s : State) (i : Issuer),
    systemWord k = some ws → issuer s = some i → i.x.handler = none → i.illegal ws = false →
      exec k s = .next (i.trapHere s (i.fault .priv 0 0))

end
end

