-- ==== Sys2Proof/Laws/Fields.lean ====
section
/-! SUPPORT. The fields of words, said once: taking a word apart gives the fields that it was made of, and every code stands
for what it encodes. -/

namespace Sys2Proof

/-! ## The formats -/

theorem AFmt.ofWord_toWord (f : AFmt) : AFmt.ofWord f.toWord = f := by
  cases f
  simp only [AFmt.ofWord, AFmt.toWord, AFmt.mk.injEq]
  refine ⟨?_, ?_, ?_, ?_, ?_, ?_, ?_, ?_, ?_, ?_, ?_, ?_, ?_⟩ <;>
    (apply BitVec.eq_of_getLsbD_eq; intro k hk; rw [BitVec.getLsbD_extractLsb']; erw [BitVec.getLsbD_append]; simp only [BitVec.getLsbD_append, hk, decide_true, Bool.true_and, Nat.sub_sub]; repeat (first | rw [if_neg (by omega)] | rw [if_pos (by omega)])) <;> (congr 1; try omega)

theorem MFmt.ofWord_toWord (f : MFmt) : MFmt.ofWord f.toWord = f := by
  cases f
  simp only [MFmt.ofWord, MFmt.toWord, MFmt.mk.injEq]
  refine ⟨?_, ?_, ?_, ?_, ?_, ?_, ?_, ?_, ?_, ?_, ?_, ?_⟩ <;>
    (apply BitVec.eq_of_getLsbD_eq; intro k hk; rw [BitVec.getLsbD_extractLsb']; erw [BitVec.getLsbD_append]; simp only [BitVec.getLsbD_append, hk, decide_true, Bool.true_and, Nat.sub_sub]; repeat (first | rw [if_neg (by omega)] | rw [if_pos (by omega)])) <;> (congr 1; try omega)

theorem JFmt.ofWord_toWord (f : JFmt) : JFmt.ofWord f.toWord = f := by
  cases f
  simp only [JFmt.ofWord, JFmt.toWord, JFmt.mk.injEq]
  refine ⟨?_, ?_, ?_, ?_, ?_, ?_, ?_⟩ <;>
    (apply BitVec.eq_of_getLsbD_eq; intro k hk; rw [BitVec.getLsbD_extractLsb']; erw [BitVec.getLsbD_append]; simp only [BitVec.getLsbD_append, hk, decide_true, Bool.true_and, Nat.sub_sub]; repeat (first | rw [if_neg (by omega)] | rw [if_pos (by omega)])) <;> (congr 1; try omega)

theorem CFmt.ofWord_toWord (f : CFmt) : CFmt.ofWord f.toWord = f := by
  cases f
  simp only [CFmt.ofWord, CFmt.toWord, CFmt.mk.injEq]
  refine ⟨?_, ?_, ?_, ?_, ?_, ?_, ?_, ?_, ?_⟩ <;>
    (apply BitVec.eq_of_getLsbD_eq; intro k hk; rw [BitVec.getLsbD_extractLsb']; erw [BitVec.getLsbD_append]; simp only [BitVec.getLsbD_append, hk, decide_true, Bool.true_and, Nat.sub_sub]; repeat (first | rw [if_neg (by omega)] | rw [if_pos (by omega)])) <;> (congr 1; try omega)

/-! ## The opcode of a word -/

theorem AFmt.opcOf_toWord (f : AFmt) : opcOf f.toWord = f.opc.toNat := congrArg (fun x : AFmt => x.opc.toNat) f.ofWord_toWord
theorem MFmt.opcOf_toWord (f : MFmt) : opcOf f.toWord = f.opc.toNat := congrArg (fun x : MFmt => x.opc.toNat) f.ofWord_toWord
theorem JFmt.opcOf_toWord (f : JFmt) : opcOf f.toWord = f.opc.toNat := congrArg (fun x : JFmt => x.opc.toNat) f.ofWord_toWord
theorem CFmt.opcOf_toWord (f : CFmt) : opcOf f.toWord = f.opc.toNat := congrArg (fun x : CFmt => x.opc.toNat) f.ofWord_toWord

/-- A word whose opcode is an instruction's is no header. -/
theorem isHeader_of_form {w : Word64} (h : formOf (opcOf w) ≠ none) : isHeader w = false := by
  simp only [isHeader, beq_eq_false_iff_ne, ne_eq]
  intro hw
  apply h
  simp only [opcOf, hw]
  rfl

/-! ## Codes -/

theorem Ty.ofCode_code (t : Ty) : Ty.ofCode t.code = some t := by cases t <;> rfl
theorem FMod.ofCode_code (m : FMod) : FMod.ofCode m.code = m := by
  obtain ⟨r, f⟩ := m
  cases r <;> cases f <;> rfl
theorem ICond.ofCode_code (c : ICond) : ICond.ofCode c.code = some c := by cases c <;> rfl
theorem FCond.ofCode_code (c : FCond) : FCond.ofCode c.code = some c := by cases c <;> rfl
theorem Combine.ofCode_code (c : Combine) : Combine.ofCode c.code = c := by cases c <;> rfl
theorem VoteOp.ofCode_code (c : VoteOp) : VoteOp.ofCode c.code = c := by cases c <;> rfl
theorem ShflMode.ofCode_code (c : ShflMode) : ShflMode.ofCode c.code = c := by cases c <;> rfl
theorem ReduxOp.ofCode_code (c : ReduxOp) : ReduxOp.ofCode c.code = some c := by cases c <;> rfl
theorem SbFmt.ofCode_code (c : SbFmt) : SbFmt.ofCode c.code = some c := by cases c <;> rfl
theorem BraMode.ofCode_code (c : BraMode) : BraMode.ofCode c.code = some c := by cases c <;> rfl
theorem MSize.ofCode_code (c : MSize) : MSize.ofCode c.code = some c := by cases c <;> rfl
theorem Scope.ofCode_code (c : Scope) : Scope.ofCode c.code = c := by cases c <;> rfl
theorem Order.ofCode_code (c : Order) : Order.ofCode c.code = c := by cases c <;> rfl
theorem Cache.ofCode_code (c : Cache) : Cache.ofCode c.code = c := by cases c <;> rfl
theorem AtomOp.ofCode_code (c : AtomOp) : AtomOp.ofCode c.code = some c := by cases c <;> rfl
theorem LdgOp.ofCode_code (c : LdgOp) : LdgOp.ofCode c.code = some c := by cases c <;> rfl
theorem Reuse.ofCode_code (c : Reuse) : Reuse.ofCode c.code = c := by cases c <;> rfl

theorem Bar.ofCode_code (b : Bar) : Bar.ofCode b.code = some b := by
  obtain ⟨l, i⟩ := b
  cases l <;> revert i <;> decide

theorem Guard.ofBits_bits (g : Guard) : Guard.ofBits g.bitsP g.bitsN = g := by
  obtain ⟨p, n⟩ := g
  cases n <;> revert p <;> decide

/-! ## Operands -/

theorem vField_vBits (n : Fin 256) : vField (vBits n) = n := by
  apply Fin.ext
  simp [vField, vBits]

theorem sField_sBits (n : Fin 64) : sField (sBits n) = some n := by
  have h : n.val % 256 = n.val := Nat.mod_eq_of_lt (by omega)
  simp [sField, sBits, h, n.isLt]

theorem pField_pBits (n : Fin 8) : pField (pBits n) = some n := by
  have h : n.val % 256 = n.val := Nat.mod_eq_of_lt (by omega)
  simp [pField, pBits, h, n.isLt]

theorem Dst.ofBits_field (d : Dst) : Dst.ofBits d.kind d.field = some d := by
  cases d with
  | v n => exact congrArg (fun x => some (Dst.v x)) (vField_vBits n)
  | s n => show (sField (sBits n)).map Dst.s = _; rw [sField_sBits]; rfl
  | p n => show (pField (pBits n)).map Dst.p = _; rw [pField_pBits]; rfl

theorem Base.ofBits_field (b : Base) : Base.ofBits b.kind b.field = some b := by
  cases b with
  | v n => exact congrArg (fun x => some (Base.v x)) (vField_vBits n)
  | s n => show (sField (sBits n)).map Base.s = _; rw [sField_sBits]; rfl

/-- A source reads back, a literal when it is the word's. -/
theorem Src.ofBits_field (a : Src) (l : Option Word64) (h : ∀ w, a = .lit w → l = some w) :
    Src.ofBits a.kind a.field l = some a := by
  cases a with
  | v n => exact congrArg (fun x => some (Src.v x)) (vField_vBits n)
  | s n =>
    have := n.isLt
    simp [Src.ofBits, Src.kind, Src.field, Nat.mod_eq_of_lt (show n.val < 256 by omega)]
  | imm i => rfl
  | lit w => rw [h w rfl]; rfl

theorem pSrc_kind (p : Fin 8) : (pSrc p).kind = 0 := rfl
theorem pSrc_field (p : Fin 8) : (pSrc p).field = pBits p := rfl

/-! ## Words that decode to what they encode -/

/-- What encode gives of an instruction is one word, followed by its literal where it needs one, and the word parses to the
instruction. -/
def Encoded (i : Instr) : Prop :=
  ∃ w ls, encode i = w :: ls ∧ ls.length = (if needsLiteral w then 1 else 0) ∧ formOf (opcOf w) ≠ none ∧
    parseWord w ls.head? = some i

theorem takeWord_wordBytes (w : Word64) (bs : List Byte) : takeWord (wordBytes w ++ bs) = some (w, bs) := by
  simp only [wordBytes, List.range, List.range.loop, List.map, List.cons_append, List.nil_append, takeWord, Option.some.injEq,
    Prod.mk.injEq, and_true]
  apply BitVec.eq_of_getLsbD_eq
  intro k hk
  erw [BitVec.getLsbD_append]
  simp only [BitVec.getLsbD_append, BitVec.getLsbD_extractLsb', Nat.sub_sub]
  repeat' split
  all_goals
    try rw [decide_eq_true (by omega), Bool.true_and]
    congr 1
    try omega

/-- The literal words of three sources of which at most one is a literal. -/
theorem literals (a b c : Src) (h : oneLit [a, b, c] = true) :
    (a.word ++ b.word ++ c.word).length = (if a.kind == 3 || b.kind == 3 || c.kind == 3 then 1 else 0) ∧
      ∀ x ∈ [a, b, c], ∀ w, x = .lit w → (a.word ++ b.word ++ c.word).head? = some w := by
  cases a <;> cases b <;> cases c <;> first
    | exact absurd (show false = true from h) (by decide)
    | (refine ⟨rfl, ?_⟩; intro x hx w hw; subst hw; simp [Src.word] at hx ⊢; try exact hx.symm)

/-- The A-format word that encA makes, as its fields. -/
def fieldsA (opc : BitVec 8) (g : Guard) (ty : BitVec 4) (dk : BitVec 2) (d : BitVec 8) (a b c : Src) (mod : BitVec 8) : AFmt :=
  { opc := opc, pg := g.bitsP, pn := g.bitsN, ty := ty, d := d, a := a.field, b := b.field, c := c.field,
    ka := a.kind, kb := b.kind, kc := c.kind, dk := dk, mod := mod }

/-- An instruction that encA encodes: it is enough that its fields read back. -/
theorem encoded_a {i : Instr} {opc : BitVec 8} {g : Guard} {ty : BitVec 4} {dk : BitVec 2} {d : BitVec 8} {a b c : Src}
    {mod : BitVec 8} (he : encode i = encA opc g ty dk d a b c mod) (dec : AFmt → Option Word64 → Option Instr)
    (hf : ∀ w l, opcOf w = opc.toNat → formOf (opcOf w) ≠ none ∧ parseWord w l = dec (AFmt.ofWord w) l ∧
      needsLiteral w = ((AFmt.ofWord w).ka == 3 || (AFmt.ofWord w).kb == 3 || (AFmt.ofWord w).kc == 3))
    (hl : oneLit [a, b, c] = true)
    (hp : ∀ l, Src.ofBits a.kind a.field l = some a → Src.ofBits b.kind b.field l = some b → Src.ofBits c.kind c.field l = some c →
      dec (fieldsA opc g ty dk d a b c mod) l = some i) : Encoded i := by
  obtain ⟨h1, h2⟩ := literals a b c hl
  have hw : encA opc g ty dk d a b c mod = (fieldsA opc g ty dk d a b c mod).toWord :: (a.word ++ b.word ++ c.word) := rfl
  obtain ⟨f1, f2, f3⟩ := hf (fieldsA opc g ty dk d a b c mod).toWord (a.word ++ b.word ++ c.word).head? (AFmt.opcOf_toWord _)
  refine ⟨_, _, he.trans hw, ?_, f1, ?_⟩
  · rw [f3, AFmt.ofWord_toWord]
    exact h1
  · rw [f2, AFmt.ofWord_toWord]
    exact hp _ (Src.ofBits_field _ _ (h2 a (by simp))) (Src.ofBits_field _ _ (h2 b (by simp)))
      (Src.ofBits_field _ _ (h2 c (by simp)))

/-- An instruction of the M format. -/
theorem encoded_m {i : Instr} {f : MFmt} (he : encode i = [f.toWord]) (hf : formOf f.opc.toNat = some .m)
    (hp : decodeMem f = some i) : Encoded i := by
  have ho := MFmt.opcOf_toWord f
  refine ⟨_, _, he, ?_, by rw [ho, hf]; simp, ?_⟩
  · simp [needsLiteral, ho, hf]
  · simp [parseWord, ho, hf, MFmt.ofWord_toWord, hp]

/-- An instruction of the J format. -/
theorem encoded_j {i : Instr} {f : JFmt} (he : encode i = [f.toWord]) (hf : formOf f.opc.toNat = some .j)
    (hp : decodeJump f = some i) : Encoded i := by
  have ho := JFmt.opcOf_toWord f
  refine ⟨_, _, he, ?_, by rw [ho, hf]; simp, ?_⟩
  · simp [needsLiteral, ho, hf]
  · simp [parseWord, ho, hf, JFmt.ofWord_toWord, hp]

/-- An instruction of the C format. -/
theorem encoded_c {i : Instr} {f : CFmt} (he : encode i = [f.toWord])
    (hf : formOf f.opc.toNat = some .cCtl ∧ decodeCtl f = some i ∨ formOf f.opc.toNat = some .cCard ∧ decodeCard f = some i ∨
      formOf f.opc.toNat = some .cSys ∧ decodeSys f = some i) : Encoded i := by
  have ho := CFmt.opcOf_toWord f
  rcases hf with ⟨h1, h2⟩ | ⟨h1, h2⟩ | ⟨h1, h2⟩ <;>
    exact ⟨_, _, he, by simp [needsLiteral, ho, h1], by rw [ho, h1]; simp,
      by simp [parseWord, ho, h1, CFmt.ofWord_toWord, h2]⟩

/-- What an instruction encodes to decodes to it, whatever follows. -/
theorem decode_encoded {i : Instr} (h : Encoded i) (hw : i.wf = true) (bs : List Byte) :
    decode ((encode i).flatMap wordBytes ++ bs) = .ok i bs := by
  obtain ⟨w, ls, he, hl, hf, hp⟩ := h
  have hd : ∀ l, parseWord w l = some i → decodeWord w l = some i := fun l h => by simp [decodeWord, h, hw]
  rw [he, List.flatMap_cons, List.append_assoc]
  unfold decode
  simp only [takeWord_wordBytes, isHeader_of_form hf, Bool.false_eq_true, ↓reduceIte, hf]
  cases hn : needsLiteral w with
  | false =>
    rw [hn] at hl
    have : ls = [] := List.eq_nil_of_length_eq_zero (by simpa using hl)
    subst this
    simp [show decodeWord w none = some i from hd _ hp]
  | true =>
    rw [hn] at hl
    obtain ⟨l, rfl⟩ := List.length_eq_one_iff.mp (by simpa using hl)
    have ht : takeWord (List.flatMap wordBytes [l] ++ bs) = some (l, bs) := by simp [takeWord_wordBytes]
    simp only [↓reduceIte, ht, show decodeWord w (some l) = some i from hd _ hp]

/-! ## The fields of an encoded word, one by one -/

theorem oneLit_ab {a b c : Src} (hc : c.isLit = false) (h : oneLit [a, b] = true) : oneLit [a, b, c] = true := by
  cases a <;> cases b <;> cases c <;> first | rfl | exact h | exact absurd (show true = false from hc) (by decide)

theorem oneLit_bc {a b c : Src} (ha : a.isLit = false) (h : oneLit [b, c] = true) : oneLit [a, b, c] = true := by
  cases a <;> cases b <;> cases c <;> first | rfl | exact h | exact absurd (show true = false from ha) (by decide)

theorem oneLit_a {a b c : Src} (hb : b.isLit = false) (hc : c.isLit = false) : oneLit [a, b, c] = true := by
  cases a <;> cases b <;> cases c <;> first | rfl | exact absurd (show true = false from hb) (by decide) | exact absurd (show true = false from hc) (by decide)

theorem oneLit_b {a b c : Src} (ha : a.isLit = false) (hc : c.isLit = false) : oneLit [a, b, c] = true := by
  cases a <;> cases b <;> cases c <;> first | rfl | exact absurd (show true = false from ha) (by decide) | exact absurd (show true = false from hc) (by decide)

theorem bit0_hi (s : Bool) : (bit0 s).extractLsb' 1 7 = 0 := by cases s <;> rfl
theorem bit0_lo (s : Bool) : (bit0 s).getLsbD 0 = s := by cases s <;> rfl
theorem fmodBits_hi (m : FMod) : (fmodBits m).extractLsb' 3 5 = 0 := by
  obtain ⟨r, f⟩ := m
  cases r <;> cases f <;> rfl
theorem fmodBits_lo (m : FMod) : FMod.ofCode ((fmodBits m).extractLsb' 0 3) = m := by
  obtain ⟨r, f⟩ := m
  cases r <;> cases f <;> rfl

section
variable {opc : BitVec 8} {g : Guard} {ty : BitVec 4} {dk : BitVec 2} {d : BitVec 8} {a b c : Src} {mod : BitVec 8} {l : Option Word64}

theorem fieldsA_g : (fieldsA opc g ty dk d a b c mod).g = g := Guard.ofBits_bits g
theorem fieldsA_ty : (fieldsA opc g ty dk d a b c mod).ty = ty := rfl
theorem fieldsA_dk : (fieldsA opc g ty dk d a b c mod).dk = dk := rfl
theorem fieldsA_d : (fieldsA opc g ty dk d a b c mod).d = d := rfl
theorem fieldsA_mod : (fieldsA opc g ty dk d a b c mod).mod = mod := rfl
theorem fieldsA_dst (d : Dst) : (fieldsA opc g ty d.kind d.field a b c mod).dst = some d := Dst.ofBits_field d
theorem fieldsA_dstV (d : Fin 256) : (fieldsA opc g ty 0 (vBits d) a b c mod).dstV = some d :=
  congrArg some (vField_vBits d)
theorem fieldsA_noA : (fieldsA opc g ty dk d noSrc b c mod).noA = true := rfl
theorem fieldsA_noB : (fieldsA opc g ty dk d a noSrc c mod).noB = true := rfl
theorem fieldsA_noC : (fieldsA opc g ty dk d a b noSrc mod).noC = true := rfl
theorem fieldsA_predA (p : Fin 8) : (fieldsA opc g ty dk d (pSrc p) b c mod).predA = some p := pField_pBits p
theorem fieldsA_predB (p : Fin 8) : (fieldsA opc g ty dk d a (pSrc p) c mod).predB = some p := pField_pBits p
theorem fieldsA_predC (p : Fin 8) : (fieldsA opc g ty dk d a b (pSrc p) mod).predC = some p := pField_pBits p
theorem fieldsA_regA (n : Fin 256) : (fieldsA opc g ty dk d (.v n) b c mod).regA = some n := congrArg some (vField_vBits n)
theorem fieldsA_mod0 : (fieldsA opc g ty dk d a b c 0).mod0 = true := rfl
theorem fieldsA_modBit (s : Bool) : (fieldsA opc g ty dk d a b c (bit0 s)).modBit = some s := by
  simp only [AFmt.modBit, fieldsA_mod, bit0_hi, bit0_lo, ↓reduceIte]
theorem fieldsA_fmod (m : FMod) : (fieldsA opc g ty dk d a b c (fmodBits m)).fmod = some m := by
  simp only [AFmt.fmod, fieldsA_mod, fmodBits_hi, fmodBits_lo, ↓reduceIte]
theorem fieldsA_srcA (h : Src.ofBits a.kind a.field l = some a) : (fieldsA opc g ty dk d a b c mod).srcA l = some a := h
theorem fieldsA_srcB (h : Src.ofBits b.kind b.field l = some b) : (fieldsA opc g ty dk d a b c mod).srcB l = some b := h
theorem fieldsA_srcC (h : Src.ofBits c.kind c.field l = some c) : (fieldsA opc g ty dk d a b c mod).srcC l = some c := h

end

theorem MFmt.g_of (g : Guard) (opc : BitVec 8) (sz : BitVec 4) (d ab x : BitVec 8) (sco : BitVec 3) (ord ch : BitVec 2) (ka : BitVec 1)
    (off : BitVec 16) : MFmt.g ⟨opc, g.bitsP, g.bitsN, sz, d, ab, x, sco, ord, ch, ka, off⟩ = g := Guard.ofBits_bits g
theorem JFmt.g_of (g : Guard) (opc : BitVec 8) (mode : BitVec 4) (reg aux : BitVec 8) (tgt : BitVec 32) :
    JFmt.g ⟨opc, g.bitsP, g.bitsN, mode, reg, aux, tgt⟩ = g := Guard.ofBits_bits g
theorem CFmt.g_of (g : Guard) (opc : BitVec 8) (sub : BitVec 4) (sd sa sb sc : BitVec 8) (imm : BitVec 16) :
    CFmt.g ⟨opc, g.bitsP, g.bitsN, sub, sd, sa, sb, sc, imm⟩ = g := Guard.ofBits_bits g

theorem fieldsA_dstP {opc : BitVec 8} {g : Guard} {ty : BitVec 4} {a b c : Src} {mod : BitVec 8} (p : Fin 8) :
    (fieldsA opc g ty 2 (pBits p) a b c mod).dst = some (.p p) := Dst.ofBits_field (.p p)

/-- OP and the word offset of the M format. -/
theorem op_hi (x : BitVec 5) (y : BitVec 11) : BitVec.extractLsb' (n := 16) 11 5 (x ++ y) = x := by
  apply BitVec.eq_of_getLsbD_eq
  intro k hk
  rw [BitVec.getLsbD_extractLsb']
  erw [BitVec.getLsbD_append]
  simp [hk]

theorem op_lo (x : BitVec 5) (y : BitVec 11) : BitVec.extractLsb' (n := 16) 0 11 (x ++ y) = y := by
  apply BitVec.eq_of_getLsbD_eq
  intro k hk
  rw [BitVec.getLsbD_extractLsb']
  erw [BitVec.getLsbD_append]
  simp [hk]

theorem chk_true : chk true = some () := rfl

end Sys2Proof
end

