-- ==== Sys2Proof/Laws/Memory.lean ====
section
/-! SUPPORT. The laws of tables and of memory: what a read finds after a write, and that every operation keeps the canonical
form. -/

namespace Sys2Proof.Machine

/-! ## Tables -/

section
variable {α : Type}

@[simp] theorem Tbl.find?_nil (k : Nat) : Tbl.find? ([] : Tbl α) k = none := rfl

theorem Tbl.find?_put (m : Tbl α) (k j : Nat) (v : α) : (m.put k v).find? j = if j = k then some v else m.find? j := by
  induction m with
  | nil => by_cases h : k = j <;> simp [Tbl.put, Tbl.find?, h, eq_comm]
  | cons p t ih =>
    obtain ⟨k', v'⟩ := p
    simp only [Tbl.put]
    split
    · by_cases h : k = j <;> simp [Tbl.find?, h, eq_comm]
    · split
      · rename_i h2
        subst h2
        by_cases h : k = j <;> simp [Tbl.find?, h, eq_comm]
      · rename_i h1 h2
        by_cases h : k' = j
        · subst h
          have : ¬k' = k := fun e => h2 e.symm
          simp [Tbl.find?, this]
        · simp [Tbl.find?, h, ih]

@[simp] theorem Tbl.find?_put_same (m : Tbl α) (k : Nat) (v : α) : (m.put k v).find? k = some v := by
  simp [Tbl.find?_put]

theorem Tbl.find?_put_other (m : Tbl α) {k j : Nat} (v : α) (h : j ≠ k) : (m.put k v).find? j = m.find? j := by
  simp [Tbl.find?_put, h]

theorem Tbl.find?_filter_key (m : Tbl α) (p : Nat → Bool) (j : Nat) :
    Tbl.find? (List.filter (fun x => p x.1) m) j = if p j then m.find? j else none := by
  induction m with
  | nil => simp
  | cons q t ih =>
    obtain ⟨k', v'⟩ := q
    by_cases hp : p k' <;> by_cases hj : k' = j
    · subst hj; simp [Tbl.find?, hp]
    · simp [Tbl.find?, hp, hj, ih]
    · subst hj; simp [hp, ih]
    · simp [Tbl.find?, hp, hj, ih]

theorem Tbl.find?_del (m : Tbl α) (k j : Nat) : (m.del k).find? j = if j = k then none else m.find? j := by
  have := Tbl.find?_filter_key m (fun x => x != k) j
  simp only [Tbl.del]
  rw [this]
  by_cases h : j = k <;> simp [h]

theorem Tbl.find?_modify (m : Tbl α) (k j : Nat) (f : α → α) :
    (m.modify k f).find? j = if j = k then (m.find? k).map f else m.find? j := by
  unfold Tbl.modify
  split
  · rename_i v hv
    by_cases h : j = k <;> simp [Tbl.find?_put, h, hv]
  · rename_i hn
    by_cases h : j = k <;> simp [h, hn]

theorem Tbl.find?_mapVals (m : Tbl α) (f : Nat → α → α) (j : Nat) : (m.mapVals f).find? j = (m.find? j).map (f j) := by
  induction m with
  | nil => rfl
  | cons p t ih =>
    obtain ⟨k', v'⟩ := p
    by_cases h : k' = j
    · subst h; simp [Tbl.mapVals, Tbl.find?]
    · simp only [Tbl.mapVals, List.map_cons, Tbl.find?, h, ↓reduceIte]
      exact ih

theorem Tbl.getD_putD [DecidableEq α] (m : Tbl α) (d : α) (k j : Nat) (v : α) :
    (m.putD d k v).getD d j = if j = k then v else m.getD d j := by
  unfold Tbl.putD Tbl.getD
  split
  · rename_i h
    by_cases hj : j = k <;> simp [Tbl.find?_del, hj, h]
  · by_cases hj : j = k <;> simp [Tbl.find?_put, hj]

/-! ### The canonical form -/

/-- The canonical form, said of the list: keys strictly rise, no value is what an unlisted key reads as. -/
theorem Tbl.wf_iff [DecidableEq α] (d : α) (m : Tbl α) :
    m.wf d = true ↔ List.Pairwise (fun x y => x.1 < y.1) m ∧ ∀ x ∈ m, x.2 ≠ d := by
  induction m with
  | nil => simp [Tbl.wf]
  | cons p t ih =>
    obtain ⟨k, v⟩ := p
    cases t with
    | nil => simp [Tbl.wf]
    | cons q t =>
      obtain ⟨k', v'⟩ := q
      simp only [Tbl.wf, Bool.and_eq_true, bne_iff_ne, ne_eq, decide_eq_true_eq, List.pairwise_cons] at ih ⊢
      rw [ih]
      constructor
      · rintro ⟨⟨h1, h2⟩, ⟨h3, h4⟩, h5⟩
        refine ⟨⟨?_, h3, h4⟩, ?_⟩
        · intro x hx
          rcases List.mem_cons.mp hx with rfl | hx
          · exact h2
          · exact Nat.lt_trans h2 (h3 _ hx)
        · intro x hx
          rcases List.mem_cons.mp hx with rfl | hx
          · exact h1
          · exact h5 _ hx
      · rintro ⟨⟨h1, h2⟩, h3⟩
        exact ⟨⟨h3 _ (List.mem_cons_self ..), h1 _ (List.mem_cons_self ..)⟩, h2, fun x hx => h3 x (List.mem_cons_of_mem _ hx)⟩

theorem Tbl.wf_filter [DecidableEq α] {d : α} {m : Tbl α} (p : Nat × α → Bool) (h : m.wf d = true) :
    Tbl.wf d (List.filter p m) = true := by
  rw [Tbl.wf_iff] at h ⊢
  exact ⟨h.1.filter _, fun x hx => h.2 x (List.mem_filter.mp hx).1⟩

theorem Tbl.wf_del [DecidableEq α] {d : α} {m : Tbl α} (k : Nat) (h : m.wf d = true) : (m.del k).wf d = true :=
  Tbl.wf_filter _ h

theorem Tbl.mem_put {m : Tbl α} {k : Nat} {v : α} {x : Nat × α} (h : x ∈ m.put k v) : x = (k, v) ∨ x ∈ m := by
  induction m with
  | nil => simpa [Tbl.put] using h
  | cons p t ih =>
    obtain ⟨k', v'⟩ := p
    simp only [Tbl.put] at h
    split at h
    · simpa using h
    · split at h
      · rcases List.mem_cons.mp h with h | h
        · exact .inl h
        · exact .inr (List.mem_cons_of_mem _ h)
      · rcases List.mem_cons.mp h with h | h
        · exact .inr (h ▸ List.mem_cons_self ..)
        · exact (ih h).imp_right (List.mem_cons_of_mem _)

theorem Tbl.wf_put [DecidableEq α] {d : α} {m : Tbl α} {k : Nat} {v : α} (h : m.wf d = true) (hv : v ≠ d) :
    (m.put k v).wf d = true := by
  induction m with
  | nil => simp [Tbl.put, Tbl.wf, hv]
  | cons p t ih =>
    obtain ⟨k', v'⟩ := p
    rw [Tbl.wf_iff] at h
    have ht : Tbl.wf d t = true := by
      rw [Tbl.wf_iff]
      exact ⟨(List.pairwise_cons.mp h.1).2, fun x hx => h.2 x (List.mem_cons_of_mem _ hx)⟩
    have ih := ih ht
    rw [Tbl.wf_iff] at ih ⊢
    simp only [Tbl.put]
    have hk := (List.pairwise_cons.mp h.1).1
    split
    · rename_i hlt
      refine ⟨List.pairwise_cons.mpr ⟨?_, h.1⟩, ?_⟩
      · intro x hx
        rcases List.mem_cons.mp hx with rfl | hx
        · exact hlt
        · exact Nat.lt_trans hlt (hk _ hx)
      · intro x hx
        rcases List.mem_cons.mp hx with rfl | hx
        · exact hv
        · exact h.2 _ hx
    · split
      · rename_i he
        subst he
        refine ⟨List.pairwise_cons.mpr ⟨hk, (List.pairwise_cons.mp h.1).2⟩, ?_⟩
        intro x hx
        rcases List.mem_cons.mp hx with rfl | hx
        · exact hv
        · exact h.2 _ (List.mem_cons_of_mem _ hx)
      · rename_i h1 h2
        refine ⟨List.pairwise_cons.mpr ⟨?_, ih.1⟩, ?_⟩
        · intro x hx
          rcases Tbl.mem_put hx with rfl | hx
          · show k' < k
            omega
          · exact hk _ hx
        · intro x hx
          rcases List.mem_cons.mp hx with rfl | hx
          · exact h.2 _ (List.mem_cons_self ..)
          · exact ih.2 _ hx

theorem Tbl.wf_putD [DecidableEq α] {d : α} {m : Tbl α} {k : Nat} {v : α} (h : m.wf d = true) :
    (m.putD d k v).wf d = true := by
  unfold Tbl.putD
  split
  · exact Tbl.wf_del _ h
  · exact Tbl.wf_put h ‹_›

end

/-! ## Numbers and their bytes -/

@[simp] theorem leBytes_length (n v : Nat) : (leBytes n v).length = n := by
  induction n generalizing v with
  | zero => rfl
  | succ n ih => simp [leBytes, ih]

theorem leBytes_leNat (bs : List Byte) : leBytes bs.length (leNat bs) = bs := by
  induction bs with
  | nil => rfl
  | cons b bs ih =>
    have h1 : (b.toNat + 256 * leNat bs) / 256 = leNat bs := by have := b.isLt; omega
    have h2 : BitVec.ofNat 8 (b.toNat + 256 * leNat bs) = b := by
      apply BitVec.eq_of_toNat_eq
      have := b.isLt
      simp only [BitVec.toNat_ofNat]
      omega
    simp [leNat, leBytes, h1, h2, ih]

theorem leNat_leBytes (n v : Nat) : leNat (leBytes n v) = v % 256 ^ n := by
  induction n generalizing v with
  | zero => simp [leBytes, leNat, Nat.mod_one]
  | succ n ih =>
    show (BitVec.ofNat 8 v).toNat + 256 * leNat (leBytes n (v / 256)) = v % 256 ^ (n + 1)
    rw [ih, BitVec.toNat_ofNat]
    have e : 256 ^ (n + 1) = 256 * 256 ^ n := Nat.pow_succ'
    rw [e, Nat.mod_mul]

/-! ## Memory -/

theorem Memory.byte_setByte (m : Memory) (a j : Nat) (b : Byte) : (m.setByte a b).byte j = if j = a then b else m.byte j :=
  Tbl.getD_putD m Memory.blank a j b

theorem Memory.byte_setBytes (m : Memory) (a j : Nat) (bs : List Byte) :
    (m.setBytes a bs).byte j = if a ≤ j ∧ j < a + bs.length then bs.getD (j - a) 0 else m.byte j := by
  induction bs generalizing m a with
  | nil => simp only [Memory.setBytes, List.length_nil]; rw [if_neg (by omega)]
  | cons b bs ih =>
    rw [Memory.setBytes, ih, Memory.byte_setByte]
    simp only [List.length_cons]
    by_cases h : j = a
    · subst h
      rw [if_neg (by omega), if_pos rfl, if_pos (by omega)]
      simp
    · by_cases h2 : a + 1 ≤ j ∧ j < a + 1 + bs.length
      · rw [if_pos h2, if_pos (by omega)]
        have : j - a = (j - (a + 1)) + 1 := by omega
        rw [this, List.getD_cons_succ]
      · rw [if_neg h2, if_neg h, if_neg (by omega)]

/-- A write leaves every byte outside it as it was. -/
theorem Memory.byte_setBytes_other (m : Memory) {a j : Nat} (bs : List Byte) (h : j < a ∨ a + bs.length ≤ j) :
    (m.setBytes a bs).byte j = m.byte j := by
  rw [Memory.byte_setBytes, if_neg (by omega)]

@[simp] theorem Memory.bytes_length (m : Memory) (a n : Nat) : (m.bytes a n).length = n := by simp [Memory.bytes]

/-- A read after a write of the same bytes gives them. -/
theorem Memory.bytes_setBytes (m : Memory) (a : Nat) (bs : List Byte) : (m.setBytes a bs).bytes a bs.length = bs := by
  apply List.ext_getElem (by simp)
  intro i h1 h2
  simp only [Memory.bytes, List.getElem_map, List.getElem_range, Memory.byte_setBytes]
  rw [if_pos (by omega)]
  simp [h2]

/-- Writing the number that n bytes read as changes no byte. -/
theorem Memory.byte_writeNat_readNat (m : Memory) (a n j : Nat) : (m.writeNat a n (m.readNat a n)).byte j = m.byte j := by
  have h := leBytes_leNat (m.bytes a n)
  rw [Memory.bytes_length] at h
  unfold Memory.writeNat Memory.readNat
  rw [h, Memory.byte_setBytes]
  split
  · rename_i hj
    simp only [Memory.bytes_length] at hj
    have : j - a < n := by omega
    have e : a + (j - a) = j := by omega
    simp [Memory.bytes, this, e]
  · rfl

theorem Memory.wf_setByte {m : Memory} (a : Nat) (b : Byte) (h : m.wf = true) : (m.setByte a b).wf = true := Tbl.wf_putD h

theorem Memory.wf_setBytes {m : Memory} (a : Nat) (bs : List Byte) (h : m.wf = true) : (m.setBytes a bs).wf = true := by
  induction bs generalizing m a with
  | nil => exact h
  | cons b bs ih => exact ih _ (Memory.wf_setByte _ _ h)

theorem Memory.wf_writeNat {m : Memory} (a n v : Nat) (h : m.wf = true) : (m.writeNat a n v).wf = true :=
  Memory.wf_setBytes _ _ h

theorem Memory.wf_filter {m : Memory} (p : Nat × BitVec 8 → Bool) (h : m.wf = true) : Memory.wf (List.filter p m) = true :=
  Tbl.wf_filter p h

end Sys2Proof.Machine
end

