-- ==== Sys2Proof/Laws/State.lean ====
section
/-! SUPPORT. What each named update of the state does to each field: one line a field, all true by rfl, so that no proof
unfolds a record update. -/

namespace Sys2Proof.Machine

@[simp] theorem updWarp_warps (s : State) (w : Nat) (f : Warp → Warp) : (updWarp s w f).warps = s.warps.modify w f := rfl

@[simp] theorem updWarp_other (s : State) (w : Nat) (f : Warp → Warp) :
    (updWarp s w f).agenda = s.agenda ∧ (updWarp s w f).freeCount = s.freeCount ∧ (updWarp s w f).focus = s.focus ∧
    (updWarp s w f).runs = s.runs ∧ (updWarp s w f).now = s.now ∧ (updWarp s w f).nextId = s.nextId ∧
    (updWarp s w f).seq = s.seq ∧ (updWarp s w f).mem = s.mem ∧ (updWarp s w f).sectors = s.sectors ∧
    (updWarp s w f).backing = s.backing ∧ (updWarp s w f).rowErrors = s.rowErrors ∧ (updWarp s w f).banks = s.banks ∧
    (updWarp s w f).acc = s.acc ∧ (updWarp s w f).anchors = s.anchors ∧ (updWarp s w f).accMarks = s.accMarks ∧
    (updWarp s w f).scale = s.scale ∧ (updWarp s w f).scaleMarks = s.scaleMarks ∧ (updWarp s w f).spadMarks = s.spadMarks ∧
    (updWarp s w f).cells = s.cells ∧ (updWarp s w f).bscale = s.bscale ∧ (updWarp s w f).checks = s.checks ∧
    (updWarp s w f).queues = s.queues ∧ (updWarp s w f).guard = s.guard ∧ (updWarp s w f).remap = s.remap ∧
    (updWarp s w f).launches = s.launches ∧ (updWarp s w f).blocks = s.blocks ∧ (updWarp s w f).saved = s.saved ∧
    (updWarp s w f).cards = s.cards ∧ (updWarp s w f).cardCtr = s.cardCtr ∧ (updWarp s w f).engineErrors = s.engineErrors ∧
    (updWarp s w f).barriers = s.barriers ∧ (updWarp s w f).ctxs = s.ctxs ∧ (updWarp s w f).tlb = s.tlb ∧
    (updWarp s w f).icache = s.icache ∧ (updWarp s w f).l1 = s.l1 ∧ (updWarp s w f).place = s.place ∧
    (updWarp s w f).sole = s.sole ∧ (updWarp s w f).leases = s.leases ∧ (updWarp s w f).pools = s.pools ∧
    (updWarp s w f).zeroised = s.zeroised ∧ (updWarp s w f).splits = s.splits ∧ (updWarp s w f).lines = s.lines ∧
    (updWarp s w f).contracts = s.contracts ∧ (updWarp s w f).kv = s.kv ∧ (updWarp s w f).tensors = s.tensors ∧
    (updWarp s w f).net = s.net ∧ (updWarp s w f).chans = s.chans ∧ (updWarp s w f).fullQueues = s.fullQueues ∧
    (updWarp s w f).seqs = s.seqs ∧ (updWarp s w f).jitter = s.jitter ∧ (updWarp s w f).logs = s.logs ∧
    (updWarp s w f).injectors = s.injectors ∧ (updWarp s w f).admitRegs = s.admitRegs ∧ (updWarp s w f).peersDown = s.peersDown ∧
    (updWarp s w f).peersRefusing = s.peersRefusing ∧ (updWarp s w f).peerReplies = s.peerReplies ∧ (updWarp s w f).islandUse = s.islandUse ∧
    (updWarp s w f).genReplays = s.genReplays ∧ (updWarp s w f).races = s.races ∧ (updWarp s w f).hostWrites = s.hostWrites ∧
    (updWarp s w f).egress = s.egress ∧ (updWarp s w f).replies = s.replies ∧ (updWarp s w f).msix = s.msix ∧
    (updWarp s w f).gcnt = s.gcnt ∧ (updWarp s w f).bfail = s.bfail ∧ (updWarp s w f).bspare = s.bspare ∧
    (updWarp s w f).marks = s.marks ∧ (updWarp s w f).life = s.life ∧ (updWarp s w f).scrubReg = s.scrubReg ∧
    (updWarp s w f).power = s.power ∧ (updWarp s w f).islands = s.islands ∧ (updWarp s w f).gates = s.gates ∧
    (updWarp s w f).ran = s.ran ∧ (updWarp s w f).limits = s.limits ∧ (updWarp s w f).temps = s.temps ∧
    (updWarp s w f).warns = s.warns ∧ (updWarp s w f).moves = s.moves ∧ (updWarp s w f).moveAsks = s.moveAsks ∧
    (updWarp s w f).house = s.house ∧ (updWarp s w f).clocks = s.clocks :=
  ⟨rfl, rfl, rfl, rfl, rfl, rfl, rfl, rfl, rfl, rfl, rfl, rfl, rfl, rfl, rfl, rfl, rfl, rfl, rfl, rfl, rfl, rfl, rfl, rfl, rfl, rfl, rfl, rfl, rfl, rfl, rfl, rfl, rfl, rfl, rfl, rfl, rfl, rfl, rfl, rfl, rfl, rfl, rfl, rfl, rfl, rfl, rfl, rfl, rfl, rfl, rfl, rfl, rfl, rfl, rfl, rfl, rfl, rfl, rfl, rfl, rfl, rfl, rfl, rfl, rfl, rfl, rfl, rfl, rfl, rfl, rfl, rfl, rfl, rfl, rfl, rfl, rfl, rfl, rfl, rfl⟩

@[simp] theorem updSplit_warps (s : State) (w e : Nat) (f : Split → Split) : (updSplit s w e f).warps = s.warps.modify w fun x => x.setSplit e f := rfl

@[simp] theorem updSplit_other (s : State) (w e : Nat) (f : Split → Split) :
    (updSplit s w e f).agenda = s.agenda ∧ (updSplit s w e f).freeCount = s.freeCount ∧ (updSplit s w e f).focus = s.focus ∧
    (updSplit s w e f).runs = s.runs ∧ (updSplit s w e f).now = s.now ∧ (updSplit s w e f).nextId = s.nextId ∧
    (updSplit s w e f).seq = s.seq ∧ (updSplit s w e f).mem = s.mem ∧ (updSplit s w e f).sectors = s.sectors ∧
    (updSplit s w e f).backing = s.backing ∧ (updSplit s w e f).rowErrors = s.rowErrors ∧ (updSplit s w e f).banks = s.banks ∧
    (updSplit s w e f).acc = s.acc ∧ (updSplit s w e f).anchors = s.anchors ∧ (updSplit s w e f).accMarks = s.accMarks ∧
    (updSplit s w e f).scale = s.scale ∧ (updSplit s w e f).scaleMarks = s.scaleMarks ∧ (updSplit s w e f).spadMarks = s.spadMarks ∧
    (updSplit s w e f).cells = s.cells ∧ (updSplit s w e f).bscale = s.bscale ∧ (updSplit s w e f).checks = s.checks ∧
    (updSplit s w e f).queues = s.queues ∧ (updSplit s w e f).guard = s.guard ∧ (updSplit s w e f).remap = s.remap ∧
    (updSplit s w e f).launches = s.launches ∧ (updSplit s w e f).blocks = s.blocks ∧ (updSplit s w e f).saved = s.saved ∧
    (updSplit s w e f).cards = s.cards ∧ (updSplit s w e f).cardCtr = s.cardCtr ∧ (updSplit s w e f).engineErrors = s.engineErrors ∧
    (updSplit s w e f).barriers = s.barriers ∧ (updSplit s w e f).ctxs = s.ctxs ∧ (updSplit s w e f).tlb = s.tlb ∧
    (updSplit s w e f).icache = s.icache ∧ (updSplit s w e f).l1 = s.l1 ∧ (updSplit s w e f).place = s.place ∧
    (updSplit s w e f).sole = s.sole ∧ (updSplit s w e f).leases = s.leases ∧ (updSplit s w e f).pools = s.pools ∧
    (updSplit s w e f).zeroised = s.zeroised ∧ (updSplit s w e f).splits = s.splits ∧ (updSplit s w e f).lines = s.lines ∧
    (updSplit s w e f).contracts = s.contracts ∧ (updSplit s w e f).kv = s.kv ∧ (updSplit s w e f).tensors = s.tensors ∧
    (updSplit s w e f).net = s.net ∧ (updSplit s w e f).chans = s.chans ∧ (updSplit s w e f).fullQueues = s.fullQueues ∧
    (updSplit s w e f).seqs = s.seqs ∧ (updSplit s w e f).jitter = s.jitter ∧ (updSplit s w e f).logs = s.logs ∧
    (updSplit s w e f).injectors = s.injectors ∧ (updSplit s w e f).admitRegs = s.admitRegs ∧ (updSplit s w e f).peersDown = s.peersDown ∧
    (updSplit s w e f).peersRefusing = s.peersRefusing ∧ (updSplit s w e f).peerReplies = s.peerReplies ∧ (updSplit s w e f).islandUse = s.islandUse ∧
    (updSplit s w e f).genReplays = s.genReplays ∧ (updSplit s w e f).races = s.races ∧ (updSplit s w e f).hostWrites = s.hostWrites ∧
    (updSplit s w e f).egress = s.egress ∧ (updSplit s w e f).replies = s.replies ∧ (updSplit s w e f).msix = s.msix ∧
    (updSplit s w e f).gcnt = s.gcnt ∧ (updSplit s w e f).bfail = s.bfail ∧ (updSplit s w e f).bspare = s.bspare ∧
    (updSplit s w e f).marks = s.marks ∧ (updSplit s w e f).life = s.life ∧ (updSplit s w e f).scrubReg = s.scrubReg ∧
    (updSplit s w e f).power = s.power ∧ (updSplit s w e f).islands = s.islands ∧ (updSplit s w e f).gates = s.gates ∧
    (updSplit s w e f).ran = s.ran ∧ (updSplit s w e f).limits = s.limits ∧ (updSplit s w e f).temps = s.temps ∧
    (updSplit s w e f).warns = s.warns ∧ (updSplit s w e f).moves = s.moves ∧ (updSplit s w e f).moveAsks = s.moveAsks ∧
    (updSplit s w e f).house = s.house ∧ (updSplit s w e f).clocks = s.clocks :=
  ⟨rfl, rfl, rfl, rfl, rfl, rfl, rfl, rfl, rfl, rfl, rfl, rfl, rfl, rfl, rfl, rfl, rfl, rfl, rfl, rfl, rfl, rfl, rfl, rfl, rfl, rfl, rfl, rfl, rfl, rfl, rfl, rfl, rfl, rfl, rfl, rfl, rfl, rfl, rfl, rfl, rfl, rfl, rfl, rfl, rfl, rfl, rfl, rfl, rfl, rfl, rfl, rfl, rfl, rfl, rfl, rfl, rfl, rfl, rfl, rfl, rfl, rfl, rfl, rfl, rfl, rfl, rfl, rfl, rfl, rfl, rfl, rfl, rfl, rfl, rfl, rfl, rfl, rfl, rfl, rfl⟩

@[simp] theorem recordGrade_warps (s : State) (w : Nat) (g : Word32) : (recordGrade s w g).warps = s.warps.modify w fun x => { x with grade := g } := rfl

@[simp] theorem recordGrade_other (s : State) (w : Nat) (g : Word32) :
    (recordGrade s w g).agenda = s.agenda ∧ (recordGrade s w g).freeCount = s.freeCount ∧ (recordGrade s w g).focus = s.focus ∧
    (recordGrade s w g).runs = s.runs ∧ (recordGrade s w g).now = s.now ∧ (recordGrade s w g).nextId = s.nextId ∧
    (recordGrade s w g).seq = s.seq ∧ (recordGrade s w g).mem = s.mem ∧ (recordGrade s w g).sectors = s.sectors ∧
    (recordGrade s w g).backing = s.backing ∧ (recordGrade s w g).rowErrors = s.rowErrors ∧ (recordGrade s w g).banks = s.banks ∧
    (recordGrade s w g).acc = s.acc ∧ (recordGrade s w g).anchors = s.anchors ∧ (recordGrade s w g).accMarks = s.accMarks ∧
    (recordGrade s w g).scale = s.scale ∧ (recordGrade s w g).scaleMarks = s.scaleMarks ∧ (recordGrade s w g).spadMarks = s.spadMarks ∧
    (recordGrade s w g).cells = s.cells ∧ (recordGrade s w g).bscale = s.bscale ∧ (recordGrade s w g).checks = s.checks ∧
    (recordGrade s w g).queues = s.queues ∧ (recordGrade s w g).guard = s.guard ∧ (recordGrade s w g).remap = s.remap ∧
    (recordGrade s w g).launches = s.launches ∧ (recordGrade s w g).blocks = s.blocks ∧ (recordGrade s w g).saved = s.saved ∧
    (recordGrade s w g).cards = s.cards ∧ (recordGrade s w g).cardCtr = s.cardCtr ∧ (recordGrade s w g).engineErrors = s.engineErrors ∧
    (recordGrade s w g).barriers = s.barriers ∧ (recordGrade s w g).ctxs = s.ctxs ∧ (recordGrade s w g).tlb = s.tlb ∧
    (recordGrade s w g).icache = s.icache ∧ (recordGrade s w g).l1 = s.l1 ∧ (recordGrade s w g).place = s.place ∧
    (recordGrade s w g).sole = s.sole ∧ (recordGrade s w g).leases = s.leases ∧ (recordGrade s w g).pools = s.pools ∧
    (recordGrade s w g).zeroised = s.zeroised ∧ (recordGrade s w g).splits = s.splits ∧ (recordGrade s w g).lines = s.lines ∧
    (recordGrade s w g).contracts = s.contracts ∧ (recordGrade s w g).kv = s.kv ∧ (recordGrade s w g).tensors = s.tensors ∧
    (recordGrade s w g).net = s.net ∧ (recordGrade s w g).chans = s.chans ∧ (recordGrade s w g).fullQueues = s.fullQueues ∧
    (recordGrade s w g).seqs = s.seqs ∧ (recordGrade s w g).jitter = s.jitter ∧ (recordGrade s w g).logs = s.logs ∧
    (recordGrade s w g).injectors = s.injectors ∧ (recordGrade s w g).admitRegs = s.admitRegs ∧ (recordGrade s w g).peersDown = s.peersDown ∧
    (recordGrade s w g).peersRefusing = s.peersRefusing ∧ (recordGrade s w g).peerReplies = s.peerReplies ∧ (recordGrade s w g).islandUse = s.islandUse ∧
    (recordGrade s w g).genReplays = s.genReplays ∧ (recordGrade s w g).races = s.races ∧ (recordGrade s w g).hostWrites = s.hostWrites ∧
    (recordGrade s w g).egress = s.egress ∧ (recordGrade s w g).replies = s.replies ∧ (recordGrade s w g).msix = s.msix ∧
    (recordGrade s w g).gcnt = s.gcnt ∧ (recordGrade s w g).bfail = s.bfail ∧ (recordGrade s w g).bspare = s.bspare ∧
    (recordGrade s w g).marks = s.marks ∧ (recordGrade s w g).life = s.life ∧ (recordGrade s w g).scrubReg = s.scrubReg ∧
    (recordGrade s w g).power = s.power ∧ (recordGrade s w g).islands = s.islands ∧ (recordGrade s w g).gates = s.gates ∧
    (recordGrade s w g).ran = s.ran ∧ (recordGrade s w g).limits = s.limits ∧ (recordGrade s w g).temps = s.temps ∧
    (recordGrade s w g).warns = s.warns ∧ (recordGrade s w g).moves = s.moves ∧ (recordGrade s w g).moveAsks = s.moveAsks ∧
    (recordGrade s w g).house = s.house ∧ (recordGrade s w g).clocks = s.clocks :=
  ⟨rfl, rfl, rfl, rfl, rfl, rfl, rfl, rfl, rfl, rfl, rfl, rfl, rfl, rfl, rfl, rfl, rfl, rfl, rfl, rfl, rfl, rfl, rfl, rfl, rfl, rfl, rfl, rfl, rfl, rfl, rfl, rfl, rfl, rfl, rfl, rfl, rfl, rfl, rfl, rfl, rfl, rfl, rfl, rfl, rfl, rfl, rfl, rfl, rfl, rfl, rfl, rfl, rfl, rfl, rfl, rfl, rfl, rfl, rfl, rfl, rfl, rfl, rfl, rfl, rfl, rfl, rfl, rfl, rfl, rfl, rfl, rfl, rfl, rfl, rfl, rfl, rfl, rfl, rfl, rfl⟩

@[simp] theorem updBlock_blocks (s : State) (b : Nat) (f : Block → Block) : (updBlock s b f).blocks = s.blocks.modify b f := rfl

@[simp] theorem updBlock_other (s : State) (b : Nat) (f : Block → Block) :
    (updBlock s b f).agenda = s.agenda ∧ (updBlock s b f).freeCount = s.freeCount ∧ (updBlock s b f).focus = s.focus ∧
    (updBlock s b f).runs = s.runs ∧ (updBlock s b f).now = s.now ∧ (updBlock s b f).nextId = s.nextId ∧
    (updBlock s b f).seq = s.seq ∧ (updBlock s b f).mem = s.mem ∧ (updBlock s b f).sectors = s.sectors ∧
    (updBlock s b f).backing = s.backing ∧ (updBlock s b f).rowErrors = s.rowErrors ∧ (updBlock s b f).banks = s.banks ∧
    (updBlock s b f).acc = s.acc ∧ (updBlock s b f).anchors = s.anchors ∧ (updBlock s b f).accMarks = s.accMarks ∧
    (updBlock s b f).scale = s.scale ∧ (updBlock s b f).scaleMarks = s.scaleMarks ∧ (updBlock s b f).spadMarks = s.spadMarks ∧
    (updBlock s b f).cells = s.cells ∧ (updBlock s b f).bscale = s.bscale ∧ (updBlock s b f).checks = s.checks ∧
    (updBlock s b f).queues = s.queues ∧ (updBlock s b f).guard = s.guard ∧ (updBlock s b f).remap = s.remap ∧
    (updBlock s b f).launches = s.launches ∧ (updBlock s b f).warps = s.warps ∧ (updBlock s b f).saved = s.saved ∧
    (updBlock s b f).cards = s.cards ∧ (updBlock s b f).cardCtr = s.cardCtr ∧ (updBlock s b f).engineErrors = s.engineErrors ∧
    (updBlock s b f).barriers = s.barriers ∧ (updBlock s b f).ctxs = s.ctxs ∧ (updBlock s b f).tlb = s.tlb ∧
    (updBlock s b f).icache = s.icache ∧ (updBlock s b f).l1 = s.l1 ∧ (updBlock s b f).place = s.place ∧
    (updBlock s b f).sole = s.sole ∧ (updBlock s b f).leases = s.leases ∧ (updBlock s b f).pools = s.pools ∧
    (updBlock s b f).zeroised = s.zeroised ∧ (updBlock s b f).splits = s.splits ∧ (updBlock s b f).lines = s.lines ∧
    (updBlock s b f).contracts = s.contracts ∧ (updBlock s b f).kv = s.kv ∧ (updBlock s b f).tensors = s.tensors ∧
    (updBlock s b f).net = s.net ∧ (updBlock s b f).chans = s.chans ∧ (updBlock s b f).fullQueues = s.fullQueues ∧
    (updBlock s b f).seqs = s.seqs ∧ (updBlock s b f).jitter = s.jitter ∧ (updBlock s b f).logs = s.logs ∧
    (updBlock s b f).injectors = s.injectors ∧ (updBlock s b f).admitRegs = s.admitRegs ∧ (updBlock s b f).peersDown = s.peersDown ∧
    (updBlock s b f).peersRefusing = s.peersRefusing ∧ (updBlock s b f).peerReplies = s.peerReplies ∧ (updBlock s b f).islandUse = s.islandUse ∧
    (updBlock s b f).genReplays = s.genReplays ∧ (updBlock s b f).races = s.races ∧ (updBlock s b f).hostWrites = s.hostWrites ∧
    (updBlock s b f).egress = s.egress ∧ (updBlock s b f).replies = s.replies ∧ (updBlock s b f).msix = s.msix ∧
    (updBlock s b f).gcnt = s.gcnt ∧ (updBlock s b f).bfail = s.bfail ∧ (updBlock s b f).bspare = s.bspare ∧
    (updBlock s b f).marks = s.marks ∧ (updBlock s b f).life = s.life ∧ (updBlock s b f).scrubReg = s.scrubReg ∧
    (updBlock s b f).power = s.power ∧ (updBlock s b f).islands = s.islands ∧ (updBlock s b f).gates = s.gates ∧
    (updBlock s b f).ran = s.ran ∧ (updBlock s b f).limits = s.limits ∧ (updBlock s b f).temps = s.temps ∧
    (updBlock s b f).warns = s.warns ∧ (updBlock s b f).moves = s.moves ∧ (updBlock s b f).moveAsks = s.moveAsks ∧
    (updBlock s b f).house = s.house ∧ (updBlock s b f).clocks = s.clocks :=
  ⟨rfl, rfl, rfl, rfl, rfl, rfl, rfl, rfl, rfl, rfl, rfl, rfl, rfl, rfl, rfl, rfl, rfl, rfl, rfl, rfl, rfl, rfl, rfl, rfl, rfl, rfl, rfl, rfl, rfl, rfl, rfl, rfl, rfl, rfl, rfl, rfl, rfl, rfl, rfl, rfl, rfl, rfl, rfl, rfl, rfl, rfl, rfl, rfl, rfl, rfl, rfl, rfl, rfl, rfl, rfl, rfl, rfl, rfl, rfl, rfl, rfl, rfl, rfl, rfl, rfl, rfl, rfl, rfl, rfl, rfl, rfl, rfl, rfl, rfl, rfl, rfl, rfl, rfl, rfl, rfl⟩

@[simp] theorem updLaunch_launches (s : State) (l : Nat) (f : Launch → Launch) : (updLaunch s l f).launches = s.launches.modify l f := rfl

@[simp] theorem updLaunch_other (s : State) (l : Nat) (f : Launch → Launch) :
    (updLaunch s l f).agenda = s.agenda ∧ (updLaunch s l f).freeCount = s.freeCount ∧ (updLaunch s l f).focus = s.focus ∧
    (updLaunch s l f).runs = s.runs ∧ (updLaunch s l f).now = s.now ∧ (updLaunch s l f).nextId = s.nextId ∧
    (updLaunch s l f).seq = s.seq ∧ (updLaunch s l f).mem = s.mem ∧ (updLaunch s l f).sectors = s.sectors ∧
    (updLaunch s l f).backing = s.backing ∧ (updLaunch s l f).rowErrors = s.rowErrors ∧ (updLaunch s l f).banks = s.banks ∧
    (updLaunch s l f).acc = s.acc ∧ (updLaunch s l f).anchors = s.anchors ∧ (updLaunch s l f).accMarks = s.accMarks ∧
    (updLaunch s l f).scale = s.scale ∧ (updLaunch s l f).scaleMarks = s.scaleMarks ∧ (updLaunch s l f).spadMarks = s.spadMarks ∧
    (updLaunch s l f).cells = s.cells ∧ (updLaunch s l f).bscale = s.bscale ∧ (updLaunch s l f).checks = s.checks ∧
    (updLaunch s l f).queues = s.queues ∧ (updLaunch s l f).guard = s.guard ∧ (updLaunch s l f).remap = s.remap ∧
    (updLaunch s l f).blocks = s.blocks ∧ (updLaunch s l f).warps = s.warps ∧ (updLaunch s l f).saved = s.saved ∧
    (updLaunch s l f).cards = s.cards ∧ (updLaunch s l f).cardCtr = s.cardCtr ∧ (updLaunch s l f).engineErrors = s.engineErrors ∧
    (updLaunch s l f).barriers = s.barriers ∧ (updLaunch s l f).ctxs = s.ctxs ∧ (updLaunch s l f).tlb = s.tlb ∧
    (updLaunch s l f).icache = s.icache ∧ (updLaunch s l f).l1 = s.l1 ∧ (updLaunch s l f).place = s.place ∧
    (updLaunch s l f).sole = s.sole ∧ (updLaunch s l f).leases = s.leases ∧ (updLaunch s l f).pools = s.pools ∧
    (updLaunch s l f).zeroised = s.zeroised ∧ (updLaunch s l f).splits = s.splits ∧ (updLaunch s l f).lines = s.lines ∧
    (updLaunch s l f).contracts = s.contracts ∧ (updLaunch s l f).kv = s.kv ∧ (updLaunch s l f).tensors = s.tensors ∧
    (updLaunch s l f).net = s.net ∧ (updLaunch s l f).chans = s.chans ∧ (updLaunch s l f).fullQueues = s.fullQueues ∧
    (updLaunch s l f).seqs = s.seqs ∧ (updLaunch s l f).jitter = s.jitter ∧ (updLaunch s l f).logs = s.logs ∧
    (updLaunch s l f).injectors = s.injectors ∧ (updLaunch s l f).admitRegs = s.admitRegs ∧ (updLaunch s l f).peersDown = s.peersDown ∧
    (updLaunch s l f).peersRefusing = s.peersRefusing ∧ (updLaunch s l f).peerReplies = s.peerReplies ∧ (updLaunch s l f).islandUse = s.islandUse ∧
    (updLaunch s l f).genReplays = s.genReplays ∧ (updLaunch s l f).races = s.races ∧ (updLaunch s l f).hostWrites = s.hostWrites ∧
    (updLaunch s l f).egress = s.egress ∧ (updLaunch s l f).replies = s.replies ∧ (updLaunch s l f).msix = s.msix ∧
    (updLaunch s l f).gcnt = s.gcnt ∧ (updLaunch s l f).bfail = s.bfail ∧ (updLaunch s l f).bspare = s.bspare ∧
    (updLaunch s l f).marks = s.marks ∧ (updLaunch s l f).life = s.life ∧ (updLaunch s l f).scrubReg = s.scrubReg ∧
    (updLaunch s l f).power = s.power ∧ (updLaunch s l f).islands = s.islands ∧ (updLaunch s l f).gates = s.gates ∧
    (updLaunch s l f).ran = s.ran ∧ (updLaunch s l f).limits = s.limits ∧ (updLaunch s l f).temps = s.temps ∧
    (updLaunch s l f).warns = s.warns ∧ (updLaunch s l f).moves = s.moves ∧ (updLaunch s l f).moveAsks = s.moveAsks ∧
    (updLaunch s l f).house = s.house ∧ (updLaunch s l f).clocks = s.clocks :=
  ⟨rfl, rfl, rfl, rfl, rfl, rfl, rfl, rfl, rfl, rfl, rfl, rfl, rfl, rfl, rfl, rfl, rfl, rfl, rfl, rfl, rfl, rfl, rfl, rfl, rfl, rfl, rfl, rfl, rfl, rfl, rfl, rfl, rfl, rfl, rfl, rfl, rfl, rfl, rfl, rfl, rfl, rfl, rfl, rfl, rfl, rfl, rfl, rfl, rfl, rfl, rfl, rfl, rfl, rfl, rfl, rfl, rfl, rfl, rfl, rfl, rfl, rfl, rfl, rfl, rfl, rfl, rfl, rfl, rfl, rfl, rfl, rfl, rfl, rfl, rfl, rfl, rfl, rfl, rfl, rfl⟩

@[simp] theorem setBarrier_barriers (s : State) (i : Nat) (k : Barrier) : (setBarrier s i k).barriers = s.barriers.put i (k.settle (movingCore s)) := rfl

@[simp] theorem setBarrier_other (s : State) (i : Nat) (k : Barrier) :
    (setBarrier s i k).agenda = s.agenda ∧ (setBarrier s i k).freeCount = s.freeCount ∧ (setBarrier s i k).focus = s.focus ∧
    (setBarrier s i k).runs = s.runs ∧ (setBarrier s i k).now = s.now ∧ (setBarrier s i k).nextId = s.nextId ∧
    (setBarrier s i k).seq = s.seq ∧ (setBarrier s i k).mem = s.mem ∧ (setBarrier s i k).sectors = s.sectors ∧
    (setBarrier s i k).backing = s.backing ∧ (setBarrier s i k).rowErrors = s.rowErrors ∧ (setBarrier s i k).banks = s.banks ∧
    (setBarrier s i k).acc = s.acc ∧ (setBarrier s i k).anchors = s.anchors ∧ (setBarrier s i k).accMarks = s.accMarks ∧
    (setBarrier s i k).scale = s.scale ∧ (setBarrier s i k).scaleMarks = s.scaleMarks ∧ (setBarrier s i k).spadMarks = s.spadMarks ∧
    (setBarrier s i k).cells = s.cells ∧ (setBarrier s i k).bscale = s.bscale ∧ (setBarrier s i k).checks = s.checks ∧
    (setBarrier s i k).queues = s.queues ∧ (setBarrier s i k).guard = s.guard ∧ (setBarrier s i k).remap = s.remap ∧
    (setBarrier s i k).launches = s.launches ∧ (setBarrier s i k).blocks = s.blocks ∧ (setBarrier s i k).warps = s.warps ∧
    (setBarrier s i k).saved = s.saved ∧ (setBarrier s i k).cards = s.cards ∧ (setBarrier s i k).cardCtr = s.cardCtr ∧
    (setBarrier s i k).engineErrors = s.engineErrors ∧ (setBarrier s i k).ctxs = s.ctxs ∧ (setBarrier s i k).tlb = s.tlb ∧
    (setBarrier s i k).icache = s.icache ∧ (setBarrier s i k).l1 = s.l1 ∧ (setBarrier s i k).place = s.place ∧
    (setBarrier s i k).sole = s.sole ∧ (setBarrier s i k).leases = s.leases ∧ (setBarrier s i k).pools = s.pools ∧
    (setBarrier s i k).zeroised = s.zeroised ∧ (setBarrier s i k).splits = s.splits ∧ (setBarrier s i k).lines = s.lines ∧
    (setBarrier s i k).contracts = s.contracts ∧ (setBarrier s i k).kv = s.kv ∧ (setBarrier s i k).tensors = s.tensors ∧
    (setBarrier s i k).net = s.net ∧ (setBarrier s i k).chans = s.chans ∧ (setBarrier s i k).fullQueues = s.fullQueues ∧
    (setBarrier s i k).seqs = s.seqs ∧ (setBarrier s i k).jitter = s.jitter ∧ (setBarrier s i k).logs = s.logs ∧
    (setBarrier s i k).injectors = s.injectors ∧ (setBarrier s i k).admitRegs = s.admitRegs ∧ (setBarrier s i k).peersDown = s.peersDown ∧
    (setBarrier s i k).peersRefusing = s.peersRefusing ∧ (setBarrier s i k).peerReplies = s.peerReplies ∧ (setBarrier s i k).islandUse = s.islandUse ∧
    (setBarrier s i k).genReplays = s.genReplays ∧ (setBarrier s i k).races = s.races ∧ (setBarrier s i k).hostWrites = s.hostWrites ∧
    (setBarrier s i k).egress = s.egress ∧ (setBarrier s i k).replies = s.replies ∧ (setBarrier s i k).msix = s.msix ∧
    (setBarrier s i k).gcnt = s.gcnt ∧ (setBarrier s i k).bfail = s.bfail ∧ (setBarrier s i k).bspare = s.bspare ∧
    (setBarrier s i k).marks = s.marks ∧ (setBarrier s i k).life = s.life ∧ (setBarrier s i k).scrubReg = s.scrubReg ∧
    (setBarrier s i k).power = s.power ∧ (setBarrier s i k).islands = s.islands ∧ (setBarrier s i k).gates = s.gates ∧
    (setBarrier s i k).ran = s.ran ∧ (setBarrier s i k).limits = s.limits ∧ (setBarrier s i k).temps = s.temps ∧
    (setBarrier s i k).warns = s.warns ∧ (setBarrier s i k).moves = s.moves ∧ (setBarrier s i k).moveAsks = s.moveAsks ∧
    (setBarrier s i k).house = s.house ∧ (setBarrier s i k).clocks = s.clocks :=
  ⟨rfl, rfl, rfl, rfl, rfl, rfl, rfl, rfl, rfl, rfl, rfl, rfl, rfl, rfl, rfl, rfl, rfl, rfl, rfl, rfl, rfl, rfl, rfl, rfl, rfl, rfl, rfl, rfl, rfl, rfl, rfl, rfl, rfl, rfl, rfl, rfl, rfl, rfl, rfl, rfl, rfl, rfl, rfl, rfl, rfl, rfl, rfl, rfl, rfl, rfl, rfl, rfl, rfl, rfl, rfl, rfl, rfl, rfl, rfl, rfl, rfl, rfl, rfl, rfl, rfl, rfl, rfl, rfl, rfl, rfl, rfl, rfl, rfl, rfl, rfl, rfl, rfl, rfl, rfl, rfl⟩

@[simp] theorem setSector_sectors (s : State) (sec : Nat) (e : Sector) : (setSector s sec e).sectors = s.sectors.putD .clean sec e := rfl

@[simp] theorem setSector_backing (s : State) (sec : Nat) (e : Sector) : (setSector s sec e).backing = s.backing.del sec := rfl

@[simp] theorem setSector_other (s : State) (sec : Nat) (e : Sector) :
    (setSector s sec e).agenda = s.agenda ∧ (setSector s sec e).freeCount = s.freeCount ∧ (setSector s sec e).focus = s.focus ∧
    (setSector s sec e).runs = s.runs ∧ (setSector s sec e).now = s.now ∧ (setSector s sec e).nextId = s.nextId ∧
    (setSector s sec e).seq = s.seq ∧ (setSector s sec e).mem = s.mem ∧ (setSector s sec e).rowErrors = s.rowErrors ∧
    (setSector s sec e).banks = s.banks ∧ (setSector s sec e).acc = s.acc ∧ (setSector s sec e).anchors = s.anchors ∧
    (setSector s sec e).accMarks = s.accMarks ∧ (setSector s sec e).scale = s.scale ∧ (setSector s sec e).scaleMarks = s.scaleMarks ∧
    (setSector s sec e).spadMarks = s.spadMarks ∧ (setSector s sec e).cells = s.cells ∧ (setSector s sec e).bscale = s.bscale ∧
    (setSector s sec e).checks = s.checks ∧ (setSector s sec e).queues = s.queues ∧ (setSector s sec e).guard = s.guard ∧
    (setSector s sec e).remap = s.remap ∧ (setSector s sec e).launches = s.launches ∧ (setSector s sec e).blocks = s.blocks ∧
    (setSector s sec e).warps = s.warps ∧ (setSector s sec e).saved = s.saved ∧ (setSector s sec e).cards = s.cards ∧
    (setSector s sec e).cardCtr = s.cardCtr ∧ (setSector s sec e).engineErrors = s.engineErrors ∧ (setSector s sec e).barriers = s.barriers ∧
    (setSector s sec e).ctxs = s.ctxs ∧ (setSector s sec e).tlb = s.tlb ∧ (setSector s sec e).icache = s.icache ∧
    (setSector s sec e).l1 = s.l1 ∧ (setSector s sec e).place = s.place ∧ (setSector s sec e).sole = s.sole ∧
    (setSector s sec e).leases = s.leases ∧ (setSector s sec e).pools = s.pools ∧ (setSector s sec e).zeroised = s.zeroised ∧
    (setSector s sec e).splits = s.splits ∧ (setSector s sec e).lines = s.lines ∧ (setSector s sec e).contracts = s.contracts ∧
    (setSector s sec e).kv = s.kv ∧ (setSector s sec e).tensors = s.tensors ∧ (setSector s sec e).net = s.net ∧
    (setSector s sec e).chans = s.chans ∧ (setSector s sec e).fullQueues = s.fullQueues ∧ (setSector s sec e).seqs = s.seqs ∧
    (setSector s sec e).jitter = s.jitter ∧ (setSector s sec e).logs = s.logs ∧ (setSector s sec e).injectors = s.injectors ∧
    (setSector s sec e).admitRegs = s.admitRegs ∧ (setSector s sec e).peersDown = s.peersDown ∧ (setSector s sec e).peersRefusing = s.peersRefusing ∧
    (setSector s sec e).peerReplies = s.peerReplies ∧ (setSector s sec e).islandUse = s.islandUse ∧ (setSector s sec e).genReplays = s.genReplays ∧
    (setSector s sec e).races = s.races ∧ (setSector s sec e).hostWrites = s.hostWrites ∧ (setSector s sec e).egress = s.egress ∧
    (setSector s sec e).replies = s.replies ∧ (setSector s sec e).msix = s.msix ∧ (setSector s sec e).gcnt = s.gcnt ∧
    (setSector s sec e).bfail = s.bfail ∧ (setSector s sec e).bspare = s.bspare ∧ (setSector s sec e).marks = s.marks ∧
    (setSector s sec e).life = s.life ∧ (setSector s sec e).scrubReg = s.scrubReg ∧ (setSector s sec e).power = s.power ∧
    (setSector s sec e).islands = s.islands ∧ (setSector s sec e).gates = s.gates ∧ (setSector s sec e).ran = s.ran ∧
    (setSector s sec e).limits = s.limits ∧ (setSector s sec e).temps = s.temps ∧ (setSector s sec e).warns = s.warns ∧
    (setSector s sec e).moves = s.moves ∧ (setSector s sec e).moveAsks = s.moveAsks ∧ (setSector s sec e).house = s.house ∧
    (setSector s sec e).clocks = s.clocks :=
  ⟨rfl, rfl, rfl, rfl, rfl, rfl, rfl, rfl, rfl, rfl, rfl, rfl, rfl, rfl, rfl, rfl, rfl, rfl, rfl, rfl, rfl, rfl, rfl, rfl, rfl, rfl, rfl, rfl, rfl, rfl, rfl, rfl, rfl, rfl, rfl, rfl, rfl, rfl, rfl, rfl, rfl, rfl, rfl, rfl, rfl, rfl, rfl, rfl, rfl, rfl, rfl, rfl, rfl, rfl, rfl, rfl, rfl, rfl, rfl, rfl, rfl, rfl, rfl, rfl, rfl, rfl, rfl, rfl, rfl, rfl, rfl, rfl, rfl, rfl, rfl, rfl, rfl, rfl, rfl⟩

@[simp] theorem countMark_marks (s : State) : (countMark s).marks = Nat.min (s.marks + 1) (2 ^ 64 - 1) := rfl

@[simp] theorem countMark_other (s : State) :
    (countMark s).agenda = s.agenda ∧ (countMark s).freeCount = s.freeCount ∧ (countMark s).focus = s.focus ∧
    (countMark s).runs = s.runs ∧ (countMark s).now = s.now ∧ (countMark s).nextId = s.nextId ∧
    (countMark s).seq = s.seq ∧ (countMark s).mem = s.mem ∧ (countMark s).sectors = s.sectors ∧
    (countMark s).backing = s.backing ∧ (countMark s).rowErrors = s.rowErrors ∧ (countMark s).banks = s.banks ∧
    (countMark s).acc = s.acc ∧ (countMark s).anchors = s.anchors ∧ (countMark s).accMarks = s.accMarks ∧
    (countMark s).scale = s.scale ∧ (countMark s).scaleMarks = s.scaleMarks ∧ (countMark s).spadMarks = s.spadMarks ∧
    (countMark s).cells = s.cells ∧ (countMark s).bscale = s.bscale ∧ (countMark s).checks = s.checks ∧
    (countMark s).queues = s.queues ∧ (countMark s).guard = s.guard ∧ (countMark s).remap = s.remap ∧
    (countMark s).launches = s.launches ∧ (countMark s).blocks = s.blocks ∧ (countMark s).warps = s.warps ∧
    (countMark s).saved = s.saved ∧ (countMark s).cards = s.cards ∧ (countMark s).cardCtr = s.cardCtr ∧
    (countMark s).engineErrors = s.engineErrors ∧ (countMark s).barriers = s.barriers ∧ (countMark s).ctxs = s.ctxs ∧
    (countMark s).tlb = s.tlb ∧ (countMark s).icache = s.icache ∧ (countMark s).l1 = s.l1 ∧
    (countMark s).place = s.place ∧ (countMark s).sole = s.sole ∧ (countMark s).leases = s.leases ∧
    (countMark s).pools = s.pools ∧ (countMark s).zeroised = s.zeroised ∧ (countMark s).splits = s.splits ∧
    (countMark s).lines = s.lines ∧ (countMark s).contracts = s.contracts ∧ (countMark s).kv = s.kv ∧
    (countMark s).tensors = s.tensors ∧ (countMark s).net = s.net ∧ (countMark s).chans = s.chans ∧
    (countMark s).fullQueues = s.fullQueues ∧ (countMark s).seqs = s.seqs ∧ (countMark s).jitter = s.jitter ∧
    (countMark s).logs = s.logs ∧ (countMark s).injectors = s.injectors ∧ (countMark s).admitRegs = s.admitRegs ∧
    (countMark s).peersDown = s.peersDown ∧ (countMark s).peersRefusing = s.peersRefusing ∧ (countMark s).peerReplies = s.peerReplies ∧
    (countMark s).islandUse = s.islandUse ∧ (countMark s).genReplays = s.genReplays ∧ (countMark s).races = s.races ∧
    (countMark s).hostWrites = s.hostWrites ∧ (countMark s).egress = s.egress ∧ (countMark s).replies = s.replies ∧
    (countMark s).msix = s.msix ∧ (countMark s).gcnt = s.gcnt ∧ (countMark s).bfail = s.bfail ∧
    (countMark s).bspare = s.bspare ∧ (countMark s).life = s.life ∧ (countMark s).scrubReg = s.scrubReg ∧
    (countMark s).power = s.power ∧ (countMark s).islands = s.islands ∧ (countMark s).gates = s.gates ∧
    (countMark s).ran = s.ran ∧ (countMark s).limits = s.limits ∧ (countMark s).temps = s.temps ∧
    (countMark s).warns = s.warns ∧ (countMark s).moves = s.moves ∧ (countMark s).moveAsks = s.moveAsks ∧
    (countMark s).house = s.house ∧ (countMark s).clocks = s.clocks :=
  ⟨rfl, rfl, rfl, rfl, rfl, rfl, rfl, rfl, rfl, rfl, rfl, rfl, rfl, rfl, rfl, rfl, rfl, rfl, rfl, rfl, rfl, rfl, rfl, rfl, rfl, rfl, rfl, rfl, rfl, rfl, rfl, rfl, rfl, rfl, rfl, rfl, rfl, rfl, rfl, rfl, rfl, rfl, rfl, rfl, rfl, rfl, rfl, rfl, rfl, rfl, rfl, rfl, rfl, rfl, rfl, rfl, rfl, rfl, rfl, rfl, rfl, rfl, rfl, rfl, rfl, rfl, rfl, rfl, rfl, rfl, rfl, rfl, rfl, rfl, rfl, rfl, rfl, rfl, rfl, rfl⟩

@[simp] theorem notifyHost_msix (s : State) : (notifyHost s).msix = s.msix + 1 := rfl

@[simp] theorem notifyHost_other (s : State) :
    (notifyHost s).agenda = s.agenda ∧ (notifyHost s).freeCount = s.freeCount ∧ (notifyHost s).focus = s.focus ∧
    (notifyHost s).runs = s.runs ∧ (notifyHost s).now = s.now ∧ (notifyHost s).nextId = s.nextId ∧
    (notifyHost s).seq = s.seq ∧ (notifyHost s).mem = s.mem ∧ (notifyHost s).sectors = s.sectors ∧
    (notifyHost s).backing = s.backing ∧ (notifyHost s).rowErrors = s.rowErrors ∧ (notifyHost s).banks = s.banks ∧
    (notifyHost s).acc = s.acc ∧ (notifyHost s).anchors = s.anchors ∧ (notifyHost s).accMarks = s.accMarks ∧
    (notifyHost s).scale = s.scale ∧ (notifyHost s).scaleMarks = s.scaleMarks ∧ (notifyHost s).spadMarks = s.spadMarks ∧
    (notifyHost s).cells = s.cells ∧ (notifyHost s).bscale = s.bscale ∧ (notifyHost s).checks = s.checks ∧
    (notifyHost s).queues = s.queues ∧ (notifyHost s).guard = s.guard ∧ (notifyHost s).remap = s.remap ∧
    (notifyHost s).launches = s.launches ∧ (notifyHost s).blocks = s.blocks ∧ (notifyHost s).warps = s.warps ∧
    (notifyHost s).saved = s.saved ∧ (notifyHost s).cards = s.cards ∧ (notifyHost s).cardCtr = s.cardCtr ∧
    (notifyHost s).engineErrors = s.engineErrors ∧ (notifyHost s).barriers = s.barriers ∧ (notifyHost s).ctxs = s.ctxs ∧
    (notifyHost s).tlb = s.tlb ∧ (notifyHost s).icache = s.icache ∧ (notifyHost s).l1 = s.l1 ∧
    (notifyHost s).place = s.place ∧ (notifyHost s).sole = s.sole ∧ (notifyHost s).leases = s.leases ∧
    (notifyHost s).pools = s.pools ∧ (notifyHost s).zeroised = s.zeroised ∧ (notifyHost s).splits = s.splits ∧
    (notifyHost s).lines = s.lines ∧ (notifyHost s).contracts = s.contracts ∧ (notifyHost s).kv = s.kv ∧
    (notifyHost s).tensors = s.tensors ∧ (notifyHost s).net = s.net ∧ (notifyHost s).chans = s.chans ∧
    (notifyHost s).fullQueues = s.fullQueues ∧ (notifyHost s).seqs = s.seqs ∧ (notifyHost s).jitter = s.jitter ∧
    (notifyHost s).logs = s.logs ∧ (notifyHost s).injectors = s.injectors ∧ (notifyHost s).admitRegs = s.admitRegs ∧
    (notifyHost s).peersDown = s.peersDown ∧ (notifyHost s).peersRefusing = s.peersRefusing ∧ (notifyHost s).peerReplies = s.peerReplies ∧
    (notifyHost s).islandUse = s.islandUse ∧ (notifyHost s).genReplays = s.genReplays ∧ (notifyHost s).races = s.races ∧
    (notifyHost s).hostWrites = s.hostWrites ∧ (notifyHost s).egress = s.egress ∧ (notifyHost s).replies = s.replies ∧
    (notifyHost s).gcnt = s.gcnt ∧ (notifyHost s).bfail = s.bfail ∧ (notifyHost s).bspare = s.bspare ∧
    (notifyHost s).marks = s.marks ∧ (notifyHost s).life = s.life ∧ (notifyHost s).scrubReg = s.scrubReg ∧
    (notifyHost s).power = s.power ∧ (notifyHost s).islands = s.islands ∧ (notifyHost s).gates = s.gates ∧
    (notifyHost s).ran = s.ran ∧ (notifyHost s).limits = s.limits ∧ (notifyHost s).temps = s.temps ∧
    (notifyHost s).warns = s.warns ∧ (notifyHost s).moves = s.moves ∧ (notifyHost s).moveAsks = s.moveAsks ∧
    (notifyHost s).house = s.house ∧ (notifyHost s).clocks = s.clocks :=
  ⟨rfl, rfl, rfl, rfl, rfl, rfl, rfl, rfl, rfl, rfl, rfl, rfl, rfl, rfl, rfl, rfl, rfl, rfl, rfl, rfl, rfl, rfl, rfl, rfl, rfl, rfl, rfl, rfl, rfl, rfl, rfl, rfl, rfl, rfl, rfl, rfl, rfl, rfl, rfl, rfl, rfl, rfl, rfl, rfl, rfl, rfl, rfl, rfl, rfl, rfl, rfl, rfl, rfl, rfl, rfl, rfl, rfl, rfl, rfl, rfl, rfl, rfl, rfl, rfl, rfl, rfl, rfl, rfl, rfl, rfl, rfl, rfl, rfl, rfl, rfl, rfl, rfl, rfl, rfl, rfl⟩

@[simp] theorem freshWord_freeCount (s : State) : ((freshWord s).2).freeCount = s.freeCount + 1 := rfl

@[simp] theorem freshWord_other (s : State) :
    ((freshWord s).2).agenda = s.agenda ∧ ((freshWord s).2).focus = s.focus ∧ ((freshWord s).2).runs = s.runs ∧
    ((freshWord s).2).now = s.now ∧ ((freshWord s).2).nextId = s.nextId ∧ ((freshWord s).2).seq = s.seq ∧
    ((freshWord s).2).mem = s.mem ∧ ((freshWord s).2).sectors = s.sectors ∧ ((freshWord s).2).backing = s.backing ∧
    ((freshWord s).2).rowErrors = s.rowErrors ∧ ((freshWord s).2).banks = s.banks ∧ ((freshWord s).2).acc = s.acc ∧
    ((freshWord s).2).anchors = s.anchors ∧ ((freshWord s).2).accMarks = s.accMarks ∧ ((freshWord s).2).scale = s.scale ∧
    ((freshWord s).2).scaleMarks = s.scaleMarks ∧ ((freshWord s).2).spadMarks = s.spadMarks ∧ ((freshWord s).2).cells = s.cells ∧
    ((freshWord s).2).bscale = s.bscale ∧ ((freshWord s).2).checks = s.checks ∧ ((freshWord s).2).queues = s.queues ∧
    ((freshWord s).2).guard = s.guard ∧ ((freshWord s).2).remap = s.remap ∧ ((freshWord s).2).launches = s.launches ∧
    ((freshWord s).2).blocks = s.blocks ∧ ((freshWord s).2).warps = s.warps ∧ ((freshWord s).2).saved = s.saved ∧
    ((freshWord s).2).cards = s.cards ∧ ((freshWord s).2).cardCtr = s.cardCtr ∧ ((freshWord s).2).engineErrors = s.engineErrors ∧
    ((freshWord s).2).barriers = s.barriers ∧ ((freshWord s).2).ctxs = s.ctxs ∧ ((freshWord s).2).tlb = s.tlb ∧
    ((freshWord s).2).icache = s.icache ∧ ((freshWord s).2).l1 = s.l1 ∧ ((freshWord s).2).place = s.place ∧
    ((freshWord s).2).sole = s.sole ∧ ((freshWord s).2).leases = s.leases ∧ ((freshWord s).2).pools = s.pools ∧
    ((freshWord s).2).zeroised = s.zeroised ∧ ((freshWord s).2).splits = s.splits ∧ ((freshWord s).2).lines = s.lines ∧
    ((freshWord s).2).contracts = s.contracts ∧ ((freshWord s).2).kv = s.kv ∧ ((freshWord s).2).tensors = s.tensors ∧
    ((freshWord s).2).net = s.net ∧ ((freshWord s).2).chans = s.chans ∧ ((freshWord s).2).fullQueues = s.fullQueues ∧
    ((freshWord s).2).seqs = s.seqs ∧ ((freshWord s).2).jitter = s.jitter ∧ ((freshWord s).2).logs = s.logs ∧
    ((freshWord s).2).injectors = s.injectors ∧ ((freshWord s).2).admitRegs = s.admitRegs ∧ ((freshWord s).2).peersDown = s.peersDown ∧
    ((freshWord s).2).peersRefusing = s.peersRefusing ∧ ((freshWord s).2).peerReplies = s.peerReplies ∧ ((freshWord s).2).islandUse = s.islandUse ∧
    ((freshWord s).2).genReplays = s.genReplays ∧ ((freshWord s).2).races = s.races ∧ ((freshWord s).2).hostWrites = s.hostWrites ∧
    ((freshWord s).2).egress = s.egress ∧ ((freshWord s).2).replies = s.replies ∧ ((freshWord s).2).msix = s.msix ∧
    ((freshWord s).2).gcnt = s.gcnt ∧ ((freshWord s).2).bfail = s.bfail ∧ ((freshWord s).2).bspare = s.bspare ∧
    ((freshWord s).2).marks = s.marks ∧ ((freshWord s).2).life = s.life ∧ ((freshWord s).2).scrubReg = s.scrubReg ∧
    ((freshWord s).2).power = s.power ∧ ((freshWord s).2).islands = s.islands ∧ ((freshWord s).2).gates = s.gates ∧
    ((freshWord s).2).ran = s.ran ∧ ((freshWord s).2).limits = s.limits ∧ ((freshWord s).2).temps = s.temps ∧
    ((freshWord s).2).warns = s.warns ∧ ((freshWord s).2).moves = s.moves ∧ ((freshWord s).2).moveAsks = s.moveAsks ∧
    ((freshWord s).2).house = s.house ∧ ((freshWord s).2).clocks = s.clocks :=
  ⟨rfl, rfl, rfl, rfl, rfl, rfl, rfl, rfl, rfl, rfl, rfl, rfl, rfl, rfl, rfl, rfl, rfl, rfl, rfl, rfl, rfl, rfl, rfl, rfl, rfl, rfl, rfl, rfl, rfl, rfl, rfl, rfl, rfl, rfl, rfl, rfl, rfl, rfl, rfl, rfl, rfl, rfl, rfl, rfl, rfl, rfl, rfl, rfl, rfl, rfl, rfl, rfl, rfl, rfl, rfl, rfl, rfl, rfl, rfl, rfl, rfl, rfl, rfl, rfl, rfl, rfl, rfl, rfl, rfl, rfl, rfl, rfl, rfl, rfl, rfl, rfl, rfl, rfl, rfl, rfl⟩

@[simp] theorem setQueue_queues (s : State) (q : Nat) (r : LQueue) : (setQueue s q r).queues = s.queues.putD .reset q r := rfl

@[simp] theorem setQueue_other (s : State) (q : Nat) (r : LQueue) :
    (setQueue s q r).agenda = s.agenda ∧ (setQueue s q r).freeCount = s.freeCount ∧ (setQueue s q r).focus = s.focus ∧
    (setQueue s q r).runs = s.runs ∧ (setQueue s q r).now = s.now ∧ (setQueue s q r).nextId = s.nextId ∧
    (setQueue s q r).seq = s.seq ∧ (setQueue s q r).mem = s.mem ∧ (setQueue s q r).sectors = s.sectors ∧
    (setQueue s q r).backing = s.backing ∧ (setQueue s q r).rowErrors = s.rowErrors ∧ (setQueue s q r).banks = s.banks ∧
    (setQueue s q r).acc = s.acc ∧ (setQueue s q r).anchors = s.anchors ∧ (setQueue s q r).accMarks = s.accMarks ∧
    (setQueue s q r).scale = s.scale ∧ (setQueue s q r).scaleMarks = s.scaleMarks ∧ (setQueue s q r).spadMarks = s.spadMarks ∧
    (setQueue s q r).cells = s.cells ∧ (setQueue s q r).bscale = s.bscale ∧ (setQueue s q r).checks = s.checks ∧
    (setQueue s q r).guard = s.guard ∧ (setQueue s q r).remap = s.remap ∧ (setQueue s q r).launches = s.launches ∧
    (setQueue s q r).blocks = s.blocks ∧ (setQueue s q r).warps = s.warps ∧ (setQueue s q r).saved = s.saved ∧
    (setQueue s q r).cards = s.cards ∧ (setQueue s q r).cardCtr = s.cardCtr ∧ (setQueue s q r).engineErrors = s.engineErrors ∧
    (setQueue s q r).barriers = s.barriers ∧ (setQueue s q r).ctxs = s.ctxs ∧ (setQueue s q r).tlb = s.tlb ∧
    (setQueue s q r).icache = s.icache ∧ (setQueue s q r).l1 = s.l1 ∧ (setQueue s q r).place = s.place ∧
    (setQueue s q r).sole = s.sole ∧ (setQueue s q r).leases = s.leases ∧ (setQueue s q r).pools = s.pools ∧
    (setQueue s q r).zeroised = s.zeroised ∧ (setQueue s q r).splits = s.splits ∧ (setQueue s q r).lines = s.lines ∧
    (setQueue s q r).contracts = s.contracts ∧ (setQueue s q r).kv = s.kv ∧ (setQueue s q r).tensors = s.tensors ∧
    (setQueue s q r).net = s.net ∧ (setQueue s q r).chans = s.chans ∧ (setQueue s q r).fullQueues = s.fullQueues ∧
    (setQueue s q r).seqs = s.seqs ∧ (setQueue s q r).jitter = s.jitter ∧ (setQueue s q r).logs = s.logs ∧
    (setQueue s q r).injectors = s.injectors ∧ (setQueue s q r).admitRegs = s.admitRegs ∧ (setQueue s q r).peersDown = s.peersDown ∧
    (setQueue s q r).peersRefusing = s.peersRefusing ∧ (setQueue s q r).peerReplies = s.peerReplies ∧ (setQueue s q r).islandUse = s.islandUse ∧
    (setQueue s q r).genReplays = s.genReplays ∧ (setQueue s q r).races = s.races ∧ (setQueue s q r).hostWrites = s.hostWrites ∧
    (setQueue s q r).egress = s.egress ∧ (setQueue s q r).replies = s.replies ∧ (setQueue s q r).msix = s.msix ∧
    (setQueue s q r).gcnt = s.gcnt ∧ (setQueue s q r).bfail = s.bfail ∧ (setQueue s q r).bspare = s.bspare ∧
    (setQueue s q r).marks = s.marks ∧ (setQueue s q r).life = s.life ∧ (setQueue s q r).scrubReg = s.scrubReg ∧
    (setQueue s q r).power = s.power ∧ (setQueue s q r).islands = s.islands ∧ (setQueue s q r).gates = s.gates ∧
    (setQueue s q r).ran = s.ran ∧ (setQueue s q r).limits = s.limits ∧ (setQueue s q r).temps = s.temps ∧
    (setQueue s q r).warns = s.warns ∧ (setQueue s q r).moves = s.moves ∧ (setQueue s q r).moveAsks = s.moveAsks ∧
    (setQueue s q r).house = s.house ∧ (setQueue s q r).clocks = s.clocks :=
  ⟨rfl, rfl, rfl, rfl, rfl, rfl, rfl, rfl, rfl, rfl, rfl, rfl, rfl, rfl, rfl, rfl, rfl, rfl, rfl, rfl, rfl, rfl, rfl, rfl, rfl, rfl, rfl, rfl, rfl, rfl, rfl, rfl, rfl, rfl, rfl, rfl, rfl, rfl, rfl, rfl, rfl, rfl, rfl, rfl, rfl, rfl, rfl, rfl, rfl, rfl, rfl, rfl, rfl, rfl, rfl, rfl, rfl, rfl, rfl, rfl, rfl, rfl, rfl, rfl, rfl, rfl, rfl, rfl, rfl, rfl, rfl, rfl, rfl, rfl, rfl, rfl, rfl, rfl, rfl, rfl⟩

@[simp] theorem countLife_life (s : State) (k n : Nat) : (countLife s k n).life = s.life.put k (s.life.getD 0 k + n) := rfl

@[simp] theorem countLife_other (s : State) (k n : Nat) :
    (countLife s k n).agenda = s.agenda ∧ (countLife s k n).freeCount = s.freeCount ∧ (countLife s k n).focus = s.focus ∧
    (countLife s k n).runs = s.runs ∧ (countLife s k n).now = s.now ∧ (countLife s k n).nextId = s.nextId ∧
    (countLife s k n).seq = s.seq ∧ (countLife s k n).mem = s.mem ∧ (countLife s k n).sectors = s.sectors ∧
    (countLife s k n).backing = s.backing ∧ (countLife s k n).rowErrors = s.rowErrors ∧ (countLife s k n).banks = s.banks ∧
    (countLife s k n).acc = s.acc ∧ (countLife s k n).anchors = s.anchors ∧ (countLife s k n).accMarks = s.accMarks ∧
    (countLife s k n).scale = s.scale ∧ (countLife s k n).scaleMarks = s.scaleMarks ∧ (countLife s k n).spadMarks = s.spadMarks ∧
    (countLife s k n).cells = s.cells ∧ (countLife s k n).bscale = s.bscale ∧ (countLife s k n).checks = s.checks ∧
    (countLife s k n).queues = s.queues ∧ (countLife s k n).guard = s.guard ∧ (countLife s k n).remap = s.remap ∧
    (countLife s k n).launches = s.launches ∧ (countLife s k n).blocks = s.blocks ∧ (countLife s k n).warps = s.warps ∧
    (countLife s k n).saved = s.saved ∧ (countLife s k n).cards = s.cards ∧ (countLife s k n).cardCtr = s.cardCtr ∧
    (countLife s k n).engineErrors = s.engineErrors ∧ (countLife s k n).barriers = s.barriers ∧ (countLife s k n).ctxs = s.ctxs ∧
    (countLife s k n).tlb = s.tlb ∧ (countLife s k n).icache = s.icache ∧ (countLife s k n).l1 = s.l1 ∧
    (countLife s k n).place = s.place ∧ (countLife s k n).sole = s.sole ∧ (countLife s k n).leases = s.leases ∧
    (countLife s k n).pools = s.pools ∧ (countLife s k n).zeroised = s.zeroised ∧ (countLife s k n).splits = s.splits ∧
    (countLife s k n).lines = s.lines ∧ (countLife s k n).contracts = s.contracts ∧ (countLife s k n).kv = s.kv ∧
    (countLife s k n).tensors = s.tensors ∧ (countLife s k n).net = s.net ∧ (countLife s k n).chans = s.chans ∧
    (countLife s k n).fullQueues = s.fullQueues ∧ (countLife s k n).seqs = s.seqs ∧ (countLife s k n).jitter = s.jitter ∧
    (countLife s k n).logs = s.logs ∧ (countLife s k n).injectors = s.injectors ∧ (countLife s k n).admitRegs = s.admitRegs ∧
    (countLife s k n).peersDown = s.peersDown ∧ (countLife s k n).peersRefusing = s.peersRefusing ∧ (countLife s k n).peerReplies = s.peerReplies ∧
    (countLife s k n).islandUse = s.islandUse ∧ (countLife s k n).genReplays = s.genReplays ∧ (countLife s k n).races = s.races ∧
    (countLife s k n).hostWrites = s.hostWrites ∧ (countLife s k n).egress = s.egress ∧ (countLife s k n).replies = s.replies ∧
    (countLife s k n).msix = s.msix ∧ (countLife s k n).gcnt = s.gcnt ∧ (countLife s k n).bfail = s.bfail ∧
    (countLife s k n).bspare = s.bspare ∧ (countLife s k n).marks = s.marks ∧ (countLife s k n).scrubReg = s.scrubReg ∧
    (countLife s k n).power = s.power ∧ (countLife s k n).islands = s.islands ∧ (countLife s k n).gates = s.gates ∧
    (countLife s k n).ran = s.ran ∧ (countLife s k n).limits = s.limits ∧ (countLife s k n).temps = s.temps ∧
    (countLife s k n).warns = s.warns ∧ (countLife s k n).moves = s.moves ∧ (countLife s k n).moveAsks = s.moveAsks ∧
    (countLife s k n).house = s.house ∧ (countLife s k n).clocks = s.clocks :=
  ⟨rfl, rfl, rfl, rfl, rfl, rfl, rfl, rfl, rfl, rfl, rfl, rfl, rfl, rfl, rfl, rfl, rfl, rfl, rfl, rfl, rfl, rfl, rfl, rfl, rfl, rfl, rfl, rfl, rfl, rfl, rfl, rfl, rfl, rfl, rfl, rfl, rfl, rfl, rfl, rfl, rfl, rfl, rfl, rfl, rfl, rfl, rfl, rfl, rfl, rfl, rfl, rfl, rfl, rfl, rfl, rfl, rfl, rfl, rfl, rfl, rfl, rfl, rfl, rfl, rfl, rfl, rfl, rfl, rfl, rfl, rfl, rfl, rfl, rfl, rfl, rfl, rfl, rfl, rfl, rfl⟩

@[simp] theorem setCtx_ctxs (s : State) (slot : Nat) (c : Ctx) : (setCtx s slot c).ctxs = s.ctxs.putD .reset slot c := rfl

@[simp] theorem setCtx_other (s : State) (slot : Nat) (c : Ctx) :
    (setCtx s slot c).agenda = s.agenda ∧ (setCtx s slot c).freeCount = s.freeCount ∧ (setCtx s slot c).focus = s.focus ∧
    (setCtx s slot c).runs = s.runs ∧ (setCtx s slot c).now = s.now ∧ (setCtx s slot c).nextId = s.nextId ∧
    (setCtx s slot c).seq = s.seq ∧ (setCtx s slot c).mem = s.mem ∧ (setCtx s slot c).sectors = s.sectors ∧
    (setCtx s slot c).backing = s.backing ∧ (setCtx s slot c).rowErrors = s.rowErrors ∧ (setCtx s slot c).banks = s.banks ∧
    (setCtx s slot c).acc = s.acc ∧ (setCtx s slot c).anchors = s.anchors ∧ (setCtx s slot c).accMarks = s.accMarks ∧
    (setCtx s slot c).scale = s.scale ∧ (setCtx s slot c).scaleMarks = s.scaleMarks ∧ (setCtx s slot c).spadMarks = s.spadMarks ∧
    (setCtx s slot c).cells = s.cells ∧ (setCtx s slot c).bscale = s.bscale ∧ (setCtx s slot c).checks = s.checks ∧
    (setCtx s slot c).queues = s.queues ∧ (setCtx s slot c).guard = s.guard ∧ (setCtx s slot c).remap = s.remap ∧
    (setCtx s slot c).launches = s.launches ∧ (setCtx s slot c).blocks = s.blocks ∧ (setCtx s slot c).warps = s.warps ∧
    (setCtx s slot c).saved = s.saved ∧ (setCtx s slot c).cards = s.cards ∧ (setCtx s slot c).cardCtr = s.cardCtr ∧
    (setCtx s slot c).engineErrors = s.engineErrors ∧ (setCtx s slot c).barriers = s.barriers ∧ (setCtx s slot c).tlb = s.tlb ∧
    (setCtx s slot c).icache = s.icache ∧ (setCtx s slot c).l1 = s.l1 ∧ (setCtx s slot c).place = s.place ∧
    (setCtx s slot c).sole = s.sole ∧ (setCtx s slot c).leases = s.leases ∧ (setCtx s slot c).pools = s.pools ∧
    (setCtx s slot c).zeroised = s.zeroised ∧ (setCtx s slot c).splits = s.splits ∧ (setCtx s slot c).lines = s.lines ∧
    (setCtx s slot c).contracts = s.contracts ∧ (setCtx s slot c).kv = s.kv ∧ (setCtx s slot c).tensors = s.tensors ∧
    (setCtx s slot c).net = s.net ∧ (setCtx s slot c).chans = s.chans ∧ (setCtx s slot c).fullQueues = s.fullQueues ∧
    (setCtx s slot c).seqs = s.seqs ∧ (setCtx s slot c).jitter = s.jitter ∧ (setCtx s slot c).logs = s.logs ∧
    (setCtx s slot c).injectors = s.injectors ∧ (setCtx s slot c).admitRegs = s.admitRegs ∧ (setCtx s slot c).peersDown = s.peersDown ∧
    (setCtx s slot c).peersRefusing = s.peersRefusing ∧ (setCtx s slot c).peerReplies = s.peerReplies ∧ (setCtx s slot c).islandUse = s.islandUse ∧
    (setCtx s slot c).genReplays = s.genReplays ∧ (setCtx s slot c).races = s.races ∧ (setCtx s slot c).hostWrites = s.hostWrites ∧
    (setCtx s slot c).egress = s.egress ∧ (setCtx s slot c).replies = s.replies ∧ (setCtx s slot c).msix = s.msix ∧
    (setCtx s slot c).gcnt = s.gcnt ∧ (setCtx s slot c).bfail = s.bfail ∧ (setCtx s slot c).bspare = s.bspare ∧
    (setCtx s slot c).marks = s.marks ∧ (setCtx s slot c).life = s.life ∧ (setCtx s slot c).scrubReg = s.scrubReg ∧
    (setCtx s slot c).power = s.power ∧ (setCtx s slot c).islands = s.islands ∧ (setCtx s slot c).gates = s.gates ∧
    (setCtx s slot c).ran = s.ran ∧ (setCtx s slot c).limits = s.limits ∧ (setCtx s slot c).temps = s.temps ∧
    (setCtx s slot c).warns = s.warns ∧ (setCtx s slot c).moves = s.moves ∧ (setCtx s slot c).moveAsks = s.moveAsks ∧
    (setCtx s slot c).house = s.house ∧ (setCtx s slot c).clocks = s.clocks :=
  ⟨rfl, rfl, rfl, rfl, rfl, rfl, rfl, rfl, rfl, rfl, rfl, rfl, rfl, rfl, rfl, rfl, rfl, rfl, rfl, rfl, rfl, rfl, rfl, rfl, rfl, rfl, rfl, rfl, rfl, rfl, rfl, rfl, rfl, rfl, rfl, rfl, rfl, rfl, rfl, rfl, rfl, rfl, rfl, rfl, rfl, rfl, rfl, rfl, rfl, rfl, rfl, rfl, rfl, rfl, rfl, rfl, rfl, rfl, rfl, rfl, rfl, rfl, rfl, rfl, rfl, rfl, rfl, rfl, rfl, rfl, rfl, rfl, rfl, rfl, rfl, rfl, rfl, rfl, rfl, rfl⟩

@[simp] theorem updCtx_ctxs (s : State) (slot : Nat) (f : Ctx → Ctx) : (updCtx s slot f).ctxs = s.ctxs.putD .reset slot (f (ctxOf s slot)) := rfl

@[simp] theorem updCtx_other (s : State) (slot : Nat) (f : Ctx → Ctx) :
    (updCtx s slot f).agenda = s.agenda ∧ (updCtx s slot f).freeCount = s.freeCount ∧ (updCtx s slot f).focus = s.focus ∧
    (updCtx s slot f).runs = s.runs ∧ (updCtx s slot f).now = s.now ∧ (updCtx s slot f).nextId = s.nextId ∧
    (updCtx s slot f).seq = s.seq ∧ (updCtx s slot f).mem = s.mem ∧ (updCtx s slot f).sectors = s.sectors ∧
    (updCtx s slot f).backing = s.backing ∧ (updCtx s slot f).rowErrors = s.rowErrors ∧ (updCtx s slot f).banks = s.banks ∧
    (updCtx s slot f).acc = s.acc ∧ (updCtx s slot f).anchors = s.anchors ∧ (updCtx s slot f).accMarks = s.accMarks ∧
    (updCtx s slot f).scale = s.scale ∧ (updCtx s slot f).scaleMarks = s.scaleMarks ∧ (updCtx s slot f).spadMarks = s.spadMarks ∧
    (updCtx s slot f).cells = s.cells ∧ (updCtx s slot f).bscale = s.bscale ∧ (updCtx s slot f).checks = s.checks ∧
    (updCtx s slot f).queues = s.queues ∧ (updCtx s slot f).guard = s.guard ∧ (updCtx s slot f).remap = s.remap ∧
    (updCtx s slot f).launches = s.launches ∧ (updCtx s slot f).blocks = s.blocks ∧ (updCtx s slot f).warps = s.warps ∧
    (updCtx s slot f).saved = s.saved ∧ (updCtx s slot f).cards = s.cards ∧ (updCtx s slot f).cardCtr = s.cardCtr ∧
    (updCtx s slot f).engineErrors = s.engineErrors ∧ (updCtx s slot f).barriers = s.barriers ∧ (updCtx s slot f).tlb = s.tlb ∧
    (updCtx s slot f).icache = s.icache ∧ (updCtx s slot f).l1 = s.l1 ∧ (updCtx s slot f).place = s.place ∧
    (updCtx s slot f).sole = s.sole ∧ (updCtx s slot f).leases = s.leases ∧ (updCtx s slot f).pools = s.pools ∧
    (updCtx s slot f).zeroised = s.zeroised ∧ (updCtx s slot f).splits = s.splits ∧ (updCtx s slot f).lines = s.lines ∧
    (updCtx s slot f).contracts = s.contracts ∧ (updCtx s slot f).kv = s.kv ∧ (updCtx s slot f).tensors = s.tensors ∧
    (updCtx s slot f).net = s.net ∧ (updCtx s slot f).chans = s.chans ∧ (updCtx s slot f).fullQueues = s.fullQueues ∧
    (updCtx s slot f).seqs = s.seqs ∧ (updCtx s slot f).jitter = s.jitter ∧ (updCtx s slot f).logs = s.logs ∧
    (updCtx s slot f).injectors = s.injectors ∧ (updCtx s slot f).admitRegs = s.admitRegs ∧ (updCtx s slot f).peersDown = s.peersDown ∧
    (updCtx s slot f).peersRefusing = s.peersRefusing ∧ (updCtx s slot f).peerReplies = s.peerReplies ∧ (updCtx s slot f).islandUse = s.islandUse ∧
    (updCtx s slot f).genReplays = s.genReplays ∧ (updCtx s slot f).races = s.races ∧ (updCtx s slot f).hostWrites = s.hostWrites ∧
    (updCtx s slot f).egress = s.egress ∧ (updCtx s slot f).replies = s.replies ∧ (updCtx s slot f).msix = s.msix ∧
    (updCtx s slot f).gcnt = s.gcnt ∧ (updCtx s slot f).bfail = s.bfail ∧ (updCtx s slot f).bspare = s.bspare ∧
    (updCtx s slot f).marks = s.marks ∧ (updCtx s slot f).life = s.life ∧ (updCtx s slot f).scrubReg = s.scrubReg ∧
    (updCtx s slot f).power = s.power ∧ (updCtx s slot f).islands = s.islands ∧ (updCtx s slot f).gates = s.gates ∧
    (updCtx s slot f).ran = s.ran ∧ (updCtx s slot f).limits = s.limits ∧ (updCtx s slot f).temps = s.temps ∧
    (updCtx s slot f).warns = s.warns ∧ (updCtx s slot f).moves = s.moves ∧ (updCtx s slot f).moveAsks = s.moveAsks ∧
    (updCtx s slot f).house = s.house ∧ (updCtx s slot f).clocks = s.clocks :=
  ⟨rfl, rfl, rfl, rfl, rfl, rfl, rfl, rfl, rfl, rfl, rfl, rfl, rfl, rfl, rfl, rfl, rfl, rfl, rfl, rfl, rfl, rfl, rfl, rfl, rfl, rfl, rfl, rfl, rfl, rfl, rfl, rfl, rfl, rfl, rfl, rfl, rfl, rfl, rfl, rfl, rfl, rfl, rfl, rfl, rfl, rfl, rfl, rfl, rfl, rfl, rfl, rfl, rfl, rfl, rfl, rfl, rfl, rfl, rfl, rfl, rfl, rfl, rfl, rfl, rfl, rfl, rfl, rfl, rfl, rfl, rfl, rfl, rfl, rfl, rfl, rfl, rfl, rfl, rfl, rfl⟩

@[simp] theorem setPool_pools (s : State) (die : Nat) (p : Pool) : (setPool s die p).pools = s.pools.putD .reset die p := rfl

@[simp] theorem setPool_other (s : State) (die : Nat) (p : Pool) :
    (setPool s die p).agenda = s.agenda ∧ (setPool s die p).freeCount = s.freeCount ∧ (setPool s die p).focus = s.focus ∧
    (setPool s die p).runs = s.runs ∧ (setPool s die p).now = s.now ∧ (setPool s die p).nextId = s.nextId ∧
    (setPool s die p).seq = s.seq ∧ (setPool s die p).mem = s.mem ∧ (setPool s die p).sectors = s.sectors ∧
    (setPool s die p).backing = s.backing ∧ (setPool s die p).rowErrors = s.rowErrors ∧ (setPool s die p).banks = s.banks ∧
    (setPool s die p).acc = s.acc ∧ (setPool s die p).anchors = s.anchors ∧ (setPool s die p).accMarks = s.accMarks ∧
    (setPool s die p).scale = s.scale ∧ (setPool s die p).scaleMarks = s.scaleMarks ∧ (setPool s die p).spadMarks = s.spadMarks ∧
    (setPool s die p).cells = s.cells ∧ (setPool s die p).bscale = s.bscale ∧ (setPool s die p).checks = s.checks ∧
    (setPool s die p).queues = s.queues ∧ (setPool s die p).guard = s.guard ∧ (setPool s die p).remap = s.remap ∧
    (setPool s die p).launches = s.launches ∧ (setPool s die p).blocks = s.blocks ∧ (setPool s die p).warps = s.warps ∧
    (setPool s die p).saved = s.saved ∧ (setPool s die p).cards = s.cards ∧ (setPool s die p).cardCtr = s.cardCtr ∧
    (setPool s die p).engineErrors = s.engineErrors ∧ (setPool s die p).barriers = s.barriers ∧ (setPool s die p).ctxs = s.ctxs ∧
    (setPool s die p).tlb = s.tlb ∧ (setPool s die p).icache = s.icache ∧ (setPool s die p).l1 = s.l1 ∧
    (setPool s die p).place = s.place ∧ (setPool s die p).sole = s.sole ∧ (setPool s die p).leases = s.leases ∧
    (setPool s die p).zeroised = s.zeroised ∧ (setPool s die p).splits = s.splits ∧ (setPool s die p).lines = s.lines ∧
    (setPool s die p).contracts = s.contracts ∧ (setPool s die p).kv = s.kv ∧ (setPool s die p).tensors = s.tensors ∧
    (setPool s die p).net = s.net ∧ (setPool s die p).chans = s.chans ∧ (setPool s die p).fullQueues = s.fullQueues ∧
    (setPool s die p).seqs = s.seqs ∧ (setPool s die p).jitter = s.jitter ∧ (setPool s die p).logs = s.logs ∧
    (setPool s die p).injectors = s.injectors ∧ (setPool s die p).admitRegs = s.admitRegs ∧ (setPool s die p).peersDown = s.peersDown ∧
    (setPool s die p).peersRefusing = s.peersRefusing ∧ (setPool s die p).peerReplies = s.peerReplies ∧ (setPool s die p).islandUse = s.islandUse ∧
    (setPool s die p).genReplays = s.genReplays ∧ (setPool s die p).races = s.races ∧ (setPool s die p).hostWrites = s.hostWrites ∧
    (setPool s die p).egress = s.egress ∧ (setPool s die p).replies = s.replies ∧ (setPool s die p).msix = s.msix ∧
    (setPool s die p).gcnt = s.gcnt ∧ (setPool s die p).bfail = s.bfail ∧ (setPool s die p).bspare = s.bspare ∧
    (setPool s die p).marks = s.marks ∧ (setPool s die p).life = s.life ∧ (setPool s die p).scrubReg = s.scrubReg ∧
    (setPool s die p).power = s.power ∧ (setPool s die p).islands = s.islands ∧ (setPool s die p).gates = s.gates ∧
    (setPool s die p).ran = s.ran ∧ (setPool s die p).limits = s.limits ∧ (setPool s die p).temps = s.temps ∧
    (setPool s die p).warns = s.warns ∧ (setPool s die p).moves = s.moves ∧ (setPool s die p).moveAsks = s.moveAsks ∧
    (setPool s die p).house = s.house ∧ (setPool s die p).clocks = s.clocks :=
  ⟨rfl, rfl, rfl, rfl, rfl, rfl, rfl, rfl, rfl, rfl, rfl, rfl, rfl, rfl, rfl, rfl, rfl, rfl, rfl, rfl, rfl, rfl, rfl, rfl, rfl, rfl, rfl, rfl, rfl, rfl, rfl, rfl, rfl, rfl, rfl, rfl, rfl, rfl, rfl, rfl, rfl, rfl, rfl, rfl, rfl, rfl, rfl, rfl, rfl, rfl, rfl, rfl, rfl, rfl, rfl, rfl, rfl, rfl, rfl, rfl, rfl, rfl, rfl, rfl, rfl, rfl, rfl, rfl, rfl, rfl, rfl, rfl, rfl, rfl, rfl, rfl, rfl, rfl, rfl, rfl⟩

@[simp] theorem setInjector_injectors (s : State) (i : Nat) (j : Injector) : (setInjector s i j).injectors = s.injectors.putD .reset i j := rfl

@[simp] theorem setInjector_other (s : State) (i : Nat) (j : Injector) :
    (setInjector s i j).agenda = s.agenda ∧ (setInjector s i j).freeCount = s.freeCount ∧ (setInjector s i j).focus = s.focus ∧
    (setInjector s i j).runs = s.runs ∧ (setInjector s i j).now = s.now ∧ (setInjector s i j).nextId = s.nextId ∧
    (setInjector s i j).seq = s.seq ∧ (setInjector s i j).mem = s.mem ∧ (setInjector s i j).sectors = s.sectors ∧
    (setInjector s i j).backing = s.backing ∧ (setInjector s i j).rowErrors = s.rowErrors ∧ (setInjector s i j).banks = s.banks ∧
    (setInjector s i j).acc = s.acc ∧ (setInjector s i j).anchors = s.anchors ∧ (setInjector s i j).accMarks = s.accMarks ∧
    (setInjector s i j).scale = s.scale ∧ (setInjector s i j).scaleMarks = s.scaleMarks ∧ (setInjector s i j).spadMarks = s.spadMarks ∧
    (setInjector s i j).cells = s.cells ∧ (setInjector s i j).bscale = s.bscale ∧ (setInjector s i j).checks = s.checks ∧
    (setInjector s i j).queues = s.queues ∧ (setInjector s i j).guard = s.guard ∧ (setInjector s i j).remap = s.remap ∧
    (setInjector s i j).launches = s.launches ∧ (setInjector s i j).blocks = s.blocks ∧ (setInjector s i j).warps = s.warps ∧
    (setInjector s i j).saved = s.saved ∧ (setInjector s i j).cards = s.cards ∧ (setInjector s i j).cardCtr = s.cardCtr ∧
    (setInjector s i j).engineErrors = s.engineErrors ∧ (setInjector s i j).barriers = s.barriers ∧ (setInjector s i j).ctxs = s.ctxs ∧
    (setInjector s i j).tlb = s.tlb ∧ (setInjector s i j).icache = s.icache ∧ (setInjector s i j).l1 = s.l1 ∧
    (setInjector s i j).place = s.place ∧ (setInjector s i j).sole = s.sole ∧ (setInjector s i j).leases = s.leases ∧
    (setInjector s i j).pools = s.pools ∧ (setInjector s i j).zeroised = s.zeroised ∧ (setInjector s i j).splits = s.splits ∧
    (setInjector s i j).lines = s.lines ∧ (setInjector s i j).contracts = s.contracts ∧ (setInjector s i j).kv = s.kv ∧
    (setInjector s i j).tensors = s.tensors ∧ (setInjector s i j).net = s.net ∧ (setInjector s i j).chans = s.chans ∧
    (setInjector s i j).fullQueues = s.fullQueues ∧ (setInjector s i j).seqs = s.seqs ∧ (setInjector s i j).jitter = s.jitter ∧
    (setInjector s i j).logs = s.logs ∧ (setInjector s i j).admitRegs = s.admitRegs ∧ (setInjector s i j).peersDown = s.peersDown ∧
    (setInjector s i j).peersRefusing = s.peersRefusing ∧ (setInjector s i j).peerReplies = s.peerReplies ∧ (setInjector s i j).islandUse = s.islandUse ∧
    (setInjector s i j).genReplays = s.genReplays ∧ (setInjector s i j).races = s.races ∧ (setInjector s i j).hostWrites = s.hostWrites ∧
    (setInjector s i j).egress = s.egress ∧ (setInjector s i j).replies = s.replies ∧ (setInjector s i j).msix = s.msix ∧
    (setInjector s i j).gcnt = s.gcnt ∧ (setInjector s i j).bfail = s.bfail ∧ (setInjector s i j).bspare = s.bspare ∧
    (setInjector s i j).marks = s.marks ∧ (setInjector s i j).life = s.life ∧ (setInjector s i j).scrubReg = s.scrubReg ∧
    (setInjector s i j).power = s.power ∧ (setInjector s i j).islands = s.islands ∧ (setInjector s i j).gates = s.gates ∧
    (setInjector s i j).ran = s.ran ∧ (setInjector s i j).limits = s.limits ∧ (setInjector s i j).temps = s.temps ∧
    (setInjector s i j).warns = s.warns ∧ (setInjector s i j).moves = s.moves ∧ (setInjector s i j).moveAsks = s.moveAsks ∧
    (setInjector s i j).house = s.house ∧ (setInjector s i j).clocks = s.clocks :=
  ⟨rfl, rfl, rfl, rfl, rfl, rfl, rfl, rfl, rfl, rfl, rfl, rfl, rfl, rfl, rfl, rfl, rfl, rfl, rfl, rfl, rfl, rfl, rfl, rfl, rfl, rfl, rfl, rfl, rfl, rfl, rfl, rfl, rfl, rfl, rfl, rfl, rfl, rfl, rfl, rfl, rfl, rfl, rfl, rfl, rfl, rfl, rfl, rfl, rfl, rfl, rfl, rfl, rfl, rfl, rfl, rfl, rfl, rfl, rfl, rfl, rfl, rfl, rfl, rfl, rfl, rfl, rfl, rfl, rfl, rfl, rfl, rfl, rfl, rfl, rfl, rfl, rfl, rfl, rfl, rfl⟩

@[simp] theorem setNow_now (s : State) (t : Nat) : (setNow s t).now = Nat.max s.now t := rfl

@[simp] theorem setNow_other (s : State) (t : Nat) :
    (setNow s t).agenda = s.agenda ∧ (setNow s t).freeCount = s.freeCount ∧ (setNow s t).focus = s.focus ∧
    (setNow s t).runs = s.runs ∧ (setNow s t).nextId = s.nextId ∧ (setNow s t).seq = s.seq ∧
    (setNow s t).mem = s.mem ∧ (setNow s t).sectors = s.sectors ∧ (setNow s t).backing = s.backing ∧
    (setNow s t).rowErrors = s.rowErrors ∧ (setNow s t).banks = s.banks ∧ (setNow s t).acc = s.acc ∧
    (setNow s t).anchors = s.anchors ∧ (setNow s t).accMarks = s.accMarks ∧ (setNow s t).scale = s.scale ∧
    (setNow s t).scaleMarks = s.scaleMarks ∧ (setNow s t).spadMarks = s.spadMarks ∧ (setNow s t).cells = s.cells ∧
    (setNow s t).bscale = s.bscale ∧ (setNow s t).checks = s.checks ∧ (setNow s t).queues = s.queues ∧
    (setNow s t).guard = s.guard ∧ (setNow s t).remap = s.remap ∧ (setNow s t).launches = s.launches ∧
    (setNow s t).blocks = s.blocks ∧ (setNow s t).warps = s.warps ∧ (setNow s t).saved = s.saved ∧
    (setNow s t).cards = s.cards ∧ (setNow s t).cardCtr = s.cardCtr ∧ (setNow s t).engineErrors = s.engineErrors ∧
    (setNow s t).barriers = s.barriers ∧ (setNow s t).ctxs = s.ctxs ∧ (setNow s t).tlb = s.tlb ∧
    (setNow s t).icache = s.icache ∧ (setNow s t).l1 = s.l1 ∧ (setNow s t).place = s.place ∧
    (setNow s t).sole = s.sole ∧ (setNow s t).leases = s.leases ∧ (setNow s t).pools = s.pools ∧
    (setNow s t).zeroised = s.zeroised ∧ (setNow s t).splits = s.splits ∧ (setNow s t).lines = s.lines ∧
    (setNow s t).contracts = s.contracts ∧ (setNow s t).kv = s.kv ∧ (setNow s t).tensors = s.tensors ∧
    (setNow s t).net = s.net ∧ (setNow s t).chans = s.chans ∧ (setNow s t).fullQueues = s.fullQueues ∧
    (setNow s t).seqs = s.seqs ∧ (setNow s t).jitter = s.jitter ∧ (setNow s t).logs = s.logs ∧
    (setNow s t).injectors = s.injectors ∧ (setNow s t).admitRegs = s.admitRegs ∧ (setNow s t).peersDown = s.peersDown ∧
    (setNow s t).peersRefusing = s.peersRefusing ∧ (setNow s t).peerReplies = s.peerReplies ∧ (setNow s t).islandUse = s.islandUse ∧
    (setNow s t).genReplays = s.genReplays ∧ (setNow s t).races = s.races ∧ (setNow s t).hostWrites = s.hostWrites ∧
    (setNow s t).egress = s.egress ∧ (setNow s t).replies = s.replies ∧ (setNow s t).msix = s.msix ∧
    (setNow s t).gcnt = s.gcnt ∧ (setNow s t).bfail = s.bfail ∧ (setNow s t).bspare = s.bspare ∧
    (setNow s t).marks = s.marks ∧ (setNow s t).life = s.life ∧ (setNow s t).scrubReg = s.scrubReg ∧
    (setNow s t).power = s.power ∧ (setNow s t).islands = s.islands ∧ (setNow s t).gates = s.gates ∧
    (setNow s t).ran = s.ran ∧ (setNow s t).limits = s.limits ∧ (setNow s t).temps = s.temps ∧
    (setNow s t).warns = s.warns ∧ (setNow s t).moves = s.moves ∧ (setNow s t).moveAsks = s.moveAsks ∧
    (setNow s t).house = s.house ∧ (setNow s t).clocks = s.clocks :=
  ⟨rfl, rfl, rfl, rfl, rfl, rfl, rfl, rfl, rfl, rfl, rfl, rfl, rfl, rfl, rfl, rfl, rfl, rfl, rfl, rfl, rfl, rfl, rfl, rfl, rfl, rfl, rfl, rfl, rfl, rfl, rfl, rfl, rfl, rfl, rfl, rfl, rfl, rfl, rfl, rfl, rfl, rfl, rfl, rfl, rfl, rfl, rfl, rfl, rfl, rfl, rfl, rfl, rfl, rfl, rfl, rfl, rfl, rfl, rfl, rfl, rfl, rfl, rfl, rfl, rfl, rfl, rfl, rfl, rfl, rfl, rfl, rfl, rfl, rfl, rfl, rfl, rfl, rfl, rfl, rfl⟩

@[simp] theorem l1Drop_l1 (s : State) (core line : Nat) : (l1Drop s core line).l1 = s.l1.filter fun l => !(l.core == core && l.line == line) := rfl

@[simp] theorem l1Drop_other (s : State) (core line : Nat) :
    (l1Drop s core line).agenda = s.agenda ∧ (l1Drop s core line).freeCount = s.freeCount ∧ (l1Drop s core line).focus = s.focus ∧
    (l1Drop s core line).runs = s.runs ∧ (l1Drop s core line).now = s.now ∧ (l1Drop s core line).nextId = s.nextId ∧
    (l1Drop s core line).seq = s.seq ∧ (l1Drop s core line).mem = s.mem ∧ (l1Drop s core line).sectors = s.sectors ∧
    (l1Drop s core line).backing = s.backing ∧ (l1Drop s core line).rowErrors = s.rowErrors ∧ (l1Drop s core line).banks = s.banks ∧
    (l1Drop s core line).acc = s.acc ∧ (l1Drop s core line).anchors = s.anchors ∧ (l1Drop s core line).accMarks = s.accMarks ∧
    (l1Drop s core line).scale = s.scale ∧ (l1Drop s core line).scaleMarks = s.scaleMarks ∧ (l1Drop s core line).spadMarks = s.spadMarks ∧
    (l1Drop s core line).cells = s.cells ∧ (l1Drop s core line).bscale = s.bscale ∧ (l1Drop s core line).checks = s.checks ∧
    (l1Drop s core line).queues = s.queues ∧ (l1Drop s core line).guard = s.guard ∧ (l1Drop s core line).remap = s.remap ∧
    (l1Drop s core line).launches = s.launches ∧ (l1Drop s core line).blocks = s.blocks ∧ (l1Drop s core line).warps = s.warps ∧
    (l1Drop s core line).saved = s.saved ∧ (l1Drop s core line).cards = s.cards ∧ (l1Drop s core line).cardCtr = s.cardCtr ∧
    (l1Drop s core line).engineErrors = s.engineErrors ∧ (l1Drop s core line).barriers = s.barriers ∧ (l1Drop s core line).ctxs = s.ctxs ∧
    (l1Drop s core line).tlb = s.tlb ∧ (l1Drop s core line).icache = s.icache ∧ (l1Drop s core line).place = s.place ∧
    (l1Drop s core line).sole = s.sole ∧ (l1Drop s core line).leases = s.leases ∧ (l1Drop s core line).pools = s.pools ∧
    (l1Drop s core line).zeroised = s.zeroised ∧ (l1Drop s core line).splits = s.splits ∧ (l1Drop s core line).lines = s.lines ∧
    (l1Drop s core line).contracts = s.contracts ∧ (l1Drop s core line).kv = s.kv ∧ (l1Drop s core line).tensors = s.tensors ∧
    (l1Drop s core line).net = s.net ∧ (l1Drop s core line).chans = s.chans ∧ (l1Drop s core line).fullQueues = s.fullQueues ∧
    (l1Drop s core line).seqs = s.seqs ∧ (l1Drop s core line).jitter = s.jitter ∧ (l1Drop s core line).logs = s.logs ∧
    (l1Drop s core line).injectors = s.injectors ∧ (l1Drop s core line).admitRegs = s.admitRegs ∧ (l1Drop s core line).peersDown = s.peersDown ∧
    (l1Drop s core line).peersRefusing = s.peersRefusing ∧ (l1Drop s core line).peerReplies = s.peerReplies ∧ (l1Drop s core line).islandUse = s.islandUse ∧
    (l1Drop s core line).genReplays = s.genReplays ∧ (l1Drop s core line).races = s.races ∧ (l1Drop s core line).hostWrites = s.hostWrites ∧
    (l1Drop s core line).egress = s.egress ∧ (l1Drop s core line).replies = s.replies ∧ (l1Drop s core line).msix = s.msix ∧
    (l1Drop s core line).gcnt = s.gcnt ∧ (l1Drop s core line).bfail = s.bfail ∧ (l1Drop s core line).bspare = s.bspare ∧
    (l1Drop s core line).marks = s.marks ∧ (l1Drop s core line).life = s.life ∧ (l1Drop s core line).scrubReg = s.scrubReg ∧
    (l1Drop s core line).power = s.power ∧ (l1Drop s core line).islands = s.islands ∧ (l1Drop s core line).gates = s.gates ∧
    (l1Drop s core line).ran = s.ran ∧ (l1Drop s core line).limits = s.limits ∧ (l1Drop s core line).temps = s.temps ∧
    (l1Drop s core line).warns = s.warns ∧ (l1Drop s core line).moves = s.moves ∧ (l1Drop s core line).moveAsks = s.moveAsks ∧
    (l1Drop s core line).house = s.house ∧ (l1Drop s core line).clocks = s.clocks :=
  ⟨rfl, rfl, rfl, rfl, rfl, rfl, rfl, rfl, rfl, rfl, rfl, rfl, rfl, rfl, rfl, rfl, rfl, rfl, rfl, rfl, rfl, rfl, rfl, rfl, rfl, rfl, rfl, rfl, rfl, rfl, rfl, rfl, rfl, rfl, rfl, rfl, rfl, rfl, rfl, rfl, rfl, rfl, rfl, rfl, rfl, rfl, rfl, rfl, rfl, rfl, rfl, rfl, rfl, rfl, rfl, rfl, rfl, rfl, rfl, rfl, rfl, rfl, rfl, rfl, rfl, rfl, rfl, rfl, rfl, rfl, rfl, rfl, rfl, rfl, rfl, rfl, rfl, rfl, rfl, rfl⟩

@[simp] theorem l1Put_l1 (s : State) (l : L1Line) : (l1Put s l).l1 = (s.l1.filter fun k => !(k.core == l.core && k.line == l.line)) ++ [l] := rfl

@[simp] theorem l1Put_other (s : State) (l : L1Line) :
    (l1Put s l).agenda = s.agenda ∧ (l1Put s l).freeCount = s.freeCount ∧ (l1Put s l).focus = s.focus ∧
    (l1Put s l).runs = s.runs ∧ (l1Put s l).now = s.now ∧ (l1Put s l).nextId = s.nextId ∧
    (l1Put s l).seq = s.seq ∧ (l1Put s l).mem = s.mem ∧ (l1Put s l).sectors = s.sectors ∧
    (l1Put s l).backing = s.backing ∧ (l1Put s l).rowErrors = s.rowErrors ∧ (l1Put s l).banks = s.banks ∧
    (l1Put s l).acc = s.acc ∧ (l1Put s l).anchors = s.anchors ∧ (l1Put s l).accMarks = s.accMarks ∧
    (l1Put s l).scale = s.scale ∧ (l1Put s l).scaleMarks = s.scaleMarks ∧ (l1Put s l).spadMarks = s.spadMarks ∧
    (l1Put s l).cells = s.cells ∧ (l1Put s l).bscale = s.bscale ∧ (l1Put s l).checks = s.checks ∧
    (l1Put s l).queues = s.queues ∧ (l1Put s l).guard = s.guard ∧ (l1Put s l).remap = s.remap ∧
    (l1Put s l).launches = s.launches ∧ (l1Put s l).blocks = s.blocks ∧ (l1Put s l).warps = s.warps ∧
    (l1Put s l).saved = s.saved ∧ (l1Put s l).cards = s.cards ∧ (l1Put s l).cardCtr = s.cardCtr ∧
    (l1Put s l).engineErrors = s.engineErrors ∧ (l1Put s l).barriers = s.barriers ∧ (l1Put s l).ctxs = s.ctxs ∧
    (l1Put s l).tlb = s.tlb ∧ (l1Put s l).icache = s.icache ∧ (l1Put s l).place = s.place ∧
    (l1Put s l).sole = s.sole ∧ (l1Put s l).leases = s.leases ∧ (l1Put s l).pools = s.pools ∧
    (l1Put s l).zeroised = s.zeroised ∧ (l1Put s l).splits = s.splits ∧ (l1Put s l).lines = s.lines ∧
    (l1Put s l).contracts = s.contracts ∧ (l1Put s l).kv = s.kv ∧ (l1Put s l).tensors = s.tensors ∧
    (l1Put s l).net = s.net ∧ (l1Put s l).chans = s.chans ∧ (l1Put s l).fullQueues = s.fullQueues ∧
    (l1Put s l).seqs = s.seqs ∧ (l1Put s l).jitter = s.jitter ∧ (l1Put s l).logs = s.logs ∧
    (l1Put s l).injectors = s.injectors ∧ (l1Put s l).admitRegs = s.admitRegs ∧ (l1Put s l).peersDown = s.peersDown ∧
    (l1Put s l).peersRefusing = s.peersRefusing ∧ (l1Put s l).peerReplies = s.peerReplies ∧ (l1Put s l).islandUse = s.islandUse ∧
    (l1Put s l).genReplays = s.genReplays ∧ (l1Put s l).races = s.races ∧ (l1Put s l).hostWrites = s.hostWrites ∧
    (l1Put s l).egress = s.egress ∧ (l1Put s l).replies = s.replies ∧ (l1Put s l).msix = s.msix ∧
    (l1Put s l).gcnt = s.gcnt ∧ (l1Put s l).bfail = s.bfail ∧ (l1Put s l).bspare = s.bspare ∧
    (l1Put s l).marks = s.marks ∧ (l1Put s l).life = s.life ∧ (l1Put s l).scrubReg = s.scrubReg ∧
    (l1Put s l).power = s.power ∧ (l1Put s l).islands = s.islands ∧ (l1Put s l).gates = s.gates ∧
    (l1Put s l).ran = s.ran ∧ (l1Put s l).limits = s.limits ∧ (l1Put s l).temps = s.temps ∧
    (l1Put s l).warns = s.warns ∧ (l1Put s l).moves = s.moves ∧ (l1Put s l).moveAsks = s.moveAsks ∧
    (l1Put s l).house = s.house ∧ (l1Put s l).clocks = s.clocks :=
  ⟨rfl, rfl, rfl, rfl, rfl, rfl, rfl, rfl, rfl, rfl, rfl, rfl, rfl, rfl, rfl, rfl, rfl, rfl, rfl, rfl, rfl, rfl, rfl, rfl, rfl, rfl, rfl, rfl, rfl, rfl, rfl, rfl, rfl, rfl, rfl, rfl, rfl, rfl, rfl, rfl, rfl, rfl, rfl, rfl, rfl, rfl, rfl, rfl, rfl, rfl, rfl, rfl, rfl, rfl, rfl, rfl, rfl, rfl, rfl, rfl, rfl, rfl, rfl, rfl, rfl, rfl, rfl, rfl, rfl, rfl, rfl, rfl, rfl, rfl, rfl, rfl, rfl, rfl, rfl, rfl⟩

@[simp] theorem clearFocus_other (s : State) (w : Nat) :
    (clearFocus s w).agenda = s.agenda ∧ (clearFocus s w).freeCount = s.freeCount ∧ (clearFocus s w).now = s.now ∧
    (clearFocus s w).nextId = s.nextId ∧ (clearFocus s w).seq = s.seq ∧ (clearFocus s w).mem = s.mem ∧
    (clearFocus s w).sectors = s.sectors ∧ (clearFocus s w).backing = s.backing ∧ (clearFocus s w).rowErrors = s.rowErrors ∧
    (clearFocus s w).banks = s.banks ∧ (clearFocus s w).acc = s.acc ∧ (clearFocus s w).anchors = s.anchors ∧
    (clearFocus s w).accMarks = s.accMarks ∧ (clearFocus s w).scale = s.scale ∧ (clearFocus s w).scaleMarks = s.scaleMarks ∧
    (clearFocus s w).spadMarks = s.spadMarks ∧ (clearFocus s w).cells = s.cells ∧ (clearFocus s w).bscale = s.bscale ∧
    (clearFocus s w).checks = s.checks ∧ (clearFocus s w).queues = s.queues ∧ (clearFocus s w).guard = s.guard ∧
    (clearFocus s w).remap = s.remap ∧ (clearFocus s w).launches = s.launches ∧ (clearFocus s w).blocks = s.blocks ∧
    (clearFocus s w).warps = s.warps ∧ (clearFocus s w).saved = s.saved ∧ (clearFocus s w).cards = s.cards ∧
    (clearFocus s w).cardCtr = s.cardCtr ∧ (clearFocus s w).engineErrors = s.engineErrors ∧ (clearFocus s w).barriers = s.barriers ∧
    (clearFocus s w).ctxs = s.ctxs ∧ (clearFocus s w).tlb = s.tlb ∧ (clearFocus s w).icache = s.icache ∧
    (clearFocus s w).l1 = s.l1 ∧ (clearFocus s w).place = s.place ∧ (clearFocus s w).sole = s.sole ∧
    (clearFocus s w).leases = s.leases ∧ (clearFocus s w).pools = s.pools ∧ (clearFocus s w).zeroised = s.zeroised ∧
    (clearFocus s w).splits = s.splits ∧ (clearFocus s w).lines = s.lines ∧ (clearFocus s w).contracts = s.contracts ∧
    (clearFocus s w).kv = s.kv ∧ (clearFocus s w).tensors = s.tensors ∧ (clearFocus s w).net = s.net ∧
    (clearFocus s w).chans = s.chans ∧ (clearFocus s w).fullQueues = s.fullQueues ∧ (clearFocus s w).seqs = s.seqs ∧
    (clearFocus s w).jitter = s.jitter ∧ (clearFocus s w).logs = s.logs ∧ (clearFocus s w).injectors = s.injectors ∧
    (clearFocus s w).admitRegs = s.admitRegs ∧ (clearFocus s w).peersDown = s.peersDown ∧ (clearFocus s w).peersRefusing = s.peersRefusing ∧
    (clearFocus s w).peerReplies = s.peerReplies ∧ (clearFocus s w).islandUse = s.islandUse ∧ (clearFocus s w).genReplays = s.genReplays ∧
    (clearFocus s w).races = s.races ∧ (clearFocus s w).hostWrites = s.hostWrites ∧ (clearFocus s w).egress = s.egress ∧
    (clearFocus s w).replies = s.replies ∧ (clearFocus s w).msix = s.msix ∧ (clearFocus s w).gcnt = s.gcnt ∧
    (clearFocus s w).bfail = s.bfail ∧ (clearFocus s w).bspare = s.bspare ∧ (clearFocus s w).marks = s.marks ∧
    (clearFocus s w).life = s.life ∧ (clearFocus s w).scrubReg = s.scrubReg ∧ (clearFocus s w).power = s.power ∧
    (clearFocus s w).islands = s.islands ∧ (clearFocus s w).gates = s.gates ∧ (clearFocus s w).ran = s.ran ∧
    (clearFocus s w).limits = s.limits ∧ (clearFocus s w).temps = s.temps ∧ (clearFocus s w).warns = s.warns ∧
    (clearFocus s w).moves = s.moves ∧ (clearFocus s w).moveAsks = s.moveAsks ∧ (clearFocus s w).house = s.house ∧
    (clearFocus s w).clocks = s.clocks :=
  ⟨rfl, rfl, rfl, rfl, rfl, rfl, rfl, rfl, rfl, rfl, rfl, rfl, rfl, rfl, rfl, rfl, rfl, rfl, rfl, rfl, rfl, rfl, rfl, rfl, rfl, rfl, rfl, rfl, rfl, rfl, rfl, rfl, rfl, rfl, rfl, rfl, rfl, rfl, rfl, rfl, rfl, rfl, rfl, rfl, rfl, rfl, rfl, rfl, rfl, rfl, rfl, rfl, rfl, rfl, rfl, rfl, rfl, rfl, rfl, rfl, rfl, rfl, rfl, rfl, rfl, rfl, rfl, rfl, rfl, rfl, rfl, rfl, rfl, rfl, rfl, rfl, rfl, rfl, rfl⟩

@[simp] theorem Warp.setSplit_table (x : Warp) (e : Nat) (f : Split → Split) : (x.setSplit e f).table = x.table.setSplit e f := rfl

@[simp] theorem Warp.setSplit_other (x : Warp) (e : Nat) (f : Split → Split) :
    (x.setSplit e f).core = x.core ∧ (x.setSplit e f).quarter = x.quarter ∧ (x.setSplit e f).slot = x.slot ∧
    (x.setSplit e f).launch = x.launch ∧ (x.setSplit e f).block = x.block ∧ (x.setSplit e f).num = x.num ∧
    (x.setSplit e f).item = x.item ∧ (x.setSplit e f).ctx = x.ctx ∧ (x.setSplit e f).asid = x.asid ∧
    (x.setSplit e f).role = x.role ∧ (x.setSplit e f).cls = x.cls ∧ (x.setSplit e f).msg = x.msg ∧
    (x.setSplit e f).allot = x.allot ∧ (x.setSplit e f).nextAllot = x.nextAllot ∧ (x.setSplit e f).v = x.v ∧
    (x.setSplit e f).sr = x.sr ∧ (x.setSplit e f).pr = x.pr ∧ (x.setSplit e f).flags = x.flags ∧
    (x.setSplit e f).mtgt = x.mtgt ∧ (x.setSplit e f).fault = x.fault ∧ (x.setSplit e f).faddr = x.faddr ∧
    (x.setSplit e f).grade = x.grade ∧ (x.setSplit e f).batch = x.batch ∧ (x.setSplit e f).stkIdx = x.stkIdx ∧
    (x.setSplit e f).tcount = x.tcount ∧ (x.setSplit e f).live = x.live ∧ (x.setSplit e f).handler = x.handler ∧
    (x.setSplit e f).pend = x.pend ∧ (x.setSplit e f).deferred = x.deferred ∧ (x.setSplit e f).faultList = x.faultList ∧
    (x.setSplit e f).hostFault = x.hostFault ∧ (x.setSplit e f).hostHeld = x.hostHeld ∧ (x.setSplit e f).region = x.region ∧
    (x.setSplit e f).cardFlags = x.cardFlags ∧ (x.setSplit e f).awayFlags = x.awayFlags ∧ (x.setSplit e f).awayBatches = x.awayBatches ∧
    (x.setSplit e f).preemptDue = x.preemptDue ∧ (x.setSplit e f).migrateDue = x.migrateDue ∧ (x.setSplit e f).stopped = x.stopped ∧
    (x.setSplit e f).passed = x.passed ∧ (x.setSplit e f).lastRun = x.lastRun ∧ (x.setSplit e f).backoff = x.backoff ∧
    (x.setSplit e f).taken = x.taken :=
  ⟨rfl, rfl, rfl, rfl, rfl, rfl, rfl, rfl, rfl, rfl, rfl, rfl, rfl, rfl, rfl, rfl, rfl, rfl, rfl, rfl, rfl, rfl, rfl, rfl, rfl, rfl, rfl, rfl, rfl, rfl, rfl, rfl, rfl, rfl, rfl, rfl, rfl, rfl, rfl, rfl, rfl, rfl, rfl⟩

end Sys2Proof.Machine
end

