-- ==== Sys2Proof/Laws/Home.lean ====
section
/-! SUPPORT. What accesses at a line's home may change, said once: nothing outside the store's own fields, memory in its
canonical form, and by a read no byte of memory unless a soft error has struck. -/

namespace Sys2Proof.Machine

/-- Nothing differs but the fields that accesses at home change. -/
def HomeOnly (s t : State) : Prop :=
  t = { s with mem := t.mem, sectors := t.sectors, backing := t.backing, seqs := t.seqs, lines := t.lines, contracts := t.contracts, leases := t.leases,
               place := t.place, sole := t.sole, gcnt := t.gcnt, msix := t.msix, marks := t.marks, freeCount := t.freeCount,
               logs := t.logs, jitter := t.jitter, injectors := t.injectors, life := t.life, genReplays := t.genReplays,
               islandUse := t.islandUse, egress := t.egress }

/-- What any access at home keeps. -/
structure AtHome (s t : State) : Prop where
  only : HomeOnly s t
  wf : s.mem.wf = true → t.mem.wf = true
  flips : noFlips s → noFlips t

/-- What a read at home keeps. -/
structure ReadAtHome (s t : State) : Prop extends AtHome s t where
  byte : noFlips s → ∀ a, t.mem.byte a = s.mem.byte a

theorem HomeOnly.trans {s t u : State} (h : HomeOnly s t) (k : HomeOnly t u) : HomeOnly s u := by
  unfold HomeOnly at *
  rw [k, h]

theorem AtHome.refl (s : State) : AtHome s s := ⟨rfl, id, id⟩

theorem AtHome.trans {s t u : State} (h : AtHome s t) (k : AtHome t u) : AtHome s u :=
  ⟨h.only.trans k.only, k.wf ∘ h.wf, k.flips ∘ h.flips⟩

theorem ReadAtHome.refl (s : State) : ReadAtHome s s := ⟨.refl s, fun _ _ => rfl⟩

theorem ReadAtHome.trans {s t u : State} (h : ReadAtHome s t) (k : ReadAtHome t u) : ReadAtHome s u :=
  ⟨h.toAtHome.trans k.toAtHome, fun hf a => (k.byte (h.flips hf) a).trans (h.byte hf a)⟩

/-- A change that leaves memory, the sectors and the injectors alone. -/
theorem ReadAtHome.of_same {s t : State} (h : HomeOnly s t) (hm : t.mem = s.mem) (hs : t.sectors = s.sectors)
    (hb : t.backing = s.backing) (hi : t.injectors = s.injectors) : ReadAtHome s t :=
  ⟨⟨h, by rw [hm]; exact id, by unfold noFlips; rw [hs, hb, hi]; exact id⟩, fun _ _ => by rw [hm]⟩

/-- A change of an injector, which leaves it as unarmed as it was. -/
theorem setInjector_read (s : State) (i : Nat) (j : Injector) (h : noFlips s → j.arm = false) :
    ReadAtHome s (setInjector s i j) where
  only := rfl
  wf := id
  flips hf := by
    refine ⟨hf.1, fun x hx => ?_⟩
    simp only [setInjector, Tbl.putD] at hx
    split at hx
    · exact hf.2 _ (List.mem_filter.mp hx).1
    · rcases Tbl.mem_put hx with rfl | hx
      · exact h hf
      · exact hf.2 _ hx
  byte _ _ := rfl

theorem notifyHost_read (s : State) : ReadAtHome s (notifyHost s) := .of_same rfl rfl rfl rfl rfl
theorem countMark_read (s : State) : ReadAtHome s (countMark s) := .of_same rfl rfl rfl rfl rfl
theorem freshWord_read (s : State) : ReadAtHome s (freshWord s).2 := .of_same rfl rfl rfl rfl rfl

theorem countGrade_read (s : State) (die cls nl g : Nat) : ReadAtHome s (countGrade s die cls nl g) := by
  unfold countGrade
  dsimp only
  split <;> exact .of_same rfl rfl rfl rfl rfl

theorem countDecode_read (s : State) (pa : Nat) (held bypass : Bool) (nl : Nat) (dec : Decode64) :
    ReadAtHome s (countDecode s pa held bypass nl dec) := by
  unfold countDecode
  dsimp only
  generalize (if bypass = true then 0 else nl) = n
  have h1 : ReadAtHome s (if dec.corrected then countGrade s (dieOf pa) (countClass pa held) n 0 else s) := by
    split
    · exact countGrade_read ..
    · exact .refl s
  generalize (if dec.corrected then countGrade s (dieOf pa) (countClass pa held) n 0 else s) = t at h1 ⊢
  generalize decodeGrade nl (pa / 64) dec = g
  split
  · exact .refl s
  · split
    · exact h1
    · exact h1.trans (countGrade_read ..)

theorem countWindow_read (s : State) (pa : Nat) (miss : Bool) : ReadAtHome s (countWindow s pa miss) := by
  unfold countWindow
  split
  · split <;> exact .of_same rfl rfl rfl rfl rfl
  · exact .refl s

theorem bumpPlace_read (s : State) (k : Nat) (up : Bool) (n : Nat) : ReadAtHome s (bumpPlace s k up n) := .of_same rfl rfl rfl rfl rfl

theorem endLease_read (s : State) (line : Nat) (how : LeaseEnd) : ReadAtHome s (endLease s line how) := by
  unfold endLease
  split
  · exact .refl s
  · dsimp only
    split
    · exact .of_same rfl rfl rfl rfl rfl
    · cases how <;> exact .of_same rfl rfl rfl rfl rfl

theorem reachHome_read (s : State) (core : Option Nat) (pa : Nat) : ReadAtHome s (reachHome s core pa) := by
  have go : ∀ t : State, ReadAtHome t (match t.sole.find? (pa / 128) with
      | some c => if core.isNone ∨ some c = core then t else { t with sole := t.sole.del (pa / 128) }
      | none => t) := by
    intro t
    split
    · split
      · exact .refl _
      · exact .of_same rfl rfl rfl rfl rfl
    · exact .refl _
  cases hl : s.leases.find? (fun l => l.line == pa / 128) with
  | none =>
    simp only [reachHome, hl]
    exact go s
  | some l =>
    simp only [reachHome, hl]
    by_cases h : some l.core = core
    · simp only [h, ↓reduceIte]
      exact go s
    · simp only [h, ↓reduceIte]
      exact (endLease_read s (pa / 128) .recalled).trans (go _)

/-- What a table finds under a key is listed in it. -/
theorem Tbl.mem_of_find? {α : Type} {m : Tbl α} {k : Nat} {v : α} (h : m.find? k = some v) : (k, v) ∈ m := by
  induction m with
  | nil => simp at h
  | cons p t ih =>
    obtain ⟨j, w⟩ := p
    simp only [Tbl.find?] at h
    split at h
    · rename_i hk
      simp only [Option.some.injEq] at h
      subst hk h
      exact List.mem_cons_self ..
    · exact List.mem_cons_of_mem _ (ih h)

theorem sectors_getD_flips {s : State} (h : noFlips s) (sec : Nat) : (s.sectors.getD .clean sec).flips = [] := by
  unfold Tbl.getD
  cases hf : s.sectors.find? sec with
  | none => rfl
  | some e => exact h.1 _ (List.mem_append_left _ (Tbl.mem_of_find? hf))

theorem backing_flips {s : State} (h : noFlips s) {sec : Nat} {e : Sector} (he : s.backing.find? sec = some e) : e.flips = [] :=
  h.1 _ (List.mem_append_right _ (Tbl.mem_of_find? he))

/-- What HBM keeps beneath a held sector is forgotten. -/
theorem delBacking_read (s : State) (sec : Nat) : ReadAtHome s { s with backing := s.backing.del sec } where
  only := rfl
  wf := id
  flips hf := by
    refine ⟨fun x hx => hf.1 _ ?_, hf.2⟩
    rcases List.mem_append.mp hx with h | h
    · exact List.mem_append_left _ h
    · exact List.mem_append_right _ (List.mem_filter.mp h).1
  byte _ _ := rfl

theorem setSector_home (s : State) (sec : Nat) (e : Sector) (h : noFlips s → e.flips = []) : AtHome s (setSector s sec e) where
  only := rfl
  wf := id
  flips hf := by
    refine ⟨fun x hx => ?_, hf.2⟩
    rcases List.mem_append.mp hx with hx | hx
    · simp only [setSector, Tbl.putD] at hx
      split at hx
      · exact hf.1 _ (List.mem_append_left _ (List.mem_filter.mp hx).1)
      · rcases Tbl.mem_put hx with rfl | hx
        · exact h hf
        · exact hf.1 _ (List.mem_append_left _ hx)
    · exact hf.1 _ (List.mem_append_right _ (List.mem_filter.mp hx).1)

theorem setSector_read (s : State) (sec : Nat) (e : Sector) (h : noFlips s → e.flips = []) :
    ReadAtHome s (setSector s sec e) := ⟨setSector_home s sec e h, fun _ _ => rfl⟩

theorem rewriteSector_read (s : State) (sec : Nat) : ReadAtHome s (rewriteSector s sec) := by
  unfold rewriteSector
  dsimp only
  split
  · exact .refl s
  · split
    · split
      · exact setSector_read _ _ _ fun _ => rfl
      · exact .refl s
    · split
      · refine setSector_read _ _ _ fun hf => ?_
        simp [sectors_getD_flips hf sec]
      · exact .refl s

theorem leaveSector_read (s : State) (l : HomeLine) (half : Nat) : ReadAtHome s (leaveSector s l half) := by
  unfold leaveSector
  dsimp only
  split
  · exact (delBacking_read ..).trans (rewriteSector_read ..)
  · split
    · rename_i e he
      exact setSector_read _ _ _ fun hf => backing_flips hf he
    · exact .refl s

theorem dropLine_read (s : State) (line : Nat) : ReadAtHome s (dropLine s line) := by
  unfold dropLine
  split
  · exact .refl s
  · exact ((leaveSector_read ..).trans (leaveSector_read ..)).trans (.of_same rfl rfl rfl rfl rfl)

theorem leaveStreamWay_read (s : State) : ReadAtHome s (leaveStreamWay s) := by
  unfold leaveStreamWay
  split
  · exact .of_same rfl rfl rfl rfl rfl
  · exact .refl s

theorem touchLine_read (s : State) (pa : Nat) (write : BitVec 2) : ReadAtHome s (touchLine s pa write).1 := by
  unfold touchLine
  split
  · exact .refl s
  · dsimp only
    split
    · exact .of_same rfl rfl rfl rfl rfl
    · split
      · exact .refl s
      · have h := leaveStreamWay_read s
        generalize leaveStreamWay s = u at h ⊢
        dsimp only
        generalize victimOf u _ _ = v
        have h2 : ReadAtHome u (match v with | some v => dropLine u v | none => u) := by
          cases v with
          | none => exact .refl u
          | some v => exact dropLine_read u v
        exact (h.trans h2).trans (.of_same rfl rfl rfl rfl rfl)

theorem decodeSector_clean (free : Word64) (nl sec data : Nat) : (decodeSector free nl sec data []).data = data := by
  unfold decodeSector
  split
  · simp
  · simp [flipBits]

theorem flipBits_nil (data : Nat) : flipBits data [] = data := rfl

theorem mismatchDecode_data (free : Word64) (nl data : Nat) : (mismatchDecode free nl data).data = data := by
  unfold mismatchDecode
  dsimp only
  split <;> rfl

/-- Writing back what a sector holds changes no byte. -/
theorem writeBackSame (s : State) (sec v : Nat) (h : noFlips s → v = sectorData s sec) :
    ReadAtHome s { s with mem := s.mem.writeNat (sec * 64) 64 v } where
  only := rfl
  wf hw := Memory.wf_writeNat _ _ _ hw
  flips := id
  byte hf a := by
    rw [h hf]
    exact Memory.byte_writeNat_readNat ..

/-- Opening a sector: a read, and without flipped bits the data as it stands. -/
theorem openSector_read (s : State) (pa nl : Nat) (held : Bool) (bypass : Bool := false) :
    ReadAtHome s (openSector s pa nl held bypass).1 ∧
      (noFlips s → (openSector s pa nl held bypass).2.1.data = sectorData s (pa / 64)) := by
  unfold openSector
  dsimp only
  have he : noFlips s → (s.sectors.getD Sector.clean (pa / 64)).flips = [] := fun hf => sectors_getD_flips hf _
  generalize s.sectors.getD Sector.clean (pa / 64) = e at he ⊢
  generalize (if e.nl = 8 then nl else e.nl) = own
  by_cases hm : e.mark = true
  · rw [if_pos hm]
    refine ⟨?_, fun _ => rfl⟩
    dsimp only
    split
    · exact setSector_read _ _ _ he
    · exact .refl s
  · rw [if_neg hm]
    by_cases hh : own = nl ∨ held = true
    · rw [if_pos hh]
      have hfree : ReadAtHome s (if e.flips.length ≤ 5 then (0#64, s) else freshWord s).2 := by
        split
        · exact .refl s
        · exact freshWord_read s
      generalize (if e.flips.length ≤ 5 then (0#64, s) else freshWord s) = r at hfree ⊢
      obtain ⟨free, s1⟩ := r
      simp only at hfree ⊢
      have hd : noFlips s → (decodeSector free own (pa / 64) (sectorData s (pa / 64)) e.flips).data = sectorData s (pa / 64) := by
        intro hf
        rw [he hf]
        exact decodeSector_clean ..
      generalize decodeSector free own (pa / 64) (sectorData s (pa / 64)) e.flips = dec at hd ⊢
      have hc := hfree.trans (countDecode_read s1 pa held bypass own dec)
      generalize countDecode s1 pa held bypass own dec = s2 at hc ⊢
      by_cases ho : own = nl
      · rw [if_pos ho]
        exact ⟨hc, hd⟩
      · rw [if_neg ho]
        refine ⟨?_, hd⟩
        have hw : ReadAtHome s { s2 with mem := s2.mem.writeNat (pa / 64 * 64) 64 dec.data } :=
          { only := hc.only.trans rfl
            wf := fun h => Memory.wf_writeNat _ _ _ (hc.wf h)
            flips := hc.flips
            byte := fun hf a => by
              have hb := hc.byte hf
              have q : sectorData s (pa / 64) = sectorData s2 (pa / 64) := by
                simp only [sectorData, Memory.readNat, Memory.bytes, hb]
              rw [hd hf, q]
              exact (Memory.byte_writeNat_readNat ..).trans (hb a) }
        exact hw.trans (setSector_read _ _ _ fun _ => rfl)
    · rw [if_neg hh]
      refine ⟨(freshWord_read s).trans (countDecode_read ..), fun hf => ?_⟩
      dsimp only
      rw [mismatchDecode_data, he hf]
      rfl

theorem takeLayout_home (s : State) (pa nl : Nat) (dec : Decode64) : AtHome s (takeLayout s pa nl dec) := by
  unfold takeLayout
  dsimp only
  split
  · exact .refl s
  · have h : AtHome s { s with mem := s.mem.writeNat (pa / 64 * 64) 64 dec.data } :=
      ⟨rfl, fun hw => Memory.wf_writeNat _ _ _ hw, id⟩
    exact h.trans (setSector_home _ _ _ fun _ => rfl)

theorem takeLayout_byte {s : State} {pa : Nat} (nl : Nat) {dec : Decode64} (h : dec.data = sectorData s (pa / 64)) (a : Nat) :
    (takeLayout s pa nl dec).mem.byte a = s.mem.byte a := by
  unfold takeLayout
  dsimp only
  split
  · rfl
  · show (s.mem.writeNat (pa / 64 * 64) 64 dec.data).byte a = _
    rw [h]
    exact Memory.byte_writeNat_readNat ..

theorem sectorData_read {s t : State} (h : ReadAtHome s t) (hf : noFlips s) (sec : Nat) : sectorData t sec = sectorData s sec := by
  simp only [sectorData, Memory.readNat, Memory.bytes, h.byte hf]

/-- A line that a read allocates may take the reading layout. -/
theorem openTake_read (s : State) (pa nl : Nat) (was : Bool) :
    ReadAtHome s (if !was && heldAt (openSector s pa nl was).1 (pa / 128) then
      takeLayout (openSector s pa nl was).1 pa nl (openSector s pa nl was).2.1 else (openSector s pa nl was).1) := by
  obtain ⟨h1, h2⟩ := openSector_read s pa nl was
  split
  · exact ⟨h1.toAtHome.trans (takeLayout_home ..), fun hf a =>
      (takeLayout_byte nl (by rw [h2 hf, sectorData_read h1 hf]) a).trans (h1.byte hf a)⟩
  · exact h1

theorem uncounted_read {s t : State} (h : ReadAtHome s t) : ReadAtHome s (uncounted s t) :=
  h.trans (.of_same rfl rfl rfl rfl rfl)

/-- No injector is armed: none has flips for a packet. -/
theorem injectorOf_arm {s : State} (h : noFlips s) (i : Nat) : (injectorOf s i).arm = false := by
  unfold injectorOf Tbl.getD
  cases hf : s.injectors.find? i with
  | none => rfl
  | some j => exact h.2 _ (Tbl.mem_of_find? hf)

/-- What a link does changes no byte and no sector. -/
structure AtLink (s t : State) : Prop where
  only : HomeOnly s t
  mem : t.mem = s.mem
  sectors : t.sectors = s.sectors
  backing : t.backing = s.backing

theorem AtLink.trans {s t u : State} (h : AtLink s t) (k : AtLink t u) : AtLink s u :=
  ⟨h.only.trans k.only, k.mem.trans h.mem, k.sectors.trans h.sectors, k.backing.trans h.backing⟩
theorem AtLink.refl (s : State) : AtLink s s := ⟨rfl, rfl, rfl, rfl⟩
theorem updLog_atLink (s : State) (p : Nat) (f : PortLog → PortLog) : AtLink s (updLog s p f) := ⟨rfl, rfl, rfl, rfl⟩
theorem setInjector_atLink (s : State) (i : Nat) (j : Injector) : AtLink s (setInjector s i j) := ⟨rfl, rfl, rfl, rfl⟩

theorem countFlits_atLink (s : State) (i n : Nat) : AtLink s (countFlits s i n) := by
  unfold countFlits
  dsimp only
  split
  · exact setInjector_atLink ..
  · exact .refl s

theorem countFlits_read (s : State) (i n : Nat) : ReadAtHome s (countFlits s i n) := by
  unfold countFlits
  dsimp only
  split
  · exact setInjector_read _ _ _ fun hf => injectorOf_arm hf i
  · exact .refl s

theorem replayOn_atLink (s : State) (i n : Nat) : AtLink s (replayOn s i n) :=
  AtLink.trans (t := countLife (drawJitter s (256 + i)) lifeReplays n) ⟨rfl, rfl, rfl, rfl⟩ (countFlits_atLink ..)

theorem crcReplay_atLink (s : State) (i behind : Nat) : AtLink s (crcReplay s i behind) :=
  (updLog_atLink ..).trans (replayOn_atLink ..)

theorem logIdent_atLink (s : State) (p : Nat) (c : IdentCheck) : AtLink s (logIdent s p c) := by
  cases c <;> exact ⟨rfl, rfl, rfl, rfl⟩

theorem passFlips_atLink (s : State) (i : Nat) (p : Passed) (flips : List Nat) : AtLink s (passFlips s i p flips).1 := by
  unfold passFlips
  dsimp only
  have h := logIdent_atLink s (256 + i) (identCheck flips)
  split
  · exact h
  · exact h.trans ⟨rfl, rfl, rfl, rfl⟩
  · exact h

theorem crossLink_atLink (n : Nat) (r : State × Passed) (i : Nat) : AtLink r.1 (crossLink n r i).1 := by
  obtain ⟨s, p⟩ := r
  unfold crossLink
  dsimp only
  split
  · exact .refl s
  · split
    · have h := setInjector_atLink s i { injectorOf s i with
        arm := false, fired := true, count := ((injectorOf s i).count + n) % 2 ^ 32 }
      split
      · exact (h.trans (updLog_atLink ..)).trans (replayOn_atLink ..)
      · exact h
      · split
        · exact h.trans (passFlips_atLink ..)
        · exact h.trans (crcReplay_atLink ..)
    · exact countFlits_atLink ..

/-- Crossing a link changes no byte; without an armed injector nothing befalls the packet. -/
theorem crossLink_read (n : Nat) (r : State × Passed) (i : Nat) :
    ReadAtHome r.1 (crossLink n r i).1 ∧ (noFlips r.1 → (crossLink n r i).2 = r.2) := by
  have hq : noFlips r.1 → ((crossLink n r i).1 = r.1 ∨ (crossLink n r i).1 = countFlits r.1 i n) ∧ (crossLink n r i).2 = r.2 := by
    intro hf
    by_cases h : r.2.lost = true <;> simp [crossLink, injectorOf_arm hf, h]
  have hm := crossLink_atLink n r i
  refine ⟨⟨⟨hm.only, by rw [hm.mem]; exact id, fun hf => ?_⟩, fun _ _ => by rw [hm.mem]⟩, fun hf => (hq hf).2⟩
  rcases (hq hf).1 with h | h
  · rw [h]; exact hf
  · rw [h]; exact (countFlits_read ..).flips hf

theorem crossLinks_read (s : State) (n : Nat) (l : List Nat) :
    ReadAtHome s (crossLinks s n l).1 ∧ (noFlips s → (crossLinks s n l).2 = .clean) := by
  have go : ∀ (l : List Nat) (r : State × Passed),
      ReadAtHome r.1 (l.foldl (crossLink n) r).1 ∧ (noFlips r.1 → (l.foldl (crossLink n) r).2 = r.2) := by
    intro l
    induction l with
    | nil => exact fun r => ⟨.refl _, fun _ => rfl⟩
    | cons i l ih =>
      intro r
      obtain ⟨h1, h2⟩ := crossLink_read n r i
      obtain ⟨k1, k2⟩ := ih (crossLink n r i)
      exact ⟨h1.trans k1, fun hf => (k2 (h1.flips hf)).trans (h2 hf)⟩
  exact ⟨(go l (s, .clean)).1, fun hf => (go l (s, .clean)).2 hf⟩

theorem sendPacket_read (port : Nat) (core : Option Nat) (n : Nat) (l : List Nat) (k : Nat) (s : State) :
    ReadAtHome s (sendPacket port core n l k s).1 ∧ (noFlips s → (sendPacket port core n l k s).2 = []) := by
  induction k generalizing s with
  | zero => exact ⟨.refl s, fun _ => rfl⟩
  | succ k ih =>
    obtain ⟨h1, h2⟩ := crossLinks_read s n l
    unfold sendPacket
    generalize crossLinks s n l = r at h1 h2 ⊢
    obtain ⟨t, p⟩ := r
    dsimp only at h1 h2 ⊢
    have again : ∀ u : State, ReadAtHome t u → ReadAtHome s (sendPacket port core n l k u).1 ∧
        (noFlips s → (sendPacket port core n l k u).2 = []) := fun u hu =>
      ⟨(h1.trans hu).trans (ih u).1, fun hf => (ih u).2 ((h1.trans hu).flips hf)⟩
    have here : ReadAtHome s t ∧ (noFlips s → p.flips = []) := ⟨h1, fun hf => by rw [h2 hf]; rfl⟩
    split
    · exact again _ (.of_same rfl rfl rfl rfl rfl)
    · split
      · split
        · exact here
        · exact again _ (.of_same rfl rfl rfl rfl rfl)
      · split
        · exact here
        · exact again _ (.refl t)
      · exact here

theorem travelFrom_read (s : State) (die port : Nat) (core : Option Nat) (pa : Nat) (write : Bool) :
    ReadAtHome s (travelFrom s die port core pa write).1 ∧ (noFlips s → (travelFrom s die port core pa write).2 = []) := by
  unfold travelFrom
  split
  · exact ⟨.refl s, fun _ => rfl⟩
  · dsimp only
    obtain ⟨h1, h2⟩ := sendPacket_read port core (Config.packetFlits write false) (wayLinks die pa).1 (s.injectors.length + 1) s
    generalize sendPacket port core _ (wayLinks die pa).1 _ s = r at h1 h2 ⊢
    obtain ⟨k1, k2⟩ := sendPacket_read (servedDie pa * 64) core (Config.packetFlits write true) (wayLinks die pa).2
      (s.injectors.length + 1) r.1
    refine ⟨h1.trans k1, fun hf => ?_⟩
    split
    · exact h2 hf
    · exact k2 (h1.flips hf)

theorem travel_read (s : State) (core : Option Nat) (pa : Nat) (write : Bool) :
    ReadAtHome s (travel s core pa write).1 ∧ (noFlips s → (travel s core pa write).2 = []) := by
  unfold travel
  split
  · exact ⟨.refl s, fun _ => rfl⟩
  · split
    · exact ⟨.refl s, fun _ => rfl⟩
    · exact travelFrom_read ..

theorem stampRequest_read (s : State) (core : Option Nat) (pa : Nat) : ReadAtHome s (stampRequest s core pa) := by
  unfold stampRequest
  split
  · split
    · exact .refl s
    · exact .of_same rfl rfl rfl rfl rfl
  · exact .refl s

theorem countUse_read (s : State) (core : Option Nat) (pa : Nat) : ReadAtHome s (countUse s core pa) := by
  unfold countUse
  split
  · split
    · exact .of_same rfl rfl rfl rfl rfl
    · exact .refl s
  · exact .refl s

theorem requestLine_read (s : State) (core : Option Nat) (pa : Nat) (write : BitVec 2) :
    ReadAtHome s (requestLine s core pa write).1 := by
  unfold requestLine
  have h := (((stampRequest_read s core pa).trans (reachHome_read _ core pa)).trans (countUse_read _ core pa)).trans
    (touchLine_read _ pa write)
  dsimp only
  split
  · exact h.trans (countWindow_read ..)
  · exact h

theorem recodeSector_read (s : State) (pa nl : Nat) (was : Bool) : ReadAtHome s (recodeSector s pa nl was) := by
  unfold recodeSector
  obtain ⟨h1, h2⟩ := openSector_read s pa nl was
  dsimp only
  split
  · exact .refl s
  split
  · exact setSector_read _ _ _ fun hf => sectors_getD_flips hf _
  · exact ⟨h1.toAtHome.trans (takeLayout_home ..), fun hf a =>
      (takeLayout_byte nl (by rw [h2 hf, sectorData_read h1 hf]) a).trans (h1.byte hf a)⟩

theorem recodeLine_read (s : State) (pa nl : Nat) (was : Bool) : ReadAtHome s (recodeLine s pa nl was) :=
  (recodeSector_read ..).trans (recodeSector_read ..)

theorem readPart_read (s : State) (pa n nl tp : Nat) (was : Bool) : ReadAtHome s (readPart s pa n nl tp was).1 := by
  unfold readPart
  split
  · exact .refl s
  · exact openTake_read ..

theorem spoilRead_read (s : State) (pa n nl tp : Nat) (was : Bool) (flips : List Nat) :
    ReadAtHome s (spoilRead s pa n nl tp was flips).1 := (freshWord_read s).trans (countDecode_read ..)

theorem foldl_read {α : Type} (f : State × Deliv → α → State × Deliv) (h : ∀ r a, ReadAtHome r.1 (f r a).1) (l : List α)
    (r : State × Deliv) : ReadAtHome r.1 (l.foldl f r).1 := by
  induction l generalizing r with
  | nil => exact .refl _
  | cons a l ih => exact (h r a).trans (ih _)

theorem readLinePart_read (s : State) (core : Option Nat) (pa n nl tp : Nat) :
    ReadAtHome s (readLinePart s core pa n nl tp).1 := by
  unfold readLinePart
  have h := (travel_read s core pa false).1
  generalize travel s core pa false = q at h ⊢
  obtain ⟨u, flips⟩ := q
  have h := h.trans (requestLine_read u core pa 0)
  dsimp only
  generalize requestLine u core pa 0 = q at h ⊢
  obtain ⟨t, was⟩ := q
  dsimp only
  refine (h.trans (foldl_read _ (fun r q => ?_) (sectorParts pa n) (t, Deliv.good []))).trans (recodeLine_read ..)
  have k := readPart_read r.1 q.1 q.2 nl tp was
  dsimp only
  split
  · exact k
  · exact k.trans (spoilRead_read ..)

/-- A read at home. -/
theorem readSector_read (s : State) (core : Option Nat) (pa n nl tp : Nat) :
    ReadAtHome s (readSector s core pa n nl tp).1 := readLinePart_read ..

theorem readHome_read (s : State) (core : Option Nat) (pa n nl tp : Nat) : ReadAtHome s (readHome s core pa n nl tp).1 := by
  unfold readHome
  refine foldl_read _ (fun r q => ?_) (lineParts pa n) (s, Deliv.good [])
  exact readLinePart_read r.1 core q.1 q.2 nl tp

theorem deviceSector_read (s : State) (pa n : Nat) (was : Bool) : ReadAtHome s (deviceSector s pa n was).1 := by
  unfold deviceSector
  split
  · exact .refl s
  · exact (openSector_read s pa _ was true).1

theorem drainEgress_home (s : State) : AtHome s (drainEgress s) := by
  have one : ∀ t : State, AtHome t (egressOne t) := fun t => by
    unfold egressOne
    split
    · exact .refl t
    · exact ⟨rfl, fun h => Memory.wf_setBytes _ _ h, id⟩
  have go : ∀ (l : List Egress) (t : State), AtHome t (l.foldl (fun s _ => egressOne s) t) := by
    intro l
    induction l with
    | nil => exact .refl
    | cons _ l ih => exact fun t => (one t).trans (ih _)
  exact go ..

/-- A device read of package storage changes no byte there; one of host memory goes behind the writes on their way. -/
theorem deviceDeliv_home (s : State) (pa n : Nat) : AtHome s (deviceDeliv s pa n).1 := by
  unfold deviceDeliv
  split
  · refine ReadAtHome.toAtHome (foldl_read _ (fun r q => ?_) (sectorParts pa n) (s, Deliv.good []))
    exact (requestLine_read r.1 none q.1 0).trans (deviceSector_read ..)
  · dsimp only
    split
    · exact drainEgress_home s
    · exact .refl s

theorem deviceDeliv_read (s : State) (pa n : Nat) (h : classOf pa ≠ 15) : ReadAtHome s (deviceDeliv s pa n).1 := by
  unfold deviceDeliv
  split
  · refine foldl_read _ (fun r q => ?_) (sectorParts pa n) (s, Deliv.good [])
    exact (requestLine_read r.1 none q.1 0).trans (deviceSector_read ..)
  · exact .refl s

theorem deviceRead_home (s : State) (pa n : Nat) : AtHome s (deviceRead s pa n).1 := deviceDeliv_home s pa n

/-! ## Writes -/

theorem setMasked_byte (m : Memory) (pa a : Nat) (upd : List (Option Byte)) :
    (setMasked m pa upd).byte a =
      if pa ≤ a ∧ a < pa + upd.length then (upd.getD (a - pa) none).getD (m.byte a) else m.byte a := by
  induction upd generalizing m pa with
  | nil => rw [if_neg (by simp)]; rfl
  | cons b bs ih =>
    have go : ∀ m' : Memory, (setMasked m' (pa + 1) bs).byte a =
        if pa + 1 ≤ a ∧ a < pa + 1 + bs.length then (bs.getD (a - (pa + 1)) none).getD (m'.byte a) else m'.byte a := fun m' => ih m' _
    have step : setMasked m pa (b :: bs) = setMasked (match b with | some x => m.setByte pa x | none => m) (pa + 1) bs := by
      cases b <;> rfl
    rw [step, go]
    simp only [List.length_cons]
    by_cases h : a = pa
    · subst h
      rw [if_neg (by omega), if_pos (by omega)]
      cases b <;> simp [Memory.byte_setByte]
    · have hm : (match b with | some x => m.setByte pa x | none => m).byte a = m.byte a := by
        cases b <;> simp [Memory.byte_setByte, h]
      rw [hm]
      by_cases h2 : pa + 1 ≤ a ∧ a < pa + 1 + bs.length
      · rw [if_pos h2, if_pos (by omega)]
        have : a - pa = (a - (pa + 1)) + 1 := by omega
        rw [this, List.getD_cons_succ]
      · rw [if_neg h2, if_neg (by omega)]

theorem setMasked_wf {m : Memory} (pa : Nat) (upd : List (Option Byte)) (h : m.wf = true) : (setMasked m pa upd).wf = true := by
  induction upd generalizing m pa with
  | nil => exact h
  | cons b bs ih =>
    cases b with
    | none => exact ih _ h
    | some x => exact ih _ (Memory.wf_setByte _ _ h)

theorem mergeSector_home (s : State) (sec nl onl tp : Nat) (upd : List (Option Byte)) (covers : Nat → Bool) (dec : Decode64)
    (marked : Bool) : AtHome s (mergeSector s sec nl onl tp upd covers dec marked) := by
  unfold mergeSector
  dsimp only
  have hb : AtHome s { s with mem := setMasked (s.mem.writeNat (sec * 64) 64 dec.data) (sec * 64) upd } :=
    ⟨rfl, fun h => setMasked_wf _ _ (Memory.wf_writeNat _ _ _ h), id⟩
  have hm : ∀ (t : State) (e : Sector), AtHome s t → e.flips = [] → AtHome s (setSector t sec e) := fun t e h he =>
    h.trans (setSector_home _ _ _ fun _ => he)
  have hc : ∀ t, AtHome s t → AtHome s (countMark t) := fun t h => h.trans (countMark_read t).toAtHome
  split
  · exact hc _ (hm _ _ hb rfl)
  · split
    · exact hm _ _ hb rfl
    · split
      · exact hm _ _ hb rfl
      · split
        · exact hc _ (hm _ _ hb rfl)
        · split
          · exact hm _ _ hb rfl
          · split
            · refine hm _ _ (hb.trans ⟨rfl, fun h => Memory.wf_writeNat _ _ _ h, id⟩) rfl
            · exact hc _ (hm _ _ hb rfl)

theorem maskedPart_home (s : State) (sec : Nat) (upd : List (Option Byte)) (covers : Nat → Bool) (nl tp : Nat) (was : Bool) :
    AtHome s (maskedPart s sec upd covers nl tp was) := by
  unfold maskedPart
  dsimp only
  have hw : ∀ t : State, AtHome t { t with mem := setMasked t.mem (sec * 64) upd } := fun t =>
    ⟨rfl, fun h => setMasked_wf _ _ h, id⟩
  split
  · exact .refl s
  split
  · exact (hw _).trans (setSector_home _ _ _ fun _ => rfl)
  · split
    · exact (hw _).trans (setSector_home _ _ _ fun hf => sectors_getD_flips hf _)
    · exact (openSector_read ..).1.toAtHome.trans (mergeSector_home ..)

theorem spoilSector_only (s : State) (sec : Nat) (flips : List Nat) : HomeOnly s (spoilSector s sec flips) := by
  unfold spoilSector
  split <;> rfl

theorem spoilSector_mem (s : State) (sec : Nat) (flips : List Nat) : (spoilSector s sec flips).mem = s.mem := by
  unfold spoilSector
  split <;> rfl

theorem maskedLine_home (s : State) (core : Option Nat) (line : Nat) (lo hi : List (Option Byte)) (nl tp : Nat) :
    AtHome s (maskedLine s core line lo hi nl tp) := by
  unfold maskedLine
  obtain ⟨h1, h2⟩ := travel_read s core (line * 128) true
  have go : ∀ (c : Bool) (t u : State), AtHome t u → AtHome t (if c = true then u else t) := by
    intro c t u h
    split
    · exact h
    · exact .refl t
  generalize travel s core (line * 128) true = q at h1 h2 ⊢
  obtain ⟨t, flips⟩ := q
  dsimp only at h1 h2 ⊢
  generalize hq : requestLine t core (line * 128) _ = q
  have h3 : ReadAtHome t q.1 := by rw [← hq]; exact requestLine_read ..
  obtain ⟨u, was⟩ := q
  dsimp only at h3 ⊢
  have h4 : AtHome t _ := ((h3.toAtHome.trans (go (lo.any Option.isSome) u _ (maskedPart_home u (line * 2) lo (lineWritten line lo hi) nl tp was))).trans
    (go (hi.any Option.isSome) _ _ (maskedPart_home _ (line * 2 + 1) hi (lineWritten line lo hi) nl tp was))).trans
      (recodeLine_read _ (line * 128) nl was).toAtHome
  refine ⟨?_, ?_, ?_⟩
  · exact (h1.only.trans h4.only).trans (spoilSector_only ..)
  · intro hw
    rw [spoilSector_mem]
    exact h4.wf (h1.wf hw)
  · intro hf
    rw [h2 hf]
    exact h4.flips (h1.flips hf)

theorem maskedSector_home (s : State) (core : Option Nat) (sec : Nat) (upd : List (Option Byte)) (nl tp : Nat) :
    AtHome s (maskedSector s core sec upd nl tp) := by
  unfold maskedSector
  split <;> exact maskedLine_home ..

theorem writeSector_home (s : State) (core : Option Nat) (pa : Nat) (bytes : List Byte) (nl tp : Nat) :
    AtHome s (writeSector s core pa bytes nl tp) := maskedSector_home ..

theorem foldl_home {α : Type} (f : State → α → State) (h : ∀ t a, AtHome t (f t a)) (l : List α) (s : State) :
    AtHome s (l.foldl f s) := by
  induction l generalizing s with
  | nil => exact .refl s
  | cons a l ih => exact (h s a).trans (ih _)

theorem writeHome_home (s : State) (core : Option Nat) (pa : Nat) (bytes : List Byte) (nl tp : Nat) :
    AtHome s (writeHome s core pa bytes nl tp) :=
  foldl_home _ (fun _ _ => maskedLine_home ..) _ _

theorem deviceWrite_home (s : State) (pa : Nat) (bytes : List Byte) : AtHome s (deviceWrite s pa bytes) := by
  unfold deviceWrite
  refine foldl_home _ (fun t q => ?_) _ _
  dsimp only
  split
  · exact writeSector_home ..
  · split
    · exact ⟨rfl, id, id⟩
    · exact ⟨rfl, fun h => Memory.wf_setBytes _ _ h, id⟩

end Sys2Proof.Machine
end

