-- ==== Sys2Proof/Laws/Issue.lean ====
section
/-! SUPPORT. What issue does, said once: a word that may take its effect takes it, and how each end of a body concludes. -/

namespace Sys2Proof.Machine

/-- A word that begins with some lane taking part runs its body in that state. -/
theorem issue_begins {s t : State} {i : Issuer} {ws : WordSpec} {body : State → Issuer → Lanes → WordEnd}
    (h : issuer s = some i) (hb : i.begins ws s = some t) (hg : i.acts ws) :
    issue ws body s = .next (i.conclude ws (i.lanes ws) (body t (i.within t) (i.lanes ws))) := by
  have hn : ¬(i.lanes ws = 0 ∧ ws.always = false) := by
    rintro ⟨h0, h1⟩
    rcases hg with hg | hg
    · exact hg h0
    · simp [h1] at hg
  unfold Issuer.begins at hb
  split at hb
  · rename_i hf
    simp only [Issuer.free, Bool.and_eq_true, Bool.not_eq_true', beq_iff_eq] at hf
    obtain ⟨⟨⟨⟨h1, h2⟩, h3⟩, h4⟩, h5⟩ := hf
    simp only [issue, h, Issuer.run, h1, h2, h3, h4, h5]
    simp only [Bool.false_eq_true, ↓reduceIte, ne_eq, not_true_eq_false, Host.Outcome.next.injEq]
    unfold Issuer.fed at hb
    unfold Issuer.takeAndAct
    split at hb
    · rename_i ht
      simp only [ht, ↓reduceIte]
      split at hb
      · simp at hb
      · rename_i hr
        simp only [hr, ↓reduceIte]
        cases hk : takeFlit s i.w <;> simp only [hk] at hb
        · simp only [Option.bind_some, Option.ite_none_right_eq_some, Option.some.injEq] at hb
          obtain ⟨hp, rfl⟩ := hb
          simp only [Issuer.act, hp, ne_eq, not_true_eq_false, false_and, ↓reduceIte, hn, Issuer.within]
        · simp at hb
        · simp at hb
    · rename_i ht
      simp only [ht]
      simp only [Option.bind_some, Option.ite_none_right_eq_some, Option.some.injEq] at hb
      obtain ⟨hp, rfl⟩ := hb
      simp only [Issuer.act, hp, ne_eq, not_true_eq_false, false_and, ↓reduceIte, hn, Issuer.within, Bool.false_eq_true]
  · simp at hb

/-- A word with no lane taking part, which does not act without one, is done. -/
theorem issue_idle {s t : State} {i : Issuer} {ws : WordSpec} {body : State → Issuer → Lanes → WordEnd}
    (h : issuer s = some i) (hb : i.begins ws s = some t) (h0 : i.lanes ws = 0) (ha : ws.always = false) :
    issue ws body s = .next (i.finish ws t 0) := by
  unfold Issuer.begins at hb
  split at hb
  · rename_i hf
    simp only [Issuer.free, Bool.and_eq_true, Bool.not_eq_true', beq_iff_eq] at hf
    obtain ⟨⟨⟨⟨h1, h2⟩, h3⟩, h4⟩, h5⟩ := hf
    simp only [issue, h, Issuer.run, h1, h2, h3, h4, h5]
    simp only [Bool.false_eq_true, ↓reduceIte, ne_eq, not_true_eq_false, Host.Outcome.next.injEq]
    unfold Issuer.fed at hb
    unfold Issuer.takeAndAct
    split at hb
    · rename_i ht
      simp [Issuer.takes, h0] at ht
    · rename_i ht
      simp only [ht]
      simp only [Option.bind_some, Option.ite_none_right_eq_some, Option.some.injEq] at hb
      obtain ⟨hp, rfl⟩ := hb
      simp only [Issuer.act, h0, hp, ne_eq, not_true_eq_false, false_and, ↓reduceIte, ha, and_self, Issuer.conclude,
        Issuer.finish, Bool.false_eq_true]
  · simp at hb

/-- A word always answers a next state when some split holds the issue slot. -/
theorem issue_next {s : State} {ws : WordSpec} {body : State → Issuer → Lanes → WordEnd} (h : (issuer s).isSome = true) :
    ∃ t, issue ws body s = .next t := by
  obtain ⟨i, hi⟩ := Option.isSome_iff_exists.mp h
  exact ⟨i.run ws body s, by simp [issue, hi]⟩

/-- What an instruction that issues a word does where the word takes its effect. -/
theorem completes_of {k : Instr} {ws : WordSpec} {body eff : State → Issuer → Lanes → WordEnd}
    {cond : State → Issuer → Lanes → Prop} {s : State} (hk : exec k s = issue ws body s)
    (he : ∀ t i g, cond t i g → body t i g = eff t i g) : CompletesWhen k ws cond eff s := by
  intro i t hi hb ha hc
  rw [hk, issue_begins hi hb ha, he _ _ _ hc]

/-- A word goes on with its lanes when each of them may make its access. -/
theorem withLanes_reaches {s : State} {i : Issuer} {k : AccessKind} {n : Nat} {g : Lanes} {addr : Nat → Word64}
    {body : State → List (Nat × Word64 × Target) → WordEnd} {r : State × List (Nat × Word64 × Target)}
    (h : reaches s i k n g addr = some r) : withLanes s i k n g addr body = body r.1 r.2 := by
  simp only [reaches, Bool.and_eq_true, Option.isNone_iff_eq_none, Option.ite_none_right_eq_some, Option.some.injEq] at h
  obtain ⟨⟨h1, h2⟩, rfl⟩ := h
  simp [withLanes, h1, h2]

/-- What an instruction does that goes on with its lanes when each of them may make its access. -/
theorem completesOn_of {m : Instr} {ws : WordSpec} {k : AccessKind} {n : Nat} {g : Issuer → Lanes → Lanes}
    {addr : Issuer → Nat → Word64} {cond : State → List (Nat × Word64 × Target) → Issuer → Prop}
    {body eff : State → List (Nat × Word64 × Target) → Issuer → Lanes → WordEnd} {s : State}
    (hm : exec m s = issue ws (fun t i l => withLanes t i k n (g i l) (addr i) fun t' ts => body t' ts i l) s)
    (he : ∀ t ts i l, cond t ts i → body t ts i l = eff t ts i l) :
    CompletesOnWhen m ws k n g addr cond eff s := by
  intro i t r hi hb ha hr hc
  rw [hm, issue_begins hi hb ha, withLanes_reaches hr, he _ _ _ _ hc]

end Sys2Proof.Machine
end

