-- ==== Sys2Proof/Laws/PerInstr.lean ====
section
/-! SUPPORT. Per instruction: what a well-formed instruction encodes to is one word and its literal, and the word parses to the
instruction. Events have no encoding. -/

set_option linter.unusedSimpArgs false

namespace Sys2Proof.Laws.Encodes

/-- A well-formed instruction encodes to words that parse to it. -/
def Statement (i : Instr) : Prop := i.wf = true → i.isEvent = false → Encoded i

theorem formInt (n : Nat) (h : formOf n = some .aInt) (w : Word64) (l : Option Word64) (hw : opcOf w = n) :
    formOf (opcOf w) ≠ none ∧ parseWord w l = decodeInt (AFmt.ofWord w) l ∧
      needsLiteral w = ((AFmt.ofWord w).ka == 3 || (AFmt.ofWord w).kb == 3 || (AFmt.ofWord w).kc == 3) := by
  simp [parseWord, needsLiteral, hw, h]

theorem formCmp (n : Nat) (h : formOf n = some .aCmp) (w : Word64) (l : Option Word64) (hw : opcOf w = n) :
    formOf (opcOf w) ≠ none ∧ parseWord w l = decodeCmp (AFmt.ofWord w) l ∧
      needsLiteral w = ((AFmt.ofWord w).ka == 3 || (AFmt.ofWord w).kb == 3 || (AFmt.ofWord w).kc == 3) := by
  simp [parseWord, needsLiteral, hw, h]

theorem formFloat (n : Nat) (h : formOf n = some .aFloat) (w : Word64) (l : Option Word64) (hw : opcOf w = n) :
    formOf (opcOf w) ≠ none ∧ parseWord w l = decodeFloat (AFmt.ofWord w) l ∧
      needsLiteral w = ((AFmt.ofWord w).ka == 3 || (AFmt.ofWord w).kb == 3 || (AFmt.ofWord w).kc == 3) := by
  simp [parseWord, needsLiteral, hw, h]

theorem formMove (n : Nat) (h : formOf n = some .aMove) (w : Word64) (l : Option Word64) (hw : opcOf w = n) :
    formOf (opcOf w) ≠ none ∧ parseWord w l = decodeMove (AFmt.ofWord w) l ∧
      needsLiteral w = ((AFmt.ofWord w).ka == 3 || (AFmt.ofWord w).kb == 3 || (AFmt.ofWord w).kc == 3) := by
  simp [parseWord, needsLiteral, hw, h]

theorem nop (g : Guard) : Statement (.nop g) := by
  intro hw _
  refine encoded_a rfl decodeInt (formInt 0x00 rfl) (oneLit_a (by rfl) (by rfl)) fun l ha hb hc => ?_
  show (fun f => (do
        chk (f.ty == 0 && f.d == 0 && f.dk == 0 && f.noA && f.noB && f.noC && f.mod0)
        return .nop f.g : Option Instr)) (fieldsA _ _ _ _ _ _ _ _ _) = _
  simp only [AFmt.d1, AFmt.d2, AFmt.d3, AFmt.d2p, fieldsA_g, fieldsA_ty, fieldsA_dk, fieldsA_d, fieldsA_dst, fieldsA_dstV, fieldsA_noA, fieldsA_noB, fieldsA_noC, fieldsA_predA, fieldsA_predB, fieldsA_predC, fieldsA_regA, fieldsA_mod, fieldsA_mod0, fieldsA_modBit, fieldsA_fmod, chk_true, Ty.ofCode_code, beq_self_eq_true, Bool.and_self, Option.bind_eq_bind, Option.bind_some, Option.pure_def, pField_pBits, fieldsA_dstP, fieldsA_srcA ha, fieldsA_srcB hb, fieldsA_srcC hc]

theorem yield (g : Guard) : Statement (.yield g) := by
  intro hw _
  refine encoded_a rfl decodeInt (formInt 0x01 rfl) (oneLit_a (by rfl) (by rfl)) fun l ha hb hc => ?_
  show (fun f => (do
        chk (f.ty == 0 && f.d == 0 && f.dk == 0 && f.noA && f.noB && f.noC && f.mod0)
        return .yield f.g : Option Instr)) (fieldsA _ _ _ _ _ _ _ _ _) = _
  simp only [AFmt.d1, AFmt.d2, AFmt.d3, AFmt.d2p, fieldsA_g, fieldsA_ty, fieldsA_dk, fieldsA_d, fieldsA_dst, fieldsA_dstV, fieldsA_noA, fieldsA_noB, fieldsA_noC, fieldsA_predA, fieldsA_predB, fieldsA_predC, fieldsA_regA, fieldsA_mod, fieldsA_mod0, fieldsA_modBit, fieldsA_fmod, chk_true, Ty.ofCode_code, beq_self_eq_true, Bool.and_self, Option.bind_eq_bind, Option.bind_some, Option.pure_def, pField_pBits, fieldsA_dstP, fieldsA_srcA ha, fieldsA_srcB hb, fieldsA_srcC hc]

theorem exit (g : Guard) : Statement (.exit g) := by
  intro hw _
  refine encoded_j rfl rfl ?_
  show (fun f : JFmt => (do chk (f.mode == 0 && f.reg == 0 && f.aux == 0 && f.tgt == 0); return .exit f.g : Option Instr)) _ = _
  simp only [JFmt.g_of, JFmt.div, BraMode.ofCode_code, vField_vBits, chk_true, beq_self_eq_true, Bool.and_self, Option.bind_eq_bind, Option.bind_some, Option.pure_def]

theorem brk (g : Guard) (imm : BitVec 16) : Statement (.brk g imm) := by
  intro hw _
  refine encoded_c rfl (.inl ⟨rfl, ?_⟩)
  show (fun f : CFmt => (do chk (f.zero true true true true true false); return .brk f.g f.imm : Option Instr)) _ = _
  simp only [CFmt.g_of, CFmt.zero, CFmt.dA, CFmt.dAB, CFmt.dBar, CFmt.aBar, CFmt.pcBar, vField_vBits, sField_sBits, pField_pBits, Bar.ofCode_code, Reuse.ofCode_code, chk_true, beq_self_eq_true, Bool.and_self, Bool.not_true, Bool.not_false, Bool.true_or, Bool.false_or, Option.bind_eq_bind, Option.bind_some, Option.pure_def]

theorem bra (g : Guard) (mode : BraMode) (tgt : BitVec 32) : Statement (.bra g mode tgt) := by
  intro hw _
  refine encoded_j rfl rfl ?_
  show (fun f : JFmt => (do chk (f.reg == 0 && f.aux == 0); return .bra f.g (← BraMode.ofCode f.mode) f.tgt : Option Instr)) _ = _
  simp only [JFmt.g_of, JFmt.div, BraMode.ofCode_code, vField_vBits, chk_true, beq_self_eq_true, Bool.and_self, Option.bind_eq_bind, Option.bind_some, Option.pure_def]

theorem brx (g : Guard) (div : Bool) (reg : Fin 256) : Statement (.brx g div reg) := by
  intro hw _
  refine encoded_j rfl rfl ?_
  show (fun f : JFmt => (do chk (f.aux == 0 && f.tgt == 0); return .brx f.g (← f.div) (vField f.reg) : Option Instr)) _ = _
  simp only [JFmt.g_of, JFmt.div, BraMode.ofCode_code, vField_vBits, chk_true, beq_self_eq_true, Bool.and_self, Option.bind_eq_bind, Option.bind_some, Option.pure_def]
  cases div <;> rfl

theorem call (g : Guard) (tgt : BitVec 32) : Statement (.call g tgt) := by
  intro hw _
  refine encoded_j rfl rfl ?_
  show (fun f : JFmt => (do chk (f.mode == 0 && f.reg == 0 && f.aux == 0); return .call f.g f.tgt : Option Instr)) _ = _
  simp only [JFmt.g_of, JFmt.div, BraMode.ofCode_code, vField_vBits, chk_true, beq_self_eq_true, Bool.and_self, Option.bind_eq_bind, Option.bind_some, Option.pure_def]

theorem callv (g : Guard) (div : Bool) (reg : Fin 256) : Statement (.callv g div reg) := by
  intro hw _
  refine encoded_j rfl rfl ?_
  show (fun f : JFmt => (do chk (f.aux == 0 && f.tgt == 0); return .callv f.g (← f.div) (vField f.reg) : Option Instr)) _ = _
  simp only [JFmt.g_of, JFmt.div, BraMode.ofCode_code, vField_vBits, chk_true, beq_self_eq_true, Bool.and_self, Option.bind_eq_bind, Option.bind_some, Option.pure_def]
  cases div <;> rfl

theorem ret (g : Guard) : Statement (.ret g) := by
  intro hw _
  refine encoded_j rfl rfl ?_
  show (fun f : JFmt => (do chk (f.mode == 0 && f.reg == 0 && f.aux == 0 && f.tgt == 0); return .ret f.g : Option Instr)) _ = _
  simp only [JFmt.g_of, JFmt.div, BraMode.ofCode_code, vField_vBits, chk_true, beq_self_eq_true, Bool.and_self, Option.bind_eq_bind, Option.bind_some, Option.pure_def]

theorem dispatch (g : Guard) (reg aux : Fin 256) (pd : Fin 8) : Statement (.dispatch g reg aux pd) := by
  intro hw _
  refine encoded_j rfl rfl ?_
  show (fun f : JFmt => (do
        chk (f.mode == 0 && f.tgt.extractLsb' 3 29 == 0)
        return .dispatch f.g (vField f.reg) (vField f.aux) ⟨(f.tgt.extractLsb' 0 3).toNat, (f.tgt.extractLsb' 0 3).isLt⟩ : Option Instr)) _ = _
  simp only [JFmt.g_of, JFmt.div, BraMode.ofCode_code, vField_vBits, chk_true, beq_self_eq_true, Bool.and_self, Option.bind_eq_bind, Option.bind_some, Option.pure_def]
  fin_cases pd <;> rfl

theorem role (g : Guard) (pd : Fin 8) (sb : Fin 64) (r : Fin 8) : Statement (.role g pd sb r) := by
  intro hw _
  refine encoded_c rfl (.inl ⟨rfl, ?_⟩)
  show (fun f : CFmt => (do
        chk (f.zero true false true false true false)
        if h : f.imm.toNat < 8 then return .role f.g (← pField f.sd) (← sField f.sb) ⟨f.imm.toNat, h⟩ else none : Option Instr)) _ = _
  simp only [CFmt.g_of, CFmt.zero, CFmt.dA, CFmt.dAB, CFmt.dBar, CFmt.aBar, CFmt.pcBar, vField_vBits, sField_sBits, pField_pBits, Bar.ofCode_code, Reuse.ofCode_code, chk_true, beq_self_eq_true, Bool.and_self, Bool.not_true, Bool.not_false, Bool.true_or, Bool.false_or, Option.bind_eq_bind, Option.bind_some, Option.pure_def]
  fin_cases r <;> rfl

theorem launch (g : Guard) (ser : Bool) (pd : Fin 8) (sa sb : Fin 64) : Statement (.launch g ser pd sa sb) := by
  intro hw _
  refine encoded_c rfl (.inl ⟨rfl, ?_⟩)
  show (fun f : CFmt => (do
        chk (f.sub.extractLsb' 1 3 == 0 && f.zero false false false false true true)
        return .launch f.g (f.sub.getLsbD 0) (← pField f.sd) (← sField f.sa) (← sField f.sb) : Option Instr)) _ = _
  simp only [CFmt.g_of, CFmt.zero, CFmt.dA, CFmt.dAB, CFmt.dBar, CFmt.aBar, CFmt.pcBar, vField_vBits, sField_sBits, pField_pBits, Bar.ofCode_code, Reuse.ofCode_code, chk_true, beq_self_eq_true, Bool.and_self, Bool.not_true, Bool.not_false, Bool.true_or, Bool.false_or, Option.bind_eq_bind, Option.bind_some, Option.pure_def]
  cases ser <;> rfl

theorem trap (g : Guard) (imm : BitVec 16) : Statement (.trap g imm) := by
  intro hw _
  refine encoded_c rfl (.inl ⟨rfl, ?_⟩)
  show (fun f : CFmt => (do chk (f.zero true true true true true false); return .trap f.g f.imm : Option Instr)) _ = _
  simp only [CFmt.g_of, CFmt.zero, CFmt.dA, CFmt.dAB, CFmt.dBar, CFmt.aBar, CFmt.pcBar, vField_vBits, sField_sBits, pField_pBits, Bar.ofCode_code, Reuse.ofCode_code, chk_true, beq_self_eq_true, Bool.and_self, Bool.not_true, Bool.not_false, Bool.true_or, Bool.false_or, Option.bind_eq_bind, Option.bind_some, Option.pure_def]

theorem wsync (g : Guard) (pd : Fin 8) (sa : Fin 64) : Statement (.wsync g pd sa) := by
  intro hw _
  refine encoded_c rfl (.inl ⟨rfl, ?_⟩)
  show (fun f : CFmt => (do
        chk (f.zero true false false true true true)
        return .wsync f.g (← pField f.sd) (← sField f.sa) : Option Instr)) _ = _
  simp only [CFmt.g_of, CFmt.zero, CFmt.dA, CFmt.dAB, CFmt.dBar, CFmt.aBar, CFmt.pcBar, vField_vBits, sField_sBits, pField_pBits, Bar.ofCode_code, Reuse.ofCode_code, chk_true, beq_self_eq_true, Bool.and_self, Bool.not_true, Bool.not_false, Bool.true_or, Bool.false_or, Option.bind_eq_bind, Option.bind_some, Option.pure_def]

theorem add (g : Guard) (ty : Ty) (sat : Bool) (d : Dst) (a b : Src) : Statement (.add g ty sat d a b) := by
  intro hw _
  have hl : (wf2 g ty Ty.intPacked d a b) = true := hw
  simp only [wf2, wf3, wfShift, Bool.and_eq_true] at hl
  refine encoded_a rfl decodeInt (formInt 0x10 rfl) (oneLit_ab (by rfl) hl.2) fun l ha hb hc => ?_
  show (fun f => (do let s ← f.modBit; f.d2 l fun t d a b => .add f.g t s d a b : Option Instr)) (fieldsA _ _ _ _ _ _ _ _ _) = _
  simp only [AFmt.d1, AFmt.d2, AFmt.d3, AFmt.d2p, fieldsA_g, fieldsA_ty, fieldsA_dk, fieldsA_d, fieldsA_dst, fieldsA_dstV, fieldsA_noA, fieldsA_noB, fieldsA_noC, fieldsA_predA, fieldsA_predB, fieldsA_predC, fieldsA_regA, fieldsA_mod, fieldsA_mod0, fieldsA_modBit, fieldsA_fmod, chk_true, Ty.ofCode_code, beq_self_eq_true, Bool.and_self, Option.bind_eq_bind, Option.bind_some, Option.pure_def, pField_pBits, fieldsA_dstP, fieldsA_srcA ha, fieldsA_srcB hb, fieldsA_srcC hc]

theorem sub (g : Guard) (ty : Ty) (sat : Bool) (d : Dst) (a b : Src) : Statement (.sub g ty sat d a b) := by
  intro hw _
  have hl : (wf2 g ty Ty.intPacked d a b) = true := hw
  simp only [wf2, wf3, wfShift, Bool.and_eq_true] at hl
  refine encoded_a rfl decodeInt (formInt 0x11 rfl) (oneLit_ab (by rfl) hl.2) fun l ha hb hc => ?_
  show (fun f => (do let s ← f.modBit; f.d2 l fun t d a b => .sub f.g t s d a b : Option Instr)) (fieldsA _ _ _ _ _ _ _ _ _) = _
  simp only [AFmt.d1, AFmt.d2, AFmt.d3, AFmt.d2p, fieldsA_g, fieldsA_ty, fieldsA_dk, fieldsA_d, fieldsA_dst, fieldsA_dstV, fieldsA_noA, fieldsA_noB, fieldsA_noC, fieldsA_predA, fieldsA_predB, fieldsA_predC, fieldsA_regA, fieldsA_mod, fieldsA_mod0, fieldsA_modBit, fieldsA_fmod, chk_true, Ty.ofCode_code, beq_self_eq_true, Bool.and_self, Option.bind_eq_bind, Option.bind_some, Option.pure_def, pField_pBits, fieldsA_dstP, fieldsA_srcA ha, fieldsA_srcB hb, fieldsA_srcC hc]

theorem addc (g : Guard) (ty : Ty) (d : Dst) (a b : Src) (pc : Fin 8) : Statement (.addc g ty d a b pc) := by
  intro hw _
  have hl : (wf2 g ty [.n32, .n64] d a b) = true := hw
  simp only [wf2, wf3, wfShift, Bool.and_eq_true] at hl
  refine encoded_a rfl decodeInt (formInt 0x12 rfl) (oneLit_ab (by rfl) hl.2) fun l ha hb hc => ?_
  show (fun f => (do chk f.mod0; f.d2p l fun t d a b p => .addc f.g t d a b p : Option Instr)) (fieldsA _ _ _ _ _ _ _ _ _) = _
  simp only [AFmt.d1, AFmt.d2, AFmt.d3, AFmt.d2p, fieldsA_g, fieldsA_ty, fieldsA_dk, fieldsA_d, fieldsA_dst, fieldsA_dstV, fieldsA_noA, fieldsA_noB, fieldsA_noC, fieldsA_predA, fieldsA_predB, fieldsA_predC, fieldsA_regA, fieldsA_mod, fieldsA_mod0, fieldsA_modBit, fieldsA_fmod, chk_true, Ty.ofCode_code, beq_self_eq_true, Bool.and_self, Option.bind_eq_bind, Option.bind_some, Option.pure_def, pField_pBits, fieldsA_dstP, fieldsA_srcA ha, fieldsA_srcB hb, fieldsA_srcC hc]

theorem subb (g : Guard) (ty : Ty) (d : Dst) (a b : Src) (pc : Fin 8) : Statement (.subb g ty d a b pc) := by
  intro hw _
  have hl : (wf2 g ty [.n32, .n64] d a b) = true := hw
  simp only [wf2, wf3, wfShift, Bool.and_eq_true] at hl
  refine encoded_a rfl decodeInt (formInt 0x13 rfl) (oneLit_ab (by rfl) hl.2) fun l ha hb hc => ?_
  show (fun f => (do chk f.mod0; f.d2p l fun t d a b p => .subb f.g t d a b p : Option Instr)) (fieldsA _ _ _ _ _ _ _ _ _) = _
  simp only [AFmt.d1, AFmt.d2, AFmt.d3, AFmt.d2p, fieldsA_g, fieldsA_ty, fieldsA_dk, fieldsA_d, fieldsA_dst, fieldsA_dstV, fieldsA_noA, fieldsA_noB, fieldsA_noC, fieldsA_predA, fieldsA_predB, fieldsA_predC, fieldsA_regA, fieldsA_mod, fieldsA_mod0, fieldsA_modBit, fieldsA_fmod, chk_true, Ty.ofCode_code, beq_self_eq_true, Bool.and_self, Option.bind_eq_bind, Option.bind_some, Option.pure_def, pField_pBits, fieldsA_dstP, fieldsA_srcA ha, fieldsA_srcB hb, fieldsA_srcC hc]

theorem mul (g : Guard) (ty : Ty) (d : Dst) (a b : Src) : Statement (.mul g ty d a b) := by
  intro hw _
  have hl : (wf2 g ty [.i32, .n32, .i64, .n64, .i16x2, .n16x2] d a b) = true := hw
  simp only [wf2, wf3, wfShift, Bool.and_eq_true] at hl
  refine encoded_a rfl decodeInt (formInt 0x14 rfl) (oneLit_ab (by rfl) hl.2) fun l ha hb hc => ?_
  show (fun f => (do chk f.mod0; f.d2 l fun t d a b => .mul f.g t d a b : Option Instr)) (fieldsA _ _ _ _ _ _ _ _ _) = _
  simp only [AFmt.d1, AFmt.d2, AFmt.d3, AFmt.d2p, fieldsA_g, fieldsA_ty, fieldsA_dk, fieldsA_d, fieldsA_dst, fieldsA_dstV, fieldsA_noA, fieldsA_noB, fieldsA_noC, fieldsA_predA, fieldsA_predB, fieldsA_predC, fieldsA_regA, fieldsA_mod, fieldsA_mod0, fieldsA_modBit, fieldsA_fmod, chk_true, Ty.ofCode_code, beq_self_eq_true, Bool.and_self, Option.bind_eq_bind, Option.bind_some, Option.pure_def, pField_pBits, fieldsA_dstP, fieldsA_srcA ha, fieldsA_srcB hb, fieldsA_srcC hc]

theorem mulhi (g : Guard) (ty : Ty) (d : Dst) (a b : Src) : Statement (.mulhi g ty d a b) := by
  intro hw _
  have hl : (wf2 g ty Ty.int14 d a b) = true := hw
  simp only [wf2, wf3, wfShift, Bool.and_eq_true] at hl
  refine encoded_a rfl decodeInt (formInt 0x15 rfl) (oneLit_ab (by rfl) hl.2) fun l ha hb hc => ?_
  show (fun f => (do chk f.mod0; f.d2 l fun t d a b => .mulhi f.g t d a b : Option Instr)) (fieldsA _ _ _ _ _ _ _ _ _) = _
  simp only [AFmt.d1, AFmt.d2, AFmt.d3, AFmt.d2p, fieldsA_g, fieldsA_ty, fieldsA_dk, fieldsA_d, fieldsA_dst, fieldsA_dstV, fieldsA_noA, fieldsA_noB, fieldsA_noC, fieldsA_predA, fieldsA_predB, fieldsA_predC, fieldsA_regA, fieldsA_mod, fieldsA_mod0, fieldsA_modBit, fieldsA_fmod, chk_true, Ty.ofCode_code, beq_self_eq_true, Bool.and_self, Option.bind_eq_bind, Option.bind_some, Option.pure_def, pField_pBits, fieldsA_dstP, fieldsA_srcA ha, fieldsA_srcB hb, fieldsA_srcC hc]

theorem mad (g : Guard) (ty : Ty) (d : Dst) (a b c : Src) : Statement (.mad g ty d a b c) := by
  intro hw _
  have hl : (wf3 g ty Ty.int14 d a b c) = true := hw
  simp only [wf2, wf3, wfShift, Bool.and_eq_true] at hl
  refine encoded_a rfl decodeInt (formInt 0x16 rfl) hl.2 fun l ha hb hc => ?_
  show (fun f => (do chk f.mod0; f.d3 l fun t d a b c => .mad f.g t d a b c : Option Instr)) (fieldsA _ _ _ _ _ _ _ _ _) = _
  simp only [AFmt.d1, AFmt.d2, AFmt.d3, AFmt.d2p, fieldsA_g, fieldsA_ty, fieldsA_dk, fieldsA_d, fieldsA_dst, fieldsA_dstV, fieldsA_noA, fieldsA_noB, fieldsA_noC, fieldsA_predA, fieldsA_predB, fieldsA_predC, fieldsA_regA, fieldsA_mod, fieldsA_mod0, fieldsA_modBit, fieldsA_fmod, chk_true, Ty.ofCode_code, beq_self_eq_true, Bool.and_self, Option.bind_eq_bind, Option.bind_some, Option.pure_def, pField_pBits, fieldsA_dstP, fieldsA_srcA ha, fieldsA_srcB hb, fieldsA_srcC hc]

theorem madw (g : Guard) (ty : Ty) (d : Dst) (a b c : Src) : Statement (.madw g ty d a b c) := by
  intro hw _
  have hl : (g.wf && [Ty.i32, Ty.n32].contains ty && d.okW true && c.okW true && oneLit [a, b, c]) = true := hw
  simp only [wf2, wf3, wfShift, Bool.and_eq_true] at hl
  refine encoded_a rfl decodeInt (formInt 0x17 rfl) hl.2 fun l ha hb hc => ?_
  show (fun f => (do chk f.mod0; f.d3 l fun t d a b c => .madw f.g t d a b c : Option Instr)) (fieldsA _ _ _ _ _ _ _ _ _) = _
  simp only [AFmt.d1, AFmt.d2, AFmt.d3, AFmt.d2p, fieldsA_g, fieldsA_ty, fieldsA_dk, fieldsA_d, fieldsA_dst, fieldsA_dstV, fieldsA_noA, fieldsA_noB, fieldsA_noC, fieldsA_predA, fieldsA_predB, fieldsA_predC, fieldsA_regA, fieldsA_mod, fieldsA_mod0, fieldsA_modBit, fieldsA_fmod, chk_true, Ty.ofCode_code, beq_self_eq_true, Bool.and_self, Option.bind_eq_bind, Option.bind_some, Option.pure_def, pField_pBits, fieldsA_dstP, fieldsA_srcA ha, fieldsA_srcB hb, fieldsA_srcC hc]

theorem min (g : Guard) (ty : Ty) (d : Dst) (a b : Src) : Statement (.min g ty d a b) := by
  intro hw _
  have hl : (wf2 g ty Ty.intPacked d a b) = true := hw
  simp only [wf2, wf3, wfShift, Bool.and_eq_true] at hl
  refine encoded_a rfl decodeInt (formInt 0x18 rfl) (oneLit_ab (by rfl) hl.2) fun l ha hb hc => ?_
  show (fun f => (do chk f.mod0; f.d2 l fun t d a b => .min f.g t d a b : Option Instr)) (fieldsA _ _ _ _ _ _ _ _ _) = _
  simp only [AFmt.d1, AFmt.d2, AFmt.d3, AFmt.d2p, fieldsA_g, fieldsA_ty, fieldsA_dk, fieldsA_d, fieldsA_dst, fieldsA_dstV, fieldsA_noA, fieldsA_noB, fieldsA_noC, fieldsA_predA, fieldsA_predB, fieldsA_predC, fieldsA_regA, fieldsA_mod, fieldsA_mod0, fieldsA_modBit, fieldsA_fmod, chk_true, Ty.ofCode_code, beq_self_eq_true, Bool.and_self, Option.bind_eq_bind, Option.bind_some, Option.pure_def, pField_pBits, fieldsA_dstP, fieldsA_srcA ha, fieldsA_srcB hb, fieldsA_srcC hc]

theorem max (g : Guard) (ty : Ty) (d : Dst) (a b : Src) : Statement (.max g ty d a b) := by
  intro hw _
  have hl : (wf2 g ty Ty.intPacked d a b) = true := hw
  simp only [wf2, wf3, wfShift, Bool.and_eq_true] at hl
  refine encoded_a rfl decodeInt (formInt 0x19 rfl) (oneLit_ab (by rfl) hl.2) fun l ha hb hc => ?_
  show (fun f => (do chk f.mod0; f.d2 l fun t d a b => .max f.g t d a b : Option Instr)) (fieldsA _ _ _ _ _ _ _ _ _) = _
  simp only [AFmt.d1, AFmt.d2, AFmt.d3, AFmt.d2p, fieldsA_g, fieldsA_ty, fieldsA_dk, fieldsA_d, fieldsA_dst, fieldsA_dstV, fieldsA_noA, fieldsA_noB, fieldsA_noC, fieldsA_predA, fieldsA_predB, fieldsA_predC, fieldsA_regA, fieldsA_mod, fieldsA_mod0, fieldsA_modBit, fieldsA_fmod, chk_true, Ty.ofCode_code, beq_self_eq_true, Bool.and_self, Option.bind_eq_bind, Option.bind_some, Option.pure_def, pField_pBits, fieldsA_dstP, fieldsA_srcA ha, fieldsA_srcB hb, fieldsA_srcC hc]

theorem abs (g : Guard) (ty : Ty) (sat : Bool) (d : Dst) (a : Src) : Statement (.abs g ty sat d a) := by
  intro hw _
  refine encoded_a rfl decodeInt (formInt 0x1A rfl) (oneLit_a (by rfl) (by rfl)) fun l ha hb hc => ?_
  show (fun f => (do let s ← f.modBit; f.d1 l fun t d a => .abs f.g t s d a : Option Instr)) (fieldsA _ _ _ _ _ _ _ _ _) = _
  simp only [AFmt.d1, AFmt.d2, AFmt.d3, AFmt.d2p, fieldsA_g, fieldsA_ty, fieldsA_dk, fieldsA_d, fieldsA_dst, fieldsA_dstV, fieldsA_noA, fieldsA_noB, fieldsA_noC, fieldsA_predA, fieldsA_predB, fieldsA_predC, fieldsA_regA, fieldsA_mod, fieldsA_mod0, fieldsA_modBit, fieldsA_fmod, chk_true, Ty.ofCode_code, beq_self_eq_true, Bool.and_self, Option.bind_eq_bind, Option.bind_some, Option.pure_def, pField_pBits, fieldsA_dstP, fieldsA_srcA ha, fieldsA_srcB hb, fieldsA_srcC hc]

theorem neg (g : Guard) (ty : Ty) (sat : Bool) (d : Dst) (a : Src) : Statement (.neg g ty sat d a) := by
  intro hw _
  refine encoded_a rfl decodeInt (formInt 0x1B rfl) (oneLit_a (by rfl) (by rfl)) fun l ha hb hc => ?_
  show (fun f => (do let s ← f.modBit; f.d1 l fun t d a => .neg f.g t s d a : Option Instr)) (fieldsA _ _ _ _ _ _ _ _ _) = _
  simp only [AFmt.d1, AFmt.d2, AFmt.d3, AFmt.d2p, fieldsA_g, fieldsA_ty, fieldsA_dk, fieldsA_d, fieldsA_dst, fieldsA_dstV, fieldsA_noA, fieldsA_noB, fieldsA_noC, fieldsA_predA, fieldsA_predB, fieldsA_predC, fieldsA_regA, fieldsA_mod, fieldsA_mod0, fieldsA_modBit, fieldsA_fmod, chk_true, Ty.ofCode_code, beq_self_eq_true, Bool.and_self, Option.bind_eq_bind, Option.bind_some, Option.pure_def, pField_pBits, fieldsA_dstP, fieldsA_srcA ha, fieldsA_srcB hb, fieldsA_srcC hc]

theorem and (g : Guard) (ty : Ty) (d : Dst) (a b : Src) : Statement (.and g ty d a b) := by
  intro hw _
  have hl : (wf2 g ty Ty.b04 d a b) = true := hw
  simp only [wf2, wf3, wfShift, Bool.and_eq_true] at hl
  refine encoded_a rfl decodeInt (formInt 0x1C rfl) (oneLit_ab (by rfl) hl.2) fun l ha hb hc => ?_
  show (fun f => (do chk f.mod0; f.d2 l fun t d a b => .and f.g t d a b : Option Instr)) (fieldsA _ _ _ _ _ _ _ _ _) = _
  simp only [AFmt.d1, AFmt.d2, AFmt.d3, AFmt.d2p, fieldsA_g, fieldsA_ty, fieldsA_dk, fieldsA_d, fieldsA_dst, fieldsA_dstV, fieldsA_noA, fieldsA_noB, fieldsA_noC, fieldsA_predA, fieldsA_predB, fieldsA_predC, fieldsA_regA, fieldsA_mod, fieldsA_mod0, fieldsA_modBit, fieldsA_fmod, chk_true, Ty.ofCode_code, beq_self_eq_true, Bool.and_self, Option.bind_eq_bind, Option.bind_some, Option.pure_def, pField_pBits, fieldsA_dstP, fieldsA_srcA ha, fieldsA_srcB hb, fieldsA_srcC hc]

theorem or (g : Guard) (ty : Ty) (d : Dst) (a b : Src) : Statement (.or g ty d a b) := by
  intro hw _
  have hl : (wf2 g ty Ty.b04 d a b) = true := hw
  simp only [wf2, wf3, wfShift, Bool.and_eq_true] at hl
  refine encoded_a rfl decodeInt (formInt 0x1D rfl) (oneLit_ab (by rfl) hl.2) fun l ha hb hc => ?_
  show (fun f => (do chk f.mod0; f.d2 l fun t d a b => .or f.g t d a b : Option Instr)) (fieldsA _ _ _ _ _ _ _ _ _) = _
  simp only [AFmt.d1, AFmt.d2, AFmt.d3, AFmt.d2p, fieldsA_g, fieldsA_ty, fieldsA_dk, fieldsA_d, fieldsA_dst, fieldsA_dstV, fieldsA_noA, fieldsA_noB, fieldsA_noC, fieldsA_predA, fieldsA_predB, fieldsA_predC, fieldsA_regA, fieldsA_mod, fieldsA_mod0, fieldsA_modBit, fieldsA_fmod, chk_true, Ty.ofCode_code, beq_self_eq_true, Bool.and_self, Option.bind_eq_bind, Option.bind_some, Option.pure_def, pField_pBits, fieldsA_dstP, fieldsA_srcA ha, fieldsA_srcB hb, fieldsA_srcC hc]

theorem xor (g : Guard) (ty : Ty) (d : Dst) (a b : Src) : Statement (.xor g ty d a b) := by
  intro hw _
  have hl : (wf2 g ty Ty.b04 d a b) = true := hw
  simp only [wf2, wf3, wfShift, Bool.and_eq_true] at hl
  refine encoded_a rfl decodeInt (formInt 0x1E rfl) (oneLit_ab (by rfl) hl.2) fun l ha hb hc => ?_
  show (fun f => (do chk f.mod0; f.d2 l fun t d a b => .xor f.g t d a b : Option Instr)) (fieldsA _ _ _ _ _ _ _ _ _) = _
  simp only [AFmt.d1, AFmt.d2, AFmt.d3, AFmt.d2p, fieldsA_g, fieldsA_ty, fieldsA_dk, fieldsA_d, fieldsA_dst, fieldsA_dstV, fieldsA_noA, fieldsA_noB, fieldsA_noC, fieldsA_predA, fieldsA_predB, fieldsA_predC, fieldsA_regA, fieldsA_mod, fieldsA_mod0, fieldsA_modBit, fieldsA_fmod, chk_true, Ty.ofCode_code, beq_self_eq_true, Bool.and_self, Option.bind_eq_bind, Option.bind_some, Option.pure_def, pField_pBits, fieldsA_dstP, fieldsA_srcA ha, fieldsA_srcB hb, fieldsA_srcC hc]

theorem not (g : Guard) (ty : Ty) (d : Dst) (a : Src) : Statement (.not g ty d a) := by
  intro hw _
  refine encoded_a rfl decodeInt (formInt 0x1F rfl) (oneLit_a (by rfl) (by rfl)) fun l ha hb hc => ?_
  show (fun f => (do chk f.mod0; f.d1 l fun t d a => .not f.g t d a : Option Instr)) (fieldsA _ _ _ _ _ _ _ _ _) = _
  simp only [AFmt.d1, AFmt.d2, AFmt.d3, AFmt.d2p, fieldsA_g, fieldsA_ty, fieldsA_dk, fieldsA_d, fieldsA_dst, fieldsA_dstV, fieldsA_noA, fieldsA_noB, fieldsA_noC, fieldsA_predA, fieldsA_predB, fieldsA_predC, fieldsA_regA, fieldsA_mod, fieldsA_mod0, fieldsA_modBit, fieldsA_fmod, chk_true, Ty.ofCode_code, beq_self_eq_true, Bool.and_self, Option.bind_eq_bind, Option.bind_some, Option.pure_def, pField_pBits, fieldsA_dstP, fieldsA_srcA ha, fieldsA_srcB hb, fieldsA_srcC hc]

theorem shl (g : Guard) (ty : Ty) (d : Dst) (a b : Src) : Statement (.shl g ty d a b) := by
  intro hw _
  have hl : (wfShift g ty [.b32, .i32, .n32, .i64, .n64] d a b) = true := hw
  simp only [wf2, wf3, wfShift, Bool.and_eq_true] at hl
  refine encoded_a rfl decodeInt (formInt 0x20 rfl) (oneLit_ab (by rfl) hl.2) fun l ha hb hc => ?_
  show (fun f => (do chk f.mod0; f.d2 l fun t d a b => .shl f.g t d a b : Option Instr)) (fieldsA _ _ _ _ _ _ _ _ _) = _
  simp only [AFmt.d1, AFmt.d2, AFmt.d3, AFmt.d2p, fieldsA_g, fieldsA_ty, fieldsA_dk, fieldsA_d, fieldsA_dst, fieldsA_dstV, fieldsA_noA, fieldsA_noB, fieldsA_noC, fieldsA_predA, fieldsA_predB, fieldsA_predC, fieldsA_regA, fieldsA_mod, fieldsA_mod0, fieldsA_modBit, fieldsA_fmod, chk_true, Ty.ofCode_code, beq_self_eq_true, Bool.and_self, Option.bind_eq_bind, Option.bind_some, Option.pure_def, pField_pBits, fieldsA_dstP, fieldsA_srcA ha, fieldsA_srcB hb, fieldsA_srcC hc]

theorem shr (g : Guard) (ty : Ty) (d : Dst) (a b : Src) : Statement (.shr g ty d a b) := by
  intro hw _
  have hl : (wfShift g ty [.b32, .i32, .n32, .i64, .n64] d a b) = true := hw
  simp only [wf2, wf3, wfShift, Bool.and_eq_true] at hl
  refine encoded_a rfl decodeInt (formInt 0x21 rfl) (oneLit_ab (by rfl) hl.2) fun l ha hb hc => ?_
  show (fun f => (do chk f.mod0; f.d2 l fun t d a b => .shr f.g t d a b : Option Instr)) (fieldsA _ _ _ _ _ _ _ _ _) = _
  simp only [AFmt.d1, AFmt.d2, AFmt.d3, AFmt.d2p, fieldsA_g, fieldsA_ty, fieldsA_dk, fieldsA_d, fieldsA_dst, fieldsA_dstV, fieldsA_noA, fieldsA_noB, fieldsA_noC, fieldsA_predA, fieldsA_predB, fieldsA_predC, fieldsA_regA, fieldsA_mod, fieldsA_mod0, fieldsA_modBit, fieldsA_fmod, chk_true, Ty.ofCode_code, beq_self_eq_true, Bool.and_self, Option.bind_eq_bind, Option.bind_some, Option.pure_def, pField_pBits, fieldsA_dstP, fieldsA_srcA ha, fieldsA_srcB hb, fieldsA_srcC hc]

theorem sar (g : Guard) (ty : Ty) (d : Dst) (a b : Src) : Statement (.sar g ty d a b) := by
  intro hw _
  have hl : (wfShift g ty [.b32, .i32, .n32, .i64, .n64] d a b) = true := hw
  simp only [wf2, wf3, wfShift, Bool.and_eq_true] at hl
  refine encoded_a rfl decodeInt (formInt 0x22 rfl) (oneLit_ab (by rfl) hl.2) fun l ha hb hc => ?_
  show (fun f => (do chk f.mod0; f.d2 l fun t d a b => .sar f.g t d a b : Option Instr)) (fieldsA _ _ _ _ _ _ _ _ _) = _
  simp only [AFmt.d1, AFmt.d2, AFmt.d3, AFmt.d2p, fieldsA_g, fieldsA_ty, fieldsA_dk, fieldsA_d, fieldsA_dst, fieldsA_dstV, fieldsA_noA, fieldsA_noB, fieldsA_noC, fieldsA_predA, fieldsA_predB, fieldsA_predC, fieldsA_regA, fieldsA_mod, fieldsA_mod0, fieldsA_modBit, fieldsA_fmod, chk_true, Ty.ofCode_code, beq_self_eq_true, Bool.and_self, Option.bind_eq_bind, Option.bind_some, Option.pure_def, pField_pBits, fieldsA_dstP, fieldsA_srcA ha, fieldsA_srcB hb, fieldsA_srcC hc]

theorem rot (g : Guard) (ty : Ty) (right : Bool) (d : Dst) (a b : Src) : Statement (.rot g ty right d a b) := by
  intro hw _
  have hl : (wfShift g ty [.b32, .i32, .n32, .i64, .n64] d a b) = true := hw
  simp only [wf2, wf3, wfShift, Bool.and_eq_true] at hl
  refine encoded_a rfl decodeInt (formInt 0x23 rfl) (oneLit_ab (by rfl) hl.2) fun l ha hb hc => ?_
  show (fun f => (do let r ← f.modBit; f.d2 l fun t d a b => .rot f.g t r d a b : Option Instr)) (fieldsA _ _ _ _ _ _ _ _ _) = _
  simp only [AFmt.d1, AFmt.d2, AFmt.d3, AFmt.d2p, fieldsA_g, fieldsA_ty, fieldsA_dk, fieldsA_d, fieldsA_dst, fieldsA_dstV, fieldsA_noA, fieldsA_noB, fieldsA_noC, fieldsA_predA, fieldsA_predB, fieldsA_predC, fieldsA_regA, fieldsA_mod, fieldsA_mod0, fieldsA_modBit, fieldsA_fmod, chk_true, Ty.ofCode_code, beq_self_eq_true, Bool.and_self, Option.bind_eq_bind, Option.bind_some, Option.pure_def, pField_pBits, fieldsA_dstP, fieldsA_srcA ha, fieldsA_srcB hb, fieldsA_srcC hc]

theorem bfe (g : Guard) (ty : Ty) (d : Dst) (a b : Src) : Statement (.bfe g ty d a b) := by
  intro hw _
  have hl : (wfShift g ty Ty.int14 d a b) = true := hw
  simp only [wf2, wf3, wfShift, Bool.and_eq_true] at hl
  refine encoded_a rfl decodeInt (formInt 0x24 rfl) (oneLit_ab (by rfl) hl.2) fun l ha hb hc => ?_
  show (fun f => (do chk f.mod0; f.d2 l fun t d a b => .bfe f.g t d a b : Option Instr)) (fieldsA _ _ _ _ _ _ _ _ _) = _
  simp only [AFmt.d1, AFmt.d2, AFmt.d3, AFmt.d2p, fieldsA_g, fieldsA_ty, fieldsA_dk, fieldsA_d, fieldsA_dst, fieldsA_dstV, fieldsA_noA, fieldsA_noB, fieldsA_noC, fieldsA_predA, fieldsA_predB, fieldsA_predC, fieldsA_regA, fieldsA_mod, fieldsA_mod0, fieldsA_modBit, fieldsA_fmod, chk_true, Ty.ofCode_code, beq_self_eq_true, Bool.and_self, Option.bind_eq_bind, Option.bind_some, Option.pure_def, pField_pBits, fieldsA_dstP, fieldsA_srcA ha, fieldsA_srcB hb, fieldsA_srcC hc]

theorem bfi (g : Guard) (ty : Ty) (d : Dst) (a b c : Src) : Statement (.bfi g ty d a b c) := by
  intro hw _
  have hl : (g.wf && Ty.b04.contains ty && d.okW ty.is64 && a.okW ty.is64 && c.okW ty.is64 && oneLit [a, b, c]) = true := hw
  simp only [wf2, wf3, wfShift, Bool.and_eq_true] at hl
  refine encoded_a rfl decodeInt (formInt 0x25 rfl) hl.2 fun l ha hb hc => ?_
  show (fun f => (do chk f.mod0; f.d3 l fun t d a b c => .bfi f.g t d a b c : Option Instr)) (fieldsA _ _ _ _ _ _ _ _ _) = _
  simp only [AFmt.d1, AFmt.d2, AFmt.d3, AFmt.d2p, fieldsA_g, fieldsA_ty, fieldsA_dk, fieldsA_d, fieldsA_dst, fieldsA_dstV, fieldsA_noA, fieldsA_noB, fieldsA_noC, fieldsA_predA, fieldsA_predB, fieldsA_predC, fieldsA_regA, fieldsA_mod, fieldsA_mod0, fieldsA_modBit, fieldsA_fmod, chk_true, Ty.ofCode_code, beq_self_eq_true, Bool.and_self, Option.bind_eq_bind, Option.bind_some, Option.pure_def, pField_pBits, fieldsA_dstP, fieldsA_srcA ha, fieldsA_srcB hb, fieldsA_srcC hc]

theorem popc (g : Guard) (ty : Ty) (d : Dst) (a : Src) : Statement (.popc g ty d a) := by
  intro hw _
  refine encoded_a rfl decodeInt (formInt 0x26 rfl) (oneLit_a (by rfl) (by rfl)) fun l ha hb hc => ?_
  show (fun f => (do chk f.mod0; f.d1 l fun t d a => .popc f.g t d a : Option Instr)) (fieldsA _ _ _ _ _ _ _ _ _) = _
  simp only [AFmt.d1, AFmt.d2, AFmt.d3, AFmt.d2p, fieldsA_g, fieldsA_ty, fieldsA_dk, fieldsA_d, fieldsA_dst, fieldsA_dstV, fieldsA_noA, fieldsA_noB, fieldsA_noC, fieldsA_predA, fieldsA_predB, fieldsA_predC, fieldsA_regA, fieldsA_mod, fieldsA_mod0, fieldsA_modBit, fieldsA_fmod, chk_true, Ty.ofCode_code, beq_self_eq_true, Bool.and_self, Option.bind_eq_bind, Option.bind_some, Option.pure_def, pField_pBits, fieldsA_dstP, fieldsA_srcA ha, fieldsA_srcB hb, fieldsA_srcC hc]

theorem clz (g : Guard) (ty : Ty) (d : Dst) (a : Src) : Statement (.clz g ty d a) := by
  intro hw _
  refine encoded_a rfl decodeInt (formInt 0x27 rfl) (oneLit_a (by rfl) (by rfl)) fun l ha hb hc => ?_
  show (fun f => (do chk f.mod0; f.d1 l fun t d a => .clz f.g t d a : Option Instr)) (fieldsA _ _ _ _ _ _ _ _ _) = _
  simp only [AFmt.d1, AFmt.d2, AFmt.d3, AFmt.d2p, fieldsA_g, fieldsA_ty, fieldsA_dk, fieldsA_d, fieldsA_dst, fieldsA_dstV, fieldsA_noA, fieldsA_noB, fieldsA_noC, fieldsA_predA, fieldsA_predB, fieldsA_predC, fieldsA_regA, fieldsA_mod, fieldsA_mod0, fieldsA_modBit, fieldsA_fmod, chk_true, Ty.ofCode_code, beq_self_eq_true, Bool.and_self, Option.bind_eq_bind, Option.bind_some, Option.pure_def, pField_pBits, fieldsA_dstP, fieldsA_srcA ha, fieldsA_srcB hb, fieldsA_srcC hc]

theorem brev (g : Guard) (ty : Ty) (d : Dst) (a : Src) : Statement (.brev g ty d a) := by
  intro hw _
  refine encoded_a rfl decodeInt (formInt 0x28 rfl) (oneLit_a (by rfl) (by rfl)) fun l ha hb hc => ?_
  show (fun f => (do chk f.mod0; f.d1 l fun t d a => .brev f.g t d a : Option Instr)) (fieldsA _ _ _ _ _ _ _ _ _) = _
  simp only [AFmt.d1, AFmt.d2, AFmt.d3, AFmt.d2p, fieldsA_g, fieldsA_ty, fieldsA_dk, fieldsA_d, fieldsA_dst, fieldsA_dstV, fieldsA_noA, fieldsA_noB, fieldsA_noC, fieldsA_predA, fieldsA_predB, fieldsA_predC, fieldsA_regA, fieldsA_mod, fieldsA_mod0, fieldsA_modBit, fieldsA_fmod, chk_true, Ty.ofCode_code, beq_self_eq_true, Bool.and_self, Option.bind_eq_bind, Option.bind_some, Option.pure_def, pField_pBits, fieldsA_dstP, fieldsA_srcA ha, fieldsA_srcB hb, fieldsA_srcC hc]

theorem prmt (g : Guard) (d : Dst) (a b c : Src) : Statement (.prmt g d a b c) := by
  intro hw _
  have hl : (wf3 g .b32 [.b32] d a b c) = true := hw
  simp only [wf2, wf3, wfShift, Bool.and_eq_true] at hl
  refine encoded_a rfl decodeInt (formInt 0x29 rfl) hl.2 fun l ha hb hc => ?_
  show (fun f => (do chk (f.mod0 && f.ty == 0); f.d3 l fun _ d a b c => .prmt f.g d a b c : Option Instr)) (fieldsA _ _ _ _ _ _ _ _ _) = _
  simp only [AFmt.d1, AFmt.d2, AFmt.d3, AFmt.d2p, fieldsA_g, fieldsA_ty, fieldsA_dk, fieldsA_d, fieldsA_dst, fieldsA_dstV, fieldsA_noA, fieldsA_noB, fieldsA_noC, fieldsA_predA, fieldsA_predB, fieldsA_predC, fieldsA_regA, fieldsA_mod, fieldsA_mod0, fieldsA_modBit, fieldsA_fmod, chk_true, Ty.ofCode_code, beq_self_eq_true, Bool.and_self, Option.bind_eq_bind, Option.bind_some, Option.pure_def, pField_pBits, fieldsA_dstP, fieldsA_srcA ha, fieldsA_srcB hb, fieldsA_srcC hc]
  rfl

theorem sad (g : Guard) (ty : Ty) (d : Dst) (a b c : Src) : Statement (.sad g ty d a b c) := by
  intro hw _
  have hl : (wf3 g ty [.i32, .n32, .i8x4, .n8x4] d a b c) = true := hw
  simp only [wf2, wf3, wfShift, Bool.and_eq_true] at hl
  refine encoded_a rfl decodeInt (formInt 0x2A rfl) hl.2 fun l ha hb hc => ?_
  show (fun f => (do chk f.mod0; f.d3 l fun t d a b c => .sad f.g t d a b c : Option Instr)) (fieldsA _ _ _ _ _ _ _ _ _) = _
  simp only [AFmt.d1, AFmt.d2, AFmt.d3, AFmt.d2p, fieldsA_g, fieldsA_ty, fieldsA_dk, fieldsA_d, fieldsA_dst, fieldsA_dstV, fieldsA_noA, fieldsA_noB, fieldsA_noC, fieldsA_predA, fieldsA_predB, fieldsA_predC, fieldsA_regA, fieldsA_mod, fieldsA_mod0, fieldsA_modBit, fieldsA_fmod, chk_true, Ty.ofCode_code, beq_self_eq_true, Bool.and_self, Option.bind_eq_bind, Option.bind_some, Option.pure_def, pField_pBits, fieldsA_dstP, fieldsA_srcA ha, fieldsA_srcB hb, fieldsA_srcC hc]

theorem lea (g : Guard) (sx : Bool) (sh : Fin 8) (d : Dst) (a b : Src) : Statement (.lea g sx sh d a b) := by
  intro hw _
  have hl : (g.wf && d.okW true && a.okW true && oneLit [a, b]) = true := hw
  simp only [wf2, wf3, wfShift, Bool.and_eq_true] at hl
  refine encoded_a rfl decodeInt (formInt 0x2B rfl) (oneLit_ab (by rfl) hl.2) fun l ha hb hc => ?_
  show (fun f => (do
        chk (f.ty == 4 && f.mod.extractLsb' 4 4 == 0)
        f.d2 l fun _ d a b =>
          .lea f.g (f.mod.getLsbD 3) ⟨(f.mod.extractLsb' 0 3).toNat, (f.mod.extractLsb' 0 3).isLt⟩ d a b : Option Instr)) (fieldsA _ _ _ _ _ _ _ _ _) = _
  simp only [AFmt.d1, AFmt.d2, AFmt.d3, AFmt.d2p, fieldsA_g, fieldsA_ty, fieldsA_dk, fieldsA_d, fieldsA_dst, fieldsA_dstV, fieldsA_noA, fieldsA_noB, fieldsA_noC, fieldsA_predA, fieldsA_predB, fieldsA_predC, fieldsA_regA, fieldsA_mod, fieldsA_mod0, fieldsA_modBit, fieldsA_fmod, chk_true, Ty.ofCode_code, beq_self_eq_true, Bool.and_self, Option.bind_eq_bind, Option.bind_some, Option.pure_def, pField_pBits, fieldsA_dstP, fieldsA_srcA ha, fieldsA_srcB hb, fieldsA_srcC hc]
  cases sx <;> fin_cases sh <;> rfl

theorem idiv (g : Guard) (ty : Ty) (d : Dst) (a b : Src) : Statement (.idiv g ty d a b) := by
  intro hw _
  have hl : (wf2 g ty Ty.int14 d a b) = true := hw
  simp only [wf2, wf3, wfShift, Bool.and_eq_true] at hl
  refine encoded_a rfl decodeInt (formInt 0x2C rfl) (oneLit_ab (by rfl) hl.2) fun l ha hb hc => ?_
  show (fun f => (do chk f.mod0; f.d2 l fun t d a b => .idiv f.g t d a b : Option Instr)) (fieldsA _ _ _ _ _ _ _ _ _) = _
  simp only [AFmt.d1, AFmt.d2, AFmt.d3, AFmt.d2p, fieldsA_g, fieldsA_ty, fieldsA_dk, fieldsA_d, fieldsA_dst, fieldsA_dstV, fieldsA_noA, fieldsA_noB, fieldsA_noC, fieldsA_predA, fieldsA_predB, fieldsA_predC, fieldsA_regA, fieldsA_mod, fieldsA_mod0, fieldsA_modBit, fieldsA_fmod, chk_true, Ty.ofCode_code, beq_self_eq_true, Bool.and_self, Option.bind_eq_bind, Option.bind_some, Option.pure_def, pField_pBits, fieldsA_dstP, fieldsA_srcA ha, fieldsA_srcB hb, fieldsA_srcC hc]

theorem irem (g : Guard) (ty : Ty) (d : Dst) (a b : Src) : Statement (.irem g ty d a b) := by
  intro hw _
  have hl : (wf2 g ty Ty.int14 d a b) = true := hw
  simp only [wf2, wf3, wfShift, Bool.and_eq_true] at hl
  refine encoded_a rfl decodeInt (formInt 0x2D rfl) (oneLit_ab (by rfl) hl.2) fun l ha hb hc => ?_
  show (fun f => (do chk f.mod0; f.d2 l fun t d a b => .irem f.g t d a b : Option Instr)) (fieldsA _ _ _ _ _ _ _ _ _) = _
  simp only [AFmt.d1, AFmt.d2, AFmt.d3, AFmt.d2p, fieldsA_g, fieldsA_ty, fieldsA_dk, fieldsA_d, fieldsA_dst, fieldsA_dstV, fieldsA_noA, fieldsA_noB, fieldsA_noC, fieldsA_predA, fieldsA_predB, fieldsA_predC, fieldsA_regA, fieldsA_mod, fieldsA_mod0, fieldsA_modBit, fieldsA_fmod, chk_true, Ty.ofCode_code, beq_self_eq_true, Bool.and_self, Option.bind_eq_bind, Option.bind_some, Option.pure_def, pField_pBits, fieldsA_dstP, fieldsA_srcA ha, fieldsA_srcB hb, fieldsA_srcC hc]

theorem lop3 (g : Guard) (ty : Ty) (f : BitVec 8) (d : Dst) (a b c : Src) : Statement (.lop3 g ty f d a b c) := by
  intro hw _
  have hl : (wf3 g ty Ty.b04 d a b c) = true := hw
  simp only [wf2, wf3, wfShift, Bool.and_eq_true] at hl
  refine encoded_a rfl decodeInt (formInt 0x2E rfl) hl.2 fun l ha hb hc => ?_
  show (fun f => (f.d3 l fun t d a b c => .lop3 f.g t f.mod d a b c : Option Instr)) (fieldsA _ _ _ _ _ _ _ _ _) = _
  simp only [AFmt.d1, AFmt.d2, AFmt.d3, AFmt.d2p, fieldsA_g, fieldsA_ty, fieldsA_dk, fieldsA_d, fieldsA_dst, fieldsA_dstV, fieldsA_noA, fieldsA_noB, fieldsA_noC, fieldsA_predA, fieldsA_predB, fieldsA_predC, fieldsA_regA, fieldsA_mod, fieldsA_mod0, fieldsA_modBit, fieldsA_fmod, chk_true, Ty.ofCode_code, beq_self_eq_true, Bool.and_self, Option.bind_eq_bind, Option.bind_some, Option.pure_def, pField_pBits, fieldsA_dstP, fieldsA_srcA ha, fieldsA_srcB hb, fieldsA_srcC hc]

theorem iset (g : Guard) (ty : Ty) (cond : ICond) (comb : Combine) (d : Dst) (a b : Src) (pc : Fin 8) : Statement (.iset g ty cond comb d a b pc) := by
  intro hw _
  have hl : (g.wf && Ty.int14.contains ty && (d.isP || d.okW false) && a.okW ty.is64 && b.okW ty.is64 && oneLit [a, b] &&
      (comb != .none || pc == 0)) = true := hw
  simp only [wf2, wf3, wfShift, Bool.and_eq_true] at hl
  refine encoded_a rfl decodeCmp (formCmp 0x30 rfl) (oneLit_ab (by rfl) hl.1.2) fun l ha hb hc => ?_
  show (fun f => (do
        chk (f.mod.extractLsb' 5 3 == 0)
        let c ← ICond.ofCode (f.mod.extractLsb' 0 3)
        f.d2p l fun t d a b p => .iset f.g t c (Combine.ofCode (f.mod.extractLsb' 3 2)) d a b p : Option Instr)) (fieldsA _ _ _ _ _ _ _ _ _) = _
  simp only [AFmt.d1, AFmt.d2, AFmt.d3, AFmt.d2p, fieldsA_g, fieldsA_ty, fieldsA_dk, fieldsA_d, fieldsA_dst, fieldsA_dstV, fieldsA_noA, fieldsA_noB, fieldsA_noC, fieldsA_predA, fieldsA_predB, fieldsA_predC, fieldsA_regA, fieldsA_mod, fieldsA_mod0, fieldsA_modBit, fieldsA_fmod, chk_true, Ty.ofCode_code, beq_self_eq_true, Bool.and_self, Option.bind_eq_bind, Option.bind_some, Option.pure_def, pField_pBits, fieldsA_dstP, fieldsA_srcA ha, fieldsA_srcB hb, fieldsA_srcC hc]
  cases cond <;> cases comb <;> rfl

theorem fset (g : Guard) (ty : Ty) (cond : FCond) (comb : Combine) (d : Dst) (a b : Src) (pc : Fin 8) : Statement (.fset g ty cond comb d a b pc) := by
  intro hw _
  have hl : (g.wf && [Ty.f32, Ty.f64].contains ty && (d.isP || d.okW false) && a.okW ty.is64 && b.okW ty.is64 &&
      oneLit [a, b] && (comb != .none || pc == 0)) = true := hw
  simp only [wf2, wf3, wfShift, Bool.and_eq_true] at hl
  refine encoded_a rfl decodeCmp (formCmp 0x31 rfl) (oneLit_ab (by rfl) hl.1.2) fun l ha hb hc => ?_
  show (fun f => (do
        chk (f.mod.extractLsb' 6 2 == 0)
        let c ← FCond.ofCode (f.mod.extractLsb' 0 4)
        f.d2p l fun t d a b p => .fset f.g t c (Combine.ofCode (f.mod.extractLsb' 4 2)) d a b p : Option Instr)) (fieldsA _ _ _ _ _ _ _ _ _) = _
  simp only [AFmt.d1, AFmt.d2, AFmt.d3, AFmt.d2p, fieldsA_g, fieldsA_ty, fieldsA_dk, fieldsA_d, fieldsA_dst, fieldsA_dstV, fieldsA_noA, fieldsA_noB, fieldsA_noC, fieldsA_predA, fieldsA_predB, fieldsA_predC, fieldsA_regA, fieldsA_mod, fieldsA_mod0, fieldsA_modBit, fieldsA_fmod, chk_true, Ty.ofCode_code, beq_self_eq_true, Bool.and_self, Option.bind_eq_bind, Option.bind_some, Option.pure_def, pField_pBits, fieldsA_dstP, fieldsA_srcA ha, fieldsA_srcB hb, fieldsA_srcC hc]
  cases cond <;> cases comb <;> rfl

theorem sel (g : Guard) (ty : Ty) (d : Dst) (a b : Src) (pc : Fin 8) : Statement (.sel g ty d a b pc) := by
  intro hw _
  have hl : (wf2 g ty Ty.b04 d a b) = true := hw
  simp only [wf2, wf3, wfShift, Bool.and_eq_true] at hl
  refine encoded_a rfl decodeCmp (formCmp 0x32 rfl) (oneLit_ab (by rfl) hl.2) fun l ha hb hc => ?_
  show (fun f => (do chk f.mod0; f.d2p l fun t d a b p => .sel f.g t d a b p : Option Instr)) (fieldsA _ _ _ _ _ _ _ _ _) = _
  simp only [AFmt.d1, AFmt.d2, AFmt.d3, AFmt.d2p, fieldsA_g, fieldsA_ty, fieldsA_dk, fieldsA_d, fieldsA_dst, fieldsA_dstV, fieldsA_noA, fieldsA_noB, fieldsA_noC, fieldsA_predA, fieldsA_predB, fieldsA_predC, fieldsA_regA, fieldsA_mod, fieldsA_mod0, fieldsA_modBit, fieldsA_fmod, chk_true, Ty.ofCode_code, beq_self_eq_true, Bool.and_self, Option.bind_eq_bind, Option.bind_some, Option.pure_def, pField_pBits, fieldsA_dstP, fieldsA_srcA ha, fieldsA_srcB hb, fieldsA_srcC hc]

theorem plop (g : Guard) (pd pa pb pc : Fin 8) (f : BitVec 8) : Statement (.plop g pd pa pb pc f) := by
  intro hw _
  refine encoded_a rfl decodeCmp (formCmp 0x33 rfl) (oneLit_a (by rfl) (by rfl)) fun l ha hb hc => ?_
  show (fun f => (do
        chk (f.ty == 0 && f.dk == 2)
        return .plop f.g (← pField f.d) (← f.predA) (← f.predB) (← f.predC) f.mod : Option Instr)) (fieldsA _ _ _ _ _ _ _ _ _) = _
  simp only [AFmt.d1, AFmt.d2, AFmt.d3, AFmt.d2p, fieldsA_g, fieldsA_ty, fieldsA_dk, fieldsA_d, fieldsA_dst, fieldsA_dstV, fieldsA_noA, fieldsA_noB, fieldsA_noC, fieldsA_predA, fieldsA_predB, fieldsA_predC, fieldsA_regA, fieldsA_mod, fieldsA_mod0, fieldsA_modBit, fieldsA_fmod, chk_true, Ty.ofCode_code, beq_self_eq_true, Bool.and_self, Option.bind_eq_bind, Option.bind_some, Option.pure_def, pField_pBits, fieldsA_dstP, fieldsA_srcA ha, fieldsA_srcB hb, fieldsA_srcC hc]

theorem fclassPred (g : Guard) (ty : Ty) (pd : Fin 8) (a mask : Src) : Statement (.fclassPred g ty pd a mask) := by
  intro hw _
  have hl : (g.wf && [Ty.f32, Ty.f64].contains ty && a.okW ty.is64 && oneLit [a, mask]) = true := hw
  simp only [wf2, wf3, wfShift, Bool.and_eq_true] at hl
  refine encoded_a rfl decodeCmp (formCmp 0x36 rfl) (oneLit_ab (by rfl) hl.2) fun l ha hb hc => ?_
  show (fun f => (do
        chk (f.mod0 && f.noC)
        let t ← Ty.ofCode f.ty
        let d ← f.dst
        let a ← f.srcA l
        match d with
        | .p n => return .fclassPred f.g t n a (← f.srcB l)
        | d => do chk f.noB; return .fclassMask f.g t d a : Option Instr)) (fieldsA _ _ _ _ _ _ _ _ _) = _
  simp only [AFmt.d1, AFmt.d2, AFmt.d3, AFmt.d2p, fieldsA_g, fieldsA_ty, fieldsA_dk, fieldsA_d, fieldsA_dst, fieldsA_dstV, fieldsA_noA, fieldsA_noB, fieldsA_noC, fieldsA_predA, fieldsA_predB, fieldsA_predC, fieldsA_regA, fieldsA_mod, fieldsA_mod0, fieldsA_modBit, fieldsA_fmod, chk_true, Ty.ofCode_code, beq_self_eq_true, Bool.and_self, Option.bind_eq_bind, Option.bind_some, Option.pure_def, pField_pBits, fieldsA_dstP, fieldsA_srcA ha, fieldsA_srcB hb, fieldsA_srcC hc]

theorem fclassMask (g : Guard) (ty : Ty) (d : Dst) (a : Src) : Statement (.fclassMask g ty d a) := by
  intro hw _
  refine encoded_a rfl decodeCmp (formCmp 0x36 rfl) (oneLit_a (by rfl) (by rfl)) fun l ha hb hc => ?_
  show (fun f => (do
        chk (f.mod0 && f.noC)
        let t ← Ty.ofCode f.ty
        let d ← f.dst
        let a ← f.srcA l
        match d with
        | .p n => return .fclassPred f.g t n a (← f.srcB l)
        | d => do chk f.noB; return .fclassMask f.g t d a : Option Instr)) (fieldsA _ _ _ _ _ _ _ _ _) = _
  simp only [AFmt.d1, AFmt.d2, AFmt.d3, AFmt.d2p, fieldsA_g, fieldsA_ty, fieldsA_dk, fieldsA_d, fieldsA_dst, fieldsA_dstV, fieldsA_noA, fieldsA_noB, fieldsA_noC, fieldsA_predA, fieldsA_predB, fieldsA_predC, fieldsA_regA, fieldsA_mod, fieldsA_mod0, fieldsA_modBit, fieldsA_fmod, chk_true, Ty.ofCode_code, beq_self_eq_true, Bool.and_self, Option.bind_eq_bind, Option.bind_some, Option.pure_def, pField_pBits, fieldsA_dstP, fieldsA_srcA ha, fieldsA_srcB hb, fieldsA_srcC hc]
  cases d <;> first | rfl | exact absurd hw (by simp [Instr.wf, Dst.okW])

theorem vote (g : Guard) (op : VoteOp) (neg : Bool) (d : Dst) (pa : Fin 8) : Statement (.vote g op neg d pa) := by
  intro hw _
  refine encoded_a rfl decodeCmp (formCmp 0x34 rfl) (oneLit_a (by rfl) (by rfl)) fun l ha hb hc => ?_
  show (fun f => (do
        chk (f.ty == 0 && f.noB && f.noC && f.mod.extractLsb' 3 5 == 0)
        return .vote f.g (VoteOp.ofCode (f.mod.extractLsb' 0 2)) (f.mod.getLsbD 2) (← f.dst) (← f.predA) : Option Instr)) (fieldsA _ _ _ _ _ _ _ _ _) = _
  simp only [AFmt.d1, AFmt.d2, AFmt.d3, AFmt.d2p, fieldsA_g, fieldsA_ty, fieldsA_dk, fieldsA_d, fieldsA_dst, fieldsA_dstV, fieldsA_noA, fieldsA_noB, fieldsA_noC, fieldsA_predA, fieldsA_predB, fieldsA_predC, fieldsA_regA, fieldsA_mod, fieldsA_mod0, fieldsA_modBit, fieldsA_fmod, chk_true, Ty.ofCode_code, beq_self_eq_true, Bool.and_self, Option.bind_eq_bind, Option.bind_some, Option.pure_def, pField_pBits, fieldsA_dstP, fieldsA_srcA ha, fieldsA_srcB hb, fieldsA_srcC hc]
  cases op <;> cases neg <;> rfl

theorem matchLanes (g : Guard) (ty : Ty) (all : Bool) (d : Dst) (a : Fin 256) : Statement (.matchLanes g ty all d a) := by
  intro hw _
  refine encoded_a rfl decodeCmp (formCmp 0x35 rfl) (oneLit_a (by rfl) (by rfl)) fun l ha hb hc => ?_
  show (fun f => (do
        chk (f.noB && f.noC)
        return .matchLanes f.g (← Ty.ofCode f.ty) (← f.modBit) (← f.dst) (← f.regA) : Option Instr)) (fieldsA _ _ _ _ _ _ _ _ _) = _
  simp only [AFmt.d1, AFmt.d2, AFmt.d3, AFmt.d2p, fieldsA_g, fieldsA_ty, fieldsA_dk, fieldsA_d, fieldsA_dst, fieldsA_dstV, fieldsA_noA, fieldsA_noB, fieldsA_noC, fieldsA_predA, fieldsA_predB, fieldsA_predC, fieldsA_regA, fieldsA_mod, fieldsA_mod0, fieldsA_modBit, fieldsA_fmod, chk_true, Ty.ofCode_code, beq_self_eq_true, Bool.and_self, Option.bind_eq_bind, Option.bind_some, Option.pure_def, pField_pBits, fieldsA_dstP, fieldsA_srcA ha, fieldsA_srcB hb, fieldsA_srcC hc]

theorem pmovPack (g : Guard) (d : Dst) : Statement (.pmovPack g d) := by
  intro hw _
  refine encoded_a rfl decodeCmp (formCmp 0x37 rfl) (oneLit_a (by rfl) (by rfl)) fun l ha hb hc => ?_
  show (fun f => (do
        chk (f.ty == 0 && f.noB && f.noC)
        match ← f.modBit with
        | false => do chk f.noA; return .pmovPack f.g (← f.dst)
        | true => do chk (f.dk == 2 && f.d == 0); return .pmovUnpack f.g (← f.srcA l) : Option Instr)) (fieldsA _ _ _ _ _ _ _ _ _) = _
  simp only [AFmt.d1, AFmt.d2, AFmt.d3, AFmt.d2p, fieldsA_g, fieldsA_ty, fieldsA_dk, fieldsA_d, fieldsA_dst, fieldsA_dstV, fieldsA_noA, fieldsA_noB, fieldsA_noC, fieldsA_predA, fieldsA_predB, fieldsA_predC, fieldsA_regA, fieldsA_mod, fieldsA_mod0, fieldsA_modBit, fieldsA_fmod, chk_true, Ty.ofCode_code, beq_self_eq_true, Bool.and_self, Option.bind_eq_bind, Option.bind_some, Option.pure_def, pField_pBits, fieldsA_dstP, fieldsA_srcA ha, fieldsA_srcB hb, fieldsA_srcC hc]
  rw [show (fieldsA 0x37 g 0 d.kind d.field noSrc noSrc noSrc 0).modBit = some false from fieldsA_modBit false]
  simp only [Option.bind_some, fieldsA_noA, fieldsA_dst, chk_true]

theorem pmovUnpack (g : Guard) (a : Src) : Statement (.pmovUnpack g a) := by
  intro hw _
  refine encoded_a rfl decodeCmp (formCmp 0x37 rfl) (oneLit_a (by rfl) (by rfl)) fun l ha hb hc => ?_
  show (fun f => (do
        chk (f.ty == 0 && f.noB && f.noC)
        match ← f.modBit with
        | false => do chk f.noA; return .pmovPack f.g (← f.dst)
        | true => do chk (f.dk == 2 && f.d == 0); return .pmovUnpack f.g (← f.srcA l) : Option Instr)) (fieldsA _ _ _ _ _ _ _ _ _) = _
  simp only [AFmt.d1, AFmt.d2, AFmt.d3, AFmt.d2p, fieldsA_g, fieldsA_ty, fieldsA_dk, fieldsA_d, fieldsA_dst, fieldsA_dstV, fieldsA_noA, fieldsA_noB, fieldsA_noC, fieldsA_predA, fieldsA_predB, fieldsA_predC, fieldsA_regA, fieldsA_mod, fieldsA_mod0, fieldsA_modBit, fieldsA_fmod, chk_true, Ty.ofCode_code, beq_self_eq_true, Bool.and_self, Option.bind_eq_bind, Option.bind_some, Option.pure_def, pField_pBits, fieldsA_dstP, fieldsA_srcA ha, fieldsA_srcB hb, fieldsA_srcC hc]
  rw [show (fieldsA 0x37 g 0 2 0 a noSrc noSrc 1).modBit = some true from fieldsA_modBit true]
  simp only [Option.bind_some, fieldsA_dk, fieldsA_d, fieldsA_srcA ha, chk_true]

theorem fadd (g : Guard) (ty : Ty) (m : FMod) (d : Dst) (a b : Src) : Statement (.fadd g ty m d a b) := by
  intro hw _
  have hl : (wf2 g ty Ty.fl58 d a b) = true := hw
  simp only [wf2, wf3, wfShift, Bool.and_eq_true] at hl
  refine encoded_a rfl decodeFloat (formFloat 0x38 rfl) (oneLit_ab (by rfl) hl.2) fun l ha hb hc => ?_
  show (fun f => (do let m ← f.fmod; f.d2 l fun t d a b => .fadd f.g t m d a b : Option Instr)) (fieldsA _ _ _ _ _ _ _ _ _) = _
  simp only [AFmt.d1, AFmt.d2, AFmt.d3, AFmt.d2p, fieldsA_g, fieldsA_ty, fieldsA_dk, fieldsA_d, fieldsA_dst, fieldsA_dstV, fieldsA_noA, fieldsA_noB, fieldsA_noC, fieldsA_predA, fieldsA_predB, fieldsA_predC, fieldsA_regA, fieldsA_mod, fieldsA_mod0, fieldsA_modBit, fieldsA_fmod, chk_true, Ty.ofCode_code, beq_self_eq_true, Bool.and_self, Option.bind_eq_bind, Option.bind_some, Option.pure_def, pField_pBits, fieldsA_dstP, fieldsA_srcA ha, fieldsA_srcB hb, fieldsA_srcC hc]

theorem fsub (g : Guard) (ty : Ty) (m : FMod) (d : Dst) (a b : Src) : Statement (.fsub g ty m d a b) := by
  intro hw _
  have hl : (wf2 g ty Ty.fl58 d a b) = true := hw
  simp only [wf2, wf3, wfShift, Bool.and_eq_true] at hl
  refine encoded_a rfl decodeFloat (formFloat 0x39 rfl) (oneLit_ab (by rfl) hl.2) fun l ha hb hc => ?_
  show (fun f => (do let m ← f.fmod; f.d2 l fun t d a b => .fsub f.g t m d a b : Option Instr)) (fieldsA _ _ _ _ _ _ _ _ _) = _
  simp only [AFmt.d1, AFmt.d2, AFmt.d3, AFmt.d2p, fieldsA_g, fieldsA_ty, fieldsA_dk, fieldsA_d, fieldsA_dst, fieldsA_dstV, fieldsA_noA, fieldsA_noB, fieldsA_noC, fieldsA_predA, fieldsA_predB, fieldsA_predC, fieldsA_regA, fieldsA_mod, fieldsA_mod0, fieldsA_modBit, fieldsA_fmod, chk_true, Ty.ofCode_code, beq_self_eq_true, Bool.and_self, Option.bind_eq_bind, Option.bind_some, Option.pure_def, pField_pBits, fieldsA_dstP, fieldsA_srcA ha, fieldsA_srcB hb, fieldsA_srcC hc]

theorem fmul (g : Guard) (ty : Ty) (m : FMod) (d : Dst) (a b : Src) : Statement (.fmul g ty m d a b) := by
  intro hw _
  have hl : (wf2 g ty Ty.fl58 d a b) = true := hw
  simp only [wf2, wf3, wfShift, Bool.and_eq_true] at hl
  refine encoded_a rfl decodeFloat (formFloat 0x3A rfl) (oneLit_ab (by rfl) hl.2) fun l ha hb hc => ?_
  show (fun f => (do let m ← f.fmod; f.d2 l fun t d a b => .fmul f.g t m d a b : Option Instr)) (fieldsA _ _ _ _ _ _ _ _ _) = _
  simp only [AFmt.d1, AFmt.d2, AFmt.d3, AFmt.d2p, fieldsA_g, fieldsA_ty, fieldsA_dk, fieldsA_d, fieldsA_dst, fieldsA_dstV, fieldsA_noA, fieldsA_noB, fieldsA_noC, fieldsA_predA, fieldsA_predB, fieldsA_predC, fieldsA_regA, fieldsA_mod, fieldsA_mod0, fieldsA_modBit, fieldsA_fmod, chk_true, Ty.ofCode_code, beq_self_eq_true, Bool.and_self, Option.bind_eq_bind, Option.bind_some, Option.pure_def, pField_pBits, fieldsA_dstP, fieldsA_srcA ha, fieldsA_srcB hb, fieldsA_srcC hc]

theorem ffma (g : Guard) (ty : Ty) (m : FMod) (d : Dst) (a b c : Src) : Statement (.ffma g ty m d a b c) := by
  intro hw _
  have hl : (wf3 g ty Ty.fl58 d a b c) = true := hw
  simp only [wf2, wf3, wfShift, Bool.and_eq_true] at hl
  refine encoded_a rfl decodeFloat (formFloat 0x3B rfl) hl.2 fun l ha hb hc => ?_
  show (fun f => (do let m ← f.fmod; f.d3 l fun t d a b c => .ffma f.g t m d a b c : Option Instr)) (fieldsA _ _ _ _ _ _ _ _ _) = _
  simp only [AFmt.d1, AFmt.d2, AFmt.d3, AFmt.d2p, fieldsA_g, fieldsA_ty, fieldsA_dk, fieldsA_d, fieldsA_dst, fieldsA_dstV, fieldsA_noA, fieldsA_noB, fieldsA_noC, fieldsA_predA, fieldsA_predB, fieldsA_predC, fieldsA_regA, fieldsA_mod, fieldsA_mod0, fieldsA_modBit, fieldsA_fmod, chk_true, Ty.ofCode_code, beq_self_eq_true, Bool.and_self, Option.bind_eq_bind, Option.bind_some, Option.pure_def, pField_pBits, fieldsA_dstP, fieldsA_srcA ha, fieldsA_srcB hb, fieldsA_srcC hc]

theorem fmin (g : Guard) (ty : Ty) (d : Dst) (a b : Src) : Statement (.fmin g ty d a b) := by
  intro hw _
  have hl : (wf2 g ty Ty.fl58 d a b) = true := hw
  simp only [wf2, wf3, wfShift, Bool.and_eq_true] at hl
  refine encoded_a rfl decodeFloat (formFloat 0x3C rfl) (oneLit_ab (by rfl) hl.2) fun l ha hb hc => ?_
  show (fun f => (do chk f.mod0; f.d2 l fun t d a b => .fmin f.g t d a b : Option Instr)) (fieldsA _ _ _ _ _ _ _ _ _) = _
  simp only [AFmt.d1, AFmt.d2, AFmt.d3, AFmt.d2p, fieldsA_g, fieldsA_ty, fieldsA_dk, fieldsA_d, fieldsA_dst, fieldsA_dstV, fieldsA_noA, fieldsA_noB, fieldsA_noC, fieldsA_predA, fieldsA_predB, fieldsA_predC, fieldsA_regA, fieldsA_mod, fieldsA_mod0, fieldsA_modBit, fieldsA_fmod, chk_true, Ty.ofCode_code, beq_self_eq_true, Bool.and_self, Option.bind_eq_bind, Option.bind_some, Option.pure_def, pField_pBits, fieldsA_dstP, fieldsA_srcA ha, fieldsA_srcB hb, fieldsA_srcC hc]

theorem fmax (g : Guard) (ty : Ty) (d : Dst) (a b : Src) : Statement (.fmax g ty d a b) := by
  intro hw _
  have hl : (wf2 g ty Ty.fl58 d a b) = true := hw
  simp only [wf2, wf3, wfShift, Bool.and_eq_true] at hl
  refine encoded_a rfl decodeFloat (formFloat 0x3D rfl) (oneLit_ab (by rfl) hl.2) fun l ha hb hc => ?_
  show (fun f => (do chk f.mod0; f.d2 l fun t d a b => .fmax f.g t d a b : Option Instr)) (fieldsA _ _ _ _ _ _ _ _ _) = _
  simp only [AFmt.d1, AFmt.d2, AFmt.d3, AFmt.d2p, fieldsA_g, fieldsA_ty, fieldsA_dk, fieldsA_d, fieldsA_dst, fieldsA_dstV, fieldsA_noA, fieldsA_noB, fieldsA_noC, fieldsA_predA, fieldsA_predB, fieldsA_predC, fieldsA_regA, fieldsA_mod, fieldsA_mod0, fieldsA_modBit, fieldsA_fmod, chk_true, Ty.ofCode_code, beq_self_eq_true, Bool.and_self, Option.bind_eq_bind, Option.bind_some, Option.pure_def, pField_pBits, fieldsA_dstP, fieldsA_srcA ha, fieldsA_srcB hb, fieldsA_srcC hc]

theorem frcp (g : Guard) (ty : Ty) (m : FMod) (d : Dst) (a : Src) : Statement (.frcp g ty m d a) := by
  intro hw _
  refine encoded_a rfl decodeFloat (formFloat 0x3E rfl) (oneLit_a (by rfl) (by rfl)) fun l ha hb hc => ?_
  show (fun f => (do let m ← f.fmod; f.d1 l fun t d a => .frcp f.g t m d a : Option Instr)) (fieldsA _ _ _ _ _ _ _ _ _) = _
  simp only [AFmt.d1, AFmt.d2, AFmt.d3, AFmt.d2p, fieldsA_g, fieldsA_ty, fieldsA_dk, fieldsA_d, fieldsA_dst, fieldsA_dstV, fieldsA_noA, fieldsA_noB, fieldsA_noC, fieldsA_predA, fieldsA_predB, fieldsA_predC, fieldsA_regA, fieldsA_mod, fieldsA_mod0, fieldsA_modBit, fieldsA_fmod, chk_true, Ty.ofCode_code, beq_self_eq_true, Bool.and_self, Option.bind_eq_bind, Option.bind_some, Option.pure_def, pField_pBits, fieldsA_dstP, fieldsA_srcA ha, fieldsA_srcB hb, fieldsA_srcC hc]

theorem frsq (g : Guard) (ty : Ty) (m : FMod) (d : Dst) (a : Src) : Statement (.frsq g ty m d a) := by
  intro hw _
  refine encoded_a rfl decodeFloat (formFloat 0x3F rfl) (oneLit_a (by rfl) (by rfl)) fun l ha hb hc => ?_
  show (fun f => (do let m ← f.fmod; f.d1 l fun t d a => .frsq f.g t m d a : Option Instr)) (fieldsA _ _ _ _ _ _ _ _ _) = _
  simp only [AFmt.d1, AFmt.d2, AFmt.d3, AFmt.d2p, fieldsA_g, fieldsA_ty, fieldsA_dk, fieldsA_d, fieldsA_dst, fieldsA_dstV, fieldsA_noA, fieldsA_noB, fieldsA_noC, fieldsA_predA, fieldsA_predB, fieldsA_predC, fieldsA_regA, fieldsA_mod, fieldsA_mod0, fieldsA_modBit, fieldsA_fmod, chk_true, Ty.ofCode_code, beq_self_eq_true, Bool.and_self, Option.bind_eq_bind, Option.bind_some, Option.pure_def, pField_pBits, fieldsA_dstP, fieldsA_srcA ha, fieldsA_srcB hb, fieldsA_srcC hc]

theorem fsqrt (g : Guard) (ty : Ty) (m : FMod) (d : Dst) (a : Src) : Statement (.fsqrt g ty m d a) := by
  intro hw _
  refine encoded_a rfl decodeFloat (formFloat 0x40 rfl) (oneLit_a (by rfl) (by rfl)) fun l ha hb hc => ?_
  show (fun f => (do let m ← f.fmod; f.d1 l fun t d a => .fsqrt f.g t m d a : Option Instr)) (fieldsA _ _ _ _ _ _ _ _ _) = _
  simp only [AFmt.d1, AFmt.d2, AFmt.d3, AFmt.d2p, fieldsA_g, fieldsA_ty, fieldsA_dk, fieldsA_d, fieldsA_dst, fieldsA_dstV, fieldsA_noA, fieldsA_noB, fieldsA_noC, fieldsA_predA, fieldsA_predB, fieldsA_predC, fieldsA_regA, fieldsA_mod, fieldsA_mod0, fieldsA_modBit, fieldsA_fmod, chk_true, Ty.ofCode_code, beq_self_eq_true, Bool.and_self, Option.bind_eq_bind, Option.bind_some, Option.pure_def, pField_pBits, fieldsA_dstP, fieldsA_srcA ha, fieldsA_srcB hb, fieldsA_srcC hc]

theorem fdiv (g : Guard) (ty : Ty) (m : FMod) (d : Dst) (a b : Src) : Statement (.fdiv g ty m d a b) := by
  intro hw _
  have hl : (wf2 g ty [.f32, .f64] d a b) = true := hw
  simp only [wf2, wf3, wfShift, Bool.and_eq_true] at hl
  refine encoded_a rfl decodeFloat (formFloat 0x41 rfl) (oneLit_ab (by rfl) hl.2) fun l ha hb hc => ?_
  show (fun f => (do let m ← f.fmod; f.d2 l fun t d a b => .fdiv f.g t m d a b : Option Instr)) (fieldsA _ _ _ _ _ _ _ _ _) = _
  simp only [AFmt.d1, AFmt.d2, AFmt.d3, AFmt.d2p, fieldsA_g, fieldsA_ty, fieldsA_dk, fieldsA_d, fieldsA_dst, fieldsA_dstV, fieldsA_noA, fieldsA_noB, fieldsA_noC, fieldsA_predA, fieldsA_predB, fieldsA_predC, fieldsA_regA, fieldsA_mod, fieldsA_mod0, fieldsA_modBit, fieldsA_fmod, chk_true, Ty.ofCode_code, beq_self_eq_true, Bool.and_self, Option.bind_eq_bind, Option.bind_some, Option.pure_def, pField_pBits, fieldsA_dstP, fieldsA_srcA ha, fieldsA_srcB hb, fieldsA_srcC hc]

theorem fexp2 (g : Guard) (ty : Ty) (m : FMod) (d : Dst) (a : Src) : Statement (.fexp2 g ty m d a) := by
  intro hw _
  refine encoded_a rfl decodeFloat (formFloat 0x42 rfl) (oneLit_a (by rfl) (by rfl)) fun l ha hb hc => ?_
  show (fun f => (do let m ← f.fmod; f.d1 l fun t d a => .fexp2 f.g t m d a : Option Instr)) (fieldsA _ _ _ _ _ _ _ _ _) = _
  simp only [AFmt.d1, AFmt.d2, AFmt.d3, AFmt.d2p, fieldsA_g, fieldsA_ty, fieldsA_dk, fieldsA_d, fieldsA_dst, fieldsA_dstV, fieldsA_noA, fieldsA_noB, fieldsA_noC, fieldsA_predA, fieldsA_predB, fieldsA_predC, fieldsA_regA, fieldsA_mod, fieldsA_mod0, fieldsA_modBit, fieldsA_fmod, chk_true, Ty.ofCode_code, beq_self_eq_true, Bool.and_self, Option.bind_eq_bind, Option.bind_some, Option.pure_def, pField_pBits, fieldsA_dstP, fieldsA_srcA ha, fieldsA_srcB hb, fieldsA_srcC hc]

theorem flog2 (g : Guard) (ty : Ty) (m : FMod) (d : Dst) (a : Src) : Statement (.flog2 g ty m d a) := by
  intro hw _
  refine encoded_a rfl decodeFloat (formFloat 0x43 rfl) (oneLit_a (by rfl) (by rfl)) fun l ha hb hc => ?_
  show (fun f => (do let m ← f.fmod; f.d1 l fun t d a => .flog2 f.g t m d a : Option Instr)) (fieldsA _ _ _ _ _ _ _ _ _) = _
  simp only [AFmt.d1, AFmt.d2, AFmt.d3, AFmt.d2p, fieldsA_g, fieldsA_ty, fieldsA_dk, fieldsA_d, fieldsA_dst, fieldsA_dstV, fieldsA_noA, fieldsA_noB, fieldsA_noC, fieldsA_predA, fieldsA_predB, fieldsA_predC, fieldsA_regA, fieldsA_mod, fieldsA_mod0, fieldsA_modBit, fieldsA_fmod, chk_true, Ty.ofCode_code, beq_self_eq_true, Bool.and_self, Option.bind_eq_bind, Option.bind_some, Option.pure_def, pField_pBits, fieldsA_dstP, fieldsA_srcA ha, fieldsA_srcB hb, fieldsA_srcC hc]

theorem fsin (g : Guard) (ty : Ty) (m : FMod) (d : Dst) (a : Src) : Statement (.fsin g ty m d a) := by
  intro hw _
  refine encoded_a rfl decodeFloat (formFloat 0x44 rfl) (oneLit_a (by rfl) (by rfl)) fun l ha hb hc => ?_
  show (fun f => (do let m ← f.fmod; f.d1 l fun t d a => .fsin f.g t m d a : Option Instr)) (fieldsA _ _ _ _ _ _ _ _ _) = _
  simp only [AFmt.d1, AFmt.d2, AFmt.d3, AFmt.d2p, fieldsA_g, fieldsA_ty, fieldsA_dk, fieldsA_d, fieldsA_dst, fieldsA_dstV, fieldsA_noA, fieldsA_noB, fieldsA_noC, fieldsA_predA, fieldsA_predB, fieldsA_predC, fieldsA_regA, fieldsA_mod, fieldsA_mod0, fieldsA_modBit, fieldsA_fmod, chk_true, Ty.ofCode_code, beq_self_eq_true, Bool.and_self, Option.bind_eq_bind, Option.bind_some, Option.pure_def, pField_pBits, fieldsA_dstP, fieldsA_srcA ha, fieldsA_srcB hb, fieldsA_srcC hc]

theorem fcos (g : Guard) (ty : Ty) (m : FMod) (d : Dst) (a : Src) : Statement (.fcos g ty m d a) := by
  intro hw _
  refine encoded_a rfl decodeFloat (formFloat 0x45 rfl) (oneLit_a (by rfl) (by rfl)) fun l ha hb hc => ?_
  show (fun f => (do let m ← f.fmod; f.d1 l fun t d a => .fcos f.g t m d a : Option Instr)) (fieldsA _ _ _ _ _ _ _ _ _) = _
  simp only [AFmt.d1, AFmt.d2, AFmt.d3, AFmt.d2p, fieldsA_g, fieldsA_ty, fieldsA_dk, fieldsA_d, fieldsA_dst, fieldsA_dstV, fieldsA_noA, fieldsA_noB, fieldsA_noC, fieldsA_predA, fieldsA_predB, fieldsA_predC, fieldsA_regA, fieldsA_mod, fieldsA_mod0, fieldsA_modBit, fieldsA_fmod, chk_true, Ty.ofCode_code, beq_self_eq_true, Bool.and_self, Option.bind_eq_bind, Option.bind_some, Option.pure_def, pField_pBits, fieldsA_dstP, fieldsA_srcA ha, fieldsA_srcB hb, fieldsA_srcC hc]

theorem ftanh (g : Guard) (ty : Ty) (m : FMod) (d : Dst) (a : Src) : Statement (.ftanh g ty m d a) := by
  intro hw _
  refine encoded_a rfl decodeFloat (formFloat 0x46 rfl) (oneLit_a (by rfl) (by rfl)) fun l ha hb hc => ?_
  show (fun f => (do let m ← f.fmod; f.d1 l fun t d a => .ftanh f.g t m d a : Option Instr)) (fieldsA _ _ _ _ _ _ _ _ _) = _
  simp only [AFmt.d1, AFmt.d2, AFmt.d3, AFmt.d2p, fieldsA_g, fieldsA_ty, fieldsA_dk, fieldsA_d, fieldsA_dst, fieldsA_dstV, fieldsA_noA, fieldsA_noB, fieldsA_noC, fieldsA_predA, fieldsA_predB, fieldsA_predC, fieldsA_regA, fieldsA_mod, fieldsA_mod0, fieldsA_modBit, fieldsA_fmod, chk_true, Ty.ofCode_code, beq_self_eq_true, Bool.and_self, Option.bind_eq_bind, Option.bind_some, Option.pure_def, pField_pBits, fieldsA_dstP, fieldsA_srcA ha, fieldsA_srcB hb, fieldsA_srcC hc]

theorem fdot2 (g : Guard) (ty : Ty) (m : FMod) (d : Dst) (a b c : Src) : Statement (.fdot2 g ty m d a b c) := by
  intro hw _
  have hl : (g.wf && [Ty.bf16x2, Ty.f16x2].contains ty && d.okW false && oneLit [a, b, c]) = true := hw
  simp only [wf2, wf3, wfShift, Bool.and_eq_true] at hl
  refine encoded_a rfl decodeFloat (formFloat 0x47 rfl) hl.2 fun l ha hb hc => ?_
  show (fun f => (do let m ← f.fmod; f.d3 l fun t d a b c => .fdot2 f.g t m d a b c : Option Instr)) (fieldsA _ _ _ _ _ _ _ _ _) = _
  simp only [AFmt.d1, AFmt.d2, AFmt.d3, AFmt.d2p, fieldsA_g, fieldsA_ty, fieldsA_dk, fieldsA_d, fieldsA_dst, fieldsA_dstV, fieldsA_noA, fieldsA_noB, fieldsA_noC, fieldsA_predA, fieldsA_predB, fieldsA_predC, fieldsA_regA, fieldsA_mod, fieldsA_mod0, fieldsA_modBit, fieldsA_fmod, chk_true, Ty.ofCode_code, beq_self_eq_true, Bool.and_self, Option.bind_eq_bind, Option.bind_some, Option.pure_def, pField_pBits, fieldsA_dstP, fieldsA_srcA ha, fieldsA_srcB hb, fieldsA_srcC hc]

theorem frnd (g : Guard) (ty : Ty) (m : FMod) (d : Dst) (a : Src) : Statement (.frnd g ty m d a) := by
  intro hw _
  refine encoded_a rfl decodeFloat (formFloat 0x48 rfl) (oneLit_a (by rfl) (by rfl)) fun l ha hb hc => ?_
  show (fun f => (do let m ← f.fmod; f.d1 l fun t d a => .frnd f.g t m d a : Option Instr)) (fieldsA _ _ _ _ _ _ _ _ _) = _
  simp only [AFmt.d1, AFmt.d2, AFmt.d3, AFmt.d2p, fieldsA_g, fieldsA_ty, fieldsA_dk, fieldsA_d, fieldsA_dst, fieldsA_dstV, fieldsA_noA, fieldsA_noB, fieldsA_noC, fieldsA_predA, fieldsA_predB, fieldsA_predC, fieldsA_regA, fieldsA_mod, fieldsA_mod0, fieldsA_modBit, fieldsA_fmod, chk_true, Ty.ofCode_code, beq_self_eq_true, Bool.and_self, Option.bind_eq_bind, Option.bind_some, Option.pure_def, pField_pBits, fieldsA_dstP, fieldsA_srcA ha, fieldsA_srcB hb, fieldsA_srcC hc]

theorem fscale (g : Guard) (ty : Ty) (m : FMod) (d : Dst) (a b : Src) : Statement (.fscale g ty m d a b) := by
  intro hw _
  have hl : (wfShift g ty [.f32, .f64] d a b) = true := hw
  simp only [wf2, wf3, wfShift, Bool.and_eq_true] at hl
  refine encoded_a rfl decodeFloat (formFloat 0x49 rfl) (oneLit_ab (by rfl) hl.2) fun l ha hb hc => ?_
  show (fun f => (do let m ← f.fmod; f.d2 l fun t d a b => .fscale f.g t m d a b : Option Instr)) (fieldsA _ _ _ _ _ _ _ _ _) = _
  simp only [AFmt.d1, AFmt.d2, AFmt.d3, AFmt.d2p, fieldsA_g, fieldsA_ty, fieldsA_dk, fieldsA_d, fieldsA_dst, fieldsA_dstV, fieldsA_noA, fieldsA_noB, fieldsA_noC, fieldsA_predA, fieldsA_predB, fieldsA_predC, fieldsA_regA, fieldsA_mod, fieldsA_mod0, fieldsA_modBit, fieldsA_fmod, chk_true, Ty.ofCode_code, beq_self_eq_true, Bool.and_self, Option.bind_eq_bind, Option.bind_some, Option.pure_def, pField_pBits, fieldsA_dstP, fieldsA_srcA ha, fieldsA_srcB hb, fieldsA_srcC hc]

theorem fgetx (g : Guard) (ty : Ty) (d : Dst) (a : Src) : Statement (.fgetx g ty d a) := by
  intro hw _
  refine encoded_a rfl decodeFloat (formFloat 0x4A rfl) (oneLit_a (by rfl) (by rfl)) fun l ha hb hc => ?_
  show (fun f => (do chk f.mod0; f.d1 l fun t d a => .fgetx f.g t d a : Option Instr)) (fieldsA _ _ _ _ _ _ _ _ _) = _
  simp only [AFmt.d1, AFmt.d2, AFmt.d3, AFmt.d2p, fieldsA_g, fieldsA_ty, fieldsA_dk, fieldsA_d, fieldsA_dst, fieldsA_dstV, fieldsA_noA, fieldsA_noB, fieldsA_noC, fieldsA_predA, fieldsA_predB, fieldsA_predC, fieldsA_regA, fieldsA_mod, fieldsA_mod0, fieldsA_modBit, fieldsA_fmod, chk_true, Ty.ofCode_code, beq_self_eq_true, Bool.and_self, Option.bind_eq_bind, Option.bind_some, Option.pure_def, pField_pBits, fieldsA_dstP, fieldsA_srcA ha, fieldsA_srcB hb, fieldsA_srcC hc]

theorem fgetm (g : Guard) (ty : Ty) (d : Dst) (a : Src) : Statement (.fgetm g ty d a) := by
  intro hw _
  refine encoded_a rfl decodeFloat (formFloat 0x4B rfl) (oneLit_a (by rfl) (by rfl)) fun l ha hb hc => ?_
  show (fun f => (do chk f.mod0; f.d1 l fun t d a => .fgetm f.g t d a : Option Instr)) (fieldsA _ _ _ _ _ _ _ _ _) = _
  simp only [AFmt.d1, AFmt.d2, AFmt.d3, AFmt.d2p, fieldsA_g, fieldsA_ty, fieldsA_dk, fieldsA_d, fieldsA_dst, fieldsA_dstV, fieldsA_noA, fieldsA_noB, fieldsA_noC, fieldsA_predA, fieldsA_predB, fieldsA_predC, fieldsA_regA, fieldsA_mod, fieldsA_mod0, fieldsA_modBit, fieldsA_fmod, chk_true, Ty.ofCode_code, beq_self_eq_true, Bool.and_self, Option.bind_eq_bind, Option.bind_some, Option.pure_def, pField_pBits, fieldsA_dstP, fieldsA_srcA ha, fieldsA_srcB hb, fieldsA_srcC hc]

theorem cvt (g : Guard) (ty sty : Ty) (m : FMod) (d : Dst) (a b : Src) : Statement (.cvt g ty sty m d a b) := by
  intro hw _
  have hl : (g.wf && cvtOk ty sty b && d.okW ty.is64 && a.okW sty.is64 && oneLit [a, b]) = true := hw
  simp only [wf2, wf3, wfShift, Bool.and_eq_true] at hl
  refine encoded_a rfl decodeFloat (formFloat 0x50 rfl) (oneLit_ab (by rfl) hl.2) fun l ha hb hc => ?_
  show (fun f => (do
        chk (f.mod.getLsbD 3 == false)
        let sty ← Ty.ofCode (f.mod.extractLsb' 4 4)
        f.d2 l fun t d a b => .cvt f.g t sty (FMod.ofCode (f.mod.extractLsb' 0 3)) d a b : Option Instr)) (fieldsA _ _ _ _ _ _ _ _ _) = _
  simp only [AFmt.d1, AFmt.d2, AFmt.d3, AFmt.d2p, fieldsA_g, fieldsA_ty, fieldsA_dk, fieldsA_d, fieldsA_dst, fieldsA_dstV, fieldsA_noA, fieldsA_noB, fieldsA_noC, fieldsA_predA, fieldsA_predB, fieldsA_predC, fieldsA_regA, fieldsA_mod, fieldsA_mod0, fieldsA_modBit, fieldsA_fmod, chk_true, Ty.ofCode_code, beq_self_eq_true, Bool.and_self, Option.bind_eq_bind, Option.bind_some, Option.pure_def, pField_pBits, fieldsA_dstP, fieldsA_srcA ha, fieldsA_srcB hb, fieldsA_srcC hc]
  obtain ⟨r, z⟩ := m
  cases sty <;> cases r <;> cases z <;> rfl

theorem sbpack (g : Guard) (ty : Ty) (fmt : SbFmt) (dense len32 : Bool) (d : Dst) (a : Src) : Statement (.sbpack g ty fmt dense len32 d a) := by
  intro hw _
  refine encoded_a rfl decodeFloat (formFloat 0x51 rfl) (oneLit_a (by rfl) (by rfl)) fun l ha hb hc => ?_
  show (fun f => (do
        chk (f.mod.getLsbD 4 == false && f.mod.extractLsb' 0 3 == 0)
        let q ← SbFmt.ofCode (f.mod.extractLsb' 6 2)
        f.d1 l fun t d a => .sbpack f.g t q (f.mod.getLsbD 5) (f.mod.getLsbD 3) d a : Option Instr)) (fieldsA _ _ _ _ _ _ _ _ _) = _
  simp only [AFmt.d1, AFmt.d2, AFmt.d3, AFmt.d2p, fieldsA_g, fieldsA_ty, fieldsA_dk, fieldsA_d, fieldsA_dst, fieldsA_dstV, fieldsA_noA, fieldsA_noB, fieldsA_noC, fieldsA_predA, fieldsA_predB, fieldsA_predC, fieldsA_regA, fieldsA_mod, fieldsA_mod0, fieldsA_modBit, fieldsA_fmod, chk_true, Ty.ofCode_code, beq_self_eq_true, Bool.and_self, Option.bind_eq_bind, Option.bind_some, Option.pure_def, pField_pBits, fieldsA_dstP, fieldsA_srcA ha, fieldsA_srcB hb, fieldsA_srcC hc]
  cases fmt <;> cases dense <;> cases len32 <;> rfl

theorem sbunpk (g : Guard) (fmt : SbFmt) (d : Dst) (a : Fin 256) (b c : Src) : Statement (.sbunpk g fmt d a b c) := by
  intro hw _
  have hl : (g.wf && d.okW false && a.val % 4 == 0 && oneLit [b, c]) = true := hw
  simp only [wf2, wf3, wfShift, Bool.and_eq_true] at hl
  refine encoded_a rfl decodeFloat (formFloat 0x52 rfl) (oneLit_bc (by rfl) hl.2) fun l ha hb hc => ?_
  show (fun f => (do
        chk (f.ty == 5 && f.mod.extractLsb' 0 6 == 0)
        let q ← SbFmt.ofCode (f.mod.extractLsb' 6 2)
        return .sbunpk f.g q (← f.dst) (← f.regA) (← f.srcB l) (← f.srcC l) : Option Instr)) (fieldsA _ _ _ _ _ _ _ _ _) = _
  simp only [AFmt.d1, AFmt.d2, AFmt.d3, AFmt.d2p, fieldsA_g, fieldsA_ty, fieldsA_dk, fieldsA_d, fieldsA_dst, fieldsA_dstV, fieldsA_noA, fieldsA_noB, fieldsA_noC, fieldsA_predA, fieldsA_predB, fieldsA_predC, fieldsA_regA, fieldsA_mod, fieldsA_mod0, fieldsA_modBit, fieldsA_fmod, chk_true, Ty.ofCode_code, beq_self_eq_true, Bool.and_self, Option.bind_eq_bind, Option.bind_some, Option.pure_def, pField_pBits, fieldsA_dstP, fieldsA_srcA ha, fieldsA_srcB hb, fieldsA_srcC hc]
  cases fmt <;> rfl

theorem sbscl (g : Guard) (ty : Ty) (fmt : SbFmt) (d : Dst) (a b c : Src) : Statement (.sbscl g ty fmt d a b c) := by
  intro hw _
  have hl : (g.wf && [Ty.f32, Ty.bf16x2].contains ty && d.okW false && oneLit [a, b, c]) = true := hw
  simp only [wf2, wf3, wfShift, Bool.and_eq_true] at hl
  refine encoded_a rfl decodeFloat (formFloat 0x53 rfl) hl.2 fun l ha hb hc => ?_
  show (fun f => (do
        chk (f.mod.extractLsb' 0 6 == 0)
        let q ← SbFmt.ofCode (f.mod.extractLsb' 6 2)
        f.d3 l fun t d a b c => .sbscl f.g t q d a b c : Option Instr)) (fieldsA _ _ _ _ _ _ _ _ _) = _
  simp only [AFmt.d1, AFmt.d2, AFmt.d3, AFmt.d2p, fieldsA_g, fieldsA_ty, fieldsA_dk, fieldsA_d, fieldsA_dst, fieldsA_dstV, fieldsA_noA, fieldsA_noB, fieldsA_noC, fieldsA_predA, fieldsA_predB, fieldsA_predC, fieldsA_regA, fieldsA_mod, fieldsA_mod0, fieldsA_modBit, fieldsA_fmod, chk_true, Ty.ofCode_code, beq_self_eq_true, Bool.and_self, Option.bind_eq_bind, Option.bind_some, Option.pure_def, pField_pBits, fieldsA_dstP, fieldsA_srcA ha, fieldsA_srcB hb, fieldsA_srcC hc]
  cases fmt <;> rfl

theorem rng (g : Guard) (ty : Ty) (d : Dst) (a b c : Src) : Statement (.rng g ty d a b c) := by
  intro hw _
  have hl : (g.wf && [Ty.n32, Ty.f32].contains ty && d.okW false && oneLit [a, b, c]) = true := hw
  simp only [wf2, wf3, wfShift, Bool.and_eq_true] at hl
  refine encoded_a rfl decodeFloat (formFloat 0x54 rfl) hl.2 fun l ha hb hc => ?_
  show (fun f => (do chk f.mod0; f.d3 l fun t d a b c => .rng f.g t d a b c : Option Instr)) (fieldsA _ _ _ _ _ _ _ _ _) = _
  simp only [AFmt.d1, AFmt.d2, AFmt.d3, AFmt.d2p, fieldsA_g, fieldsA_ty, fieldsA_dk, fieldsA_d, fieldsA_dst, fieldsA_dstV, fieldsA_noA, fieldsA_noB, fieldsA_noC, fieldsA_predA, fieldsA_predB, fieldsA_predC, fieldsA_regA, fieldsA_mod, fieldsA_mod0, fieldsA_modBit, fieldsA_fmod, chk_true, Ty.ofCode_code, beq_self_eq_true, Bool.and_self, Option.bind_eq_bind, Option.bind_some, Option.pure_def, pField_pBits, fieldsA_dstP, fieldsA_srcA ha, fieldsA_srcB hb, fieldsA_srcC hc]

theorem mov (g : Guard) (ty : Ty) (d : Dst) (a : Src) : Statement (.mov g ty d a) := by
  intro hw _
  refine encoded_a rfl decodeMove (formMove 0x58 rfl) (oneLit_a (by rfl) (by rfl)) fun l ha hb hc => ?_
  show (fun f => (do chk f.mod0; f.d1 l fun t d a => .mov f.g t d a : Option Instr)) (fieldsA _ _ _ _ _ _ _ _ _) = _
  simp only [AFmt.d1, AFmt.d2, AFmt.d3, AFmt.d2p, fieldsA_g, fieldsA_ty, fieldsA_dk, fieldsA_d, fieldsA_dst, fieldsA_dstV, fieldsA_noA, fieldsA_noB, fieldsA_noC, fieldsA_predA, fieldsA_predB, fieldsA_predC, fieldsA_regA, fieldsA_mod, fieldsA_mod0, fieldsA_modBit, fieldsA_fmod, chk_true, Ty.ofCode_code, beq_self_eq_true, Bool.and_self, Option.bind_eq_bind, Option.bind_some, Option.pure_def, pField_pBits, fieldsA_dstP, fieldsA_srcA ha, fieldsA_srcB hb, fieldsA_srcC hc]

theorem movl (g : Guard) (d a : Fin 256) : Statement (.movl g d a) := by
  intro hw _
  refine encoded_a rfl decodeMove (formMove 0x59 rfl) (oneLit_a (by rfl) (by rfl)) fun l ha hb hc => ?_
  show (fun f => (do
        chk (f.ty == 0 && f.mod0 && f.noB && f.noC)
        return .movl f.g (← f.dstV) (← f.regA) : Option Instr)) (fieldsA _ _ _ _ _ _ _ _ _) = _
  simp only [AFmt.d1, AFmt.d2, AFmt.d3, AFmt.d2p, fieldsA_g, fieldsA_ty, fieldsA_dk, fieldsA_d, fieldsA_dst, fieldsA_dstV, fieldsA_noA, fieldsA_noB, fieldsA_noC, fieldsA_predA, fieldsA_predB, fieldsA_predC, fieldsA_regA, fieldsA_mod, fieldsA_mod0, fieldsA_modBit, fieldsA_fmod, chk_true, Ty.ofCode_code, beq_self_eq_true, Bool.and_self, Option.bind_eq_bind, Option.bind_some, Option.pure_def, pField_pBits, fieldsA_dstP, fieldsA_srcA ha, fieldsA_srcB hb, fieldsA_srcC hc]

theorem shfl (g : Guard) (ty : Ty) (mode : ShflMode) (seg : Fin 6) (d a : Fin 256) (b : Src) : Statement (.shfl g ty mode seg d a b) := by
  intro hw _
  refine encoded_a rfl decodeMove (formMove 0x5A rfl) (oneLit_b (by rfl) (by rfl)) fun l ha hb hc => ?_
  show (fun f => (do
        chk (f.noC && f.mod.extractLsb' 5 3 == 0)
        let seg := (f.mod.extractLsb' 2 3).toNat
        if h : seg < 6 then
          return .shfl f.g (← Ty.ofCode f.ty) (ShflMode.ofCode (f.mod.extractLsb' 0 2)) ⟨seg, h⟩ (← f.dstV) (← f.regA)
            (← f.srcB l)
        else none : Option Instr)) (fieldsA _ _ _ _ _ _ _ _ _) = _
  simp only [AFmt.d1, AFmt.d2, AFmt.d3, AFmt.d2p, fieldsA_g, fieldsA_ty, fieldsA_dk, fieldsA_d, fieldsA_dst, fieldsA_dstV, fieldsA_noA, fieldsA_noB, fieldsA_noC, fieldsA_predA, fieldsA_predB, fieldsA_predC, fieldsA_regA, fieldsA_mod, fieldsA_mod0, fieldsA_modBit, fieldsA_fmod, chk_true, Ty.ofCode_code, beq_self_eq_true, Bool.and_self, Option.bind_eq_bind, Option.bind_some, Option.pure_def, pField_pBits, fieldsA_dstP, fieldsA_srcA ha, fieldsA_srcB hb, fieldsA_srcC hc]
  fin_cases seg <;> cases mode <;> rfl

theorem bcast (g : Guard) (ty : Ty) (d : Dst) (a : Fin 256) (b : Src) : Statement (.bcast g ty d a b) := by
  intro hw _
  refine encoded_a rfl decodeMove (formMove 0x5B rfl) (oneLit_b (by rfl) (by rfl)) fun l ha hb hc => ?_
  show (fun f => (do
        chk (f.noC && f.mod0)
        return .bcast f.g (← Ty.ofCode f.ty) (← f.dst) (← f.regA) (← f.srcB l) : Option Instr)) (fieldsA _ _ _ _ _ _ _ _ _) = _
  simp only [AFmt.d1, AFmt.d2, AFmt.d3, AFmt.d2p, fieldsA_g, fieldsA_ty, fieldsA_dk, fieldsA_d, fieldsA_dst, fieldsA_dstV, fieldsA_noA, fieldsA_noB, fieldsA_noC, fieldsA_predA, fieldsA_predB, fieldsA_predC, fieldsA_regA, fieldsA_mod, fieldsA_mod0, fieldsA_modBit, fieldsA_fmod, chk_true, Ty.ofCode_code, beq_self_eq_true, Bool.and_self, Option.bind_eq_bind, Option.bind_some, Option.pure_def, pField_pBits, fieldsA_dstP, fieldsA_srcA ha, fieldsA_srcB hb, fieldsA_srcC hc]

theorem redux (g : Guard) (ty : Ty) (op : ReduxOp) (m : FMod) (d : Dst) (a : Fin 256) : Statement (.redux g ty op m d a) := by
  intro hw _
  refine encoded_a rfl decodeMove (formMove 0x5C rfl) (oneLit_a (by rfl) (by rfl)) fun l ha hb hc => ?_
  show (fun f => (do
        chk (f.noB && f.noC && f.mod.extractLsb' 3 2 == 0)
        return .redux f.g (← Ty.ofCode f.ty) (← ReduxOp.ofCode (f.mod.extractLsb' 5 3))
          (FMod.ofCode (f.mod.extractLsb' 0 3)) (← f.dst) (← f.regA) : Option Instr)) (fieldsA _ _ _ _ _ _ _ _ _) = _
  simp only [AFmt.d1, AFmt.d2, AFmt.d3, AFmt.d2p, fieldsA_g, fieldsA_ty, fieldsA_dk, fieldsA_d, fieldsA_dst, fieldsA_dstV, fieldsA_noA, fieldsA_noB, fieldsA_noC, fieldsA_predA, fieldsA_predB, fieldsA_predC, fieldsA_regA, fieldsA_mod, fieldsA_mod0, fieldsA_modBit, fieldsA_fmod, chk_true, Ty.ofCode_code, beq_self_eq_true, Bool.and_self, Option.bind_eq_bind, Option.bind_some, Option.pure_def, pField_pBits, fieldsA_dstP, fieldsA_srcA ha, fieldsA_srcB hb, fieldsA_srcC hc]
  obtain ⟨r, z⟩ := m
  cases op <;> cases r <;> cases z <;> rfl

theorem gets (g : Guard) (ty : Ty) (d : Dst) (code : BitVec 8) : Statement (.gets g ty d code) := by
  intro hw _
  refine encoded_a rfl decodeMove (formMove 0x5D rfl) (oneLit_a (by rfl) (by rfl)) fun l ha hb hc => ?_
  show (fun f => (do
        chk (f.noB && f.noC && f.mod0 && f.ka == 0)
        return .gets f.g (← Ty.ofCode f.ty) (← f.dst) f.a : Option Instr)) (fieldsA _ _ _ _ _ _ _ _ _) = _
  simp only [AFmt.d1, AFmt.d2, AFmt.d3, AFmt.d2p, fieldsA_g, fieldsA_ty, fieldsA_dk, fieldsA_d, fieldsA_dst, fieldsA_dstV, fieldsA_noA, fieldsA_noB, fieldsA_noC, fieldsA_predA, fieldsA_predB, fieldsA_predC, fieldsA_regA, fieldsA_mod, fieldsA_mod0, fieldsA_modBit, fieldsA_fmod, chk_true, Ty.ofCode_code, beq_self_eq_true, Bool.and_self, Option.bind_eq_bind, Option.bind_some, Option.pure_def, pField_pBits, fieldsA_dstP, fieldsA_srcA ha, fieldsA_srcB hb, fieldsA_srcC hc]
  simp [fieldsA, Src.field, Src.kind, chk]

theorem sets (g : Guard) (ty : Ty) (code : BitVec 8) (a : Src) : Statement (.sets g ty code a) := by
  intro hw _
  refine encoded_a rfl decodeMove (formMove 0x5E rfl) (oneLit_a (by rfl) (by rfl)) fun l ha hb hc => ?_
  show (fun f => (do
        chk (f.noB && f.noC && f.mod0 && f.dk == 0)
        return .sets f.g (← Ty.ofCode f.ty) f.d (← f.srcA l) : Option Instr)) (fieldsA _ _ _ _ _ _ _ _ _) = _
  simp only [AFmt.d1, AFmt.d2, AFmt.d3, AFmt.d2p, fieldsA_g, fieldsA_ty, fieldsA_dk, fieldsA_d, fieldsA_dst, fieldsA_dstV, fieldsA_noA, fieldsA_noB, fieldsA_noC, fieldsA_predA, fieldsA_predB, fieldsA_predC, fieldsA_regA, fieldsA_mod, fieldsA_mod0, fieldsA_modBit, fieldsA_fmod, chk_true, Ty.ofCode_code, beq_self_eq_true, Bool.and_self, Option.bind_eq_bind, Option.bind_some, Option.pure_def, pField_pBits, fieldsA_dstP, fieldsA_srcA ha, fieldsA_srcB hb, fieldsA_srcC hc]

theorem ld (g : Guard) (sz : MSize) (sco : Scope) (ord : Order) (ch : Cache) (d : Fin 256) (m : MAddr) : Statement (.ld g sz sco ord ch d m) := by
  intro hw _
  refine encoded_m rfl rfl ?_
  show (fun f : MFmt => let sco := Scope.ofCode f.sco; let ord := Order.ofCode f.ord; let ch := Cache.ofCode f.ch
    (do chk (f.x == 0); return .ld f.g (← MSize.ofCode f.sz) sco ord ch (vField f.d) (← f.maddr) : Option Instr)) _ = _
  simp only [MFmt.g_of, MFmt.maddr, MFmt.waddr, MFmt.op, op_hi, op_lo, Base.ofBits_field, MSize.ofCode_code, Scope.ofCode_code, Order.ofCode_code, Cache.ofCode_code, LdgOp.ofCode_code, AtomOp.ofCode_code, vField_vBits, sField_sBits, chk_true, beq_self_eq_true, Bool.and_self, Option.bind_eq_bind, Option.bind_some, Option.pure_def]

theorem st (g : Guard) (sz : MSize) (sco : Scope) (ord : Order) (ch : Cache) (d : Fin 256) (m : MAddr) : Statement (.st g sz sco ord ch d m) := by
  intro hw _
  refine encoded_m rfl rfl ?_
  show (fun f : MFmt => let sco := Scope.ofCode f.sco; let ord := Order.ofCode f.ord; let ch := Cache.ofCode f.ch
    (do chk (f.x == 0); return .st f.g (← MSize.ofCode f.sz) sco ord ch (vField f.d) (← f.maddr) : Option Instr)) _ = _
  simp only [MFmt.g_of, MFmt.maddr, MFmt.waddr, MFmt.op, op_hi, op_lo, Base.ofBits_field, MSize.ofCode_code, Scope.ofCode_code, Order.ofCode_code, Cache.ofCode_code, LdgOp.ofCode_code, AtomOp.ofCode_code, vField_vBits, sField_sBits, chk_true, beq_self_eq_true, Bool.and_self, Option.bind_eq_bind, Option.bind_some, Option.pure_def]

theorem lds (g : Guard) (sz : MSize) (sco : Scope) (ord : Order) (ch : Cache) (d : Fin 64) (m : MAddr) : Statement (.lds g sz sco ord ch d m) := by
  intro hw _
  refine encoded_m rfl rfl ?_
  show (fun f : MFmt => let sco := Scope.ofCode f.sco; let ord := Order.ofCode f.ord; let ch := Cache.ofCode f.ch
    (do chk (f.x == 0); return .lds f.g (← MSize.ofCode f.sz) sco ord ch (← sField f.d) (← f.maddr) : Option Instr)) _ = _
  simp only [MFmt.g_of, MFmt.maddr, MFmt.waddr, MFmt.op, op_hi, op_lo, Base.ofBits_field, MSize.ofCode_code, Scope.ofCode_code, Order.ofCode_code, Cache.ofCode_code, LdgOp.ofCode_code, AtomOp.ofCode_code, vField_vBits, sField_sBits, chk_true, beq_self_eq_true, Bool.and_self, Option.bind_eq_bind, Option.bind_some, Option.pure_def]

theorem sts (g : Guard) (sz : MSize) (sco : Scope) (ord : Order) (ch : Cache) (d : Fin 64) (m : MAddr) : Statement (.sts g sz sco ord ch d m) := by
  intro hw _
  refine encoded_m rfl rfl ?_
  show (fun f : MFmt => let sco := Scope.ofCode f.sco; let ord := Order.ofCode f.ord; let ch := Cache.ofCode f.ch
    (do chk (f.x == 0); return .sts f.g (← MSize.ofCode f.sz) sco ord ch (← sField f.d) (← f.maddr) : Option Instr)) _ = _
  simp only [MFmt.g_of, MFmt.maddr, MFmt.waddr, MFmt.op, op_hi, op_lo, Base.ofBits_field, MSize.ofCode_code, Scope.ofCode_code, Order.ofCode_code, Cache.ofCode_code, LdgOp.ofCode_code, AtomOp.ofCode_code, vField_vBits, sField_sBits, chk_true, beq_self_eq_true, Bool.and_self, Option.bind_eq_bind, Option.bind_some, Option.pure_def]

theorem ldg (g : Guard) (op : LdgOp) (sz : MSize) (width : Fin 3) (sco : Scope) (ord : Order) (d : Fin 256) (m : WAddr) : Statement (.ldg g op sz width sco ord d m) := by
  intro hw _
  refine encoded_m rfl rfl ?_
  show (fun f : MFmt => let sco := Scope.ofCode f.sco; let ord := Order.ofCode f.ord; let ch := Cache.ofCode f.ch
    (do
        chk (f.ch == 0)
        if h : f.x.toNat < 3 then
          return .ldg f.g (← LdgOp.ofCode f.op) (← MSize.ofCode f.sz) ⟨f.x.toNat, h⟩ sco ord (vField f.d) (← f.waddr)
        else none : Option Instr)) _ = _
  simp only [MFmt.g_of, MFmt.maddr, MFmt.waddr, MFmt.op, op_hi, op_lo, Base.ofBits_field, MSize.ofCode_code, Scope.ofCode_code, Order.ofCode_code, Cache.ofCode_code, LdgOp.ofCode_code, AtomOp.ofCode_code, vField_vBits, sField_sBits, chk_true, beq_self_eq_true, Bool.and_self, Option.bind_eq_bind, Option.bind_some, Option.pure_def]
  fin_cases width <;> simp only [op_hi, op_lo, LdgOp.ofCode_code] <;> rfl

theorem atom (g : Guard) (op : AtomOp) (sz : MSize) (sco : Scope) (ord : Order) (d : Fin 256) (m : WAddr) (x : Fin 256) : Statement (.atom g op sz sco ord d m x) := by
  intro hw _
  refine encoded_m rfl rfl ?_
  show (fun f : MFmt => let sco := Scope.ofCode f.sco; let ord := Order.ofCode f.ord; let ch := Cache.ofCode f.ch
    (do
        chk (f.ch == 0)
        return .atom f.g (← AtomOp.ofCode f.op) (← MSize.ofCode f.sz) sco ord (vField f.d) (← f.waddr) (vField f.x) : Option Instr)) _ = _
  simp only [MFmt.g_of, MFmt.maddr, MFmt.waddr, MFmt.op, op_hi, op_lo, Base.ofBits_field, MSize.ofCode_code, Scope.ofCode_code, Order.ofCode_code, Cache.ofCode_code, LdgOp.ofCode_code, AtomOp.ofCode_code, vField_vBits, sField_sBits, chk_true, beq_self_eq_true, Bool.and_self, Option.bind_eq_bind, Option.bind_some, Option.pure_def]
  rfl

theorem red (g : Guard) (op : AtomOp) (sz : MSize) (sco : Scope) (ord : Order) (m : WAddr) (x : Fin 256) : Statement (.red g op sz sco ord m x) := by
  intro hw _
  refine encoded_m rfl rfl ?_
  show (fun f : MFmt => let sco := Scope.ofCode f.sco; let ord := Order.ofCode f.ord; let ch := Cache.ofCode f.ch
    (do
        chk (f.ch == 0 && f.d == 0)
        return .red f.g (← AtomOp.ofCode f.op) (← MSize.ofCode f.sz) sco ord (← f.waddr) (vField f.x) : Option Instr)) _ = _
  simp only [MFmt.g_of, MFmt.maddr, MFmt.waddr, MFmt.op, op_hi, op_lo, Base.ofBits_field, MSize.ofCode_code, Scope.ofCode_code, Order.ofCode_code, Cache.ofCode_code, LdgOp.ofCode_code, AtomOp.ofCode_code, vField_vBits, sField_sBits, chk_true, beq_self_eq_true, Bool.and_self, Option.bind_eq_bind, Option.bind_some, Option.pure_def]
  rfl

theorem cas (g : Guard) (sz : MSize) (sco : Scope) (ord : Order) (d : Fin 256) (m : WAddr) (x : Fin 256) : Statement (.cas g sz sco ord d m x) := by
  intro hw _
  refine encoded_m rfl rfl ?_
  show (fun f : MFmt => let sco := Scope.ofCode f.sco; let ord := Order.ofCode f.ord; let ch := Cache.ofCode f.ch
    (do
        chk (f.ch == 0 && f.op == 0)
        return .cas f.g (← MSize.ofCode f.sz) sco ord (vField f.d) (← f.waddr) (vField f.x) : Option Instr)) _ = _
  simp only [MFmt.g_of, MFmt.maddr, MFmt.waddr, MFmt.op, op_hi, op_lo, Base.ofBits_field, MSize.ofCode_code, Scope.ofCode_code, Order.ofCode_code, Cache.ofCode_code, LdgOp.ofCode_code, AtomOp.ofCode_code, vField_vBits, sField_sBits, chk_true, beq_self_eq_true, Bool.and_self, Option.bind_eq_bind, Option.bind_some, Option.pure_def]
  rfl

theorem fence (g : Guard) (sco : Scope) (ord : Order) : Statement (.fence g sco ord) := by
  intro hw _
  refine encoded_m rfl rfl ?_
  show (fun f : MFmt => let sco := Scope.ofCode f.sco; let ord := Order.ofCode f.ord; let ch := Cache.ofCode f.ch
    (do
        chk (f.sz == 0 && f.d == 0 && f.ab == 0 && f.x == 0 && f.ch == 0 && f.ka == 0 && f.off == 0)
        return .fence f.g sco ord : Option Instr)) _ = _
  simp only [MFmt.g_of, MFmt.maddr, MFmt.waddr, MFmt.op, op_hi, op_lo, Base.ofBits_field, MSize.ofCode_code, Scope.ofCode_code, Order.ofCode_code, Cache.ofCode_code, LdgOp.ofCode_code, AtomOp.ofCode_code, vField_vBits, sField_sBits, chk_true, beq_self_eq_true, Bool.and_self, Option.bind_eq_bind, Option.bind_some, Option.pure_def]
  rfl

theorem pref (g : Guard) (ch : Cache) (m : MAddr) : Statement (.pref g ch m) := by
  intro hw _
  refine encoded_m rfl rfl ?_
  show (fun f : MFmt => let sco := Scope.ofCode f.sco; let ord := Order.ofCode f.ord; let ch := Cache.ofCode f.ch
    (do
        chk (f.sz == 0 && f.d == 0 && f.x == 0 && f.sco == 0 && f.ord == 0)
        return .pref f.g ch (← f.maddr) : Option Instr)) _ = _
  simp only [MFmt.g_of, MFmt.maddr, MFmt.waddr, MFmt.op, op_hi, op_lo, Base.ofBits_field, MSize.ofCode_code, Scope.ofCode_code, Order.ofCode_code, Cache.ofCode_code, LdgOp.ofCode_code, AtomOp.ofCode_code, vField_vBits, sField_sBits, chk_true, beq_self_eq_true, Bool.and_self, Option.bind_eq_bind, Option.bind_some, Option.pure_def]
  rfl

theorem cwb (g : Guard) (rel : Bool) (m : MAddr) : Statement (.cwb g rel m) := by
  intro hw _
  refine encoded_m rfl rfl ?_
  show (fun f : MFmt => let sco := Scope.ofCode f.sco; let ord := Order.ofCode f.ord; let ch := Cache.ofCode f.ch
    (do
        chk (f.sz == 0 && f.d == 0 && f.x == 0 && f.sco == 0 && f.ch == 0)
        match ord with
        | .rlx => return .cwb f.g false (← f.maddr)
        | .rel => return .cwb f.g true (← f.maddr)
        | _ => none : Option Instr)) _ = _
  simp only [MFmt.g_of, MFmt.maddr, MFmt.waddr, MFmt.op, op_hi, op_lo, Base.ofBits_field, MSize.ofCode_code, Scope.ofCode_code, Order.ofCode_code, Cache.ofCode_code, LdgOp.ofCode_code, AtomOp.ofCode_code, vField_vBits, sField_sBits, chk_true, beq_self_eq_true, Bool.and_self, Option.bind_eq_bind, Option.bind_some, Option.pure_def]
  cases rel <;> rfl

theorem cinv (g : Guard) (acq : Bool) (m : MAddr) : Statement (.cinv g acq m) := by
  intro hw _
  refine encoded_m rfl rfl ?_
  show (fun f : MFmt => let sco := Scope.ofCode f.sco; let ord := Order.ofCode f.ord; let ch := Cache.ofCode f.ch
    (do
        chk (f.sz == 0 && f.d == 0 && f.x == 0 && f.sco == 0 && f.ch == 0)
        match ord with
        | .rlx => return .cinv f.g false (← f.maddr)
        | .acq => return .cinv f.g true (← f.maddr)
        | _ => none : Option Instr)) _ = _
  simp only [MFmt.g_of, MFmt.maddr, MFmt.waddr, MFmt.op, op_hi, op_lo, Base.ofBits_field, MSize.ofCode_code, Scope.ofCode_code, Order.ofCode_code, Cache.ofCode_code, LdgOp.ofCode_code, AtomOp.ofCode_code, vField_vBits, sField_sBits, chk_true, beq_self_eq_true, Bool.and_self, Option.bind_eq_bind, Option.bind_some, Option.pure_def]
  cases acq <;> rfl

theorem waitne (g : Guard) (sz : MSize) (sco : Scope) (ord : Order) (d : Fin 256) (m : MAddr) (x : Fin 256) : Statement (.waitne g sz sco ord d m x) := by
  intro hw _
  refine encoded_m rfl rfl ?_
  show (fun f : MFmt => let sco := Scope.ofCode f.sco; let ord := Order.ofCode f.ord; let ch := Cache.ofCode f.ch
    (do
        chk (f.ch == 0)
        return .waitne f.g (← MSize.ofCode f.sz) sco ord (vField f.d) (← f.maddr) (vField f.x) : Option Instr)) _ = _
  simp only [MFmt.g_of, MFmt.maddr, MFmt.waddr, MFmt.op, op_hi, op_lo, Base.ofBits_field, MSize.ofCode_code, Scope.ofCode_code, Order.ofCode_code, Cache.ofCode_code, LdgOp.ofCode_code, AtomOp.ofCode_code, vField_vBits, sField_sBits, chk_true, beq_self_eq_true, Bool.and_self, Option.bind_eq_bind, Option.bind_some, Option.pure_def]
  rfl

theorem waitneRecheck (w : Nat) (e : Fin 4) : Statement (.waitneRecheck w e) := fun _ h => nomatch h
theorem resideClass (g : Guard) (sd sa sb : Fin 64) (cls : Reuse) (report ntreq : Bool) : Statement (.resideClass g sd sa sb cls report ntreq) := by
  intro hw _
  refine encoded_c rfl (.inl ⟨rfl, ?_⟩)
  show (fun f : CFmt => (do
          chk (f.sc == 0 && f.imm.extractLsb' 4 12 == 0)
          return .resideClass f.g (← sField f.sd) (← sField f.sa) (← sField f.sb) (Reuse.ofCode (f.imm.extractLsb' 0 2))
            (f.imm.getLsbD 2) (f.imm.getLsbD 3) : Option Instr)) _ = _
  simp only [CFmt.g_of, CFmt.zero, CFmt.dA, CFmt.dAB, CFmt.dBar, CFmt.aBar, CFmt.pcBar, vField_vBits, sField_sBits, pField_pBits, Bar.ofCode_code, Reuse.ofCode_code, chk_true, beq_self_eq_true, Bool.and_self, Bool.not_true, Bool.not_false, Bool.true_or, Bool.false_or, Option.bind_eq_bind, Option.bind_some, Option.pure_def]
  cases cls <;> cases report <;> cases ntreq <;> rfl

theorem residePin (g : Guard) (sd sa sb : Fin 64) : Statement (.residePin g sd sa sb) := by
  intro hw _
  refine encoded_c rfl (.inl ⟨rfl, ?_⟩)
  show (fun f : CFmt => (f.dAB fun d a b => .residePin f.g d a b : Option Instr)) _ = _
  simp only [CFmt.g_of, CFmt.zero, CFmt.dA, CFmt.dAB, CFmt.dBar, CFmt.aBar, CFmt.pcBar, vField_vBits, sField_sBits, pField_pBits, Bar.ofCode_code, Reuse.ofCode_code, chk_true, beq_self_eq_true, Bool.and_self, Bool.not_true, Bool.not_false, Bool.true_or, Bool.false_or, Option.bind_eq_bind, Option.bind_some, Option.pure_def]

theorem resideUnpin (g : Guard) (sd sa sb : Fin 64) : Statement (.resideUnpin g sd sa sb) := by
  intro hw _
  refine encoded_c rfl (.inl ⟨rfl, ?_⟩)
  show (fun f : CFmt => (f.dAB fun d a b => .resideUnpin f.g d a b : Option Instr)) _ = _
  simp only [CFmt.g_of, CFmt.zero, CFmt.dA, CFmt.dAB, CFmt.dBar, CFmt.aBar, CFmt.pcBar, vField_vBits, sField_sBits, pField_pBits, Bar.ofCode_code, Reuse.ofCode_code, chk_true, beq_self_eq_true, Bool.and_self, Bool.not_true, Bool.not_false, Bool.true_or, Bool.false_or, Option.bind_eq_bind, Option.bind_some, Option.pure_def]

theorem resideTprio (g : Guard) (sd sa : Fin 64) (cls : Fin 8) : Statement (.resideTprio g sd sa cls) := by
  intro hw _
  refine encoded_c rfl (.inl ⟨rfl, ?_⟩)
  show (fun f : CFmt => (do
          chk (f.sb == 0 && f.sc == 0 && f.imm.extractLsb' 3 13 == 0)
          return .resideTprio f.g (← sField f.sd) (← sField f.sa)
            ⟨(f.imm.extractLsb' 0 3).toNat, (f.imm.extractLsb' 0 3).isLt⟩ : Option Instr)) _ = _
  simp only [CFmt.g_of, CFmt.zero, CFmt.dA, CFmt.dAB, CFmt.dBar, CFmt.aBar, CFmt.pcBar, vField_vBits, sField_sBits, pField_pBits, Bar.ofCode_code, Reuse.ofCode_code, chk_true, beq_self_eq_true, Bool.and_self, Bool.not_true, Bool.not_false, Bool.true_or, Bool.false_or, Option.bind_eq_bind, Option.bind_some, Option.pure_def]
  fin_cases cls <;> rfl

theorem resideClose (g : Guard) (sd sa sb : Fin 64) : Statement (.resideClose g sd sa sb) := by
  intro hw _
  refine encoded_c rfl (.inl ⟨rfl, ?_⟩)
  show (fun f : CFmt => (f.dAB fun d a b => .resideClose f.g d a b : Option Instr)) _ = _
  simp only [CFmt.g_of, CFmt.zero, CFmt.dA, CFmt.dAB, CFmt.dBar, CFmt.aBar, CFmt.pcBar, vField_vBits, sField_sBits, pField_pBits, Bar.ofCode_code, Reuse.ofCode_code, chk_true, beq_self_eq_true, Bool.and_self, Bool.not_true, Bool.not_false, Bool.true_or, Bool.false_or, Option.bind_eq_bind, Option.bind_some, Option.pure_def]

theorem kvfind (g : Guard) (sd sa : Fin 64) : Statement (.kvfind g sd sa) := by
  intro hw _
  refine encoded_c rfl (.inl ⟨rfl, ?_⟩)
  show (fun f : CFmt => (do chk (f.sub == 0); f.dA fun d a => .kvfind f.g d a : Option Instr)) _ = _
  simp only [CFmt.g_of, CFmt.zero, CFmt.dA, CFmt.dAB, CFmt.dBar, CFmt.aBar, CFmt.pcBar, vField_vBits, sField_sBits, pField_pBits, Bar.ofCode_code, Reuse.ofCode_code, chk_true, beq_self_eq_true, Bool.and_self, Bool.not_true, Bool.not_false, Bool.true_or, Bool.false_or, Option.bind_eq_bind, Option.bind_some, Option.pure_def]

theorem kvput (g : Guard) (pin : Bool) (sd sa sc : Fin 64) : Statement (.kvput g pin sd sa sc) := by
  intro hw _
  refine encoded_c rfl (.inl ⟨rfl, ?_⟩)
  show (fun f : CFmt => (do
        chk (f.sub == 0 && f.sb == 0 && f.imm.extractLsb' 1 15 == 0)
        return .kvput f.g (f.imm.getLsbD 0) (← sField f.sd) (← sField f.sa) (← sField f.sc) : Option Instr)) _ = _
  simp only [CFmt.g_of, CFmt.zero, CFmt.dA, CFmt.dAB, CFmt.dBar, CFmt.aBar, CFmt.pcBar, vField_vBits, sField_sBits, pField_pBits, Bar.ofCode_code, Reuse.ofCode_code, chk_true, beq_self_eq_true, Bool.and_self, Bool.not_true, Bool.not_false, Bool.true_or, Bool.false_or, Option.bind_eq_bind, Option.bind_some, Option.pure_def]
  cases pin <;> rfl

theorem kvdrop (g : Guard) (sd sa : Fin 64) : Statement (.kvdrop g sd sa) := by
  intro hw _
  refine encoded_c rfl (.inl ⟨rfl, ?_⟩)
  show (fun f : CFmt => (f.dA fun d a => .kvdrop f.g d a : Option Instr)) _ = _
  simp only [CFmt.g_of, CFmt.zero, CFmt.dA, CFmt.dAB, CFmt.dBar, CFmt.aBar, CFmt.pcBar, vField_vBits, sField_sBits, pField_pBits, Bar.ofCode_code, Reuse.ofCode_code, chk_true, beq_self_eq_true, Bool.and_self, Bool.not_true, Bool.not_false, Bool.true_or, Bool.false_or, Option.bind_eq_bind, Option.bind_some, Option.pure_def]

theorem kvdropTensor (g : Guard) (sd sa : Fin 64) : Statement (.kvdropTensor g sd sa) := by
  intro hw _
  refine encoded_c rfl (.inl ⟨rfl, ?_⟩)
  show (fun f : CFmt => (f.dA fun d a => .kvdropTensor f.g d a : Option Instr)) _ = _
  simp only [CFmt.g_of, CFmt.zero, CFmt.dA, CFmt.dAB, CFmt.dBar, CFmt.aBar, CFmt.pcBar, vField_vBits, sField_sBits, pField_pBits, Bar.ofCode_code, Reuse.ofCode_code, chk_true, beq_self_eq_true, Bool.and_self, Bool.not_true, Bool.not_false, Bool.true_or, Bool.false_or, Option.bind_eq_bind, Option.bind_some, Option.pure_def]

theorem acgrow (g : Guard) (sd : Fin 64) (n : BitVec 16) : Statement (.acgrow g sd n) := by
  intro hw _
  refine encoded_c rfl (.inl ⟨rfl, ?_⟩)
  show (fun f : CFmt => (do chk (f.zero true false true true true false); return .acgrow f.g (← sField f.sd) f.imm : Option Instr)) _ = _
  simp only [CFmt.g_of, CFmt.zero, CFmt.dA, CFmt.dAB, CFmt.dBar, CFmt.aBar, CFmt.pcBar, vField_vBits, sField_sBits, pField_pBits, Bar.ofCode_code, Reuse.ofCode_code, chk_true, beq_self_eq_true, Bool.and_self, Bool.not_true, Bool.not_false, Bool.true_or, Bool.false_or, Option.bind_eq_bind, Option.bind_some, Option.pure_def]

theorem acfree (g : Guard) (sd : Fin 64) (n : BitVec 16) : Statement (.acfree g sd n) := by
  intro hw _
  refine encoded_c rfl (.inl ⟨rfl, ?_⟩)
  show (fun f : CFmt => (do chk (f.zero true false true true true false); return .acfree f.g (← sField f.sd) f.imm : Option Instr)) _ = _
  simp only [CFmt.g_of, CFmt.zero, CFmt.dA, CFmt.dAB, CFmt.dBar, CFmt.aBar, CFmt.pcBar, vField_vBits, sField_sBits, pField_pBits, Bar.ofCode_code, Reuse.ofCode_code, chk_true, beq_self_eq_true, Bool.and_self, Bool.not_true, Bool.not_false, Bool.true_or, Bool.false_or, Option.bind_eq_bind, Option.bind_some, Option.pure_def]

theorem cpy (g : Guard) (sd sa : Fin 64) : Statement (.cpy g sd sa) := by
  intro hw _
  refine encoded_c rfl (.inr <| .inl ⟨rfl, ?_⟩)
  show (fun f : CFmt => (do chk (f.sub == 0); f.dA fun d a => .cpy f.g d a : Option Instr)) _ = _
  simp only [CFmt.g_of, CFmt.zero, CFmt.dA, CFmt.dAB, CFmt.dBar, CFmt.aBar, CFmt.pcBar, vField_vBits, sField_sBits, pField_pBits, Bar.ofCode_code, Reuse.ofCode_code, chk_true, beq_self_eq_true, Bool.and_self, Bool.not_true, Bool.not_false, Bool.true_or, Bool.false_or, Option.bind_eq_bind, Option.bind_some, Option.pure_def]

theorem cpym (g : Guard) (sd sa : Fin 64) : Statement (.cpym g sd sa) := by
  intro hw _
  refine encoded_c rfl (.inr <| .inl ⟨rfl, ?_⟩)
  show (fun f : CFmt => (do chk (f.sub == 0); f.dA fun d a => .cpym f.g d a : Option Instr)) _ = _
  simp only [CFmt.g_of, CFmt.zero, CFmt.dA, CFmt.dAB, CFmt.dBar, CFmt.aBar, CFmt.pcBar, vField_vBits, sField_sBits, pField_pBits, Bar.ofCode_code, Reuse.ofCode_code, chk_true, beq_self_eq_true, Bool.and_self, Bool.not_true, Bool.not_false, Bool.true_or, Bool.false_or, Option.bind_eq_bind, Option.bind_some, Option.pure_def]

theorem cpysc (g : Guard) (sd sa : Fin 64) : Statement (.cpysc g sd sa) := by
  intro hw _
  refine encoded_c rfl (.inr <| .inl ⟨rfl, ?_⟩)
  show (fun f : CFmt => (do chk (f.sub == 0); f.dA fun d a => .cpysc f.g d a : Option Instr)) _ = _
  simp only [CFmt.g_of, CFmt.zero, CFmt.dA, CFmt.dAB, CFmt.dBar, CFmt.aBar, CFmt.pcBar, vField_vBits, sField_sBits, pField_pBits, Bar.ofCode_code, Reuse.ofCode_code, chk_true, beq_self_eq_true, Bool.and_self, Bool.not_true, Bool.not_false, Bool.true_or, Bool.false_or, Option.bind_eq_bind, Option.bind_some, Option.pure_def]

theorem xpose (g : Guard) (sd sa : Fin 64) : Statement (.xpose g sd sa) := by
  intro hw _
  refine encoded_c rfl (.inr <| .inl ⟨rfl, ?_⟩)
  show (fun f : CFmt => (do chk (f.sub == 0); f.dA fun d a => .xpose f.g d a : Option Instr)) _ = _
  simp only [CFmt.g_of, CFmt.zero, CFmt.dA, CFmt.dAB, CFmt.dBar, CFmt.aBar, CFmt.pcBar, vField_vBits, sField_sBits, pField_pBits, Bar.ofCode_code, Reuse.ofCode_code, chk_true, beq_self_eq_true, Bool.and_self, Bool.not_true, Bool.not_false, Bool.true_or, Bool.false_or, Option.bind_eq_bind, Option.bind_some, Option.pure_def]

theorem sred (g : Guard) (sd sa : Fin 64) : Statement (.sred g sd sa) := by
  intro hw _
  refine encoded_c rfl (.inr <| .inl ⟨rfl, ?_⟩)
  show (fun f : CFmt => (do chk (f.sub == 0); f.dA fun d a => .sred f.g d a : Option Instr)) _ = _
  simp only [CFmt.g_of, CFmt.zero, CFmt.dA, CFmt.dAB, CFmt.dBar, CFmt.aBar, CFmt.pcBar, vField_vBits, sField_sBits, pField_pBits, Bar.ofCode_code, Reuse.ofCode_code, chk_true, beq_self_eq_true, Bool.and_self, Bool.not_true, Bool.not_false, Bool.true_or, Bool.false_or, Option.bind_eq_bind, Option.bind_some, Option.pure_def]

theorem afence (g : Guard) (sd : Fin 64) : Statement (.afence g sd) := by
  intro hw _
  refine encoded_c rfl (.inr <| .inl ⟨rfl, ?_⟩)
  show (fun f : CFmt => (do chk (f.zero true false true true true true); return .afence f.g (← sField f.sd) : Option Instr)) _ = _
  simp only [CFmt.g_of, CFmt.zero, CFmt.dA, CFmt.dAB, CFmt.dBar, CFmt.aBar, CFmt.pcBar, vField_vBits, sField_sBits, pField_pBits, Bar.ofCode_code, Reuse.ofCode_code, chk_true, beq_self_eq_true, Bool.and_self, Bool.not_true, Bool.not_false, Bool.true_or, Bool.false_or, Option.bind_eq_bind, Option.bind_some, Option.pure_def]

theorem awaitBatch (g : Guard) (sa : Fin 64) : Statement (.awaitBatch g sa) := by
  intro hw _
  refine encoded_c rfl (.inr <| .inl ⟨rfl, ?_⟩)
  show (fun f : CFmt => (do chk (f.zero false true false true true true); return .awaitBatch f.g (← sField f.sa) : Option Instr)) _ = _
  simp only [CFmt.g_of, CFmt.zero, CFmt.dA, CFmt.dAB, CFmt.dBar, CFmt.aBar, CFmt.pcBar, vField_vBits, sField_sBits, pField_pBits, Bar.ofCode_code, Reuse.ofCode_code, chk_true, beq_self_eq_true, Bool.and_self, Bool.not_true, Bool.not_false, Bool.true_or, Bool.false_or, Option.bind_eq_bind, Option.bind_some, Option.pure_def]

theorem awaitAll (g : Guard) : Statement (.awaitAll g) := by
  intro hw _
  refine encoded_c rfl (.inr <| .inl ⟨rfl, ?_⟩)
  show (fun f : CFmt => (do chk (f.zero false true true true true true); return .awaitAll f.g : Option Instr)) _ = _
  simp only [CFmt.g_of, CFmt.zero, CFmt.dA, CFmt.dAB, CFmt.dBar, CFmt.aBar, CFmt.pcBar, vField_vBits, sField_sBits, pField_pBits, Bar.ofCode_code, Reuse.ofCode_code, chk_true, beq_self_eq_true, Bool.and_self, Bool.not_true, Bool.not_false, Bool.true_or, Bool.false_or, Option.bind_eq_bind, Option.bind_some, Option.pure_def]

theorem atest (g : Guard) (pd : Fin 8) (sa : Fin 64) : Statement (.atest g pd sa) := by
  intro hw _
  refine encoded_c rfl (.inr <| .inl ⟨rfl, ?_⟩)
  show (fun f : CFmt => (do chk (f.zero false false false true true true); return .atest f.g (← pField f.sd) (← sField f.sa) : Option Instr)) _ = _
  simp only [CFmt.g_of, CFmt.zero, CFmt.dA, CFmt.dAB, CFmt.dBar, CFmt.aBar, CFmt.pcBar, vField_vBits, sField_sBits, pField_pBits, Bar.ofCode_code, Reuse.ofCode_code, chk_true, beq_self_eq_true, Bool.and_self, Bool.not_true, Bool.not_false, Bool.true_or, Bool.false_or, Option.bind_eq_bind, Option.bind_some, Option.pure_def]

theorem atestAll (g : Guard) (pd : Fin 8) : Statement (.atestAll g pd) := by
  intro hw _
  refine encoded_c rfl (.inr <| .inl ⟨rfl, ?_⟩)
  show (fun f : CFmt => (do chk (f.zero false false true true true true); return .atestAll f.g (← pField f.sd) : Option Instr)) _ = _
  simp only [CFmt.g_of, CFmt.zero, CFmt.dA, CFmt.dAB, CFmt.dBar, CFmt.aBar, CFmt.pcBar, vField_vBits, sField_sBits, pField_pBits, Bar.ofCode_code, Reuse.ofCode_code, chk_true, beq_self_eq_true, Bool.and_self, Bool.not_true, Bool.not_false, Bool.true_or, Bool.false_or, Option.bind_eq_bind, Option.bind_some, Option.pure_def]

theorem marr (g : Guard) (sd : Fin 64) (lg : Fin 4) : Statement (.marr g sd lg) := by
  intro hw _
  refine encoded_c rfl (.inr <| .inl ⟨rfl, ?_⟩)
  show (fun f : CFmt => (do
        chk (f.zero true false true true true false && f.imm.extractLsb' 2 14 == 0)
        return .marr f.g (← sField f.sd) ⟨(f.imm.extractLsb' 0 2).toNat, (f.imm.extractLsb' 0 2).isLt⟩ : Option Instr)) _ = _
  simp only [CFmt.g_of, CFmt.zero, CFmt.dA, CFmt.dAB, CFmt.dBar, CFmt.aBar, CFmt.pcBar, vField_vBits, sField_sBits, pField_pBits, Bar.ofCode_code, Reuse.ofCode_code, chk_true, beq_self_eq_true, Bool.and_self, Bool.not_true, Bool.not_false, Bool.true_or, Bool.false_or, Option.bind_eq_bind, Option.bind_some, Option.pure_def]
  fin_cases lg <;> rfl

theorem bload (g : Guard) (sd sa sb : Fin 64) : Statement (.bload g sd sa sb) := by
  intro hw _
  refine encoded_c rfl (.inr <| .inl ⟨rfl, ?_⟩)
  show (fun f : CFmt => (do chk (f.sub == 0); f.dAB fun d a b => .bload f.g d a b : Option Instr)) _ = _
  simp only [CFmt.g_of, CFmt.zero, CFmt.dA, CFmt.dAB, CFmt.dBar, CFmt.aBar, CFmt.pcBar, vField_vBits, sField_sBits, pField_pBits, Bar.ofCode_code, Reuse.ofCode_code, chk_true, beq_self_eq_true, Bool.and_self, Bool.not_true, Bool.not_false, Bool.true_or, Bool.false_or, Option.bind_eq_bind, Option.bind_some, Option.pure_def]

theorem minit (g : Guard) (sd sa : Fin 64) : Statement (.minit g sd sa) := by
  intro hw _
  refine encoded_c rfl (.inr <| .inl ⟨rfl, ?_⟩)
  show (fun f : CFmt => (do chk (f.sub == 0); f.dA fun d a => .minit f.g d a : Option Instr)) _ = _
  simp only [CFmt.g_of, CFmt.zero, CFmt.dA, CFmt.dAB, CFmt.dBar, CFmt.aBar, CFmt.pcBar, vField_vBits, sField_sBits, pField_pBits, Bar.ofCode_code, Reuse.ofCode_code, chk_true, beq_self_eq_true, Bool.and_self, Bool.not_true, Bool.not_false, Bool.true_or, Bool.false_or, Option.bind_eq_bind, Option.bind_some, Option.pure_def]

theorem mma (g : Guard) (sd sa sb : Fin 64) : Statement (.mma g sd sa sb) := by
  intro hw _
  refine encoded_c rfl (.inr <| .inl ⟨rfl, ?_⟩)
  show (fun f : CFmt => (do chk (f.sub == 0); f.dAB fun d a b => .mma f.g d a b : Option Instr)) _ = _
  simp only [CFmt.g_of, CFmt.zero, CFmt.dA, CFmt.dAB, CFmt.dBar, CFmt.aBar, CFmt.pcBar, vField_vBits, sField_sBits, pField_pBits, Bar.ofCode_code, Reuse.ofCode_code, chk_true, beq_self_eq_true, Bool.and_self, Bool.not_true, Bool.not_false, Bool.true_or, Bool.false_or, Option.bind_eq_bind, Option.bind_some, Option.pure_def]

theorem mmasp (g : Guard) (sel : Fin 5) (sd sa sb : Fin 64) (vc : Fin 256) : Statement (.mmasp g sel sd sa sb vc) := by
  intro hw _
  refine encoded_c rfl (.inr <| .inl ⟨rfl, ?_⟩)
  show (fun f : CFmt => (do
        chk (f.sub == 0 && f.imm.extractLsb' 3 13 == 0)
        if h : (f.imm.extractLsb' 0 3).toNat < 5 then
          return .mmasp f.g ⟨(f.imm.extractLsb' 0 3).toNat, h⟩ (← sField f.sd) (← sField f.sa) (← sField f.sb) (vField f.sc)
        else none : Option Instr)) _ = _
  simp only [CFmt.g_of, CFmt.zero, CFmt.dA, CFmt.dAB, CFmt.dBar, CFmt.aBar, CFmt.pcBar, vField_vBits, sField_sBits, pField_pBits, Bar.ofCode_code, Reuse.ofCode_code, chk_true, beq_self_eq_true, Bool.and_self, Bool.not_true, Bool.not_false, Bool.true_or, Bool.false_or, Option.bind_eq_bind, Option.bind_some, Option.pure_def]
  fin_cases sel <;> rfl

theorem mdrain (g : Guard) (sd sa sb sc : Fin 64) : Statement (.mdrain g sd sa sb sc) := by
  intro hw _
  refine encoded_c rfl (.inr <| .inl ⟨rfl, ?_⟩)
  show (fun f : CFmt => (do
        chk (f.sub == 0 && f.imm == 0)
        return .mdrain f.g (← sField f.sd) (← sField f.sa) (← sField f.sb) (← sField f.sc) : Option Instr)) _ = _
  simp only [CFmt.g_of, CFmt.zero, CFmt.dA, CFmt.dAB, CFmt.dBar, CFmt.aBar, CFmt.pcBar, vField_vBits, sField_sBits, pField_pBits, Bar.ofCode_code, Reuse.ofCode_code, chk_true, beq_self_eq_true, Bool.and_self, Bool.not_true, Bool.not_false, Bool.true_or, Bool.false_or, Option.bind_eq_bind, Option.bind_some, Option.pure_def]

theorem mread (g : Guard) (d : Fin 256) (sa : Fin 64) : Statement (.mread g d sa) := by
  intro hw _
  refine encoded_c rfl (.inr <| .inl ⟨rfl, ?_⟩)
  show (fun f : CFmt => (do
        chk (f.zero false false false true true true)
        match f.sub.toNat with
        | 0 => return .mread f.g (vField f.sd) (← sField f.sa)
        | 1 => return .mreadAnc f.g (vField f.sd) (← sField f.sa)
        | _ => none : Option Instr)) _ = _
  simp only [CFmt.g_of, CFmt.zero, CFmt.dA, CFmt.dAB, CFmt.dBar, CFmt.aBar, CFmt.pcBar, vField_vBits, sField_sBits, pField_pBits, Bar.ofCode_code, Reuse.ofCode_code, chk_true, beq_self_eq_true, Bool.and_self, Bool.not_true, Bool.not_false, Bool.true_or, Bool.false_or, Option.bind_eq_bind, Option.bind_some, Option.pure_def]
  rfl

theorem mreadAnc (g : Guard) (d : Fin 256) (sa : Fin 64) : Statement (.mreadAnc g d sa) := by
  intro hw _
  refine encoded_c rfl (.inr <| .inl ⟨rfl, ?_⟩)
  show (fun f : CFmt => (do
        chk (f.zero false false false true true true)
        match f.sub.toNat with
        | 0 => return .mread f.g (vField f.sd) (← sField f.sa)
        | 1 => return .mreadAnc f.g (vField f.sd) (← sField f.sa)
        | _ => none : Option Instr)) _ = _
  simp only [CFmt.g_of, CFmt.zero, CFmt.dA, CFmt.dAB, CFmt.dBar, CFmt.aBar, CFmt.pcBar, vField_vBits, sField_sBits, pField_pBits, Bar.ofCode_code, Reuse.ofCode_code, chk_true, beq_self_eq_true, Bool.and_self, Bool.not_true, Bool.not_false, Bool.true_or, Bool.false_or, Option.bind_eq_bind, Option.bind_some, Option.pure_def]
  rfl

theorem mwrite (g : Guard) (sa : Fin 64) (b : Fin 256) : Statement (.mwrite g sa b) := by
  intro hw _
  refine encoded_c rfl (.inr <| .inl ⟨rfl, ?_⟩)
  show (fun f : CFmt => (do
        chk (f.zero false true false false true true)
        match f.sub.toNat with
        | 0 => return .mwrite f.g (← sField f.sa) (vField f.sb)
        | 1 => return .mwriteAnc f.g (← sField f.sa) (vField f.sb)
        | _ => none : Option Instr)) _ = _
  simp only [CFmt.g_of, CFmt.zero, CFmt.dA, CFmt.dAB, CFmt.dBar, CFmt.aBar, CFmt.pcBar, vField_vBits, sField_sBits, pField_pBits, Bar.ofCode_code, Reuse.ofCode_code, chk_true, beq_self_eq_true, Bool.and_self, Bool.not_true, Bool.not_false, Bool.true_or, Bool.false_or, Option.bind_eq_bind, Option.bind_some, Option.pure_def]
  rfl

theorem mwriteAnc (g : Guard) (sa : Fin 64) (b : Fin 256) : Statement (.mwriteAnc g sa b) := by
  intro hw _
  refine encoded_c rfl (.inr <| .inl ⟨rfl, ?_⟩)
  show (fun f : CFmt => (do
        chk (f.zero false true false false true true)
        match f.sub.toNat with
        | 0 => return .mwrite f.g (← sField f.sa) (vField f.sb)
        | 1 => return .mwriteAnc f.g (← sField f.sa) (vField f.sb)
        | _ => none : Option Instr)) _ = _
  simp only [CFmt.g_of, CFmt.zero, CFmt.dA, CFmt.dAB, CFmt.dBar, CFmt.aBar, CFmt.pcBar, vField_vBits, sField_sBits, pField_pBits, Bar.ofCode_code, Reuse.ofCode_code, chk_true, beq_self_eq_true, Bool.and_self, Bool.not_true, Bool.not_false, Bool.true_or, Bool.false_or, Option.bind_eq_bind, Option.bind_some, Option.pure_def]
  rfl

theorem bara (g : Guard) (pd : Fin 8) (sc : Fin 64) (bar : Bar) : Statement (.bara g pd sc bar) := by
  intro hw _
  refine encoded_c rfl (.inr <| .inl ⟨rfl, ?_⟩)
  show (fun f : CFmt => (f.pcBar fun p c b => .bara f.g p c b : Option Instr)) _ = _
  simp only [CFmt.g_of, CFmt.zero, CFmt.dA, CFmt.dAB, CFmt.dBar, CFmt.aBar, CFmt.pcBar, vField_vBits, sField_sBits, pField_pBits, Bar.ofCode_code, Reuse.ofCode_code, chk_true, beq_self_eq_true, Bool.and_self, Bool.not_true, Bool.not_false, Bool.true_or, Bool.false_or, Option.bind_eq_bind, Option.bind_some, Option.pure_def]

theorem barw (g : Guard) (pd : Fin 8) (sc : Fin 64) (bar : Bar) : Statement (.barw g pd sc bar) := by
  intro hw _
  refine encoded_c rfl (.inr <| .inl ⟨rfl, ?_⟩)
  show (fun f : CFmt => (f.pcBar fun p c b => .barw f.g p c b : Option Instr)) _ = _
  simp only [CFmt.g_of, CFmt.zero, CFmt.dA, CFmt.dAB, CFmt.dBar, CFmt.aBar, CFmt.pcBar, vField_vBits, sField_sBits, pField_pBits, Bar.ofCode_code, Reuse.ofCode_code, chk_true, beq_self_eq_true, Bool.and_self, Bool.not_true, Bool.not_false, Bool.true_or, Bool.false_or, Option.bind_eq_bind, Option.bind_some, Option.pure_def]

theorem barsRoot (g : Guard) (sd : Fin 64) (bar : Bar) : Statement (.barsRoot g sd bar) := by
  intro hw _
  refine encoded_c rfl (.inr <| .inl ⟨rfl, ?_⟩)
  show (fun f : CFmt => (f.dBar fun d b => .barsRoot f.g d b : Option Instr)) _ = _
  simp only [CFmt.g_of, CFmt.zero, CFmt.dA, CFmt.dAB, CFmt.dBar, CFmt.aBar, CFmt.pcBar, vField_vBits, sField_sBits, pField_pBits, Bar.ofCode_code, Reuse.ofCode_code, chk_true, beq_self_eq_true, Bool.and_self, Bool.not_true, Bool.not_false, Bool.true_or, Bool.false_or, Option.bind_eq_bind, Option.bind_some, Option.pure_def]

theorem barsOwn (g : Guard) (sd : Fin 64) (bar : Bar) : Statement (.barsOwn g sd bar) := by
  intro hw _
  refine encoded_c rfl (.inr <| .inl ⟨rfl, ?_⟩)
  show (fun f : CFmt => (f.dBar fun d b => .barsOwn f.g d b : Option Instr)) _ = _
  simp only [CFmt.g_of, CFmt.zero, CFmt.dA, CFmt.dAB, CFmt.dBar, CFmt.aBar, CFmt.pcBar, vField_vBits, sField_sBits, pField_pBits, Bar.ofCode_code, Reuse.ofCode_code, chk_true, beq_self_eq_true, Bool.and_self, Bool.not_true, Bool.not_false, Bool.true_or, Bool.false_or, Option.bind_eq_bind, Option.bind_some, Option.pure_def]

theorem barqRoot (g : Guard) (sd : Fin 64) (bar : Bar) : Statement (.barqRoot g sd bar) := by
  intro hw _
  refine encoded_c rfl (.inr <| .inl ⟨rfl, ?_⟩)
  show (fun f : CFmt => (f.dBar fun d b => .barqRoot f.g d b : Option Instr)) _ = _
  simp only [CFmt.g_of, CFmt.zero, CFmt.dA, CFmt.dAB, CFmt.dBar, CFmt.aBar, CFmt.pcBar, vField_vBits, sField_sBits, pField_pBits, Bar.ofCode_code, Reuse.ofCode_code, chk_true, beq_self_eq_true, Bool.and_self, Bool.not_true, Bool.not_false, Bool.true_or, Bool.false_or, Option.bind_eq_bind, Option.bind_some, Option.pure_def]

theorem barqMem (g : Guard) (sd : Fin 64) (bar : Bar) : Statement (.barqMem g sd bar) := by
  intro hw _
  refine encoded_c rfl (.inr <| .inl ⟨rfl, ?_⟩)
  show (fun f : CFmt => (f.dBar fun d b => .barqMem f.g d b : Option Instr)) _ = _
  simp only [CFmt.g_of, CFmt.zero, CFmt.dA, CFmt.dAB, CFmt.dBar, CFmt.aBar, CFmt.pcBar, vField_vBits, sField_sBits, pField_pBits, Bar.ofCode_code, Reuse.ofCode_code, chk_true, beq_self_eq_true, Bool.and_self, Bool.not_true, Bool.not_false, Bool.true_or, Bool.false_or, Option.bind_eq_bind, Option.bind_some, Option.pure_def]

theorem barqArr (g : Guard) (sd : Fin 64) (bar : Bar) : Statement (.barqArr g sd bar) := by
  intro hw _
  refine encoded_c rfl (.inr <| .inl ⟨rfl, ?_⟩)
  show (fun f : CFmt => (f.dBar fun d b => .barqArr f.g d b : Option Instr)) _ = _
  simp only [CFmt.g_of, CFmt.zero, CFmt.dA, CFmt.dAB, CFmt.dBar, CFmt.aBar, CFmt.pcBar, vField_vBits, sField_sBits, pField_pBits, Bar.ofCode_code, Reuse.ofCode_code, chk_true, beq_self_eq_true, Bool.and_self, Bool.not_true, Bool.not_false, Bool.true_or, Bool.false_or, Option.bind_eq_bind, Option.bind_some, Option.pure_def]

theorem barqEarly (g : Guard) (sd : Fin 64) (bar : Bar) : Statement (.barqEarly g sd bar) := by
  intro hw _
  refine encoded_c rfl (.inr <| .inl ⟨rfl, ?_⟩)
  show (fun f : CFmt => (f.dBar fun d b => .barqEarly f.g d b : Option Instr)) _ = _
  simp only [CFmt.g_of, CFmt.zero, CFmt.dA, CFmt.dAB, CFmt.dBar, CFmt.aBar, CFmt.pcBar, vField_vBits, sField_sBits, pField_pBits, Bar.ofCode_code, Reuse.ofCode_code, chk_true, beq_self_eq_true, Bool.and_self, Bool.not_true, Bool.not_false, Bool.true_or, Bool.false_or, Option.bind_eq_bind, Option.bind_some, Option.pure_def]

theorem barqWait (g : Guard) (sd : Fin 64) (bar : Bar) : Statement (.barqWait g sd bar) := by
  intro hw _
  refine encoded_c rfl (.inr <| .inl ⟨rfl, ?_⟩)
  show (fun f : CFmt => (f.dBar fun d b => .barqWait f.g d b : Option Instr)) _ = _
  simp only [CFmt.g_of, CFmt.zero, CFmt.dA, CFmt.dAB, CFmt.dBar, CFmt.aBar, CFmt.pcBar, vField_vBits, sField_sBits, pField_pBits, Bar.ofCode_code, Reuse.ofCode_code, chk_true, beq_self_eq_true, Bool.and_self, Bool.not_true, Bool.not_false, Bool.true_or, Bool.false_or, Option.bind_eq_bind, Option.bind_some, Option.pure_def]

theorem barsetRoot (g : Guard) (sa : Fin 64) (bar : Bar) : Statement (.barsetRoot g sa bar) := by
  intro hw _
  refine encoded_c rfl (.inr <| .inl ⟨rfl, ?_⟩)
  show (fun f : CFmt => (f.aBar fun a b => .barsetRoot f.g a b : Option Instr)) _ = _
  simp only [CFmt.g_of, CFmt.zero, CFmt.dA, CFmt.dAB, CFmt.dBar, CFmt.aBar, CFmt.pcBar, vField_vBits, sField_sBits, pField_pBits, Bar.ofCode_code, Reuse.ofCode_code, chk_true, beq_self_eq_true, Bool.and_self, Bool.not_true, Bool.not_false, Bool.true_or, Bool.false_or, Option.bind_eq_bind, Option.bind_some, Option.pure_def]

theorem barsetMem (g : Guard) (sa : Fin 64) (bar : Bar) : Statement (.barsetMem g sa bar) := by
  intro hw _
  refine encoded_c rfl (.inr <| .inl ⟨rfl, ?_⟩)
  show (fun f : CFmt => (f.aBar fun a b => .barsetMem f.g a b : Option Instr)) _ = _
  simp only [CFmt.g_of, CFmt.zero, CFmt.dA, CFmt.dAB, CFmt.dBar, CFmt.aBar, CFmt.pcBar, vField_vBits, sField_sBits, pField_pBits, Bar.ofCode_code, Reuse.ofCode_code, chk_true, beq_self_eq_true, Bool.and_self, Bool.not_true, Bool.not_false, Bool.true_or, Bool.false_or, Option.bind_eq_bind, Option.bind_some, Option.pure_def]

theorem barsetArr (g : Guard) (sa : Fin 64) (bar : Bar) : Statement (.barsetArr g sa bar) := by
  intro hw _
  refine encoded_c rfl (.inr <| .inl ⟨rfl, ?_⟩)
  show (fun f : CFmt => (f.aBar fun a b => .barsetArr f.g a b : Option Instr)) _ = _
  simp only [CFmt.g_of, CFmt.zero, CFmt.dA, CFmt.dAB, CFmt.dBar, CFmt.aBar, CFmt.pcBar, vField_vBits, sField_sBits, pField_pBits, Bar.ofCode_code, Reuse.ofCode_code, chk_true, beq_self_eq_true, Bool.and_self, Bool.not_true, Bool.not_false, Bool.true_or, Bool.false_or, Option.bind_eq_bind, Option.bind_some, Option.pure_def]

theorem barsetEarly (g : Guard) (sa : Fin 64) (bar : Bar) : Statement (.barsetEarly g sa bar) := by
  intro hw _
  refine encoded_c rfl (.inr <| .inl ⟨rfl, ?_⟩)
  show (fun f : CFmt => (f.aBar fun a b => .barsetEarly f.g a b : Option Instr)) _ = _
  simp only [CFmt.g_of, CFmt.zero, CFmt.dA, CFmt.dAB, CFmt.dBar, CFmt.aBar, CFmt.pcBar, vField_vBits, sField_sBits, pField_pBits, Bar.ofCode_code, Reuse.ofCode_code, chk_true, beq_self_eq_true, Bool.and_self, Bool.not_true, Bool.not_false, Bool.true_or, Bool.false_or, Option.bind_eq_bind, Option.bind_some, Option.pure_def]

theorem barsetWait (g : Guard) (sa : Fin 64) (bar : Bar) : Statement (.barsetWait g sa bar) := by
  intro hw _
  refine encoded_c rfl (.inr <| .inl ⟨rfl, ?_⟩)
  show (fun f : CFmt => (f.aBar fun a b => .barsetWait f.g a b : Option Instr)) _ = _
  simp only [CFmt.g_of, CFmt.zero, CFmt.dA, CFmt.dAB, CFmt.dBar, CFmt.aBar, CFmt.pcBar, vField_vBits, sField_sBits, pField_pBits, Bar.ofCode_code, Reuse.ofCode_code, chk_true, beq_self_eq_true, Bool.and_self, Bool.not_true, Bool.not_false, Bool.true_or, Bool.false_or, Option.bind_eq_bind, Option.bind_some, Option.pure_def]

theorem tret (g : Guard) : Statement (.tret g) := by
  intro hw _
  refine encoded_c rfl (.inr <| .inr ⟨rfl, ?_⟩)
  show (fun f : CFmt => (do
        chk (f.zero false true true true true true)
        match f.sub.toNat with
        | 0 => return .tret f.g
        | 1 => return .tretSaved f.g
        | _ => none : Option Instr)) _ = _
  simp only [CFmt.g_of, CFmt.zero, CFmt.dA, CFmt.dAB, CFmt.dBar, CFmt.aBar, CFmt.pcBar, vField_vBits, sField_sBits, pField_pBits, Bar.ofCode_code, Reuse.ofCode_code, chk_true, beq_self_eq_true, Bool.and_self, Bool.not_true, Bool.not_false, Bool.true_or, Bool.false_or, Option.bind_eq_bind, Option.bind_some, Option.pure_def]
  rfl

theorem tretSaved (g : Guard) : Statement (.tretSaved g) := by
  intro hw _
  refine encoded_c rfl (.inr <| .inr ⟨rfl, ?_⟩)
  show (fun f : CFmt => (do
        chk (f.zero false true true true true true)
        match f.sub.toNat with
        | 0 => return .tret f.g
        | 1 => return .tretSaved f.g
        | _ => none : Option Instr)) _ = _
  simp only [CFmt.g_of, CFmt.zero, CFmt.dA, CFmt.dAB, CFmt.dBar, CFmt.aBar, CFmt.pcBar, vField_vBits, sField_sBits, pField_pBits, Bar.ofCode_code, Reuse.ofCode_code, chk_true, beq_self_eq_true, Bool.and_self, Bool.not_true, Bool.not_false, Bool.true_or, Bool.false_or, Option.bind_eq_bind, Option.bind_some, Option.pure_def]
  rfl

theorem tlbiPage (g : Guard) (sa : Fin 64) : Statement (.tlbiPage g sa) := by
  intro hw _
  refine encoded_c rfl (.inr <| .inr ⟨rfl, ?_⟩)
  show (fun f : CFmt => (do chk (f.zero false true false true true true); return .tlbiPage f.g (← sField f.sa) : Option Instr)) _ = _
  simp only [CFmt.g_of, CFmt.zero, CFmt.dA, CFmt.dAB, CFmt.dBar, CFmt.aBar, CFmt.pcBar, vField_vBits, sField_sBits, pField_pBits, Bar.ofCode_code, Reuse.ofCode_code, chk_true, beq_self_eq_true, Bool.and_self, Bool.not_true, Bool.not_false, Bool.true_or, Bool.false_or, Option.bind_eq_bind, Option.bind_some, Option.pure_def]

theorem tlbiRange (g : Guard) (sa sb : Fin 64) : Statement (.tlbiRange g sa sb) := by
  intro hw _
  refine encoded_c rfl (.inr <| .inr ⟨rfl, ?_⟩)
  show (fun f : CFmt => (do chk (f.zero false true false false true true); return .tlbiRange f.g (← sField f.sa) (← sField f.sb) : Option Instr)) _ = _
  simp only [CFmt.g_of, CFmt.zero, CFmt.dA, CFmt.dAB, CFmt.dBar, CFmt.aBar, CFmt.pcBar, vField_vBits, sField_sBits, pField_pBits, Bar.ofCode_code, Reuse.ofCode_code, chk_true, beq_self_eq_true, Bool.and_self, Bool.not_true, Bool.not_false, Bool.true_or, Bool.false_or, Option.bind_eq_bind, Option.bind_some, Option.pure_def]

theorem tlbiAsid (g : Guard) : Statement (.tlbiAsid g) := by
  intro hw _
  refine encoded_c rfl (.inr <| .inr ⟨rfl, ?_⟩)
  show (fun f : CFmt => (do chk (f.zero false true true true true true); return .tlbiAsid f.g : Option Instr)) _ = _
  simp only [CFmt.g_of, CFmt.zero, CFmt.dA, CFmt.dAB, CFmt.dBar, CFmt.aBar, CFmt.pcBar, vField_vBits, sField_sBits, pField_pBits, Bar.ofCode_code, Reuse.ofCode_code, chk_true, beq_self_eq_true, Bool.and_self, Bool.not_true, Bool.not_false, Bool.true_or, Bool.false_or, Option.bind_eq_bind, Option.bind_some, Option.pure_def]

theorem genadv (g : Guard) : Statement (.genadv g) := by
  intro hw _
  refine encoded_c rfl (.inr <| .inr ⟨rfl, ?_⟩)
  show (fun f : CFmt => (do chk (f.zero true true true true true true); return .genadv f.g : Option Instr)) _ = _
  simp only [CFmt.g_of, CFmt.zero, CFmt.dA, CFmt.dAB, CFmt.dBar, CFmt.aBar, CFmt.pcBar, vField_vBits, sField_sBits, pField_pBits, Bar.ofCode_code, Reuse.ofCode_code, chk_true, beq_self_eq_true, Bool.and_self, Bool.not_true, Bool.not_false, Bool.true_or, Bool.false_or, Option.bind_eq_bind, Option.bind_some, Option.pure_def]

theorem dvsave (g : Guard) (sa : Fin 64) : Statement (.dvsave g sa) := by
  intro hw _
  refine encoded_c rfl (.inr <| .inr ⟨rfl, ?_⟩)
  show (fun f : CFmt => (do chk (f.zero true true false true true true); return .dvsave f.g (← sField f.sa) : Option Instr)) _ = _
  simp only [CFmt.g_of, CFmt.zero, CFmt.dA, CFmt.dAB, CFmt.dBar, CFmt.aBar, CFmt.pcBar, vField_vBits, sField_sBits, pField_pBits, Bar.ofCode_code, Reuse.ofCode_code, chk_true, beq_self_eq_true, Bool.and_self, Bool.not_true, Bool.not_false, Bool.true_or, Bool.false_or, Option.bind_eq_bind, Option.bind_some, Option.pure_def]

theorem dvload (g : Guard) (sd sa : Fin 64) : Statement (.dvload g sd sa) := by
  intro hw _
  refine encoded_c rfl (.inr <| .inr ⟨rfl, ?_⟩)
  show (fun f : CFmt => (do chk (f.sub == 0); f.dA fun d a => .dvload f.g d a : Option Instr)) _ = _
  simp only [CFmt.g_of, CFmt.zero, CFmt.dA, CFmt.dAB, CFmt.dBar, CFmt.aBar, CFmt.pcBar, vField_vBits, sField_sBits, pField_pBits, Bar.ofCode_code, Reuse.ofCode_code, chk_true, beq_self_eq_true, Bool.and_self, Bool.not_true, Bool.not_false, Bool.true_or, Bool.false_or, Option.bind_eq_bind, Option.bind_some, Option.pure_def]

theorem sigset (g : Guard) (sa : Fin 64) (n : Fin 4) : Statement (.sigset g sa n) := by
  intro hw _
  refine encoded_c rfl (.inr <| .inr ⟨rfl, ?_⟩)
  show (fun f : CFmt => (do
        chk (f.zero true true false true true false)
        if h : f.imm.toNat < 4 then return .sigset f.g (← sField f.sa) ⟨f.imm.toNat, h⟩ else none : Option Instr)) _ = _
  simp only [CFmt.g_of, CFmt.zero, CFmt.dA, CFmt.dAB, CFmt.dBar, CFmt.aBar, CFmt.pcBar, vField_vBits, sField_sBits, pField_pBits, Bar.ofCode_code, Reuse.ofCode_code, chk_true, beq_self_eq_true, Bool.and_self, Bool.not_true, Bool.not_false, Bool.true_or, Bool.false_or, Option.bind_eq_bind, Option.bind_some, Option.pure_def]
  fin_cases n <;> rfl

theorem sigrd (g : Guard) (sd : Fin 64) (n : Fin 4) : Statement (.sigrd g sd n) := by
  intro hw _
  refine encoded_c rfl (.inr <| .inr ⟨rfl, ?_⟩)
  show (fun f : CFmt => (do
        chk (f.zero true false true true true false)
        if h : f.imm.toNat < 4 then return .sigrd f.g (← sField f.sd) ⟨f.imm.toNat, h⟩ else none : Option Instr)) _ = _
  simp only [CFmt.g_of, CFmt.zero, CFmt.dA, CFmt.dAB, CFmt.dBar, CFmt.aBar, CFmt.pcBar, vField_vBits, sField_sBits, pField_pBits, Bar.ofCode_code, Reuse.ofCode_code, chk_true, beq_self_eq_true, Bool.and_self, Bool.not_true, Bool.not_false, Bool.true_or, Bool.false_or, Option.bind_eq_bind, Option.bind_some, Option.pure_def]
  fin_cases n <;> rfl

theorem mapft (g : Guard) (sd sa : Fin 64) : Statement (.mapft g sd sa) := by
  intro hw _
  refine encoded_c rfl (.inr <| .inr ⟨rfl, ?_⟩)
  show (fun f : CFmt => (do chk (f.sub == 0); f.dA fun d a => .mapft f.g d a : Option Instr)) _ = _
  simp only [CFmt.g_of, CFmt.zero, CFmt.dA, CFmt.dAB, CFmt.dBar, CFmt.aBar, CFmt.pcBar, vField_vBits, sField_sBits, pField_pBits, Bar.ofCode_code, Reuse.ofCode_code, chk_true, beq_self_eq_true, Bool.and_self, Bool.not_true, Bool.not_false, Bool.true_or, Bool.false_or, Option.bind_eq_bind, Option.bind_some, Option.pure_def]

theorem killw (g : Guard) (sd sa : Fin 64) : Statement (.killw g sd sa) := by
  intro hw _
  refine encoded_c rfl (.inr <| .inr ⟨rfl, ?_⟩)
  show (fun f : CFmt => (do chk (f.sub == 0); f.dA fun d a => .killw f.g d a : Option Instr)) _ = _
  simp only [CFmt.g_of, CFmt.zero, CFmt.dA, CFmt.dAB, CFmt.dBar, CFmt.aBar, CFmt.pcBar, vField_vBits, sField_sBits, pField_pBits, Bar.ofCode_code, Reuse.ofCode_code, chk_true, beq_self_eq_true, Bool.and_self, Bool.not_true, Bool.not_false, Bool.true_or, Bool.false_or, Option.bind_eq_bind, Option.bind_some, Option.pure_def]

theorem migr (g : Guard) (sd sa : Fin 64) : Statement (.migr g sd sa) := by
  intro hw _
  refine encoded_c rfl (.inr <| .inr ⟨rfl, ?_⟩)
  show (fun f : CFmt => (do chk (f.sub == 0); f.dA fun d a => .migr f.g d a : Option Instr)) _ = _
  simp only [CFmt.g_of, CFmt.zero, CFmt.dA, CFmt.dAB, CFmt.dBar, CFmt.aBar, CFmt.pcBar, vField_vBits, sField_sBits, pField_pBits, Bar.ofCode_code, Reuse.ofCode_code, chk_true, beq_self_eq_true, Bool.and_self, Bool.not_true, Bool.not_false, Bool.true_or, Bool.false_or, Option.bind_eq_bind, Option.bind_some, Option.pure_def]

theorem scrub (g : Guard) (sd sa sb : Fin 64) : Statement (.scrub g sd sa sb) := by
  intro hw _
  refine encoded_c rfl (.inr <| .inr ⟨rfl, ?_⟩)
  show (fun f : CFmt => (do chk (f.sub == 0); f.dAB fun d a b => .scrub f.g d a b : Option Instr)) _ = _
  simp only [CFmt.g_of, CFmt.zero, CFmt.dA, CFmt.dAB, CFmt.dBar, CFmt.aBar, CFmt.pcBar, vField_vBits, sField_sBits, pField_pBits, Bar.ofCode_code, Reuse.ofCode_code, chk_true, beq_self_eq_true, Bool.and_self, Bool.not_true, Bool.not_false, Bool.true_or, Bool.false_or, Option.bind_eq_bind, Option.bind_some, Option.pure_def]

theorem keyz (g : Guard) (sa : Fin 64) : Statement (.keyz g sa) := by
  intro hw _
  refine encoded_c rfl (.inr <| .inr ⟨rfl, ?_⟩)
  show (fun f : CFmt => (do chk (f.zero true true false true true true); return .keyz f.g (← sField f.sa) : Option Instr)) _ = _
  simp only [CFmt.g_of, CFmt.zero, CFmt.dA, CFmt.dAB, CFmt.dBar, CFmt.aBar, CFmt.pcBar, vField_vBits, sField_sBits, pField_pBits, Bar.ofCode_code, Reuse.ofCode_code, chk_true, beq_self_eq_true, Bool.and_self, Bool.not_true, Bool.not_false, Bool.true_or, Bool.false_or, Option.bind_eq_bind, Option.bind_some, Option.pure_def]

theorem qsaveRq (g : Guard) (sd sa : Fin 64) : Statement (.qsaveRq g sd sa) := by
  intro hw _
  refine encoded_c rfl (.inr <| .inr ⟨rfl, ?_⟩)
  show (fun f : CFmt => (f.dA fun d a => .qsaveRq f.g d a : Option Instr)) _ = _
  simp only [CFmt.g_of, CFmt.zero, CFmt.dA, CFmt.dAB, CFmt.dBar, CFmt.aBar, CFmt.pcBar, vField_vBits, sField_sBits, pField_pBits, Bar.ofCode_code, Reuse.ofCode_code, chk_true, beq_self_eq_true, Bool.and_self, Bool.not_true, Bool.not_false, Bool.true_or, Bool.false_or, Option.bind_eq_bind, Option.bind_some, Option.pure_def]

theorem qsaveMac (g : Guard) (sd sa : Fin 64) : Statement (.qsaveMac g sd sa) := by
  intro hw _
  refine encoded_c rfl (.inr <| .inr ⟨rfl, ?_⟩)
  show (fun f : CFmt => (f.dA fun d a => .qsaveMac f.g d a : Option Instr)) _ = _
  simp only [CFmt.g_of, CFmt.zero, CFmt.dA, CFmt.dAB, CFmt.dBar, CFmt.aBar, CFmt.pcBar, vField_vBits, sField_sBits, pField_pBits, Bar.ofCode_code, Reuse.ofCode_code, chk_true, beq_self_eq_true, Bool.and_self, Bool.not_true, Bool.not_false, Bool.true_or, Bool.false_or, Option.bind_eq_bind, Option.bind_some, Option.pure_def]

theorem qsaveRbq (g : Guard) (sd sa : Fin 64) : Statement (.qsaveRbq g sd sa) := by
  intro hw _
  refine encoded_c rfl (.inr <| .inr ⟨rfl, ?_⟩)
  show (fun f : CFmt => (f.dA fun d a => .qsaveRbq f.g d a : Option Instr)) _ = _
  simp only [CFmt.g_of, CFmt.zero, CFmt.dA, CFmt.dAB, CFmt.dBar, CFmt.aBar, CFmt.pcBar, vField_vBits, sField_sBits, pField_pBits, Bar.ofCode_code, Reuse.ofCode_code, chk_true, beq_self_eq_true, Bool.and_self, Bool.not_true, Bool.not_false, Bool.true_or, Bool.false_or, Option.bind_eq_bind, Option.bind_some, Option.pure_def]

theorem qloadRq (g : Guard) (sd sa : Fin 64) : Statement (.qloadRq g sd sa) := by
  intro hw _
  refine encoded_c rfl (.inr <| .inr ⟨rfl, ?_⟩)
  show (fun f : CFmt => (f.dA fun d a => .qloadRq f.g d a : Option Instr)) _ = _
  simp only [CFmt.g_of, CFmt.zero, CFmt.dA, CFmt.dAB, CFmt.dBar, CFmt.aBar, CFmt.pcBar, vField_vBits, sField_sBits, pField_pBits, Bar.ofCode_code, Reuse.ofCode_code, chk_true, beq_self_eq_true, Bool.and_self, Bool.not_true, Bool.not_false, Bool.true_or, Bool.false_or, Option.bind_eq_bind, Option.bind_some, Option.pure_def]

theorem qloadMac (g : Guard) (sd sa : Fin 64) : Statement (.qloadMac g sd sa) := by
  intro hw _
  refine encoded_c rfl (.inr <| .inr ⟨rfl, ?_⟩)
  show (fun f : CFmt => (f.dA fun d a => .qloadMac f.g d a : Option Instr)) _ = _
  simp only [CFmt.g_of, CFmt.zero, CFmt.dA, CFmt.dAB, CFmt.dBar, CFmt.aBar, CFmt.pcBar, vField_vBits, sField_sBits, pField_pBits, Bar.ofCode_code, Reuse.ofCode_code, chk_true, beq_self_eq_true, Bool.and_self, Bool.not_true, Bool.not_false, Bool.true_or, Bool.false_or, Option.bind_eq_bind, Option.bind_some, Option.pure_def]

theorem qloadRbq (g : Guard) (sd sa : Fin 64) : Statement (.qloadRbq g sd sa) := by
  intro hw _
  refine encoded_c rfl (.inr <| .inr ⟨rfl, ?_⟩)
  show (fun f : CFmt => (f.dA fun d a => .qloadRbq f.g d a : Option Instr)) _ = _
  simp only [CFmt.g_of, CFmt.zero, CFmt.dA, CFmt.dAB, CFmt.dBar, CFmt.aBar, CFmt.pcBar, vField_vBits, sField_sBits, pField_pBits, Bar.ofCode_code, Reuse.ofCode_code, chk_true, beq_self_eq_true, Bool.and_self, Bool.not_true, Bool.not_false, Bool.true_or, Bool.false_or, Option.bind_eq_bind, Option.bind_some, Option.pure_def]

theorem pgdisc (g : Guard) (sd sa sb : Fin 64) : Statement (.pgdisc g sd sa sb) := by
  intro hw _
  refine encoded_c rfl (.inr <| .inr ⟨rfl, ?_⟩)
  show (fun f : CFmt => (do chk (f.sub == 0); f.dAB fun d a b => .pgdisc f.g d a b : Option Instr)) _ = _
  simp only [CFmt.g_of, CFmt.zero, CFmt.dA, CFmt.dAB, CFmt.dBar, CFmt.aBar, CFmt.pcBar, vField_vBits, sField_sBits, pField_pBits, Bar.ofCode_code, Reuse.ofCode_code, chk_true, beq_self_eq_true, Bool.and_self, Bool.not_true, Bool.not_false, Bool.true_or, Bool.false_or, Option.bind_eq_bind, Option.bind_some, Option.pure_def]

theorem blockFetch (w : Nat) (e : Fin 4) : Statement (.blockFetch w e) := fun _ h => nomatch h
theorem quarterRunSelect (core : Nat) (quarter : Fin 4) : Statement (.quarterRunSelect core quarter) := fun _ h => nomatch h
theorem pendingWriteLands (w : Nat) (n : Nat) : Statement (.pendingWriteLands w n) := fun _ h => nomatch h
theorem deferredFaultTaken (w : Nat) (e : Fin 4) : Statement (.deferredFaultTaken w e) := fun _ h => nomatch h
theorem preemptTaken (w : Nat) (e : Fin 4) : Statement (.preemptTaken w e) := fun _ h => nomatch h
theorem migrateTaken (w : Nat) (e : Fin 4) : Statement (.migrateTaken w e) := fun _ h => nomatch h
theorem cardLaunch (card : Nat) : Statement (.cardLaunch card) := fun _ h => nomatch h
theorem cardComplete (card : Nat) : Statement (.cardComplete card) := fun _ h => nomatch h
theorem cardFault (card : Nat) : Statement (.cardFault card) := fun _ h => nomatch h
theorem barrierWake (bar : Nat) : Statement (.barrierWake bar) := fun _ h => nomatch h
theorem messageArrive (chan : Nat) : Statement (.messageArrive chan) := fun _ h => nomatch h
theorem lqEntryTake (q : Nat) : Statement (.lqEntryTake q) := fun _ h => nomatch h
theorem placementDecision : Statement (.placementDecision) := fun _ h => nomatch h
theorem gangHeld (launch : Nat) (t : Nat) : Statement (.gangHeld launch t) := fun _ h => nomatch h
theorem calleeWarpForm (launch : Nat) (die : Fin 4) : Statement (.calleeWarpForm launch die) := fun _ h => nomatch h
theorem blockRetire (block : Nat) : Statement (.blockRetire block) := fun _ h => nomatch h
theorem lqConfigWrite (q : Nat) (v : BitVec 64) : Statement (.lqConfigWrite q v) := fun _ h => nomatch h
theorem lqBaseWrite (q : Nat) (v : BitVec 64) : Statement (.lqBaseWrite q v) := fun _ h => nomatch h
theorem lqTailWrite (q : Nat) (v : BitVec 32) : Statement (.lqTailWrite q v) := fun _ h => nomatch h
theorem term (q : Nat) : Statement (.term q) := fun _ h => nomatch h
theorem pageWalk (core : Nat) (asid : Nat) (va : Nat) (write : Bool) : Statement (.pageWalk core asid va write) := fun _ h => nomatch h
theorem fresume (slot : Nat) (seq : BitVec 32) : Statement (.fresume slot seq) := fun _ h => nomatch h
theorem frtailWrite (slot : Nat) (v : BitVec 32) : Statement (.frtailWrite slot v) := fun _ h => nomatch h
theorem depoch (slot : Nat) : Statement (.depoch slot) := fun _ h => nomatch h
theorem harvestEpochComplete (slot : Nat) : Statement (.harvestEpochComplete slot) := fun _ h => nomatch h
theorem contextEnd (slot : Nat) : Statement (.contextEnd slot) := fun _ h => nomatch h
theorem apply (die : Fin 4) (v : BitVec 64) : Statement (.apply die v) := fun _ h => nomatch h
theorem applyWithdraw (die : Fin 4) : Statement (.applyWithdraw die) := fun _ h => nomatch h
theorem splitApplied (die : Fin 4) : Statement (.splitApplied die) := fun _ h => nomatch h
theorem homeAccess (pa : Nat) (req : LineRequest) (nl : Fin 8) : Statement (.homeAccess pa req nl) := fun _ h => nomatch h
theorem hbmFill (line : Nat) : Statement (.hbmFill line) := fun _ h => nomatch h
theorem missRatioWindowEnd (contract : Nat) (die : Fin 4) : Statement (.missRatioWindowEnd contract die) := fun _ h => nomatch h
theorem homeAtomic (core : Nat) (pa : Nat) (op : AtomOp) (sz : MSize) (x : BitVec 64) : Statement (.homeAtomic core pa op sz x) := fun _ h => nomatch h
theorem kvOpAtHome (asid : Nat) (die : Fin 4) (op : KvOp) : Statement (.kvOpAtHome asid die op) := fun _ h => nomatch h
theorem netEntryReceive (chan : Nat) (room crcOk : Bool) (idErr : Fin 3) : Statement (.netEntryReceive chan room crcOk idErr) := fun _ h => nomatch h
theorem netResend (chan : Nat) : Statement (.netResend chan) := fun _ h => nomatch h
theorem netAckTimeout (chan : Nat) : Statement (.netAckTimeout chan) := fun _ h => nomatch h
theorem deadlockProbe (chan : Nat) : Statement (.deadlockProbe chan) := fun _ h => nomatch h
theorem probeReturn (chan : Nat) (cycle : List Nat) : Statement (.probeReturn chan cycle) := fun _ h => nomatch h
theorem probeLost (chan : Nat) : Statement (.probeLost chan) := fun _ h => nomatch h
theorem netControlWrite (off : Nat) (v : BitVec 64) : Statement (.netControlWrite off v) := fun _ h => nomatch h
theorem hostPostedWrite (off : Nat) (data : List Byte) (relaxed : Bool) : Statement (.hostPostedWrite off data relaxed) := fun _ h => nomatch h
theorem hostRead (off : Nat) (n : Nat) : Statement (.hostRead off n) := fun _ h => nomatch h
theorem deviceRegisterAccess (off : Nat) (size : Nat) (v : BitVec 128) : Statement (.deviceRegisterAccess off size v) := fun _ h => nomatch h
theorem hostEgress : Statement (.hostEgress) := fun _ h => nomatch h
theorem peerRequest (pkg asid : Nat) (pa : Nat) (op : PeerOp) : Statement (.peerRequest pkg asid pa op) := fun _ h => nomatch h
theorem injectorArm (i : Nat) : Statement (.injectorArm i) := fun _ h => nomatch h
theorem injectorFire (i : Nat) (chan : Nat) : Statement (.injectorFire i chan) := fun _ h => nomatch h
theorem peerUnreachable (pkg : Nat) (down : Bool) : Statement (.peerUnreachable pkg down) := fun _ h => nomatch h
theorem bankFailed (bank : Nat) : Statement (.bankFailed bank) := fun _ h => nomatch h
theorem spareSubstitute (bank : Nat) : Statement (.spareSubstitute bank) := fun _ h => nomatch h
theorem leaseGrant (core : Nat) (line : Nat) : Statement (.leaseGrant core line) := fun _ h => nomatch h
theorem leaseEnd (core : Nat) (line : Nat) : Statement (.leaseEnd core line) := fun _ h => nomatch h
theorem leaseRecall (core : Nat) (line : Nat) : Statement (.leaseRecall core line) := fun _ h => nomatch h
theorem leaseExpiry (line : Nat) : Statement (.leaseExpiry line) := fun _ h => nomatch h
theorem pre (slot : Nat) : Statement (.pre slot) := fun _ h => nomatch h
theorem preemptComplete (slot : Nat) : Statement (.preemptComplete slot) := fun _ h => nomatch h
theorem res (slot : Nat) : Statement (.res slot) := fun _ h => nomatch h
theorem savedBlockReadmit (slot : Nat) : Statement (.savedBlockReadmit slot) := fun _ h => nomatch h
theorem impgo (slot : Nat) : Statement (.impgo slot) := fun _ h => nomatch h
theorem scrubComplete : Statement (.scrubComplete) := fun _ h => nomatch h
theorem rsgo : Statement (.rsgo) := fun _ h => nomatch h
theorem epochClearing (m : EpochMeasure) : Statement (.epochClearing m) := fun _ h => nomatch h
theorem operatingPointChange (island : Nat) : Statement (.operatingPointChange island) := fun _ h => nomatch h
theorem nearThresholdWindow (island stalled cycles : Nat) : Statement (.nearThresholdWindow island stalled cycles) := fun _ h => nomatch h
theorem capCommand (pcap acap : Nat) (seq : BitVec 32) : Statement (.capCommand pcap acap seq) := fun _ h => nomatch h
theorem fastThrottleSample (quadrant : Fin 16) (m : PowerSample) : Statement (.fastThrottleSample quadrant m) := fun _ h => nomatch h
theorem thermalReading (core : Nat) (temp : BitVec 10) (t : Nat) : Statement (.thermalReading core temp t) := fun _ h => nomatch h
theorem thermalMigrationStart (core : Nat) : Statement (.thermalMigrationStart core) := fun _ h => nomatch h
theorem thermalMigrationComplete (core : Nat) : Statement (.thermalMigrationComplete core) := fun _ h => nomatch h
theorem measuredBoot (fw cfgRec : List Byte) (later : List (Nat × BitVec 256)) : Statement (.measuredBoot fw cfgRec later) := fun _ h => nomatch h
theorem attestationRequest (nonce : List Byte) : Statement (.attestationRequest nonce) := fun _ h => nomatch h
theorem lifetimeFold : Statement (.lifetimeFold) := fun _ h => nomatch h
theorem powerLoss : Statement (.powerLoss) := fun _ h => nomatch h

end Sys2Proof.Laws.Encodes
end

