-- ==== Sys2Proof/Laws/Registers.lean ====
section
/-! SUPPORT. What the register operations and the divergence rules do to a warp: a register that is not written stays, and
moving splits about changes no register. -/

namespace Sys2Proof.Machine

/-! ## Moving splits about -/

/-- Nothing of the warp differs but its split table and what its lanes' end does (R110). -/
def Warp.Moved (x y : Warp) : Prop :=
  y = { x with table := y.table, live := y.live, pend := y.pend, deferred := y.deferred }

theorem Warp.Moved.refl (x : Warp) : x.Moved x := rfl

theorem Warp.Moved.trans {x y z : Warp} (h : x.Moved y) (k : y.Moved z) : x.Moved z := by
  unfold Warp.Moved at *
  rw [k, h]

theorem Warp.moved_setSplit (x : Warp) (e : Nat) (f : Split → Split) : x.Moved (x.setSplit e f) := rfl

theorem Warp.moved_table (x : Warp) (t : DivTable) : x.Moved { x with table := t } := rfl

theorem Warp.moved_endLanes (x : Warp) (m : Lanes) : x.Moved (x.endLanes m) := rfl

theorem Warp.moved_enterHeader (x : Warp) (e : Nat) (a : Word64) (m : Bool) : x.Moved (x.enterHeader e a m) := rfl

theorem Warp.moved_mergeJoin (x : Warp) (j : Nat) : x.Moved (x.mergeJoin j).1 := rfl

theorem Warp.moved_arrive (n : Nat) (x : Warp) (e : Nat) (a : Arrive) : x.Moved (x.arrive n e a) := by
  induction n generalizing x e a with
  | zero => exact .refl x
  | succ n ih =>
    have step : ∀ y e a, x.Moved y → x.Moved (Warp.arrive n y e a) := fun y e a h => h.trans (ih y e a)
    unfold Warp.arrive
    cases a with
    | header h m =>
      dsimp only
      split
      · split
        · split
          · split
            · rfl
            · exact step _ _ _ rfl
          · split
            · exact step _ _ _ rfl
            · exact step _ _ _ rfl
        · rfl
      · split
        · split
          · exact step _ _ _ rfl
          · rfl
        · rfl
    | exited =>
      dsimp only
      split
      · split
        · split
          · rfl
          · exact step _ _ _ rfl
        · split
          · exact step _ _ _ rfl
          · split
            · exact step _ _ _ rfl
            · exact step _ _ _ rfl
      · split
        · rfl
        · split
          · exact step _ _ _ rfl
          · rfl

/-- Entering headers changes no register. -/
theorem Warp.moved_settle (x : Warp) : x.Moved x.settle := by
  unfold Warp.settle
  have go : ∀ (l : List Nat) (y : Warp), x.Moved y → x.Moved (l.foldl (fun w e =>
      let p := w.splitAt e
      if !p.valid then w
      else if p.mask &&& w.alive = 0 ∧ ¬(p.frames = [] ∧ p.spilled ≠ 0) then w.arrive arriveFuel e .exited
      else if !p.word && !p.entered && !p.waiting then w.arrive arriveFuel e (.header p.pc true)
      else w) y) := by
    intro l
    induction l with
    | nil => intro y h; exact h
    | cons e l ih =>
      intro y h
      apply ih
      dsimp only
      split
      · exact h
      · split
        · exact h.trans (Warp.moved_arrive ..)
        · split
          · exact h.trans (Warp.moved_arrive ..)
          · exact h
  exact go _ _ (.refl x)

/-! ## The end of a word -/

theorem updWarp_find (s : State) (w k : Nat) (f : Warp → Warp) :
    (updWarp s w f).warps.find? k = if k = w then (s.warps.find? w).map f else s.warps.find? k :=
  Tbl.find?_modify ..

theorem updWarp_none {s : State} {w : Nat} (f : Warp → Warp) (h : s.warps.find? w = none) : updWarp s w f = s := by
  simp [updWarp, Tbl.modify, h]

theorem warpAt_of_find {s : State} {w : Nat} {x : Warp} (h : s.warps.find? w = some x) : warpAt s w = x := by
  simp [warpAt, Tbl.getD, h]

theorem endWarp_find (s : State) (w : Nat) : (endWarp s w).warps.find? w = none := by
  simp [endWarp, removeWarp, Tbl.find?_del]

/-- A warp that is still there after its splits have settled has only settled. -/
theorem settleWarp_kept {s : State} {w : Nat} {y : Warp} (h : (settleWarp s w).warps.find? w = some y) :
    settleWarp s w = updWarp s w Warp.settle := by
  unfold settleWarp endIfDone at *
  split
  · rename_i x hx
    split
    · rename_i hd
      simp only [hx] at h
      rw [if_pos hd, endWarp_find] at h
      simp at h
    · rfl
  · rfl

/-- The end of a run changes only the warp and which runs are under way. -/
theorem endRun_eq (s : State) (w e : Nat) :
    endRun s w e = { updWarp s w (·.runEnds e s.seq) with
      seq := s.seq + 1, focus := (endRun s w e).focus, runs := (endRun s w e).runs } := rfl

/-- Nothing else of the warp differs, after its word, but FLAGS, its registers and the places of its splits. -/
theorem sameElsewhere.refl (w : Nat) (s : State) : sameElsewhere w s s := ⟨rfl, fun _ _ => rfl, fun _ h => h⟩

theorem sameElsewhere.trans {w : Nat} {s t u : State} (h : sameElsewhere w s t) (k : sameElsewhere w t u) :
    sameElsewhere w s u := by
  obtain ⟨h1, h2, h3⟩ := h
  obtain ⟨k1, k2, k3⟩ := k
  refine ⟨?_, fun j hj => (k2 j hj).trans (h2 j hj), fun r hr => h3 r (k3 r hr)⟩
  rw [k1, h1]

theorem sameElsewhere_updWarp (s : State) (w : Nat) (f : Warp → Warp) : sameElsewhere w s (updWarp s w f) :=
  ⟨rfl, fun k hk => by rw [updWarp_find, if_neg hk], fun _ h => h⟩

theorem sameElsewhere_updSplit (s : State) (w e : Nat) (f : Split → Split) : sameElsewhere w s (updSplit s w e f) :=
  sameElsewhere_updWarp ..

theorem sameElsewhere_endRun (s : State) (w e : Nat) : sameElsewhere w s (endRun s w e) := by
  rw [endRun_eq]
  exact ⟨rfl, fun k hk => by simp [Tbl.find?_modify, hk], fun _ h => h⟩

theorem cleanRegRows_eq (s : State) (w : Nat) (g : Lanes) (rs : List Reg) :
    cleanRegRows s w g rs = { s with rowErrors := (cleanRegRows s w g rs).rowErrors } ∧
      ∀ r ∈ (cleanRegRows s w g rs).rowErrors, r ∈ s.rowErrors := by
  unfold cleanRegRows cleanRows
  dsimp only
  split
  · exact ⟨rfl, fun _ h => h⟩
  · exact ⟨rfl, fun r h => (List.mem_filter.mp h).1⟩

theorem sameElsewhere_cleanRegRows (s : State) (w k : Nat) (g : Lanes) (rs : List Reg) :
    sameElsewhere k s (cleanRegRows s w g rs) := by
  obtain ⟨h1, h2⟩ := cleanRegRows_eq s w g rs
  refine ⟨?_, ?_, h2⟩
  · rw [h1]
  · intro j _
    rw [h1]

/-- A word that sends nothing leaves, when it completes, the warp's registers as its effect left them. -/
theorem complete_same {i : Issuer} {ws : WordSpec} {g : Lanes} (s : State) (h : i.sends ws g = false) :
    sameElsewhere i.w s (i.complete ws g s) ∧
      ∃ r : Warp → Option Region, (i.complete ws g s).warps.find? i.w = (s.warps.find? i.w).map fun x => { x with region := r x } := by
  unfold Issuer.complete
  simp only [h, Bool.false_and, Bool.false_eq_true, ↓reduceIte, Bool.or_false]
  have hc := sameElsewhere_cleanRegRows s i.w i.w g (ws.writes.map i.x.regOf)
  have hw : (cleanRegRows s i.w g (ws.writes.map i.x.regOf)).warps = s.warps := by
    rw [(cleanRegRows_eq s i.w g (ws.writes.map i.x.regOf)).1]
  split
  · refine ⟨hc.trans (sameElsewhere_updWarp ..), fun x => x.region.map fun r => { r with clean := false }, ?_⟩
    simp [soilRegion, Tbl.find?_modify, hw]
  · refine ⟨hc, fun x => x.region, ?_⟩
    simp [hw]

/-! ## Writing registers -/

/-- A warp has had registers of a list written, vector registers and predicates in the lanes of g only. -/
structure Warp.Wrote (ds : List Reg) (g : Lanes) (x y : Warp) : Prop where
  v : ∀ n l, l < 32 → .v n ∉ ds ∨ g.getLsbD l = false → (y.rawV n).lane l = (x.rawV n).lane l
  s : ∀ n, .s n ∉ ds → y.rawS n = x.rawS n
  p : ∀ n l, .p n ∉ ds ∨ g.getLsbD l = false → (y.pred n).getLsbD l = (x.pred n).getLsbD l
  rest : y = { x with v := y.v, sr := y.sr, pr := y.pr, handler := y.handler }
  bank : y.handler.map (fun h => { h with bankV := [], bankS := [] }) = x.handler.map fun h => { h with bankV := [], bankS := [] }

theorem Warp.Wrote.refl (ds : List Reg) (g : Lanes) (x : Warp) : Warp.Wrote ds g x x :=
  ⟨fun _ _ _ _ => rfl, fun _ _ => rfl, fun _ _ _ => rfl, rfl, rfl⟩

theorem Warp.Wrote.trans {ds : List Reg} {g : Lanes} {x y z : Warp} (h : Warp.Wrote ds g x y) (k : Warp.Wrote ds g y z) :
    Warp.Wrote ds g x z where
  v n l hl hn := (k.v n l hl hn).trans (h.v n l hl hn)
  s n hn := (k.s n hn).trans (h.s n hn)
  p n l hn := (k.p n l hn).trans (h.p n l hn)
  rest := by rw [k.rest, h.rest]
  bank := k.bank.trans h.bank

theorem Warp.Wrote.mono {ds es : List Reg} {g : Lanes} {x y : Warp} (h : Warp.Wrote ds g x y) (hs : ∀ r ∈ ds, r ∈ es) :
    Warp.Wrote es g x y where
  v n l hl hn := h.v n l hl (hn.imp_left fun a b => a (hs _ b))
  s n hn := h.s n fun b => hn (hs _ b)
  p n l hn := h.p n l (hn.imp_left fun a b => a (hs _ b))
  rest := h.rest
  bank := h.bank

theorem Warp.Wrote.inHandler {ds : List Reg} {g : Lanes} {x y : Warp} (h : Warp.Wrote ds g x y) :
    y.handler.isSome = x.handler.isSome := by
  simpa using congrArg Option.isSome h.bank

theorem Warp.Wrote.regOf {ds : List Reg} {g : Lanes} {x y : Warp} (h : Warp.Wrote ds g x y) : y.regOf = x.regOf := by
  funext r
  cases r <;> simp [Warp.regOf, Warp.regV, Warp.regS, h.inHandler]

theorem Row.lane_upd (r : Row) (m : Lanes) (f : Nat → Word32) {l : Nat} (hl : l < 32) :
    (r.upd m f).lane l = if m.getLsbD l then f l else r.lane l := by
  simp [Row.upd, Row.lane, hl]

theorem Warp.rawV_setRawV (x : Warp) (r n : Nat) (row : Row) (h : n ≠ r) : (x.setRawV r row).rawV n = x.rawV n := by
  unfold Warp.setRawV Warp.rawV
  cases hx : x.handler <;> by_cases h1 : 256 ≤ r <;> by_cases h2 : 256 ≤ n <;>
    simp [hx, h1, h2, Tbl.getD, Tbl.find?_put, h]
  have : n - 256 ≠ r - 256 := by omega
  simp [this]

theorem Warp.rawS_setRawS (x : Warp) (r n : Nat) (v : Word32) (h : n ≠ r) : (x.setRawS r v).rawS n = x.rawS n := by
  unfold Warp.setRawS Warp.rawS
  cases hx : x.handler <;> by_cases h1 : 256 ≤ r <;> by_cases h2 : 256 ≤ n <;>
    simp [hx, h1, h2, Tbl.getD, Tbl.find?_put, h]
  have : n - 256 ≠ r - 256 := by omega
  simp [this]

theorem Warp.rawV_setRawV_same (x : Warp) (r : Nat) (row : Row) (h : r < 256 ∨ x.handler.isSome = true) :
    (x.setRawV r row).rawV r = row := by
  unfold Warp.setRawV Warp.rawV
  cases hx : x.handler <;> by_cases h1 : 256 ≤ r <;> simp [hx, h1, Tbl.getD]
  simp [hx] at h
  omega

theorem Warp.setRawV_rest (x : Warp) (r : Nat) (row : Row) :
    x.setRawV r row = { x with v := (x.setRawV r row).v, handler := (x.setRawV r row).handler } ∧
      (x.setRawV r row).handler.map (fun h => { h with bankV := [], bankS := [] }) =
        x.handler.map fun h => { h with bankV := [], bankS := [] } := by
  unfold Warp.setRawV
  cases hx : x.handler <;> by_cases h1 : 256 ≤ r <;> simp [hx, h1]
  exact hx ▸ rfl

theorem Warp.setRawS_rest (x : Warp) (r : Nat) (v : Word32) :
    x.setRawS r v = { x with sr := (x.setRawS r v).sr, handler := (x.setRawS r v).handler } ∧
      (x.setRawS r v).handler.map (fun h => { h with bankV := [], bankS := [] }) =
        x.handler.map fun h => { h with bankV := [], bankS := [] } := by
  unfold Warp.setRawS
  cases hx : x.handler <;> by_cases h1 : 256 ≤ r <;> simp [hx, h1]
  exact hx ▸ rfl

theorem Warp.rawS_setRawV (x : Warp) (r n : Nat) (row : Row) : (x.setRawV r row).rawS n = x.rawS n := by
  unfold Warp.setRawV Warp.rawS
  cases hx : x.handler <;> by_cases h1 : 256 ≤ r <;> simp [hx, h1]

theorem Warp.rawV_setRawS (x : Warp) (r n : Nat) (v : Word32) : (x.setRawS r v).rawV n = x.rawV n := by
  unfold Warp.setRawS Warp.rawV
  cases hx : x.handler <;> by_cases h1 : 256 ≤ r <;> simp [hx, h1]

theorem Warp.pr_setRawV (x : Warp) (r : Nat) (row : Row) : (x.setRawV r row).pr = x.pr := by
  rw [(x.setRawV_rest r row).1]

theorem Warp.pr_setRawS (x : Warp) (r : Nat) (v : Word32) : (x.setRawS r v).pr = x.pr := by
  rw [(x.setRawS_rest r v).1]

theorem Warp.wrote_putV (x : Warp) (n : Nat) (g : Lanes) (f : Nat → Word32) :
    Warp.Wrote [.v (x.regV n)] g x (x.putV n g f) where
  v k l hl hk := by
    unfold Warp.putV
    by_cases h : k = x.regV n
    · subst h
      have hg : g.getLsbD l = false := by simpa using hk
      by_cases hr : x.regV n < 256 ∨ x.handler.isSome = true
      · rw [Warp.rawV_setRawV_same _ _ _ hr, Row.lane_upd _ _ _ hl]
        simp [hg, Warp.getV]
      · have : x.setRawV (x.regV n) (Row.upd (x.getV n) g f) = x := by
          unfold Warp.setRawV
          rw [if_pos (by omega)]
          split
          · rename_i h' _ e
            exact absurd (by simp [e]) (not_or.mp hr).2
          · rfl
        rw [this]
    · rw [Warp.rawV_setRawV _ _ _ _ h]
  s k _ := Warp.rawS_setRawV ..
  p k l _ := by simp [Warp.putV, Warp.pred, Warp.pr_setRawV]
  rest := by
    have := (x.setRawV_rest (x.regV n) (Row.upd (x.getV n) g f)).1
    unfold Warp.putV
    rw [this]
  bank := (x.setRawV_rest _ _).2

theorem Warp.wrote_putS (x : Warp) (n : Nat) (g : Lanes) (a : Word32) : Warp.Wrote [.s (x.regS n)] g x (x.putS n a) := by
  unfold Warp.putS
  split
  · exact .refl ..
  · exact {
      v := fun k l _ _ => by rw [Warp.rawV_setRawS]
      s := fun k hk => Warp.rawS_setRawS _ _ _ _ (by simpa using hk)
      p := fun k l _ => by simp [Warp.pred, Warp.pr_setRawS]
      rest := by
        have := (x.setRawS_rest (x.regS n) a).1
        rw [this]
      bank := (x.setRawS_rest _ _).2 }

theorem Warp.wrote_putP (x : Warp) (n : Nat) (g vals : Lanes) : Warp.Wrote (pRegs n) g x (x.putP n g vals) := by
  unfold Warp.putP
  split
  · exact .refl ..
  · rename_i hn
    exact {
      v := fun _ _ _ _ => rfl
      s := fun _ _ => rfl
      p := fun k l hk => by
        unfold Warp.pred
        by_cases h7 : k = 7
        · simp [h7]
        · rw [if_neg h7, if_neg h7]
          simp only [Tbl.getD, Tbl.find?_put]
          by_cases h : k = n
          · subst h
            have hg : g.getLsbD l = false := by
              rcases hk with hk | hk
              · simp [pRegs, h7] at hk
              · exact hk
            simp only [↓reduceIte, Option.getD_some, BitVec.getLsbD_or, BitVec.getLsbD_and, BitVec.getLsbD_not, hg]
            by_cases hl : l < 32
            · simp [hl, h7]
            · rw [BitVec.getLsbD_of_ge ((x.pr.find? k).getD 0) l (by omega)]
              simp [hl]
          · simp [h]
      rest := rfl
      bank := rfl }

theorem Warp.wrote_dst (x : Warp) (is64 : Bool) (d : Dst) (g : Lanes) (f : Nat → Word64) :
    Warp.Wrote ((dstRegs is64 d).map x.regOf) g x (x.dst is64 d g f) := by
  cases d with
  | v n =>
    have h1 := x.wrote_putV n.val g fun l => loWord (f l)
    cases is64 with
    | false => exact h1.mono (by simp [dstRegs, vRegs, Warp.regOf])
    | true =>
      have h2 := (x.putV n.val g fun l => loWord (f l)).wrote_putV (n.val + 1) g fun l => hiWord (f l)
      have e : (x.putV n.val g fun l => loWord (f l)).regV (n.val + 1) = x.regV (n.val + 1) := by
        simp [Warp.regV, h1.inHandler]
      rw [e] at h2
      exact (h1.mono (by simp [dstRegs, vRegs, Warp.regOf])).trans (h2.mono (by simp [dstRegs, vRegs, Warp.regOf]))
  | s n =>
    unfold Warp.dst
    dsimp only
    split
    · exact .refl ..
    · rename_i l hl
      have h1 := x.wrote_putS n.val g (loWord (f l))
      cases is64 with
      | false => exact h1.mono (by simp [dstRegs, sRegs, Warp.regOf])
      | true =>
        have h2 := (x.putS n.val (loWord (f l))).wrote_putS (n.val + 1) g (hiWord (f l))
        have e : (x.putS n.val (loWord (f l))).regS (n.val + 1) = x.regS (n.val + 1) := by
          simp [Warp.regS, h1.inHandler]
        rw [e] at h2
        exact (h1.mono (by simp [dstRegs, sRegs, Warp.regOf])).trans (h2.mono (by simp [dstRegs, sRegs, Warp.regOf]))
  | p n =>
    exact (x.wrote_putP n.val g _).mono (by
      intro r hr
      simp only [dstRegs, List.mem_map]
      refine ⟨r, hr, ?_⟩
      unfold pRegs at hr
      split at hr
      · simp at hr
      · simp at hr
        simp [hr, Warp.regOf])

end Sys2Proof.Machine
end

