-- ==== Sys2Proof/Laws/Words.lean ====
section
/-! SUPPORT. What the end of a word leaves: the registers as its effect left them, and everything outside its warp. -/

namespace Sys2Proof.Machine

/-- A warp has gone on: its registers and FLAGS are the same, but for vector registers that its allotment gives up. -/
structure Warp.WentOn (ended : Bool) (x y : Warp) : Prop where
  v : ∀ n, n < y.allot ∨ 256 ≤ n → y.rawV n = x.rawV n
  sr : y.sr = x.sr
  pr : y.pr = x.pr
  handler : y.handler = x.handler
  rest : y = { x with v := y.v, table := y.table, allot := y.allot, nextAllot := y.nextAllot, lastRun := y.lastRun,
                      region := y.region, live := y.live, pend := y.pend, deferred := y.deferred }
  calm : ended = false → y.live = x.live ∧ y.pend = x.pend ∧ y.deferred = x.deferred

theorem Warp.WentOn.refl (b : Bool) (x : Warp) : Warp.WentOn b x x :=
  ⟨fun _ _ => rfl, rfl, rfl, rfl, rfl, fun _ => ⟨rfl, rfl, rfl⟩⟩

theorem Warp.wentOn_table (b : Bool) (x : Warp) (t : DivTable) : Warp.WentOn b x { x with table := t } :=
  ⟨fun _ _ => rfl, rfl, rfl, rfl, rfl, fun _ => ⟨rfl, rfl, rfl⟩⟩

theorem Warp.wentOn_region (b : Bool) (x : Warp) (r : Option Region) : Warp.WentOn b x { x with region := r } :=
  ⟨fun _ _ => rfl, rfl, rfl, rfl, rfl, fun _ => ⟨rfl, rfl, rfl⟩⟩

theorem Warp.Moved.wentOn {x y : Warp} (h : x.Moved y) : Warp.WentOn true x y := by
  unfold Warp.Moved at h
  exact ⟨fun _ _ => by rw [h]; rfl, by rw [h], by rw [h], by rw [h], by rw [h], fun h => by simp at h⟩

theorem Tbl.getD_filter_lt {α : Type} (m : Tbl α) (d : α) {n k : Nat} (h : k < n) :
    Tbl.getD (List.filter (fun r => decide (r.1 < n)) m) d k = m.getD d k := by
  have := Tbl.find?_filter_key m (fun x => decide (x < n)) k
  simp only [decide_eq_true_eq, h, ↓reduceIte] at this
  simp only [Tbl.getD, this]

theorem Warp.wentOn_runEnds (x : Warp) (e stamp : Nat) : Warp.WentOn true x (x.runEnds e stamp) := by
  unfold Warp.runEnds
  dsimp only
  cases hn : x.nextAllot with
  | none =>
    simp only [Warp.setSplit_other]
    exact ⟨fun _ _ => rfl, rfl, rfl, rfl, rfl, fun h => by simp at h⟩
  | some n =>
    simp only [Warp.setSplit_other]
    refine ⟨fun k hk => ?_, rfl, rfl, rfl, rfl, fun h => by simp at h⟩
    unfold Warp.rawV
    split
    · rfl
    · dsimp only at hk
      exact Tbl.getD_filter_lt _ _ (by omega)

theorem Warp.WentOn.trans {a b : Bool} {x y z : Warp} (h : Warp.WentOn a x y) (k : Warp.WentOn b y z)
    (hv : y.v = x.v ∧ y.allot = x.allot ∨ z.v = y.v ∧ z.allot = y.allot) : Warp.WentOn (a || b) x z where
  v n hn := by
    rcases hv with hv | hv
    · have e : y.rawV n = x.rawV n := by simp [Warp.rawV, hv.1, h.handler]
      exact (k.v n hn).trans e
    · have e : z.rawV n = y.rawV n := by simp [Warp.rawV, hv.1, k.handler]
      exact e.trans (h.v n (by rw [← hv.2]; exact hn))
  sr := k.sr.trans h.sr
  pr := k.pr.trans h.pr
  handler := k.handler.trans h.handler
  rest := by rw [k.rest, h.rest]
  calm hb := by
    have ha : a = false ∧ b = false := by simpa using hb
    obtain ⟨k1, k2, k3⟩ := k.calm ha.2
    obtain ⟨h1, h2, h3⟩ := h.calm ha.1
    exact ⟨k1.trans h1, k2.trans h2, k3.trans h3⟩

/-! ## Ends of runs -/

theorem endRun_find (s : State) (w e : Nat) :
    (endRun s w e).warps.find? w = (s.warps.find? w).map (·.runEnds e s.seq) := by
  rw [endRun_eq]
  simp [Tbl.find?_modify]

/-- A warp that is still there after the run has ended and its splits have settled. -/
theorem settle_endRun {s : State} {w e : Nat} {x y : Warp} (hx : s.warps.find? w = some x)
    (hy : (settleWarp (endRun s w e) w).warps.find? w = some y) :
    sameElsewhere w s (settleWarp (endRun s w e) w) ∧ Warp.WentOn true x y := by
  have hk := settleWarp_kept hy
  rw [hk] at hy ⊢
  refine ⟨(sameElsewhere_endRun s w e).trans (sameElsewhere_updWarp ..), ?_⟩
  rw [updWarp_find, if_pos rfl, endRun_find, hx] at hy
  simp only [Option.map_some, Option.some.injEq] at hy
  subst hy
  have h1 := x.wentOn_runEnds e s.seq
  have h2 := (Warp.moved_settle (x.runEnds e s.seq)).wentOn
  have e3 : (x.runEnds e s.seq).settle.v = (x.runEnds e s.seq).v := by rw [Warp.moved_settle (x.runEnds e s.seq)]
  have e4 : (x.runEnds e s.seq).settle.allot = (x.runEnds e s.seq).allot := by rw [Warp.moved_settle (x.runEnds e s.seq)]
  exact h1.trans h2 (.inr ⟨e3, e4⟩)

/-- Moving a split on, when the warp is still there. -/
theorem advance_kept {i : Issuer} {ws : WordSpec} {s : State} {x y : Warp} (hx : s.warps.find? i.w = some x)
    (hy : (i.advance ws s).warps.find? i.w = some y) :
    sameElsewhere i.w s (i.advance ws s) ∧ Warp.WentOn (i.last ws) x y := by
  unfold Issuer.advance at *
  split at hy
  · rename_i hl
    rw [if_pos hl]
    have hx' : (updSplit s i.w i.e fun p => p.goTo (i.after ws)).warps.find? i.w =
        some (x.setSplit i.e fun p => p.goTo (i.after ws)) := by
      simp [updSplit, Tbl.find?_modify, hx]
    obtain ⟨h1, h2⟩ := settle_endRun hx' hy
    refine ⟨(sameElsewhere_updSplit ..).trans h1, ?_⟩
    have := (x.wentOn_table false ((x.setSplit i.e fun p => p.goTo (i.after ws)).table)).trans h2 (.inl ⟨rfl, rfl⟩)
    rw [hl]
    exact this
  · rename_i hl
    rw [if_neg hl]
    refine ⟨sameElsewhere_updSplit .., ?_⟩
    simp [updSplit, Tbl.find?_modify, hx] at hy
    subst hy
    exact x.wentOn_table ..

/-! ## Traps -/

theorem killNow_gone {s : State} {w : Nat} {x : Warp} (f : Word32) (a : Word64) (aux : Word32) (n : Bool)
    (hx : s.warps.find? w = some x) : (killNow s w f a aux n).warps.find? w = none := by
  have hr : ∀ t b, (removeWarp t w b).warps.find? w = none := fun t b => by simp [removeWarp, Tbl.find?_del]
  have hn : ∀ (t : State) k c, (notify t k c).warps = t.warps := fun t k c => by
    unfold notify
    dsimp only
    split
    · simp
    · have hd : ∀ (u : State) p bs, (deviceWrite u p bs).warps = u.warps := fun u p bs => by
        rw [(deviceWrite_home u p bs).only]
      have hg : ∀ u : State, (drainEgress u).warps = u.warps := fun u => by rw [(drainEgress_home u).only]
      simp [hd, hg]
  unfold killNow
  simp only [hx]
  split
  · rw [hn]; exact hr ..
  · exact hr ..

end Sys2Proof.Machine
end

