-- ==== Sys2Proof/Tests/Slice0.lean ====
section
/-! SUPPORT. Tests of the model: forms that decode refuses, words that the manual prints, single steps with results worked out
from the manual, and for every statement a state that meets its hypotheses. -/

set_option Elab.async false

namespace Sys2Proof.Tests

open Sys2Proof Sys2Proof.Machine

/-- No guard. -/
abbrev u : Guard := { p := 7, neg := false }

/-! ## One ill-formed term for each check -/

theorem refuses_guard : Instr.wf (.nop { p := 7, neg := true }) = false := by decide
theorem refuses_type : Instr.wf (.add u .f32 false (.v 0) (.v 1) (.v 2)) = false := by decide
theorem refuses_odd_pair_source : Instr.wf (.add u .i64 false (.v 0) (.v 1) (.v 2)) = false := by decide
theorem refuses_odd_pair_scalar : Instr.wf (.mov u .n64 (.s 4) (.s 5)) = false := by decide
theorem refuses_odd_pair_destination : Instr.wf (.add u .i64 false (.v 1) (.v 2) (.v 4)) = false := by decide
theorem refuses_predicate_destination : Instr.wf (.add u .i32 false (.p 1) (.v 2) (.v 4)) = false := by decide
theorem refuses_two_literals : Instr.wf (.add u .i32 false (.v 1) (.lit 1) (.lit 2)) = false := by decide
theorem refuses_approx_rounding : Instr.wf (.frcp u .f32 { rnd := .rtz, ftz := false } (.v 1) (.v 2)) = false := by decide
theorem refuses_conversion_pair : Instr.wf (.cvt u .f64 .bf16x2 { rnd := .rne, ftz := false } (.v 2) (.v 4) (.v 0)) = false := by decide
theorem refuses_conversion_second_source : Instr.wf (.cvt u .f64 .f32 { rnd := .rne, ftz := false } (.v 2) (.v 4) (.v 1)) = false := by
  decide
theorem refuses_combine_predicate : Instr.wf (.iset u .i32 .eq .none (.p 1) (.v 2) (.v 3) 2) = false := by decide
theorem refuses_vote_destination : Instr.wf (.vote u .ballot false (.p 1) 2) = false ∧ Instr.wf (.vote u .any false (.v 1) 2) = false := by
  decide
theorem refuses_quad : Instr.wf (.movl u 2 4) = false := by decide
theorem refuses_bcast_from_vector : Instr.wf (.bcast u .b32 (.v 1) 2 (.v 3)) = false := by decide
theorem refuses_redux_type : Instr.wf (.redux u .b32 .add { rnd := .rne, ftz := false } (.v 1) 2) = false := by decide
theorem refuses_redux_modifier : Instr.wf (.redux u .i32 .add { rnd := .rup, ftz := false } (.v 1) 2) = false := by decide
theorem refuses_special_width : Instr.wf (.gets u .n64 (.v 2) 0) = false := by decide
theorem refuses_special_code : Instr.wf (.gets u .b32 (.v 2) 40) = false := by decide
theorem refuses_special_write : Instr.wf (.sets u .b32 0 (.v 2)) = false := by decide
theorem refuses_load_size : Instr.wf (.ld u .f32 .none .rlx .dflt 4 { base := .v 2, off := 0 }) = false := by decide
theorem refuses_scope_without_order : Instr.wf (.ld u .b32 .die .rlx .dflt 4 { base := .v 2, off := 0 }) = false := by decide
theorem refuses_order_without_scope : Instr.wf (.ld u .b32 .none .acq .dflt 4 { base := .v 2, off := 0 }) = false := by decide
theorem refuses_release_of_a_load : Instr.wf (.ld u .b32 .die .rel .dflt 4 { base := .v 2, off := 0 }) = false := by decide
theorem refuses_data_register : Instr.wf (.ld u .b128 .none .rlx .dflt 6 { base := .v 2, off := 0 }) = false := by decide
theorem refuses_odd_base : Instr.wf (.ld u .b32 .none .rlx .dflt 4 { base := .v 3, off := 0 }) = false := by decide
theorem refuses_scalar_size : Instr.wf (.lds u .b128 .none .rlx .dflt 4 { base := .s 2, off := 0 }) = false := by decide
theorem refuses_scalar_pair : Instr.wf (.lds u .b64 .none .rlx .dflt 5 { base := .s 2, off := 0 }) = false := by decide
theorem refuses_group_width : Instr.wf (.ldg u .add .i64 2 .none .rlx 4 { base := .v 2, woff := 0 }) = false := by decide
theorem refuses_group_scope : Instr.wf (.ldg u .add .i32 0 .block .acq 4 { base := .v 2, woff := 0 }) = false := by decide
theorem refuses_atomic_scope : Instr.wf (.atom u .add .i32 .none .rlx 4 { base := .v 2, woff := 0 } 5) = false := by decide
theorem refuses_atomic_size : Instr.wf (.atom u .inc .b64 .die .rlx 4 { base := .v 2, woff := 0 } 6) = false := by decide
theorem refuses_reduction_exchange : Instr.wf (.red u .exch .b32 .die .rlx { base := .v 2, woff := 0 } 6) = false := by decide
theorem refuses_compare_pair : Instr.wf (.cas u .b32 .die .rlx 4 { base := .v 2, woff := 0 } 7) = false := by decide
theorem refuses_relaxed_fence : Instr.wf (.fence u .die .rlx) = false := by decide
theorem refuses_tile_count : Instr.wf (.acgrow u 4 0) = false ∧ Instr.wf (.acgrow u 4 257) = false := by decide
theorem refuses_scalar_pair_operand : Instr.wf (.kvfind u 4 5) = false := by decide
theorem refuses_format_block : Instr.wf (.mma u 4 5 10) = false := by decide
theorem refuses_barrier_number : Instr.wf (.bara u 1 4 { lvl := .cluster, idx := 8 }) = false := by decide
theorem refuses_branch_target_pair : Instr.wf (.brx u false 3) = false := by decide
theorem refuses_work_item : Instr.wf (.dispatch u 6 1 2) = false := by decide

/-! ## Words written out from the encoding tables (R80 to R88, R107, R153, R163, R166, R174, R253, R272, R277, R290, R309,
R363, R405), every form once -/

theorem decodes_control :
    [(0x00E0000000000000, Instr.nop u),
      (0x01E0000000000000, Instr.yield u),
      (0x0220000000000000, Instr.exit { p := 1, neg := false }),
      (0x03E000000000BEEF, Instr.brk u 0xBEEF),
      (0x0424000000000006, Instr.bra { p := 1, neg := false } .div 6),
      (0x04E10000FFFFFFFE, Instr.bra u .any 0xFFFFFFFE),
      (0x05E40A0000000000, Instr.brx u true 10),
      (0x06E0000000000040, Instr.call u 0x40),
      (0x07E0020000000000, Instr.callv u false 2),
      (0x0850000000000000, Instr.ret { p := 2, neg := true }),
      (0x0970101000000003, Instr.dispatch { p := 3, neg := true } 16 16 3),
      (0x0AE0020006000005, Instr.role u 2 6 5),
      (0x0BE1030809000000, Instr.launch u true 3 8 9),
      (0x0CE0000000000007, Instr.trap u 7),
      (0x0DE0040B00000000, Instr.wsync u 4 11)].all
      (fun q => decode (wordBytes q.1) == .ok q.2 [] && q.2.wf) = true := by decide +kernel

theorem decodes_integer :
    [(0x10EB030405000001, Instr.add u .i8x4 true (.v 3) (.v 4) (.v 5)),
      (0x11E4020406005100, Instr.sub u .n64 false (.s 2) (.s 4) (.s 6)),
      (0x12E2010203050000, Instr.addc u .n32 (.v 1) (.v 2) (.v 3) 5),
      (0x13E4020406070000, Instr.subb u .n64 (.v 2) (.v 4) (.v 6) 7),
      (0x14E90102FF002000, Instr.mul u .i16x2 (.v 1) (.v 2) (.imm 0xFF)),
      (0x15E1010203000000, Instr.mulhi u .i32 (.v 1) (.v 2) (.v 3)),
      (0x16E2010203040400, Instr.mad u .n32 (.v 1) (.v 2) (.v 3) (.s 4)),
      (0x17E1020507080000, Instr.madw u .i32 (.v 2) (.v 5) (.v 7) (.v 8)),
      (0x18EC010203000000, Instr.min u .n8x4 (.v 1) (.v 2) (.v 3)),
      (0x19EA010203000000, Instr.max u .n16x2 (.v 1) (.v 2) (.v 3)),
      (0x1AE1010200000001, Instr.abs u .i32 true (.v 1) (.v 2)),
      (0x1BE3020400000000, Instr.neg u .i64 false (.v 2) (.v 4)),
      (0x1CE0010203000000, Instr.and u .b32 (.v 1) (.v 2) (.v 3)),
      (0x1DE4020406000000, Instr.or u .n64 (.v 2) (.v 4) (.v 6)),
      (0x1EE0010203000000, Instr.xor u .b32 (.v 1) (.v 2) (.v 3)),
      (0x1FE0010200000000, Instr.not u .b32 (.v 1) (.v 2)),
      (0x20E2010204002000, Instr.shl u .n32 (.v 1) (.v 2) (.imm 4)),
      (0x21E4020407000000, Instr.shr u .n64 (.v 2) (.v 4) (.v 7)),
      (0x22E1010203000000, Instr.sar u .i32 (.v 1) (.v 2) (.v 3)),
      (0x23E0010203000001, Instr.rot u .b32 true (.v 1) (.v 2) (.v 3)),
      (0x24E2010203000000, Instr.bfe u .n32 (.v 1) (.v 2) (.v 3)),
      (0x25E0010203040000, Instr.bfi u .b32 (.v 1) (.v 2) (.v 3) (.v 4)),
      (0x26E4010200000000, Instr.popc u .n64 (.v 1) (.v 2)),
      (0x27E0010200000000, Instr.clz u .b32 (.v 1) (.v 2)),
      (0x28E0010200000000, Instr.brev u .b32 (.v 1) (.v 2)),
      (0x29E0010203040000, Instr.prmt u (.v 1) (.v 2) (.v 3) (.v 4)),
      (0x2AEC010203040000, Instr.sad u .n8x4 (.v 1) (.v 2) (.v 3) (.v 4)),
      (0x2BE402040700000B, Instr.lea u true 3 (.v 2) (.v 4) (.v 7)),
      (0x2CE1010203000000, Instr.idiv u .i32 (.v 1) (.v 2) (.v 3)),
      (0x2DE4020406000000, Instr.irem u .n64 (.v 2) (.v 4) (.v 6)),
      (0x2EE0010203040096, Instr.lop3 u .b32 0x96 (.v 1) (.v 2) (.v 3) (.v 4))].all
      (fun q => decode (wordBytes q.1) == .ok q.2 [] && q.2.wf) = true := by decide +kernel

theorem decodes_compare :
    [(0x30E1020304050213, Instr.iset u .i32 .le .or (.p 2) (.v 3) (.v 4) 5),
      (0x31E601020400000D, Instr.fset u .f64 .geu .none (.v 1) (.v 2) (.v 4) 0),
      (0x32E0010203060000, Instr.sel u .b32 (.v 1) (.v 2) (.v 3) 6),
      (0x33E00102030402E8, Instr.plop u 1 2 3 4 0xE8),
      (0x34E0010500000007, Instr.vote u .ballot true (.v 1) 5),
      (0x34E0020500000201, Instr.vote u .all false (.p 2) 5),
      (0x35E4010200000001, Instr.matchLanes u .n64 true (.v 1) 2),
      (0x36E5030204000200, Instr.fclassPred u .f32 3 (.v 2) (.v 4)),
      (0x36E6010200000000, Instr.fclassMask u .f64 (.v 1) (.v 2)),
      (0x37E0090000000100, Instr.pmovPack u (.s 9)),
      (0x37E0000900004201, Instr.pmovUnpack u (.s 9))].all
      (fun q => decode (wordBytes q.1) == .ok q.2 [] && q.2.wf) = true := by decide +kernel

theorem decodes_float :
    [(0x38E7010203000005, Instr.fadd u .bf16x2 { rnd := .rtz, ftz := true } (.v 1) (.v 2) (.v 3)),
      (0x39E6020406000002, Instr.fsub u .f64 { rnd := .rup, ftz := false } (.v 2) (.v 4) (.v 6)),
      (0x3AE8010203000003, Instr.fmul u .f16x2 { rnd := .rdn, ftz := false } (.v 1) (.v 2) (.v 3)),
      (0x3BE5060102030401, Instr.ffma u .f32 { rnd := .rtz, ftz := false } (.v 6) (.v 1) (.v 2) (.s 3)),
      (0x3CE5010203000000, Instr.fmin u .f32 (.v 1) (.v 2) (.v 3)),
      (0x3DE6020406000000, Instr.fmax u .f64 (.v 2) (.v 4) (.v 6)),
      (0x3EE5010200000004, Instr.frcp u .f32 { rnd := .rne, ftz := true } (.v 1) (.v 2)),
      (0x3FE7010200000001, Instr.frsq u .bf16x2 { rnd := .rtz, ftz := false } (.v 1) (.v 2)),
      (0x40E6020400000000, Instr.fsqrt u .f64 { rnd := .rne, ftz := false } (.v 2) (.v 4)),
      (0x41E5010203000000, Instr.fdiv u .f32 { rnd := .rne, ftz := false } (.v 1) (.v 2) (.v 3)),
      (0x42E5010200000000, Instr.fexp2 u .f32 { rnd := .rne, ftz := false } (.v 1) (.v 2)),
      (0x43E5010200000000, Instr.flog2 u .f32 { rnd := .rne, ftz := false } (.v 1) (.v 2)),
      (0x44E5010200000000, Instr.fsin u .f32 { rnd := .rne, ftz := false } (.v 1) (.v 2)),
      (0x45E5010200000000, Instr.fcos u .f32 { rnd := .rne, ftz := false } (.v 1) (.v 2)),
      (0x46E5010200000000, Instr.ftanh u .f32 { rnd := .rne, ftz := false } (.v 1) (.v 2)),
      (0x47E7010203040000, Instr.fdot2 u .bf16x2 { rnd := .rne, ftz := false } (.v 1) (.v 2) (.v 3) (.v 4)),
      (0x48E5010200000003, Instr.frnd u .f32 { rnd := .rdn, ftz := false } (.v 1) (.v 2)),
      (0x49E6020407000000, Instr.fscale u .f64 { rnd := .rne, ftz := false } (.v 2) (.v 4) (.v 7)),
      (0x4AE5010200000000, Instr.fgetx u .f32 (.v 1) (.v 2)),
      (0x4BE6020400000000, Instr.fgetm u .f64 (.v 2) (.v 4))].all
      (fun q => decode (wordBytes q.1) == .ok q.2 [] && q.2.wf) = true := by decide +kernel

theorem decodes_convert :
    [(0x50E1030700000051, Instr.cvt u .i32 .f32 { rnd := .rtz, ftz := false } (.v 3) (.v 7) (.v 0)),
      (0x50E5010201002070, Instr.cvt u .f32 .bf16x2 { rnd := .rne, ftz := false } (.v 1) (.v 2) (.imm 1)),
      (0x51E5090200000060, Instr.sbpack u .f32 .sb4 true false (.v 9) (.v 2)),
      (0x51E7090200000088, Instr.sbpack u .bf16x2 .sb7 false true (.v 9) (.v 2)),
      (0x52E5010402030040, Instr.sbunpk u .sb4 (.v 1) 4 (.v 2) (.v 3)),
      (0x53E5010402030080, Instr.sbscl u .f32 .sb7 (.v 1) (.v 4) (.v 2) (.v 3)),
      (0x54E2010203040000, Instr.rng u .n32 (.v 1) (.v 2) (.v 3) (.v 4))].all
      (fun q => decode (wordBytes q.1) == .ok q.2 [] && q.2.wf) = true := by decide +kernel

theorem decodes_move :
    [(0x58E0090300000100, Instr.mov u .b32 (.s 9) (.v 3)),
      (0x59E0080C00000000, Instr.movl u 8 12),
      (0x5AE0010205002017, Instr.shfl u .b32 .xor 5 1 2 (.imm 5)),
      (0x5BE0010203001000, Instr.bcast u .b32 (.v 1) 2 (.s 3)),
      (0x5CE5010200000000, Instr.redux u .f32 .add { rnd := .rne, ftz := false } (.v 1) 2),
      (0x5CE00102000000A0, Instr.redux u .b32 .xor { rnd := .rne, ftz := false } (.v 1) 2),
      (0x5DE4020D00000000, Instr.gets u .n64 (.v 2) 13),
      (0x5EE00E0300000000, Instr.sets u .b32 14 (.v 3))].all
      (fun q => decode (wordBytes q.1) == .ok q.2 [] && q.2.wf) = true := by decide +kernel

theorem decodes_memory :
    [(0x60E60804008EFFFC, Instr.ld u .i16 .die .acq .nol1 8 { base := .v 4, off := 0xFFFC }),
      (0x61E4080600F10000, Instr.st u .b128 .system .rel .dflt 8 { base := .s 6, off := 0 }),
      (0x62E3080200010040, Instr.lds u .b64 .none .rlx .dflt 8 { base := .s 2, off := 64 }),
      (0x63E0070400040000, Instr.sts u .b8 .none .rlx .keep 7 { base := .v 4, off := 0 }),
      (0x64E7140C00680010, Instr.ldg u .add .f32 0 .cluster .acq 20 { base := .v 12, woff := 16 }),
      (0x64EA080402000800, Instr.ldg u .min .i32 2 .none .rlx 8 { base := .v 4, woff := 0 }),
      (0x65E7050609A00002, Instr.atom u .add .f32 .device .rlx 5 { base := .v 6, woff := 2 } 9),
      (0x66E2000409B03FFF, Instr.red u .inc .b32 .device .rel { base := .v 4, woff := 0x7FF } 9),
      (0x67E308040CD80000, Instr.cas u .b64 .domain .ar 8 { base := .v 4, woff := 0 } 12),
      (0x68E0000000B80000, Instr.fence u .device .ar),
      (0x69E0000400020080, Instr.pref u .stream { base := .v 4, off := 128 }),
      (0x6AE0000400100000, Instr.cwb u true { base := .v 4, off := 0 }),
      (0x6BE0000400080000, Instr.cinv u true { base := .v 4, off := 0 }),
      (0x6DE2080409480008, Instr.waitne u .b32 .block .acq 8 { base := .v 4, off := 8 } 9)].all
      (fun q => decode (wordBytes q.1) == .ok q.2 [] && q.2.wf) = true := by decide +kernel

theorem decodes_store :
    [(0x6CE009040600000E, Instr.resideClass u 9 4 6 .high true true),
      (0x6CE1090406000000, Instr.residePin u 9 4 6),
      (0x6CE2090406000000, Instr.resideUnpin u 9 4 6),
      (0x6CE3090500000007, Instr.resideTprio u 9 5 7),
      (0x6CE4090406000000, Instr.resideClose u 9 4 6),
      (0x6EE0080400000000, Instr.kvfind u 8 4),
      (0x6FE00804000A0001, Instr.kvput u true 8 4 10),
      (0x70E0090400000000, Instr.kvdrop u 9 4),
      (0x70E1090500000000, Instr.kvdropTensor u 9 5),
      (0x71E0070000000020, Instr.acgrow u 7 32),
      (0x72E0070000000100, Instr.acfree u 7 256)].all
      (fun q => decode (wordBytes q.1) == .ok q.2 [] && q.2.wf) = true := by decide +kernel

theorem decodes_cards :
    [(0x80E0090400000000, Instr.cpy u 9 4),
      (0x81E0090400000000, Instr.cpym u 9 4),
      (0x82E0090400000000, Instr.cpysc u 9 4),
      (0x83E0090400000000, Instr.xpose u 9 4),
      (0x84E0090400000000, Instr.sred u 9 4),
      (0x85E0090000000000, Instr.afence u 9),
      (0x86E0000400000000, Instr.awaitBatch u 4),
      (0x86E1000000000000, Instr.awaitAll u),
      (0x87E0030400000000, Instr.atest u 3 4),
      (0x87E1030000000000, Instr.atestAll u 3)].all
      (fun q => decode (wordBytes q.1) == .ok q.2 [] && q.2.wf) = true := by decide +kernel

theorem decodes_matrix :
    [(0x90E0090000000003, Instr.marr u 9 3),
      (0x91E0090408000000, Instr.bload u 9 4 8),
      (0x92E0090400000000, Instr.minit u 9 4),
      (0x93E0150508000000, Instr.mma u 21 5 8),
      (0x94E0090408C80004, Instr.mmasp u 4 9 4 8 200),
      (0x95E00904080D0000, Instr.mdrain u 9 4 8 13),
      (0x96E00C0C00000000, Instr.mread u 12 12),
      (0x96E10D0C00000000, Instr.mreadAnc u 13 12),
      (0x97E0000C0E000000, Instr.mwrite u 12 14),
      (0x97E1000C0F000000, Instr.mwriteAnc u 12 15)].all
      (fun q => decode (wordBytes q.1) == .ok q.2 [] && q.2.wf) = true := by decide +kernel

theorem decodes_barriers :
    [(0xA0E0010000050012, Instr.bara u 1 5 { lvl := .cluster, idx := 2 }),
      (0xA1E001000005000F, Instr.barw u 1 5 { lvl := .block, idx := 15 }),
      (0xA2E0050000000023, Instr.barsRoot u 5 { lvl := .die, idx := 3 }),
      (0xA2E1050000000030, Instr.barsOwn u 5 { lvl := .grid, idx := 0 }),
      (0xA3E0280000000003, Instr.barqRoot u 40 { lvl := .block, idx := 3 }),
      (0xA3E1280000000003, Instr.barqMem u 40 { lvl := .block, idx := 3 }),
      (0xA3E2280000000003, Instr.barqArr u 40 { lvl := .block, idx := 3 }),
      (0xA3E3280000000003, Instr.barqEarly u 40 { lvl := .block, idx := 3 }),
      (0xA3E4280000000003, Instr.barqWait u 40 { lvl := .block, idx := 3 }),
      (0xA4E0003800000011, Instr.barsetRoot u 56 { lvl := .cluster, idx := 1 }),
      (0xA4E1003800000011, Instr.barsetMem u 56 { lvl := .cluster, idx := 1 }),
      (0xA4E2003800000011, Instr.barsetArr u 56 { lvl := .cluster, idx := 1 }),
      (0xA4E3003800000011, Instr.barsetEarly u 56 { lvl := .cluster, idx := 1 }),
      (0xA4E4003800000011, Instr.barsetWait u 56 { lvl := .cluster, idx := 1 })].all
      (fun q => decode (wordBytes q.1) == .ok q.2 [] && q.2.wf) = true := by decide +kernel

theorem decodes_system :
    [(0xC0E0000000000000, Instr.tret u),
      (0xC0E1000000000000, Instr.tretSaved u),
      (0xC1E0000400000000, Instr.tlbiPage u 4),
      (0xC1E1000406000000, Instr.tlbiRange u 4 6),
      (0xC1E2000000000000, Instr.tlbiAsid u),
      (0xC2E0000000000000, Instr.genadv u),
      (0xC3E0000400000000, Instr.dvsave u 4),
      (0xC4E0050400000000, Instr.dvload u 5 4),
      (0xC5E0000400000003, Instr.sigset u 4 3),
      (0xC6E0040000000002, Instr.sigrd u 4 2),
      (0xC7E0050400000000, Instr.mapft u 5 4),
      (0xC8E0050400000000, Instr.killw u 5 4),
      (0xC9E0050400000000, Instr.migr u 5 4),
      (0xCAE0050406000000, Instr.scrub u 5 4 6),
      (0xCBE0000400000000, Instr.keyz u 4),
      (0xCCE0090400000000, Instr.qsaveRq u 9 4),
      (0xCCE1090400000000, Instr.qsaveMac u 9 4),
      (0xCCE2090400000000, Instr.qsaveRbq u 9 4),
      (0xCDE0090400000000, Instr.qloadRq u 9 4),
      (0xCDE1090400000000, Instr.qloadMac u 9 4),
      (0xCDE2090400000000, Instr.qloadRbq u 9 4),
      (0xCEE0090406000000, Instr.pgdisc u 9 4 6)].all
      (fun q => decode (wordBytes q.1) == .ok q.2 [] && q.2.wf) = true := by decide +kernel

/-- A guard of P7 negated; fields, kinds and modifiers that the word does not use; registers out of range or odd; a literal with a
field; reserved types, modes and opcodes; a header where an instruction is expected. -/
theorem refuses_words :
    [0x10F1010203000000, 0x10E1010203000400, 0x10E1010203003000, 0x10ED010203000000, 0x10E1010203000800, 0x10E1010203000300,
      0x10E1010203000002, 0x02E0010000000000, 0x60E2080500000000, 0x60E2084000010000, 0x60E2080401000000, 0x80E0094000000000,
      0x80E0090401000000, 0x04E5000000000000, 0x0EE0000000000000, 0xFFE0000000000000, 0x87E0080400000000].all
      (fun w => match decode (wordBytes w ++ wordBytes 0) with | .ok _ _ => false | .bad _ => true) = true := by
  decide +kernel

/-! ## Single steps -/

/-- Warp 0 of core 0, about to issue one word that is its block. -/
def lab (k : Instr) (f : Warp → Warp := id) : State :=
  updWarp (State.reset.withFetchWord 128 ((encode k).foldr (fun w n => w.toNat + n * 2 ^ 64) 0)) 0 f

/-- Every lane of a V register, and an S register. -/
def v (n : Nat) (a : Nat) (x : Warp) : Warp := x.putV n allLanes fun _ => BitVec.ofNat 32 a
def sreg (n : Nat) (a : Nat) (x : Warp) : Warp := x.putS n (BitVec.ofNat 32 a)
def p (n : Nat) (m : Lanes) (x : Warp) : Warp := x.putP n allLanes m
def lanesV (n : Nat) (a : Nat → Nat) (x : Warp) : Warp := x.putV n allLanes fun l => BitVec.ofNat 32 (a l)

/-- The warp after one step. -/
def ran (s : State) : Warp :=
  match step s with
  | .next t => warpAt t 0
  | _ => Warp.blank

/-- Lane 0 of a V register after one step, and FLAGS. -/
def out (k : Instr) (f : Warp → Warp) (n : Nat) : Nat := (((ran (lab k f)).getV n).lane 0).toNat
def flagsOf (k : Instr) (f : Warp → Warp) : Nat := (ran (lab k f)).flags.toNat % 512

-- R172: infinities of opposite sign set IV beside a quiet NaN
theorem test_fdot2_opposite_infinities : flagsOf (.fdot2 u .bf16x2 { rnd := .rne, ftz := false } (.v 1) (.v 2) (.v 3) (.v 4))
    (v 2 0x7F807F80 ∘ v 3 0xBF803F80 ∘ v 4 0x7FC00000) = 1 := by decide +kernel
-- R154: the rule's own examples
theorem test_add_saturates : out (.add u .i8x4 true (.v 1) (.v 2) (.v 3)) (v 2 0x7F ∘ v 3 1) 1 = 0x7F := by decide +kernel
theorem test_neg_saturates : out (.neg u .i32 true (.v 1) (.v 2)) (v 2 0x80000000) 1 = 0x7FFFFFFF := by decide +kernel
theorem test_add_wraps : out (.add u .n16x2 false (.v 1) (.v 2) (.v 2)) (v 2 0x8001FFFF) 1 = 0x0002FFFE := by decide +kernel
theorem test_sub_borrows_no_neighbour : out (.sub u .n8x4 false (.v 1) (.v 2) (.v 3)) (v 2 0x01000000 ∘ v 3 1) 1 = 0x010000FF := by
  decide +kernel
theorem test_min_signed : out (.min u .i32 (.v 1) (.v 2) (.v 3)) (v 2 0xFFFFFFFF ∘ v 3 1) 1 = 0xFFFFFFFF := by decide +kernel
theorem test_max_unsigned : out (.max u .n32 (.v 1) (.v 2) (.v 3)) (v 2 0xFFFFFFFF ∘ v 3 1) 1 = 0xFFFFFFFF := by decide +kernel
theorem test_abs_of_least : out (.abs u .i32 false (.v 1) (.v 2)) (v 2 0x80000000) 1 = 0x80000000 := by decide +kernel
-- R155: the carry out goes to the predicate, and is read from it
theorem test_addc_carries : ran (lab (.addc u .n32 (.v 1) (.v 2) (.v 3) 2) (v 2 0xFFFFFFFF ∘ v 3 0 ∘ p 2 1)) |> fun x =>
    ((x.getV 1).lane 0, (x.getV 1).lane 1, x.pred 2) = (0, 0xFFFFFFFF, 1) := by decide +kernel
theorem test_subb_borrows : ran (lab (.subb u .n32 (.v 1) (.v 2) (.v 3) 7) (v 2 1 ∘ v 3 0)) |> fun x => (x.getV 1).lane 0 = 0 := by
  decide +kernel
theorem test_mul_wraps : out (.mul u .i32 (.v 1) (.v 2) (.v 3)) (v 2 0x10001 ∘ v 3 0x10001) 1 = 0x20001 := by decide +kernel
theorem test_mulhi_signed : out (.mulhi u .i32 (.v 1) (.v 2) (.v 3)) (v 2 0xFFFFFFFF ∘ v 3 2) 1 = 0xFFFFFFFF := by decide +kernel
theorem test_mad : out (.mad u .n32 (.v 1) (.v 2) (.v 3) (.imm 0xFF)) (v 2 3 ∘ v 3 4) 1 = 11 := by decide +kernel
theorem test_madw_high : out (.madw u .n32 (.v 4) (.v 2) (.v 3) (.imm 0)) (v 2 0xFFFFFFFF ∘ v 3 0xFFFFFFFF) 5 = 0xFFFFFFFE := by
  decide +kernel
-- R158: a count of w or more, and the sign of SAR
theorem test_shl_by_width : out (.shl u .b32 (.v 1) (.v 2) (.imm 32)) (v 2 1) 1 = 0 := by decide +kernel
theorem test_shr : out (.shr u .i32 (.v 1) (.v 2) (.imm 31)) (v 2 0x80000000) 1 = 1 := by decide +kernel
theorem test_sar_past_width : out (.sar u .i32 (.v 1) (.v 2) (.imm 40)) (v 2 0x80000000) 1 = 0xFFFFFFFF := by decide +kernel
theorem test_rot_right : out (.rot u .b32 true (.v 1) (.v 2) (.imm 36)) (v 2 0x12345678) 1 = 0x81234567 := by decide +kernel
theorem test_not : out (.not u .b32 (.v 1) (.v 2)) (v 2 0x0F0F0000) 1 = 0xF0F0FFFF := by decide +kernel
theorem test_and_or_xor : (out (.and u .b32 (.v 1) (.v 2) (.v 3)) (v 2 12 ∘ v 3 10) 1, out (.or u .b32 (.v 1) (.v 2) (.v 3)) (v 2 12 ∘ v 3 10) 1,
    out (.xor u .b32 (.v 1) (.v 2) (.v 3)) (v 2 12 ∘ v 3 10) 1) = (8, 14, 6) := by decide +kernel
theorem test_bit_counts : (out (.popc u .b32 (.v 1) (.v 2)) (v 2 0xF0) 1, out (.clz u .b32 (.v 1) (.v 2)) (v 2 0xF0) 1,
    out (.clz u .b32 (.v 1) (.v 2)) (v 2 0) 1, out (.brev u .b32 (.v 1) (.v 2)) (v 2 1) 1) = (4, 24, 32, 0x80000000) := by
  decide +kernel
theorem test_lea_sign_extends : out (.lea u true 2 (.v 4) (.v 2) (.v 6)) (v 2 16 ∘ v 3 0 ∘ v 6 0xFFFFFFFF) 4 = 12 := by decide +kernel
-- R162: the rule's own examples
theorem test_division : (out (.idiv u .i32 (.v 1) (.v 2) (.v 3)) (v 2 0xFFFFFFF9 ∘ v 3 2) 1,
    out (.irem u .i32 (.v 1) (.v 2) (.v 3)) (v 2 0xFFFFFFF9 ∘ v 3 2) 1) = (0xFFFFFFFD, 0xFFFFFFFF) := by decide +kernel
theorem test_division_by_zero : (out (.idiv u .i32 (.v 1) (.v 2) (.imm 0)) (v 2 5) 1, flagsOf (.idiv u .i32 (.v 1) (.v 2) (.imm 0)) (v 2 5),
    out (.irem u .i32 (.v 1) (.v 2) (.imm 0)) (v 2 5) 1) = (0xFFFFFFFF, 2, 5) := by decide +kernel
theorem test_lop3 : out (.lop3 u .b32 0x96 (.v 1) (.v 2) (.v 3) (.v 4)) (v 2 0xF0 ∘ v 3 0xCC ∘ v 4 0xAA) 1 = 0x96 := by decide +kernel
-- R163 to R165
theorem test_iset_mask : out (.iset u .i32 .lt .none (.v 1) (.v 2) (.imm 0) 0) (v 2 0xFFFFFFFF) 1 = 0xFFFFFFFF := by decide +kernel
theorem test_iset_combines : (ran (lab (.iset u .n32 .gt .and (.p 1) (.v 2) (.imm 0) 2) (v 2 5 ∘ p 2 6))).pred 1 = 6 := by decide +kernel
theorem test_fset_unordered : (out (.fset u .f32 .ltu .none (.v 1) (.v 2) (.v 3) 0) (v 2 0x7FC00000 ∘ v 3 0xFF800000) 1,
    out (.fset u .f32 .lt .none (.v 1) (.v 2) (.v 3) 0) (v 2 0xFF800000 ∘ v 3 0x7FC00000) 1,
    flagsOf (.fset u .f32 .lt .none (.v 1) (.v 2) (.v 3) 0) (v 2 0xFF800000 ∘ v 3 0x7FC00000)) = (0xFFFFFFFF, 0, 1) := by decide +kernel
theorem test_sel_by_lane : (ran (lab (.sel u .b32 (.v 1) (.v 2) (.v 3) 2) (v 2 7 ∘ v 3 9 ∘ p 2 1))).getV 1 |> fun r =>
    (r.lane 0, r.lane 1) = (7, 9) := by decide +kernel
theorem test_fclass_of_minus_zero : out (.fclassMask u .f32 (.v 1) (.v 2)) (v 2 0x80000000) 1 = 32 := by decide +kernel
theorem test_plop_majority : (ran (lab (.plop u 1 2 3 4 0xE8) (p 2 6 ∘ p 3 5 ∘ p 4 3))).pred 1 = 7 := by decide +kernel
-- R167: the worked example of the single rounding, and its word
theorem test_ffma_rounds_once : out (.ffma u .f32 { rnd := .rtz, ftz := false } (.v 6) (.v 1) (.v 2) (.s 3))
    (v 1 0x3F800001 ∘ v 2 0x3F7FFFFF ∘ sreg 3 0xBF800000) 6 = 0x337FFFFE := by decide +kernel
theorem test_fadd : out (.fadd u .f32 { rnd := .rne, ftz := false } (.v 1) (.v 2) (.imm 1)) (v 2 0x40000000) 1 = 0x40400000 := by
  decide +kernel
theorem test_fmin_of_nan : out (.fmin u .f32 (.v 1) (.v 2) (.v 3)) (v 2 0x7FC00000 ∘ v 3 0x3F800000) 1 = 0x3F800000 := by decide +kernel
-- R175 and R176: the worked examples
theorem test_cvt_edges : (out (.cvt u .i32 .f32 { rnd := .rtz, ftz := false } (.v 3) (.v 7) (.v 0)) (v 7 0xC0200000) 3,
    out (.cvt u .i32 .f32 { rnd := .rtz, ftz := false } (.v 3) (.v 7) (.v 0)) (v 7 0x4F32D05E) 3,
    flagsOf (.cvt u .i32 .f32 { rnd := .rtz, ftz := false } (.v 3) (.v 7) (.v 0)) (v 7 0x4F32D05E)) = (0xFFFFFFFE, 0x7FFFFFFF, 1) := by
  decide +kernel
theorem test_sbpack : (ran (lab (.sbpack u .f32 .sb4 true false (.v 9) (.v 2))
    (lanesV 2 fun l => [0x40400000, 0xBFA00000, 0x3E99999A, 0x3E4CCCCD, 0x3F800000, 0x80000000].getD l 0))).getV 9 |> fun r =>
    (r.lane 0, r.lane 1, r.lane 2, r.lane 15) = (0x80FA0AAC, 0x80FA2041, 0x80FA0000, 0x80FA0000) := by decide +kernel
-- R124 to R130
theorem test_vote_ballot : out (.vote { p := 1, neg := false } .ballot true (.v 1) 2) (p 1 0xF ∘ p 2 5) 1 = 0xA := by decide +kernel
theorem test_match_any : (ran (lab (.matchLanes u .b32 false (.v 1) 2) (lanesV 2 fun l => l % 16))).getV 1 |> fun r => r.lane 3 = 0x80008 := by
  decide +kernel
theorem test_shfl_up : (ran (lab (.shfl u .b32 .up 3 1 2 (.imm 2)) (lanesV 2 fun l => l))).getV 1 |> fun r =>
    (r.lane 8, r.lane 9, r.lane 10) = (8, 9, 8) := by decide +kernel
theorem test_bcast : (ran (lab (.bcast u .b32 (.v 1) 2 (.imm 35)) (lanesV 2 fun l => l))).getV 1 |> fun r => r.lane 9 = 3 := by
  decide +kernel
theorem test_redux_tree : out (.redux { p := 1, neg := false } .f32 .add { rnd := .rne, ftz := false } (.v 1) 2)
    (p 1 0xF ∘ lanesV 2 fun l => [0x4CBEBC20, 0x3F800000, 0xCCBEBC20, 0x3F800000].getD l 0x40000000) 1 = 0 := by decide +kernel
theorem test_movl : out (.movl u 8 4) (v 7 9) 11 = 9 := by decide +kernel
theorem test_mov_to_scalar : ((ran (lab (.mov { p := 1, neg := true } .b32 (.s 9) (.v 2)) (p 1 7 ∘ lanesV 2 fun l => l))).getS 9) = 3 := by
  decide +kernel
theorem test_pmov : (ran (lab (.pmovUnpack u (.imm 0x41)))).pred 6 = 0xFFFFFFFF ∧ out (.pmovPack u (.v 1)) (p 0 1 ∘ p 5 1) 1 = 0x21 := by
  decide +kernel
theorem test_gets_lane : ((ran (lab (.gets u .b32 (.v 1) 0))).getV 1).lane 17 = 17 := by decide +kernel
-- R137: SETS of FLAGS keeps the writable bits
theorem test_sets_flags : (ran (lab (.sets u .b32 14 (.v 2)) (v 2 0xFFFFFFFF))).flags = 0x00FF01FF := by decide +kernel
-- R78: a word takes no effect in a lane whose guard is false
theorem test_guard : (ran (lab (.mov { p := 1, neg := false } .b32 (.v 1) (.imm 5)) (p 1 2))).getV 1 |> fun r =>
    (r.lane 0, r.lane 1) = (0, 5) := by decide +kernel
/-! ## States that meet the hypotheses of the statements -/

/-- A word that takes its effect in a state, under a condition: what the statements of completion ask. -/
def Met (k : Instr) (ws : WordSpec) (cond : State → Issuer → Lanes → Prop) (s : State) : Prop :=
  ∃ i t, issuer s = some i ∧ decodeAt i = some k ∧ i.begins ws s = some t ∧ i.acts ws ∧ cond t (i.within t) (i.lanes ws)

def meets (k : Instr) (ws : WordSpec) (cond : State → Issuer → Lanes → Bool) (s : State) : Bool :=
  match issuer s with
  | none => false
  | some i => decide (decodeAt i = some k) && (match i.begins ws s with
    | none => false
    | some t => (decide (i.lanes ws ≠ 0) || ws.always) && cond t (i.within t) (i.lanes ws))

theorem met_of {k : Instr} {ws : WordSpec} {cond : State → Issuer → Lanes → Bool} {s : State} (h : meets k ws cond s = true) :
    Met k ws (fun t i m => cond t i m = true) s := by
  unfold meets at h
  split at h
  · simp at h
  · rename_i i hi
    simp only [Bool.and_eq_true, decide_eq_true_eq] at h
    obtain ⟨hd, h⟩ := h
    split at h
    · simp at h
    · rename_i t ht
      simp only [Bool.and_eq_true, Bool.or_eq_true, decide_eq_true_eq] at h
      exact ⟨i, t, hi, hd, ht, h.1, h.2⟩

theorem met {k : Instr} {ws : WordSpec} {cond : State → Issuer → Lanes → Prop} {s : State} [∀ t i m, Decidable (cond t i m)]
    (h : meets k ws (fun t i m => decide (cond t i m)) s = true) : Met k ws cond s := by
  obtain ⟨i, t, h1, h2, h3, h4, h5⟩ := met_of h
  exact ⟨i, t, h1, h2, h3, h4, of_decide_eq_true h5⟩

/-- The same for a condition on a value that the state itself gives. -/
theorem met_some {β : Type} {k : Instr} {ws : WordSpec} {cond : β → State → Issuer → Lanes → Prop} {s : State}
    [∀ b t i m, Decidable (cond b t i m)] (get : State → Issuer → Lanes → Option β)
    (h : meets k ws (fun t i m => (get t i m).any fun b => decide (cond b t i m)) s = true) : ∃ b, Met k ws (cond b) s := by
  obtain ⟨i, t, h1, h2, h3, h4, h5⟩ := met_of h
  cases hg : get t (i.within t) (i.lanes ws) with
  | none => simp [hg] at h5
  | some b => exact ⟨b, i, t, h1, h2, h3, h4, by simpa [hg] using h5⟩

/-- The same for what an operation that may stop gives. -/
theorem met_ok {β : Type} {k : Instr} {ws : WordSpec} {cond : β → State → Issuer → Lanes → Prop} {s : State}
    [∀ b t i m, Decidable (cond b t i m)] (f : State → Issuer → Lanes → Try β)
    (h : meets k ws (fun t i m => match f t i m with | .ok b => decide (cond b t i m) | .stop _ => false) s = true) :
    ∃ b, Met k ws (fun t i m => f t i m = .ok b ∧ cond b t i m) s := by
  obtain ⟨i, t, h1, h2, h3, h4, h5⟩ := met_of h
  cases hf : f t (i.within t) (i.lanes ws) with
  | stop e => simp [hf] at h5
  | ok b => exact ⟨b, i, t, h1, h2, h3, h4, hf, by simpa [hf] using h5⟩

/-- An unconditional word takes its effect. -/
def takes (k : Instr) (ws : WordSpec) (f : Warp → Warp := id) : Bool := meets k ws (fun _ _ _ => true) (lab k f)

/-- The words of a list that act on registers all take their effect, and each is well formed. -/
def allTake (ks : List Instr) : Bool := ks.all fun k => k.wf && (registerWord k).any fun ws => takes k ws

def ne : FMod := { rnd := .rne, ftz := false }
theorem witness_integer_words : allTake [
      .add u .i8x4 true (.v 3) (.v 4) (.v 5),
      .sub u .n64 false (.s 2) (.s 4) (.s 6),
      .addc u .n32 (.v 1) (.v 2) (.v 3) 5,
      .subb u .n64 (.v 2) (.v 4) (.v 6) 7,
      .mul u .i16x2 (.v 1) (.v 2) (.imm 0xFF),
      .mulhi u .i32 (.v 1) (.v 2) (.v 3),
      .mad u .n32 (.v 1) (.v 2) (.v 3) (.s 4),
      .madw u .i32 (.v 2) (.v 5) (.v 7) (.v 8),
      .min u .n8x4 (.v 1) (.v 2) (.v 3),
      .max u .n16x2 (.v 1) (.v 2) (.v 3),
      .abs u .i32 true (.v 1) (.v 2),
      .neg u .i64 false (.v 2) (.v 4),
      .and u .b32 (.v 1) (.v 2) (.v 3),
      .or u .n64 (.v 2) (.v 4) (.v 6),
      .xor u .b32 (.v 1) (.v 2) (.v 3),
      .not u .b32 (.v 1) (.v 2),
      .shl u .n32 (.v 1) (.v 2) (.imm 4),
      .shr u .n64 (.v 2) (.v 4) (.v 7),
      .sar u .i32 (.v 1) (.v 2) (.v 3),
      .rot u .b32 true (.v 1) (.v 2) (.v 3),
      .bfe u .n32 (.v 1) (.v 2) (.v 3),
      .bfi u .b32 (.v 1) (.v 2) (.v 3) (.v 4),
      .popc u .n64 (.v 1) (.v 2),
      .clz u .b32 (.v 1) (.v 2),
      .brev u .b32 (.v 1) (.v 2),
      .prmt u (.v 1) (.v 2) (.v 3) (.v 4),
      .sad u .n8x4 (.v 1) (.v 2) (.v 3) (.v 4),
      .lea u true 3 (.v 2) (.v 4) (.v 7),
      .idiv u .i32 (.v 1) (.v 2) (.v 3),
      .irem u .n64 (.v 2) (.v 4) (.v 6),
      .lop3 u .b32 0x96 (.v 1) (.v 2) (.v 3) (.v 4)] = true := by decide +kernel

theorem witness_compare_words : allTake [
      .iset u .i32 .le .or (.p 2) (.v 3) (.v 4) 5,
      .fset u .f64 .geu .none (.v 1) (.v 2) (.v 4) 0,
      .sel u .b32 (.v 1) (.v 2) (.v 3) 6,
      .plop u 1 2 3 4 0xE8,
      .vote u .ballot true (.v 1) 5,
      .vote u .all false (.p 2) 5,
      .matchLanes u .n64 true (.v 1) 2,
      .fclassPred u .f32 3 (.v 2) (.v 4),
      .fclassMask u .f64 (.v 1) (.v 2),
      .pmovPack u (.s 9),
      .pmovUnpack u (.s 9)] = true := by decide +kernel

theorem witness_float_words : allTake [
      .fadd u .bf16x2 { rnd := .rtz, ftz := true } (.v 1) (.v 2) (.v 3),
      .fsub u .f64 { rnd := .rup, ftz := false } (.v 2) (.v 4) (.v 6),
      .fmul u .f16x2 { rnd := .rdn, ftz := false } (.v 1) (.v 2) (.v 3),
      .ffma u .f32 { rnd := .rtz, ftz := false } (.v 6) (.v 1) (.v 2) (.s 3),
      .fmin u .f32 (.v 1) (.v 2) (.v 3),
      .fmax u .f64 (.v 2) (.v 4) (.v 6),
      .frcp u .f32 { rnd := .rne, ftz := true } (.v 1) (.v 2),
      .frsq u .bf16x2 { rnd := .rtz, ftz := false } (.v 1) (.v 2),
      .fsqrt u .f64 { rnd := .rne, ftz := false } (.v 2) (.v 4),
      .fdiv u .f32 { rnd := .rne, ftz := false } (.v 1) (.v 2) (.v 3),
      .fexp2 u .f32 { rnd := .rne, ftz := false } (.v 1) (.v 2),
      .flog2 u .f32 { rnd := .rne, ftz := false } (.v 1) (.v 2),
      .fsin u .f32 { rnd := .rne, ftz := false } (.v 1) (.v 2),
      .fcos u .f32 { rnd := .rne, ftz := false } (.v 1) (.v 2),
      .ftanh u .f32 { rnd := .rne, ftz := false } (.v 1) (.v 2),
      .fdot2 u .bf16x2 { rnd := .rne, ftz := false } (.v 1) (.v 2) (.v 3) (.v 4),
      .frnd u .f32 { rnd := .rdn, ftz := false } (.v 1) (.v 2),
      .fscale u .f64 { rnd := .rne, ftz := false } (.v 2) (.v 4) (.v 7),
      .fgetx u .f32 (.v 1) (.v 2),
      .fgetm u .f64 (.v 2) (.v 4)] = true := by decide +kernel

theorem witness_conversion_words : allTake [
      .cvt u .i32 .f32 { rnd := .rtz, ftz := false } (.v 3) (.v 7) (.v 0),
      .cvt u .f32 .bf16x2 { rnd := .rne, ftz := false } (.v 1) (.v 2) (.imm 1),
      .sbpack u .f32 .sb4 true false (.v 9) (.v 2),
      .sbpack u .bf16x2 .sb7 false true (.v 9) (.v 2),
      .sbunpk u .sb4 (.v 1) 4 (.v 2) (.v 3),
      .sbscl u .f32 .sb7 (.v 1) (.v 4) (.v 2) (.v 3),
      .rng u .n32 (.v 1) (.v 2) (.v 3) (.v 4),
      .cvt u .bf16x2 .f32 ne (.v 1) (.v 2) (.v 3)] = true := by decide +kernel

theorem witness_move_words : allTake [
      .mov u .b32 (.s 9) (.v 3),
      .movl u 8 12,
      .shfl u .b32 .xor 5 1 2 (.imm 5),
      .bcast u .b32 (.v 1) 2 (.s 3),
      .redux u .f32 .add { rnd := .rne, ftz := false } (.v 1) 2,
      .redux u .b32 .xor { rnd := .rne, ftz := false } (.v 1) 2] = true := by decide +kernel

/-- GETS and SETS: no register that the code names has a pending write; a code for itself and one for a handler's own V register. -/
theorem witness_special_registers :
    (∀ q ∈ [(BitVec.ofNat 8 0, Ty.b32), (13, .n64), (19, .n64), (22, .b32)],
      Met (.gets u q.2 (.v 2) q.1) { specialSpec 0x5D u q.1 81 with writes := dstRegs q.2.is64 (.v 2) }
        (fun _ i _ => (hiddenReg q.1.toNat).all fun r => !i.x.pendingRegs.contains r) (lab (.gets u q.2 (.v 2) q.1))) ∧
    ∀ q ∈ [(BitVec.ofNat 8 14), 17],
      Met (.sets u .b32 q (.v 2)) { specialSpec 0x5E u q 78 with lit := false, unclean := true, reads := srcRegs false (.v 2) }
        (fun _ i _ => (hiddenReg q.toNat).all fun r => !i.x.pendingRegs.contains r) (lab (.sets u .b32 q (.v 2))) := by
  constructor
  · intro q hq
    simp only [List.mem_cons, List.not_mem_nil, or_false] at hq
    rcases hq with rfl | rfl | rfl | rfl <;> exact met (by decide +kernel)
  · intro q hq
    simp only [List.mem_cons, List.not_mem_nil, or_false] at hq
    rcases hq with rfl | rfl <;> exact met (by decide +kernel)
def odd : Guard := { p := 1, neg := false }

theorem witness_plain_words : (takes (.nop u) (plainSpec 0x00 u) && takes (.yield u) (plainSpec 0x01 u) &&
    takes (.exit u) { plainSpec 0x02 u with transfer := true, noHandler := true } && takes (.brk u 5) (plainSpec 0x03 u) &&
    takes (.trap u 5) { plainSpec 0x0C u with transfer := true }) = true := by decide +kernel

def braSpec : WordSpec := { plainSpec 0x04 odd with transfer := true, always := true }

/-- A branch that divides, and one with no lane taking part. -/
theorem witness_branches : ∀ m ∈ [0x55555555, 0],
    ∃ d, Met (.bra odd .div 4) braSpec (fun t i m =>
      divideSplit t i i.e (braTaken .div (i.x.active i.e) m) (i.x.active i.e &&& ~~~braTaken .div (i.x.active i.e) m)
        (headerAt i.b.hdrAt 4) ⟨i.fall, none⟩ = .ok d ∧ True) (lab (.bra odd .div 4) (p 1 m)) := by
  intro m hm
  simp only [List.mem_cons, List.not_mem_nil, or_false] at hm
  rcases hm with rfl | rfl <;> exact met_ok _ (by decide +kernel)

def indirect (opc : Nat) : WordSpec := { plainSpec opc u with transfer := true, reads := vRegs true 2 }

theorem witness_indirect_branch : ∃ d, Met (.brx u true 2) (indirect 0x05) (fun t i m =>
    (brxStep t i i.e true 2 ((lowestLane m).getD 0) m).2 = .ok d ∧ laneTarget i 2 ((lowestLane m).getD 0) % 8 = 0)
    (lab (.brx u true 2) (lanesV 2 fun l => 0x2000 + l % 2 * 0x100)) := met_ok _ (by decide +kernel)

theorem witness_call : ∃ v, Met (.call u 4) { plainSpec 0x06 u with transfer := true }
    (fun t i m => pushCall t i i.e = .ok v ∧ leads (i.x.active i.e) m = true) (lab (.call u 4)) := met_ok _ (by decide +kernel)

theorem witness_call_not_taken : Met (.call odd 4) { plainSpec 0x06 odd with transfer := true }
    (fun _ i m => leads (i.x.active i.e) m = false) (lab (.call odd 4) (p 1 2)) := met (by decide +kernel)

/-- CALLV finds room and divides, or sends every lane one way. -/
def callvGoes (other : Option Nat) (f : Nat → Nat) : Bool :=
  meets (.callv u true 2) (indirect 0x07) (fun t i m =>
    let l := (lowestLane m).getD 0
    laneTarget i 2 l % 8 == 0 && (match (brxStep t i i.e true 2 l m).2, callRoom t i with
      | .ok _, .ok v => (match (brxStep v i i.e true 2 l m).2 with | .ok d => d.other == other | .stop _ => false)
      | _, _ => false)) (lab (.callv u true 2) (lanesV 2 f))

theorem witness_callv : (callvGoes none fun _ => 0x2000) = true := by decide +kernel
theorem witness_callv_divides : (callvGoes (some 1) fun l => 0x2000 + l % 2 * 0x100) = true := by decide +kernel

def retSpec (g : Guard) : WordSpec := { plainSpec 0x08 g with transfer := true }

theorem witness_ret_ends : Met (.ret u) (retSpec u)
    (fun _ i m => leads (i.x.active i.e) m = true ∧ i.x.table.callDepth i.e = 0 ∧ i.x.handler = none) (lab (.ret u)) :=
  met (by decide +kernel)

/-- In a handler, whose own words are read as the user's. -/
theorem witness_ret_handler : Met (.ret u) (retSpec u)
    (fun _ i m => leads (i.x.active i.e) m = true ∧ i.x.table.callDepth i.e = 0 ∧ i.x.handler.isSome = true)
    (lab (.ret u) fun x =>
      let h : Handler := { table := DivTable.start 0x2000 allLanes, flags := 0, tpc := 0x2000, tword := false, thdr := 0, tsplit := 0,
                           fault := 0, bankV := [], bankS := [], cls := 0 }
      { x with handler := some h }) := met (by decide +kernel)

theorem witness_ret : ∃ v, Met (.ret u) (retSpec u)
    (fun t i m => reloadCall t i = .ok v ∧ (leads (i.x.active i.e) m = true ∧ i.x.table.callDepth i.e ≠ 0 ∧
      i.x.table.newestCall i.e = some (0, { rh := 0x3000, own := 0, depth := 0 }) ∧ i.p.frames.length = 0))
    (lab (.ret u) fun x => { x with table := { x.table with calls := [{ rh := 0x3000, own := 0, depth := 0 }] } }) :=
  met_ok _ (by decide +kernel)

theorem witness_ret_not_taken : Met (.ret odd) (retSpec odd) (fun _ i m => leads (i.x.active i.e) m = false)
    (lab (.ret odd) (p 1 4)) := met (by decide +kernel)

theorem Met.imp {k : Instr} {ws : WordSpec} {c d : State → Issuer → Lanes → Prop} {s : State} (h : Met k ws c s)
    (hc : ∀ t i m, c t i m → d t i m) : Met k ws d s := by
  obtain ⟨i, t, h1, h2, h3, h4, h5⟩ := h
  exact ⟨i, t, h1, h2, h3, h4, hc _ _ _ h5⟩

theorem witness_launch_words :
    (takes (.dispatch u 4 1 2) { plainSpec 0x09 u with transfer := true, noHandler := true, unclean := true, orders := true, reads := vQuad 4 ++ [.v 1],
                                                       writes := pRegs 2 } &&
      takes (.launch u true 2 4 6) { plainSpec 0x0B u with noHandler := true, unclean := true, orders := true, reads := sRegs true 4 ++ sRegs false 6,
                                                           writes := pRegs 2 }) = true := by decide +kernel

def roleSpec : WordSpec := { plainSpec 0x0A u with noHandler := true, unclean := true, writes := pRegs 2 ++ sRegs true 6 }

theorem witness_role_fails : Met (.role u 2 6 3) roleSpec (fun t i _ => (launchAt t i.x.launch).role 3 = none ∨ False)
    (lab (.role u 2 6 3)) := met (by decide +kernel)

/-- A warp whose split has a frame may not change its role. -/
theorem witness_role_busy : ∃ e, Met (.role u 2 6 0) roleSpec (fun t i _ =>
    (launchAt t i.x.launch).role 0 = some e ∧ (i.x.table.valid.length ≠ 1 ∨ i.p.frames ≠ [] ∨ i.p.spilled ≠ 0 ∨
      e.lim ≤ roleCount t i.x.block i.w 0))
    (lab (.role u 2 6 0) fun x => x.setSplit 0 fun q => { q with frames := [{ h := none, dm := 1, ppc := 0, pmask := 1, pword := none }] }) :=
  met_some (fun t i _ => (launchAt t i.x.launch).role 0) (by decide +kernel)

theorem witness_role : ∃ e, Met (.role u 2 6 0) roleSpec (fun t i _ =>
    (launchAt t i.x.launch).role 0 = some e ∧ i.x.table.valid.length = 1 ∧ i.p.frames = [] ∧ i.p.spilled = 0 ∧
      roleCount t i.x.block i.w 0 < e.lim ∧ ∀ n, .v n ∈ i.x.pendingRegs → n < e.vreg) (lab (.role u 2 6 0)) := by
  obtain ⟨e, h⟩ := met_some (k := .role u 2 6 0) (ws := roleSpec) (s := lab (.role u 2 6 0))
    (cond := fun e t i _ => (launchAt t i.x.launch).role 0 = some e ∧ i.x.table.valid.length = 1 ∧ i.p.frames = [] ∧ i.p.spilled = 0 ∧
      roleCount t i.x.block i.w 0 < e.lim ∧ i.x.pendingRegs = []) (fun t i _ => (launchAt t i.x.launch).role 0) (by decide +kernel)
  refine ⟨e, h.imp fun t i m hc => ?_⟩
  obtain ⟨h1, h2, h3, h4, h5, h6⟩ := hc
  exact ⟨h1, h2, h3, h4, h5, by simp [h6]⟩

theorem witness_wsync : Met (.wsync u 2 4) { plainSpec 0x0D u with noHandler := true, orders := true, reads := sRegs false 4, writes := pRegs 2 }
    (fun _ i m => ((i.x.getS 4 ||| m) &&& i.x.alive) &&& ~~~(wsyncHere i ||| wsyncExcused i.x) = 0)
    (lab (.wsync u 2 4) (sreg 4 0xFF)) := met (by decide +kernel)

/-! ### A world with memory -/

/-- Context 0 is valid and maps the page at 0x10000 to die 0 (readable, writable, executable, tail policy 2), its TLB filled; the block
holds scratchpad, tiles and macros. -/
def world (k : Instr) (f : Warp → Warp := id) : State :=
  let s := lab k f
  let s := updCtx s 0 fun c => { c with valid := true, root := 0x20 }
  let s := updBlock s 0 fun b => { b with spSize := 0x8000, tiles := [0, 1], macFirst := 0, macs := 1, arrK := 128 }
  { s with tlb := [{ home := 0, asid := 0, gen := 0, size := .p64K, vpage := 1, leaf := 0x180DF }] }

/-- The pair (2n, 2n+1) of V registers in every lane, and a pair of S registers. -/
def wide (n a : Nat) (x : Warp) : Warp := v (2 * n + 1) (a / 2 ^ 32) (v (2 * n) a x)
def twin (n a : Nat) (x : Warp) : Warp := sreg (n + 1) (a / 2 ^ 32) (sreg n a x)

/-- Addresses: each lane its own word of the page; the same of the scratchpad. -/
def page (n : Nat) (x : Warp) : Warp := lanesV (2 * n + 1) (fun _ => 0) (lanesV (2 * n) (fun l => 0x10000 + 16 * l) x)
def pad (n : Nat) (x : Warp) : Warp := lanesV (2 * n + 1) (fun _ => 0xFFFF0000) (lanesV (2 * n) (fun l => 16 * l) x)

/-- Some word whose lanes may all make their accesses, under a condition on what they reach. -/
def Reached (m : Instr) (ws : WordSpec) (k : AccessKind) (n : Nat) (g : Issuer → Lanes → Lanes) (addr : Issuer → Nat → Word64)
    (cond : State → List (Nat × Word64 × Target) → Issuer → Prop) (s : State) : Prop :=
  ∃ i t r, issuer s = some i ∧ decodeAt i = some m ∧ i.begins ws s = some t ∧ i.acts ws ∧
    reaches t (i.within t) k n (g (i.within t) (i.lanes ws)) (addr (i.within t)) = some r ∧ cond r.1 r.2 (i.within t)

theorem reached {m : Instr} {ws : WordSpec} {k : AccessKind} {n : Nat} {g : Issuer → Lanes → Lanes} {addr : Issuer → Nat → Word64}
    {cond : State → List (Nat × Word64 × Target) → Issuer → Prop} {s : State} [∀ t r i, Decidable (cond t r i)]
    (h : meets m ws (fun t i l => (reaches t i k n (g i l) (addr i)).any fun r => decide (cond r.1 r.2 i)) s = true) :
    Reached m ws k n g addr cond s := by
  obtain ⟨i, t, h1, h2, h3, h4, h5⟩ := met_of h
  cases hr : reaches t (i.within t) k n (g (i.within t) (i.lanes ws)) (addr (i.within t)) with
  | none => simp [hr] at h5
  | some r => exact ⟨i, t, r, h1, h2, h3, h4, hr, by simpa [hr] using h5⟩

def at4 : MAddr := { base := .v 4, off := 0 }
def wordAt4 : WAddr := { base := .v 4, woff := 0 }

/-- Loads, from the page and from the scratchpad. -/
theorem witness_loads : ∀ f ∈ [page 2, pad 2],
    Reached (.ld u .b128 .none .rlx .dflt 8 at4) (memSpec 0x60 u at4.base [] (dataRegs 8 16)) loadKind 16 (fun _ k => k)
      (fun i => i.x.effAddr at4) (fun _ r _ => r.length = 32) (world (.ld u .b128 .none .rlx .dflt 8 at4) f) ∧
    Reached (.lds u .b64 .die .acq .dflt 8 at4) (memSpec 0x62 u at4.base [] (uniRegs 8 8)) loadKind 8 (fun _ k => leadLane k)
      (fun i => i.x.effAddr at4) (fun _ r _ => r.length = 1) (world (.lds u .b64 .die .acq .dflt 8 at4) f) := by
  intro f hf
  simp only [List.mem_cons, List.not_mem_nil, or_false] at hf
  rcases hf with rfl | rfl <;> exact ⟨reached (by decide +kernel), reached (by decide +kernel)⟩

/-- A group load through the group aperture, of a launch with one group of one block. -/
theorem witness_group_load : Reached (.ldg u .add .i32 2 .none .rlx 8 wordAt4) (memSpec 0x64 u wordAt4.base [] (dataRegs 8 16)) groupKind 16
    (fun _ k => k) (fun i => i.x.wordAddr wordAt4) (fun _ r _ => r.length = 32)
    (updLaunch (world (.ldg u .add .i32 2 .none .rlx 8 wordAt4) (wide 2 0xFFFD000000000000)) 0 fun l =>
      { l with words := [0, 0x0001000100010000, 0x0000400000000000], groups := [{ gbase := 0, gspan := 0, faultPolicy := false }] }) :=
  reached (by decide +kernel)

theorem witness_stores : ∀ f ∈ [page 2, pad 2],
    Reached (.st u .b128 .none .rlx .dflt 8 at4) ((memSpec 0x61 u at4.base (dataRegs 8 16) []).ordered .rlx) storeKind 16 (fun _ k => k)
      (fun i => i.x.effAddr at4) (fun _ r _ => r.length = 32) (world (.st u .b128 .none .rlx .dflt 8 at4) f) ∧
    Reached (.sts u .b64 .none .rlx .dflt 8 at4) ((memSpec 0x63 u at4.base (uniRegs 8 8) []).ordered .rlx) storeKind 8 (fun _ k => leadLane k)
      (fun i => i.x.effAddr at4) (fun _ r _ => r.length = 1) (world (.sts u .b64 .none .rlx .dflt 8 at4) f) := by
  intro f hf
  simp only [List.mem_cons, List.not_mem_nil, or_false] at hf
  rcases hf with rfl | rfl <;> exact ⟨reached (by decide +kernel), reached (by decide +kernel)⟩

theorem witness_atomics : ∀ f ∈ [page 2, pad 2],
    Reached (.atom u .add .i64 .device .rlx 8 wordAt4 10) { (memSpec 0x65 u wordAt4.base (dataRegs 10 8) (dataRegs 8 8)).ordered .rlx with unclean := true }
      atomKind 8 (fun _ k => k) (fun i => i.x.wordAddr wordAt4) (fun _ r _ => r.length = 32)
      (world (.atom u .add .i64 .device .rlx 8 wordAt4 10) f) ∧
    Reached (.red u .max .f32 .device .rlx wordAt4 10) { (memSpec 0x66 u wordAt4.base (dataRegs 10 4) []).ordered .rlx with unclean := true } atomKind 4
      (fun _ k => k) (fun i => i.x.wordAddr wordAt4) (fun _ r _ => r.length = 32) (world (.red u .max .f32 .device .rlx wordAt4 10) f) ∧
    Reached (.cas u .b64 .die .ar 8 wordAt4 12) { (memSpec 0x67 u wordAt4.base (dataRegs 12 16) (dataRegs 8 8)).ordered .ar with unclean := true } atomKind
      8 (fun _ k => k) (fun i => i.x.wordAddr wordAt4) (fun _ r _ => r.length = 32) (world (.cas u .b64 .die .ar 8 wordAt4 12) f) := by
  intro f hf
  simp only [List.mem_cons, List.not_mem_nil, or_false] at hf
  rcases hf with rfl | rfl <;> exact ⟨reached (by decide +kernel), reached (by decide +kernel), reached (by decide +kernel)⟩

theorem witness_fence : takes (.fence u .device .ar) { opc := 0x68, guard := u, orders := true } = true := by decide +kernel

theorem witness_prefetch : Met (.pref u .keep at4) (memSpec 0x69 u at4.base [] []) (fun t i k =>
    queueHolds (checkLanes t i.x (loadKind.by .keep) 1 k (i.x.effAddr at4)).1 i.x.core (loadKind.by .keep) 1
      (prefetched (checkLanes t i.x (loadKind.by .keep) 1 k (i.x.effAddr at4)).2) = false) (world (.pref u .keep at4) (page 2)) :=
  met (by decide +kernel)

theorem witness_maintenance :
    Reached (.cwb u true at4) (memSpec 0x6A u at4.base [] []) maintKind 1 (fun _ k => k) (fun i => i.x.effAddr at4)
      (fun _ _ _ => True) (world (.cwb u true at4) (page 2)) ∧
    Reached (.cinv u true at4) { memSpec 0x6B u at4.base [] [] with orders := true } maintKind 1 (fun _ k => k) (fun i => i.x.effAddr at4)
      (fun _ _ _ => True) (world (.cinv u true at4) (page 2)) := ⟨reached (by decide +kernel), reached (by decide +kernel)⟩

def waitWord : Instr := .waitne u .b32 .none .rlx 8 at4 10

theorem witness_waitne : Reached waitWord (memSpec 0x6D u at4.base (dataRegs 10 4) (dataRegs 8 4)) (loadKind.by .nol1) 4 (fun _ k => k)
    (fun i => i.x.effAddr at4)
    (fun t r i =>
      let q := readLanes t i.x.core 4 .nol1 r
      poisonFault q.2 false = none ∧ ∀ z ∈ q.2, leNat z.2.2.data ≠ i.x.dataNat 10 4 z.1)
    (world waitWord (page 2 ∘ v 10 7)) := reached (by decide +kernel)

/-- A split parked at WAITNE, its back-off passed, begins a run for its next check; so does one with runs left to wait when no
other warp of its quarter is ready. Where the throttle gates its island it is ready, no more. -/
theorem witness_recheck : ∀ left ∈ [0, 3], ∀ gate ∈ [0, 8],
    let s := { world waitWord fun x => (page 2 (v 10 7 x)).setSplit 0 fun q => { q with park := some (.waitne left 1) } with runs := [] }
    let s := updIsland s 0 fun x => { x with gate := gate }
    let y := warpAt s 0
    let t := updSplit s 0 0 fun p => { p with park := some (.waitne 0 1) }
    (gate = 0 ↔ gateOf t y.core = 0 ∧ chooseWarp t y.core y.quarter = some 0 ∧ chooseSplit t 0 = some 0) ∧
    (y.splitAt 0).park = some (.waitne left 1) ∧ (y.splitAt 0).blk.isSome = true ∧
      (left = 0 ∨ ∀ v ∈ readyWarps s y.core y.quarter, v = 0) ∧
      splitReady t 0 0 = true ∧ s.runs.find? (quarterKey y) = none ∧
      (s.warps.find? 0).isSome = true ∧ 0 < y.table.splits.length := by decide +kernel

/-! ### The store, the arrays, cards and batches -/

def residesSpec : WordSpec := { opc := 0x6C, guard := u, reads := sRegs true 4 ++ sRegs false 6, writes := sRegs false 9 }
def tprioSpec : WordSpec := { opc := 0x6C, guard := u, reads := sRegs false 4, writes := sRegs false 9 }

theorem witness_reside : ([.resideClass u 9 4 6 .high true true, .residePin u 9 4 6, .resideUnpin u 9 4 6, .resideClose u 9 4 6].all
    fun k => takes k residesSpec (twin 4 0x10000 ∘ sreg 6 1)) = true := by decide +kernel

/-- The die's reserve belongs to the context, and does not. -/
theorem witness_tensor_priority :
    Met (.resideTprio u 9 4 7) tprioSpec (fun t i _ => ownsReserve t i.x.asid (bitsOf (i.x.getS 4).toNat 13 12) = true)
      { world (.resideTprio u 9 4 7) (sreg 4 0x1005) with splits := [(1, { StoreSplit.reset with kv := 4, esz := 13, cache := 12 })] } ∧
    Met (.resideTprio u 9 4 7) tprioSpec (fun t i _ => ownsReserve t i.x.asid (bitsOf (i.x.getS 4).toNat 13 12) = false)
      (world (.resideTprio u 9 4 7) (sreg 4 0x1005)) := ⟨met (by decide +kernel), met (by decide +kernel)⟩

theorem witness_key_value_words :
    (meets (.kvfind u 8 4) { opc := 0x6E, guard := u, reads := sRegs true 4, writes := sRegs true 8 }
        (fun t i _ => !tagsBad t i.x.asid (i.x.getT 4)) (world (.kvfind u 8 4)) &&
      takes (.kvput u true 8 4 10) { opc := 0x6F, guard := u, reads := sRegs true 4, writes := sRegs true 8 ++ sRegs true 10 } &&
      takes (.kvdrop u 9 4) { opc := 0x70, guard := u, reads := sRegs true 4, writes := sRegs false 9 } &&
      takes (.kvdropTensor u 9 4) { opc := 0x70, guard := u, reads := sRegs false 4, writes := sRegs false 9 }) = true := by
  decide +kernel

/-- A tag array of which two banks have failed. -/
theorem witness_key_value_bad_tag :
    meets (.kvfind u 8 4) { opc := 0x6E, guard := u, reads := sRegs true 4, writes := sRegs true 8 }
      (fun t i _ => tagsBad t i.x.asid (i.x.getT 4))
      (let s := world (.kvfind u 8 4)
       let down : Bank := { errors := [], failed := true, spared := false }
       { s with splits := (List.range 4).map fun d => (d, { StoreSplit.reset with kv := 4, esz := 10, cache := 12 }),
                banks := (List.range 4).flatMap fun d => [((2048 + d) * 9, down), ((2048 + d) * 9 + 1, down)] }) = true := by
  decide +kernel

def tileSpec (opc : Nat) : WordSpec := { opc := opc, guard := u, noCallee := true, writes := sRegs false 9 }

theorem witness_acgrow :
    Met (.acgrow u 9 256) (tileSpec 0x71)
      (fun t i _ => (freeTiles t i.x.core).length < 256 ∨ 256 < (blockAt t i.x.block).tiles.length + 256) (world (.acgrow u 9 256)) ∧
    Met (.acgrow u 9 254) (tileSpec 0x71)
      (fun t i _ => ¬((freeTiles t i.x.core).length < 254 ∨ 256 < (blockAt t i.x.block).tiles.length + 254)) (world (.acgrow u 9 254)) :=
  ⟨met (by decide +kernel), met (by decide +kernel)⟩

theorem witness_acfree :
    Met (.acfree u 9 3) (tileSpec 0x72) (fun t i _ => (blockAt t i.x.block).tiles.length < 3) (world (.acfree u 9 3)) ∧
    Met (.acfree u 9 2) (tileSpec 0x72) (fun t i _ => 2 ≤ (blockAt t i.x.block).tiles.length ∧
      cardsHold t i.x.block [{ dom := .acc, lo := (blockAt t i.x.block).tiles.length - 2, hi := (blockAt t i.x.block).tiles.length - 1 }] =
        false) (world (.acfree u 9 2)) := ⟨met (by decide +kernel), met (by decide +kernel)⟩

/-- With one macro: k of 128 is served, of 256 refused. -/
theorem witness_marr :
    (let s := world (.marr u 9 0)
     Met (.marr u 9 0) (tileSpec 0x90) (fun t i _ => marrWaits t i 0 = false ∧ marrServes
       (blockAt (updBlock t i.x.block fun x => { x with marrs := x.marrs.filter fun r => r.warp != i.w || r.split != i.e }) i.x.block).macs
       0 = true) s) ∧
    (let s := world (.marr u 9 1)
     Met (.marr u 9 1) (tileSpec 0x90) (fun t i _ => marrWaits t i 1 = false ∧ marrServes
       (blockAt (updBlock t i.x.block fun x => { x with marrs := x.marrs.filter fun r => r.warp != i.w || r.split != i.e }) i.x.block).macs
       1 = false) s) := ⟨met (by decide +kernel), met (by decide +kernel)⟩

def accSpec (opc : Nat) (rs wr : List Reg) : WordSpec :=
  { opc := opc, guard := u, noCallee := true, reads := sRegs false 12 ++ rs, writes := wr }

def tileFree (t : State) (i : Issuer) : Bool :=
  let r := rowDesc (i.x.getS 12)
  decide (r.tile < (blockAt t i.x.block).tiles.length) && !cardsHold t i.x.block [{ dom := .acc, lo := r.tile, hi := r.tile }]

/-- The last tile of the block, and its last rows. -/
theorem witness_accumulator_words :
    (let f := sreg 12 0x701
     let tile (t : State) (i : Issuer) : Nat := physTile (blockAt t i.x.block) (rowDesc (i.x.getS 12)).tile
     Met (.mread u 14 12) (accSpec 0x96 [] (vRegs true 14))
       (fun t i m => tileFree t i = true ∧ poisonLanes t i.x.core (tile t i) (rowDesc (i.x.getS 12)) false m = 0) (world (.mread u 14 12) f) ∧
     Met (.mreadAnc u 15 12) (accSpec 0x96 [] (vRegs false 15))
       (fun t i m => tileFree t i = true ∧ poisonLanes t i.x.core (tile t i) (rowDesc (i.x.getS 12)) true m = 0)
       (world (.mreadAnc u 15 12) f) ∧
     Met (.mwrite u 12 14) (accSpec 0x97 (vRegs true 14) []) (fun t i _ => tileFree t i = true) (world (.mwrite u 12 14) f) ∧
     Met (.mwriteAnc u 12 15) (accSpec 0x97 (vRegs false 15) []) (fun t i _ => tileFree t i = true) (world (.mwriteAnc u 12 15) f)) :=
  ⟨met (by decide +kernel), met (by decide +kernel), met (by decide +kernel), met (by decide +kernel)⟩

/-- What a word that issues a card asks of its record and of the core's slots. -/
def cardReady (kind : Nat) (fmt : Warp → List Word32) (t : State) (i : Issuer) : Bool :=
  (offsetFault t i.x (i.x.getS 4).toNat).isNone &&
    !(readSpad t (spadAddr i.x.core ((blockAt t i.x.block).spBase + (i.x.getS 4).toNat)) 64).isPoison &&
    (decide (drainTiles kind (fmt i.x) = []) || !cardsHold t i.x.block (drainTiles kind (fmt i.x))) &&
    decide (slotsUsed t i.x.core < Config.cardSlots)

def issuesCard (k : Instr) (kind : Nat) (more : List Reg) (fmt : Warp → List Word32) : Bool :=
  meets k (cardSpec kind u 9 4 more) (fun t i _ => cardReady kind fmt t i) (world k (sreg 4 0x7FC0 ∘ sreg 11 1))

/-- Every card, with its record at the end of the scratchpad; MDRAIN of tile 1. -/
theorem witness_cards :
    (issuesCard (.cpy u 9 4) 0x80 [] (fun _ => []) && issuesCard (.cpym u 9 4) 0x81 [] (fun _ => []) &&
      issuesCard (.cpysc u 9 4) 0x82 [] (fun _ => []) && issuesCard (.xpose u 9 4) 0x83 [] (fun _ => []) &&
      issuesCard (.sred u 9 4) 0x84 [] (fun _ => []) &&
      issuesCard (.bload u 9 4 8) 0x91 [.s 9] (fun x => [0, x.getS 9, 0, 0]) && issuesCard (.minit u 9 4) 0x92 [] (fun _ => []) &&
      issuesCard (.mma u 9 4 8) 0x93 (fmtRegs 8) (fmtWords 8) &&
      issuesCard (.mmasp u 4 9 4 8 200) 0x94 (fmtRegs 8 ++ vRegs false 200) (fmtWords 8) &&
      issuesCard (.mdrain u 9 4 8 13) 0x95 (fmtRegs 8 ++ sRegs false 13) (fun x => fmtWords 8 x ++ [x.getS 13])) = true := by
  decide +kernel

theorem witness_batch_words :
    (takes (.afence u 9) { opc := 0x85, guard := u, writes := sRegs false 9 } &&
      takes (.atest u 3 4) { opc := 0x87, guard := u, reads := sRegs false 4, writes := pRegs 3 } &&
      takes (.atestAll u 3) { opc := 0x87, guard := u, writes := pRegs 3 }) = true := by decide +kernel

theorem witness_await :
    Met (.awaitBatch u 4) { opc := 0x86, guard := u, reads := sRegs false 4 } (fun t i _ =>
      dueReport i.x (some (i.x.getS 4).toNat) = none ∧ batchRuns t i.w (some (i.x.getS 4).toNat) = false ∧
        (i.x.handler.isSome = true ∨ dueFlags i.x (some (i.x.getS 4).toNat) = 0)) (lab (.awaitBatch u 4)) ∧
    Met (.awaitAll u) { opc := 0x86, guard := u } (fun t i _ =>
      dueReport i.x none = none ∧ batchRuns t i.w none = false ∧ (i.x.handler.isSome = true ∨ dueFlags i.x none = 0)) (lab (.awaitAll u)) :=
  ⟨met (by decide +kernel), met (by decide +kernel)⟩

/-! ### Barriers -/

def bar : Bar := { lvl := .cluster, idx := 1 }

/-- A barrier of the cluster that the warp belongs to, declared by its launch. -/
def barrier : Barrier :=
  { lvl := .cluster, inst := 0, launch := 0, idx := 1, phase := false, exp := 1, arr := 0, aband := false,
    locals := [(0, { BarLocal.reset with member := 1 })], wake := [], done := [], quad := 0, late := [] }

def declared (s : State) (b : Barrier) : State :=
  { updLaunch s 0 fun l => { l with words := [0, 0x0001000100010000, 0x100] } with barriers := [(7, b)] }

def barWord (opc : Nat) : WordSpec := barSpec opc u [] (pRegs 1 ++ sRegs false 5) false

theorem witness_barrier_words :
    let found (b : Barrier) (t : State) (i : Issuer) : Prop :=
      barDeclared (launchOf t i.w) bar = true ∧ barFind t i.x.block bar = some (7, b)
    Met (.bara u 1 5 bar) { barWord 0xA0 with orders := true } (fun t i _ => found barrier t i) (declared (world (.bara u 1 5 bar)) barrier) ∧
    Met (.barw u 1 5 bar) (barWord 0xA1) (fun t i _ => found { barrier with aband := true } t i ∧ i.p.park ≠ some .woken)
      (declared (world (.barw u 1 5 bar)) { barrier with aband := true }) ∧
    Met (.barw u 1 5 bar) (barWord 0xA1) (fun t i _ => found barrier t i ∧ (barrier.aband = false ∨ i.p.park = some .woken) ∧ barrier.has i.w (·.arrived) = false)
      (declared (world (.barw u 1 5 bar)) barrier) ∧
    Met (.barsRoot u 5 bar) (barSpec 0xA2 u [] (sRegs false 5) true) (fun t i _ => found barrier t i)
      (declared (world (.barsRoot u 5 bar)) barrier) ∧
    Met (.barsOwn u 5 bar) (barSpec 0xA2 u [] (sRegs false 5) true) (fun t i _ => found barrier t i)
      (declared (world (.barsOwn u 5 bar)) barrier) :=
  ⟨met (by decide +kernel), met (by decide +kernel), met (by decide +kernel), met (by decide +kernel), met (by decide +kernel)⟩

/-! ### In a handler -/

/-- A handler that this FAULT value opened, and the warp in it. -/
def opened (fault : Word32) : Handler :=
  { table := DivTable.start 0x2000 allLanes, flags := 0, tpc := 0x2000, tword := false, thdr := 0, tsplit := 0, fault := fault, bankV := [],
    bankS := [], cls := 0 }
def sup (fault : Word32) (x : Warp) : Warp := { x with handler := some (opened fault) }

/-- The system words take their effect. -/
def sysTakes (k : Instr) (f : Warp → Warp := id) : Bool :=
  k.wf && (systemWord k).any fun ws => meets k ws (fun _ _ _ => true) (world k (sup 0 ∘ f))

theorem witness_barrier_fields :
    let b3 : Bar := { lvl := .block, idx := 3 }
    ([.barqRoot u 40 b3, .barqMem u 40 b3, .barqArr u 40 b3, .barqEarly u 40 b3, .barqWait u 40 b3].all fun k =>
        meets k { barSpec 0xA3 u [] (sRegs false 40) true with sys := true } (fun _ _ _ => true) (world k (sup 0))) = true ∧
      ([.barsetRoot u 40 b3, .barsetMem u 40 b3, .barsetArr u 40 b3, .barsetEarly u 40 b3, .barsetWait u 40 b3].all fun k =>
        meets k { barSpec 0xA4 u (sRegs false 40) [] true with sys := true } (fun _ _ _ => true) (world k (sup 0))) = true := by
  decide +kernel

theorem witness_trap_returns :
    Met (.tret u) (sysSpec 0xC0 u [] []) (fun _ i _ => handlerPends i.x = false) (world (.tret u) (sup 0)) ∧
    Met (.tretSaved u) (sysSpec 0xC0 u [] []) (fun _ i _ => preemptCause i.handler.fault = some 0 ∨ preemptCause i.handler.fault = some 1)
      (world (.tretSaved u) (sup 0x11000000)) := ⟨met (by decide +kernel), met (by decide +kernel)⟩

/-- Those that take their effect whatever the state. -/
theorem witness_system_words :
    ([.tlbiPage u 4, .tlbiRange u 4 6, .tlbiAsid u, .genadv u, .sigset u 4 3, .sigrd u 4 2, .pgdisc u 9 4 6, .gets u .b32 (.v 1) 64,
      .gets u .n64 (.v 2) 77, .sets u .n64 77 (.v 2), .sets u .b32 64 (.v 2)].all fun k => sysTakes k) = true := by decide +kernel

/-- What a system word's checked run reaches, and what it reads there, where it may go on. -/
def sysRun (t : State) (i : Issuer) (m : Lanes) (wr : Bool) (ga : Word64) (n align : Nat) : Option (State × List (Nat × Nat × Target)) :=
  match sysCheck t i m wr ga n align with
  | .ok r => if accessWait r.1 i (sysKind wr) n (r.2.map fun p => (p.1, ga, p.2.2)) = none then some r else none
  | .stop _ => none
def sysGot (r : State × List (Nat × Nat × Target)) (i : Issuer) (ga : Word64) (seen : List Nat) : Option (State × List Byte × List Nat) :=
  let u := sysDelivery r.1 i ga r.2
  if u.2.isPoison then none else some ((sysTails u.1 i ga u.2 seen).1, u.2.data, (sysTails u.1 i ga u.2 seen).2)

theorem met_run {n align : Nat} {wr : Bool} {k : Instr} {ws : WordSpec} {sa : Nat}
    {cond : State × List (Nat × Nat × Target) → State → Issuer → Lanes → Prop} {s : State} [∀ r t i m, Decidable (cond r t i m)]
    (h : meets k ws (fun t i m => (sysRun t i m wr (i.x.getT sa) n align).any fun r => decide (cond r t i m)) s = true) :
    ∃ r, Met k ws (fun t i m => sysReaches t i m wr (i.x.getT sa) n align r ∧ cond r t i m) s := by
  obtain ⟨i, t, h1, h2, h3, h4, h5⟩ := met_of h
  cases hr : sysRun t (i.within t) (i.lanes ws) wr ((i.within t).x.getT sa) n align with
  | none => simp [hr] at h5
  | some r =>
    refine ⟨r, i, t, h1, h2, h3, h4, ?_, by simpa [hr] using h5⟩
    unfold sysRun at hr
    split at hr
    · split at hr
      · cases hr
        exact ⟨by assumption, by assumption⟩
      · cases hr
    · cases hr

def dvsaveSpec : WordSpec := sysSpec 0xC3 u (sRegs true 4) []
def dvloadSpec : WordSpec := sysSpec 0xC4 u (sRegs true 4) (sRegs false 9)

theorem witness_dvsave : ∃ r, Met (.dvsave u 4) dvsaveSpec
    (fun t i m => sysReaches t i m true (i.x.getT 4) 1536 64 r) (world (.dvsave u 4) (sup 0 ∘ twin 4 0x10000)) :=
  let ⟨r, h⟩ := met_run (cond := fun _ _ _ _ => True) (by decide +kernel)
  ⟨r, h.imp fun _ _ _ h => h.1⟩

/-- DVLOAD from the scratchpad of a record of zeros, for a warp of eight registers, and of one with a byte that no field covers. -/
def readsRecord (refused : Bool) : Bool :=
  let w := world (.dvload u 9 4) fun x => { sup 0 (twin 4 0xFFFF000000000000 x) with allot := 8 }
  meets (.dvload u 9 4) dvloadSpec (fun t i m =>
    (sysRun t i m false (i.x.getT 4) 1536 64).any fun r => (sysGot r i (i.x.getT 4) []).any fun q =>
      recRefused q.1 i.w q.2.1 == refused) { w with mem := if refused then w.mem.setByte (spadAddr 0 0x3CC) 1 else w.mem }

theorem witness_dvload_refused : readsRecord true = true := by decide +kernel
theorem witness_dvload : readsRecord false = true := by decide +kernel

/-! MAPFT walks real tables: the root at 0x20000, one table of each level after it, and a leaf for the page at 0x10000. -/

def tables (leaf : Nat) (s : State) : State :=
  let m := (s.mem.writeNat 0x20000 8 0x21001).writeNat 0x21000 8 0x22001
  { s with mem := ((m.writeNat 0x22000 8 0x23001).writeNat 0x23008 8 leaf) }

def mapftSpec : WordSpec := mapSpec 0xC7 u (sRegs true 4) (sRegs false 9)

def mapping (leaf : Nat) (kept : List Nat) : State :=
  let s := tables leaf (world (.mapft u 9 4) (sup 0 ∘ twin 4 0x10000))
  { s with tlb := [], pools := [(0, { Pool.reset with kept := kept })] }

/-- How MAPFT's walk ends, and which frame it takes. -/
def mapsAs (s : State) (f : Walk → Option Nat → Bool) : Bool :=
  meets (.mapft u 9 4) mapftSpec (fun t i _ =>
    let va := (i.x.getT 4).toNat
    let q := walkBy t (some (coreDie i.x.core)) i.x.ctx va
    decide (va < 2 ^ 52) && f q.2 (takeFrame q.1 0).2) s

/-- The leaf that MAPFT has read is the one it swaps, or another agent has written its entry meanwhile: a present one, or not. -/
def swaps (races : List (Nat × Nat)) (swapped present : Bool) : Bool :=
  meets (.mapft u 9 4) mapftSpec (fun t i _ =>
    let q := walkBy t (some (coreDie i.x.core)) i.x.ctx (i.x.getT 4).toNat
    match q.2, takeFrame q.1 0 with
    | .leaf a e .p64K, (u', some f) =>
      let v := swapEntry (zeroFrame (markDirty u' i.x.core i.x.ctx f) f) a e (presentLeaf e f)
      let now := leNat (v.1.mem.bytes a 8)
      leafPst e != 0 && v.2 == swapped && (bitOf now 0 && bitOf now 1 && leafPst now == 0) == present
    | _, _ => false) { mapping 0x082DF [0x70000] with races := races }

theorem witness_mapft_swaps : swaps [] true true = true ∧ swaps [(0x23008, 0x180DF)] false true = true ∧
    swaps [(0x23008, 0x0825F)] false false = true := by decide +kernel

theorem witness_mapft :
    mapsAs (mapping 0 []) (fun q _ => q == .invalid) = true ∧
    mapsAs (mapping 0x180DF []) (fun q _ => match q with | .leaf _ e _ => leafPst e == 0 | _ => false) = true ∧
    mapsAs (let s := mapping 0 []; { s with mem := s.mem.writeNat 0x22000 8 0x00081FF }) (fun q _ => match q with
      | .leaf _ e z => leafPst e != 0 && z != .p64K | _ => false) = true ∧
    mapsAs (mapping 0x082DF []) (fun q f => (match q with | .leaf _ e .p64K => leafPst e != 0 | _ => false) && f == none) = true ∧
    mapsAs (mapping 0x082DF [0x70000]) (fun q f =>
      (match q with | .leaf _ e .p64K => leafPst e != 0 | _ => false) && f == some 0x70000) = true := by decide +kernel

def statusSpec (opc : Nat) : WordSpec := sysSpec opc u (sRegs false 4) (sRegs false 9)

/-- KILLW of no warp, of another of the block, and of its own; MIGR of a core that may not move and of one that may. -/
theorem witness_kill_and_migrate :
    (let named (t : State) (i : Issuer) : Option Nat :=
       if (i.x.getS 4).toNat < 32 then warpNumbered t i.x.block (i.x.getS 4).toNat else none
     let two (s : State) : State := { s with warps := s.warps.put 5 { warpAt s 0 with num := 31 } }
     Met (.killw u 9 4) (statusSpec 0xC8) (fun t i _ => named t i = none) (world (.killw u 9 4) (sup 0 ∘ sreg 4 32)) ∧
     Met (.killw u 9 4) (statusSpec 0xC8) (fun t i _ => named t i = some 5 ∧ 5 ≠ i.w) (two (world (.killw u 9 4) (sup 0 ∘ sreg 4 31))) ∧
     Met (.killw u 9 4) (statusSpec 0xC8) (fun t i _ => named t i = some i.w) (world (.killw u 9 4) (sup 0 ∘ sreg 4 0)) ∧
     Met (.migr u 9 4) (statusSpec 0xC9) (fun t i _ => migrStatus t i.x.core (i.x.getS 4).toNat = 0)
       (updLaunch (world (.migr u 9 4) (sup 0 ∘ sreg 4 63)) 0 fun l => { l with words := [0, 0, 0, 2] }) ∧
     Met (.migr u 9 4) (statusSpec 0xC9) (fun t i _ => migrStatus t i.x.core (i.x.getS 4).toNat ≠ 0) (world (.migr u 9 4) (sup 0))) :=
  ⟨met (by decide +kernel), met (by decide +kernel), met (by decide +kernel), met (by decide +kernel), met (by decide +kernel)⟩

def scrubSpec : WordSpec := sysSpec 0xCA u (sRegs true 4 ++ sRegs false 6) (sRegs false 9)

def scrubbing (busy : Bool) (n : Nat) : State :=
  let s := tables 0x180DF (world (.scrub u 9 4 6) (sup 0 ∘ twin 4 0x10000 ∘ sreg 6 n))
  { s with scrubReg := { Scrub.reset with sbusy := busy } }

/-- SCRUB while another runs, of too many entries, of none, and of two; KEYZ. -/
theorem witness_scrub :
    Met (.scrub u 9 4 6) scrubSpec (fun t i _ => t.scrubReg.mgslot = i.x.ctx ∧ t.scrubReg.sbusy = true) (scrubbing true 2) ∧
    (∀ n ∈ [0, 0x100001], Met (.scrub u 9 4 6) scrubSpec (fun t i _ => t.scrubReg.mgslot = i.x.ctx ∧ t.scrubReg.sbusy = false ∧
      ¬(0 < (i.x.getS 6).toNat ∧ (i.x.getS 6).toNat ≤ 2 ^ 20)) (scrubbing false n)) ∧
    (∃ r, Met (.scrub u 9 4 6) scrubSpec (fun t i m => sysReaches t i m false (i.x.getT 4) 8 8 r ∧
      (t.scrubReg.mgslot = i.x.ctx ∧ t.scrubReg.sbusy = false ∧ (0 < (i.x.getS 6).toNat ∧ (i.x.getS 6).toNat ≤ 2 ^ 20) ∧
        8 * (i.x.getS 6).toNat ≤ pageLeft r.1 i (i.x.getT 4).toNat)) (scrubbing false 8192)) ∧
    (∃ r, Met (.scrub u 9 4 6) scrubSpec (fun t i m => sysReaches t i m false (i.x.getT 4) 8 8 r ∧
      (t.scrubReg.mgslot = i.x.ctx ∧ t.scrubReg.sbusy = false ∧ (0 < (i.x.getS 6).toNat ∧ (i.x.getS 6).toNat ≤ 2 ^ 20) ∧
        pageLeft r.1 i (i.x.getT 4).toNat < 8 * (i.x.getS 6).toNat)) (scrubbing false 8193)) ∧
    Met (.keyz u 4) (sysSpec 0xCB u (sRegs false 4) []) (fun t i _ => t.scrubReg.mgslot = i.x.ctx) (world (.keyz u 4) (sup 0)) := by
  refine ⟨met (by decide +kernel), fun n hn => ?_, met_run (by decide +kernel), met_run (by decide +kernel), met (by decide +kernel)⟩
  simp only [List.mem_cons, List.not_mem_nil, or_false] at hn
  rcases hn with rfl | rfl <;> exact met (by decide +kernel)

/-- QSAVE: the image's bytes may be written. -/
def savesImage (k : Instr) (image : State → Block → Bytes) (s : State) : Bool :=
  meets k (queueSpec 0xCC u 9 4) (fun t i m => !cardsHold t i.x.block [macroExtent (blockAt t i.x.block).macs] && !rowCards t i.x.block &&
    (sysRun t i m true (i.x.getT 4) (image t (blockAt t i.x.block)).data.length 64).isSome) s

theorem witness_qsave :
    (savesImage (.qsaveRq u 9 4) (fun _ x => rqImage x false) (world (.qsaveRq u 9 4) (sup 0 ∘ twin 4 0x10000)) &&
      savesImage (.qsaveMac u 9 4) macImage (world (.qsaveMac u 9 4) (sup 0 ∘ twin 4 0x10000)) &&
      savesImage (.qsaveRbq u 9 4) (fun _ x => rbqImage x) (world (.qsaveRbq u 9 4) (sup 0 ∘ twin 4 0x10000))) = true := by decide +kernel

/-- QLOAD of an image whose header is read: what its check answers. -/
def loadsImage (k : Instr) (head : Nat) (total : State → Block → List Byte → Option Nat) (n : Option Nat) (img : List Byte)
    (g : State → State := id) : Bool :=
  let w := g (world k (sup 0 ∘ twin 4 0x10000))
  meets k (queueSpec 0xCD u 9 4) (fun t i m =>
    !cardsHold t i.x.block [macroExtent (blockAt t i.x.block).macs] &&
    ((sysRun t i m false (i.x.getT 4) head 64).any fun r => (sysGot r i (i.x.getT 4) []).any fun h =>
      total t (blockAt t i.x.block) h.2.1 == n && n.all fun n => decide (n ≤ head) ||
        ((sysRun h.1 i m false (i.x.getT 4) n 64).any fun q => (sysGot q i (i.x.getT 4) h.2.2).isSome))) { w with mem := w.mem.setBytes 0x10000 img }

theorem witness_qload_rq :
    let msg (s : State) : State := updLaunch s 0 fun l => { l with words := [0, 0, 0, 1] }
    (loadsImage (.qloadRq u 9 4) 8 rqTotal none [65] msg && loadsImage (.qloadRq u 9 4) 8 rqTotal (some 8) [] msg &&
      loadsImage (.qloadRq u 9 4) 8 rqTotal (some 24) [2] msg) = true := by decide +kernel

theorem witness_qload_mac :
    (loadsImage (.qloadMac u 9 4) 8 (fun _ => macTotal) none [0, 3] &&
      loadsImage (.qloadMac u 9 4) 8 (fun _ => macTotal) (some 8) [0, 7, 0, 0, 128]) = true := by decide +kernel

theorem witness_qload_rbq :
    (loadsImage (.qloadRbq u 9 4) 16 (fun _ => rbqTotal) none [1] &&
      loadsImage (.qloadRbq u 9 4) 16 (fun _ => rbqTotal) (some 16) [] &&
      loadsImage (.qloadRbq u 9 4) 16 (fun _ => rbqTotal) (some 80) [1, 0, 0, 0, 0, 0, 0, 0, 64]
        (updBlock · 0 fun b => { b with macs := 8 })) = true := by decide +kernel

/-! ### Events -/

/-- The world with its warp between runs, no block fetched, at the header at 0x10000: a block of one NOP. -/
def resting (f : Warp → Warp := id) : State :=
  let s := world (.nop u)
  let s := updWarp s 0 fun x => f (x.setSplit 0 fun q => { q with pc := 0x10000, word := false, blk := none })
  { s with focus := none, runs := [], mem := (s.mem.writeNat 0x10000 8 (plainHeader 1).toNat).writeNat 0x10008 8 0x00E0000000000000 }

/-- One pending write of V1. -/
def pending (fault : Option FaultInfo) : Pending :=
  { split := 0, handler := false, stamp := 0, dests := [.v 1 allLanes (List.replicate 32 7)], flags := 0, grade := none, fault := fault,
    ldg := none, pc := 0, mtgt := 0 }

theorem witness_block_fetch :
    let s := resting
    let x := warpAt s 0
    (wantsFetch x 0 && coreRuns s x.core && decide ((x.splitAt 0).spilled = 0) && decide ((x.splitAt 0).blockAt.toNat % 8 = 0) &&
      (match fetchBlock s x.core x.ctx x.asid x.handler.isNone x.allot (x.splitAt 0).blockAt with
       | (_, .ok b) => wordInBlock (x.splitAt 0) b
       | _ => false)) = true := by decide +kernel

/-- A quarter that chooses a run, one whose run the throttle withholds, one of a throttled island past its withheld cycles, one with no
warp ready, and one with a run under way. -/
theorem witness_run_select :
    let s := { world (.nop u) with focus := none, runs := [] }
    let gated (cycle : Nat) : State := updIsland { s with gates := [(0, { cycle := cycle, idle := [] })] } 0 fun x => { x with gate := 8 }
    gateOf s 0 = 0 ∧ s.runs.find? (0 * 4 + 0) = none ∧ (nextRun s 0 0).1 = some 0 ∧ chooseSplit s 0 = some 0 ∧
      ((warpAt s 0).splitAt 0).blk.isSome = true ∧ s.runs.find? (quarterKey (warpAt s 0)) = none ∧
      (∀ c ∈ [0, 7], c < gateOf (gated c) 0 ∧ floorDue { cycle := c, idle := [] } (contextsOf (gated c) (readyWarps (gated c) 0 0)) = none ∧
        ((gated c).gates.getD { cycle := 0, idle := [] } 0).cycle = c ∧ (nextRun (gated c) 0 0).1 = none) ∧
      (nextRun (gated 8) 0 0).1 = some 0 ∧ chooseSplit (gated 8) 0 = some 0 ∧ s.runs.find? (0 * 4 + 3) = none ∧ (nextRun s 0 3).1 = none ∧
      (({ s with runs := [(quarterKey (warpAt s 0), (0, 0))] } : State).runs.find? (0 * 4 + 0)).isSome = true := by decide +kernel

def aRequest : LdgReq := { op := .add, sz := .i32, elems := 1, d := 1, lanes := 1, addr := [0xFFFD000000000000], acq := false }
theorem witness_landing : ∀ p ∈ [pending none, { pending none with ldg := some aRequest }],
    let s := resting fun x => { x with pend := [p] }
    let x := warpAt s 0
    x.pend[0]? = some p ∧ (p.ldg.all fun r => !groupHeld s x.launch r) = true ∧ landsNext x 0 p = true ∧ landSends x p = false := by
  decide +kernel

/-- A pending write of S61 that sends a flit, with room for it. -/
theorem witness_landing_sends :
    let p := { pending none with dests := [.s 61 5] }
    let s := updLaunch (resting fun x => { x with pend := [p] }) 0 fun l => { l with words := [0, 0, 0, 1] }
    let s := updWarp s 0 fun x => { x with msg := true }
    (warpAt s 0).pend[0]? = some p ∧ landsNext (warpAt s 0) 0 p = true ∧ landSends (warpAt s 0) p = true ∧ windowFull s 0 p.mtgt = none := by
  decide +kernel

def aFault : FaultInfo := FaultInfo.uniform .grade 3 0 0x10000

theorem witness_deferred_fault :
    let s := resting fun x => { x with deferred := [pending (some aFault)] }
    betweenRuns s 0 0 = true ∧ nextDeferred (warpAt s 0) 0 = some (0, pending (some aFault)) ∧ (pending (some aFault)).fault = some aFault := by
  decide +kernel

theorem witness_preempt_and_migrate :
    (let s := resting fun x => { x with preemptDue := true }
     betweenRuns s 0 0 = true ∧ (warpAt s 0).handler = none ∧ dueDeferred (warpAt s 0) = [] ∧ (warpAt s 0).preemptDue = true) ∧
    (let s := resting fun x => { x with migrateDue := some 63 }
     betweenRuns s 0 0 = true ∧ (warpAt s 0).handler = none ∧ dueDeferred (warpAt s 0) = [] ∧ (warpAt s 0).preemptDue = false ∧
       (warpAt s 0).migrateDue = some 63) := by decide +kernel

/-- CPY of 64 bytes from the page to the scratchpad, as a card in flight; what it reads, and what its record lacks. -/
def card (words : List Word64) : Card :=
  { tag := 1, kind := 0x80, core := 0, warp := 0, num := 0, block := 0, launch := 0, ctx := 0, asid := 0, words := words, fmt := [], idx := [],
    arrK := 0, batch := none, orphan := false, linked := false, ready := some 0, reads := [], writes := [], preds := [], launched := false, cancelled := false, silent := false, linear := 0,
    sup := false, rows := 0, flags := 0, tails := [], failed := none, stamp := 0 }

def good : List Word64 := [0x800 * 2 ^ 48, 0x10000, 0xFFFF000000000000, 64 * 2 ^ 32 + 2 ^ 16, 0, 0, 0, 0]

def withCard (c : Card) : State := { resting with cards := [(9, c)] }

def running : Card := { card good with launched := true }

theorem witness_card_launch_and_completion :
    launchesNow (withCard (card good)) 9 (card good) = true ∧ runnable (withCard running) running = true ∧
      (runCard (withCard running) 9 running).fault = none := by decide +kernel

/-- Cards that end in a fault: of a terminated warp, of a record of another kind, and of one that reads beyond the scratchpad. -/
theorem witness_card_faults :
    (let c := { card good with cancelled := true }
     (withCard c).cards.find? 9 = some c ∧ c.cancelled = true ∧ ((withCard c).launches.find? c.launch).isSome = true ∧
       (launchAt (withCard c) c.launch).terminated = false) ∧
    (let c := card [0]
     (withCard c).cards.find? 9 = some c ∧ c.cancelled = false ∧ malformed (withCard c) c = true) ∧
    (let c := { card [0x800 * 2 ^ 48, 0x10000, 0xFFFF000000008000, 64 * 2 ^ 32 + 2 ^ 16, 0, 0, 0, 0] with launched := true }
     c.cancelled = false ∧ malformed (withCard c) c = false ∧ runnable (withCard c) c = true ∧ ((runCard (withCard c) 9 c).fault).isSome = true) := by
  decide +kernel

theorem witness_barrier_wake : (declared resting barrier).barriers.find? 7 = some barrier := by decide +kernel

/-- A channel of flits for the block, with one entry in its window. -/
def entry1 (bad : Bool) : NetEntry :=
  { seq := 0, ident := 0, payload := 7, near := false, tries := 0, flips := if bad then [72] else [], lost := false, seen := none, via := none }
def chan (w : List NetEntry) : Chan :=
  { core := 0, slot := 0, launch := 0, sender := 0, nextSeq := 1, expect := 0, window := w, wait := none, probing := false, steps := 0,
    escape := false, place := 0, turn := 0 }
def withChan (c : Chan) (s : State := resting) : State := { s with chans := [(4, c)] }

theorem witness_message_arrival :
    receipt (updLaunch resting 0 fun l => { l with words := [0, 0, 0, 1] }) 0 0 0 = .accepted ∧
      (chan [entry1 false]).window = [entry1 false] ∧ (chan [entry1 false]).wait = none ∧ (entry1 false).lost = false ∧
      (entry1 false).flips = [] ∧ (entry1 false).seen = none ∧ (entry1 false).seq = (chan [entry1 false]).expect := by decide +kernel

/-! Launching: a record and a queue of one entry in the page. -/

def record : List Nat := [0x10000, 0x0001000100010000, 0, 2 ^ 37, 0, 0, 0, 0, 0, 0, 0, 0x10800, 0, 0, 0, 0]

def queued (words : List Nat) : State :=
  let s := updCtx State.reset 0 fun c => { c with valid := true, root := 0x20 }
  let s := tables 0x180DF s
  { s with mem := ((words.zipIdx.foldl (fun (m : Memory) q => m.writeNat (0x10000 + 8 * q.2) 8 q.1) s.mem).writeNat 0x11000 8 0x10000),
           queues := [(0, { LQueue.reset with base := 0x11000, enable := true, tail := 1 })] }

theorem witness_entry_take :
    let s := queued record
    let r := queueOf s 0
    (r.enable && r.head != r.tail && allAdmitted s 0 &&
      (match unitReadNat s r.asid (r.base.toNat + 8 * (r.head.toNat % 2 ^ r.log2n)) 8 with
       | (s1, some entry) => (bitOf entry 0 == false || lastEnded s r) && bitsOf entry 6 1 == 0 &&
         (match readLaunch s1 0 r.asid r.prio (entry / 128 * 128) (bitOf entry 0) with
          | (s2, .ok text) => !splitPends (queued record) text.l &&
            (launchError { s2 with launches := s2.launches.put s2.nextId text.l, nextId := s2.nextId + 1 } s2.nextId text).isNone
          | _ => false)
       | _ => false)) = true := by decide +kernel

def taken : State :=
  match exec (.lqEntryTake 0) (queued record) with | .next t => t | _ => State.reset

def placedIn (t : State) (j : Nat) : Option State :=
  placeWithCallees { sets := true } t j (gangOf (launchAt t j) (launchAt t j).next) fun d => !heldOff t j d

/-- One launch that can be placed; two, of which the first in order cannot, its only die having no core free of another's blocks, and
is passed over; and one that cannot, alone. -/
theorem witness_placement :
    let n := taken.nextId - 1
    let big := updLaunch { taken with launches := taken.launches.put 99 (launchAt taken n) } 99 fun l => { l with prio := 40, words := l.words.set 3 0 }
    let passed := updLaunch big 99 fun l => { l with since := some (l.since.getD big.now) }
    considerOrder taken = [n] ∧ (placedIn taken n).isSome = true ∧
      considerOrder big = [99, n] ∧ (placedIn big 99).isNone = true ∧ (placedIn passed n).isSome = true ∧
      (let alone := { big with launches := big.launches.del n }
       considerOrder alone = [99] ∧ (placedIn alone 99).isNone = true) := by decide +kernel

theorem witness_gang_held :
    let s := updLaunch taken (taken.nextId - 1) fun l => { l with since := some 0 }
    ((s.launches.find? (taken.nextId - 1)).any fun l => l.since == some 0) = true ∧ 0 + guardNs s ≤ 1000000 ∧ s.now ≤ 1000000 := by
  decide +kernel

theorem witness_callee_forms :
    slotOfAsid taken (launchAt taken 0).asid = some 0 ∧ (ctxOf taken 0).state = 0 := by decide +kernel

/-- A block whose only warp has ended. -/
theorem witness_block_retire :
    mayRetire (updBlock resting 0 fun b => { b with ended := 1 }) 0 = true ∧
      (let s := { resting with blocks := [(calleeBase, { Block.blank with warps := [0], ended := 1 })] }
       mayRetire s calleeBase = true) := by decide +kernel

/-- PRIO, LOG2N and the flags of a write of LQ_CONFIG for address space 0. -/
def config (prio log2n : Nat) (enable devlaunch : Bool) : BitVec 64 :=
  BitVec.ofNat 64 (packFields [(prio, 42), (log2n, 38), (b2n enable, 37), (b2n devlaunch, 36)])

def configFields (v : BitVec 64) : Nat × Nat × Nat × Bool × Bool :=
  (bitsOf v.toNat 63 48, bitsOf v.toNat 47 42, bitsOf v.toNat 41 38, bitOf v.toNat 37, bitOf v.toNat 36)
def enabled : LQueue := { LQueue.reset with enable := true, asid := 0, log2n := 4, prio := 47 }

/-- Queues for the writes of LQ_CONFIG, LQ_BASE and LQ_TAIL: one disabled and one enabled. -/
theorem witness_queue_states :
    queueOf (drainHost resting) (3 % 256) = LQueue.reset ∧ LQueue.reset.enable = false ∧ (drainHost resting).house.bootst = 0 ∧
      (let s := { resting with queues := [(3, enabled)] }
       queueOf (drainHost s) (3 % 256) = enabled) := by decide +kernel

/-- Writes of LQ_CONFIG that are taken, and each kind that is refused, at the ends of their ranges. -/
theorem witness_queue_config :
    ([(config 47 4 false true, (0, 47, 4, false, true)), (config 47 4 true false, (0, 47, 4, true, false)),
        (config 48 4 true false, (0, 48, 4, true, false)), (config 47 3 true false, (0, 47, 3, true, false)),
        (config 47 5 false false, (0, 47, 5, false, false))].all fun q => configFields q.1 == q.2) = true ∧
      0 = enabled.asid ∧ 4 = enabled.log2n ∧ false = enabled.devlaunch ∧ 5 ≠ enabled.log2n := by decide +kernel

theorem witness_queue_base_and_tail :
    (0x11FFF : BitVec 64) / 4096 * 4096 = 0x11000 ∧ (0x11000 : BitVec 64) ≠ enabled.base ∧ enabled.devlaunch = false ∧
      ((16 : BitVec 32) - enabled.head).toNat ≤ 2 ^ enabled.log2n ∧ 2 ^ enabled.log2n < ((17 : BitVec 32) - enabled.head).toNat := by
  decide +kernel

/-! Translation, home slices. -/

theorem witness_translation_events :
    slotOfAsid taken 0 = some 0 ∧ (drainHost resting).hostWrites = [] ∧ (ctxOf (drainHost resting) (1 % 64)).heldFaults = [] ∧
      ((ctxOf (drainHost resting) (1 % 64)).frhead - (0 : BitVec 32)).toNat ≤ 2 ^ ringLog (ctxOf (drainHost resting) (1 % 64)).frlog ∧
      2 ^ ringLog (ctxOf (drainHost resting) (1 % 64)).frlog < ((ctxOf (drainHost resting) (1 % 64)).frhead - (1 : BitVec 32)).toNat ∧
      (let f : HeldFault := { warp := 0, va := 0x10000, kind := 0, cause := 0, lanes := 1, asid := 0, slot := 0, saved := none }
       let s := updCtx resting 1 fun c => { c with frhead := 16, heldFaults := [f] }
       (ctxOf (drainHost s) (1 % 64)).heldFaults = [f] ∧ ((16 : BitVec 32) - 1).toNat < 2 ^ ringLog 4 ∧ (ctxOf s (1 % 64)).frhead = 16 ∧
         hostRingFull (ctxOf s (1 % 64)) = true) ∧
      (let s := updCtx resting 1 fun c => { c with depoch := true, valid := true, asid := 5 }
       (ctxOf s (1 % 64)).depoch = true ∧ (ctxOf s (1 % 64)).valid = true ∧ contextBusy s (1 % 64) = false) := by decide +kernel

theorem witness_store_split :
    (splitOf resting 1).apply = false ∧ splitRefused (splitRequest (splitOf resting 1) ((0x0000821000000000 : BitVec 64) ||| 1).toNat) = true ∧
      splitRefused (splitRequest (splitOf resting 1) ((0x0000844000000000 : BitVec 64) ||| 1).toNat) = false ∧
      (let s := { resting with splits := [(1, { StoreSplit.reset with apply := true })] }
       (splitOf s 1).apply = true ∧ quiescent s 1 = true) := by decide +kernel

def leased (c : Nat) : State := { resting with leases := [{ line := 0x200, core := c, granted := [] }] }

/-- A contract of launch 0 whose window of die 0 ended with this many misses. -/
def contract (misses : Nat) : Contract :=
  { launch := 0, asid := 0, ltag := 0, index := 0, base := 0x10000, len := 1, cls := .low, report := true, ntreq := true, rank := 3,
    pinned := false, byReside := false, frames := [1], pinFrames := [], window := [], due := [(0, misses)] }

def erring (n : Nat) : State := setBank resting 3 { bankOf resting 3 with errors := List.replicate n 0 }

theorem witness_home_events :
    storedAt resting 0x10000 = true ∧ storedAt resting (0x200 * 128) = true ∧ heldAt resting 0x200 = false ∧ 0x10000 % MSize.b64.bytes = 0 ∧
      AtomOp.add.sizes.contains .i64 = true ∧
      (slotOfAsid resting 0 = some 0 ∧ (ctxOf resting 0).gen.toNat = 0 ∧ (ctxOf resting 0).gen.toNat ≠ 7 ∧ coreRuns resting (0 % 256) = true) ∧
      slotOfAsid resting 1 = none ∧ coreRuns (updIsland resting 0 fun x => { x with point := 0 }) (0 % 256) = false ∧
      (let s := { resting with contracts := [contract 5000] }
       (s.contracts.find? fun c => c.rank == 3) = some (contract 5000) ∧ ((contract 5000).due.find? fun w => w.1 == 0) = some (0, 5000) ∧
         windowReport (contract 5000).cls windowSize 5000 = none) ∧
      (let s := { resting with contracts := [contract 61440] }
       (s.contracts.find? fun c => c.rank == 3) = some (contract 61440) ∧ ((contract 61440).due.find? fun w => w.1 == 0) = some (0, 61440) ∧
         windowReport (contract 61440).cls windowSize 61440 = some 0 ∧ slotOfAsid s (contract 61440).asid = some 0 ∧
         ((ctxOf s 0).crhead - (ctxOf s 0).crtail).toNat ≠ 2 ^ ringLog (ctxOf s 0).crlog ∧
         (let t := updCtx s 0 fun c => { c with crhead := BitVec.ofNat 32 (2 ^ ringLog c.crlog) }
          ((ctxOf t 0).crhead - (ctxOf t 0).crtail).toNat = 2 ^ ringLog (ctxOf t 0).crlog)) ∧
      (let e := resting.sectors.getD .clean (0x10000 / 64)
       (readSector (chargeHome (reachHome resting (some (0 % 256)) 0x10000) (0 % 256) 0x10000) (some (0 % 256)) 0x10000 8
         (if e.nl = 8 then 0 else e.nl) 2).2.isPoison = false) ∧
      ((bankOf (erring 16) 3).failed = false ∧ 16 ≤ bankErrors (erring 16) 3) ∧
      (let s := setBank resting 3 { bankOf resting 3 with failed := true }
       (bankOf s 3).failed = true ∧ (bankOf s 3).spared = false ∧ spareUsed s (3 / 9) = false) ∧
      leaseOn resting 0x200 = none ∧ agentRuns resting (0 % 384) = true ∧ (holderRoom resting (0 % 384) 0x200).2 = true ∧
      agentRuns resting (300 % 384) = true ∧ (holderRoom resting (300 % 384) 0x200).2 = true ∧
      ((leaseOn (leased 0) 0x200).any fun l => l.core == 0) = true ∧
      ((leaseOn (leased 1) 0x200).any fun l => l.core != 0) = true ∧ agentRuns (leased 1) 0 = true := by
  decide +kernel

/-! The network and the host link. -/

/-- A channel from die 1 to die 0 goes by link 1. -/
def far (w : List NetEntry) : Chan := { chan w with sender := 64 * 64, place := 64 }

/-- Arrivals: sound ones, one whose shown identity is not its own, out of sequence, over no link and over one. -/
theorem witness_flit_arrivals :
    (let c := chan [entry1 false]
     (withChan c).chans.find? 4 = some c ∧ c.window = [entry1 false] ∧ c.wait = none ∧ (entry1 false).lost = false ∧
       (entry1 false).shownSeq = c.expect ∧ (entry1 false).identOk (takeTurn (withChan c) 4) c.launch = true ∧
       (entry1 false).identOk (logIdent (takeTurn (withChan c) 4) (c.target (takeTurn (withChan c) 4)) .fixed) c.launch = true ∧
       c.links = [] ∧ c.stuck = true) ∧
    (let e := { entry1 false with seq := 1 }
     e.shownSeq ≠ (chan [e]).expect) ∧
    (let e := { entry1 false with seen := some 0x0001000000000000 }
     e.identOk (takeTurn (withChan (chan [e])) 4) 0 = false) ∧
    (far [entry1 false]).links.getLast? = some 1 ∧
    (∀ c ∈ [{ chan [entry1 true] with wait := some 3 }, { far [entry1 true] with wait := some 3 }],
      (withChan c).chans.find? 4 = some c ∧ c.wait.isSome = true ∧ (withChan c).injectors = []) ∧
    (let c := { chan [entry1 false] with probing := true }
     (withChan c).chans.find? 4 = some c ∧ c.probing = true) := by decide +kernel

theorem witness_host_link : 0x1000 < barZero ∧ barZero ≤ barZero + 8 ∧
    (let s := { resting with egress := [{ pa := 0xF000000000000, data := [1] }] }
     s.egress = { pa := 0xF000000000000, data := [1] } :: []) := by decide +kernel

/-- A peer whose address space is admitted, and one whose is not; its accesses; a line that another leases is no premise. -/
theorem witness_peers :
    let s := { resting with admitRegs := [(0, 1)] }
    let d := readSector s (some 256) (peerLocal 0x10100) 8 (ownNl s (peerLocal 0x10100)) 2
    admittedAs s 0 0 = some 0 ∧ admittedAs resting 0 0 = none ∧ s.injectors = [] ∧
      storedAt s (peerLocal 0x10100) = true ∧ peerLocal 0x10100 % MSize.b64.bytes = 0 ∧ d.2.isPoison = false ∧
      AtomOp.add.sizes.contains .i64 = true ∧ MSize.i64.bytes = MSize.b64.bytes ∧
      leNat d.2.data = (0 : BitVec 64).toNat % 2 ^ (8 * MSize.b64.bytes) ∧ leNat d.2.data ≠ (1 : BitVec 64).toNat % 2 ^ (8 * MSize.b64.bytes) ∧
      leaseOn s (peerLocal 0x10100 / 128) = none := by decide +kernel

/-- An injector that fires at its last flit, in each of its modes; one that a resend of a waiting head passes. -/
theorem witness_injectors :
    (let j : Injector := { injectorOf resting 1 with arm := true, nth := 1 }
     let c := { far [entry1 false] with wait := some 3 }
     let s := setInjector (withChan c) 1 j
     s.chans.find? 4 = some c ∧ (injectorOf s 1).arm = true ∧ (injectorOf s 1).count + 1 = (injectorOf s 1).nth ∧ c.wait.isSome = true ∧
       c.links.contains 1 = true) ∧
    (∀ mode ∈ [0, 1, 2], ∀ precrc ∈ [false, true], ∀ n ∈ [2, 5],
      let j : Injector := { injectorOf resting 1 with arm := true, nth := 3, count := 1, mode := mode, precrc := precrc }
      let s := setInjector resting 1 j
      Passed.clean.lost = false ∧ injectorOf s 1 = j ∧ j.count < j.nth ∧ j.nth ≤ j.count + n) ∧
    resting.peersDown.contains 3 = false := by decide +kernel

/-! Contexts, power. -/

def savedRow : Saved :=
  { launch := 0, linear := 0, core := 0, slot := 0, entry := none, macFirst := 0, macs := 0, spBase := 0, spSize := 0, ntile := 0,
    wslots := [0], killed := false, ended := [], awayFlags := [], owed := [], late := [] }

theorem witness_context_events :
    (ctxOf resting (0 % 64)).state = 0 ∧
      (ctxOf (updCtx resting 0 fun c => { c with state := 1 }) (0 % 64)).state = 1 ∧
      (ctxOf (updCtx resting 0 fun c => { c with state := 2 }) (0 % 64)).state = 2 ∧
      (let s := { updCtx resting 0 (fun c => { c with state := 3 }) with blocks := [], warps := [], saved := [savedRow] }
       readmittable s (0 % 64) = some savedRow) ∧
      (let r : Scrub := { Scrub.reset with sbusy := true, scount := 2, entries := [0x180DC, 0x980DC] }
       r.sbusy = true ∧ r.sdone + 1 < r.scount ∧ r.entries[r.sdone]? = some 0x180DC ∧ bitsOf (0x180DC : Word64).toNat 1 0 = 0 ∧
         leafFrame (0x180DC : Word64).toNat ≤ 0x1FFFF ∧ 0x1FFFF < leafFrame (0x180DC : Word64).toNat + 65536) ∧
      (let r : Scrub := { Scrub.reset with sbusy := true, scount := 2, sdone := 1 }
       r.sbusy = true ∧ r.scount ≤ r.sdone + 1) ∧
      resting.recovery = false ∧ ({ resting with house := { resting.house with bootst := 2 } } : State).recovery = true := by decide +kernel

def moving : Move := { logical := 0, source := 0, target := 63, byMigr := true, kills := [] }

theorem witness_import_refused : importIdle (drainHost resting) (0 % 64) = false := by decide +kernel

/-- Both sides of every condition: a cap within its range and at its ends, and beyond them. -/
theorem witness_power_events :
    (300 ≤ 300 ∧ 300 ≤ 2900 ∧ 300 ≤ 300 ∧ 300 ≤ 300) ∧ ¬(300 ≤ 2901 ∧ 2901 ≤ 2900 ∧ 300 ≤ 300 ∧ 300 ≤ 2901) ∧
      (islandOf resting (0 % 64)).nt = false ∧ islandActive resting (0 % 64) = true ∧
      (islandOf (updIsland resting 0 fun x => { x with nt := true }) (0 % 64)).nt = true ∧
      (let s := updIsland resting 0 fun x => { x with grant := some 10 }
       overGrant s { package := 5000, islands := [(0, 2000)] } 0 = true ∧ overGrant s { package := 0, islands := [(0, 2000)] } 0 = false ∧
         overGrant resting { package := 5000, islands := [(0, 2000)] } 0 = false) := by decide +kernel

theorem witness_device_events :
    (let a : MoveAsk := { core := 0, target := 63, warp := none }
     let s := { resting with moveAsks := [a] }
     dueAsk s (coreDie 0) = some a ∧ a.core = 0 ∧ (s.blocks.any fun b => b.2.core == 0) = true) ∧
      (let s := { resting with moves := [moving] }
       s.moves.find? (·.logical == 0) = some moving ∧ coreAtRest s 0 = true) ∧
      resting.house.banks.length = 2 := by decide +kernel


/-! ### Steps, frames, traps -/

/-- A word reserved by the opcode map, at the same place. -/
def unread : State := State.reset.withFetchWord 64 0x87E0080400000000

theorem witness_step :
    let add : Instr := .add u .n32 false (.v 1) (.v 2) (.v 3)
    (lab add).agenda = [] ∧ (issuer (lab add)).map decodeAt = some (some add) ∧
      unread.agenda = [] ∧ (issuer unread).map decodeAt = some none ∧
      ({ resting with agenda := [.event .hostEgress] } : State).agenda = .event .hostEgress :: [] ∧ Instr.hostEgress.isEvent = true ∧
      (let s := { lab add with focus := none, agenda := [.issue 0 0] }
       midRun { s with agenda := [] } 0 0 = true ∧ (issuer { s with agenda := [], focus := some (0, 0) }).map decodeAt = some (some add)) ∧
      (let s := { resting with hostWrites := [{ pa := 0x10000, data := [1], relaxed := false }] }
       s.agenda = [] ∧ s.focus = none ∧ s.hostWrites ≠ []) ∧
      (let s := { resting with fullQueues := [0] }
       s.agenda = [] ∧ s.focus = none ∧ s.hostWrites = [] ∧ s.fullQueues ≠ []) ∧
      (let s := { lab add with focus := none }
       s.agenda = [] ∧ s.focus = none ∧ s.hostWrites = [] ∧ s.fullQueues = [] ∧ runToResume s = some (0, 0) ∧
         (issuer { s with focus := some (0, 0) }).map decodeAt = some (some add)) ∧
      (resting.agenda = [] ∧ resting.focus = none ∧ resting.hostWrites = [] ∧ resting.fullQueues = [] ∧ runToResume resting = none ∧ nextAuto resting = some (.blockFetch 0 0)) ∧
      State.reset.agenda = [] ∧ State.reset.focus = none ∧ State.reset.hostWrites = [] ∧ State.reset.fullQueues = [] ∧ runToResume State.reset = none ∧ nextAuto State.reset = none := by decide +kernel

/-- What a word leaves, when it answers: its warp stays and no trap opens or closes a handler. -/
def stays (k : Instr) (s : State) : Bool :=
  match issuer s, exec k s with
  | some i, .next u => !i.x.stopped && (u.warps.find? i.w).any fun y => y.handler.isSome == i.x.handler.isSome
  | _, _ => false

theorem witness_register_frame :
    ([.add u .n32 false (.v 1) (.v 2) (.v 3), .fadd u .f32 ne (.v 1) (.v 2) (.v 3), .mov u .b32 (.s 4) (.imm 3),
        .iset u .n32 .lt .none (.p 2) (.v 2) (.v 3) 0].all fun k =>
      (registerWord k).any fun ws => meets k ws (fun _ i m => !i.sends ws m) (lab k) && stays k (lab k)) = true := by decide +kernel

/-- SETS of the user's FLAGS and MTGT, and in a handler of a register of its own and of what its trap preserved. -/
theorem witness_sets_frame :
    (let sets (code : BitVec 8) (s : State) : Bool :=
       meets (.sets u .b32 code (.v 2)) { specialSpec 0x5E u code 78 with unclean := true, reads := srcRegs false (.v 2) }
         (fun _ _ _ => true) s && stays (.sets u .b32 code (.v 2)) s
     ([14, 17].all fun code => sets code (lab (.sets u .b32 code (.v 2)))) &&
       ([64, 75, 76, 78].all fun code => sets code (lab (.sets u .b32 code (.v 2)) (sup 0)))) = true := by decide +kernel

/-- A guard that no lane meets. -/
theorem witness_no_lanes :
    let g : Guard := { p := 3, neg := false }
    ([.add g .n32 false (.v 1) (.v 2) (.v 3), .gets g .b32 (.v 1) 64, .ld g .b32 .none .rlx .dflt 8 at4].all fun k =>
      ((registerWord k).or ((systemWord k).or ((accessWord k).map (·.ws)))).any fun ws =>
        match issuer (lab k) with
        | some i => (i.begins ws (lab k)).isSome == !ws.sys && i.lanes ws == 0
        | none => false) = true := by decide +kernel

/-- A store of four bytes at 0x10000 (one lane stores), and the bytes on both sides of them. -/
def onePage : Instr := .sts u .b32 .none .rlx .dflt 8 at4

theorem witness_store_frame : ∀ a ∈ [0xFFFF, 0x10004, 0x10100],
    Reached onePage ((memSpec 0x63 u at4.base (uniRegs 8 4) []).ordered .rlx) storeKind 4 (fun _ k => leadLane k) (fun i => i.x.effAddr at4)
      (fun t r i => (∀ q ∈ r, q.2.2.layoutAt 4 a 0) ∧ (∀ q ∈ r, q.2.2.spares t i.x.ctx 4 a) ∧ standsIn t i.x.core a 0)
      (world onePage (page 2)) := by
  intro a ha
  have key : Reached onePage ((memSpec 0x63 u at4.base (uniRegs 8 4) []).ordered .rlx) storeKind 4 (fun _ k => leadLane k) (fun i => i.x.effAddr at4)
      (fun t r i => r.map (·.2.2) = [.phys 0x10000 0x180DF] ∧ dirtyIndex 0x10000 = some 1 ∧ (ctxOf t i.x.ctx).dbmap = 0 ∧
        t.egress = [] ∧ t.injectors = [] ∧ ∀ a ∈ [0xFFFF, 0x10004, 0x10100], unserved t a = false ∧ (t.sectors.getD .clean (a / 64)).flips = [] ∧ (t.sectors.getD .clean (a / 64)).nl = 8 ∧
          (t.l1.filter fun l => l.core == i.x.core && l.line == a / 128) = []) (world onePage (page 2)) := reached (by decide +kernel)
  obtain ⟨i, t, r, h1, h2, h3, h4, h5, h6, h7, hd, he, hj, h8⟩ := key
  have hr : ∀ q ∈ r.2, q.2.2 = .phys 0x10000 0x180DF := by
    intro q hq
    have : q.2.2 ∈ r.2.map (·.2.2) := List.mem_map.2 ⟨q, hq, rfl⟩
    simpa [h6] using this
  refine ⟨i, t, r, h1, h2, h3, h4, h5, fun q hq => ?_, fun q hq => ?_, ?_⟩
  · rw [hr q hq]
    exact ⟨by decide, fun _ => by decide⟩
  · rw [hr q hq]
    simp only [List.mem_cons, List.not_mem_nil, or_false] at ha
    refine ⟨by omega, fun k hk => ?_⟩
    obtain rfl : 1 = k := by simpa [h7] using hk
    rw [hd]
    omega
  · obtain ⟨k1, k2, k3, k4⟩ := h8 a ha
    exact ⟨k1, by simp [he], by simp [hj], k2, .inl k3, by simp [k4]⟩

theorem witness_access_answers : stays onePage (world onePage (page 2)) = true := by decide +kernel

theorem witness_landing_frame :
    (match exec (.pendingWriteLands 0 0) (resting fun x => { x with pend := [pending none] }) with
     | .next t => (t.warps.find? 0).isSome
     | _ => false) = true := by decide +kernel

/-- The walk for the page at 0x10000 ends in the leaf at 0x23008, and the bytes around it are others. -/
theorem witness_translation_frame :
    let s := tables 0x180DF resting
    noFlips s ∧ s.races = [] ∧ slotOfAsid s 0 = some 0 ∧
      ∀ at_ e size, (walkBy s (some (coreDie 0)) 0 0x10000).2 = .leaf at_ e size → ∀ a ∈ [0x23007, 0x23010], a < at_ ∨ at_ + 8 ≤ a := by
  refine ⟨⟨fun e h => (List.not_mem_nil h).elim, fun e h => (List.not_mem_nil h).elim⟩, by decide +kernel, by decide +kernel, fun at_ e size h a ha => ?_⟩
  have key : (walkBy (tables 0x180DF resting) (some (coreDie 0)) 0 0x10000).2 = .leaf 0x23008 0x180DF .p64K := by decide +kernel
  rw [key] at h
  cases h
  simp only [List.mem_cons, List.not_mem_nil, or_false] at ha
  omega

theorem witness_card_frame :
    let s := world (.cpy u 9 4) (sreg 4 0x7FC0)
    stays (.cpy u 9 4) s = true ∧
      (match issuer s, exec (.cpy u 9 4) s with
       | some i, .next t => (i.begins (cardSpec 0x80 u 9 4 []) s).any fun b => t.cards.length == b.cards.length + 1
       | _, _ => false) = true := by decide +kernel

theorem witness_control_frame :
    ([.exit { p := 3, neg := false }, .bra u .all 0, .brx u false 4, .call u 0, .callv u false 4, .ret { p := 3, neg := false }].all fun k =>
      stays k (lab k)) = true := by decide +kernel

/-- Handlers: entering one with a handler installed, none installed, and in one already; and leaving one. -/
theorem witness_traps :
    let s := updCtx resting 0 fun c => { c with hvalid := true, handler := 0x40000 }
    let x := warpAt s 0
    (s.warps.find? 0 = some x ∧ x.handler = none ∧ (ctxOf s x.ctx).hvalid = true ∧ 0 < x.table.splits.length ∧ aFault.lanes ≠ 0) ∧
      ((ctxOf resting 0).hvalid = false ∧ (warpAt resting 0).stopped = false) ∧
      ((warpAt (resting (sup 0)) 0).handler.isSome = true ∧ (warpAt (resting (sup 0)) 0).stopped = false) := by decide +kernel

theorem witness_trap_return :
    let inside (h : Handler) : State := resting fun x => { x with handler := some h }
    let h0 := opened 0
    (((returnFromTrap (inside h0) 0).warps.find? 0).isSome = true) ∧
      ({ h0.table with splits := [] } : DivTable).valid = [] ∧ ((inside { h0 with table := { h0.table with splits := [] } }).warps.find? 0).isSome = true ∧
      (let h := { h0 with tword := true }
       h.table.valid = [h.tsplit] ∧ h.tword = true ∧ (warpAt (inside h) 0).hostFault = none ∧ (warpAt (inside h) 0).hostHeld = false ∧
         (h.table.splits.getD h.tsplit .none).mask &&& (warpAt (inside h) 0).live ≠ 0) := by decide +kernel

theorem witness_privilege :
    let k : Instr := .gets u .b32 (.v 1) 64
    (systemWord k).any (fun ws => match issuer (lab k) with
      | some i => i.x.handler.isNone && !i.illegal ws
      | none => false) = true := by decide +kernel

theorem witness_memory_form : State.reset.mem.wf = true ∧ (match step State.reset with | .next _ => true | _ => false) = true := by
  decide +kernel

theorem witness_encodes :
    let k : Instr := .kvput u true 8 4 10
    k.wf = true ∧ k.isEvent = false := by decide

/-! ### Memory, control and traps: single steps -/

def after (s : State) : State := match step s with | .next t => t | _ => State.reset

-- R276: ACT 64, ACGROW of 32 returns 64
theorem test_acgrow : (let s := world (.acgrow u 7 32)
    let t := after (updBlock s 0 fun b => { b with tiles := List.range 64 })
    ((warpAt t 0).getS 7, (blockAt t 0).tiles.length)) = (64, 96) := by decide +kernel
-- R276: then ACFREE of 16 leaves tiles 0 to 79, and returns 0 as a pending write (R273)
theorem test_acfree : (let t := after (updBlock (world (.acfree u 7 16) (sreg 7 5)) 0 fun b => { b with tiles := List.range 96 })
    let r := match exec (.pendingWriteLands 0 0) t with | .next r => r | _ => State.reset
    ((warpAt t 0).rawS 7, (warpAt r 0).getS 7, (blockAt t 0).tiles)) = (5, 0, List.range 80) := by decide +kernel
-- R4: little-endian bytes; R259: one access
theorem test_sts_bytes : (let t := after (world (.sts u .b32 .none .rlx .nol1 8 at4) (page 2 ∘ sreg 8 0x11223344))
    [t.mem.byte 0x10000, t.mem.byte 0x10003, t.mem.byte 0x10004]) = [0x44, 0x11, 0] := by decide +kernel
-- R258, R95: a load's value is pending when the word completes, and lands in the lane that loaded it
theorem test_ld_pends_and_lands :
    (let s := world (.ld u .b32 .none .rlx .dflt 8 at4) (page 2)
     let t := after { s with mem := s.mem.writeNat 0x10010 4 77 }
     let r := match exec (.pendingWriteLands 0 0) t with | .next r => r | _ => State.reset
     (((warpAt t 0).getV 8).lane 1, ((warpAt r 0).getV 8).lane 1, ((warpAt r 0).getV 8).lane 2)) = (0, 77, 0) := by decide +kernel
-- R261: every lane's RED of a scratchpad word adds up
theorem test_red_adds_every_lane : (let t := after (world (.red u .add .i32 .block .rlx wordAt4 10) (wide 2 0xFFFF000000000040 ∘ v 10 3))
    t.mem.readNat (spadAddr 0 0x40) 4) = 96 := by decide +kernel
-- R262: CAS writes only where the old value equals
theorem test_cas_compares :
    (let s := world (.cas u .b32 .block .rlx 8 wordAt4 10) (pad 2 ∘ lanesV 10 (fun l => l) ∘ v 11 9)
     let t := after s
     (t.mem.readNat (spadAddr 0 0) 4, t.mem.readNat (spadAddr 0 16) 4)) = (9, 0) := by decide +kernel
-- R194: an odd address of a word of four bytes is MISALIGN, code 8, with nothing written
theorem test_misaligned_store_traps :
    (let s := updCtx (world (.st u .b32 .none .rlx .dflt 8 at4) (wide 2 0x10002 ∘ v 8 1)) 0 fun c => { c with hvalid := true, handler := 0x40000 }
     let t := after s
     ((warpAt t 0).fault.toNat / 2 ^ 24, (warpAt t 0).handler.isSome, t.mem.byte 0x10002)) = (FaultName.misalign.code, true, 0) := by decide +kernel
-- R393: TRAP's immediate is INFO
theorem test_trap_enters :
    (let t := after (updCtx (lab (.trap u 0x1234)) 0 fun c => { c with hvalid := true, handler := 0x40000 })
     ((warpAt t 0).fault.toNat % 65536, ((warpAt t 0).splitAt 0).pc, (warpAt t 0).cls)) = (0x1234, 0x40000, 3) := by decide +kernel
-- R391: with no handler installed the warp is killed
theorem test_trap_kills : ((after (lab (.trap u 1))).warps.find? 0).isNone = true := by decide +kernel
-- R99: a branch taken by every lane goes to the header at its offset in words
theorem test_bra_target : ((ran (lab (.bra u .all 4))).splitAt 0).pc = 0x1020 := by decide +kernel
theorem test_exit_ends_lanes : (ran (lab (.exit { p := 2, neg := false }) (p 2 0xFF))).live = 0xFFFFFF00 := by decide +kernel
-- R71: a block's header is fetched before its words
theorem test_block_fetch : (match exec (.blockFetch 0 0) resting with
    | .next t => ((warpAt t 0).splitAt 0).blk.map (·.words)
    | _ => none) = some [0x00E0000000000000] := by decide +kernel
-- R292: a row of 64 bytes
theorem test_cpy_completes : (let s := withCard running
    let t := match exec (.cardComplete 9) { s with mem := s.mem.writeNat 0x10020 4 5 } with | .next t => t | _ => State.reset
    (t.mem.readNat (spadAddr 0 0x20) 4, t.cards.length)) = (5, 0) := by decide +kernel

end Sys2Proof.Tests
end

section
/-! SUPPORT. The events of launches (R53 to R59, R67, R70, R444), said once for each operation of the admission unit, and the
statement that is assembled from them. -/

namespace Sys2Proof.Machine

/-! ### The events and the operations that they are -/

theorem exec_of_operation {i : Instr} {s t u : State} (operation : exec i s = .next t) (result : t = u) : exec i s = .next u :=
  result ▸ operation

theorem exec_lqEntryTake (q : Nat) (s : State) : exec (.lqEntryTake q) s = .next (takeEntry s q) := rfl

theorem exec_placementDecision (s : State) : exec .placementDecision s = .next (decide1 (considerOrder s) s) := rfl

theorem exec_calleeWarpForm (k : Nat) (die : Fin 4) (s : State) :
    exec (.calleeWarpForm k die) s = .next (if contextRuns s (launchAt s k) then formCallee s k die.val else s) := rfl

theorem exec_blockRetire (b : Nat) (s : State) : exec (.blockRetire b) s = .next (retireBlock s b) := rfl

theorem exec_lqConfigWrite (q : Nat) (v : BitVec 64) (s : State) :
    exec (.lqConfigWrite q v) s = .next (writeLqConfig (drainHost s) (q % 256) v.toNat) := rfl

theorem exec_lqBaseWrite (q : Nat) (v : BitVec 64) (s : State) :
    exec (.lqBaseWrite q v) s = .next (writeLqBase (drainHost s) (q % 256) v) := rfl

theorem exec_lqTailWrite (q : Nat) (v : BitVec 32) (s : State) :
    exec (.lqTailWrite q v) s = .next (writeLqTail (drainHost s) (q % 256) v) := rfl

theorem exec_term (q : Nat) (s : State) : exec (.term q) s = .next (terminateQueue (drainHost s) (q % 256)) := rfl

/-! ### Taking an entry (R56, R69) -/

/-- A launch that has been read, held under the number that is next. -/
def holdLaunch (s : State) (t : LaunchText) : State :=
  { s with launches := s.launches.put s.nextId t.l, nextId := s.nextId + 1 }

theorem takeLaunch_accepted {s : State} {q : Nat} {t : LaunchText} (h : launchError (holdLaunch s t) s.nextId t = none) :
    takeLaunch s q t = consumeEntry (holdLaunch s t) q (some s.nextId) := by
  unfold takeLaunch holdLaunch at *
  dsimp only
  rw [h]

theorem takeEntry_of_launch_read {s s1 s2 : State} {q entry : Nat} {t : LaunchText}
    (enabled : (queueOf s q).enable = true) (entryWaits : (queueOf s q).head ≠ (queueOf s q).tail)
    (admitted : allAdmitted s q = true)
    (entryRead : unitReadNat s (queueOf s q).asid
      ((queueOf s q).base.toNat + 8 * ((queueOf s q).head.toNat % 2 ^ (queueOf s q).log2n)) 8 = (s1, some entry))
    (serial : bitOf entry 0 = false ∨ lastEnded s (queueOf s q) = true) (reserved : bitsOf entry 6 1 = 0)
    (launchRead : readLaunch s1 q (queueOf s q).asid (queueOf s q).prio (entry / 128 * 128) (bitOf entry 0) = (s2, .ok t))
    (noSplit : splitPends s t.l = false) :
    takeEntry s q = takeLaunch s2 q t := by
  have goesOn : (bitOf entry 0 && !lastEnded s (queueOf s q)) = false := by
    rcases serial with h | h <;> simp [h]
  have considered : (!(queueOf s q).enable || (queueOf s q).head == (queueOf s q).tail || !allAdmitted s q) = false := by
    simp only [enabled, admitted, beq_eq_false_iff_ne.mpr entryWaits, Bool.not_true, Bool.or_self]
  simp only [takeEntry, considered, entryRead, goesOn, reserved, launchRead, noSplit, bne_self_eq_false, Bool.false_eq_true,
    ↓reduceIte]

/-! ### Placement decisions (R58) -/

/-- The placement of a launch's head gang on the dies that no hold of another gang keeps it off. -/
def tryHead (s : State) (k : Nat) : Option State :=
  placeWithCallees { sets := true } s k (gangOf (launchAt s k) (launchAt s k).next) fun d => !heldOff s k d

/-- A head gang that cannot be placed has been considered: its wait begins unless it had begun before. -/
def passOver (s : State) (k : Nat) : State := updLaunch s k fun l => { l with since := some (l.since.getD s.now) }

theorem decide1_cons_placed {s u : State} {k : Nat} (ks : List Nat) (h : tryHead s k = some u) :
    decide1 (k :: ks) s = admitGang u k (gangOf (launchAt s k) (launchAt s k).next) := by
  unfold tryHead at h
  simp only [decide1, h]

theorem decide1_cons_passed {s : State} {k : Nat} (ks : List Nat) (h : tryHead s k = none) :
    decide1 (k :: ks) s = decide1 ks (passOver s k) := by
  unfold tryHead at h
  simp only [decide1, h, passOver]

/-- Gangs that cannot be placed, each as those before it leave the state, are passed over one after another. -/
theorem decide1_append_passed {before : List Nat} (rest : List Nat) {s : State}
    (h : ∀ a j c, before = a ++ j :: c → tryHead (a.foldl passOver s) j = none) :
    decide1 (before ++ rest) s = decide1 rest (before.foldl passOver s) := by
  induction before generalizing s with
  | nil => rfl
  | cons k ks ih =>
    have hk : tryHead s k = none := h [] k ks rfl
    have hks : ∀ a j c, ks = a ++ j :: c → tryHead (a.foldl passOver (passOver s k)) j = none :=
      fun a j c e => h (k :: a) j c (by rw [e, List.cons_append])
    rw [List.cons_append, decide1_cons_passed _ hk, ih hks, List.foldl_cons]

/-! ### Holds and callee warps (R59, R67) -/

theorem exec_gangHeld_due {s : State} {k t t0 : Nat} {l : Launch} (hl : s.launches.find? k = some l) (hs : l.since = some t0)
    (due : t0 + guardNs s ≤ t) (later : s.now ≤ t) :
    exec (.gangHeld k t) s = .next { s with now := t, launches := s.launches.put k { l with held := true } } := by
  change execGangHeld k t s = _
  have clock : Nat.max s.now t = t := Nat.max_eq_right later
  have guardKept : guardNs (setNow s t) = guardNs s := rfl
  simp [execGangHeld, updLaunch, Tbl.modify, guardKept, clock, hl, hs, due]

theorem contextRuns_of_state {s : State} {l : Launch} {c : Nat} (hc : slotOfAsid s l.asid = some c)
    (h : (ctxOf s c).state = 0 ∨ (ctxOf s c).state = 3) : contextRuns s l = true := by
  simpa [contextRuns, hc] using h

/-! ### Retirement (R444) -/

/-- A block's writes are performed, its resources freed, and its launch counts it. -/
def releaseBlock (s : State) (b : Nat) : State :=
  let x := blockAt s b
  updLaunch (freeBlock (mergeLate (drainEgress (releaseL1 s x.core)) x) b) x.launch fun l =>
    { l with nret := l.nret + 1, nflt := if x.killed = true then Nat.min (l.nflt + 1) 65535 else l.nflt }

theorem retireBlock_callee {s : State} {b : Nat} (h : mayRetire s b = true) (hb : calleeBase ≤ b) :
    retireBlock s b = finishLaunch (releaseBlock s b) (blockAt s b).launch := by
  simp only [retireBlock, releaseBlock, h, Nat.not_lt.mpr hb, ↓reduceIte]

theorem retireBlock_grid {s : State} {b : Nat} (h : mayRetire s b = true) (hb : b < calleeBase) :
    retireBlock s b =
      finishLaunch (dropClusterBarriers (releaseBlock s b) (blockAt s b).launch
        ((launchAt (releaseBlock s b) (blockAt s b).launch).clusterOf (blockAt s b).linear)) (blockAt s b).launch := by
  simp only [retireBlock, releaseBlock, h, hb, ↓reduceIte]

/-! ### The queue registers (R53 to R55, R451) -/

/-- A write of the configuration word may enable the queue: its fields are in range and the configuration record stands. -/
def configGood (s : State) (v : Nat) : Prop := bitsOf v 47 42 ≤ 47 ∧ 4 ≤ bitsOf v 41 38 ∧ s.house.bootst = 0

/-- A write of the configuration word keeps the fields that an enabled queue does not let change. -/
def configKeeps (r : LQueue) (v : Nat) : Prop := bitsOf v 63 48 = r.asid ∧ bitsOf v 41 38 = r.log2n ∧ bitOf v 36 = r.devlaunch

/-- The writes of the configuration word that R54 and R451 turn away. -/
def configRefused (s : State) (q v : Nat) : Prop :=
  (bitOf v 37 = true ∧ ¬configGood s v) ∨ ((queueOf s q).enable = true ∧ ¬configKeeps (queueOf s q) v)

theorem not_configGood_iff {s : State} {v : Nat} :
    ¬configGood s v ↔ 47 < bitsOf v 47 42 ∨ bitsOf v 41 38 < 4 ∨ s.house.bootst ≠ 0 := by
  simp only [configGood, not_and_or, Nat.not_le, ne_eq]

theorem not_configKeeps_iff {r : LQueue} {v : Nat} :
    ¬configKeeps r v ↔ bitsOf v 63 48 ≠ r.asid ∨ bitsOf v 41 38 ≠ r.log2n ∨ bitOf v 36 ≠ r.devlaunch := by
  simp only [configKeeps, not_and_or, ne_eq]

theorem writeLqConfig_refused {s : State} {q v : Nat} (h : configRefused s q v) : writeLqConfig s q v = queueError s q 8 := by
  rw [configRefused, not_configGood_iff, not_configKeeps_iff] at h
  simp only [writeLqConfig]
  split
  · rfl
  · next mayEnable => rw [if_pos (h.resolve_left mayEnable)]

theorem writeLqConfig_taken {s : State} {q v : Nat} (h : ¬configRefused s q v) :
    writeLqConfig s q v =
      setQueue s q { queueOf s q with
        asid := bitsOf v 63 48, prio := bitsOf v 47 42, log2n := bitsOf v 41 38, enable := bitOf v 37, devlaunch := bitOf v 36,
        head := if bitOf v 37 && !(queueOf s q).enable then (queueOf s q).tail else (queueOf s q).head,
        nerr := if bitOf v 37 && !(queueOf s q).enable then 0 else (queueOf s q).nerr } := by
  rw [configRefused, not_configGood_iff, not_configKeeps_iff, not_or] at h
  obtain ⟨mayEnable, keeps⟩ := h
  simp only [writeLqConfig]
  rw [if_neg mayEnable, if_neg keeps]

theorem writeLqConfig_stays_disabled {s : State} {q v : Nat} (hr : (queueOf s q).enable = false) (hv : bitOf v 37 = false) :
    writeLqConfig s q v =
      setQueue s q { queueOf s q with
        asid := bitsOf v 63 48, prio := bitsOf v 47 42, log2n := bitsOf v 41 38, devlaunch := bitOf v 36 } := by
  have taken : ¬configRefused s q v := by simp [configRefused, hr, hv]
  simp [writeLqConfig_taken taken, hr, hv]

theorem writeLqConfig_enables {s : State} {q v : Nat} (hr : (queueOf s q).enable = false) (hv : bitOf v 37 = true)
    (good : configGood s v) :
    writeLqConfig s q v =
      setQueue s q { queueOf s q with
        asid := bitsOf v 63 48, prio := bitsOf v 47 42, log2n := bitsOf v 41 38, devlaunch := bitOf v 36, enable := true,
        head := (queueOf s q).tail, nerr := 0 } := by
  have taken : ¬configRefused s q v := by simp [configRefused, hr, good]
  simp [writeLqConfig_taken taken, hr, hv]

theorem writeLqConfig_of_enabled {s : State} {q v : Nat} (hr : (queueOf s q).enable = true) (keeps : configKeeps (queueOf s q) v)
    (good : bitOf v 37 = true → configGood s v) :
    writeLqConfig s q v = setQueue s q { queueOf s q with prio := bitsOf v 47 42, enable := bitOf v 37 } := by
  have taken : ¬configRefused s q v := by simpa [configRefused, keeps] using good
  obtain ⟨hasid, hlog, hdev⟩ := keeps
  simp [writeLqConfig_taken taken, hr, hasid, hlog, hdev]

theorem writeLqBase_taken {s : State} {q : Nat} {v : Word64}
    (h : (queueOf s q).enable = false ∨ v / 4096 * 4096 = (queueOf s q).base) :
    writeLqBase s q v = setQueue s q { queueOf s q with base := v / 4096 * 4096 } := by
  have keeps : ((queueOf s q).enable && v / 4096 * 4096 != (queueOf s q).base) = false := by
    rcases h with h | h
    · rw [h, Bool.false_and]
    · rw [h, bne_self_eq_false, Bool.and_false]
  simp only [writeLqBase, keeps, Bool.false_eq_true, ↓reduceIte]

theorem writeLqBase_refused {s : State} {q : Nat} {v : Word64} (hr : (queueOf s q).enable = true)
    (hv : v / 4096 * 4096 ≠ (queueOf s q).base) : writeLqBase s q v = queueError s q 8 := by
  simp only [writeLqBase, hr, bne_iff_ne.mpr hv, Bool.and_self, ↓reduceIte]

theorem writeLqTail_taken {s : State} {q : Nat} {v : BitVec 32} (hr : (queueOf s q).devlaunch = false)
    (room : (v - (queueOf s q).head).toNat ≤ 2 ^ (queueOf s q).log2n) :
    writeLqTail s q v = setQueue s q { queueOf s q with tail := v } := by
  simp only [writeLqTail, hr, Nat.not_lt.mpr room, Bool.false_eq_true, or_self, ↓reduceIte]

theorem writeLqTail_refused {s : State} {q : Nat} {v : BitVec 32}
    (h : (queueOf s q).devlaunch = true ∨ 2 ^ (queueOf s q).log2n < (v - (queueOf s q).head).toNat) :
    writeLqTail s q v = queueError s q 8 := by
  simp only [writeLqTail, h, ↓reduceIte]

/-! ### The statement -/

/-- Settles O33, each clause by the lemma of its operation. -/
theorem launchEventsComplete : Obligations.LaunchEventsComplete := by
  unfold Obligations.LaunchEventsComplete
  intro q k t die v v32 entry text before after s s1 s2 u
  refine ⟨?take, ?place, ?held, ?callee, ?retireCallee, ?retireGrid, ?stays, ?enables, ?stillEnabled, ?configRefused,
    ?base, ?baseRefused, ?tail, ?tailRefused, exec_term q s⟩
  case take =>
    intro r enabled entryWaits admitted entryRead serial reserved launchRead noSplit noError
    rw [exec_lqEntryTake, takeEntry_of_launch_read enabled entryWaits admitted entryRead serial reserved launchRead noSplit,
      takeLaunch_accepted noError]
    rfl
  case place =>
    intro passed gang placed allPassed
    refine ⟨fun order hk => ?_, fun order => ?_⟩
    · rw [exec_placementDecision, order, decide1_append_passed (k :: after) allPassed]
      exact congrArg _ (decide1_cons_placed after hk)
    · have all : decide1 (before ++ []) s = passed before := decide1_append_passed [] allPassed
      rw [exec_placementDecision, order, ← all, List.append_nil]
  case held => exact fun l t0 hl hs due later => exec_gangHeld_due hl hs due later
  case callee =>
    intro c hc hstate
    rw [exec_calleeWarpForm, if_pos (contextRuns_of_state hc hstate)]
  case retireCallee => exact fun h hb => exec_of_operation (exec_blockRetire k s) (retireBlock_callee h hb)
  case retireGrid => exact fun h hb => exec_of_operation (exec_blockRetire k s) (retireBlock_grid h hb)
  case stays => exact fun hr hv => exec_of_operation (exec_lqConfigWrite q v s) (writeLqConfig_stays_disabled hr hv)
  case enables => exact fun hr hv good => exec_of_operation (exec_lqConfigWrite q v s) (writeLqConfig_enables hr hv good)
  case stillEnabled =>
    exact fun hr keeps good => exec_of_operation (exec_lqConfigWrite q v s) (writeLqConfig_of_enabled hr keeps good)
  case configRefused => exact fun h => exec_of_operation (exec_lqConfigWrite q v s) (writeLqConfig_refused h)
  case base => exact fun h => exec_of_operation (exec_lqBaseWrite q v s) (writeLqBase_taken h)
  case baseRefused => exact fun hr hv => exec_of_operation (exec_lqBaseWrite q v s) (writeLqBase_refused hr hv)
  case tail => exact fun hr room => exec_of_operation (exec_lqTailWrite q v32 s) (writeLqTail_taken hr room)
  case tailRefused => exact fun h => exec_of_operation (exec_lqTailWrite q v32 s) (writeLqTail_refused h)

end Sys2Proof.Machine
end

section
/-! SUPPORT. What reset leaves (R53, R59, R64, R190, R206, R223). -/

namespace Sys2Proof.Machine

theorem Tbl.getD_nil {α : Type} (d : α) (k : Nat) : Tbl.getD ([] : Tbl α) d k = d := rfl

/-- Every logical core is valid and backed by the physical core of its own number (R64); none is disabled (log 6). -/
theorem remapEntry_reset (l : Nat) : (remapEntry remapReset l).testBit 7 = true ∧ remapEntry remapReset l % 64 = l % 64 := by
  have entry : remapEntry remapReset l = 2 ^ 7 + l % 64 := rfl
  have small : l % 64 < 2 ^ 7 := by omega
  constructor
  · rw [entry, Nat.testBit_two_pow_add_eq, Nat.testBit_lt_two_pow small, Bool.not_false]
  · omega

/-- Settles O50: the tables of the state after reset are empty, so that each entry reads as its stated value. -/
theorem resetLeaves : Obligations.ResetLeaves := by
  unfold Obligations.ResetLeaves
  refine ⟨rfl, fun _ => Tbl.getD_nil _ _, rfl, rfl, rfl, rfl, rfl, rfl, rfl, fun _ => Tbl.getD_nil _ _, rfl, rfl, rfl,
    fun _ => Tbl.getD_nil _ _, rfl, rfl, fun l _ => remapEntry_reset l, fun _ => Tbl.getD_nil _ _,
    rfl, rfl, rfl, rfl, rfl, rfl, rfl⟩

end Sys2Proof.Machine
end

section
/-! SUPPORT. Decoding (R78 to R90): it inverts the encoder, refuses what the opcode map does not name, and admits no word whose
guard is the negation of P7. -/

namespace Sys2Proof

/-! ### Decode inverts encode -/

open Laws in
/-- Every instruction word encodes to words that parse to it. -/
theorem encoded_of_wf (i : Instr) : Encodes.Statement i := by
  cases i with
  | nop g => exact Encodes.nop g
  | yield g => exact Encodes.yield g
  | exit g => exact Encodes.exit g
  | brk g imm => exact Encodes.brk g imm
  | bra g mode tgt => exact Encodes.bra g mode tgt
  | brx g div reg => exact Encodes.brx g div reg
  | call g tgt => exact Encodes.call g tgt
  | callv g div reg => exact Encodes.callv g div reg
  | ret g => exact Encodes.ret g
  | dispatch g reg aux pd => exact Encodes.dispatch g reg aux pd
  | role g pd sb r => exact Encodes.role g pd sb r
  | launch g ser pd sa sb => exact Encodes.launch g ser pd sa sb
  | trap g imm => exact Encodes.trap g imm
  | wsync g pd sa => exact Encodes.wsync g pd sa
  | add g ty sat d a b => exact Encodes.add g ty sat d a b
  | sub g ty sat d a b => exact Encodes.sub g ty sat d a b
  | addc g ty d a b pc => exact Encodes.addc g ty d a b pc
  | subb g ty d a b pc => exact Encodes.subb g ty d a b pc
  | mul g ty d a b => exact Encodes.mul g ty d a b
  | mulhi g ty d a b => exact Encodes.mulhi g ty d a b
  | mad g ty d a b c => exact Encodes.mad g ty d a b c
  | madw g ty d a b c => exact Encodes.madw g ty d a b c
  | min g ty d a b => exact Encodes.min g ty d a b
  | max g ty d a b => exact Encodes.max g ty d a b
  | abs g ty sat d a => exact Encodes.abs g ty sat d a
  | neg g ty sat d a => exact Encodes.neg g ty sat d a
  | and g ty d a b => exact Encodes.and g ty d a b
  | or g ty d a b => exact Encodes.or g ty d a b
  | xor g ty d a b => exact Encodes.xor g ty d a b
  | not g ty d a => exact Encodes.not g ty d a
  | shl g ty d a b => exact Encodes.shl g ty d a b
  | shr g ty d a b => exact Encodes.shr g ty d a b
  | sar g ty d a b => exact Encodes.sar g ty d a b
  | rot g ty right d a b => exact Encodes.rot g ty right d a b
  | bfe g ty d a b => exact Encodes.bfe g ty d a b
  | bfi g ty d a b c => exact Encodes.bfi g ty d a b c
  | popc g ty d a => exact Encodes.popc g ty d a
  | clz g ty d a => exact Encodes.clz g ty d a
  | brev g ty d a => exact Encodes.brev g ty d a
  | prmt g d a b c => exact Encodes.prmt g d a b c
  | sad g ty d a b c => exact Encodes.sad g ty d a b c
  | lea g sx sh d a b => exact Encodes.lea g sx sh d a b
  | idiv g ty d a b => exact Encodes.idiv g ty d a b
  | irem g ty d a b => exact Encodes.irem g ty d a b
  | lop3 g ty f d a b c => exact Encodes.lop3 g ty f d a b c
  | iset g ty cond comb d a b pc => exact Encodes.iset g ty cond comb d a b pc
  | fset g ty cond comb d a b pc => exact Encodes.fset g ty cond comb d a b pc
  | sel g ty d a b pc => exact Encodes.sel g ty d a b pc
  | plop g pd pa pb pc f => exact Encodes.plop g pd pa pb pc f
  | fclassPred g ty pd a mask => exact Encodes.fclassPred g ty pd a mask
  | fclassMask g ty d a => exact Encodes.fclassMask g ty d a
  | vote g op neg d pa => exact Encodes.vote g op neg d pa
  | matchLanes g ty all d a => exact Encodes.matchLanes g ty all d a
  | pmovPack g d => exact Encodes.pmovPack g d
  | pmovUnpack g a => exact Encodes.pmovUnpack g a
  | fadd g ty m d a b => exact Encodes.fadd g ty m d a b
  | fsub g ty m d a b => exact Encodes.fsub g ty m d a b
  | fmul g ty m d a b => exact Encodes.fmul g ty m d a b
  | ffma g ty m d a b c => exact Encodes.ffma g ty m d a b c
  | fmin g ty d a b => exact Encodes.fmin g ty d a b
  | fmax g ty d a b => exact Encodes.fmax g ty d a b
  | frcp g ty m d a => exact Encodes.frcp g ty m d a
  | frsq g ty m d a => exact Encodes.frsq g ty m d a
  | fsqrt g ty m d a => exact Encodes.fsqrt g ty m d a
  | fdiv g ty m d a b => exact Encodes.fdiv g ty m d a b
  | fexp2 g ty m d a => exact Encodes.fexp2 g ty m d a
  | flog2 g ty m d a => exact Encodes.flog2 g ty m d a
  | fsin g ty m d a => exact Encodes.fsin g ty m d a
  | fcos g ty m d a => exact Encodes.fcos g ty m d a
  | ftanh g ty m d a => exact Encodes.ftanh g ty m d a
  | fdot2 g ty m d a b c => exact Encodes.fdot2 g ty m d a b c
  | frnd g ty m d a => exact Encodes.frnd g ty m d a
  | fscale g ty m d a b => exact Encodes.fscale g ty m d a b
  | fgetx g ty d a => exact Encodes.fgetx g ty d a
  | fgetm g ty d a => exact Encodes.fgetm g ty d a
  | cvt g ty sty m d a b => exact Encodes.cvt g ty sty m d a b
  | sbpack g ty fmt dense len32 d a => exact Encodes.sbpack g ty fmt dense len32 d a
  | sbunpk g fmt d a b c => exact Encodes.sbunpk g fmt d a b c
  | sbscl g ty fmt d a b c => exact Encodes.sbscl g ty fmt d a b c
  | rng g ty d a b c => exact Encodes.rng g ty d a b c
  | mov g ty d a => exact Encodes.mov g ty d a
  | movl g d a => exact Encodes.movl g d a
  | shfl g ty mode seg d a b => exact Encodes.shfl g ty mode seg d a b
  | bcast g ty d a b => exact Encodes.bcast g ty d a b
  | redux g ty op m d a => exact Encodes.redux g ty op m d a
  | gets g ty d code => exact Encodes.gets g ty d code
  | sets g ty code a => exact Encodes.sets g ty code a
  | ld g sz sco ord ch d m => exact Encodes.ld g sz sco ord ch d m
  | st g sz sco ord ch d m => exact Encodes.st g sz sco ord ch d m
  | lds g sz sco ord ch d m => exact Encodes.lds g sz sco ord ch d m
  | sts g sz sco ord ch d m => exact Encodes.sts g sz sco ord ch d m
  | ldg g op sz width sco ord d m => exact Encodes.ldg g op sz width sco ord d m
  | atom g op sz sco ord d m x => exact Encodes.atom g op sz sco ord d m x
  | red g op sz sco ord m x => exact Encodes.red g op sz sco ord m x
  | cas g sz sco ord d m x => exact Encodes.cas g sz sco ord d m x
  | fence g sco ord => exact Encodes.fence g sco ord
  | pref g ch m => exact Encodes.pref g ch m
  | cwb g rel m => exact Encodes.cwb g rel m
  | cinv g acq m => exact Encodes.cinv g acq m
  | waitne g sz sco ord d m x => exact Encodes.waitne g sz sco ord d m x
  | resideClass g sd sa sb cls report ntreq => exact Encodes.resideClass g sd sa sb cls report ntreq
  | residePin g sd sa sb => exact Encodes.residePin g sd sa sb
  | resideUnpin g sd sa sb => exact Encodes.resideUnpin g sd sa sb
  | resideTprio g sd sa cls => exact Encodes.resideTprio g sd sa cls
  | resideClose g sd sa sb => exact Encodes.resideClose g sd sa sb
  | kvfind g sd sa => exact Encodes.kvfind g sd sa
  | kvput g pin sd sa sc => exact Encodes.kvput g pin sd sa sc
  | kvdrop g sd sa => exact Encodes.kvdrop g sd sa
  | kvdropTensor g sd sa => exact Encodes.kvdropTensor g sd sa
  | acgrow g sd n => exact Encodes.acgrow g sd n
  | acfree g sd n => exact Encodes.acfree g sd n
  | cpy g sd sa => exact Encodes.cpy g sd sa
  | cpym g sd sa => exact Encodes.cpym g sd sa
  | cpysc g sd sa => exact Encodes.cpysc g sd sa
  | xpose g sd sa => exact Encodes.xpose g sd sa
  | sred g sd sa => exact Encodes.sred g sd sa
  | afence g sd => exact Encodes.afence g sd
  | awaitBatch g sa => exact Encodes.awaitBatch g sa
  | awaitAll g => exact Encodes.awaitAll g
  | atest g pd sa => exact Encodes.atest g pd sa
  | atestAll g pd => exact Encodes.atestAll g pd
  | marr g sd lg => exact Encodes.marr g sd lg
  | bload g sd sa sb => exact Encodes.bload g sd sa sb
  | minit g sd sa => exact Encodes.minit g sd sa
  | mma g sd sa sb => exact Encodes.mma g sd sa sb
  | mmasp g sel sd sa sb vc => exact Encodes.mmasp g sel sd sa sb vc
  | mdrain g sd sa sb sc => exact Encodes.mdrain g sd sa sb sc
  | mread g d sa => exact Encodes.mread g d sa
  | mreadAnc g d sa => exact Encodes.mreadAnc g d sa
  | mwrite g sa b => exact Encodes.mwrite g sa b
  | mwriteAnc g sa b => exact Encodes.mwriteAnc g sa b
  | bara g pd sc bar => exact Encodes.bara g pd sc bar
  | barw g pd sc bar => exact Encodes.barw g pd sc bar
  | barsRoot g sd bar => exact Encodes.barsRoot g sd bar
  | barsOwn g sd bar => exact Encodes.barsOwn g sd bar
  | barqRoot g sd bar => exact Encodes.barqRoot g sd bar
  | barqMem g sd bar => exact Encodes.barqMem g sd bar
  | barqArr g sd bar => exact Encodes.barqArr g sd bar
  | barqEarly g sd bar => exact Encodes.barqEarly g sd bar
  | barqWait g sd bar => exact Encodes.barqWait g sd bar
  | barsetRoot g sa bar => exact Encodes.barsetRoot g sa bar
  | barsetMem g sa bar => exact Encodes.barsetMem g sa bar
  | barsetArr g sa bar => exact Encodes.barsetArr g sa bar
  | barsetEarly g sa bar => exact Encodes.barsetEarly g sa bar
  | barsetWait g sa bar => exact Encodes.barsetWait g sa bar
  | tret g => exact Encodes.tret g
  | tretSaved g => exact Encodes.tretSaved g
  | tlbiPage g sa => exact Encodes.tlbiPage g sa
  | tlbiRange g sa sb => exact Encodes.tlbiRange g sa sb
  | tlbiAsid g => exact Encodes.tlbiAsid g
  | genadv g => exact Encodes.genadv g
  | dvsave g sa => exact Encodes.dvsave g sa
  | dvload g sd sa => exact Encodes.dvload g sd sa
  | sigset g sa n => exact Encodes.sigset g sa n
  | sigrd g sd n => exact Encodes.sigrd g sd n
  | mapft g sd sa => exact Encodes.mapft g sd sa
  | killw g sd sa => exact Encodes.killw g sd sa
  | migr g sd sa => exact Encodes.migr g sd sa
  | scrub g sd sa sb => exact Encodes.scrub g sd sa sb
  | keyz g sa => exact Encodes.keyz g sa
  | qsaveRq g sd sa => exact Encodes.qsaveRq g sd sa
  | qsaveMac g sd sa => exact Encodes.qsaveMac g sd sa
  | qsaveRbq g sd sa => exact Encodes.qsaveRbq g sd sa
  | qloadRq g sd sa => exact Encodes.qloadRq g sd sa
  | qloadMac g sd sa => exact Encodes.qloadMac g sd sa
  | qloadRbq g sd sa => exact Encodes.qloadRbq g sd sa
  | pgdisc g sd sa sb => exact Encodes.pgdisc g sd sa sb
  | _ => exact fun _ event => nomatch event

/-- Settles O45: the words of each form parse to it, and decode reads just those words. -/
theorem decodeInvertsEncode : Obligations.DecodeInvertsEncode := by
  unfold Obligations.DecodeInvertsEncode
  exact fun i bs wf word => decode_encoded (encoded_of_wf i wf word) wf bs

/-- Settles O44: decode evaluates on each of the words. -/
theorem printedWordsDecode : Obligations.PrintedWordsDecode := by
  unfold Obligations.PrintedWordsDecode
  exact ⟨rfl, rfl, rfl, rfl, rfl, rfl, rfl, rfl, rfl, rfl, rfl, rfl, rfl, rfl, rfl, rfl⟩

/-! ### Reserved opcodes and headers (R89, R90) -/

theorem isHeader_iff (w : Word64) : isHeader w = true ↔ opcOf w = 0xFF := by
  rw [isHeader, opcOf, beq_iff_eq, BitVec.toNat_eq]
  rfl

/-- A header is refused where an instruction is expected (R90). -/
theorem decode_header {w : Word64} (bs : List Byte) (h : opcOf w = 0xFF) : decode (wordBytes w ++ bs) = .bad .header := by
  simp only [decode, takeWord_wordBytes, (isHeader_iff w).mpr h, ↓reduceIte]

/-- A word whose opcode the map of R89 does not name is refused. -/
theorem decode_reserved {w : Word64} (bs : List Byte) (mark : opcOf w ≠ 0xFF) (h : formOf (opcOf w) = none) :
    decode (wordBytes w ++ bs) = .bad .reservedOpcode := by
  simp only [decode, takeWord_wordBytes, mt (isHeader_iff w).mp mark, Bool.false_eq_true, h, ↓reduceIte]

open Machine in
/-- The opcode is one that R89 reserves. -/
def isReserved (opc : Nat) : Prop := reservedCodes.any (fun r => r.1 ≤ opc ∧ opc ≤ r.2) = true

open Machine in
theorem isReserved_iff (opc : Nat) :
    isReserved opc ↔ opc = 0x0E ∨ opc = 0x0F ∨ opc = 0x2F ∨ 0x4C ≤ opc ∧ opc ≤ 0x4F ∨ 0x55 ≤ opc ∧ opc ≤ 0x57 ∨ opc = 0x5F ∨
      0x73 ≤ opc ∧ opc ≤ 0x7F ∨ 0x88 ≤ opc ∧ opc ≤ 0x8F ∨ 0x98 ≤ opc ∧ opc ≤ 0x9F ∨ 0xA5 ≤ opc ∧ opc ≤ 0xBF ∨
        0xCF ≤ opc ∧ opc ≤ 0xFE := by
  simp only [isReserved, reservedCodes, List.any_cons, List.any_nil, Bool.or_eq_true, decide_eq_true_eq, Bool.false_eq_true, or_false]
  omega

theorem ite_some_eq_none {α : Type} {c : Prop} [Decidable c] {x : α} {o : Option α} :
    (if c then some x else o) = none ↔ ¬c ∧ o = none := by
  split <;> simp [*]

/-- The opcodes of no format are the reserved ones and the header mark. -/
theorem formOf_eq_none_iff {opc : Nat} (small : opc < 256) : formOf opc = none ↔ isReserved opc ∨ opc = 0xFF := by
  rw [isReserved_iff]
  simp only [formOf, ite_some_eq_none, and_true]
  omega

/-- Settles O47: the opcodes of no format are the reserved ones and the header mark. -/
theorem reservedOpcodesRefused : Obligations.ReservedOpcodesRefused := by
  unfold Obligations.ReservedOpcodesRefused
  intro w bs opc
  have small : opc < 256 := BitVec.isLt _
  refine ⟨fun reserved => ?_, decode_header bs, fun unreserved mark => ?_⟩
  · have mark : opc ≠ 0xFF := by
      rintro mark
      exact absurd reserved (by rw [mark]; decide)
    exact decode_reserved bs mark ((formOf_eq_none_iff small).mpr (.inl reserved))
  · refine Option.isSome_iff_ne_none.mpr (mt (formOf_eq_none_iff small).mp (not_or.mpr ⟨?_, mark⟩))
    rw [isReserved, unreserved]
    exact Bool.false_ne_true

/-! ### Guards (R78) -/

/-- Nothing well-formed is decoded: there is no instruction, or one that decode refuses. -/
def Illegal (o : Option Instr) : Prop := ∀ i, o = some i → i.wf = false

@[simp] theorem illegal_none : Illegal none := fun _ h => nomatch h

@[simp] theorem illegal_some {i : Instr} : Illegal (some i) ↔ i.wf = false :=
  ⟨fun h => h i rfl, fun h _ e => Option.some.inj e ▸ h⟩

@[simp] theorem illegal_bind {α : Type} {o : Option α} {k : α → Option Instr} :
    Illegal (o.bind k) ↔ ∀ a, o = some a → Illegal (k a) := by
  cases o <;> simp

@[simp] theorem illegal_dite {c : Prop} [Decidable c] {k : c → Option Instr} :
    Illegal (if h : c then k h else none) ↔ ∀ h, Illegal (k h) := by
  split <;> simp [*]

section
variable {f : AFmt} (l : Option Word64) (hg : f.g.wf = false)
include hg

theorem illegal_decodeInt : Illegal (decodeInt f l) := by
  unfold decodeInt
  split <;> simp [AFmt.d1, AFmt.d2, AFmt.d3, AFmt.d2p, Instr.wf, wf1, wf2, wf3, wfShift, hg]

theorem illegal_decodeCmp : Illegal (decodeCmp f l) := by
  unfold decodeCmp
  split <;> simp [AFmt.d2p, Instr.wf, wf2, hg]
  -- FCLASS goes by its destination.
  rintro - t - d - a -
  split <;> simp [Instr.wf, hg]

theorem illegal_decodeFloat : Illegal (decodeFloat f l) := by
  unfold decodeFloat
  split <;> simp [AFmt.d1, AFmt.d2, AFmt.d3, Instr.wf, wf1, wf2, wf3, wfShift, wfApprox, hg]

theorem illegal_decodeMove : Illegal (decodeMove f l) := by
  unfold decodeMove
  split <;> simp [AFmt.d1, Instr.wf, wf1, hg]

end

theorem illegal_decodeMem {f : MFmt} (hg : f.g.wf = false) : Illegal (decodeMem f) := by
  unfold decodeMem
  dsimp only
  split <;> simp [Instr.wf, hg]
  -- CWB and CINV go by their order.
  all_goals
    rintro -
    split <;> simp [Instr.wf, hg]

theorem illegal_decodeJump {f : JFmt} (hg : f.g.wf = false) : Illegal (decodeJump f) := by
  unfold decodeJump
  split <;> simp [Instr.wf, hg]

section
variable {f : CFmt} (hg : f.g.wf = false)
include hg

theorem illegal_decodeCtl : Illegal (decodeCtl f) := by
  unfold decodeCtl
  split <;> simp [CFmt.dA, CFmt.dAB, Instr.wf, hg]
  -- The opcodes whose forms SUB tells apart.
  all_goals
    split <;> simp [Instr.wf, hg]

theorem illegal_decodeCard : Illegal (decodeCard f) := by
  unfold decodeCard
  split <;> simp [CFmt.dA, CFmt.dAB, CFmt.dBar, CFmt.aBar, CFmt.pcBar, Instr.wf, hg]
  -- The opcodes whose forms SUB tells apart.
  all_goals
    intros
    split <;> simp [Instr.wf, hg]

theorem illegal_decodeSys : Illegal (decodeSys f) := by
  unfold decodeSys
  split <;> simp [CFmt.dA, CFmt.dAB, Instr.wf, hg]
  -- The opcodes whose forms SUB tells apart.
  all_goals
    intros
    split <;> simp [Instr.wf, hg]

end

/-- A word whose guard is ill-formed decodes to nothing: every format hands its guard on. -/
theorem decodeWord_of_guard {w : Word64} (lit : Option Word64)
    (hg : (Guard.ofBits (w.extractLsb' 53 3) (w.extractLsb' 52 1)).wf = false) : decodeWord w lit = none := by
  have illegal : Illegal (parseWord w lit) := by
    unfold parseWord
    split
    · exact illegal_decodeInt lit hg
    · exact illegal_decodeCmp lit hg
    · exact illegal_decodeFloat lit hg
    · exact illegal_decodeMove lit hg
    · exact illegal_decodeMem hg
    · exact illegal_decodeJump hg
    · exact illegal_decodeCtl hg
    · exact illegal_decodeCard hg
    · exact illegal_decodeSys hg
    · exact illegal_none
  unfold decodeWord
  split
  · next i hi => rw [if_neg (by simp [illegal i hi])]
  · rfl

theorem extract_guard {w : Word64} (h : w.extractLsb' 52 4 = 15) : w.extractLsb' 53 3 = 7 ∧ w.extractLsb' 52 1 = 1 := by
  have p : w.extractLsb' 53 3 = (w.extractLsb' 52 4).extractLsb' 1 3 := by
    ext k hk
    simp [show 1 + k < 4 by omega, ← Nat.add_assoc]
  have n : w.extractLsb' 52 1 = (w.extractLsb' 52 4).extractLsb' 0 1 := by
    ext k hk
    simp [show k < 4 by omega]
  rw [p, n, h]
  exact ⟨rfl, rfl⟩

/-- The negation of P7 is no guard. -/
theorem guard_not_p7 {w : Word64} (h : w.extractLsb' 52 4 = 15) :
    (Guard.ofBits (w.extractLsb' 53 3) (w.extractLsb' 52 1)).wf = false := by
  obtain ⟨p, n⟩ := extract_guard h
  rw [p, n]
  rfl

end Sys2Proof

namespace Sys2Proof.Machine

theorem Warp.pred_seven (x : Warp) : x.pred 7 = allLanes := rfl

theorem Warp.putP_seven (x : Warp) (g v : Lanes) : x.putP 7 g v = x := rfl

/-- An unguarded word takes every active lane. -/
theorem Warp.taking_unguarded (x : Warp) (e : Nat) : x.taking e { p := 7, neg := false } = x.active e := by
  show x.active e &&& allLanes = x.active e
  exact BitVec.and_allOnes

/-- Settles O43: P7 by its definition, the guard by the field that every format hands on. -/
theorem predicateSevenIsTrue : Obligations.PredicateSevenIsTrue := by
  unfold Obligations.PredicateSevenIsTrue
  exact fun x e g v w lit =>
    ⟨x.pred_seven, x.putP_seven g v, x.taking_unguarded e, fun negated => decodeWord_of_guard lit (guard_not_p7 negated)⟩

end Sys2Proof.Machine
end

section
/-! SUPPORT. What a step does (R72, R93, log 1): one equation for each way it may go. -/

namespace Sys2Proof.Machine

theorem step_of_focus {s : State} (agenda : s.agenda = []) (focus : s.focus.isSome = true) : step s = stepWord exec s := by
  simp only [step, agenda, focus, ↓reduceIte]

theorem step_of_event {s : State} {k : Input} {rest : List Input} (agenda : s.agenda = k :: rest) :
    step s = stepInput exec { s with agenda := rest } k := by
  simp only [step, agenda]

theorem step_by_itself {s : State} (agenda : s.agenda = []) (focus : s.focus = none) : step s = stepAuto exec s := by
  simp only [step, agenda, focus, Option.isSome_none, Bool.false_eq_true, ↓reduceIte]

theorem focus_of_issuer {s : State} {i : Issuer} (h : issuer s = some i) : s.focus.isSome = true := by
  by_contra none
  simp [issuer, Option.not_isSome_iff_eq_none.mp none] at h

theorem stepWord_decoded {s : State} {i : Issuer} {k : Instr} (hi : issuer s = some i) (hk : decodeAt i = some k) :
    stepWord exec s = exec k s := by
  simp only [stepWord, hi, hk]

theorem stepWord_refused {s : State} {i : Issuer} (hi : issuer s = some i) (hk : decodeAt i = none) :
    stepWord exec s = .next (i.trapHere s (i.fault .illegal 0 0)) := by
  simp only [stepWord, issueIllegal, hi, hk]

theorem stepAuto_hostWrites {s : State} (h : s.hostWrites ≠ []) : stepAuto exec s = .next (drainHost s) := by
  rw [stepAuto, if_pos (bne_iff_ne.mpr h)]

theorem stepAuto_fullQueues {s : State} (hw : s.hostWrites = []) (h : s.fullQueues ≠ []) :
    stepAuto exec s = .next { s with fullQueues := [] } := by
  rw [stepAuto, if_neg (by simp [hw]), if_pos (bne_iff_ne.mpr h)]

section
variable {s : State} (hw : s.hostWrites = []) (hq : s.fullQueues = [])
include hw hq

theorem stepAuto_resumes {r : Nat × Nat} (run : runToResume s = some r) :
    stepAuto exec s = stepWord exec { s with focus := some r } := by
  rw [stepAuto, if_neg (by simp [hw]), if_neg (by simp [hq]), run]

theorem stepAuto_next {k : Instr} (run : runToResume s = none) (next : nextAuto s = some k) : stepAuto exec s = exec k s := by
  rw [stepAuto, if_neg (by simp [hw]), if_neg (by simp [hq]), run, next]

theorem stepAuto_idle (run : runToResume s = none) (idle : nextAuto s = none) : stepAuto exec s = .next s := by
  rw [stepAuto, if_neg (by simp [hw]), if_neg (by simp [hq]), run, idle]

end

/-- Settles O46: each clause by the equation of its way. -/
theorem stepRunsWhatDecodes : Obligations.StepRunsWhatDecodes := by
  unfold Obligations.StepRunsWhatDecodes
  intro s i k rest w e
  refine ⟨?decodes, ?refused, ?event, ?issue, ?host, ?queues, ?resumes, ?auto⟩
  case decodes =>
    intro agenda hi hk
    rw [step_of_focus agenda (focus_of_issuer hi), stepWord_decoded hi hk]
  case refused =>
    intro agenda hi hk
    rw [step_of_focus agenda (focus_of_issuer hi), stepWord_refused hi hk]
  case event =>
    intro agenda event
    rw [step_of_event agenda, stepInput, if_pos event]
  case issue =>
    intro agenda going hi hk
    rw [step_of_event agenda, stepInput, if_pos going]
    exact stepWord_decoded hi hk
  case host =>
    intro agenda focus writes
    rw [step_by_itself agenda focus, stepAuto_hostWrites writes]
  case queues =>
    intro agenda focus writes full
    rw [step_by_itself agenda focus, stepAuto_fullQueues writes full]
  case resumes =>
    intro agenda focus writes full run hi hk
    rw [step_by_itself agenda focus, stepAuto_resumes writes full run]
    exact stepWord_decoded hi hk
  case auto =>
    intro agenda focus writes full run
    rw [step_by_itself agenda focus]
    exact ⟨stepAuto_next writes full run, stepAuto_idle writes full run⟩

end Sys2Proof.Machine
end

section
/-! SUPPORT. The events of issue (R71, R93, R96, R98, R388, R398, R433, R439, R456), said once for each operation. -/

namespace Sys2Proof.Machine

/-! ### Fetch (R71) -/

/-- A block that its fetch accepts becomes its split's (R71, R74). -/
theorem fetchSplit_ok {s t : State} {w e : Nat} {b : Fetched}
    (place : ((warpAt s w).splitAt e).spilled = 0 ∨ ((warpAt s w).splitAt e).frames ≠ [] ∨ ((warpAt s w).splitAt e).word = true)
    (aligned : ((warpAt s w).splitAt e).blockAt.toNat % 8 = 0)
    (fetched : fetchBlock s (warpAt s w).core (warpAt s w).ctx (warpAt s w).asid (warpAt s w).handler.isNone (warpAt s w).allot
      ((warpAt s w).splitAt e).blockAt = (t, .ok b))
    (inside : wordInBlock ((warpAt s w).splitAt e) b = true) :
    fetchSplit s w e =
      updSplit (prefetchHints t (warpAt s w).core (warpAt s w).ctx (warpAt s w).asid (warpAt s w).handler.isNone b) w e
        fun p => { p with blk := some b } := by
  have inRecord : ¬(((warpAt s w).splitAt e).frames = [] ∧ ((warpAt s w).splitAt e).spilled ≠ 0 ∧
      ((warpAt s w).splitAt e).word = false) := by
    rintro ⟨noFrame, spilled, atHeader⟩
    rcases place with h | h | h
    · exact spilled h
    · exact h noFrame
    · exact Bool.false_ne_true (atHeader.symm.trans h)
  simp only [fetchSplit, inRecord, aligned, fetched, inside, ne_eq, not_true_eq_false, ↓reduceIte]

/-! ### The next run (R93, R98, R433) -/

/-- A run that begins holds the issue slot and its quarter; the throttle, memory and the cards are as they were. -/
theorem beginRun_begins {s : State} {w e : Nat} {b : Fetched} (blk : ((warpAt s w).splitAt e).blk = some b)
    (free : s.runs.find? (quarterKey (warpAt s w)) = none) :
    (beginRun s w e).focus = some (w, e) ∧ (beginRun s w e).runs = s.runs.put (quarterKey (warpAt s w)) (w, e) ∧
      (beginRun s w e).gates = s.gates ∧ (beginRun s w e).mem = s.mem ∧ (beginRun s w e).cards = s.cards := by
  simp only [beginRun, blk, free, updWarp_other, and_self]

section
variable {s : State} {core : Nat} {quarter : Fin 4}

theorem execQuarterRunSelect_underWay (going : (s.runs.find? (core * 4 + quarter.val)).isSome = true) :
    execQuarterRunSelect core quarter s = .next s := by
  rw [execQuarterRunSelect, if_pos going]

theorem execQuarterRunSelect_begins {w e : Nat} {gates : Tbl Gate} (free : s.runs.find? (core * 4 + quarter.val) = none)
    (run : nextRun s core quarter.val = (some w, gates)) (split : chooseSplit s w = some e) :
    execQuarterRunSelect core quarter s = .next (beginRun { s with gates := gates } w e) := by
  rw [execQuarterRunSelect, if_neg (by simp [free]), run]
  simp only [split]

theorem execQuarterRunSelect_none {gates : Tbl Gate} (free : s.runs.find? (core * 4 + quarter.val) = none)
    (run : nextRun s core quarter.val = (none, gates)) :
    execQuarterRunSelect core quarter s = .next { s with gates := gates } := by
  rw [execQuarterRunSelect, if_neg (by simp [free]), run]

end

theorem nextRun_open {s : State} {core : Nat} (quarter : Nat) (gate : gateOf s core = 0) :
    nextRun s core quarter = (chooseWarp s core quarter, s.gates.del (core * 4 + quarter)) := by
  rw [nextRun, if_pos gate]

/-- In the cycles that the throttle takes, a run begins only for a context that its floor makes due (R433, log 107). -/
theorem nextRun_withheld {s : State} {core quarter : Nat}
    (withheld : (s.gates.getD { cycle := 0, idle := [] } (core * 4 + quarter)).cycle < gateOf s core)
    (noneDue : floorDue (s.gates.getD { cycle := 0, idle := [] } (core * 4 + quarter)) (contextsOf s (readyWarps s core quarter)) = none) :
    (nextRun s core quarter).1 = none := by
  have gate : gateOf s core ≠ 0 := by omega
  simp only [nextRun, gatedChoice, gate, noneDue, withheld, ↓reduceIte]

/-! ### Landing (R96) -/

/-- What a landing write lands, and the state once the members of its group load are read (R265, R333). -/
def landRead (s : State) (w : Nat) (p : Pending) : State × Pending :=
  match p.ldg with
  | some r =>
    let a := if r.acq = true then acquireL1 s (warpAt s w).core else s
    ((groupNotes a w r).1, groupRead a w p r (groupNotes a w r).2)
  | none => (s, p)

/-- The state after a landing, before the flit that it may send. -/
def landed (s : State) (w n : Nat) (p : Pending) : State :=
  landRows (updWarp (landRead s w p).1 w fun x => { x with pend := x.pend.eraseIdx n }.land (landRead s w p).2) w (landRead s w p).2

theorem landWrite_lands {s : State} {w n : Nat} {p : Pending} (hp : (warpAt s w).pend[n]? = some p)
    (free : ∀ r, p.ldg = some r → groupHeld s (warpAt s w).launch r = false) (next : landsNext (warpAt s w) n p = true)
    (room : landSends (warpAt s w) p = true → windowFull s w p.mtgt = none) :
    landWrite s w n =
      if landSends (warpAt s w) (landRead s w p).2 = true then
        sendFlit (landed s w n p) w (landRead s w p).2.mtgt
          (pairWord ((warpAt (landed s w n p) w).rawS 60) ((warpAt (landed s w n p) w).rawS 61))
      else landed s w n p := by
  have open_ : (landSends (warpAt s w) p && (windowFull s w p.mtgt).isSome) = false := by
    cases h : landSends (warpAt s w) p with
    | false => rfl
    | true => rw [room h]; rfl
  cases hl : p.ldg with
  | none => simp only [landWrite, hp, hl, next, open_, landed, landRead, Bool.not_true, Bool.or_self, Bool.false_eq_true, ↓reduceIte]
  | some r =>
    simp only [landWrite, hp, hl, free r hl, next, open_, landed, landRead, Bool.not_true, Bool.or_self, Bool.false_eq_true, ↓reduceIte]

/-! ### Traps between runs (R398, R439, R456) -/

section
variable {s : State} {w k q : Nat} {e : Fin 4} {p : Pending} {f : FaultInfo} (between : betweenRuns s w e.val = true)
include between

theorem execDeferredFaultTaken_takes (next : nextDeferred (warpAt s w) e.val = some (q, p))
    (fault : p.fault = some f) :
    execDeferredFaultTaken w e s =
      .next (trapSplit (updWarp s w fun x => { x with deferred := x.deferred.eraseIdx q }) w e.val f) := by
  simp only [execDeferredFaultTaken, between, next, fault, ↓reduceIte]

variable (user : (warpAt s w).handler = none) (noFault : dueDeferred (warpAt s w) = [])
include user noFault

theorem execPreemptTaken_takes (due : (warpAt s w).preemptDue = true) :
    execPreemptTaken w e s =
      .next (trapSplit (updWarp (endLeases s (warpAt s w).core) w fun x => { x with preemptDue := false }) w e.val
        (preemptFault (endLeases s (warpAt s w).core) w e.val)) := by
  simp only [execPreemptTaken, between, due, user, noFault, Option.isNone_none, beq_self_eq_true, Bool.and_self, ↓reduceIte]

theorem execMigrateTaken_takes (noPreempt : (warpAt s w).preemptDue = false) (due : (warpAt s w).migrateDue = some k) :
    execMigrateTaken w e s =
      .next (trapSplit (updWarp s w fun x => { x with migrateDue := none }) w e.val (FaultInfo.uniform .migrate 0 k 0)) := by
  simp only [execMigrateTaken, between, due, user, noFault, noPreempt, Option.isNone_none, beq_self_eq_true, Bool.not_false,
    Bool.and_self, ↓reduceIte]

end

/-- Settles O31, each clause by the lemma of its event. -/
theorem issueEventsComplete : Obligations.IssueEventsComplete := by
  unfold Obligations.IssueEventsComplete
  intro w n k q e quarter b p f gates s t x p0
  refine ⟨?fetch, ?begins, execQuarterRunSelect_none, nextRun_open quarter.val, nextRun_withheld, execQuarterRunSelect_underWay,
    ?lands, execDeferredFaultTaken_takes, execPreemptTaken_takes, execMigrateTaken_takes⟩
  case fetch =>
    intro wants coreGoes place aligned fetched inside
    show execBlockFetch w e s = _
    rw [execBlockFetch, if_pos (Bool.and_eq_true_iff.mpr ⟨wants, coreGoes⟩), fetchSplit_ok place aligned fetched inside]
  case begins =>
    intro free run split blk quarterFree
    exact ⟨_, execQuarterRunSelect_begins free run split, beginRun_begins (s := { s with gates := gates }) blk quarterFree⟩
  case lands =>
    intro hp held next room r u
    exact congrArg Host.Outcome.next (landWrite_lands hp held next room)

end Sys2Proof.Machine
end

section
/-! SUPPORT. What the words that act on registers do where they act (R78, R84, R138), said once for each kind of body. -/

namespace Sys2Proof.Machine

/-! ### Writing the registers that a word names -/

/-- A word has written registers of a list, by the numbers that it names, in one warp, and has touched no other. -/
structure Touched (ds : List Reg) (g : Lanes) (w : Nat) (t u : State) : Prop where
  elsewhere : sameElsewhere w t u
  wrote : ∀ x, t.warps.find? w = some x → ∃ y, u.warps.find? w = some y ∧ Warp.Wrote (ds.map x.regOf) g x y

theorem touched_refl (ds : List Reg) (g : Lanes) (w : Nat) (t : State) : Touched ds g w t t :=
  ⟨.refl w t, fun x hx => ⟨x, hx, .refl ..⟩⟩

theorem touched_updWarp {ds : List Reg} {g : Lanes} {w : Nat} {f : Warp → Warp} (t : State)
    (h : ∀ x, Warp.Wrote (ds.map x.regOf) g x (f x)) : Touched ds g w t (updWarp t w f) :=
  ⟨sameElsewhere_updWarp t w f, fun x hx => ⟨f x, by rw [updWarp_find, if_pos rfl, hx, Option.map_some], h x⟩⟩

/-- Writes one after another, each to registers of the list. -/
theorem Warp.wrote_foldl {α : Type} {ds : List Reg} {g : Lanes} {f : Warp → α → Warp} {l : List α}
    (h : ∀ a ∈ l, ∀ x, Warp.Wrote (ds.map x.regOf) g x (f x a)) (x : Warp) : Warp.Wrote (ds.map x.regOf) g x (l.foldl f x) := by
  induction l generalizing x with
  | nil => exact .refl ..
  | cons a l ih =>
    have first := h a List.mem_cons_self x
    have others := ih (fun b hb => h b (List.mem_cons_of_mem a hb)) (f x a)
    rw [first.regOf] at others
    exact first.trans others

theorem Warp.wrote_putP_named (x : Warp) (n : Nat) (g v : Lanes) : Warp.Wrote ((pRegs n).map x.regOf) g x (x.putP n g v) := by
  have names : (pRegs n).map x.regOf = pRegs n := by
    unfold pRegs
    split <;> rfl
  rw [names]
  exact x.wrote_putP n g v

/-- A result with a predicate beside it (R155). -/
theorem Warp.wrote_dst_putP (x : Warp) (is64 : Bool) (d : Dst) (n : Nat) (g v : Lanes) (f : Nat → Word64) :
    Warp.Wrote ((dstRegs is64 d ++ pRegs n).map x.regOf) g x ((x.dst is64 d g f).putP n g v) := by
  have result := x.wrote_dst is64 d g f
  have predicate := (x.dst is64 d g f).wrote_putP_named n g v
  rw [result.regOf] at predicate
  rw [List.map_append]
  exact (result.mono fun _ => List.mem_append_left _).trans (predicate.mono fun _ => List.mem_append_right _)

theorem laneFlags_zero (g : Lanes) {f : Nat → Nat} (h : ∀ l, f l = 0) : laneFlags g f = 0 := by
  unfold laneFlags
  induction lanesOf g with
  | nil => rfl
  | cons l ls ih => rw [List.foldl_cons, h l]; exact ih

/-! ### Bodies -/

/-- A body ends as a word on registers does: it has written those that the word names, raising no flag unless the word may; it
has ended the run (R109); or it waits for a register, and had no flit to give back (R95). -/
def RegisterEnd (ws : WordSpec) (raising : Bool) (t : State) (w : Nat) (g : Lanes) : WordEnd → Prop
  | .done u n => Touched ws.writes g w t u ∧ (raising = false → n = 0)
  | .yield u => u = t ∧ ws.opc = 1
  | .park u _ => u = t ∧ ws.reads = []
  | _ => False

/-- An instruction issues a word that acts on registers, and only with some lane taking part. -/
structure ActsOnRegisters (k : Instr) (ws : WordSpec) : Prop where
  idle : ws.always = false
  issues : ∃ body, (∀ s, exec k s = issue ws body s) ∧ ∀ t i g, RegisterEnd ws (mayRaise k) t i.w g (body t i g)

section
variable {k : Instr} {ws : WordSpec} {is64 : Bool} {d : Dst}

/-- A word whose lanes compute each its own result. -/
theorem acts_laneBody {f : Warp → Nat → Word64 × Nat} (issues : ∀ s, exec k s = issue ws (laneBody is64 d f) s)
    (idle : ws.always = false) (writes : ws.writes = dstRegs is64 d) (quiet : mayRaise k = false → ∀ x l, (f x l).2 = 0) :
    ActsOnRegisters k ws where
  idle := idle
  issues := by
    refine ⟨_, issues, fun t i g => ⟨?_, fun h => laneFlags_zero g (quiet h i.x)⟩⟩
    rw [writes]
    exact touched_updWarp t fun x => x.wrote_dst is64 d g _

/-- A word that writes one result computed from the whole warp. -/
theorem acts_result {v : Issuer → Lanes → Nat → Word64} {fl : Issuer → Lanes → Nat}
    (issues : ∀ s, exec k s = issue ws (fun t i g => .done (updWarp t i.w fun x => x.dst is64 d g (v i g)) (fl i g)) s)
    (idle : ws.always = false) (writes : ws.writes = dstRegs is64 d) (quiet : mayRaise k = false → ∀ i g, fl i g = 0) :
    ActsOnRegisters k ws where
  idle := idle
  issues := by
    refine ⟨_, issues, fun t i g => ⟨?_, fun h => quiet h i g⟩⟩
    rw [writes]
    exact touched_updWarp t fun x => x.wrote_dst is64 d g _

/-- A word that also writes a predicate. -/
theorem acts_carryBody {f : Warp → Nat → Word64 × Bool} {pc : Fin 8} (issues : ∀ s, exec k s = issue ws (carryBody is64 d pc f) s)
    (idle : ws.always = false) (writes : ws.writes = dstRegs is64 d ++ pRegs pc.val) : ActsOnRegisters k ws where
  idle := idle
  issues := by
    refine ⟨_, issues, fun t i g => ⟨?_, fun _ => rfl⟩⟩
    rw [writes]
    exact touched_updWarp t fun x => x.wrote_dst_putP is64 d pc.val g _ _

end

theorem acts_nop (g : Guard) : ActsOnRegisters (.nop g) (plainSpec 0x00 g) :=
  ⟨rfl, _, fun _ => rfl, fun t i _ => ⟨touched_refl _ _ i.w t, fun _ => rfl⟩⟩

theorem acts_yield (g : Guard) : ActsOnRegisters (.yield g) (plainSpec 0x01 g) :=
  ⟨rfl, _, fun _ => rfl, fun _ _ _ => ⟨rfl, rfl⟩⟩

theorem acts_cvt (g : Guard) (ty sty : Ty) (m : FMod) (d : Dst) (a b : Src) :
    ActsOnRegisters (.cvt g ty sty m d a b)
      (if sty = .f32 ∧ isHalf ty = true then aluSpec 0x50 g [(sty, a), (cvtTyB sty, b)] ty.is64 d
        else aluSpec 0x50 g [(sty, a)] ty.is64 d) := by
  by_cases pair : sty = .f32 ∧ isHalf ty = true
  · rw [if_pos pair]
    exact acts_laneBody (fun _ => if_pos pair) rfl rfl nofun
  · rw [if_neg pair]
    exact acts_laneBody (fun _ => if_neg pair) rfl rfl nofun

theorem acts_movl (g : Guard) (d a : Fin 256) :
    ActsOnRegisters (.movl g d a) { opc := 0x59, guard := g, reads := vQuad a.val, writes := vQuad d.val } where
  idle := rfl
  issues := by
    refine ⟨_, fun _ => rfl, fun t i m => ⟨touched_updWarp t (Warp.wrote_foldl fun k hk x => ?_), fun _ => rfl⟩⟩
    refine (x.wrote_putV (d.val + k) m _).mono fun r hr => ?_
    rw [List.mem_singleton.mp hr]
    refine List.mem_map.mpr ⟨.v (d.val + k), ?_, rfl⟩
    simp only [List.mem_cons, List.not_mem_nil, or_false] at hk
    rcases hk with rfl | rfl | rfl | rfl <;> simp [vQuad]

theorem acts_pmovUnpack (g : Guard) (a : Src) :
    ActsOnRegisters (.pmovUnpack g a) { opc := 0x37, guard := g, lit := a.isLit, reads := srcRegs false a, writes := allPreds } where
  idle := rfl
  issues := by
    refine ⟨_, fun _ => rfl, fun t i m => ⟨touched_updWarp t (Warp.wrote_foldl fun k hk x => ?_), fun _ => rfl⟩⟩
    refine (x.wrote_putP_named k m _).mono fun r hr => ?_
    obtain ⟨p, hp, rfl⟩ := List.mem_map.mp hr
    refine List.mem_map.mpr ⟨p, ?_, rfl⟩
    unfold pRegs at hp
    split at hp
    · exact absurd hp List.not_mem_nil
    · exact List.mem_map.mpr ⟨k, hk, (List.mem_singleton.mp hp).symm⟩

theorem readClock_elsewhere (w : Nat) (s : State) (core : Nat) :
    sameElsewhere w s (readClock s core).2 ∧ (readClock s core).2.warps = s.warps :=
  ⟨⟨rfl, fun _ _ => rfl, fun _ h => h⟩, rfl⟩

theorem acts_gets (g : Guard) (ty : Ty) (d : Dst) (code : BitVec 8) :
    ActsOnRegisters (.gets g ty d code) { specialSpec 0x5D g code 81 with writes := dstRegs ty.is64 d } where
  idle := rfl
  issues := by
    refine ⟨_, fun _ => rfl, fun t i m => ?_⟩
    dsimp only
    split
    · exact ⟨rfl, rfl⟩
    · split
      · obtain ⟨elsewhere, warps⟩ := readClock_elsewhere i.w t i.x.core
        have wrote := touched_updWarp (w := i.w) (readClock t i.x.core).2 fun x =>
          x.wrote_dst ty.is64 d m fun _ => (readClock t i.x.core).1
        exact ⟨⟨elsewhere.trans wrote.elsewhere, fun x hx => wrote.wrote x (warps ▸ hx)⟩, fun _ => rfl⟩
      · exact ⟨touched_updWarp t fun x => x.wrote_dst ty.is64 d m _, fun _ => rfl⟩

/-- Every word on registers acts as one. -/
theorem registerWord_acts {k : Instr} {ws : WordSpec} (h : registerWord k = some ws) : ActsOnRegisters k ws := by
  cases k with
  | nop g => exact Option.some.inj h ▸ acts_nop g
  | yield g => exact Option.some.inj h ▸ acts_yield g
  | add | sub | mul | mulhi | mad | madw | min | max | abs | neg | and | or | xor | not | shl | shr | sar | rot | bfe | bfi | popc
  | clz | brev | prmt | sad | lea | lop3 | iset | sel | plop | fclassPred | fclassMask | pmovPack | sbunpk | rng | mov =>
    exact Option.some.inj h ▸ acts_laneBody (fun _ => rfl) rfl rfl fun _ _ _ => rfl
  | idiv | irem | fset | fadd | fsub | fmul | ffma | fmin | fmax | frcp | frsq | fsqrt | fdiv | fexp2 | flog2 | fsin | fcos | ftanh
  | fdot2 | frnd | fscale | fgetx | fgetm | sbscl =>
    exact Option.some.inj h ▸ acts_laneBody (fun _ => rfl) rfl rfl nofun
  | addc | subb => exact Option.some.inj h ▸ acts_carryBody (fun _ => rfl) rfl rfl
  | vote | matchLanes | shfl | bcast => exact Option.some.inj h ▸ acts_result (fun _ => rfl) rfl rfl fun _ _ _ => rfl
  | sbpack | redux => exact Option.some.inj h ▸ acts_result (fun _ => rfl) rfl rfl nofun
  | cvt g ty sty m d a b => exact Option.some.inj h ▸ acts_cvt g ty sty m d a b
  | movl g d a => exact Option.some.inj h ▸ acts_movl g d a
  | pmovUnpack g a => exact Option.some.inj h ▸ acts_pmovUnpack g a
  | gets g ty d code => exact Option.some.inj h ▸ acts_gets g ty d code
  | _ => exact nomatch h

end Sys2Proof.Machine
end

section
/-! SUPPORT. Words with no lane taking part (R78, R108): each is issued, acts only with some lane, and then just passes. -/

namespace Sys2Proof.Machine

/-- An instruction issues a word that acts only with some lane taking part. -/
structure ActsWithLanes (k : Instr) (ws : WordSpec) : Prop where
  idle : ws.always = false
  issues : ∀ s, ∃ body, exec k s = issue ws body s

theorem ActsOnRegisters.withLanes {k : Instr} {ws : WordSpec} (h : ActsOnRegisters k ws) : ActsWithLanes k ws := by
  obtain ⟨idle, body, issues, -⟩ := h
  exact ⟨idle, fun s => ⟨body, issues s⟩⟩

theorem systemWord_withLanes {k : Instr} {ws : WordSpec} (h : systemWord k = some ws) : ActsWithLanes k ws := by
  cases k with
  | tret | tretSaved | tlbiPage | tlbiRange | tlbiAsid | genadv | dvsave | dvload | sigset | sigrd | mapft | killw | migr | scrub
  | keyz | qsaveRq | qsaveMac | qsaveRbq | qloadRq | qloadMac | qloadRbq | pgdisc =>
    exact Option.some.inj h ▸ ⟨rfl, fun _ => ⟨_, rfl⟩⟩
  | gets | sets =>
    obtain ⟨-, word⟩ := Option.ite_none_right_eq_some.mp h
    exact Option.some.inj word ▸ ⟨rfl, fun _ => ⟨_, rfl⟩⟩
  | _ => exact nomatch h

theorem accessWord_withLanes {k : Instr} {a : Access} (h : accessWord k = some a) : ActsWithLanes k a.ws := by
  cases k with
  | ld | lds | st | sts | atom | red | cas => exact Option.some.inj h ▸ ⟨rfl, fun _ => ⟨_, rfl⟩⟩
  | _ => exact nomatch h

/-- Settles O52: a word that acts only with some lane taking part is idle without one. -/
theorem wordsWithoutLanesPass : Obligations.WordsWithoutLanesPass := by
  unfold Obligations.WordsWithoutLanesPass
  intro k ws s t i family hi hb none
  have word : ActsWithLanes k ws := by
    rcases family with h | h | ⟨a, h, rfl⟩
    · exact (registerWord_acts h).withLanes
    · exact systemWord_withLanes h
    · exact accessWord_withLanes h
  obtain ⟨body, issues⟩ := word.issues s
  rw [issues, issue_idle hi hb none word.idle]

end Sys2Proof.Machine
end

section
/-! SUPPORT. What an issued word leaves of its warp, said once: where its effect begins, and after each end of a body. -/

namespace Sys2Proof.Machine

/-! ### The warp where a word's effect begins -/

theorem issuer_warp {s : State} {i : Issuer} (h : issuer s = some i) : s.warps.find? i.w = some i.x := by
  unfold issuer at h
  split at h
  · exact nomatch h
  · split at h
    · exact nomatch h
    · next hx =>
      dsimp only at h
      split at h
      · cases h
        exact hx
      · exact nomatch h

theorem countGrade_warps (s : State) (die cls nl g : Nat) : (countGrade s die cls nl g).warps = s.warps := by
  rw [(countGrade_read s die cls nl g).only]

theorem recordBank_warps (s : State) (k : Nat) : (recordBank s k).warps = s.warps := by
  unfold recordBank
  dsimp only
  split <;> rfl

theorem noteRow_warps (s : State) (row : Nat) : (noteRow s row).warps = s.warps := by
  have banks : ∀ (l : List Nat) (t : State),
      (l.foldl (fun s b => recordBank s (arrayOfRow row * 9 + b)) t).warps = t.warps := by
    intro l
    induction l with
    | nil => exact fun _ => rfl
    | cons b l ih => exact fun t => (ih _).trans (recordBank_warps ..)
  unfold noteRow
  dsimp only
  split
  · rfl
  · split
    · rw [countGrade_warps, banks]
    · split
      · rfl
      · rw [countGrade_warps, banks]

theorem noteRegs_warps (s : State) (w : Nat) (rs : List Reg) : (noteRegs s w rs).warps = s.warps := by
  have rows : ∀ (l : List Nat) (t : State), (l.foldl noteRow t).warps = t.warps := by
    intro l
    induction l with
    | nil => exact fun _ => rfl
    | cons r l ih => exact fun t => (ih _).trans (noteRow_warps ..)
  unfold noteRegs
  split
  · rfl
  · exact rows ..

theorem acquireScope_warps (s : State) (core : Nat) (sco : Scope) : (acquireScope s core sco).warps = s.warps := by
  cases sco <;> rfl

/-- A warp is still there, in the mode that it was in. -/
def KeepsMode (w : Nat) (s t : State) : Prop :=
  ∀ x, s.warps.find? w = some x → ∃ y, t.warps.find? w = some y ∧ y.handler.isSome = x.handler.isSome ∧ y.stopped = x.stopped

theorem keepsMode_of_warps {w : Nat} {s t : State} (h : t.warps = s.warps) : KeepsMode w s t :=
  fun x hx => ⟨x, h ▸ hx, rfl, rfl⟩

theorem KeepsMode.trans {w : Nat} {s t u : State} (h : KeepsMode w s t) (k : KeepsMode w t u) : KeepsMode w s u := by
  intro x hx
  obtain ⟨y, hy, modeY, stoppedY⟩ := h x hx
  obtain ⟨z, hz, modeZ, stoppedZ⟩ := k y hy
  exact ⟨z, hz, modeZ.trans modeY, stoppedZ.trans stoppedY⟩

theorem keepsMode_updWarp (s : State) (w : Nat) {f : Warp → Warp}
    (h : ∀ x, (f x).handler.isSome = x.handler.isSome ∧ (f x).stopped = x.stopped) : KeepsMode w s (updWarp s w f) :=
  fun x hx => ⟨f x, by rw [updWarp_find, if_pos rfl, hx, Option.map_some], h x⟩

theorem Warp.setRawS_mode (x : Warp) (r : Nat) (v : Word32) :
    (x.setRawS r v).handler.isSome = x.handler.isSome ∧ (x.setRawS r v).stopped = x.stopped := by
  obtain ⟨rest, bank⟩ := x.setRawS_rest r v
  refine ⟨by simpa using congrArg Option.isSome bank, ?_⟩
  rw [rest]

/-- The warp with a flit in S62 and S63 (R375). -/
def Warp.withFlit (x : Warp) (f : Flit) : Warp := { (x.setRawS 62 (loWord f.word)).setRawS 63 (hiWord f.word) with taken := some f }

theorem Warp.withFlit_mode (x : Warp) (f : Flit) :
    (x.withFlit f).handler.isSome = x.handler.isSome ∧ (x.withFlit f).stopped = x.stopped := by
  obtain ⟨mode62, stopped62⟩ := x.setRawS_mode 62 (loWord f.word)
  obtain ⟨mode63, stopped63⟩ := (x.setRawS 62 (loWord f.word)).setRawS_mode 63 (hiWord f.word)
  exact ⟨mode63.trans mode62, stopped63.trans stopped62⟩

theorem takeFlit_mode {s t : State} {w : Nat} (h : takeFlit s w = .taken t) : KeepsMode w s t := by
  unfold takeFlit at h
  dsimp only at h
  split at h
  · exact nomatch h
  · next f rest _ =>
    split at h
    · exact nomatch h
    · rw [Take.taken.injEq] at h
      have noted : KeepsMode w s (noteRow (updBlock s (warpAt s w).block fun x => { x with rq := rest }) (flitRow (warpAt s w).block)) :=
        keepsMode_of_warps (noteRow_warps ..)
      have filled := noted.trans (keepsMode_updWarp _ w (f := (·.withFlit f)) fun x => x.withFlit_mode f)
      split at h
      · exact h ▸ filled
      · exact h ▸ filled.trans (keepsMode_of_warps (acquireScope_warps ..))

theorem fed_mode {s t : State} {i : Issuer} {ws : WordSpec} (h : i.fed ws s = some t) : KeepsMode i.w s t := by
  unfold Issuer.fed at h
  split at h
  · split at h
    · exact nomatch h
    · split at h
      · next taken =>
        cases h
        exact takeFlit_mode taken
      · exact nomatch h
      · exact nomatch h
  · cases h
    exact keepsMode_of_warps rfl

/-- Where a word's effect begins its warp is there, in the mode in which the word was issued. -/
theorem begins_warp {s t : State} {i : Issuer} {ws : WordSpec} (hi : issuer s = some i) (hb : i.begins ws s = some t) :
    t.warps.find? i.w = some (warpAt t i.w) ∧ (warpAt t i.w).handler.isSome = i.x.handler.isSome ∧
      (warpAt t i.w).stopped = i.x.stopped := by
  have mode : KeepsMode i.w s t := by
    unfold Issuer.begins at hb
    split at hb
    · obtain ⟨u, fed, begins⟩ := Option.bind_eq_some_iff.mp hb
      obtain ⟨-, begun⟩ := Option.ite_none_right_eq_some.mp begins
      cases begun
      exact ((fed_mode fed).trans (keepsMode_of_warps (noteRegs_warps ..))).trans (keepsMode_updWarp _ _ fun _ => ⟨rfl, rfl⟩)
    · exact nomatch hb
  obtain ⟨x, hx, kept⟩ := mode i.x (issuer_warp hi)
  rw [warpAt_of_find hx]
  exact ⟨hx, kept⟩

/-! ### Traps -/

/-- A trap in user mode opens a handler, or ends the warp. -/
theorem takeTrap_opens {s : State} {w e : Nat} {f : FaultInfo} {r : Place} {x y : Warp} (hx : s.warps.find? w = some x)
    (user : x.handler = none) (going : x.stopped = false) (hy : (takeTrap s w e f r).warps.find? w = some y) :
    y.handler.isSome = true := by
  have at_ := warpAt_of_find hx
  unfold takeTrap at hy
  simp only [at_, user] at hy
  split at hy
  · simp only [killWarp, at_, going, Bool.false_and, Bool.false_eq_true, ↓reduceIte, killNow_gone _ _ _ _ hx] at hy
    exact nomatch hy
  · rw [settleWarp_kept hy, updWarp_find, if_pos rfl] at hy
    simp only [clearFocus_other, updWarp_find, if_pos, hx, Option.map_some, Option.some.injEq] at hy
    rw [← hy, Warp.moved_settle (x.openHandler e f r _)]
    rfl

end Sys2Proof.Machine
end

section
/-! SUPPORT. What each end of a body leaves of the word's warp (R93, R95, R138). -/

namespace Sys2Proof.Machine

/-- The end of a run moves lanes and pending writes only where an allotment takes registers away (R106). -/
theorem Warp.wentOn_runEnds_calm (x : Warp) (e stamp : Nat) : Warp.WentOn x.nextAllot.isSome x (x.runEnds e stamp) := by
  have ended := x.wentOn_runEnds e stamp
  refine { ended with calm := fun none => ?_ }
  simp only [Warp.runEnds, Warp.setSplit_other, Option.isNone_iff_eq_none.mp (Option.isSome_eq_false_iff.mp none), and_self]

/-- A word that is done, when no trap changes the warp's mode: the warp has gone on from where the effect left it, with the flags
that the word raised. -/
theorem conclude_done {i : Issuer} {ws : WordSpec} {g : Lanes} {u : State} {n : Nat} {x y : Warp} (silent : i.sends ws g = false)
    (hx : u.warps.find? i.w = some x) (mode : x.handler.isSome = i.x.handler.isSome) (going : x.stopped = false)
    (hy : (i.conclude ws g (.done u n)).warps.find? i.w = some y) (kept : y.handler.isSome = i.x.handler.isSome) :
    sameElsewhere i.w u (i.conclude ws g (.done u n)) ∧
      ∃ r, ∃ m < 512, (n = 0 → m = 0) ∧
        Warp.WentOn (i.last ws) { x with region := r, flags := x.flags ||| BitVec.ofNat 32 m } y := by
  obtain ⟨elsewhere, r, found⟩ := complete_same (ws := ws) u silent
  rw [hx, Option.map_some] at found
  simp only [Issuer.conclude, Issuer.raise] at hy ⊢
  split at hy
  · next none =>
    obtain ⟨moved, wentOn⟩ := advance_kept found hy
    rw [if_pos none]
    exact ⟨elsewhere.trans moved, r x, 0, by omega, fun _ => rfl, by simpa using wentOn⟩
  · next some =>
    have flagged : (updWarp (i.complete ws g u) i.w fun x => { x with flags := orFlags x.flags n }).warps.find? i.w =
        Option.some { x with region := r x, flags := orFlags x.flags n } := by
      rw [updWarp_find, if_pos rfl, found, Option.map_some]
    rw [if_neg some]
    split at hy
    · next calm =>
      obtain ⟨moved, wentOn⟩ := advance_kept flagged hy
      rw [if_pos calm]
      exact ⟨(elsewhere.trans (sameElsewhere_updWarp ..)).trans moved, r x, n % 512, by omega, fun h => absurd h some, wentOn⟩
    · next hot =>
      have user : x.handler = Option.none := by
        rw [← Option.isNone_iff_eq_none, ← Option.isSome_eq_false_iff, mode]
        exact Bool.eq_false_iff.mpr fun h => hot (.inr h)
      have opened := takeTrap_opens (x := { x with region := r x, flags := orFlags x.flags n }.runEnds i.e _)
        (by rw [endRun_find, flagged, Option.map_some]) ?_ ?_ hy
      · rw [kept, ← mode, user] at opened
        exact nomatch opened
      · rw [(Warp.wentOn_runEnds _ _ _).handler, user]
      · rw [(Warp.wentOn_runEnds _ _ _).rest, going]

theorem Warp.wentOn_setSplit (x : Warp) (e : Nat) (f : Split → Split) : Warp.WentOn false x (x.setSplit e f) :=
  x.wentOn_table false (x.setSplit e f).table

/-- A run that ends with its split placed anew leaves the warp gone on from where it stood. -/
theorem settle_endRun_updSplit {s : State} {w e : Nat} {f : Split → Split} {x y : Warp} (hx : s.warps.find? w = some x)
    (hy : (settleWarp (endRun (updSplit s w e f) w e) w).warps.find? w = some y) :
    sameElsewhere w s (settleWarp (endRun (updSplit s w e f) w e) w) ∧ Warp.WentOn true x y := by
  obtain ⟨ended, wentOn⟩ := settle_endRun (x := x.setSplit e f) (by rw [updSplit, updWarp_find, if_pos rfl, hx, Option.map_some]) hy
  exact ⟨(sameElsewhere_updSplit ..).trans ended, (x.wentOn_setSplit e f).trans wentOn (.inl ⟨rfl, rfl⟩)⟩

/-- A word that yields: its run has ended (R109). -/
theorem conclude_yield {i : Issuer} {ws : WordSpec} {g : Lanes} {u : State} {x y : Warp} (silent : i.sends ws g = false)
    (hx : u.warps.find? i.w = some x) (hy : (i.conclude ws g (.yield u)).warps.find? i.w = some y) :
    sameElsewhere i.w u (i.conclude ws g (.yield u)) ∧ ∃ r, Warp.WentOn true { x with region := r } y := by
  obtain ⟨elsewhere, r, found⟩ := complete_same (ws := ws) u silent
  rw [hx, Option.map_some] at found
  obtain ⟨ended, wentOn⟩ := settle_endRun_updSplit found hy
  exact ⟨elsewhere.trans ended, r x, wentOn⟩

/-- A run ends after its split's entry has changed, at the undoing of a word and at its park. -/
theorem Warp.wentOn_stops (x : Warp) (e : Nat) (f h : Split → Split) (stamp : Nat) :
    Warp.WentOn x.nextAllot.isSome x (((x.setSplit e f).setSplit e h).runEnds e stamp) :=
  (((x.wentOn_setSplit e f).trans ((x.setSplit e f).wentOn_setSplit e h) (.inl ⟨rfl, rfl⟩)).trans
    (Warp.wentOn_runEnds_calm ..) (.inl ⟨rfl, rfl⟩) :)

/-- A word that parks and has taken no flit: its split waits where it stood. -/
theorem conclude_park {i : Issuer} {ws : WordSpec} {g : Lanes} {u : State} {c : Park} {x y : Warp} (noFlit : i.takes ws g = false)
    (hx : u.warps.find? i.w = some x) (hy : (i.conclude ws g (.park u c)).warps.find? i.w = some y) :
    sameElsewhere i.w u (i.conclude ws g (.park u c)) ∧ Warp.WentOn x.nextAllot.isSome x y := by
  have back : i.giveBack ws g u = u := by simp only [Issuer.giveBack, noFlit]
  simp only [Issuer.conclude, back, Issuer.parkHere, Issuer.undo] at hy ⊢
  refine ⟨((sameElsewhere_updSplit ..).trans (sameElsewhere_updSplit ..)).trans (sameElsewhere_endRun ..), ?_⟩
  rw [endRun_find, updSplit, updWarp_find, if_pos rfl, updSplit, updWarp_find, if_pos rfl, hx] at hy
  simp only [Option.map_some, Option.some.injEq] at hy
  rw [← hy]
  exact x.wentOn_stops ..

end Sys2Proof.Machine
end

section
/-! SUPPORT. What a SETS writes, by the special register that it names (R129, R406). -/

namespace Sys2Proof.Machine

/-- What a trap preserved beside the field that a SETS of the code writes. -/
def Handler.beside (code : BitVec 8) (h : Handler) : Handler :=
  { h with bankV := [], bankS := [], flags := if code = 76 then 0 else h.flags, tpc := if code = 77 then 0 else h.tpc,
           tword := if code = 77 then false else h.tword, thdr := if code = 77 then 0 else h.thdr,
           tsplit := if code = 78 then 0 else h.tsplit }

/-- A SETS has written the special register of its code in the lanes of g: x' is the warp before it with MTGT, FLAGS and the
handler's state as they are after it. -/
structure Warp.Special (code : BitVec 8) (g : Lanes) (x y : Warp) : Prop where
  wrote : Warp.Wrote (hiddenReg code.toNat) g { x with mtgt := y.mtgt, flags := y.flags, handler := y.handler } y
  handler : ∃ f : Handler → Handler, y.handler = x.handler.map f ∧
    ∀ h, (f h).bankV = h.bankV ∧ (f h).bankS = h.bankS ∧ (f h).beside code = h.beside code
  flags : code ≠ 14 → y.flags = x.flags
  mtgt : code ≠ 17 → y.mtgt = x.mtgt

theorem Warp.special_refl (code : BitVec 8) (g : Lanes) (x : Warp) : Warp.Special code g x x :=
  ⟨.refl .., ⟨id, by simp, fun _ => ⟨rfl, rfl, rfl⟩⟩, fun _ => rfl, fun _ => rfl⟩

/-- A SETS that writes registers of the user's leaves the rest as it was. -/
theorem Warp.special_of_wrote {code : BitVec 8} {g : Lanes} {x y : Warp} (h : Warp.Wrote (hiddenReg code.toNat) g x y)
    (handler : y.handler = x.handler) : Warp.Special code g x y := by
  have flags : y.flags = x.flags := by rw [h.rest]
  have mtgt : y.mtgt = x.mtgt := by rw [h.rest]
  refine ⟨?_, ⟨id, by simp [handler], fun _ => ⟨rfl, rfl, rfl⟩⟩, fun _ => flags, fun _ => mtgt⟩
  rw [flags, mtgt, handler]
  exact h

/-- A SETS to V248-V255 as the user's code numbers them writes the lanes of g of one row. -/
theorem Warp.special_setRawV {code : BitVec 8} (low : 64 ≤ code.toNat) (high : code.toNat < 72) (g : Lanes) (x : Warp)
    (f : Nat → Word32) :
    Warp.Special code g x (x.setRawV (code.toNat + 184) (Row.upd (x.rawV (code.toNat + 184)) g f)) := by
  have named : hiddenReg code.toNat = [.v (code.toNat + 184)] := if_pos ⟨low, high⟩
  obtain ⟨rest, bank⟩ := x.setRawV_rest (code.toNat + 184) (Row.upd (x.rawV (code.toNat + 184)) g f)
  have sr : (x.setRawV (code.toNat + 184) (Row.upd (x.rawV (code.toNat + 184)) g f)).sr = x.sr := by rw [rest]
  refine special_of_wrote ⟨fun n l hl untouched => ?_, fun n _ => x.rawS_setRawV .., fun n l _ => ?_, ?_, bank⟩ ?_
  · by_cases same : n = code.toNat + 184
    · subst same
      have outside : g.getLsbD l = false := untouched.resolve_left (by simp [named])
      rw [Warp.rawV_setRawV_same _ _ _ (.inl (by omega)), Row.lane_upd _ _ _ hl, outside, if_neg Bool.false_ne_true]
    · rw [x.rawV_setRawV _ _ _ same]
  · rw [Warp.pred, Warp.pred, x.pr_setRawV]
  · exact rest.trans (by rw [x.pr_setRawV, sr])
  · rw [Warp.setRawV, if_neg (by omega)]

/-- A SETS to S56-S59 as the user's code numbers them writes that register. -/
theorem Warp.special_setRawS {code : BitVec 8} (low : 72 ≤ code.toNat) (high : code.toNat < 76) (g : Lanes) (x : Warp) (v : Word32) :
    Warp.Special code g x (x.setRawS (code.toNat - 16) v) := by
  have named : hiddenReg code.toNat = [.s (code.toNat - 16)] := by
    rw [hiddenReg, if_neg (by omega), if_pos ⟨low, high⟩]
  obtain ⟨rest, bank⟩ := x.setRawS_rest (code.toNat - 16) v
  have pr : (x.setRawS (code.toNat - 16) v).pr = x.pr := by rw [rest]
  refine special_of_wrote ⟨fun n l _ _ => by rw [x.rawV_setRawS], fun n other => ?_, fun n l _ => ?_, ?_, bank⟩ ?_
  · exact x.rawS_setRawS _ _ _ fun same => other (by rw [named, same]; exact List.mem_singleton_self _)
  · rw [Warp.pred, Warp.pred, pr]
  · exact rest.trans (by rw [pr, rest])
  · rw [Warp.setRawS, if_neg (by omega)]

/-- SETS writes the special register of its code, and no other. -/
theorem Warp.setSpecial_special (x : Warp) (code : BitVec 8) (g : Lanes) (v : Word64) (f : Nat → Word64) :
    Warp.Special code g x (x.setSpecial code.toNat g v f) := by
  have names : ∀ n < 256, (code.toNat = n ↔ code = BitVec.ofNat 8 n) := fun n hn => by
    rw [← BitVec.toNat_inj, BitVec.toNat_ofNat, Nat.mod_eq_of_lt hn]
  unfold Warp.setSpecial
  split
  · next is =>
    exact ⟨.refl .., ⟨id, by simp, fun _ => ⟨rfl, rfl, rfl⟩⟩, fun h => absurd ((names 14 (by decide)).mp is) h, fun _ => rfl⟩
  split
  · next is =>
    exact ⟨.refl .., ⟨id, by simp, fun _ => ⟨rfl, rfl, rfl⟩⟩, fun _ => rfl, fun h => absurd ((names 17 (by decide)).mp is) h⟩
  split
  · next range =>
    split
    · exact special_setRawV range.1 range.2 g x _
    · exact special_refl ..
  split
  · next range => exact special_setRawS range.1 range.2 g x _
  refine ⟨.refl .., ⟨_, rfl, fun h => ?_⟩, fun _ => rfl, fun _ => rfl⟩
  split
  · next is => exact ⟨rfl, rfl, by simp [Handler.beside, (names 76 (by decide)).mp is]⟩
  · next is => exact ⟨rfl, rfl, by simp [Handler.beside, (names 77 (by decide)).mp is]⟩
  · next is => exact ⟨rfl, rfl, by simp [Handler.beside, (names 78 (by decide)).mp is]⟩
  · exact ⟨rfl, rfl, rfl⟩

theorem Warp.Special.inHandler {code : BitVec 8} {g : Lanes} {x y : Warp} (h : Warp.Special code g x y) :
    y.handler.isSome = x.handler.isSome := by
  obtain ⟨f, is, -⟩ := h.handler
  rw [is, Option.isSome_map]

theorem Warp.Special.stopped {code : BitVec 8} {g : Lanes} {x y : Warp} (h : Warp.Special code g x y) : y.stopped = x.stopped := by
  rw [h.wrote.rest]

theorem Warp.Special.beside {code : BitVec 8} {g : Lanes} {x y : Warp} (h : Warp.Special code g x y) :
    y.handler.map (·.beside code) = x.handler.map (·.beside code) := by
  obtain ⟨f, is, kept⟩ := h.handler
  rw [is, Option.map_map]
  exact Option.map_congr fun h _ => (kept h).2.2

/-- The banks stand as they did, so that the registers read alike from either handler state. -/
theorem Warp.Special.raw {code : BitVec 8} {g : Lanes} {x y : Warp} (h : Warp.Special code g x y) (n : Nat) :
    ({ x with mtgt := y.mtgt, flags := y.flags, handler := y.handler } : Warp).rawV n = x.rawV n ∧
      ({ x with mtgt := y.mtgt, flags := y.flags, handler := y.handler } : Warp).rawS n = x.rawS n := by
  obtain ⟨f, is, kept⟩ := h.handler
  unfold Warp.rawV Warp.rawS
  rw [is]
  cases x.handler with
  | none => exact ⟨rfl, rfl⟩
  | some v => simp only [Option.map_some, (kept v).1, (kept v).2.1, and_self]

end Sys2Proof.Machine
end

section
/-! What a register word leaves as it was (O51; R78, R84, R129, R138, R151, R391, R406). -/

namespace Sys2Proof.Machine

theorem sameOtherwise_mono {b c : Bool} {x y : Warp} (h : sameOtherwise b x y)
    (weaker : c = false → b = false) : sameOtherwise c x y :=
  let ⟨rest, bank, calm⟩ := h
  ⟨rest, bank, fun none => calm (weaker none)⟩

/-- A warp that has written registers and gone on with the flags that the word raised. -/
theorem Warp.Wrote.wentOn {ds : List Reg} {g : Lanes} {b : Bool} {x y z : Warp} {r : Option Region} {f : Word32}
    (wrote : Warp.Wrote ds g x y) (on : Warp.WentOn b { y with region := r, flags := f } z) :
    sameRegisters ds g x z ∧ sameOtherwise b x z ∧ z.flags = f := by
  have scalars (n : Nat) : z.rawS n = y.rawS n := by rw [Warp.rawS, on.sr, on.handler]; rfl
  have predicates (n : Nat) : z.pred n = y.pred n := by rw [Warp.pred, on.pr]; rfl
  refine ⟨⟨fun n l hn hl untouched => ?_, fun n other => (scalars n).trans (wrote.s n other), fun n l untouched => ?_⟩,
    ⟨?_, ?_, fun none => ?_⟩, by rw [on.rest]⟩
  · rw [on.v n hn]
    exact wrote.v n l hl untouched
  · rw [predicates n]
    exact wrote.p n l untouched
  · rw [on.rest, wrote.rest]
  · rw [on.handler]
    exact wrote.bank
  · obtain ⟨live, pend, deferred⟩ := on.calm none
    rw [live, pend, deferred, wrote.rest]
    exact ⟨rfl, rfl, rfl⟩

/-- A word on registers, whichever way it ends. -/
theorem registerEnd_frame {i : Issuer} {ws : WordSpec} {raising : Bool} {g : Lanes} {t : State} {end_ : WordEnd} {x y : Warp}
    (ends : RegisterEnd ws raising t i.w g end_) (silent : i.sends ws g = false) (hx : t.warps.find? i.w = some x)
    (mode : x.handler.isSome = i.x.handler.isSome) (going : x.stopped = false)
    (hy : (i.conclude ws g end_).warps.find? i.w = some y) (kept : y.handler.isSome = i.x.handler.isSome) :
    sameElsewhere i.w t (i.conclude ws g end_) ∧ sameRegisters (ws.writes.map x.regOf) g x y ∧
      sameOtherwise (i.last ws || ws.opc == 1 || x.nextAllot.isSome) x y ∧ (∃ m < 512, y.flags = x.flags ||| BitVec.ofNat 32 m) ∧
        (raising = false → y.flags = x.flags) := by
  have noFlags : x.flags = x.flags ||| BitVec.ofNat 32 0 := by simp
  cases end_ with
  | done u n =>
    obtain ⟨⟨elsewhere, wrote⟩, quiet⟩ := ends
    obtain ⟨x', hx', wrote⟩ := wrote x hx
    obtain ⟨moved, r, m, small, raised, on⟩ :=
      conclude_done silent hx' (wrote.inHandler.trans mode) (by rw [wrote.rest, going]) hy kept
    obtain ⟨registers, otherwise, flags⟩ := wrote.wentOn on
    rw [show x'.flags = x.flags by rw [wrote.rest]] at flags
    refine ⟨elsewhere.trans moved, registers, sameOtherwise_mono otherwise ?_, ⟨m, small, flags⟩, fun h => ?_⟩
    · simp +contextual
    · rw [flags, raised (quiet h), ← noFlags]
  | yield u =>
    obtain ⟨rfl, opc⟩ := ends
    obtain ⟨moved, r, on⟩ := conclude_yield silent hx hy
    obtain ⟨registers, otherwise, flags⟩ := (Warp.Wrote.refl (ws.writes.map x.regOf) g x).wentOn (f := x.flags) on
    exact ⟨moved, registers, sameOtherwise_mono otherwise (by simp [opc]), ⟨0, by decide, flags.trans noFlags⟩, fun _ => flags⟩
  | park u c =>
    obtain ⟨rfl, reads⟩ := ends
    have noFlit : i.takes ws g = false := by simp [Issuer.takes, reads]
    obtain ⟨moved, on⟩ := conclude_park noFlit hx hy
    obtain ⟨registers, otherwise, flags⟩ :=
      (Warp.Wrote.refl (ws.writes.map x.regOf) g x).wentOn (r := x.region) (f := x.flags) on
    exact ⟨moved, registers, sameOtherwise_mono otherwise (by simp +contextual), ⟨0, by decide, flags.trans noFlags⟩,
      fun _ => flags⟩
  | _ => exact ends.elim

/-- A SETS that has gone on: its special register alone is written. -/
theorem Warp.Special.wentOn {code : BitVec 8} {g : Lanes} {b : Bool} {x y z : Warp} {r : Option Region}
    (special : Warp.Special code g x y) (on : Warp.WentOn b { y with region := r, flags := y.flags } z) :
    sameRegisters (hiddenReg code.toNat) g x z ∧ sameOtherwise b { x with mtgt := z.mtgt, handler := z.handler } z ∧
      (code ≠ 14 → z.flags = x.flags) ∧ (code ≠ 17 → z.mtgt = x.mtgt) ∧
        z.handler.map (·.beside code) = x.handler.map (·.beside code) := by
  obtain ⟨⟨vectors, scalars, predicates⟩, ⟨rest, -, calm⟩, flags⟩ := special.wrote.wentOn on
  have handler : z.handler = y.handler := on.handler
  have mtgt : z.mtgt = y.mtgt := by rw [on.rest]
  refine ⟨⟨fun n l hn hl untouched => ?_, fun n other => ?_, predicates⟩, ⟨?_, rfl, calm⟩,
    fun other => flags.trans (special.flags other), fun other => mtgt.trans (special.mtgt other), ?_⟩
  · rw [vectors n l hn hl untouched, (special.raw n).1]
  · rw [scalars n other, (special.raw n).2]
  · rw [← mtgt, ← handler] at rest
    exact rest
  · rw [handler]
    exact special.beside

/-- A SETS that is done, when no trap changes the warp's mode. -/
theorem special_done {code : BitVec 8} {i : Issuer} {ws : WordSpec} {g : Lanes} {t : State} {f : Warp → Warp} {x y : Warp}
    (silent : i.sends ws g = false) (hx : t.warps.find? i.w = some x) (special : Warp.Special code g x (f x))
    (mode : x.handler.isSome = i.x.handler.isSome) (going : x.stopped = false)
    (hy : (i.conclude ws g (.done (updWarp t i.w f) 0)).warps.find? i.w = some y) (kept : y.handler.isSome = i.x.handler.isSome) :
    sameElsewhere i.w t (i.conclude ws g (.done (updWarp t i.w f) 0)) ∧ sameRegisters (hiddenReg code.toNat) g x y ∧
      sameOtherwise (i.last ws || x.nextAllot.isSome) { x with mtgt := y.mtgt, handler := y.handler } y ∧
        (code ≠ 14 → y.flags = x.flags) ∧ (code ≠ 17 → y.mtgt = x.mtgt) ∧
          y.handler.map (·.beside code) = x.handler.map (·.beside code) := by
  have written : (updWarp t i.w f).warps.find? i.w = some (f x) := by rw [updWarp_find, if_pos rfl, hx, Option.map_some]
  obtain ⟨moved, r, m, -, raised, on⟩ :=
    conclude_done silent written (special.inHandler.trans mode) (special.stopped.trans going) hy kept
  rw [raised rfl, BitVec.or_zero] at on
  obtain ⟨registers, otherwise, rest⟩ := special.wentOn on
  exact ⟨(sameElsewhere_updWarp ..).trans moved, registers, sameOtherwise_mono otherwise (by simp +contextual), rest⟩

/-- The word of a SETS (R129). -/
def setsSpec (g : Guard) (ty : Ty) (code : BitVec 8) (a : Src) : WordSpec :=
  { specialSpec 0x5E g code 78 with lit := a.isLit, unclean := true, reads := srcRegs ty.is64 a }

/-- A word of the system class begins only in a handler (R389), where the message registers are plain (R375). -/
theorem begins_sys {s t : State} {i : Issuer} {ws : WordSpec} (hb : i.begins ws s = some t) (sys : ws.sys = true) :
    i.x.msgActive = false := by
  unfold Issuer.begins at hb
  split at hb
  · next free =>
    simp only [Issuer.free, sys, Bool.and_eq_true, Bool.true_and, Bool.not_eq_true'] at free
    simp [Warp.msgActive, free]
  · exact nomatch hb

theorem registerWord_frame {k : Instr} {ws : WordSpec} {s t u : State} {i : Issuer} {y : Warp} (word : registerWord k = some ws)
    (hi : issuer s = some i) (hb : i.begins ws s = some t) (acts : i.acts ws) (silent : i.sends ws (i.lanes ws) = false)
    (going : i.x.stopped = false) (hu : exec k s = .next u) (hy : u.warps.find? i.w = some y)
    (kept : y.handler.isSome = i.x.handler.isSome) :
    sameElsewhere i.w t u ∧ sameRegisters (ws.writes.map (warpAt t i.w).regOf) (i.lanes ws) (warpAt t i.w) y ∧
      sameOtherwise (i.last ws || ws.opc == 1 || (warpAt t i.w).nextAllot.isSome) (warpAt t i.w) y ∧
        (∃ m < 512, y.flags = (warpAt t i.w).flags ||| BitVec.ofNat 32 m) ∧
          (mayRaise k = false → y.flags = (warpAt t i.w).flags) := by
  obtain ⟨body, issues, ends⟩ := (registerWord_acts word).issues
  obtain ⟨hx, mode, stopped⟩ := begins_warp hi hb
  rw [issues, issue_begins hi hb acts] at hu
  cases hu
  exact registerEnd_frame (ends t (i.within t) (i.lanes ws)) silent hx mode (stopped.trans going) hy kept

theorem sets_frame {g : Guard} {ty : Ty} {code : BitVec 8} {a : Src} {s t u : State} {i : Issuer} {y : Warp}
    (hi : issuer s = some i) (hb : i.begins (setsSpec g ty code a) s = some t) (acts : i.acts (setsSpec g ty code a))
    (going : i.x.stopped = false) (hu : exec (.sets g ty code a) s = .next u) (hy : u.warps.find? i.w = some y)
    (kept : y.handler.isSome = i.x.handler.isSome) :
    sameElsewhere i.w t u ∧ sameRegisters (hiddenReg code.toNat) (i.lanes (setsSpec g ty code a)) (warpAt t i.w) y ∧
      sameOtherwise (i.last (setsSpec g ty code a) || (warpAt t i.w).nextAllot.isSome)
        { warpAt t i.w with mtgt := y.mtgt, handler := y.handler } y ∧
      (code ≠ 14 → y.flags = (warpAt t i.w).flags) ∧ (code ≠ 17 → y.mtgt = (warpAt t i.w).mtgt) ∧
        y.handler.map (·.beside code) = (warpAt t i.w).handler.map (·.beside code) := by
  obtain ⟨hx, mode, stopped⟩ := begins_warp hi hb
  have silent : i.sends (setsSpec g ty code a) (i.lanes (setsSpec g ty code a)) = false := by
    simp [Issuer.sends, setsSpec, specialSpec]
  have issues : exec (.sets g ty code a) s = issue (setsSpec g ty code a) _ s := rfl
  rw [issues, issue_begins hi hb acts] at hu
  cases hu
  dsimp only at hy ⊢
  split at hy
  · next waits =>
    rw [if_pos waits]
    have sys : (setsSpec g ty code a).sys = true := by
      refine decide_eq_true (Nat.le_of_not_lt fun user => waits ?_)
      rw [hiddenReg, if_neg (by omega), if_neg (by omega), List.filter_nil]
    have noFlit : i.takes (setsSpec g ty code a) (i.lanes (setsSpec g ty code a)) = false := by
      simp [Issuer.takes, begins_sys hb sys]
    obtain ⟨moved, on⟩ := conclude_park noFlit hx hy
    obtain ⟨registers, otherwise, rest⟩ := (Warp.special_refl code _ (warpAt t i.w)).wentOn (r := (warpAt t i.w).region) on
    exact ⟨moved, registers, sameOtherwise_mono otherwise (by simp +contextual), rest⟩
  · next ready =>
    rw [if_neg ready]
    exact special_done silent hx ((warpAt t i.w).setSpecial_special code ..) mode (stopped.trans going) hy kept

/-- Settles O51: where a register word begins its warp stands in the mode in which it was issued (`begins_warp`), its body writes
what it names (`registerWord_acts`), and each end of a body leaves the rest (`conclude_done`, `conclude_yield`, `conclude_park`);
a SETS writes the register of its code alone (`Warp.setSpecial_special`). -/
theorem registerWordsFrame : Obligations.RegisterWordsFrame :=
  ⟨fun _ _ _ _ _ _ _ word hi hb acts silent going hu hy kept => registerWord_frame word hi hb acts silent going hu hy kept,
    fun _ _ _ _ _ _ _ _ _ hi hb acts going hu hy kept => sets_frame hi hb acts going hu hy kept⟩

end Sys2Proof.Machine
end

section
/-! SUPPORT. DISPATCH, ROLE, LAUNCH and WSYNC where their words act (R105, R106, R119 to R122): each condition leaves one branch of
its body. -/

namespace Sys2Proof.Machine

/-- The word of a ROLE (R120). -/
def roleSpec (g : Guard) (pd : Fin 8) (sb : Fin 64) : WordSpec :=
  { plainSpec 0x0A g with noHandler := true, unclean := true, writes := pRegs pd.val ++ sRegs true sb.val }

/-- The warp's splits, or the role's limit, do not let a ROLE to an existing role succeed (R105). -/
def roleBarred (s : State) (i : Issuer) (r : Nat) (e : RoleEntry) : Prop :=
  i.x.table.valid.length ≠ 1 ∨ i.p.frames ≠ [] ∨ i.p.spilled ≠ 0 ∨ e.lim ≤ roleCount s i.x.block i.w r

theorem role_fails (g : Guard) (pd : Fin 8) (sb : Fin 64) (r : Fin 8) (s : State) :
    CompletesWhen (.role g pd sb r) (roleSpec g pd sb)
      (fun t i _ => (launchAt t i.x.launch).role r.val = none ∨
        ∃ e, (launchAt t i.x.launch).role r.val = some e ∧ roleBarred t i r.val e)
      (fun t i m => .unwritten (updWarp t i.w fun x => x.putP pd.val m 0)) s := by
  refine completes_of rfl fun t i m fails => ?_
  rcases fails with absent | ⟨e, entry, barred⟩
  · simp only [absent]
  · unfold roleBarred at barred
    simp only [entry, barred, ↓reduceIte]

/-- No pending write names a vector register that the new allotment takes away (R106). -/
theorem beyond_allotment_empty {rs : List Reg} {allot : Nat} (within : ∀ n, .v n ∈ rs → n < allot) :
    (rs.filter fun q => match q with | .v n => decide (allot ≤ n) | _ => false) = [] := by
  refine List.filter_eq_nil_iff.mpr fun q hq => ?_
  cases q with
  | v n => simpa using within n hq
  | s n => exact Bool.false_ne_true
  | p n => exact Bool.false_ne_true

theorem role_succeeds (g : Guard) (pd : Fin 8) (sb : Fin 64) (r : Fin 8) (e : RoleEntry) (s : State) :
    CompletesWhen (.role g pd sb r) (roleSpec g pd sb)
      (fun t i _ => (launchAt t i.x.launch).role r.val = some e ∧ i.x.table.valid.length = 1 ∧ i.p.frames = [] ∧
        i.p.spilled = 0 ∧ roleCount t i.x.block i.w r.val < e.lim ∧ ∀ n, .v n ∈ i.x.pendingRegs → n < e.vreg)
      (fun t i m =>
        let a := (launchAt t i.x.launch).kimg + BitVec.ofNat 64 e.entry
        .done (updWarp t i.w fun x =>
          (({ x with role := r.val, cls := e.cls, nextAllot := some e.vreg }.putP pd.val m m).putS sb.val (loWord a)).putS
            (sb.val + 1) (hiWord a)) 0) s := by
  refine completes_of rfl fun t i m ⟨entry, whole, frames, spilled, room, within⟩ => ?_
  have free : ¬roleBarred t i r.val e := by simp [roleBarred, whole, frames, spilled, Nat.not_le.mpr room]
  unfold roleBarred at free
  simp only [entry, free, ↓reduceIte]
  exact if_neg (not_not.mpr (beyond_allotment_empty within))

/-- WSYNC answers once every lane that it waits for is there or excused (R122). -/
theorem wsync_answers (g : Guard) (pd : Fin 8) (sa : Fin 64) (s : State) :
    let ws : WordSpec := { plainSpec 0x0D g with noHandler := true, orders := true, reads := sRegs false sa.val, writes := pRegs pd.val }
    CompletesWhen (.wsync g pd sa) ws
      (fun _ i m => ((i.x.getS sa.val ||| m) &&& i.x.alive) &&& ~~~(wsyncHere i ||| wsyncExcused i.x) = 0)
      (fun t i m =>
        let val := ((i.x.getS sa.val ||| m) &&& i.x.alive) &&& ~~~(wsyncHere i) == 0
        let u := updWarp t i.w fun x => x.putP pd.val (i.x.active i.e) (if val then i.x.active i.e else 0)
        .done ((wsyncMates i).foldl (wsyncRelease ws i pd.val val) u) 0) s :=
  completes_of rfl fun _ _ _ met => if_neg (not_not.mpr met)

/-- Settles O12: DISPATCH and LAUNCH have one way to act; ROLE's conditions and WSYNC's leave one branch of their bodies each. -/
theorem launchWordsComplete : Obligations.LaunchWordsComplete := by
  unfold Obligations.LaunchWordsComplete
  intro g ser reg aux pd r sa sb e s
  exact ⟨completes_of rfl fun _ _ _ _ => rfl, ⟨role_fails g pd sb r s, role_succeeds g pd sb r e s⟩,
    completes_of rfl fun _ _ _ _ => rfl, wsync_answers g pd sa s⟩

end Sys2Proof.Machine
end

section
/-! SUPPORT. Operations of memory, of the network and of on-chip rows that leave every warp as it was. -/

namespace Sys2Proof.Machine

/-- What every step of a fold keeps, the fold keeps. -/
theorem foldl_keeps {σ α β : Type} (part : σ → β) {f : σ → α → σ} (h : ∀ q a, part (f q a) = part q) (l : List α) (q : σ) :
    part (l.foldl f q) = part q := by
  induction l generalizing q with
  | nil => rfl
  | cons a l ih => rw [List.foldl_cons, ih, h]

theorem HomeOnly.warps {s t : State} (h : HomeOnly s t) : t.warps = s.warps := by rw [h]

theorem AtHome.warps {s t : State} (h : AtHome s t) : t.warps = s.warps := h.only.warps

theorem AtLink.warps {s t : State} (h : AtLink s t) : t.warps = s.warps := h.only.warps

theorem crossLinks_atLink (s : State) (n : Nat) (l : List Nat) : AtLink s (crossLinks s n l).1 := by
  have go : ∀ (l : List Nat) (r : State × Passed), AtLink r.1 (l.foldl (crossLink n) r).1 := by
    intro l
    induction l with
    | nil => exact fun r => .refl r.1
    | cons i l ih => exact fun r => (crossLink_atLink n r i).trans (ih _)
  exact go l (s, .clean)

theorem noteSpad_warps (s : State) (pa n : Nat) : (noteSpad s pa n).warps = s.warps := by
  unfold noteSpad
  split
  · rfl
  · exact foldl_keeps State.warps (fun t _ => noteRow_warps t _) _ _

theorem cleanRegRows_warps (s : State) (w : Nat) (g : Lanes) (rs : List Reg) : (cleanRegRows s w g rs).warps = s.warps := by
  rw [(cleanRegRows_eq s w g rs).1]

theorem writeBack_warps (s : State) (l : L1Line) : (writeBack s l).warps = s.warps := by
  unfold writeBack
  split
  · rfl
  · exact (maskedLine_home ..).warps

theorem releaseL1_warps (s : State) (core : Nat) : (releaseL1 s core).warps = s.warps :=
  foldl_keeps State.warps (fun t l => writeBack_warps t l) _ _

theorem releaseScope_warps (s : State) (core : Nat) (sco : Scope) : (releaseScope s core sco).warps = s.warps := by
  cases sco with
  | none | warp | block => rfl
  | system => exact (drainEgress_home _).warps.trans (releaseL1_warps s core)
  | cluster | die | device | domain => exact releaseL1_warps s core

theorem sendEntry_warps (s : State) (links : List Nat) (e : NetEntry) : (sendEntry s links e).1.warps = s.warps := by
  unfold sendEntry
  split
  · rfl
  · exact (crossLinks_atLink s 1 links).warps

theorem sendFlit_warps (s : State) (w : Nat) (mtgt : Word32) (flit : Word64) : (sendFlit s w mtgt flit).warps = s.warps := by
  have released := releaseScope_warps s (warpAt s w).core (flitScope s w (mtgtOf mtgt).1 (mtgtOf mtgt).2)
  unfold sendFlit
  dsimp only
  split <;> exact (sendEntry_warps ..).trans released

end Sys2Proof.Machine
end

section
/-! SUPPORT. The registers of a warp apart from the rest of it: what changes none of them, and what writes some of a list. -/

namespace Sys2Proof.Machine

/-- The registers of a warp, with the bank of its handler (R391). -/
structure Registers where
  v : Tbl Row
  sr : Tbl Word32
  pr : Tbl Lanes
  bank : Option (Tbl Row × Tbl Word32)

def Warp.registers (x : Warp) : Registers :=
  { v := x.v, sr := x.sr, pr := x.pr, bank := x.handler.map fun h => (h.bankV, h.bankS) }

section
variable {x y : Warp} (h : y.registers = x.registers)
include h

theorem Warp.bank_of_registers : y.handler.map (fun h => (h.bankV, h.bankS)) = x.handler.map fun h => (h.bankV, h.bankS) :=
  congrArg Registers.bank h

theorem Warp.mode_of_registers : y.handler.isSome = x.handler.isSome := by
  simpa using congrArg Option.isSome (Warp.bank_of_registers h)

theorem Warp.rawV_of_registers (n : Nat) : y.rawV n = x.rawV n := by
  have file : y.v = x.v := congrArg Registers.v h
  have bank := Warp.bank_of_registers h
  unfold Warp.rawV
  cases hx : x.handler <;> cases hy : y.handler <;> simp_all

theorem Warp.rawS_of_registers (n : Nat) : y.rawS n = x.rawS n := by
  have file : y.sr = x.sr := congrArg Registers.sr h
  have bank := Warp.bank_of_registers h
  unfold Warp.rawS
  cases hx : x.handler <;> cases hy : y.handler <;> simp_all

theorem Warp.pred_of_registers (n : Nat) : y.pred n = x.pred n := by
  rw [Warp.pred, Warp.pred, show y.pr = x.pr from congrArg Registers.pr h]

end

/-- A warp that has written registers of a list, and changed otherwise, has its other registers as they were. -/
theorem Warp.Wrote.sameRegisters {ds : List Reg} {g : Lanes} {x y z : Warp} (wrote : Warp.Wrote ds g x y)
    (same : z.registers = y.registers) : sameRegisters ds g x z :=
  ⟨fun n l _ hl untouched => by rw [Warp.rawV_of_registers same, wrote.v n l hl untouched],
    fun n other => by rw [Warp.rawS_of_registers same, wrote.s n other],
    fun n l untouched => by rw [Warp.pred_of_registers same, wrote.p n l untouched]⟩

theorem allLanes_lane {l : Nat} (hl : l < 32) : allLanes.getLsbD l = true := by
  rw [show allLanes = BitVec.allOnes 32 from rfl, BitVec.getLsbD_allOnes, decide_eq_true hl]

/-- Registers written in some lanes are written in no others than all. -/
theorem Warp.Wrote.inAllLanes {ds : List Reg} {g : Lanes} {x y : Warp} (h : Warp.Wrote ds g x y) : Warp.Wrote ds allLanes x y where
  v n l hl untouched := h.v n l hl (.inl (untouched.resolve_right (by simp [allLanes_lane hl])))
  s := h.s
  p n l untouched := by
    by_cases hl : l < 32
    · exact h.p n l (.inl (untouched.resolve_right (by simp [allLanes_lane hl])))
    · rw [BitVec.getLsbD_of_ge _ l (by omega), BitVec.getLsbD_of_ge _ l (by omega)]
  rest := h.rest
  bank := h.bank

theorem Warp.wrote_setRawV (x : Warp) (r : Nat) (row : Row) : Warp.Wrote [.v r] allLanes x (x.setRawV r row) where
  v k l hl untouched := by
    have other : k ≠ r := by
      rintro rfl
      exact untouched.elim (fun h => h (List.mem_singleton_self _)) (by simp [allLanes_lane hl])
    rw [x.rawV_setRawV r k row other]
  s k _ := x.rawS_setRawV ..
  p k l _ := by rw [Warp.pred, Warp.pred, x.pr_setRawV]
  rest := by
    have rest := (x.setRawV_rest r row).1
    rw [rest]
  bank := (x.setRawV_rest r row).2

theorem Warp.wrote_setRawS (x : Warp) (r : Nat) (a : Word32) (g : Lanes) : Warp.Wrote [.s r] g x (x.setRawS r a) where
  v k l _ _ := by rw [x.rawV_setRawS]
  s k other := x.rawS_setRawS r k a fun same => other (by rw [same]; exact List.mem_singleton_self _)
  p k l _ := by rw [Warp.pred, Warp.pred, x.pr_setRawS]
  rest := by
    have rest := (x.setRawS_rest r a).1
    rw [rest]
  bank := (x.setRawS_rest r a).2

end Sys2Proof.Machine
end

section
/-! What a landing write leaves as it was (O54; R95, R96, R106, R246, R375, R456). -/

namespace Sys2Proof.Machine

/-! ### The destinations -/

theorem landDest_wrote (byHandler : Bool) (x : Warp) (d : PDest) : Warp.Wrote [d.reg] allLanes x (landDest byHandler x d) := by
  cases d with
  | v r ls row =>
    unfold landDest
    dsimp only
    split
    · exact .refl ..
    · exact x.wrote_setRawV r _
  | s r a =>
    unfold landDest
    dsimp only
    split
    · exact .refl ..
    · exact x.wrote_setRawS r a _
  | p r ls vs =>
    refine (x.wrote_putP r ls vs).inAllLanes.mono fun q hq => ?_
    unfold pRegs at hq
    split at hq
    · exact absurd hq List.not_mem_nil
    · exact hq

theorem landDests_wrote (byHandler : Bool) (ds : List PDest) (x : Warp) :
    Warp.Wrote (ds.map PDest.reg) allLanes x (ds.foldl (landDest byHandler) x) := by
  induction ds generalizing x with
  | nil => exact .refl ..
  | cons d ds ih =>
    have first := (landDest_wrote byHandler x d).mono (es := (d :: ds).map PDest.reg) fun r hr => by
      rw [List.mem_singleton.mp hr]
      exact List.mem_cons_self
    exact first.trans ((ih _).mono fun r => List.mem_cons_of_mem _)

theorem Warp.mergeFlags_registers (x : Warp) (byHandler : Bool) (n : Nat) : (x.mergeFlags byHandler n).registers = x.registers := by
  unfold Warp.mergeFlags Warp.registers
  split
  · next hx => split <;> simp [hx]
  · split <;> rfl

/-- A warp that may keep a fault for later has the registers that it had. -/
theorem Warp.kept_registers (x : Warp) (fault hot : Prop) [Decidable fault] [Decidable hot] (p q : Pending) :
    (if fault then { x with deferred := insertDeferred x.deferred p }
      else if hot then { x with deferred := insertDeferred x.deferred q } else x).registers = x.registers := by
  split
  · rfl
  · split <;> rfl

/-- Flags, GRADE and the faults kept for later are none of the registers. -/
theorem Warp.land_registers (x : Warp) (p : Pending) :
    ∃ ds : List PDest, (∀ d ∈ ds, d ∈ p.dests) ∧ (x.land p).registers = (ds.foldl (landDest p.handler) x).registers := by
  refine ⟨p.dests.filter fun d => match d with | .s _ _ => p.fault.isNone | _ => true, fun d => List.mem_of_mem_filter, ?_⟩
  rw [← Warp.mergeFlags_registers (List.foldl ..) p.handler p.flags]
  unfold Warp.land
  dsimp only
  generalize Warp.mergeFlags (List.foldl ..) p.handler p.flags = y
  cases p.grade with
  | none => exact Warp.kept_registers y ..
  | some g => exact Warp.kept_registers { y with grade := g } ..

theorem Warp.land_sameRegisters {rs : List Reg} (x : Warp) (pend : List Pending) {p : Pending}
    (named : ∀ r ∈ p.dests.map PDest.reg, r ∈ rs) : sameRegisters rs allLanes x ({ x with pend := pend }.land p) := by
  obtain ⟨ds, among, same⟩ := Warp.land_registers { x with pend := pend } p
  have wrote := (landDests_wrote p.handler ds { x with pend := pend }).mono (es := rs) fun r hr => by
    obtain ⟨d, hd, rfl⟩ := List.mem_map.mp hr
    exact named _ (List.mem_map_of_mem (among d hd))
  exact wrote.sameRegisters same

/-! ### What a group load reads first (R265) -/

theorem groupNotes_warps (s : State) (w : Nat) (r : LdgReq) : (groupNotes s w r).1.warps = s.warps := by
  unfold groupNotes
  refine foldl_keeps (fun q : State × List Nat => q.1.warps) (fun q l => ?_) _ _
  refine foldl_keeps (fun q : State × List Nat => q.1.warps) (fun q b => ?_) _ _
  exact (noteSpad_warps ..).trans (travel_read ..).1.warps

theorem groupRead_regs (s : State) (w : Nat) (p : Pending) (r : LdgReq) (hit : List Nat) :
    ∀ q ∈ (groupRead s w p r hit).dests.map PDest.reg, q ∈ p.dests.map PDest.reg := by
  intro q hq
  obtain ⟨d, hd, rfl⟩ := List.mem_map.mp hq
  unfold groupRead at hd
  obtain ⟨⟨c, k⟩, hc, rfl⟩ := List.mem_map.mp hd
  have named := List.mem_map_of_mem (f := PDest.reg) (List.of_mem_zip hc).1
  cases c <;> exact named

theorem landRead_warps (s : State) (w : Nat) (p : Pending) : (landRead s w p).1.warps = s.warps := by
  unfold landRead
  split
  · refine (groupNotes_warps ..).trans ?_
    split <;> rfl
  · rfl

theorem landRead_regs (s : State) (w : Nat) (p : Pending) :
    ∀ q ∈ (landRead s w p).2.dests.map PDest.reg, q ∈ p.dests.map PDest.reg := by
  unfold landRead
  split
  · exact groupRead_regs _ w p _ _
  · exact fun _ => id

theorem landRows_warps (s : State) (w : Nat) (p : Pending) : (landRows s w p).warps = s.warps := by
  unfold landRows
  refine foldl_keeps State.warps (fun t d => ?_) _ _
  cases d with
  | v r ls row => exact cleanRegRows_warps ..
  | s | p => rfl

/-! ### The landing -/

/-- A pending write that has to wait leaves the state as it is; one that lands changes its warp and no other. -/
theorem landWrite_warps {s : State} {w n : Nat} {p : Pending} (hp : (warpAt s w).pend[n]? = some p) :
    landWrite s w n = s ∨ (landWrite s w n).warps =
      (updWarp s w fun x => { x with pend := x.pend.eraseIdx n }.land (landRead s w p).2).warps := by
  by_cases held : ∃ r, p.ldg = some r ∧ groupHeld s (warpAt s w).launch r = true
  · obtain ⟨r, hl, held⟩ := held
    exact .inl (by simp [landWrite, hp, hl, held])
  by_cases next : landsNext (warpAt s w) n p = true
  case neg => exact .inl (by simp [landWrite, hp, next])
  by_cases room : landSends (warpAt s w) p = true ∧ (windowFull s w p.mtgt).isSome = true
  · exact .inl (by simp [landWrite, hp, room])
  have lands := landWrite_lands hp
    (fun r hl => Bool.eq_false_iff.mpr fun h => held ⟨r, hl, h⟩) next
    (fun sends => Option.not_isSome_iff_eq_none.mp fun full => room ⟨sends, full⟩)
  have there : (landed s w n p).warps =
      (updWarp s w fun x => { x with pend := x.pend.eraseIdx n }.land (landRead s w p).2).warps := by
    rw [landed, landRows_warps, updWarp_warps, landRead_warps, updWarp_warps]
  refine .inr ?_
  rw [lands]
  split
  · rw [sendFlit_warps, there]
  · exact there

/-- Settles O54: a landing changes one warp (`landWrite_warps`), and of its registers those of the destinations
(`Warp.land_sameRegisters`), which a group load's read does not add to (`landRead_regs`). -/
theorem landingsLeaveOtherRegisters : Obligations.LandingsLeaveOtherRegisters := by
  unfold Obligations.LandingsLeaveOtherRegisters
  intro w n p s u y hp hu hy
  obtain rfl : landWrite s w n = u := Host.Outcome.next.inj hu
  rcases landWrite_warps hp with same | lands
  · rw [same] at hy ⊢
    rw [warpAt_of_find hy]
    exact ⟨(Warp.Wrote.refl _ _ y).sameRegisters rfl, fun _ _ => rfl⟩
  · rw [lands, updWarp_find, if_pos rfl] at hy
    obtain ⟨x, hx, rfl⟩ := Option.map_eq_some_iff.mp hy
    rw [warpAt_of_find hx]
    exact ⟨x.land_sameRegisters _ (landRead_regs s w p), fun v other => by rw [lands, updWarp_find, if_neg other]⟩

end Sys2Proof.Machine
end

section
/-! SUPPORT. Translation, fetch and the memory accesses of one lane leave every warp as it was, but for a write that reaches a
device register. -/

namespace Sys2Proof.Machine

/-! ### Translation (R185 to R195) -/

theorem spoilDevice_warps (s : State) (pa : Nat) (flips : List Nat) (d : Deliv) : (spoilDevice s pa flips d).1.warps = s.warps := by
  unfold spoilDevice
  split
  · rfl
  · exact (spoilRead_read s pa d.data.length 0 0 true flips).warps

theorem entryRead_warps (s : State) (die : Option Nat) (pa : Nat) : (entryRead s die pa).1.warps = s.warps := by
  cases die with
  | none => exact (deviceDeliv_home s pa 8).warps
  | some k =>
    exact (spoilDevice_warps ..).trans ((deviceDeliv_home _ pa 8).warps.trans (travelFrom_read s k (k * 64) none pa false).1.warps)

theorem walkFrom_warps (die : Option Nat) (va : Nat) (levels : List (Nat × Option PageSize)) (s : State) (base : Nat) :
    (walkFrom s die va levels base).1.warps = s.warps := by
  induction levels generalizing s base with
  | nil => rfl
  | cons level rest ih =>
    obtain ⟨sh, size⟩ := level
    have read := entryRead_warps s die (base + va / 2 ^ sh % 512 * 8)
    unfold walkFrom
    dsimp only
    split
    · exact read
    split
    · exact read
    split
    · split
      · split <;> exact read
      · exact read
    split
    · exact read
    · exact (ih ..).trans read

theorem walkBy_warps (s : State) (die : Option Nat) (slot va : Nat) : (walkBy s die slot va).1.warps = s.warps := by
  unfold walkBy
  dsimp only
  split
  · rfl
  · exact walkFrom_warps ..

theorem raceEntry_warps (s : State) (at_ : Nat) : (raceEntry s at_).warps = s.warps := by
  unfold raceEntry
  split
  · exact (deviceWrite_home ..).warps
  · rfl

theorem swapEntry_warps (s : State) (at_ old new : Nat) : (swapEntry s at_ old new).1.warps = s.warps := by
  unfold swapEntry
  dsimp only
  split
  · exact (deviceWrite_home ..).warps.trans (raceEntry_warps ..)
  · exact raceEntry_warps ..

/-- Whichever way is taken, it leaves the warps. -/
theorem ite_warps {α : Type} {c : Prop} [Decidable c] {a b : State × α} {ws : Tbl Warp} (ha : a.1.warps = ws) (hb : b.1.warps = ws) :
    (if c then a else b).1.warps = ws := by
  split
  · exact ha
  · exact hb

theorem setAD_warps (s : State) (at_ e : Nat) (write : Bool) : (setAD s at_ e write).1.warps = s.warps := by
  unfold setAD
  dsimp only
  generalize (if bitOf e 6 = true then e else e + 2 ^ 6) = accessed
  generalize (if (write && leafPst e == 0 && !bitOf accessed 7) = true then accessed + 2 ^ 7 else accessed) = marked
  split
  · rfl
  · dsimp only
    exact swapEntry_warps ..

theorem xlateTry_warps (s : State) (core slot asid va : Nat) (k : Acc) (user : Bool) :
    (xlateTry s core slot asid va k user).1.warps = s.warps := by
  have walked := walkBy_warps s (some (coreDie core)) slot va
  unfold xlateTry
  generalize walkBy s (some (coreDie core)) slot va = r at walked ⊢
  obtain ⟨t, found⟩ := r
  cases found with
  | invalid | malformed | lost => exact walked
  | leaf at_ e size =>
    dsimp only
    have marked := (setAD_warps t at_ e k.writes).trans walked
    split
    · exact walked
    · generalize setAD t at_ e k.writes = q at marked ⊢
      obtain ⟨u, e'⟩ := q
      cases e' <;> exact marked

theorem xlateLoop_warps {once : State → State × Option Xl} (h : ∀ s, (once s).1.warps = s.warps) (n : Nat) (s : State) :
    (xlateLoop once n s).1.warps = s.warps := by
  induction n generalizing s with
  | zero => rfl
  | succ n ih =>
    have first := h s
    unfold xlateLoop
    generalize once s = r at first ⊢
    obtain ⟨t, found⟩ := r
    cases found with
    | none => exact (ih t).trans first
    | some x => exact first

theorem xlateWalk_warps (s : State) (core slot asid va : Nat) (k : Acc) (user : Bool) :
    (xlateWalk s core slot asid va k user).1.warps = s.warps :=
  xlateLoop_warps (fun t => xlateTry_warps t core slot asid va k user) _ s

theorem rewalk_warps (s : State) (core asid va : Nat) (k : Acc) (user : Bool) : (rewalk s core asid va k user).1.warps = s.warps := by
  unfold rewalk
  split
  · rfl
  · exact xlateWalk_warps ..

theorem xlate_warps (s : State) (core asid va : Nat) (k : Acc) (user : Bool) : (xlate s core asid va k user).1.warps = s.warps := by
  unfold xlate
  split
  · rfl
  dsimp only
  split
  · exact xlateWalk_warps ..
  split
  · exact xlateWalk_warps ..
  split
  · exact xlateWalk_warps ..
  · rfl

/-! ### Reads by physical address, and fetch (R71 to R73, R184) -/

theorem physRead_warps (s : State) (core : Option Nat) (pa n nl tp : Nat) : (physRead s core pa n nl tp).1.warps = s.warps := by
  unfold physRead
  split
  · exact (noteSpad_warps ..).trans (travel_read s core pa false).1.warps
  · rfl
  · rfl
  · exact (drainEgress_home s).warps
  · exact (readHome_read ..).warps

/-- The half of a line of code that one request reads, at its home or elsewhere (R72). -/
theorem readLine_warps (s : State) (core pa nl tp : Nat) : (readLine s core pa nl tp).1.warps = s.warps := by
  have travels := (travel_read s (some core) pa false).1.warps
  unfold readLine
  dsimp only
  generalize (decide (classOf pa < 4) || classOf pa == 8 || classOf pa == 12) = home
  cases home with
  | false =>
    simp only [Bool.false_eq_true, ↓reduceIte]
    exact (physRead_warps ..).trans (physRead_warps ..)
  | true =>
    simp only [↓reduceIte]
    generalize travel s (some core) pa false = r at travels ⊢
    have asked := (requestLine_read r.1 (some core) pa 0).warps.trans travels
    generalize requestLine r.1 (some core) pa 0 = q at asked ⊢
    have half : ∀ (t : State) (p : Nat), (if (r.2.isEmpty || p != pa / 128 * 128) = true then readPart t p 64 nl tp q.2
        else spoilRead (readPart t p 64 nl tp q.2).1 p 64 nl tp q.2 r.2).1.warps = t.warps := fun t p =>
      ite_warps (readPart_read ..).warps ((spoilRead_read ..).warps.trans (readPart_read ..).warps)
    exact (half ..).trans ((half ..).trans asked)

theorem fetchWord_warps (s : State) (core slot asid : Nat) (user : Bool) (va : Word64) :
    (fetchWord s core slot asid user va).1.warps = s.warps := by
  have translated := xlate_warps s core asid va.toNat .fetch user
  unfold fetchWord
  split
  · rfl
  generalize xlate s core asid va.toNat .fetch user = r at translated ⊢
  obtain ⟨t, found⟩ := r
  cases found with
  | fault | lost => exact translated
  | zeros =>
    dsimp only
    split <;> exact translated
  | ok pa e =>
    dsimp only
    split
    · exact translated
    split
    · exact translated
    split
    · exact translated
    · exact (readLine_warps ..).trans translated

/-! ### The checks of a lane (R255) -/

theorem xlateFor_warps (s : State) (x : Warp) (k : AccessKind) (va : Nat) : (xlateFor s x k va).1.warps = s.warps := by
  have translated := xlate_warps s x.core x.asid va k.acc x.handler.isNone
  unfold xlateFor
  dsimp only
  generalize xlate s x.core x.asid va k.acc x.handler.isNone = r at translated ⊢
  obtain ⟨t, found⟩ := r
  cases found with
  | fault | lost | zeros => exact translated
  | ok pa e =>
    dsimp only
    split
    · exact (rewalk_warps ..).trans translated
    · exact translated

theorem checkGlobal_warps (s : State) (x : Warp) (k : AccessKind) (n va : Nat) : (checkGlobal s x k n va).1.warps = s.warps := by
  have translated := xlateFor_warps s x k va
  unfold checkGlobal
  dsimp only
  generalize xlateFor s x k va = r at translated ⊢
  obtain ⟨t, found⟩ := r
  cases found with
  | fault name cause => cases name <;> exact translated
  | lost | zeros => exact translated
  | ok pa e =>
    dsimp only
    split <;> exact translated

theorem checkLane_warps (s : State) (x : Warp) (k : AccessKind) (n lane : Nat) (ga : Word64) :
    (checkLane s x k n lane ga).1.warps = s.warps := by
  unfold checkLane
  dsimp only
  split
  · rfl
  split
  · rfl
  split
  · rfl
  · rfl
  · exact checkGlobal_warps ..
  · rfl

theorem checkLanes_warps (s : State) (x : Warp) (k : AccessKind) (n : Nat) (g : Lanes) (addr : Nat → Word64) :
    (checkLanes s x k n g addr).1.warps = s.warps :=
  foldl_keeps (fun q : State × List LaneCheck => q.1.warps) (fun q l => checkLane_warps q.1 x k n l (addr l)) _ _

/-! ### The first level (R256) -/

theorem flushLine_warps (s : State) (core line : Nat) : (flushLine s core line).warps = s.warps := by
  unfold flushLine
  split
  · exact writeBack_warps ..
  · rfl

theorem l1Room_warps (s : State) (core line : Nat) : (l1Room s core line).1.warps = s.warps := by
  unfold l1Room
  dsimp only
  split
  · rfl
  split
  · exact flushLine_warps ..
  · rfl

theorem fillHalf_warps (s : State) (pa nl : Nat) (was : Bool) : (fillHalf s pa nl was).1.warps = s.warps := by
  unfold fillHalf
  split
  · rfl
  · exact (openTake_read s pa nl was).warps

theorem spoilHalf_warps (s : State) (pa nl : Nat) (was : Bool) (flips : List Nat) (half : List Byte × L1Half) :
    (spoilHalf s pa nl was flips half).1.warps = s.warps := by
  unfold spoilHalf
  split
  · rfl
  · exact ((freshWord_read s).trans (countDecode_read ..)).warps

theorem homeLine_warps (s : State) (core line nl : Nat) (lo hi : Bool) : (homeLine s core line nl lo hi).1.warps = s.warps := by
  have asked := (requestLine_read (travel s (some core) (line * 128) false).1 (some core) (line * 128) 0).warps.trans
    (travel_read s (some core) (line * 128) false).1.warps
  unfold homeLine
  dsimp only
  refine (spoilHalf_warps ..).trans ((spoilHalf_warps ..).trans ((recodeLine_read ..).warps.trans ?_))
  have half : ∀ (t : State) (p : Nat) (want : Bool), (if want = true then fillHalf t p nl
      (requestLine (travel s (some core) (line * 128) false).1 (some core) (line * 128) 0).2
      else (t, List.replicate 64 0, L1Half.blank nl)).1.warps = t.warps := by
    intro t p want
    split
    · exact fillHalf_warps ..
    · rfl
  exact (half ..).trans ((half ..).trans asked)

theorem l1Put_warps (s : State) (l : L1Line) : (l1Put s l).warps = s.warps := rfl

theorem l1Read_warps (s : State) (core pa n nl tp : Nat) (ch : Cache) : (l1Read s core pa n nl tp ch).1.warps = s.warps := by
  unfold l1Read
  split
  · dsimp only
    split
    · exact l1Put_warps ..
    · exact (l1Put_warps ..).trans (homeLine_warps ..)
  · have room := l1Room_warps s core (pa / 128)
    generalize l1Room s core (pa / 128) = r at room ⊢
    obtain ⟨t, free⟩ := r
    cases free with
    | false => exact (readHome_read ..).warps.trans room
    | true =>
      dsimp only
      exact (l1Put_warps ..).trans ((homeLine_warps ..).trans room)

theorem l1Write_warps (s : State) (core line : Nat) (upd : List (Option Byte)) (nl tp : Nat) (ch : Cache) :
    (l1Write s core line upd nl tp ch).warps = s.warps := by
  unfold l1Write
  dsimp only
  split
  · rfl
  · have room := l1Room_warps s core line
    generalize l1Room s core line = r at room ⊢
    obtain ⟨t, free⟩ := r
    cases free with
    | false => exact (maskedLine_home ..).warps.trans room
    | true => exact room

theorem countedUnless_warps (s t : State) (core pa : Nat) : (countedUnless s core pa t).warps = t.warps := by
  unfold countedUnless
  split <;> rfl

theorem readTarget_warps (s : State) (core n : Nat) (ch : Cache) (t : Target) : (readTarget s core n ch t).1.warps = s.warps := by
  cases t with
  | zeros | group => rfl
  | spad pa => exact noteSpad_warps ..
  | phys pa e =>
    unfold readTarget
    dsimp only
    split
    · exact l1Read_warps ..
    · exact (countedUnless_warps ..).trans ((physRead_warps ..).trans (flushLine_warps ..))

/-! ### Writes but to device registers -/

theorem cleanRows_warps (s : State) (p : Nat → Bool) : (cleanRows s p).warps = s.warps := by
  unfold cleanRows
  split <;> rfl

theorem markDirty_warps (s : State) (core slot pa : Nat) : (markDirty s core slot pa).warps = s.warps := by
  unfold markDirty
  dsimp only
  split
  · rfl
  split
  · rfl
  · exact (deviceWrite_home ..).warps

theorem plainWrite_warps (s : State) (core : Option Nat) (pa : Nat) (bytes : List Byte) (nl tp : Nat) :
    (plainWrite s core pa bytes nl tp).warps = s.warps := by
  have written : (writeSpad (travel s core pa true).1 pa bytes).warps = s.warps :=
    (cleanRows_warps ..).trans (travel_read s core pa true).1.warps
  unfold plainWrite
  split
  · dsimp only
    split
    · exact written
    · unfold markSpad
      split <;> exact written
  · rfl
  · rfl
  · rfl
  · exact (writeHome_home ..).warps

theorem writeLine_warps (s : State) (x : Warp) (ch : Cache) (pa e : Nat) (upd : List (Option Byte)) :
    (writeLine s x ch pa e upd).warps = s.warps := by
  have marked := markDirty_warps s x.core x.ctx pa
  unfold writeLine
  dsimp only
  split
  · exact (l1Write_warps ..).trans marked
  · exact (countedUnless_warps ..).trans ((maskedLine_home ..).warps.trans ((flushLine_warps ..).trans marked))

theorem writeRow_warps (s : State) (row : Nat) (upd : List (Option Byte)) : (writeRow s row upd).warps = s.warps := by
  unfold writeRow
  dsimp only
  split
  · exact cleanRows_warps ..
  · rfl

/-! ### Units of the device (R191, R203) -/

theorem unitTry_warps (s : State) (slot va : Nat) (k : Acc) : (unitTry s slot va k).1.warps = s.warps := by
  have walked := walkBy_warps s none slot va
  unfold unitTry walk
  generalize walkBy s none slot va = r at walked ⊢
  obtain ⟨t, found⟩ := r
  cases found with
  | invalid | malformed | lost => exact walked
  | leaf at_ e size =>
    dsimp only
    split
    · exact (setAD_warps ..).trans walked
    · exact walked

theorem unitXlate_warps (s : State) (asid va : Nat) (k : Acc) : (unitXlate s asid va k).1.warps = s.warps := by
  unfold unitXlate
  split
  · rfl
  split
  · rfl
  · exact xlateLoop_warps (fun t => unitTry_warps t _ va k) _ s

theorem markByUnit_warps (s : State) (slot pa : Nat) : (markByUnit s slot pa).warps = s.warps := by
  unfold markByUnit
  split
  · split
    · exact (deviceWrite_home ..).warps
    · rfl
  · rfl

theorem unitWrite_warps (s : State) (asid va : Nat) (bytes : List Byte) : (unitWrite s asid va bytes).1.warps = s.warps := by
  unfold unitWrite
  refine foldl_keeps (fun q : State × Bool => q.1.warps) (fun q a => ?_) _ _
  obtain ⟨t, ok⟩ := q
  obtain ⟨v, k⟩ := a
  dsimp only
  split
  · rfl
  have translated := unitXlate_warps t asid v .wr
  generalize unitXlate t asid v .wr = r at translated ⊢
  obtain ⟨u, found⟩ := r
  cases found with
  | fault | lost | zeros => exact translated
  | ok pa e =>
    dsimp only
    split
    · exact translated
    · refine (plainWrite_warps ..).trans ?_
      split
      · exact (markByUnit_warps ..).trans translated
      · exact translated

end Sys2Proof.Machine
end

section
/-! SUPPORT. What device work leaves of a warp that it does not end: a write to a device register ends warps, and moves their splits
and marks about, but changes no register and no FLAGS (R53, R70, R190, R200, R398, R455). -/

namespace Sys2Proof.Machine

/-! ### What stands of a warp -/

/-- What only a warp's own words, landings and traps change: its registers, FLAGS, its allotment, and whether it is stopped for a move. -/
structure Standing where
  registers : Registers
  flags : Word32
  allot : Nat
  stopped : Bool

def Warp.standing (x : Warp) : Standing := ⟨x.registers, x.flags, x.allot, x.stopped⟩

/-- What stands of a warp of a state; none when it is gone. -/
def standingAt (s : State) (w : Nat) : Option Standing := (s.warps.find? w).map Warp.standing

/-- The warp is gone, or stands as it did. -/
def StandsOrEnds (w : Nat) (s t : State) : Prop := standingAt t w = none ∨ standingAt t w = standingAt s w

theorem standingAt_of_warps {s t : State} (h : t.warps = s.warps) (w : Nat) : standingAt t w = standingAt s w := by
  rw [standingAt, standingAt, h]

theorem StandsOrEnds.of_same {w : Nat} {s t : State} (h : standingAt t w = standingAt s w) : StandsOrEnds w s t := .inr h

theorem StandsOrEnds.of_warps {w : Nat} {s t : State} (h : t.warps = s.warps) : StandsOrEnds w s t :=
  .inr (standingAt_of_warps h w)

theorem StandsOrEnds.refl (w : Nat) (s : State) : StandsOrEnds w s s := .inr rfl

theorem StandsOrEnds.trans {w : Nat} {s t u : State} (h : StandsOrEnds w s t) (k : StandsOrEnds w t u) : StandsOrEnds w s u := by
  rcases k with gone | same
  · exact .inl gone
  · rcases h with gone | stood
    · exact .inl (same.trans gone)
    · exact .inr (same.trans stood)

theorem StandsOrEnds.ite {w : Nat} {s t u : State} {c : Prop} [Decidable c] (h : StandsOrEnds w s t) (k : StandsOrEnds w s u) :
    StandsOrEnds w s (if c then t else u) := by
  split
  · exact h
  · exact k

theorem StandsOrEnds.foldl {α : Type} {w : Nat} {f : State → α → State} (h : ∀ t a, StandsOrEnds w t (f t a)) (l : List α)
    (s : State) : StandsOrEnds w s (l.foldl f s) := by
  induction l generalizing s with
  | nil => exact .refl w s
  | cons a l ih => exact (h s a).trans (ih _)

theorem standingAt_updWarp {f : Warp → Warp} (h : ∀ x, (f x).standing = x.standing) (s : State) (v w : Nat) :
    standingAt (updWarp s v f) w = standingAt s w := by
  unfold standingAt
  rw [updWarp_find]
  split
  · next is =>
    rw [is, Option.map_map]
    exact Option.map_congr fun x _ => h x
  · rfl

theorem standingAt_mapVals {f : Nat → Warp → Warp} (h : ∀ k x, (f k x).standing = x.standing) {s t : State}
    (mapped : t.warps = s.warps.mapVals f) (w : Nat) : standingAt t w = standingAt s w := by
  unfold standingAt
  rw [mapped, Tbl.find?_mapVals, Option.map_map]
  exact Option.map_congr fun x _ => h w x

theorem updCtx_warps (s : State) (slot : Nat) (f : Ctx → Ctx) : (updCtx s slot f).warps = s.warps := rfl

theorem queueError_warps (s : State) (q code : Nat) : (queueError s q code).warps = s.warps := rfl

/-! ### The end of warps and launches (R70, R394) -/

theorem notify_warps (s : State) (slot : Nat) (n : Notice) : (notify s slot n).warps = s.warps := by
  unfold notify
  dsimp only
  split
  · exact (updCtx_warps ..).trans (notifyHost_read s).warps
  · exact (updCtx_warps ..).trans
      ((drainEgress_home _).warps.trans ((deviceWrite_home ..).warps.trans (notifyHost_read s).warps))

theorem removeWarp_warps (s : State) (v : Nat) (killed : Bool) : (removeWarp s v killed).warps = s.warps.del v := by
  have held : (dropHeld s v).warps = s.warps := updCtx_warps ..
  dsimp only [removeWarp, updBlock, clearFocus, orphanCards]
  rw [held]

theorem removeWarp_standsOrEnds (s : State) (v w : Nat) (killed : Bool) : StandsOrEnds w s (removeWarp s v killed) := by
  rw [StandsOrEnds, standingAt, standingAt, removeWarp_warps, Tbl.find?_del]
  by_cases is : w = v
  · rw [if_pos is]
    exact .inl rfl
  · rw [if_neg is]
    exact .inr rfl

theorem killNow_standsOrEnds (s : State) (v w : Nat) (f : Word32) (a : Word64) (aux : Word32) (note : Bool) :
    StandsOrEnds w s (killNow s v f a aux note) := by
  have removed : StandsOrEnds w s (removeWarp (abandonAll (silenceCards s v) v) v note) :=
    (StandsOrEnds.of_warps rfl).trans (removeWarp_standsOrEnds ..)
  unfold killNow
  split
  · exact .refl w s
  · dsimp only
    split
    · exact removed.trans (.of_warps (notify_warps ..))
    · exact removed

theorem killWarp_standsOrEnds (s : State) (v w : Nat) (f : Word32) (a : Word64) (aux : Word32) (note : Bool) :
    StandsOrEnds w s (killWarp s v f a aux note) := by
  unfold killWarp
  dsimp only
  split
  · exact .of_warps rfl
  · exact killNow_standsOrEnds ..

theorem settleResume_warps (s : State) (slot : Nat) : (settleResume s slot).warps = s.warps := by
  unfold settleResume
  dsimp only
  split <;> rfl

theorem unlockContract_warps (s : State) (c : Contract) : (unlockContract s c).warps = s.warps := by
  unfold unlockContract
  split
  · exact foldl_keeps State.warps (fun t l => (dropLine_read t l).warps) _ _
  · rfl

theorem settleTerm_warps (s : State) (q : Nat) : (settleTerm s q).warps = s.warps := by
  unfold settleTerm
  split <;> rfl

theorem dropLaunch_warps (s : State) (k : Nat) : (dropLaunch s k).warps = s.warps :=
  (settleTerm_warps ..).trans (foldl_keeps State.warps unlockContract_warps _ _)

theorem finishLaunch_warps (s : State) (k : Nat) : (finishLaunch s k).warps = s.warps := by
  unfold finishLaunch
  split
  · rfl
  split
  · next l _ _ =>
    dsimp only
    generalize (if l.terminated = true then 2 else if l.nflt = 0 then 0 else 1) = status
    have written : (writeCompletion (drainEgress s) l status).1.warps = s.warps :=
      (unitWrite_warps ..).trans (drainEgress_home s).warps
    refine (dropLaunch_warps ..).trans ?_
    split
    · exact written
    · exact (notifyHost_read _).warps.trans ((queueError_warps ..).trans written)
  · rfl

theorem terminateLaunch_standsOrEnds (w : Nat) (s : State) (k : Nat) : StandsOrEnds w s (terminateLaunch s k) := by
  unfold terminateLaunch
  dsimp only
  generalize hm : updLaunch s k _ = marked
  have launch : marked.warps = s.warps := hm ▸ rfl
  generalize hk : List.foldl _ marked _ = killed
  have kills : StandsOrEnds w marked killed := hk ▸ .foldl (fun t v => killWarp_standsOrEnds t v w 0 0 0 false) _ _
  refine (StandsOrEnds.of_warps launch).trans (kills.trans (.of_warps ((finishLaunch_warps ..).trans ?_)))
  split
  · exact settleResume_warps ..
  · rfl

theorem terminateQueue_standsOrEnds (w : Nat) (s : State) (q : Nat) : StandsOrEnds w s (terminateQueue s q) := by
  unfold terminateQueue
  dsimp only
  generalize hm : setQueue s q _ = marked
  have queue : marked.warps = s.warps := hm ▸ rfl
  exact (StandsOrEnds.of_warps queue).trans
    ((StandsOrEnds.foldl (terminateLaunch_standsOrEnds w) _ marked).trans (.of_warps (settleTerm_warps ..)))

/-! ### Host faults and pre-emption (R200, R201, R398) -/

/-- The tables and marks of a handler's state are none of its banks. -/
theorem Warp.standing_eq {x y : Warp} {f : Handler → Handler} (handler : y.handler = x.handler.map f)
    (bank : ∀ h, (f h).bankV = h.bankV ∧ (f h).bankS = h.bankS)
    (rest : y.v = x.v ∧ y.sr = x.sr ∧ y.pr = x.pr ∧ y.flags = x.flags ∧ y.allot = x.allot ∧ y.stopped = x.stopped) :
    y.standing = x.standing := by
  obtain ⟨v, sr, pr, flags, allot, stopped⟩ := rest
  have banks : y.handler.map (fun h => (h.bankV, h.bankS)) = x.handler.map fun h => (h.bankV, h.bankS) := by
    rw [handler, Option.map_map]
    exact Option.map_congr fun h _ => Prod.ext (bank h).1 (bank h).2
  simp only [Warp.standing, Warp.registers, v, sr, pr, flags, allot, stopped, banks]

/-- What a host-fault record changes of the warp that waits for it. -/
theorem Warp.reparkHeld_standing (x : Warp) (seq : Nat) (h : Option Nat) (b : Bool) :
    ({ x.reparkHeld seq with hostFault := h, hostHeld := b } : Warp).standing = x.standing :=
  Warp.standing_eq rfl (fun _ => ⟨rfl, rfl⟩) ⟨rfl, rfl, rfl, rfl, rfl, rfl⟩

theorem writeHostFault_standing (s : State) (slot : Nat) (h : HeldFault) (w : Nat) :
    standingAt (writeHostFault s slot h) w = standingAt s w := by
  unfold writeHostFault
  dsimp only
  generalize hd : deviceWrite s _ _ = written
  have wrote : written.warps = s.warps := hd ▸ (deviceWrite_home ..).warps
  generalize hn : notifyHost _ = notified
  have told : notified.warps = s.warps := hn ▸ (notifyHost_read _).warps.trans ((updCtx_warps ..).trans wrote)
  split
  · exact standingAt_of_warps ((updCtx_warps ..).trans told) w
  · exact (standingAt_updWarp (fun x => x.reparkHeld_standing ..) notified h.warp w).trans (standingAt_of_warps told w)

theorem releaseHeld_standing (w n : Nat) (s : State) (slot : Nat) : standingAt (releaseHeld s slot n) w = standingAt s w := by
  induction n generalizing s with
  | zero => rfl
  | succ n ih =>
    unfold releaseHeld
    dsimp only
    split
    · split
      · rfl
      · exact (ih _).trans (writeHostFault_standing ..)
    · rfl

/-- A warp of the slot once the host has answered a record (R201). -/
def Warp.answered (slot seq : Nat) (x : Warp) : Warp :=
  let f (p : Split) : Split := if p.park = some (.hostFault seq) then { p with park := none } else p
  let g (t : DivTable) : DivTable := { t with splits := t.splits.map f }
  if x.ctx = slot then
    { x with table := g x.table, handler := x.handler.map fun h => { h with table := g h.table },
             hostFault := if x.hostFault = some seq then none else x.hostFault }
  else x

theorem Warp.answered_standing (slot seq : Nat) (x : Warp) : (x.answered slot seq).standing = x.standing := by
  unfold Warp.answered
  dsimp only
  split
  · exact Warp.standing_eq rfl (fun _ => ⟨rfl, rfl⟩) ⟨rfl, rfl, rfl, rfl, rfl, rfl⟩
  · rfl

theorem resumeHostFault_warps (s : State) (slot seq : Nat) :
    (resumeHostFault s slot seq).warps = s.warps.mapVals fun _ x => x.answered slot seq := rfl

theorem resumeHostFault_standing (s : State) (slot seq w : Nat) : standingAt (resumeHostFault s slot seq) w = standingAt s w :=
  standingAt_mapVals (fun _ x => x.answered_standing slot seq) (resumeHostFault_warps s slot seq) w

theorem endLeases_warps (s : State) (core : Nat) : (endLeases s core).warps = s.warps :=
  foldl_keeps State.warps (fun _ _ => (endLease_read ..).warps.trans (flushLine_warps ..)) _ _

/-- A warp of the slot once its context is asked to leave (R398). -/
def Warp.askedToLeave (slot : Nat) (x : Warp) : Warp := if x.ctx = slot then { x with preemptDue := true } else x

theorem Warp.askedToLeave_standing (slot : Nat) (x : Warp) : (x.askedToLeave slot).standing = x.standing := by
  unfold Warp.askedToLeave
  split <;> rfl

theorem beginPre_standing (s : State) (slot w : Nat) : standingAt (beginPre s slot) w = standingAt s w := by
  unfold beginPre
  split
  · rfl
  · dsimp only
    generalize hm : updCtx s slot _ = marked
    have state : marked.warps = s.warps := hm ▸ rfl
    have ends : standingAt (List.foldl endLeases marked (coresOf marked slot)) w = standingAt s w :=
      standingAt_of_warps ((foldl_keeps State.warps endLeases_warps _ _).trans state) w
    exact (standingAt_mapVals (f := fun _ x => x.askedToLeave slot) (fun _ x => x.askedToLeave_standing slot) rfl w).trans ends

theorem beginRes_warps (s : State) (slot : Nat) : (beginRes s slot).warps = s.warps := by
  unfold beginRes
  split
  · rfl
  · exact settleResume_warps ..

/-! ### The registers of the device (R455) -/

theorem writeLqBase_warps (s : State) (q : Nat) (v : Word64) : (writeLqBase s q v).warps = s.warps := by
  unfold writeLqBase
  dsimp only
  split <;> rfl

theorem writeLqConfig_warps (s : State) (q v : Nat) : (writeLqConfig s q v).warps = s.warps := by
  unfold writeLqConfig
  dsimp only
  split
  · rfl
  · split <;> rfl

theorem writeLqTail_warps (s : State) (q : Nat) (v : BitVec 32) : (writeLqTail s q v).warps = s.warps := by
  unfold writeLqTail
  dsimp only
  split <;> rfl

theorem writeQueueReg_standsOrEnds (w : Nat) (s : State) (q off : Nat) (v : RegWrite) : StandsOrEnds w s (writeQueueReg s q off v) := by
  unfold writeQueueReg
  split
  · exact .of_warps (writeLqBase_warps ..)
  · exact .of_warps (writeLqConfig_warps ..)
  · split
    · exact .of_warps (writeLqTail_warps ..)
    · exact .refl w s
  · split
    · exact terminateQueue_standsOrEnds ..
    · exact .refl w s
  · exact .refl w s

theorem endContext_warps (s : State) (slot : Nat) : (endContext s slot).warps = s.warps := by
  unfold endContext
  split <;> rfl

theorem writeAsid_warps (s : State) (slot v : Nat) : (writeAsid s slot v).warps = s.warps := by
  unfold writeAsid
  dsimp only
  split
  · split
    · rfl
    · exact endContext_warps ..
  · split <;> rfl

theorem writeFrTail_standing (s : State) (slot : Nat) (v : BitVec 32) (w : Nat) :
    standingAt (writeFrTail s slot v) w = standingAt s w := by
  unfold writeFrTail
  dsimp only
  split
  · rfl
  · exact releaseHeld_standing ..

theorem writeXlateReg_standing (s : State) (slot off : Nat) (v : RegWrite) (w : Nat) :
    standingAt (writeXlateReg s slot off v) w = standingAt s w := by
  unfold writeXlateReg
  dsimp only
  split
  · split <;> rfl
  · exact standingAt_of_warps (writeAsid_warps ..) w
  · rfl
  · split <;> rfl
  · rfl
  · split
    · exact resumeHostFault_standing ..
    · rfl
  · split
    · exact writeFrTail_standing ..
    · rfl
  · rfl

theorem writePoolReg_warps (s : State) (die off : Nat) (v : RegWrite) : (writePoolReg s die off v).warps = s.warps := by
  unfold writePoolReg
  dsimp only
  split
  · rfl
  · split <;> rfl
  · rfl

theorem writeSplit_warps (s : State) (die v : Nat) : (writeSplit s die v).warps = s.warps := by
  unfold writeSplit
  dsimp only
  split
  · split <;> rfl
  · split
    · split <;> rfl
    · rfl

theorem writeReportReg_warps (s : State) (slot off : Nat) (v : RegWrite) : (writeReportReg s slot off v).warps = s.warps := by
  unfold writeReportReg
  split
  · rfl
  · split <;> rfl
  · rfl

theorem writeNetReg_warps (s : State) (off v : Nat) : (writeNetReg s off v).warps = s.warps := by
  unfold writeNetReg
  split
  · dsimp only
    split <;> rfl
  · rfl
  · split <;> rfl
  · rfl

theorem writeInjectorReg_warps (s : State) (i off : Nat) (v : RegWrite) : (writeInjectorReg s i off v).warps = s.warps := by
  unfold writeInjectorReg
  dsimp only
  split
  · split <;> rfl
  · rfl
  · rfl

theorem writeTrapReg_standing (s : State) (slot off : Nat) (v : RegWrite) (w : Nat) :
    standingAt (writeTrapReg s slot off v) w = standingAt s w := by
  unfold writeTrapReg
  dsimp only
  split
  · rfl
  · split
    · have begun : standingAt (if (bitOf v.v 0 && !(ctxOf s slot).pre) = true then beginPre s slot else s) w = standingAt s w := by
        split
        · exact beginPre_standing ..
        · rfl
      split
      · exact (standingAt_of_warps (beginRes_warps ..) w).trans begun
      · exact begun
    · rfl
  · rfl
  · split <;> rfl
  · rfl
  · rfl
  · rfl
  · rfl

theorem writeHouseReg_warps (s : State) (off : Nat) (v : RegWrite) : (writeHouseReg s off v).warps = s.warps := by
  unfold writeHouseReg
  dsimp only
  split
  · rfl
  split
  · split <;> rfl
  · split <;> rfl

theorem writeReg_standsOrEnds (w : Nat) (s : State) (off : Nat) (v : RegWrite) : StandsOrEnds w s (writeReg s off v) := by
  unfold writeReg
  exact .ite (writeQueueReg_standsOrEnds ..) <| .ite (.of_warps rfl) <| .ite (.of_same (writeXlateReg_standing ..)) <|
    .ite (.of_warps (writePoolReg_warps ..)) <| .ite (.ite (.of_warps (writeSplit_warps ..)) (.refl w s)) <|
    .ite (.of_warps (writeReportReg_warps ..)) <| .ite (.of_warps (writeNetReg_warps ..)) <|
    .ite (.of_warps (writeInjectorReg_warps ..)) <| .ite (.ite (.of_warps rfl) (.refl w s)) <|
    .ite (.of_same (writeTrapReg_standing ..)) <| .ite (.ite (.of_warps rfl) (.refl w s)) <|
    .ite (.of_warps (writeHouseReg_warps ..)) (.refl w s)

theorem devWrite_standsOrEnds (w : Nat) (s : State) (host : Bool) (off n v : Nat) : StandsOrEnds w s (devWrite s host off n v) := by
  unfold devWrite
  split
  · exact .refl w s
  split
  · dsimp only
    split <;> exact writeReg_standsOrEnds ..
  · exact writeReg_standsOrEnds ..
  · exact (writeReg_standsOrEnds ..).trans (writeReg_standsOrEnds ..)
  · exact .refl w s

/-! ### One lane's store (R257) -/

theorem writeUnits_standsOrEnds (w : Nat) (x : Warp) (n : Nat) (ch : Cache) (v : Nat → Nat) (all ts : List (Nat × Word64 × Target))
    (done : List Nat) (s : State) : StandsOrEnds w s (writeUnits x n ch v all ts done s) := by
  induction ts generalizing done s with
  | nil => exact .refl w s
  | cons lane ts ih =>
    obtain ⟨l, ga, t⟩ := lane
    unfold writeUnits
    split
    · split
      · exact ih ..
      · dsimp only
        refine StandsOrEnds.trans (.of_warps ?_) (ih ..)
        split
        · exact writeLine_warps ..
        · exact writeRow_warps ..
    · next pa e _ =>
      refine (StandsOrEnds.of_warps (markDirty_warps s x.core x.ctx pa)).trans (StandsOrEnds.trans ?_ (ih ..))
      unfold physWrite
      split
      · exact devWrite_standsOrEnds ..
      · exact .of_warps (plainWrite_warps ..)
    · exact ih ..

theorem writeTarget_standsOrEnds (w : Nat) (s : State) (x : Warp) (bytes : List Byte) (ch : Cache) (t : Target) :
    StandsOrEnds w s (writeTarget s x bytes ch t) := writeUnits_standsOrEnds ..

end Sys2Proof.Machine
end

section
/-! SUPPORT. What a control word's end leaves of its warp: the run ends, the split is sent on or waits, and what stood of the warp
stands, but for FLAGS raised (R93, R95, R138, R200, R391). -/

namespace Sys2Proof.Machine

/-! ### Ends that stop a word or send its split on -/

/-- A word's stop, where its warp is gone or stands as it did. -/
def WordEnd.StopsAt (w : Nat) (s : State) : WordEnd → Prop
  | .park u _ | .trap u _ | .host u _ _ => StandsOrEnds w s u
  | _ => False

/-- The ways a control word ends, each with its warp gone or standing as it did; a word that reloads may raise the tail flag. -/
inductive ControlEnd (reload : Bool) (w : Nat) (t : State) : WordEnd → Prop
  | done : ControlEnd reload w t (.done t 0)
  | moved {u : State} (stands : StandsOrEnds w t u) : ControlEnd reload w t (.moved u)
  | raising {u : State} {n : Nat} {p : Place} (stands : StandsOrEnds w t u) (tail : n = 0 ∨ n = fTAIL) (reloads : reload = true) :
      ControlEnd reload w t (.movedRaising u n p)
  | stops {e : WordEnd} (stops : e.StopsAt w t) : ControlEnd reload w t e

/-- What a control word leaves: every register, and FLAGS but for the tail flag of a reload. -/
def ControlLeaves (reload : Bool) (x y : Warp) : Prop :=
  sameRegisters [] 0 x y ∧ (y.flags = x.flags ∨ reload = true ∧ y.flags = x.flags ||| BitVec.ofNat 32 fTAIL)

/-! ### Standing and going on -/

theorem Warp.Moved.standing {x y : Warp} (h : x.Moved y) : y.standing = x.standing := by
  rw [h]
  rfl

section
variable {x y : Warp} (h : y.standing = x.standing)
include h

theorem Warp.registers_of_standing : y.registers = x.registers := congrArg Standing.registers h

theorem Warp.flags_of_standing : y.flags = x.flags := congrArg Standing.flags h

theorem Warp.allot_of_standing : y.allot = x.allot := congrArg Standing.allot h

theorem Warp.stopped_of_standing : y.stopped = x.stopped := congrArg Standing.stopped h

theorem Warp.handler_of_standing : y.handler.isSome = x.handler.isSome :=
  Warp.mode_of_registers (Warp.registers_of_standing h)

end

/-- Registers are the same between warps that stand as they did. -/
theorem sameRegisters_of_standing {ds : List Reg} {g : Lanes} {x x' z y : Warp} (before : x'.standing = x.standing)
    (same : sameRegisters ds g x' z) (after : y.standing = z.standing) : sameRegisters ds g x y := by
  obtain ⟨v, sr, pr⟩ := same
  have was := Warp.registers_of_standing before
  have is := Warp.registers_of_standing after
  refine ⟨fun n l hn hl untouched => ?_, fun n other => ?_, fun n l untouched => ?_⟩
  · rw [Warp.rawV_of_registers is, ← Warp.rawV_of_registers was]
    exact v n l (Warp.allot_of_standing after ▸ hn) hl untouched
  · rw [Warp.rawS_of_registers is, ← Warp.rawS_of_registers was]
    exact sr n other
  · rw [Warp.pred_of_registers is, ← Warp.pred_of_registers was]
    exact pr n l untouched

/-- A warp that stood, went on with the given FLAGS, and stood again. -/
theorem Warp.WentOn.sameRegisters {b : Bool} {x x' z y : Warp} {r : Option Region} {f : Word32} (before : x'.standing = x.standing)
    (on : Warp.WentOn b { x' with region := r, flags := f } z) (after : y.standing = z.standing) :
    sameRegisters [] 0 x y ∧ y.flags = f := by
  obtain ⟨same, -, flags⟩ := (Warp.Wrote.refl [] 0 x').wentOn on
  exact ⟨sameRegisters_of_standing before same after, (Warp.flags_of_standing after).trans flags⟩

/-- A warp that stood, went on with the FLAGS it had, and stood again. -/
theorem Warp.WentOn.leaves {b reload : Bool} {x x' z y : Warp} {r : Option Region} (before : x'.standing = x.standing)
    (on : Warp.WentOn b { x' with region := r } z) (after : y.standing = z.standing) : ControlLeaves reload x y := by
  obtain ⟨same, flags⟩ := Warp.WentOn.sameRegisters (f := x'.flags) before on after
  exact ⟨same, .inl (flags.trans (Warp.flags_of_standing before))⟩

/-- A warp that is there afterwards was there before and stands as it did. -/
theorem StandsOrEnds.found {s t : State} {w : Nat} {y : Warp} (h : StandsOrEnds w s t) (hy : t.warps.find? w = some y) :
    ∃ x, s.warps.find? w = some x ∧ y.standing = x.standing := by
  have there : standingAt t w = some y.standing := by rw [standingAt, hy, Option.map_some]
  rcases h with gone | same
  · exact nomatch there.symm.trans gone
  · obtain ⟨x, hx, stood⟩ := Option.map_eq_some_iff.mp (same.symm.trans there)
    exact ⟨x, hx, stood.symm⟩

/-- A warp that is there after its splits have settled was there before. -/
theorem settleWarp_found {s : State} {w : Nat} {y : Warp} (hy : (settleWarp s w).warps.find? w = some y) :
    ∃ x, s.warps.find? w = some x := by
  rw [settleWarp_kept hy, updWarp_find, if_pos rfl] at hy
  obtain ⟨x, hx, -⟩ := Option.map_eq_some_iff.mp hy
  exact ⟨x, hx⟩

/-- A warp that is there after its run has ended was there before. -/
theorem endRun_found {s : State} {w e : Nat} {y : Warp} (hy : (endRun s w e).warps.find? w = some y) :
    ∃ x, s.warps.find? w = some x ∧ y = x.runEnds e s.seq := by
  rw [endRun_find] at hy
  obtain ⟨x, hx, ended⟩ := Option.map_eq_some_iff.mp hy
  exact ⟨x, hx, ended.symm⟩

/-- A warp that is there after a change of it was there before. -/
theorem updWarp_found {s : State} {w : Nat} {f : Warp → Warp} {y : Warp} (hy : (updWarp s w f).warps.find? w = some y) :
    ∃ x, s.warps.find? w = some x ∧ y = f x := by
  rw [updWarp_find, if_pos rfl] at hy
  obtain ⟨x, hx, changed⟩ := Option.map_eq_some_iff.mp hy
  exact ⟨x, hx, changed.symm⟩

/-! ### Traps and host faults -/

/-- A warp that is there after a trap was there before. -/
theorem takeTrap_found {s : State} {w e : Nat} {f : FaultInfo} {r : Place} {y : Warp}
    (hy : (takeTrap s w e f r).warps.find? w = some y) : ∃ x, s.warps.find? w = some x := by
  have killed (aux : Word32) (h : (killWarp s w f.word f.lowAddr aux true).warps.find? w = some y) : ∃ x, s.warps.find? w = some x := by
    obtain ⟨x, hx, -⟩ := (killWarp_standsOrEnds s w w f.word f.lowAddr aux true).found h
    exact ⟨x, hx⟩
  unfold takeTrap at hy
  dsimp only at hy
  split at hy
  · exact killed _ hy
  · split at hy
    · exact killed _ hy
    · obtain ⟨z, hz⟩ := settleWarp_found hy
      obtain ⟨x, hx, -⟩ := updWarp_found (f := (·.openHandler e f r _)) hz
      exact ⟨x, hx⟩

/-- A warp that is there after a trap is in the other mode: a user's has opened a handler, and a handler's would be gone. -/
theorem takeTrap_changes_mode {s : State} {w e : Nat} {f : FaultInfo} {r : Place} {x y : Warp} (hx : s.warps.find? w = some x)
    (going : x.stopped = false) (hy : (takeTrap s w e f r).warps.find? w = some y) : y.handler.isSome ≠ x.handler.isSome := by
  cases user : x.handler with
  | none =>
    rw [takeTrap_opens hx user going hy]
    exact Bool.true_eq_false_eq_False
  | some h =>
    have at_ := warpAt_of_find hx
    simp only [takeTrap, at_, user, killWarp, going, Bool.false_and, Bool.false_eq_true, ↓reduceIte, killNow_gone _ _ _ _ hx] at hy
    exact nomatch hy

/-- A PAGE fault that goes to the host leaves what stands of every warp (R200). -/
theorem escalate_standing (s : State) (v e : Nat) (va : Word64) (kind cause : Nat) (lanes : Lanes) (w : Nat) :
    standingAt (escalate s v e va kind cause lanes) w = standingAt s w := by
  unfold escalate
  dsimp only
  generalize hp : updSplit (clearFocus s v) v e _ = parked
  have waits : standingAt parked w = standingAt s w := hp ▸ standingAt_updWarp (fun x => (x.moved_setSplit ..).standing) _ v w
  split
  · exact (standingAt_of_warps (updCtx_warps ..) w).trans waits
  · exact (writeHostFault_standing ..).trans waits

/-! ### The ends, one by one -/

/-- The state in which a word takes its effect gives its warp back after it. -/
theorem found_standing {s t : State} {w : Nat} {x x' : Warp} (stands : StandsOrEnds w s t) (hx : s.warps.find? w = some x)
    (found : t.warps.find? w = some x') : x'.standing = x.standing := by
  obtain ⟨z, hz, same⟩ := stands.found found
  rw [hx, Option.some.injEq] at hz
  exact hz ▸ same

/-- A warp that is there when a word has completed and its run has ended was there when its effect was made. -/
theorem completed_found {i : Issuer} {ws : WordSpec} {g : Lanes} {u : State} {z : Warp} (silent : i.sends ws g = false)
    (hz : (endRun (i.complete ws g u) i.w i.e).warps.find? i.w = some z) :
    ∃ x' r, u.warps.find? i.w = some x' ∧ (i.complete ws g u).warps.find? i.w = some { x' with region := r } := by
  obtain ⟨x'', hx'', -⟩ := endRun_found hz
  obtain ⟨-, r, completed⟩ := complete_same (ws := ws) u silent
  obtain ⟨x', hx', same⟩ := Option.map_eq_some_iff.mp (completed.symm.trans hx'')
  exact ⟨x', r x', hx', hx''.trans (congrArg some same.symm)⟩

section
variable {reload : Bool} {i : Issuer} {ws : WordSpec} {g : Lanes} {t u : State} {x y : Warp}
  (silent : i.sends ws g = false) (noFlit : i.takes ws g = false) (hx : t.warps.find? i.w = some x)
  (mode : x.handler.isSome = i.x.handler.isSome) (going : x.stopped = false)

include silent hx in
theorem conclude_moved_leaves (stands : StandsOrEnds i.w t u)
    (hy : (i.conclude ws g (.moved u)).warps.find? i.w = some y) : ControlLeaves reload x y := by
  obtain ⟨z, hz⟩ := settleWarp_found hy
  obtain ⟨x', r, hx', completed⟩ := completed_found silent hz
  obtain ⟨-, on⟩ := settle_endRun completed hy
  exact Warp.WentOn.leaves (found_standing stands hx hx') on rfl

include hx mode going in
theorem conclude_done_leaves (silent : i.sends ws g = false) (hy : (i.conclude ws g (.done t 0)).warps.find? i.w = some y)
    (kept : y.handler.isSome = i.x.handler.isSome) : ControlLeaves reload x y := by
  obtain ⟨-, r, m, -, none, on⟩ := conclude_done silent hx mode going hy kept
  obtain ⟨same, flags⟩ := Warp.WentOn.sameRegisters rfl on rfl
  exact ⟨same, .inl (flags.trans (by rw [none rfl]; exact BitVec.or_zero))⟩

include noFlit hx in
theorem conclude_park_leaves {c : Park} (stands : StandsOrEnds i.w t u)
    (hy : (i.conclude ws g (.park u c)).warps.find? i.w = some y) : ControlLeaves reload x y := by
  have back : i.giveBack ws g u = u := by simp only [Issuer.giveBack, noFlit]
  have parked := hy
  simp only [Issuer.conclude, back] at parked
  obtain ⟨_, held, -⟩ := endRun_found parked
  obtain ⟨_, undone, -⟩ := updWarp_found held
  obtain ⟨x', hx', -⟩ := updWarp_found undone
  exact Warp.WentOn.leaves (r := x'.region) (found_standing stands hx hx') (conclude_park noFlit hx' hy).2 rfl

/-- A word that is undone and whose run ends. -/
theorem undone_found {z : Warp} (stands : StandsOrEnds i.w t u) (hx : t.warps.find? i.w = some x)
    (hz : (endRun (i.undo u) i.w i.e).warps.find? i.w = some z) :
    ∃ x', x'.standing = x.standing ∧ Warp.WentOn true x' z := by
  obtain ⟨_, undone, ended⟩ := endRun_found hz
  obtain ⟨x', hx', back⟩ := updWarp_found undone
  refine ⟨x', found_standing stands hx hx', ?_⟩
  rw [ended, back]
  exact (x'.wentOn_setSplit i.e _).trans (Warp.wentOn_runEnds ..) (.inl ⟨rfl, rfl⟩)

include hx mode going in
theorem conclude_trap_changes_mode {f : FaultInfo} (stands : StandsOrEnds i.w t u)
    (hy : (i.conclude ws g (.trap u f)).warps.find? i.w = some y) : y.handler.isSome ≠ i.x.handler.isSome := by
  obtain ⟨z, hz⟩ := takeTrap_found hy
  obtain ⟨x', same, on⟩ := undone_found stands hx hz
  have still : z.stopped = false := by rw [on.rest, Warp.stopped_of_standing same, going]
  rw [← mode, ← Warp.handler_of_standing same, ← on.handler]
  exact takeTrap_changes_mode hz still hy

include hx in
theorem conclude_host_leaves {f : FaultInfo} {kind : Nat} (stands : StandsOrEnds i.w t u)
    (hy : (i.conclude ws g (.host u f kind)).warps.find? i.w = some y) : ControlLeaves reload x y := by
  obtain ⟨z, hz, after⟩ := (StandsOrEnds.of_same (escalate_standing ..)).found hy
  obtain ⟨x', before, on⟩ := undone_found stands hx hz
  exact Warp.WentOn.leaves (r := x'.region) before on after

include silent hx in
/-- The warp of a word that has completed, whose run has ended, and that has raised flags. -/
theorem raised_found {n : Nat} {z : Warp} (stands : StandsOrEnds i.w t u)
    (hz : (updWarp (endRun (i.complete ws g u) i.w i.e) i.w fun x => { x with flags := orFlags x.flags n }).warps.find? i.w = some z) :
    sameRegisters [] 0 x z ∧ z.flags = orFlags x.flags n ∧ z.handler.isSome = x.handler.isSome ∧ z.stopped = x.stopped := by
  obtain ⟨z', hz', flagged⟩ := updWarp_found hz
  obtain ⟨x', r, hx', completed⟩ := completed_found silent hz'
  rw [endRun_find, completed, Option.map_some, Option.some.injEq] at hz'
  have before := found_standing stands hx hx'
  have on : Warp.WentOn true { x' with region := r } z' := hz' ▸ Warp.wentOn_runEnds ..
  obtain ⟨same, flags⟩ := Warp.WentOn.sameRegisters (f := x'.flags) before on rfl
  rw [flagged]
  refine ⟨same, ?_, ?_, ?_⟩
  · rw [← Warp.flags_of_standing before, ← flags]
  · rw [← Warp.handler_of_standing before]
    exact congrArg Option.isSome on.handler
  · rw [← Warp.stopped_of_standing before, on.rest]

include silent hx mode going in
theorem conclude_raising_leaves {n : Nat} {p : Place} (stands : StandsOrEnds i.w t u) (tail : n = 0 ∨ n = fTAIL)
    (hy : (i.conclude ws g (.movedRaising u n p)).warps.find? i.w = some y) (kept : y.handler.isSome = i.x.handler.isSome) :
    ControlLeaves true x y := by
  simp only [Issuer.conclude] at hy
  split at hy
  · rw [settleWarp_kept hy] at hy
    obtain ⟨z, hz, settled⟩ := updWarp_found hy
    obtain ⟨same, flags, -, -⟩ := raised_found silent hx stands hz
    have after : y.standing = z.standing := settled ▸ z.moved_settle.standing
    have raises : y.flags = orFlags x.flags n := (Warp.flags_of_standing after).trans flags
    refine ⟨sameRegisters_of_standing rfl same after, ?_⟩
    rcases tail with rfl | rfl
    · exact .inl (raises.trans BitVec.or_zero)
    · exact .inr ⟨rfl, raises⟩
  · obtain ⟨z, hz⟩ := takeTrap_found hy
    obtain ⟨-, -, handler, stopped⟩ := raised_found silent hx stands hz
    exact absurd (kept.trans (handler.trans mode).symm) (takeTrap_changes_mode hz (stopped.trans going) hy)

include silent noFlit hx mode going in
/-- Whichever way a control word ends, its warp has every register as it was, and FLAGS but for the tail flag of a reload. -/
theorem controlEnd_leaves {e : WordEnd} (ends : ControlEnd reload i.w t e) (hy : (i.conclude ws g e).warps.find? i.w = some y)
    (kept : y.handler.isSome = i.x.handler.isSome) : ControlLeaves reload x y := by
  cases ends with
  | done => exact conclude_done_leaves hx mode going silent hy kept
  | moved stands => exact conclude_moved_leaves silent hx stands hy
  | raising stands tail reloads => exact reloads ▸ conclude_raising_leaves silent hx mode going stands tail hy kept
  | stops stops =>
    cases e with
    | park u c => exact conclude_park_leaves noFlit hx stops hy
    | trap u f => exact absurd kept (conclude_trap_changes_mode hx mode going stops hy)
    | host u f kind => exact conclude_host_leaves hx stops hy
    | done | unwritten | yield | doneWait | moved | movedRaising | left | trapNext | trapFall => exact stops.elim

end

/-- A word whose body ends as a control word's does leaves what a control word leaves. -/
theorem issue_leaves {reload : Bool} {ws : WordSpec} {body : State → Issuer → Lanes → WordEnd} {s t u : State} {i : Issuer} {y : Warp}
    (ends : ∀ g, ControlEnd reload i.w t (body t (i.within t) g)) (silent : ∀ g, i.sends ws g = false)
    (noFlit : ∀ g, i.takes ws g = false) (hi : issuer s = some i) (hb : i.begins ws s = some t) (going : i.x.stopped = false)
    (made : issue ws body s = .next u) (hy : u.warps.find? i.w = some y) (kept : y.handler.isSome = i.x.handler.isSome) :
    ControlLeaves reload (warpAt t i.w) y := by
  obtain ⟨hx, mode, stopped⟩ := begins_warp hi hb
  have concluded : ∃ e, ControlEnd reload i.w t e ∧ issue ws body s = .next (i.conclude ws (i.lanes ws) e) := by
    by_cases acts : i.acts ws
    · exact ⟨_, ends _, issue_begins hi hb acts⟩
    · obtain ⟨idle, sometimes⟩ := not_or.mp acts
      exact ⟨_, .done, issue_idle hi hb (not_not.mp idle) (Bool.eq_false_iff.mpr sometimes)⟩
  obtain ⟨e, ending, next⟩ := concluded
  cases next.symm.trans made
  exact controlEnd_leaves (silent _) (noFlit _) hx mode (stopped.trans going) ending hy kept

end Sys2Proof.Machine
end

section
/-! SUPPORT. What the bodies of the control words leave of their warp: they move its lanes, its splits and its call stack, and a call's
spill and reload go through memory, where a device write may end the warp (R100, R110 to R118, R455). -/

namespace Sys2Proof.Machine

/-! ### Results of the parts of a body -/

/-- A part of a body makes its result with the word's warp gone or standing as it did, or stops the word so. -/
def Try.Stands {α : Type} (made : α → State) (w : Nat) (s : State) : Try α → Prop
  | .ok a => StandsOrEnds w s (made a)
  | .stop e => e.StopsAt w s

theorem WordEnd.StopsAt.after {w : Nat} {s t : State} {e : WordEnd} (h : StandsOrEnds w s t) (k : e.StopsAt w t) : e.StopsAt w s := by
  cases e with
  | park u c => exact h.trans k
  | trap u f => exact h.trans k
  | host u f kind => exact h.trans k
  | done | unwritten | yield | doneWait | moved | movedRaising | left | trapNext | trapFall => exact k.elim

theorem Try.Stands.after {α : Type} {made : α → State} {w : Nat} {s t : State} {r : Try α} (h : StandsOrEnds w s t)
    (k : r.Stands made w t) : r.Stands made w s := by
  cases r with
  | ok a => exact h.trans k
  | stop e => exact WordEnd.StopsAt.after h k

/-! ### Division (R76, R100) -/

theorem Warp.divide_moved {x y : Warp} {e : Nat} {t n : Lanes} {taken : Word64} {other : Place} {h : Option Word64}
    (divided : x.divide e t n taken other h = some y) : x.Moved y := by
  unfold Warp.divide at divided
  dsimp only at divided
  split at divided
  · exact Option.some.inj divided ▸ x.moved_setSplit ..
  split at divided
  · exact Option.some.inj divided ▸ x.moved_setSplit ..
  split at divided
  · exact Option.some.inj divided ▸ rfl
  split at divided
  · exact nomatch divided
  · exact Option.some.inj divided ▸ x.moved_setSplit ..

/-- A warp put back as one that stands as it did. -/
theorem standingAt_setWarp {s t : State} {w : Nat} {x : Warp} (at_ : t.warps = s.warps) (same : x.standing = (warpAt s w).standing) :
    standingAt (updWarp t w fun _ => x) w = standingAt s w := by
  rw [standingAt, standingAt, updWarp_find, if_pos rfl, at_]
  cases hx : s.warps.find? w with
  | none => rfl
  | some z => exact congrArg some (warpAt_of_find hx ▸ same)

theorem recordGrade_standing (s : State) (v w : Nat) (g : Word32) : standingAt (recordGrade s v g) w = standingAt s w :=
  standingAt_updWarp (f := fun x => { x with grade := g }) (fun _ => rfl) s v w

/-- The header of a division is read, and no warp is changed but for its GRADE where the read stops the word. -/
theorem reconverge_stands (s : State) (i : Issuer) :
    (∃ t h, reconverge s i = (t, .ok h) ∧ t.warps = s.warps) ∨ ∃ t e, reconverge s i = (t, .stop e) ∧ e.StopsAt i.w s := by
  unfold reconverge
  dsimp only
  split
  · exact .inl ⟨_, _, rfl, rfl⟩
  have fetched := fetchWord_warps s i.x.core i.x.ctx i.x.asid i.x.handler.isNone
    (headerAt i.b.hdrAt ((HFmt.ofWord i.b.header).rcv.signExtend 32))
  split
  · next t w found =>
    have read : t.warps = s.warps := (congrArg (·.1.warps) found).symm.trans fetched
    split
    · exact .inl ⟨_, _, rfl, read⟩
    · exact .inr ⟨_, _, rfl, .of_warps read⟩
  · next t n c gw found =>
    have read : t.warps = s.warps := (congrArg (·.1.warps) found).symm.trans fetched
    refine .inr ⟨_, _, rfl, ?_⟩
    have graded : StandsOrEnds i.w s (if n = .grade then recordGrade t i.w gw else t) :=
      (StandsOrEnds.of_warps read).trans (.ite (.of_same (recordGrade_standing ..)) (.refl ..))
    split
    · exact graded
    · exact graded

theorem divideSplit_stands (s : State) (i : Issuer) (e : Nat) (t n : Lanes) (taken : Word64) (other : Place) :
    (divideSplit s i e t n taken other).Stands Divided.s i.w s := by
  have go {u : State} (same : u.warps = s.warps) (h : Option Word64) :
      Try.Stands Divided.s i.w s (match (warpAt s i.w).divide e t n taken other h with
        | none => .stop (.trap u (i.fault .diverge 0 0))
        | some x' => .ok { s := updWarp u i.w fun _ => x',
                           other := (List.range 4).find? fun k => !((warpAt s i.w).splitAt k).valid && (x'.splitAt k).valid }) := by
    split
    · exact StandsOrEnds.of_warps same
    · next divided => exact .of_same (standingAt_setWarp same (Warp.divide_moved divided).standing)
  unfold divideSplit
  dsimp only
  split
  · exact go rfl none
  · rcases reconverge_stands s i with ⟨u, h, read, same⟩ | ⟨u, e, read, stops⟩
    · rw [read]
      exact go same h
    · rw [read]
      exact stops

theorem brxStep_stands (s : State) (i : Issuer) (e : Nat) (div : Bool) (reg : Fin 256) (l : Nat) (left : Lanes) :
    (brxStep s i e div reg l left).2.Stands Divided.s i.w s := divideSplit_stands ..

/-! ### The call stack (R114 to R118) -/

/-- The check of a spill or reload changes no warp but its GRADE, where it stops the word. -/
theorem callAccess_stands (s : State) (i : Issuer) (k : AccessKind) (off : Int) :
    (∃ u t, callAccess s i k off = (u, .ok t) ∧ u.warps = s.warps) ∨ ∃ u e, callAccess s i k off = (u, .stop e) ∧ e.StopsAt i.w s := by
  unfold callAccess
  dsimp only
  split
  · exact .inr ⟨_, _, rfl, .refl ..⟩
  have same := checkLanes_warps s i.x k 16 1#32 fun _ => stackAddr off
  generalize checkLanes s i.x k 16 1#32 (fun _ => stackAddr off) = checked at same
  obtain ⟨u, cs⟩ := checked
  have stands : StandsOrEnds i.w s u := .of_warps same
  dsimp only
  split
  · exact .inr ⟨_, _, rfl, stands⟩
  · refine .inr ⟨_, _, rfl, stands.trans ?_⟩
    exact .ite (.of_same (recordGrade_standing ..)) (.refl ..)
  · split
    · exact .inr ⟨_, _, rfl, stands⟩
    · exact .inl ⟨_, _, rfl, same⟩
  · exact .inr ⟨_, _, rfl, stands⟩
  · exact .inr ⟨_, _, rfl, stands⟩

theorem spillCall_stands (s : State) (i : Issuer) : (spillCall s i).Stands id i.w s := by
  unfold spillCall
  dsimp only
  split
  · split
    · exact .refl ..
    · next c rest _ _ =>
      generalize (launchAt s (warpAt s i.w).launch).stkSz - 16 * (((warpAt s i.w).table.cspill.toNat : Int) + 1) = off
      rcases callAccess_stands s i storeKind off with ⟨u, t, passed, same⟩ | ⟨u, e, stopped, stops⟩
      · rw [passed]
        exact (StandsOrEnds.of_warps same).trans ((writeTarget_standsOrEnds i.w u (warpAt s i.w) c.bytes .dflt t).trans
          (.of_same (standingAt_updWarp (fun x => (x.moved_table _).standing) _ _ _)))
      · rw [stopped]
        exact stops
  · exact .refl ..

theorem callRoom_stands (s : State) (i : Issuer) : (callRoom s i).Stands id i.w s := by
  unfold callRoom
  dsimp only
  split
  · split
    · exact StandsOrEnds.refl ..
    · exact StandsOrEnds.refl ..
  · exact spillCall_stands s i

theorem putCall_stands (s : State) (i : Issuer) (e : Nat) : StandsOrEnds i.w s (putCall s i e) :=
  .of_same (standingAt_updWarp (fun x => (x.moved_table _).standing) _ _ _)

theorem pushCall_stands (s : State) (i : Issuer) (e : Nat) : (pushCall s i e).Stands id i.w s := by
  have room := callRoom_stands s i
  unfold pushCall
  generalize callRoom s i = made at room
  cases made with
  | ok u => exact StandsOrEnds.trans room (putCall_stands ..)
  | stop e => exact room

theorem countTails_warps (s : State) (slot n : Nat) : (countTails s slot n).warps = s.warps := by
  unfold countTails
  split <;> rfl

/-- A reload reads memory, changes the call stack and the GRADE, and raises the tail flag or nothing. -/
theorem reloadCall_stands (s : State) (i : Issuer) :
    (reloadCall s i).Stands Prod.fst i.w s ∧ ∀ u n, reloadCall s i = .ok (u, n) → n = 0 ∨ n = fTAIL := by
  unfold reloadCall
  dsimp only
  split
  · exact ⟨.refl .., fun u n made => .inl (by cases made; rfl)⟩
  generalize (launchAt s (warpAt s i.w).launch).stkSz - 16 * ((warpAt s i.w).table.cspill.toNat : Int) = off
  rcases callAccess_stands s i loadKind off with ⟨u, t, passed, same⟩ | ⟨u, e, stopped, stops⟩
  · rw [passed]
    dsimp only
    have read := (readTarget_warps u (warpAt s i.w).core 16 .dflt t).trans same
    generalize readTarget u (warpAt s i.w).core 16 .dflt t = got at read
    obtain ⟨u', d⟩ := got
    dsimp only at read ⊢
    have graded : StandsOrEnds i.w s (match gradeOf [(0, stackAddr off, d)] with | some gw => recordGrade u' i.w gw | none => u') := by
      refine (StandsOrEnds.of_warps read).trans ?_
      split
      · exact .of_same (recordGrade_standing ..)
      · exact .refl ..
    split
    · exact ⟨graded, fun u n made => nomatch made⟩
    · refine ⟨?_, fun u n made => ?_⟩
      · dsimp only [Try.Stands]
        exact (graded.trans (.of_warps (countTails_warps ..))).trans
          (.of_same (standingAt_updWarp (fun x => (x.moved_table _).standing) _ _ _))
      · cases made
        split
        · exact .inl rfl
        · exact .inr rfl
  · rw [stopped]
    exact ⟨stops, fun u n made => nomatch made⟩

end Sys2Proof.Machine
end

section
/-! SUPPORT. EXIT, BRA, BRX, CALL, CALLV and RET end as control words do (R110 to R117). -/

namespace Sys2Proof.Machine

theorem exitLanes_stands (s : State) (i : Issuer) (g : Lanes) : StandsOrEnds i.w s (exitLanes s i g) :=
  .of_same (standingAt_updWarp
    (f := fun x => (x.endLanes g).setSplit i.e fun p => p.goTo ⟨i.fall, none⟩)
    (fun x => ((x.moved_endLanes g).trans (Warp.moved_setSplit ..)).standing) s i.w i.w)

theorem callvMore_stands (i : Issuer) (reg : Fin 256) (n : Nat) (s : State) (e : Nat) (left : Lanes) :
    StandsOrEnds i.w s (callvMore i reg n s e left) := by
  induction n generalizing s e left with
  | zero => exact .refl ..
  | succ n ih =>
    unfold callvMore
    split
    · exact .refl ..
    · next l _ =>
      split
      · exact .refl ..
      have step := brxStep_stands s i e true reg l left
      generalize brxStep s i e true reg l left = stepped at step
      obtain ⟨rest, r⟩ := stepped
      cases r with
      | stop e' => exact .refl ..
      | ok d =>
        have push := pushCall_stands d.s i e
        dsimp only
        generalize pushCall d.s i e = pushed at push
        cases pushed with
        | stop e' => exact .refl ..
        | ok s' =>
          have called : StandsOrEnds i.w s s' := StandsOrEnds.trans step push
          dsimp only
          split
          · exact called.trans (ih ..)
          · exact called

/-! ### The words -/

/-- A word whose body ends as a control word's does, wherever it takes its effect. -/
def ControlWord (reload : Bool) (k : Instr) (ws : WordSpec) : Prop :=
  ∃ body : State → Issuer → Lanes → WordEnd,
    (∀ s, exec k s = issue ws body s) ∧ ∀ s i g, ControlEnd reload i.w s (body s i g)

theorem exit_control (g : Guard) : ControlWord false (.exit g) { plainSpec 0x02 g with transfer := true, noHandler := true } :=
  ⟨_, fun _ => rfl, fun s i m => .moved (exitLanes_stands s i m)⟩

theorem bra_control (g : Guard) (mode : BraMode) (tgt : BitVec 32) :
    ControlWord false (.bra g mode tgt) { plainSpec 0x04 g with transfer := true, always := true } := by
  refine ⟨_, fun _ => rfl, fun s i m => ?_⟩
  dsimp only
  generalize braTaken mode (i.x.active i.e) m = taken
  have divided := divideSplit_stands s i i.e taken (i.x.active i.e &&& ~~~taken) (headerAt i.b.hdrAt tgt) ⟨i.fall, none⟩
  generalize divideSplit s i i.e taken _ _ _ = made at divided
  cases made with
  | ok d => exact .moved divided
  | stop e => exact .stops divided

theorem brx_control (g : Guard) (div : Bool) (reg : Fin 256) :
    ControlWord false (.brx g div reg) { plainSpec 0x05 g with transfer := true, reads := vRegs true reg.val } := by
  refine ⟨_, fun _ => rfl, fun s i m => ?_⟩
  dsimp only
  split
  · exact .stops (.refl ..)
  have divided := brxStep_stands s i i.e div reg ((lowestLane m).getD 0) m
  generalize (brxStep s i i.e div reg _ m).2 = made at divided
  cases made with
  | ok d => exact .moved divided
  | stop e => exact .stops divided

theorem call_control (g : Guard) (tgt : BitVec 32) : ControlWord false (.call g tgt) { plainSpec 0x06 g with transfer := true } := by
  refine ⟨_, fun _ => rfl, fun s i m => ?_⟩
  split
  · have pushed := pushCall_stands s i i.e
    generalize pushCall s i i.e = made at pushed
    cases made with
    | stop e => exact .stops pushed
    | ok u => exact .moved (StandsOrEnds.trans pushed (.of_same (standingAt_updWarp (fun x => (x.moved_setSplit ..).standing) ..)))
  · exact .done

theorem callv_control (g : Guard) (div : Bool) (reg : Fin 256) :
    ControlWord false (.callv g div reg) { plainSpec 0x07 g with transfer := true, reads := vRegs true reg.val } := by
  refine ⟨_, fun _ => rfl, fun s i m => ?_⟩
  dsimp only
  generalize (lowestLane m).getD 0 = l
  split
  · exact .stops (.refl ..)
  have tried := brxStep_stands s i i.e div reg l m
  split
  · next e stopped =>
    rw [stopped] at tried
    exact .stops tried
  have room := callRoom_stands s i
  generalize callRoom s i = made at room
  cases made with
  | stop e => exact .stops room
  | ok u =>
    have step := brxStep_stands u i i.e div reg l m
    dsimp only
    generalize brxStep u i i.e div reg l m = stepped at step
    obtain ⟨rest, r⟩ := stepped
    cases r with
    | stop e => exact .stops (WordEnd.StopsAt.after room step)
    | ok d =>
      have called : StandsOrEnds i.w s (putCall d.s i i.e) := (StandsOrEnds.trans room step).trans (putCall_stands ..)
      dsimp only
      split
      · exact .moved (called.trans (callvMore_stands ..))
      · exact .moved called

theorem ret_control (g : Guard) : ControlWord true (.ret g) { plainSpec 0x08 g with transfer := true } := by
  refine ⟨_, fun _ => rfl, fun s i m => ?_⟩
  dsimp only
  split
  case isFalse => exact .done
  split
  · split
    · exact .stops (.refl ..)
    · exact .moved (exitLanes_stands ..)
  split
  · exact .stops (.refl ..)
  split
  · exact .stops (.refl ..)
  obtain ⟨reload, tail⟩ := reloadCall_stands s i
  generalize reloadCall s i = made at reload tail
  cases made with
  | stop e => exact .stops reload
  | ok a =>
    obtain ⟨u, n⟩ := a
    exact .raising (StandsOrEnds.trans reload (.of_same (standingAt_updWarp (fun x => (x.moved_table _).standing) ..)))
      (tail u n rfl) rfl

/-- A control word that names no destination and reads no scalar leaves every register, and FLAGS but for the tail flag of a reload. -/
theorem ControlWord.leaves {reload : Bool} {k : Instr} {ws : WordSpec} (word : ControlWord reload k ws) (writes : ws.writes = [])
    (reads : Reg.s 62 ∉ ws.reads) {s t u : State} {i : Issuer} {y : Warp} (hi : issuer s = some i) (hb : i.begins ws s = some t)
    (going : i.x.stopped = false) (made : exec k s = .next u) (hy : u.warps.find? i.w = some y)
    (kept : y.handler.isSome = i.x.handler.isSome) : ControlLeaves reload (warpAt t i.w) y := by
  obtain ⟨body, effect, ends⟩ := word
  have silent (g : Lanes) : i.sends ws g = false := by simp [Issuer.sends, writes]
  have noFlit (g : Lanes) : i.takes ws g = false := by simp [Issuer.takes, reads]
  exact issue_leaves (ends t (i.within t)) silent noFlit hi hb going (effect s ▸ made) hy kept

theorem ControlLeaves.of_no_reload {x y : Warp} {P : Prop} (h : ControlLeaves false x y) :
    sameRegisters [] 0 x y ∧ (y.flags = x.flags ∨ P) :=
  ⟨h.1, .inl (h.2.resolve_right fun reloads => Bool.false_ne_true reloads.1)⟩

theorem scalar_not_vRegs (n m : Nat) : Reg.s m ∉ vRegs true n := by simp [vRegs]

/-- Settles O57: each of the six words ends with its warp gone or standing as it did, and the end of its run, a park, a host fault
and a trap that keeps the mode leave it so; RET's reload is the one that raises a flag. -/
theorem controlLeavesRegisters : Obligations.ControlLeavesRegisters := by
  unfold Obligations.ControlLeavesRegisters
  intro g mode tgt div reg k ws s t u i y word hi hb going made hy kept
  simp only [List.mem_cons, Prod.mk.injEq, List.not_mem_nil, or_false] at word
  rcases word with ⟨rfl, rfl⟩ | ⟨rfl, rfl⟩ | ⟨rfl, rfl⟩ | ⟨rfl, rfl⟩ | ⟨rfl, rfl⟩ | ⟨rfl, rfl⟩
  · exact ((exit_control g).leaves rfl List.not_mem_nil hi hb going made hy kept).of_no_reload
  · exact ((bra_control g mode tgt).leaves rfl List.not_mem_nil hi hb going made hy kept).of_no_reload
  · exact ((brx_control g div reg).leaves rfl (scalar_not_vRegs _ _) hi hb going made hy kept).of_no_reload
  · exact ((call_control g tgt).leaves rfl List.not_mem_nil hi hb going made hy kept).of_no_reload
  · exact ((callv_control g div reg).leaves rfl (scalar_not_vRegs _ _) hi hb going made hy kept).of_no_reload
  · obtain ⟨same, flags⟩ := (ret_control g).leaves rfl List.not_mem_nil hi hb going made hy kept
    exact ⟨same, flags.imp_right fun tail => ⟨rfl, tail.2⟩⟩

end Sys2Proof.Machine
end

section
/-! SUPPORT. Words whose body is their effect, and words that wait for the register that their code names (R129, R406). -/

namespace Sys2Proof.Machine

/-- A word whose body is its effect completes wherever it takes it. -/
theorem completes_issue {k : Instr} {ws : WordSpec} {eff : State → Issuer → Lanes → WordEnd} {s : State}
    (issues : exec k s = issue ws eff s) : Completes k ws eff s :=
  completes_of issues fun _ _ _ _ => rfl

/-- A completion holds under a stronger condition, with the effect as that condition lets it be said. -/
theorem CompletesWhen.imp {k : Instr} {ws : WordSpec} {cond cond' : State → Issuer → Lanes → Prop}
    {eff eff' : State → Issuer → Lanes → WordEnd} {s : State} (h : CompletesWhen k ws cond eff s)
    (stronger : ∀ t i m, cond' t i m → cond t i m) (same : ∀ t i m, cond' t i m → eff t i m = eff' t i m) :
    CompletesWhen k ws cond' eff' s := by
  intro i t hi hb ha hc
  rw [← same _ _ _ hc]
  exact h i t hi hb ha (stronger _ _ _ hc)

/-- Settles O5: each of these words computes its lanes' results from the operands alone. -/
theorem compareWordsComplete : Obligations.CompareWordsComplete := by
  unfold Obligations.CompareWordsComplete
  intro g ty ic fc comb d a b pd pa pb pc f s
  exact ⟨completes_issue rfl, completes_issue rfl, completes_issue rfl, completes_issue rfl, completes_issue rfl,
    completes_issue rfl⟩

/-- Settles O7: each of these words computes its result from its warp's registers as they stand where it begins. -/
theorem movesComplete : Obligations.MovesComplete := by
  unfold Obligations.MovesComplete
  intro g ty m op rop mode neg all seg d vd va a b pa s
  exact ⟨completes_issue rfl, completes_issue rfl, completes_issue rfl, completes_issue rfl, completes_issue rfl,
    completes_issue rfl, completes_issue rfl, completes_issue rfl, completes_issue rfl⟩

/-- Settles O11: each of the two words is its trap. -/
theorem softwareTrapsTrap : Obligations.SoftwareTrapsTrap := by
  unfold Obligations.SoftwareTrapsTrap
  intro g imm s
  exact ⟨completes_issue rfl, completes_issue rfl⟩

/-- A word has nothing to wait for when none of the registers that its code hides is pending. -/
theorem no_hidden_waits {code : Nat} {pending : List Reg} (landed : (hiddenReg code).all fun r => !pending.contains r) :
    (hiddenReg code).filter pending.contains = [] :=
  List.filter_eq_nil_iff.mpr fun r hr => by simpa using List.all_eq_true.mp landed r hr

theorem gets_completes (g : Guard) (ty : Ty) (d : Dst) (code : BitVec 8) (s : State) :
    CompletesWhen (.gets g ty d code) { specialSpec 0x5D g code 81 with writes := dstRegs ty.is64 d }
      (fun _ i _ => (hiddenReg code.toNat).all fun r => !i.x.pendingRegs.contains r)
      (fun t i m =>
        if code = 13 then .done (updWarp (readClock t i.x.core).2 i.w fun x => x.dst ty.is64 d m fun _ => (readClock t i.x.core).1) 0
        else .done (updWarp t i.w fun x => x.dst ty.is64 d m fun l => getSpecial t i.x i.e code.toNat l) 0) s :=
  completes_of rfl fun _ _ _ landed => if_neg (not_not.mpr (no_hidden_waits landed))

theorem sets_completes (g : Guard) (ty : Ty) (code : BitVec 8) (a : Src) (s : State) :
    CompletesWhen (.sets g ty code a)
      { specialSpec 0x5E g code 78 with lit := a.isLit, unclean := true, reads := srcRegs ty.is64 a }
      (fun _ i _ => (hiddenReg code.toNat).all fun r => !i.x.pendingRegs.contains r)
      (fun t i m => .done (updWarp t i.w fun x =>
        x.setSpecial code.toNat m (i.x.src ty a ((lowestLane m).getD 0)) fun l => i.x.src ty a l) 0) s :=
  completes_of rfl fun _ _ _ landed => if_neg (not_not.mpr (no_hidden_waits landed))

/-- Settles O8: a landed register leaves the one branch of GETS and of SETS that does not park. -/
theorem specialRegistersComplete : Obligations.SpecialRegistersComplete := by
  unfold Obligations.SpecialRegistersComplete
  intro g ty d code a s
  exact ⟨gets_completes g ty d code s, sets_completes g ty code a s⟩

end Sys2Proof.Machine
end

section
/-! SUPPORT. Branches, calls and returns where their words act (R109 to R118): each condition leaves one branch of the word's body. -/

namespace Sys2Proof.Machine

/-! ### Branches (R112, R113) -/

theorem bra_divides (g : Guard) (mode : BraMode) (tgt : BitVec 32) (d : Divided) (s : State) :
    CompletesWhen (.bra g mode tgt) { plainSpec 0x04 g with transfer := true, always := true }
      (fun t i m =>
        let active := i.x.active i.e
        let taken := braTaken mode active m
        divideSplit t i i.e taken (active &&& ~~~taken) (headerAt i.b.hdrAt tgt) ⟨i.fall, none⟩ = .ok d)
      (fun _ _ _ => .moved d.s) s := by
  refine completes_of rfl fun t i m divided => ?_
  dsimp only at divided ⊢
  rw [divided]

theorem brx_divides (g : Guard) (div : Bool) (reg : Fin 256) (d : Divided) (s : State) :
    CompletesWhen (.brx g div reg) { plainSpec 0x05 g with transfer := true, reads := vRegs true reg.val }
      (fun t i m =>
        let l := (lowestLane m).getD 0
        laneTarget i reg l % 8 = 0 ∧ (brxStep t i i.e div reg l m).2 = .ok d)
      (fun _ _ _ => .moved d.s) s := by
  refine completes_of rfl fun t i m ⟨aligned, divided⟩ => ?_
  rw [if_neg (not_not.mpr aligned), divided]

/-- Settles O9: NOP, YIELD and EXIT have one way to act; a branch goes on from the division that has room. -/
theorem branchesComplete : Obligations.BranchesComplete := by
  unfold Obligations.BranchesComplete
  intro g mode tgt div reg d s
  exact ⟨completes_issue rfl, completes_issue rfl, completes_issue rfl, bra_divides g mode tgt d s, brx_divides g div reg d s⟩

/-! ### Calls (R113, R115, R118) -/

/-- The word of a CALL. -/
def callSpec (g : Guard) : WordSpec := { plainSpec 0x06 g with transfer := true }

theorem call_taken (g : Guard) (tgt : BitVec 32) (u s : State) :
    CompletesWhen (.call g tgt) (callSpec g) (fun t i m => leads (i.x.active i.e) m = true ∧ pushCall t i i.e = .ok u)
      (fun _ i _ => .moved (updSplit u i.w i.e fun p => p.goTo ⟨headerAt i.b.hdrAt tgt, none⟩)) s := by
  refine completes_of rfl fun t i m ⟨led, pushed⟩ => ?_
  rw [if_pos led, pushed]

theorem call_not_taken (g : Guard) (tgt : BitVec 32) (s : State) :
    CompletesWhen (.call g tgt) (callSpec g) (fun _ i m => leads (i.x.active i.e) m = false) (fun t _ _ => .done t 0) s :=
  completes_of rfl fun _ _ _ unled => if_neg (Bool.eq_false_iff.mp unled)

/-- The word of a CALLV. -/
def callvSpec (g : Guard) (reg : Fin 256) : WordSpec := { plainSpec 0x07 g with transfer := true, reads := vRegs true reg.val }

/-- CALLV serves its first target: its division, tried in t, is made as d in the state u that has room for the push. -/
def CallvServes (div : Bool) (reg : Fin 256) (u : State) (d : Divided) (t : State) (i : Issuer) (m : Lanes) : Prop :=
  let l := (lowestLane m).getD 0
  laneTarget i reg l % 8 = 0 ∧ (∃ d0, (brxStep t i i.e div reg l m).2 = .ok d0) ∧ callRoom t i = .ok u ∧
    (brxStep u i i.e div reg l m).2 = .ok d

/-- A CALLV that serves its first target pushes the return entry; the lanes that its division leaves over, if any, go on with
the divisions of callvMore. -/
theorem callv_serves (g : Guard) (div : Bool) (reg : Fin 256) (d : Divided) (u s : State) :
    CompletesWhen (.callv g div reg) (callvSpec g reg) (fun t i m => CallvServes div reg u d t i m)
      (fun _ i m => .moved (d.other.elim (putCall d.s i i.e) fun n =>
        callvMore i reg 3 (putCall d.s i i.e) n (brxStep u i i.e div reg ((lowestLane m).getD 0) m).1)) s := by
  refine completes_of rfl fun t i m ⟨aligned, ⟨d0, tried⟩, room, divided⟩ => ?_
  have step : brxStep u i i.e div reg ((lowestLane m).getD 0) m = (_, .ok d) := Prod.ext rfl divided
  rw [if_neg (not_not.mpr aligned), tried, room]
  dsimp only
  rw [step]
  dsimp only
  cases d.other <;> rfl

/-! ### Returns (R117) -/

/-- The word of a RET. -/
def returnSpec (g : Guard) : WordSpec := { plainSpec 0x08 g with transfer := true }

theorem ret_ends_lanes (g : Guard) (s : State) :
    CompletesWhen (.ret g) (returnSpec g)
      (fun _ i m => leads (i.x.active i.e) m = true ∧ i.x.table.callDepth i.e = 0 ∧ i.x.handler = none)
      (fun t i _ => .moved (exitLanes t i (i.x.active i.e))) s := by
  refine completes_of rfl fun t i m ⟨led, shallow, unhandled⟩ => ?_
  rw [if_pos led, if_pos shallow, unhandled]
  rfl

theorem ret_illegal_in_handler (g : Guard) (s : State) :
    CompletesWhen (.ret g) (returnSpec g)
      (fun _ i m => leads (i.x.active i.e) m = true ∧ i.x.table.callDepth i.e = 0 ∧ i.x.handler.isSome = true)
      (fun t i _ => .trap t (i.fault .illegal 0 0)) s := by
  refine completes_of rfl fun t i m ⟨led, shallow, handling⟩ => ?_
  rw [if_pos led, if_pos shallow, if_pos handling]

theorem ret_pops (g : Guard) (k n : Nat) (c : CallEntry) (u s : State) :
    CompletesWhen (.ret g) (returnSpec g)
      (fun t i m => leads (i.x.active i.e) m = true ∧ i.x.table.callDepth i.e ≠ 0 ∧ i.x.table.newestCall i.e = some (k, c) ∧
        c.depth = i.p.frames.length ∧ reloadCall t i = .ok (u, n))
      (fun _ i _ =>
        let j := (((warpAt u i.w).table.newestCall i.e).map (·.1)).getD 0
        .movedRaising (updWarp u i.w fun x =>
          { x with table := ({ x.table with calls := x.table.calls.eraseIdx j }).setSplit i.e fun p => p.goTo ⟨c.rh, none⟩ })
          n ⟨c.rh, none⟩) s := by
  refine completes_of rfl fun t i m ⟨led, deep, newest, depth, reloaded⟩ => ?_
  rw [if_pos led, if_neg deep, newest]
  dsimp only
  rw [if_neg (not_not.mpr depth), reloaded]

theorem ret_not_taken (g : Guard) (s : State) :
    CompletesWhen (.ret g) (returnSpec g) (fun _ i m => leads (i.x.active i.e) m = false) (fun t _ _ => .done t 0) s :=
  completes_of rfl fun _ _ _ unled => if_neg (Bool.eq_false_iff.mp unled)

/-- Settles O10: a call or return goes on when the lowest active lane leads it, with what its push or reload gave; a CALLV's
clauses part by whether its first division leaves lanes over. -/
theorem callsComplete : Obligations.CallsComplete := by
  unfold Obligations.CallsComplete
  intro g tgt div reg d k n c u s
  refine ⟨call_taken g tgt u s, call_not_taken g tgt s, ?whole, ?part, ret_ends_lanes g s, ret_illegal_in_handler g s,
    ret_pops g k n c u s, ret_not_taken g s⟩
  case whole =>
    exact (callv_serves g div reg d u s).imp
      (fun _ _ _ ⟨aligned, tried, room, divided, _⟩ => ⟨aligned, tried, room, divided⟩)
      fun _ _ _ ⟨_, _, _, _, whole⟩ => by rw [whole]; rfl
  case part =>
    exact (callv_serves g div reg d u s).imp
      (fun _ _ _ ⟨aligned, tried, room, divided, _⟩ => ⟨aligned, tried, room, divided⟩)
      fun _ _ _ ⟨_, _, _, _, left⟩ => by rw [left]; rfl

end Sys2Proof.Machine
end

section
/-! SUPPORT. Words whose lanes each compute a result from their operands (R153 to R179): what they give, by their operation. -/

namespace Sys2Proof.Machine

/-! ### One, two and three sources -/

section
variable {k : Instr} {opc : Nat} {g : Guard} {ta tb tc td : Ty} {d : Dst} {a b c : Src} {s : State}

theorem gives1_alu {f : Nat → Nat × Nat} (issues : exec k s = alu1 opc g ta td d a f s) : Gives1 k opc g ta td d a f s :=
  completes_issue issues

theorem gives2_alu {f : Nat → Nat → Nat × Nat} (issues : exec k s = alu2 opc g ta tb td d a b f s) :
    Gives2 k opc g ta tb td d a b f s :=
  completes_issue issues

theorem gives3_alu {f : Nat → Nat → Nat → Nat × Nat} (issues : exec k s = alu3 opc g ta tb tc td d a b c f s) :
    Gives3 k opc g ta tb tc td d a b c f s :=
  completes_issue issues

/-- An operation may be said in other words. -/
theorem Gives1.congr {f f' : Nat → Nat × Nat} (h : Gives1 k opc g ta td d a f s) (same : ∀ x, f x = f' x) :
    Gives1 k opc g ta td d a f' s :=
  (funext same : f = f') ▸ h

theorem Gives2.congr {f f' : Nat → Nat → Nat × Nat} (h : Gives2 k opc g ta tb td d a b f s) (same : ∀ x y, f x y = f' x y) :
    Gives2 k opc g ta tb td d a b f' s :=
  (funext fun x => funext (same x) : f = f') ▸ h

end

/-- Settles O1: each of these words issues its operation on its sources. -/
theorem integerArithmeticCompletes : Obligations.IntegerArithmeticCompletes := by
  unfold Obligations.IntegerArithmeticCompletes
  intro g ty sat d a b c s
  exact ⟨gives2_alu rfl, gives2_alu rfl, gives2_alu rfl, gives2_alu rfl, gives3_alu rfl, gives3_alu rfl, gives2_alu rfl,
    gives2_alu rfl, gives1_alu rfl, gives1_alu rfl, gives3_alu rfl, gives2_alu rfl, gives2_alu rfl⟩

/-- Settles O2: the sum and the difference are carryBody's; P7 is true and takes no write. -/
theorem carryWordsComplete : Obligations.CarryWordsComplete := by
  unfold Obligations.CarryWordsComplete
  intro g ty d a b pc s
  exact ⟨completes_issue rfl, completes_issue rfl, fun x n v => ⟨x.pred_seven, x.putP_seven n v⟩⟩

/-- Settles O3: each of these words issues its operation on its sources. -/
theorem bitWordsComplete : Obligations.BitWordsComplete := by
  unfold Obligations.BitWordsComplete
  intro g ty f right sx sh d a b c s
  exact ⟨gives2_alu rfl, gives2_alu rfl, gives2_alu rfl, gives1_alu rfl, gives2_alu rfl, gives2_alu rfl, gives2_alu rfl,
    gives2_alu rfl, gives2_alu rfl, gives3_alu rfl, gives1_alu rfl, gives1_alu rfl, gives1_alu rfl, gives3_alu rfl,
    gives2_alu rfl, gives3_alu rfl⟩

/-- Settles O4: each of these words issues its operation on its sources, element by element where its type is packed. -/
theorem floatWordsComplete : Obligations.FloatWordsComplete := by
  unfold Obligations.FloatWordsComplete
  intro g ty m d a b c s
  exact ⟨gives2_alu rfl, gives2_alu rfl, gives2_alu rfl, gives3_alu rfl, gives2_alu rfl, gives2_alu rfl, gives1_alu rfl,
    gives1_alu rfl, gives1_alu rfl, gives2_alu rfl, gives1_alu rfl, gives1_alu rfl, gives1_alu rfl, gives1_alu rfl,
    gives1_alu rfl, gives3_alu rfl, gives1_alu rfl, gives2_alu rfl, gives1_alu rfl, gives1_alu rfl⟩

/-- Settles O6: CVT has two sources when it packs two f32 values and one otherwise (R174); B and C of SBUNPK and SBSCL are b32
(log 115), RNG's operands n32 (log 46). -/
theorem conversionsComplete : Obligations.ConversionsComplete := by
  unfold Obligations.ConversionsComplete
  intro g ty sty m fmt dense len32 d v a b c s
  exact ⟨fun pair => gives2_alu (if_pos pair), fun single => gives1_alu (if_neg single), completes_issue rfl, completes_issue rfl,
    gives3_alu rfl, gives3_alu rfl⟩

end Sys2Proof.Machine
end

section
/-! SUPPORT. Addition, comparison and sign element by element, from the integers (R154). -/

namespace Sys2Proof.Machine

theorem elemWidth_pos (ty : Ty) : 0 < elemWidth ty := by
  cases ty <;> decide

theorem wrapTo_lt (w : Nat) (v : Int) : wrapTo w v < 2 ^ w := by
  have range := Int.emod_lt_of_pos v (by positivity : (0 : Int) < 2 ^ w)
  have nonneg := Int.emod_nonneg v (by positivity : (2 : Int) ^ w ≠ 0)
  unfold wrapTo
  zify
  rwa [Int.toNat_of_nonneg nonneg]

theorem fitTo_lt (ty : Ty) (w : Nat) (sat : Bool) (v : Int) : fitTo ty w sat v < 2 ^ w :=
  wrapTo_lt w _

/-- Results that fit their elements stand side by side as they are. -/
theorem packElems_eq_sum {ty : Ty} {f : Nat → Nat} (small : ∀ k, f k < 2 ^ elemWidth ty) :
    packElems ty f = ((List.range (elems ty)).map fun k => f k * 2 ^ (elemWidth ty * k)).sum := by
  simp only [packElems, Nat.mod_eq_of_lt (small _), List.sum_eq_foldl]

theorem elemOf_lt (ty : Ty) (x k : Nat) : elemOf ty x k < 2 ^ elemWidth ty :=
  Nat.mod_lt _ (by positivity)

/-- A value by its low w bits. -/
theorem valueOf_eq (ty : Ty) (w x : Nat) :
    valueOf ty w x =
      if ty.isSigned = true ∧ 2 ^ (w - 1) ≤ x % 2 ^ w then ((x % 2 ^ w : Nat) : Int) - 2 ^ w else (x % 2 ^ w : Nat) := by
  rw [valueOf, signedOf]
  push_cast
  rw [← ite_and]

theorem valueOf_of_lt {ty : Ty} {w x : Nat} (small : x < 2 ^ w) :
    valueOf ty w x = if ty.isSigned = true ∧ 2 ^ (w - 1) ≤ x then (x : Int) - 2 ^ w else x := by
  rw [valueOf_eq, Nat.mod_eq_of_lt small]

theorem loOf_le_hiOf (ty : Ty) (w : Nat) : loOf ty w ≤ hiOf ty w := by
  have half : (0 : Int) < 2 ^ (w - 1) := by positivity
  have whole : (0 : Int) < 2 ^ w := by positivity
  unfold loOf hiOf
  split <;> omega

theorem fitTo_eq (ty : Ty) (w : Nat) (sat : Bool) (v : Int) :
    fitTo ty w sat v =
      if sat = true then (max (loOf ty w) (min (hiOf ty w) v) % 2 ^ w).toNat else (v % 2 ^ w).toNat := by
  have range := loOf_le_hiOf ty w
  have clamp : (if v < loOf ty w then loOf ty w else if hiOf ty w < v then hiOf ty w else v) =
      max (loOf ty w) (min (hiOf ty w) v) := by
    generalize loOf ty w = lo, hiOf ty w = hi at range ⊢
    split
    · omega
    · split <;> omega
  rw [fitTo, wrapTo, clamp]
  split <;> rfl

theorem perElem2_eq (ty : Ty) (sat : Bool) (f : Int → Int → Int) (x y : Nat) :
    perElem2 ty sat f x y =
      (((List.range (elems ty)).map fun k =>
        fitTo ty (elemWidth ty) sat (f (valueOf ty (elemWidth ty) (elemOf ty x k)) (valueOf ty (elemWidth ty) (elemOf ty y k))) *
          2 ^ (elemWidth ty * k)).sum, 0) := by
  rw [perElem2, packElems_eq_sum fun k => fitTo_lt ..]

theorem perElem1_eq (ty : Ty) (sat : Bool) (f : Int → Int) (x : Nat) :
    perElem1 ty sat f x =
      (((List.range (elems ty)).map fun k =>
        fitTo ty (elemWidth ty) sat (f (valueOf ty (elemWidth ty) (elemOf ty x k))) * 2 ^ (elemWidth ty * k)).sum, 0) := by
  rw [perElem1, packElems_eq_sum fun k => fitTo_lt ..]

/-- The number of elements by their width (R154). -/
theorem elems_eq (ty : Ty) : elems ty = if elemWidth ty = 8 then 4 else if elemWidth ty = 16 then 2 else 1 := by
  cases ty <;> rfl

theorem isSigned_eq (ty : Ty) : ty.isSigned = decide (ty ∈ [Ty.i32, .i64, .i16x2, .i8x4]) := by
  cases ty <;> rfl

theorem ite_neg_eq_abs (v : Int) : (if v < 0 then -v else v) = |v| := by
  split
  · next neg => exact (abs_of_neg neg).symm
  · next nonneg => exact (abs_of_nonneg (not_lt.mp nonneg)).symm

/-- Settles O40: what O1 says of these words, with each of its terms in the words of R154. -/
theorem elementwiseArithmetic : Obligations.ElementwiseArithmetic := by
  unfold Obligations.ElementwiseArithmetic
  intro g ty sat d a b s _ w signed part val lo hi fit all
  have fit_eq (e : Bool) (v : Int) : fit e v = fitTo ty w e v := by
    rw [fitTo_eq]
    simp only [fit, lo, hi, signed, loOf, hiOf, isSigned_eq]
  have val_eq (x k : Nat) : val (part x k) = valueOf ty w (elemOf ty x k) := by
    rw [valueOf_of_lt (elemOf_lt ty x k), isSigned_eq]
    rfl
  have all_eq (f : Nat → Nat) : all f = ((List.range (elems ty)).map fun k => f k * 2 ^ (w * k)).sum := by
    rw [elems_eq]
  obtain ⟨add, sub, -, -, -, -, min, max, abs, neg, -, -, -⟩ := integerArithmeticCompletes g ty sat d a b a s
  simp only [fit_eq, val_eq, all_eq, min_def, max_def, ← ite_neg_eq_abs]
  exact ⟨add.congr fun x y => perElem2_eq .., sub.congr fun x y => perElem2_eq .., min.congr fun x y => perElem2_eq ..,
    max.congr fun x y => perElem2_eq .., abs.congr fun x => perElem1_eq .., neg.congr fun x => perElem1_eq ..⟩

end Sys2Proof.Machine
end

section
/-! SUPPORT. Shifts and rotations, bit by bit (R158). -/

namespace Sys2Proof.Machine

theorem shiftRight_lt (w x n : Nat) : shiftRight w x n < 2 ^ w := by
  unfold shiftRight
  split
  · positivity
  · exact (Nat.div_le_self ..).trans_lt (Nat.mod_lt _ (by positivity))

theorem testBit_shiftRight (w x n k : Nat) : (shiftRight w x n).testBit k = (decide (k + n < w) && x.testBit (k + n)) := by
  unfold shiftRight
  split
  · rw [Nat.zero_testBit, decide_eq_false (by omega), Bool.false_and]
  · rw [Nat.testBit_div_two_pow, Nat.testBit_mod_two_pow]

/-- The value of w signed bits is the bit vector's. -/
theorem signedOf_eq_toInt {w : Nat} (pos : 0 < w) (x : Nat) : signedOf w x = (BitVec.ofNat w x).toInt := by
  have top : 2 * (x % 2 ^ w) < 2 ^ w ↔ ¬2 ^ (w - 1) ≤ x % 2 ^ w := by
    have double := Nat.two_pow_pred_add_two_pow_pred pos
    omega
  rw [signedOf, BitVec.toInt_eq_toNat_cond, BitVec.toNat_ofNat, ite_cond_congr (propext top), ite_not]
  push_cast
  rfl

theorem shiftSign_eq_sshiftRight {w : Nat} (pos : 0 < w) (x n : Nat) :
    shiftSign w x n = ((BitVec.ofNat w x).sshiftRight (if w ≤ n then w else n)).toNat := by
  rw [shiftSign, signedOf_eq_toInt pos, BitVec.sshiftRight, BitVec.toNat_ofInt, Int.shiftRight_eq_div_pow, wrapTo]
  push_cast
  rfl

theorem testBit_shiftSign {w k : Nat} (x n : Nat) (hk : k < w) :
    (shiftSign w x n).testBit k = x.testBit (if k + n < w then k + n else w - 1) := by
  have pos : 0 < w := by omega
  rw [shiftSign_eq_sshiftRight pos, BitVec.testBit_toNat, BitVec.getLsbD_sshiftRight, BitVec.msb_eq_getLsbD_last,
    decide_eq_false (by omega : ¬w ≤ k), Bool.not_false, Bool.true_and]
  simp only [BitVec.getLsbD_ofNat]
  have top : w - 1 < w := by omega
  rcases Nat.lt_or_ge n w with within | beyond
  · rw [if_neg (by omega : ¬w ≤ n), Nat.add_comm k n]
    split
    · next below => rw [decide_eq_true below, Bool.true_and]
    · rw [decide_eq_true top, Bool.true_and]
  · rw [if_pos beyond, if_neg (by omega : ¬w + k < w), if_neg (by omega : ¬k + n < w), decide_eq_true top, Bool.true_and]

/-- A rotation brings the top bits below the others, which move up. -/
theorem rotLeft_eq {w : Nat} (pos : 0 < w) (x n : Nat) :
    rotLeft w x n = 2 ^ (n % w) * (x % 2 ^ (w - n % w)) + x % 2 ^ w / 2 ^ (w - n % w) := by
  have le : n % w ≤ w := (Nat.mod_lt n pos).le
  have parts : 2 ^ w = 2 ^ (n % w) * 2 ^ (w - n % w) := by rw [← pow_add, Nat.add_sub_cancel' le]
  rw [rotLeft, mul_comm (x % 2 ^ w)]
  congr 1
  conv_lhs => rw [parts, Nat.mul_mod_mul_left]
  rw [Nat.mod_mul_left_mod]

/-- What a rotation brings to the low end fits below the bits that move up. -/
theorem rotLeft_low_lt {w : Nat} (pos : 0 < w) (x n : Nat) : x % 2 ^ w / 2 ^ (w - n % w) < 2 ^ (n % w) := by
  have le : n % w ≤ w := (Nat.mod_lt n pos).le
  rw [Nat.div_lt_iff_lt_mul (by positivity), ← pow_add, Nat.add_sub_cancel' le]
  exact Nat.mod_lt _ (by positivity)

theorem rotLeft_lt {w : Nat} (pos : 0 < w) (x n : Nat) : rotLeft w x n < 2 ^ w := by
  have le : n % w ≤ w := (Nat.mod_lt n pos).le
  calc rotLeft w x n
      = 2 ^ (n % w) * (x % 2 ^ (w - n % w)) + x % 2 ^ w / 2 ^ (w - n % w) := rotLeft_eq pos x n
    _ < 2 ^ (n % w) * (x % 2 ^ (w - n % w) + 1) := by rw [mul_add_one]; exact Nat.add_lt_add_left (rotLeft_low_lt pos x n) _
    _ ≤ 2 ^ (n % w) * 2 ^ (w - n % w) := Nat.mul_le_mul_left _ (Nat.mod_lt _ (by positivity))
    _ = 2 ^ w := by rw [← pow_add, Nat.add_sub_cancel' le]

theorem testBit_rotLeft {w j : Nat} (x n : Nat) (hj : j < w) : (rotLeft w x n).testBit ((j + n) % w) = x.testBit j := by
  have pos : 0 < w := by omega
  have count := Nat.mod_lt n pos
  rw [rotLeft_eq pos, Nat.testBit_two_pow_mul_add _ (rotLeft_low_lt pos x n), Nat.add_mod, Nat.mod_eq_of_lt hj]
  rcases Nat.lt_or_ge (j + n % w) w with stays | wraps
  · rw [Nat.mod_eq_of_lt stays, if_neg (by omega), Nat.testBit_mod_two_pow, Nat.add_sub_cancel]
    rw [decide_eq_true (by omega), Bool.true_and]
  · rw [Nat.mod_eq_sub_mod wraps, Nat.mod_eq_of_lt (by omega : j + n % w - w < w), if_pos (by omega), Nat.testBit_div_two_pow,
      Nat.testBit_mod_two_pow, show j + n % w - w + (w - n % w) = j by omega, decide_eq_true hj, Bool.true_and]

/-- A right rotation by n is a left one by w - n mod w. -/
theorem testBit_rotRight {w k : Nat} (x n : Nat) (hk : k < w) :
    (rotLeft w x (w - n % w)).testBit k = x.testBit ((k + n) % w) := by
  have pos : 0 < w := by omega
  have count := Nat.mod_lt n pos
  have back : ((k + n) % w + (w - n % w)) % w = k := by
    calc ((k + n) % w + (w - n % w)) % w
        = (k + n % w + (w - n % w)) % w := by
          rw [Nat.mod_add_mod, Nat.add_right_comm k n, Nat.add_right_comm k (n % w), Nat.add_mod_mod]
      _ = (k + w) % w := by rw [Nat.add_assoc, Nat.add_sub_cancel' count.le]
      _ = k := by rw [Nat.add_mod_right, Nat.mod_eq_of_lt hk]
  rw [← testBit_rotLeft x (w - n % w) (Nat.mod_lt (k + n) pos), back]

/-- The integer types of one element are as wide as their registers (R131, R158). -/
theorem elemWidth_scalar : ∀ ty ∈ [Ty.b32, .i32, .n32, .i64, .n64], elemWidth ty = if ty.is64 then 64 else 32 := by
  decide

/-- Settles O41: the model's four shifts, by the bits of their results. -/
theorem shiftsByAnyCount : Obligations.ShiftsByAnyCount := by
  unfold Obligations.ShiftsByAnyCount
  intro g ty right d a b s scalar w
  have width : elemWidth ty = w := elemWidth_scalar ty scalar
  have pos : 0 < w := width ▸ elemWidth_pos ty
  obtain ⟨-, -, -, -, shl, shr, sar, rot, -⟩ := bitWordsComplete g ty 0 right false 0 d a b a s
  rw [width] at shl shr sar rot
  refine ⟨_, _, _, _, shl, shr, sar, rot, fun x n => ⟨rfl, shiftRight_lt w x n, wrapTo_lt w _, rotLeft_lt pos x _, fun k hk =>
    ⟨testBit_shiftRight w x n k, testBit_shiftSign x n hk, ?_⟩⟩⟩
  cases right with
  | false => exact testBit_rotLeft x n hk
  | true => exact testBit_rotRight x n hk

end Sys2Proof.Machine
end

section
/-! SUPPORT. Division toward zero and its border cases (R162). -/

namespace Sys2Proof.Machine

/-- Division toward zero, by magnitudes and signs. -/
theorem tdiv_eq_natAbs_div (x y : Int) :
    x.tdiv y = (if (x < 0) = (y < 0) then 1 else -1) * (x.natAbs / y.natAbs : Nat) := by
  have nonneg (n : Nat) : ¬(n : Int) < 0 := by omega
  cases x with
  | ofNat m =>
    cases y with
    | ofNat n => simp [Int.tdiv, nonneg]
    | negSucc n => simp [Int.tdiv, Int.negSucc_lt_zero]
  | negSucc m =>
    cases y with
    | ofNat n => simp [Int.tdiv, Int.negSucc_lt_zero]
    | negSucc n => simp [Int.tdiv, Int.negSucc_lt_zero]

theorem valueOf_eq_zero_iff (ty : Ty) (w y : Nat) : valueOf ty w y = 0 ↔ y % 2 ^ w = 0 := by
  have small := Nat.mod_lt y (by positivity : 0 < 2 ^ w)
  have half : 0 < 2 ^ (w - 1) := by positivity
  rw [valueOf_eq]
  zify at small half ⊢
  split <;> omega

section
variable {ty : Ty} {w : Nat} (signed : ty.isSigned = true) (pos : 0 < w)
include signed pos

theorem valueOf_eq_loOf_iff (x : Nat) : valueOf ty w x = loOf ty w ↔ x % 2 ^ w = 2 ^ (w - 1) := by
  have small := Nat.mod_lt x (by positivity : 0 < 2 ^ w)
  have double := Nat.two_pow_pred_add_two_pow_pred pos
  rw [valueOf_eq, loOf, if_pos signed]
  simp only [signed, true_and]
  zify at small double ⊢
  split <;> omega

theorem valueOf_eq_neg_one_iff (y : Nat) : valueOf ty w y = -1 ↔ y % 2 ^ w = 2 ^ w - 1 := by
  have small := Nat.mod_lt y (by positivity : 0 < 2 ^ w)
  have double := Nat.two_pow_pred_add_two_pow_pred pos
  have half : 0 < 2 ^ (w - 1) := by positivity
  rw [valueOf_eq]
  simp only [signed, true_and]
  zify [Nat.one_le_two_pow] at small double half ⊢
  split <;> omega

end

/-- Division by the bits of its operands: the two border cases, and the rest (R162). -/
theorem divide_eq {ty : Ty} {w : Nat} (width : elemWidth ty = w) (x y : Nat) :
    divide ty x y =
      if y % 2 ^ w = 0 then (2 ^ w - 1, x % 2 ^ w, fDZ)
      else if ty.isSigned = true ∧ x % 2 ^ w = 2 ^ (w - 1) ∧ y % 2 ^ w = 2 ^ w - 1 then (x % 2 ^ w, 0, fOF)
      else (wrapTo w ((valueOf ty w x).tdiv (valueOf ty w y)), wrapTo w ((valueOf ty w x).tmod (valueOf ty w y)), 0) := by
  have pos : 0 < w := width ▸ elemWidth_pos ty
  have overflow : (ty.isSigned = true ∧ valueOf ty w x = loOf ty w ∧ valueOf ty w y = -1) ↔
      (ty.isSigned = true ∧ x % 2 ^ w = 2 ^ (w - 1) ∧ y % 2 ^ w = 2 ^ w - 1) :=
    and_congr_right fun signed => and_congr (valueOf_eq_loOf_iff signed pos x) (valueOf_eq_neg_one_iff signed pos y)
  simp only [divide, width, valueOf_eq_zero_iff, overflow]

theorem isSigned_scalar : ∀ ty ∈ [Ty.i32, .n32, .i64, .n64], decide (ty ∈ [Ty.i32, .i64]) = ty.isSigned := by
  decide

/-- Settles O42: what O1 says of IDIV and IREM, with the quotient in the words of R162. -/
theorem divisionAndItsBorders : Obligations.DivisionAndItsBorders := by
  unfold Obligations.DivisionAndItsBorders
  intro g ty d a b s scalar w signed val case quot
  have width : elemWidth ty = w := elemWidth_scalar ty (List.mem_cons_of_mem _ scalar)
  have signed_eq : signed = ty.isSigned := isSigned_scalar ty scalar
  have val_eq (x : Nat) : val x = valueOf ty w x := by
    rw [valueOf_eq]
    simp only [val, signed_eq]
  have quot_eq (x y : Nat) : quot x y = (valueOf ty w x).tdiv (valueOf ty w y) := by
    rw [tdiv_eq_natAbs_div]
    simp only [quot, val_eq]
  have case_eq (x y : Nat) (f : Nat × Nat × Nat → Nat × Nat) : f (divide ty x y) = case x y
      (f (2 ^ w - 1, x % 2 ^ w, fDZ)) (f (x % 2 ^ w, 0, fOF))
      (f (wrapTo w ((valueOf ty w x).tdiv (valueOf ty w y)), wrapTo w ((valueOf ty w x).tmod (valueOf ty w y)), 0)) := by
    rw [divide_eq width]
    simp only [case, signed_eq, apply_ite f]
  obtain ⟨-, -, -, -, -, -, -, -, -, -, -, idiv, irem⟩ := integerArithmeticCompletes g ty false d a b a s
  simp only [quot_eq, val_eq, ← Int.tmod_def]
  exact ⟨idiv.congr fun x y => case_eq x y fun r => (r.1, r.2.2), irem.congr fun x y => case_eq x y fun r => (r.2.1, r.2.2)⟩

end Sys2Proof.Machine
end

section
/-! SUPPORT. What leaves memory as it is: one equation for each operation on the state that writes none, in the order of the
definitions. -/

namespace Sys2Proof.Machine

/-- The state that a body hands on, however it ends. -/

def WordEnd.state : WordEnd → State
  | .done s _ | .unwritten s | .yield s | .doneWait s _ | .moved s | .movedRaising s _ _ | .left s | .park s _ | .trap s _
  | .host s _ _ | .trapNext s _ | .trapFall s _ => s

/-! ### Links -/

@[simp] theorem updLog_mem (s : State) (port : Nat) (f : PortLog → PortLog) : (updLog s port f).mem = s.mem := rfl

@[simp] theorem countLife_mem (s : State) (k n : Nat) : (countLife s k n).mem = s.mem := rfl

@[simp] theorem drawJitter_mem (s : State) (port : Nat) : (drawJitter s port).mem = s.mem := rfl

@[simp] theorem refuseRequest_mem (s : State) (core port n : Nat) : (refuseRequest s core port n).mem = s.mem :=
  foldl_keeps State.mem (fun _ _ => drawJitter_mem ..) _ _

@[simp] theorem armInjector_mem (s : State) (i : Nat) : (armInjector s i).mem = s.mem := rfl

@[simp] theorem logIdent_mem (s : State) (port : Nat) (c : IdentCheck) : (logIdent s port c).mem = s.mem := by
  unfold logIdent
  split <;> rfl

@[simp] theorem countFlits_mem (s : State) (i n : Nat) : (countFlits s i n).mem = s.mem := by
  unfold countFlits
  dsimp only
  split <;> rfl

@[simp] theorem replayOn_mem (s : State) (i n : Nat) : (replayOn s i n).mem = s.mem := by simp [replayOn]

@[simp] theorem crcReplay_mem (s : State) (i behind : Nat) : (crcReplay s i behind).mem = s.mem := by simp [crcReplay]

@[simp] theorem crossLinks_mem (s : State) (n : Nat) (links : List Nat) : (crossLinks s n links).1.mem = s.mem :=
  (crossLinks_atLink ..).mem

@[simp] theorem sendPacket_mem (port : Nat) (core : Option Nat) (n : Nat) (links : List Nat) (fuel : Nat) (s : State) :
    (sendPacket port core n links fuel s).1.mem = s.mem := by
  induction fuel generalizing s with
  | zero => rfl
  | succ k ih => grind [sendPacket, crossLinks_mem, drawJitter_mem]

@[simp] theorem sendEntry_mem (s : State) (links : List Nat) (e : NetEntry) : (sendEntry s links e).1.mem = s.mem := by
  unfold sendEntry
  split <;> simp

/-! ### Home -/

@[simp] theorem notifyHost_mem (s : State) : (notifyHost s).mem = s.mem := rfl

@[simp] theorem freshWord_mem (s : State) : (freshWord s).2.mem = s.mem := rfl

@[simp] theorem countGrade_mem (s : State) (die cls nl g : Nat) : (countGrade s die cls nl g).mem = s.mem := by
  unfold countGrade
  split <;> rfl

@[simp] theorem countMark_mem (s : State) : (countMark s).mem = s.mem := rfl

@[simp] theorem countWindow_mem (s : State) (pa : Nat) (miss : Bool) : (countWindow s pa miss).mem = s.mem := by
  unfold countWindow
  repeat' split
  all_goals rfl

@[simp] theorem setSector_mem (s : State) (sec : Nat) (e : Sector) : (setSector s sec e).mem = s.mem := rfl

@[simp] theorem rewriteSector_mem (s : State) (sec : Nat) : (rewriteSector s sec).mem = s.mem := by
  grind [rewriteSector, setSector_mem]

@[simp] theorem leaveSector_mem (s : State) (l : HomeLine) (half : Nat) : (leaveSector s l half).mem = s.mem := by
  grind [leaveSector, rewriteSector_mem, setSector_mem]

@[simp] theorem dropLine_mem (s : State) (line : Nat) : (dropLine s line).mem = s.mem := by
  unfold dropLine
  split <;> simp

@[simp] theorem leaveStreamWay_mem (s : State) : (leaveStreamWay s).mem = s.mem := by
  unfold leaveStreamWay
  split <;> rfl

@[simp] theorem touchLine_mem (s : State) (pa : Nat) (write : BitVec 2) : (touchLine s pa write).1.mem = s.mem := by
  grind [touchLine, leaveStreamWay_mem, dropLine_mem]

@[simp] theorem bumpPlace_mem (s : State) (k : Nat) (up : Bool) (n : Nat) : (bumpPlace s k up n).mem = s.mem := rfl

@[simp] theorem endLease_mem (s : State) (line : Nat) (how : LeaseEnd) : (endLease s line how).mem = s.mem := by
  unfold endLease
  repeat' split
  all_goals rfl

@[simp] theorem reachHome_mem (s : State) (core : Option Nat) (pa : Nat) : (reachHome s core pa).mem = s.mem := by
  grind [reachHome, endLease_mem]

@[simp] theorem countDecode_mem (s : State) (pa : Nat) (held bypass : Bool) (nl : Nat) (dec : Decode64) :
    (countDecode s pa held bypass nl dec).mem = s.mem := by
  grind [countDecode, countGrade_mem]

@[simp] theorem countUse_mem (s : State) (core : Option Nat) (pa : Nat) : (countUse s core pa).mem = s.mem := by
  unfold countUse
  repeat' split
  all_goals rfl

@[simp] theorem stampRequest_mem (s : State) (core : Option Nat) (pa : Nat) : (stampRequest s core pa).mem = s.mem := by
  unfold stampRequest
  repeat' split
  all_goals rfl

@[simp] theorem requestLine_mem (s : State) (core : Option Nat) (pa : Nat) (write : BitVec 2) :
    (requestLine s core pa write).1.mem = s.mem := by
  unfold requestLine
  split <;> simp

@[simp] theorem travelFrom_mem (s : State) (die port : Nat) (core : Option Nat) (pa : Nat) (write : Bool) :
    (travelFrom s die port core pa write).1.mem = s.mem := by
  unfold travelFrom
  split <;> simp

@[simp] theorem travel_mem (s : State) (core : Option Nat) (pa : Nat) (write : Bool) :
    (travel s core pa write).1.mem = s.mem := by
  unfold travel
  split
  · rfl
  · split <;> simp

@[simp] theorem spoilRead_mem (s : State) (pa n nl tp : Nat) (was : Bool) (flips : List Nat) :
    (spoilRead s pa n nl tp was flips).1.mem = s.mem := by
  unfold spoilRead
  dsimp only
  split <;> simp

@[simp] theorem writeHostMem_mem (s : State) (pa : Nat) (bytes : List Byte) : (writeHostMem s pa bytes).mem = s.mem := rfl

@[simp] theorem spoilDevice_mem (s : State) (pa : Nat) (flips : List Nat) (d : Deliv) :
    (spoilDevice s pa flips d).1.mem = s.mem := by
  unfold spoilDevice
  split <;> simp

@[simp] theorem declareBank_mem (s : State) (k : Nat) : (declareBank s k).mem = s.mem := rfl

@[simp] theorem recordBank_mem (s : State) (k : Nat) : (recordBank s k).mem = s.mem := by
  unfold recordBank
  dsimp only
  split <;> rfl

@[simp] theorem noteRow_mem (s : State) (row : Nat) : (noteRow s row).mem = s.mem := by
  have banks (l : List Nat) : (l.foldl (fun s b => recordBank s (arrayOfRow row * 9 + b)) s).mem = s.mem :=
    foldl_keeps State.mem (fun _ _ => recordBank_mem ..) _ _
  unfold noteRow
  split
  · rfl
  dsimp only
  split
  · exact (countGrade_mem ..).trans (banks _)
  split
  · rfl
  · exact (countGrade_mem ..).trans (banks _)

@[simp] theorem cleanBanks_mem (s : State) (row : Nat) (p : Nat → Bool) : (cleanBanks s row p).mem = s.mem := by
  unfold cleanBanks
  split <;> rfl

@[simp] theorem cleanRows_mem (s : State) (p : Nat → Bool) : (cleanRows s p).mem = s.mem := by
  unfold cleanRows
  split <;> rfl

/-! ### Translate -/

@[simp] theorem setCtx_mem (s : State) (slot : Nat) (c : Ctx) : (setCtx s slot c).mem = s.mem := rfl

@[simp] theorem updCtx_mem (s : State) (slot : Nat) (f : Ctx → Ctx) : (updCtx s slot f).mem = s.mem := rfl

@[simp] theorem tlbDrop_mem (s : State) (asid va : Nat) : (tlbDrop s asid va).mem = s.mem := rfl

@[simp] theorem tlbFill_mem (s : State) (core : Nat) (t : TlbEntry) : (tlbFill s core t).mem = s.mem := rfl

@[simp] theorem retranslate_mem (s : State) (asid : Nat) (changed : Nat → Bool) : (retranslate s asid changed).mem = s.mem := rfl

@[simp] theorem setPool_mem (s : State) (die : Nat) (p : Pool) : (setPool s die p).mem = s.mem := rfl

/-! ### Fetch -/

@[simp] theorem noteSpad_mem (s : State) (pa n : Nat) : (noteSpad s pa n).mem = s.mem := by
  unfold noteSpad
  split
  · rfl
  · exact foldl_keeps State.mem (fun _ _ => noteRow_mem ..) _ _

@[simp] theorem icacheAdd_mem (s : State) (l : ILine) : (icacheAdd s l).mem = s.mem := rfl

/-! ### Warps -/

@[simp] theorem updWarp_mem (s : State) (w : Nat) (f : Warp → Warp) : (updWarp s w f).mem = s.mem := rfl

@[simp] theorem updBlock_mem (s : State) (b : Nat) (f : Block → Block) : (updBlock s b f).mem = s.mem := rfl

@[simp] theorem updLaunch_mem (s : State) (l : Nat) (f : Launch → Launch) : (updLaunch s l f).mem = s.mem := rfl

@[simp] theorem updSplit_mem (s : State) (w e : Nat) (f : Split → Split) : (updSplit s w e f).mem = s.mem := rfl

/-! ### Barriers -/

@[simp] theorem setBarrier_mem (s : State) (i : Nat) (k : Barrier) : (setBarrier s i k).mem = s.mem := rfl

@[simp] theorem withdrawAll_mem (s : State) (w : Nat) : (withdrawAll s w).mem = s.mem := rfl

@[simp] theorem abandonAll_mem (s : State) (w : Nat) : (abandonAll s w).mem = s.mem := rfl

@[simp] theorem wakeBarrier_mem (s : State) (i : Nat) (held : Nat → Bool) : (wakeBarrier s i held).mem = s.mem := by
  unfold wakeBarrier
  split
  · rfl
  · exact foldl_keeps State.mem (fun _ _ => updWarp_mem ..) _ _

/-! ### L1 -/

@[simp] theorem l1Drop_mem (s : State) (core line : Nat) : (l1Drop s core line).mem = s.mem := rfl

@[simp] theorem l1Put_mem (s : State) (l : L1Line) : (l1Put s l).mem = s.mem := rfl

@[simp] theorem acquireL1_mem (s : State) (core : Nat) : (acquireL1 s core).mem = s.mem := rfl

@[simp] theorem acquireScope_mem (s : State) (core : Nat) (sco : Scope) : (acquireScope s core sco).mem = s.mem := by
  unfold acquireScope
  split <;> rfl

/-! ### Ops -/

@[simp] theorem clearFocus_mem (s : State) (w : Nat) : (clearFocus s w).mem = s.mem := rfl

@[simp] theorem orphanCards_mem (s : State) (w : Nat) : (orphanCards s w).mem = s.mem := rfl

@[simp] theorem silenceCards_mem (s : State) (w : Nat) : (silenceCards s w).mem = s.mem := rfl

@[simp] theorem holdSaved_mem (s : State) (w : Nat) : (holdSaved s w).mem = s.mem := rfl

@[simp] theorem dropHeld_mem (s : State) (w : Nat) : (dropHeld s w).mem = s.mem := rfl

@[simp] theorem removeWarp_mem (s : State) (w : Nat) (killed : Bool) : (removeWarp s w killed).mem = s.mem := by
  simp [removeWarp]

@[simp] theorem endWarp_mem (s : State) (w : Nat) : (endWarp s w).mem = s.mem := (removeWarp_mem ..).trans (withdrawAll_mem s w)

@[simp] theorem endIfDone_mem (s : State) (w : Nat) : (endIfDone s w).mem = s.mem := by
  unfold endIfDone
  split
  · split
    · exact endWarp_mem ..
    · rfl
  · rfl

@[simp] theorem settleWarp_mem (s : State) (w : Nat) : (settleWarp s w).mem = s.mem := by simp [settleWarp]

@[simp] theorem resumeHostFault_mem (s : State) (slot seq : Nat) : (resumeHostFault s slot seq).mem = s.mem := rfl

@[simp] theorem returnFromTrap_mem (s : State) (w : Nat) : (returnFromTrap s w).mem = s.mem := by
  unfold returnFromTrap
  split <;> simp

/-! ### Flags -/

@[simp] theorem recordGrade_mem (s : State) (w : Nat) (g : Word32) : (recordGrade s w g).mem = s.mem := rfl

@[simp] theorem noAddress_mem (s : State) (name : FaultName) (cause info : Nat) (lanes : Lanes) :
    (noAddress s name cause info lanes).1.mem = s.mem :=
  rfl

/-! ### Issue -/

@[simp] theorem cleanRegRows_mem (s : State) (w : Nat) (g : Lanes) (rs : List Reg) : (cleanRegRows s w g rs).mem = s.mem :=
  by simp [cleanRegRows]

@[simp] theorem noteRegs_mem (s : State) (w : Nat) (rs : List Reg) : (noteRegs s w rs).mem = s.mem := by
  unfold noteRegs
  split
  · rfl
  · exact foldl_keeps State.mem (fun _ _ => noteRow_mem ..) _ _

@[simp] theorem endRun_mem (s : State) (w e : Nat) : (endRun s w e).mem = s.mem := rfl

@[simp] theorem Issuer.undo_mem (i : Issuer) (s : State) : (Issuer.undo i s).mem = s.mem := rfl

@[simp] theorem Issuer.advance_mem (i : Issuer) (ws : WordSpec) (s : State) : (Issuer.advance i ws s).mem = s.mem := by
  unfold Issuer.advance
  split <;> simp

@[simp] theorem soilRegion_mem (s : State) (w : Nat) : (soilRegion s w).mem = s.mem := rfl

@[simp] theorem Issuer.soils_mem (i : Issuer) (ws : WordSpec) (g : Lanes) (s : State) : (Issuer.soils i ws g s).mem = s.mem := by
  unfold Issuer.soils
  split <;> rfl

@[simp] theorem Issuer.parkHere_mem (i : Issuer) (s : State) (c : Park) : (Issuer.parkHere i s c).mem = s.mem := by
  simp [Issuer.parkHere]

@[simp] theorem Issuer.giveBack_mem (i : Issuer) (ws : WordSpec) (g : Lanes) (s : State) :
    (Issuer.giveBack i ws g s).mem = s.mem := by
  unfold Issuer.giveBack
  split <;> rfl

/-! ### Arrays -/

@[simp] theorem noteSeg_mem (s : State) (core tile row : Nat) : (noteSeg s core tile row).mem = s.mem := by
  unfold noteSeg
  split <;> simp

@[simp] theorem noteScale_mem (s : State) (core off n : Nat) : (noteScale s core off n).mem = s.mem := by
  unfold noteScale
  split
  · rfl
  · exact foldl_keeps State.mem (fun _ _ => noteRow_mem ..) _ _

@[simp] theorem noteMacros_mem (s : State) (core first m : Nat) : (noteMacros s core first m).mem = s.mem := by
  unfold noteMacros
  split
  · rfl
  · exact foldl_keeps State.mem (fun _ _ => noteRow_mem ..) _ _

@[simp] theorem setAcc_mem (s : State) (core tile row col : Nat) (w : Word64) : (setAcc s core tile row col w).mem = s.mem := rfl

@[simp] theorem setAnchor_mem (s : State) (core tile row : Nat) (a : BitVec 16) : (setAnchor s core tile row a).mem = s.mem :=
  rfl

@[simp] theorem markSeg_mem (s : State) (core tile row : Nat) : (markSeg s core tile row).mem = s.mem := by
  unfold markSeg
  split <;> rfl

@[simp] theorem unmarkSeg_mem (s : State) (core tile row : Nat) : (unmarkSeg s core tile row).mem = s.mem := rfl

@[simp] theorem setTile_mem (s : State) (core tile : Nat) (a : BitVec 16) : (setTile s core tile a).mem = s.mem := by
  refine (foldl_keeps State.mem (fun t r => setAnchor_mem t core tile r a) _ _).trans ?_
  rw [cleanBanks_mem, cleanRows_mem]

@[simp] theorem clearMacros_mem (s : State) (core first m : Nat) : (clearMacros s core first m).mem = s.mem :=
  by simp [clearMacros]

@[simp] theorem clearScale_mem (s : State) (core first m : Nat) : (clearScale s core first m).mem = s.mem := by simp [clearScale]

@[simp] theorem markSpad_mem (s : State) (pa : Nat) : (markSpad s pa).mem = s.mem := by
  unfold markSpad
  split <;> rfl

@[simp] theorem writeScale_mem (s : State) (core off : Nat) (bytes : List Byte) : (writeScale s core off bytes).mem = s.mem := by
  unfold writeScale
  split
  simp

@[simp] theorem markScale_mem (s : State) (core off : Nat) : (markScale s core off).mem = s.mem := by
  unfold markScale
  split <;> rfl

/-! ### Launches -/

@[simp] theorem setQueue_mem (s : State) (q : Nat) (r : LQueue) : (setQueue s q r).mem = s.mem := rfl

@[simp] theorem queueError_mem (s : State) (q code : Nat) : (queueError s q code).mem = s.mem := rfl

@[simp] theorem clearRegs_mem (s : State) (p : Nat → Bool) : (clearRegs s p).mem = s.mem := by simp [clearRegs]

@[simp] theorem dropBlockBarriers_mem (s : State) (b : Nat) : (dropBlockBarriers s b).mem = s.mem := rfl

@[simp] theorem unlockContract_mem (s : State) (c : Contract) : (unlockContract s c).mem = s.mem := by
  unfold unlockContract
  split
  · exact foldl_keeps State.mem (fun _ _ => dropLine_mem ..) _ _
  · rfl

@[simp] theorem closeContracts_mem (s : State) (l : Nat) : (closeContracts s l).mem = s.mem :=
  foldl_keeps State.mem (fun _ _ => unlockContract_mem ..) _ _

@[simp] theorem settleTerm_mem (s : State) (q : Nat) : (settleTerm s q).mem = s.mem := by
  unfold settleTerm
  split <;> rfl

@[simp] theorem dropLaunch_mem (s : State) (k : Nat) : (dropLaunch s k).mem = s.mem := by simp [dropLaunch]

@[simp] theorem dropClusterBarriers_mem (s : State) (l inst : Nat) : (dropClusterBarriers s l inst).mem = s.mem := by
  unfold dropClusterBarriers
  dsimp only
  split <;> rfl

@[simp] theorem cancelCards_mem (s : State) (l : Nat) : (cancelCards s l).mem = s.mem := rfl

@[simp] theorem discardSaved_mem (s : State) (k : Nat) : (discardSaved s k).mem = s.mem := rfl

@[simp] theorem settleResume_mem (s : State) (slot : Nat) : (settleResume s slot).mem = s.mem := by
  unfold settleResume
  dsimp only
  split <;> rfl

@[simp] theorem beginRes_mem (s : State) (slot : Nat) : (beginRes s slot).mem = s.mem := by
  unfold beginRes
  split <;> simp

@[simp] theorem endContext_mem (s : State) (slot : Nat) : (endContext s slot).mem = s.mem := by
  unfold endContext
  split <;> rfl

@[simp] theorem beginHarvest_mem (s : State) (slot : Nat) : (beginHarvest s slot).mem = s.mem := rfl

@[simp] theorem writeSplit_mem (s : State) (die v : Nat) : (writeSplit s die v).mem = s.mem := by
  grind [writeSplit]

/-! ### DevWrite -/

@[simp] theorem writeLqBase_mem (s : State) (q : Nat) (v : Word64) : (writeLqBase s q v).mem = s.mem := by
  unfold writeLqBase
  dsimp only
  split <;> rfl

@[simp] theorem writeLqConfig_mem (s : State) (q v : Nat) : (writeLqConfig s q v).mem = s.mem := by
  grind [writeLqConfig, queueError_mem, setQueue_mem]

@[simp] theorem writeLqTail_mem (s : State) (q : Nat) (v : BitVec 32) : (writeLqTail s q v).mem = s.mem := by
  unfold writeLqTail
  dsimp only
  split <;> rfl

@[simp] theorem writeAsid_mem (s : State) (slot v : Nat) : (writeAsid s slot v).mem = s.mem := by
  grind [writeAsid, endContext_mem, setCtx_mem]

@[simp] theorem writePoolReg_mem (s : State) (die off : Nat) (w : RegWrite) : (writePoolReg s die off w).mem = s.mem := by
  unfold writePoolReg
  repeat' split
  all_goals rfl

@[simp] theorem writeReportReg_mem (s : State) (slot off : Nat) (w : RegWrite) : (writeReportReg s slot off w).mem = s.mem := by
  unfold writeReportReg
  repeat' split
  all_goals rfl

@[simp] theorem writeNetReg_mem (s : State) (off v : Nat) : (writeNetReg s off v).mem = s.mem := by
  unfold writeNetReg
  split
  · dsimp only
    split <;> rfl
  · rfl
  · split <;> rfl
  · rfl

@[simp] theorem writeInjectorReg_mem (s : State) (i off : Nat) (w : RegWrite) : (writeInjectorReg s i off w).mem = s.mem := by
  unfold writeInjectorReg
  repeat' split
  all_goals rfl

@[simp] theorem writeHouseReg_mem (s : State) (off : Nat) (w : RegWrite) : (writeHouseReg s off w).mem = s.mem := by
  grind [writeHouseReg]

/-! ### MemSys -/

@[simp] theorem checkTrap_mem (s : State) (w : Nat) (f : FaultInfo) : (checkTrap s w f).state.mem = s.mem := by
  unfold checkTrap
  split <;> rfl

@[simp] theorem spoilHalf_mem (s : State) (pa nl : Nat) (was : Bool) (flips : List Nat) (half : List Byte × L1Half) :
    (spoilHalf s pa nl was flips half).1.mem = s.mem := by
  unfold spoilHalf
  split <;> simp

@[simp] theorem chargeHome_mem (s : State) (core pa : Nat) : (chargeHome s core pa).mem = s.mem := rfl

@[simp] theorem grantLease_mem (s : State) (core line : Nat) : (grantLease s core line).mem = s.mem := by
  unfold grantLease
  split <;> rfl

@[simp] theorem countTails_mem (s : State) (slot n : Nat) : (countTails s slot n).mem = s.mem := by
  unfold countTails
  split <;> rfl

/-! ### MemInstr -/

@[simp] theorem orderAfter_mem (s : State) (core : Nat) (sco : Scope) (ord : Order) :
    (orderAfter s core sco ord).mem = s.mem := by
  unfold orderAfter
  split <;> simp

@[simp] theorem sendLater_mem (s : State) (i : Issuer) (p : Pending) (wait : Bool) :
    (sendLater s i p wait).state.mem = s.mem := by
  unfold sendLater
  split <;> rfl

@[simp] theorem loadEnd_mem (s : State) (i : Issuer) (ds : Lot) (keep : Lanes) (quiet : Bool) (dests : Lanes → List PDest) :
    (loadEnd s i ds keep quiet dests).state.mem = s.mem := by
  unfold loadEnd
  split <;> simp

/-! ### Store -/

@[simp] theorem lateWord_mem (s : State) (i : Issuer) (dests : List PDest) (wait : Bool) :
    (lateWord s i dests wait).state.mem = s.mem :=
  by simp [lateWord]

@[simp] theorem statusWord_mem (s : State) (i : Issuer) (sd v : Nat) : (statusWord s i sd v).state.mem = s.mem := rfl

@[simp] theorem updContract_mem (s : State) (l k : Nat) (f : Contract → Contract) : (updContract s l k f).mem = s.mem := rfl

@[simp] theorem resideClass_mem (s : State) (x : Warp) (range : Option (Nat × Nat)) (cls : Reuse) (report ntreq : Bool) :
    (resideClass s x range cls report ntreq).1.mem = s.mem := by
  unfold resideClass
  repeat' split
  all_goals rfl

@[simp] theorem kvTouch_mem (s : State) (die e : Nat) (pin : Option Bool) : (kvTouch s die e pin).mem = s.mem := rfl

@[simp] theorem noteTags_mem (s : State) (asid : Nat) (key : Word64) : (noteTags s asid key).mem = s.mem := by
  unfold noteTags
  split
  · rfl
  · exact foldl_keeps State.mem (fun _ _ => noteRow_mem ..) _ _

@[simp] theorem kvFind_mem (s : State) (asid : Nat) (key : Word64) : (kvFind s asid key).1.mem = s.mem := by
  grind [kvFind, kvTouch_mem]

@[simp] theorem kvRemove_mem (s : State) (asid die : Nat) (p : KvEntry → Bool) : (kvRemove s asid die p).1.mem = s.mem := by
  unfold kvRemove
  split <;> rfl

@[simp] theorem kvDrop_mem (s : State) (asid : Nat) (key : Word64) : (kvDrop s asid key).1.mem = s.mem := by simp [kvDrop]

@[simp] theorem kvDropTensor_mem (s : State) (asid die tensor : Nat) : (kvDropTensor s asid die tensor).1.mem = s.mem :=
  by simp [kvDropTensor]

/-! ### Cards -/

@[simp] theorem markReady_mem (s : State) : (markReady s).mem = s.mem := by
  unfold markReady
  dsimp only
  split <;> rfl

/-! ### CardRun -/

@[simp] theorem Run.start_mem (s : State) : (Run.start s).s.mem = s.mem := rfl

@[simp] theorem Run.stop_mem (r : Run) (cause : Nat) (a : Word64) : (Run.stop r cause a).s.mem = r.s.mem := rfl

@[simp] theorem Run.check_mem (r : Run) (fs : List (Option (Nat × Word64))) : (Run.check r fs).s.mem = r.s.mem := by
  unfold Run.check
  split <;> rfl

@[simp] theorem markSector_mem (s : State) (pa : Nat) : (markSector s pa).mem = s.mem := by
  unfold markSector
  dsimp only
  split <;> rfl

@[simp] theorem markPoisoned_mem (s : State) (pa : Nat) (b : Bytes) : (markPoisoned s pa b).mem = s.mem := by
  refine foldl_keeps State.mem (fun t ⟨p, k⟩ => ?_) _ _
  dsimp only
  split
  · exact markSector_mem ..
  · rfl

@[simp] theorem noteScaleOf_mem (s : State) (c : Card) (off n : Nat) : (noteScaleOf s c off n).mem = s.mem :=
  by simp [noteScaleOf]

/-! ### Calls -/

@[simp] theorem putCall_mem (s : State) (i : Issuer) (e : Nat) : (putCall s i e).mem = s.mem := rfl

/-! ### Control -/

@[simp] theorem exitLanes_mem (s : State) (i : Issuer) (g : Lanes) : (exitLanes s i g).mem = s.mem := rfl

@[simp] theorem wsyncRelease_mem (ws : WordSpec) (i : Issuer) (pd : Nat) (val : Bool) (s : State) (e : Nat) :
    (wsyncRelease ws i pd val s e).mem = s.mem := by
  unfold wsyncRelease
  dsimp only
  split <;> rfl

/-! ### Landing -/

@[simp] theorem groupNotes_mem (s : State) (w : Nat) (r : LdgReq) : (groupNotes s w r).1.mem = s.mem := by
  refine foldl_keeps (fun q : State × List Nat => q.1.mem) (fun q l => ?_) _ _
  refine foldl_keeps (fun q : State × List Nat => q.1.mem) (fun q b => ?_) _ _
  exact (noteSpad_mem ..).trans (travel_mem ..)

@[simp] theorem landRows_mem (s : State) (w : Nat) (p : Pending) : (landRows s w p).mem = s.mem := by
  refine foldl_keeps State.mem (fun t d => ?_) _ _
  cases d with
  | v r ls row => exact cleanRegRows_mem ..
  | s | p => rfl

/-! ### MatrixRun -/

@[simp] theorem putSegment_mem (s : State) (core tile row : Nat) (g : Segment) : (putSegment s core tile row g).mem = s.mem := by
  refine (setAnchor_mem ..).trans ((foldl_keeps State.mem (fun t j => setAcc_mem t core tile row j _) _ _).trans ?_)
  rw [cleanRows_mem]

@[simp] theorem poisonSegment_mem (s : State) (core tile row : Nat) : (poisonSegment s core tile row).mem = s.mem :=
  by simp [poisonSegment]

@[simp] theorem loadBlock_mem (s : State) (x : Block) (k c q b bits rc : Nat) : (loadBlock s x k c q b bits rc).mem = s.mem :=
  rfl

@[simp] theorem productRow_mem (s : State) (x : Block) (t : TileDesc) (ba i : Nat) (bs : List ABlock)
    (ts : List (List (List Term))) :
    (productRow s x t ba i bs ts).1.mem = s.mem := by
  refine foldl_keeps (fun q : State × Nat => q.1.mem) (fun q cb => ?_) _ _
  dsimp only
  split <;> simp

@[simp] theorem poisonRow_mem (s : State) (x : Block) (t : TileDesc) (i : Nat) : (poisonRow s x t i).mem = s.mem :=
  foldl_keeps State.mem (fun _ _ => poisonSegment_mem ..) _ _

@[simp] theorem feedRow_mem (r : Run) (id : Nat) (c : Card) (sparse : Bool) (a : OpFmt) (t : TileDesc) (i : Nat)
    (row recs : Bytes) : (feedRow r id c sparse a t i row recs).s.mem = r.s.mem := by
  grind [feedRow, noteMacros_mem, poisonRow_mem, productRow_mem, Run.stop_mem]

@[simp] theorem setTiles_mem (s : State) (c : Card) (t : TileDesc) (anchor : BitVec 16) :
    (setTiles s c t anchor).mem = s.mem :=
  foldl_keeps State.mem (fun _ _ => setTile_mem ..) _ _

@[simp] theorem runMinit_mem (r : Run) (c : Card) (anchor : BitVec 16) (t : TileDesc) :
    (runMinit r c anchor t).s.mem = r.s.mem :=
  by simp [runMinit]

@[simp] theorem queueRow_mem (s : State) (ts : List Nat) (b : Bytes) : (queueRow s ts b).mem = s.mem :=
  foldl_keeps State.mem (fun _ _ => updBlock_mem ..) _ _

@[simp] theorem keepRow_mem (id : Nat) (r : Run) : (keepRow id r).mem = r.s.mem := rfl

/-! ### CardInstr -/

@[simp] theorem issueCard_mem (kind : Nat) (sd sa : Fin 64) (fmt idx : Warp → List Word32) (s : State) (i : Issuer) (g : Lanes) :
    (issueCard kind sd sa fmt idx s i g).state.mem = s.mem := by
  grind [issueCard, WordEnd.state, noteSpad_mem, recordGrade_mem, updWarp_mem, markReady_mem, lateWord_mem]

@[simp] theorem acquireCards_mem (s : State) (w : Nat) (n : Option Nat) : (acquireCards s w n).mem = s.mem := by
  unfold acquireCards
  dsimp only
  split <;> rfl

@[simp] theorem awaitBody_mem (n : Warp → Option Nat) (s : State) (i : Issuer) (x : Lanes) :
    (awaitBody n s i x).state.mem = s.mem := by
  grind [awaitBody, WordEnd.state, updWarp_mem, acquireCards_mem]

@[simp] theorem atestBody_mem (pd : Nat) (n : Warp → Option Nat) (s : State) (i : Issuer) (g : Lanes) :
    (atestBody pd n s i g).state.mem = s.mem := by
  grind [atestBody, WordEnd.state, updWarp_mem, acquireCards_mem]

/-! ### MatrixInstr -/

@[simp] theorem parkMarr_mem (s : State) (i : Issuer) (lg : Nat) : (parkMarr s i lg).state.mem = s.mem := by
  unfold parkMarr
  split <;> rfl

@[simp] theorem setArrangement_mem (s : State) (b lg : Nat) : (setArrangement s b lg).mem = s.mem := by simp [setArrangement]

@[simp] theorem noteMread_mem (s : State) (core tile : Nat) (r : RowDesc) (anc : Bool) (g : Lanes) :
    (noteMread s core tile r anc g).mem = s.mem := by
  unfold noteMread
  split
  · rfl
  split
  · split <;> simp
  · exact foldl_keeps State.mem (fun _ _ => noteRow_mem ..) _ _

@[simp] theorem mreadBody_mem (anc : Bool) (d : Nat) (s : State) (i : Issuer) (g : Lanes) (r : RowDesc) (tile : Nat) :
    (mreadBody anc d s i g r tile).state.mem = s.mem := by
  grind [mreadBody, WordEnd.state, noteMread_mem, recordGrade_mem, noAddress_mem, lateWord_mem]

@[simp] theorem freshSegment_mem (s : State) (core tile row : Nat) : (freshSegment s core tile row).mem = s.mem :=
  by simp [freshSegment]

/-! ### SyncInstr -/

@[simp] theorem barrierStatus_mem (s : State) (i : Issuer) (g : Lanes) (pd sc status : Nat) :
    (barrierStatus s i g pd sc status).state.mem = s.mem := by
  unfold barrierStatus
  split <;> simp

@[simp] theorem snapshot_mem (s : State) (i : Issuer) (sd v : Nat) : (snapshot s i sd v).state.mem = s.mem := by simp [snapshot]

/-! ### Gangs -/

@[simp] theorem dropShare_mem (s : State) (x : Block) : (dropShare s x).mem = s.mem := rfl

/-! ### SysMem -/

@[simp] theorem sysTails_mem (s : State) (i : Issuer) (ga : Word64) (d : Deliv) (seen : List Nat) :
    (sysTails s i ga d seen).1.mem = s.mem := by
  unfold sysTails
  dsimp only
  split <;> simp

@[simp] theorem loadRq_mem (s : State) (b : Nat) (img : List Byte) : (loadRq s b img).mem = s.mem := rfl

@[simp] theorem loadMac_mem (s : State) (b : Nat) (img : List Byte) : (loadMac s b img).mem = s.mem := by
  unfold loadMac
  split <;> simp

@[simp] theorem loadRbq_mem (s : State) (b : Nat) (img : List Byte) : (loadRbq s b img).mem = s.mem := rfl

/-! ### SysInstr -/

@[simp] theorem tlbDropRange_mem (s : State) (asid va n : Nat) : (tlbDropRange s asid va n).mem = s.mem := rfl

@[simp] theorem keepFrame_mem (s : State) (die f : Nat) : (keepFrame s die f).mem = s.mem := rfl

@[simp] theorem askMigr_mem (s : State) (i : Issuer) (v : Nat) : (askMigr s i v).mem = s.mem := rfl

/-! ### EvIssue -/

@[simp] theorem beginRun_mem (s : State) (w e : Nat) : (beginRun s w e).mem = s.mem := by
  unfold beginRun
  dsimp only
  split <;> rfl

/-! ### EvCards -/

@[simp] theorem countOrphanFault_mem (s : State) (c : Card) : (countOrphanFault s c).mem = s.mem := by
  unfold countOrphanFault
  split <;> rfl

@[simp] theorem cancelAfter_mem (s : State) (id : Nat) : (cancelAfter s id).mem = s.mem := rfl

@[simp] theorem intoEscape_mem (s : State) (k : Nat) : (intoEscape s k).mem = s.mem := by
  unfold intoEscape
  repeat' split
  all_goals rfl

@[simp] theorem fillEscape_mem (s : State) : (fillEscape s).mem = s.mem :=
  foldl_keeps State.mem (fun _ _ => intoEscape_mem ..) _ _

@[simp] theorem popWindow_mem (s : State) (k : Nat) : (popWindow s k).mem = s.mem := by simp [popWindow]

@[simp] theorem refuseHead_mem (s : State) (k : Nat) : (refuseHead s k).mem = s.mem := by
  unfold refuseHead
  repeat' split
  all_goals rfl

@[simp] theorem nackHead_mem (s : State) (k : Nat) (n : Nat) : (nackHead s k n).mem = s.mem := by
  unfold nackHead
  split <;> simp

@[simp] theorem deliverFlit_mem (s : State) (k core slot : Nat) (f : Flit) (launch : Nat) :
    (deliverFlit s k core slot f launch).mem = s.mem := by
  unfold deliverFlit
  split <;> simp

@[simp] theorem loseHead_mem (s : State) (k : Nat) : (loseHead s k).mem = s.mem := rfl

@[simp] theorem takeTurn_mem (s : State) (k : Nat) : (takeTurn s k).mem = s.mem := rfl

@[simp] theorem receiveHead_mem (s : State) (k : Nat) (room crcOk : Bool) (idErr : Nat) :
    (receiveHead s k room crcOk idErr).mem = s.mem := by
  grind [receiveHead, takeTurn_mem, nackHead_mem, crcReplay_mem, logIdent_mem, loseHead_mem, deliverFlit_mem]

/-! ### Admission -/

@[simp] theorem takeSeat_mem (s : State) (k linear : Nat) (p : Seat) : (takeSeat s k linear p).mem = s.mem := rfl

@[simp] theorem addBarriers_mem (s : State) (k inst : Nat) (lvl : BarLvl) (mask exp : Nat) (members : List Nat) :
    (addBarriers s k inst lvl mask exp members).mem = s.mem := by
  refine foldl_keeps State.mem (fun t i => ?_) _ _
  rfl

@[simp] theorem bootWarp_mem (s : State) (b key num : Nat) : (bootWarp s b key num).mem = s.mem := rfl

@[simp] theorem openArrays_mem (s : State) (b : Nat) : (openArrays s b).mem = s.mem :=
  foldl_keeps State.mem (fun _ _ => setTile_mem ..) _ _

@[simp] theorem bootBlock_mem (s : State) (b : Nat) : (bootBlock s b).mem = s.mem := by
  refine (foldl_keeps State.mem (fun _ _ => bootWarp_mem ..) _ _).trans ?_
  rw [addBarriers_mem, openArrays_mem]

@[simp] theorem openRanges_mem (s : State) (k : Nat) : (openRanges s k).mem = s.mem := by
  unfold openRanges
  dsimp only
  split
  · rfl
  refine foldl_keeps State.mem (fun t i => ?_) _ _
  split <;> rfl

@[simp] theorem admitGang_mem (s : State) (k : Nat) (gang : List Nat) : (admitGang s k gang).mem = s.mem :=
  (foldl_keeps State.mem bootBlock_mem _ _).trans (openRanges_mem s k)

/-! ### EvLaunch -/

@[simp] theorem consumeEntry_mem (s : State) (q : Nat) (last : Option Nat) : (consumeEntry s q last).mem = s.mem := rfl

@[simp] theorem setNow_mem (s : State) (t : Nat) : (setNow s t).mem = s.mem := rfl

/-! ### EvStore -/

@[simp] theorem emptyStore_mem (s : State) (die : Nat) : (emptyStore s die).mem = s.mem := foldl_keeps State.mem dropLine_mem _ _

/-! ### EvNet -/

@[simp] theorem resendWindow_mem (s : State) (k : Nat) (c : Chan) : (resendWindow s k c).mem = s.mem := by
  refine foldl_keeps (fun q : State × List NetEntry => q.1.mem) (fun q e => ?_) _ _
  exact sendEntry_mem ..

@[simp] theorem stepCycle_mem (s : State) (ks : List Nat) : (stepCycle s ks).mem = s.mem := by
  unfold stepCycle
  dsimp only
  split
  · refine (fillEscape_mem _).trans (foldl_keeps State.mem (fun _ _ => ?_) _ _)
    rfl
  · rfl

@[simp] theorem freshBytes_mem (n : Nat) (s : State) : (freshBytes n s).1.mem = s.mem := by
  induction n generalizing s with
  | zero => rfl
  | succ n ih => exact (ih (freshWord s).2).trans (freshWord_mem s)

@[simp] theorem peerLease_mem (s : State) (who p : Nat) : (peerLease s who p).1.mem = s.mem := by
  unfold peerLease
  split <;> simp

@[simp] theorem replyOver_mem (s : State) (pkg : Nat) (bs : List Byte) : (replyOver s pkg bs).1.mem = s.mem := by
  unfold replyOver
  split <;> simp

/-! ### EvContext -/

@[simp] theorem rejoinBarriers_mem (s : State) (b : Nat) : (rejoinBarriers s b).mem = s.mem := rfl

@[simp] theorem importBarriers_mem (s : State) (k inst : Nat) (lvl : BarLvl) (mask exp core : Nat) :
    (importBarriers s k inst lvl mask exp core).mem = s.mem := by
  refine foldl_keeps State.mem (fun t i => ?_) _ _
  rfl

@[simp] theorem endImport_mem (s : State) (slot code : Nat) : (endImport s slot code).mem = s.mem := rfl

/-! ### EvPower -/

@[simp] theorem updIsland_mem (s : State) (i : Nat) (f : Island → Island) : (updIsland s i f).mem = s.mem := rfl

@[simp] theorem chargeSlot_mem (s : State) (slot e : Nat) : (chargeSlot s slot e).mem = s.mem := rfl

@[simp] theorem chargeFree_mem (s : State) (e : Nat) : (chargeFree s e).mem = s.mem := rfl

@[simp] theorem chargeShares_mem (s : State) (e : Nat) (parts : List (Nat × Nat)) : (chargeShares s e parts).mem = s.mem :=
  (chargeFree_mem ..).trans (foldl_keeps State.mem (fun _ _ => chargeSlot_mem ..) _ _)

@[simp] theorem attributeEnergy_mem (s : State) (m : EpochMeasure) : (attributeEnergy s m).mem = s.mem := by
  refine (chargeFree_mem ..).trans ((chargeShares_mem ..).trans ?_)
  refine (foldl_keeps State.mem (fun t q => ?_) _ _).trans ?_
  · cases h : slotOfAsid t q.1 <;> simp [h]
  refine (foldl_keeps State.mem (fun t q => ?_) _ _).trans (foldl_keeps State.mem (fun t q => ?_) _ _)
  · exact chargeSlot_mem ..
  · exact chargeShares_mem ..

@[simp] theorem chargeEnergy_mem (s : State) (m : EpochMeasure) : (chargeEnergy s m).mem = s.mem := by simp [chargeEnergy]

@[simp] theorem setGrant_mem (s : State) (m : EpochMeasure) (i n : Nat) : (setGrant s m i n).mem = s.mem := rfl

/-! ### EvThermal -/

@[simp] theorem restartIsland_mem (s : State) (i : Nat) : (restartIsland s i).mem = s.mem := by
  unfold restartIsland
  split <;> rfl

@[simp] theorem startMove_mem (s : State) (a : MoveAsk) : (startMove s a).mem = s.mem := by
  unfold startMove
  dsimp only
  split <;> rfl

@[simp] theorem exchangePhys_mem (s : State) (a b : Nat) : (exchangePhys s a b).mem = s.mem := rfl

@[simp] theorem resumeMoved_mem (s : State) (core phys : Nat) : (resumeMoved s core phys).mem = s.mem := rfl

@[simp] theorem barriersCatchUp_mem (s : State) (core : Nat) : (barriersCatchUp s core).mem = s.mem := rfl

/-! ### EvBoot -/

@[simp] theorem extendMreg_mem (s : State) (m : Nat) (digest : List Byte) : (extendMreg s m digest).mem = s.mem := rfl

@[simp] theorem disableAll_mem (s : State) : (disableAll s).mem = s.mem := rfl

@[simp] theorem applyRecord_mem (s : State) (r : List Byte) : (applyRecord s r).mem = s.mem := rfl

@[simp] theorem bootFrom_mem (s : State) (fw cfg : List Byte) (later : List (Nat × BitVec 256)) :
    (bootFrom s fw cfg later).mem = s.mem := by
  have measured : (extendMreg s 0 (sha256 fw)).mem = s.mem := extendMreg_mem ..
  have recorded : (extendMreg (extendMreg s 0 (sha256 fw)) 1 (sha256 cfg)).mem = s.mem := (extendMreg_mem ..).trans measured
  unfold bootFrom
  dsimp only
  split
  · exact measured
  refine (foldl_keeps State.mem (fun t q => ?_) _ _).trans ?_
  · split
    · exact extendMreg_mem ..
    · rfl
  · split
    · exact (applyRecord_mem ..).trans recorded
    · exact (disableAll_mem _).trans recorded

/-! ### Auto -/

@[simp] theorem softError_mem (s : State) (pa : Nat) (bits : List Nat) : (softError s pa bits).mem = s.mem := rfl

@[simp] theorem hbmError_mem (s : State) (pa : Nat) (bits : List Nat) : (hbmError s pa bits).mem = s.mem := by
  unfold hbmError
  split <;> rfl

@[simp] theorem rowError_mem (s : State) (row : Nat) (bits : List Nat) : (rowError s row bits).mem = s.mem := rfl

@[simp] theorem requestQueue_mem (s : State) (core : Nat) (full : Bool) : (requestQueue s core full).mem = s.mem := rfl

@[simp] theorem peerRefuses_mem (s : State) (pkg asid : Nat) (refused : Bool) :
    (peerRefuses s pkg asid refused).mem = s.mem :=
  rfl

/-! ### Move -/

/-- A fold of partial steps that each leave memory as it was leaves it so. -/

theorem foldl_bind_mem {α : Type} {f : State → α → Option State} (keeps : ∀ {t a u}, f t a = some u → u.mem = t.mem)
    {l : List α} {s u : State} (h : l.foldl (fun r a => r.bind fun t => f t a) (some s) = some u) : u.mem = s.mem := by
  have go : ∀ (l : List α) (r : Option State), (∀ t, r = some t → t.mem = s.mem) →
      ∀ u, l.foldl (fun r a => r.bind fun t => f t a) r = some u → u.mem = s.mem := by
    intro l
    induction l with
    | nil => exact fun r hr => hr
    | cons a l ih =>
      refine fun r hr => ih _ fun u hu => ?_
      obtain ⟨t, ht, hu⟩ := Option.bind_eq_some_iff.mp hu
      exact (keeps hu).trans (hr t ht)
  exact go l (some s) (fun t ht => by rw [← Option.some.inj ht]) u h

theorem placeBlock_mem {s u : State} {k quad linear : Nat} (h : placeBlock s k quad linear = some u) : u.mem = s.mem := by
  obtain ⟨core, -, h⟩ := List.exists_of_findSome?_eq_some h
  obtain ⟨seat, -, rfl⟩ := Option.map_eq_some_iff.mp h
  exact takeSeat_mem ..

theorem placeEach_mem {k quad : Nat} {bs : List Nat} {s u : State} (h : placeEach k quad bs s = some u) : u.mem = s.mem := by
  induction bs generalizing s with grind [placeEach, placeBlock_mem]

theorem placeCluster_mem {r : Rules} {k : Nat} {bs : List Nat} {s u : State} {quad : Nat}
    (h : placeCluster r k bs s quad = some u) : u.mem = s.mem := by
  grind [placeCluster, placeEach_mem, addBarriers_mem]

theorem clusterOnDie_mem {r : Rules} {k : Nat} {bs : List Nat} {s u : State} {die : Nat}
    (h : clusterOnDie r k bs s die = some u) : u.mem = s.mem := by
  obtain ⟨quad, -, h⟩ := List.exists_of_findSome?_eq_some h
  exact placeCluster_mem h

theorem gangOnDie_mem {r : Rules} {k : Nat} {cs : List (List Nat)} {s u : State} {die : Nat}
    (h : gangOnDie r k cs s die = some u) : u.mem = s.mem :=
  foldl_bind_mem clusterOnDie_mem h

theorem gridBarriers_mem {r : Rules} {s u : State} {k : Nat} (h : gridBarriers r s k = some u) : u.mem = s.mem := by
  have dies (f : State → Nat → List Nat) (lvl : BarLvl) (mask : Nat) (l : List Nat) :
      (l.foldl (fun t d => addBarriers t k d lvl mask (f t d).length (f t d)) s).mem = s.mem :=
    foldl_keeps State.mem (fun _ _ => addBarriers_mem ..) _ _
  unfold gridBarriers at h
  dsimp only at h
  split at h
  · cases h
  · rw [← Option.some.inj h]
    split <;> split <;> simp [dies fun t d => warpsOf t (residents t k fun x => coreDie x.core == d)]

theorem placeGang_mem {r : Rules} {s u : State} {k : Nat} {gang : List Nat} {ok : Nat → Bool}
    (h : placeGang r s k gang ok = some u) : u.mem = s.mem := by
  have gangs {t u : State} {l : List Nat} {cs : List (List Nat)} (h : l.findSome? (gangOnDie r k cs t) = some u) :
      u.mem = t.mem := by
    obtain ⟨die, -, h⟩ := List.exists_of_findSome?_eq_some h
    exact gangOnDie_mem h
  unfold placeGang at h
  dsimp only at h
  split at h
  · obtain ⟨t, ht, h⟩ := Option.bind_eq_some_iff.mp h
    exact (gridBarriers_mem h).trans (foldl_bind_mem gangs ht)
  · exact gangs h

theorem placeCallee_mem {avoid : List Nat} {s u : State} {k die entry vreg : Nat}
    (h : placeCallee avoid s k die entry vreg = some u) : u.mem = s.mem := by
  unfold placeCallee at h
  dsimp only at h
  split at h
  · cases h
  · obtain ⟨key, -, rfl⟩ := Option.map_eq_some_iff.mp h
    exact updLaunch_mem ..

theorem reserveEntry_mem {avoid : List Nat} {k : Nat} {s u : State} {de : Nat × Nat}
    (h : reserveEntry avoid k s de = some u) : u.mem = s.mem := by
  unfold reserveEntry at h
  dsimp only at h
  split at h
  · rw [← Option.some.inj h]
  split at h
  · cases h
  · exact (foldl_bind_mem placeCallee_mem h).trans (updLaunch_mem ..)

theorem reserveCallees_mem {avoid : List Nat} {s u : State} {k : Nat} (h : reserveCallees avoid s k = some u) :
    u.mem = s.mem := by
  obtain ⟨t, ht, rfl⟩ := Option.map_eq_some_iff.mp h
  exact (updLaunch_mem ..).trans (foldl_bind_mem reserveEntry_mem ht)

theorem placeWithCallees_mem {r : Rules} {s u : State} {k : Nat} {gang : List Nat} {ok : Nat → Bool}
    (h : placeWithCallees r s k gang ok = some u) : u.mem = s.mem := by
  obtain ⟨t, ht, h⟩ := Option.bind_eq_some_iff.mp h
  split at h
  · exact Option.some.inj h ▸ placeGang_mem ht
  · exact (reserveCallees_mem h).trans (placeGang_mem ht)

/-- A set that finds room is imported; otherwise the import fails. -/

theorem importedWithRoom_mem {full : Prop} [Decidable full] {s u : State} {k inst : Nat} {lvl : BarLvl} {mask exp core : Nat}
    (h : (if full then none else some (importBarriers s k inst lvl mask exp core)) = some u) : u.mem = s.mem := by
  split at h
  · cases h
  · exact Option.some.inj h ▸ importBarriers_mem ..

theorem importSets_mem {s u : State} {k : Nat} {rs : List Saved} (h : importSets s k rs = some u) : u.mem = s.mem := by
  have stage {c : Prop} [Decidable c] {t v : State} {o : Option State} (h : (if c then some t else o) = some v)
      (other : o = some v → v.mem = t.mem) : v.mem = t.mem := by
    split at h
    · rw [← Option.some.inj h]
    · exact other h
  obtain ⟨t, ht, grid⟩ := Option.bind_eq_some_iff.mp h
  obtain ⟨v, clusters, dies⟩ := Option.bind_eq_some_iff.mp ht
  have clusters := stage clusters (foldl_bind_mem importedWithRoom_mem)
  have dies := stage dies (foldl_bind_mem importedWithRoom_mem)
  have grid := stage grid importedWithRoom_mem
  rw [grid, dies, clusters]

theorem takeRow_mem {s : State} {id : Nat} {c : Card} {sparse : Bool} {a : OpFmt} {t : TileDesc} {u : Run}
    (h : takeRow s id c sparse a t = some u) : u.s.mem = s.mem := by
  grind [takeRow, updBlock_mem, Run.stop_mem, Run.start_mem, feedRow_mem, noteScaleOf_mem]

@[simp] theorem decide1_mem (ks : List Nat) (s : State) : (decide1 ks s).mem = s.mem := by
  induction ks generalizing s with
  | nil => rfl
  | cons k ks ih => grind [decide1, placeWithCallees_mem, admitGang_mem, updLaunch_mem]

end Sys2Proof.Machine
end

section
/-! SUPPORT. What keeps memory in its form (R183, R184): the home slices, translation, fetch and the level-1 caches. Where an
operation writes memory it does so by `setBytes`, `writeNat`, `setMasked` or a filter, whose lemmas stand in Laws; every other
one keeps the form because those that it calls do. -/

namespace Sys2Proof.Machine

/-- A fold keeps memory in its form when each of its steps does; part is the state in what the fold carries. -/
theorem foldl_part_wf {σ α : Type} (part : σ → State) {f : σ → α → σ}
    (keeps : ∀ q a, (part q).mem.wf = true → (part (f q a)).mem.wf = true) (l : List α) {q : σ} (h : (part q).mem.wf = true) :
    (part (l.foldl f q)).mem.wf = true := by
  induction l generalizing q with
  | nil => exact h
  | cons a l ih => exact ih (keeps q a h)

theorem foldl_wf {α : Type} {f : State → α → State} (keeps : ∀ t a, t.mem.wf = true → (f t a).mem.wf = true) (l : List α)
    {s : State} (h : s.mem.wf = true) : (l.foldl f s).mem.wf = true :=
  foldl_part_wf (fun t => t) keeps l h

theorem foldl_fst_wf {α β : Type} {f : State × β → α → State × β}
    (keeps : ∀ q a, q.1.mem.wf = true → (f q a).1.mem.wf = true) (l : List α) {q : State × β} (h : q.1.mem.wf = true) :
    (l.foldl f q).1.mem.wf = true :=
  foldl_part_wf (fun q : State × β => q.1) keeps l h

theorem wf_of_eq {m m' : Memory} (same : m' = m) (h : m.wf = true) : m'.wf = true := same ▸ h

theorem pair_wf {α : Type} {s : State} (h : s.mem.wf = true) (a : α) : (s, a).1.mem.wf = true := h

theorem ite_wf {c : Prop} [Decidable c] {s t : State} (hs : s.mem.wf = true) (ht : t.mem.wf = true) :
    (if c then s else t).mem.wf = true := by
  split
  · exact hs
  · exact ht

section
variable {s : State} (h : s.mem.wf = true)
include h

theorem openSector_wf (pa nl : Nat) (held bypass : Bool) : (openSector s pa nl held bypass).1.mem.wf = true :=
  (openSector_read s pa nl held bypass).1.wf h

theorem takeLayout_wf (pa nl : Nat) (dec : Decode64) : (takeLayout s pa nl dec).mem.wf = true := (takeLayout_home ..).wf h

theorem recodeLine_wf (pa nl : Nat) (was : Bool) : (recodeLine s pa nl was).mem.wf = true := (recodeLine_read ..).wf h

theorem readPart_wf (pa n nl tp : Nat) (was : Bool) : (readPart s pa n nl tp was).1.mem.wf = true := (readPart_read ..).wf h

theorem maskedLine_wf (core : Option Nat) (line : Nat) (lo hi : List (Option Byte)) (nl tp : Nat) :
    (maskedLine s core line lo hi nl tp).mem.wf = true :=
  (maskedLine_home ..).wf h

theorem maskedSector_wf (core : Option Nat) (sec : Nat) (upd : List (Option Byte)) (nl tp : Nat) :
    (maskedSector s core sec upd nl tp).mem.wf = true :=
  (maskedSector_home ..).wf h

theorem writeSector_wf (core : Option Nat) (pa : Nat) (bytes : List Byte) (nl tp : Nat) :
    (writeSector s core pa bytes nl tp).mem.wf = true :=
  (writeSector_home ..).wf h

theorem readSector_wf (core : Option Nat) (pa n nl tp : Nat) : (readSector s core pa n nl tp).1.mem.wf = true :=
  (readSector_read ..).wf h

theorem readHome_wf (core : Option Nat) (pa n nl tp : Nat) : (readHome s core pa n nl tp).1.mem.wf = true :=
  (readHome_read ..).wf h

theorem writeHome_wf (core : Option Nat) (pa : Nat) (bytes : List Byte) (nl tp : Nat) :
    (writeHome s core pa bytes nl tp).mem.wf = true :=
  (writeHome_home ..).wf h

theorem egressOne_wf : (egressOne s).mem.wf = true := by
  unfold egressOne
  split
  · exact h
  · exact Memory.wf_setBytes _ _ h

theorem drainEgress_wf : (drainEgress s).mem.wf = true := (drainEgress_home ..).wf h

theorem deviceWrite_wf (pa : Nat) (bytes : List Byte) : (deviceWrite s pa bytes).mem.wf = true := (deviceWrite_home ..).wf h

theorem deviceDeliv_wf (pa n : Nat) : (deviceDeliv s pa n).1.mem.wf = true := (deviceDeliv_home ..).wf h

theorem deviceRead_wf (pa n : Nat) : (deviceRead s pa n).1.mem.wf = true := (deviceRead_home ..).wf h

theorem queueItem_wf (d : DQueue) (n : Nat) : (queueItem s d n).1.mem.wf = true := by
  have got := deviceDeliv_wf h (d.place s (d.head + n)) 16
  generalize item : queueItem = q
  delta queueItem at item
  have body := congrFun (congrFun (congrFun item s) d) n
  beta_reduce at body
  rw [← body]
  generalize deviceDeliv s (d.place s (d.head + n)) 16 = r at got ⊢
  obtain ⟨t, r⟩ := r
  show (if r.isPoison = true then _ else _ : State × List Byte).1.mem.wf = true
  split
  · exact got
  · exact got

/-- One more item of a queue behind those already read. -/
def withItem (d : DQueue) (r : State × List (List Byte)) (k : Nat) : State × List (List Byte) :=
  ((queueItem r.1 d k).1, r.2 ++ [(queueItem r.1 d k).2])

omit h in
theorem withItem_eq (d : DQueue) (r : State × List (List Byte)) (k : Nat) :
    (match queueItem r.1 d k with | (s, b) => (s, r.2 ++ [b])) = withItem d r k := by
  unfold withItem
  cases queueItem r.1 d k
  rfl

omit h in
/-- The items of a queue are read one after another. -/
theorem queueItems_eq (s : State) (d : DQueue) (n : Nat) :
    queueItems s d n = (List.range n).foldl (withItem d) (s, []) := by
  have step := funext fun r => funext (withItem_eq d r)
  unfold queueItems
  rw [step]

omit h in
theorem withItem_wf (d : DQueue) (r : State × List (List Byte)) (k : Nat) (hr : r.1.mem.wf = true) :
    (withItem d r k).1.mem.wf = true := by
  unfold withItem
  exact pair_wf (queueItem_wf hr d k) _

theorem queueItems_wf (d : DQueue) (n : Nat) : (queueItems s d n).1.mem.wf = true := by
  rw [queueItems_eq]
  exact foldl_fst_wf (withItem_wf d) _ (pair_wf h [])

theorem entryRead_wf (die : Option Nat) (pa : Nat) : (entryRead s die pa).1.mem.wf = true := by
  unfold entryRead
  split
  · exact deviceDeliv_wf h ..
  · rw [spoilDevice_mem]
    exact deviceDeliv_wf ((travelFrom_mem ..).symm ▸ h) ..

theorem walkFrom_wf (die : Option Nat) (va : Nat) (levels : List (Nat × Option PageSize)) (base : Nat) :
    (walkFrom s die va levels base).1.mem.wf = true := by
  induction levels generalizing s base with
  | nil => exact h
  | cons l rest ih => grind [walkFrom, entryRead_wf]

theorem walkBy_wf (die : Option Nat) (slot va : Nat) : (walkBy s die slot va).1.mem.wf = true := by
  grind [walkBy, walkFrom_wf]

theorem walk_wf (slot va : Nat) : (walk s slot va).1.mem.wf = true := by
  grind [walk, walkBy_wf]

theorem raceEntry_wf (at_ : Nat) : (raceEntry s at_).mem.wf = true := by
  grind [raceEntry, deviceWrite_wf]

theorem swapEntry_wf (at_ old new : Nat) : (swapEntry s at_ old new).1.mem.wf = true := by
  grind [swapEntry, raceEntry_wf, deviceWrite_wf]

theorem setAD_wf (at_ e : Nat) (write : Bool) : (setAD s at_ e write).1.mem.wf = true := by
  grind [setAD, swapEntry_wf]

theorem xlateTry_wf (core slot asid va : Nat) (k : Acc) (user : Bool) :
    (xlateTry s core slot asid va k user).1.mem.wf = true := by
  grind [xlateTry, walkBy_wf, setAD_wf, tlbFill_mem]

/-- A walk that is repeated keeps what each of its attempts keeps. -/
theorem xlateLoop_wf {once : State → State × Option Xl} (keeps : ∀ {t : State}, t.mem.wf = true → (once t).1.mem.wf = true)
    (n : Nat) : (xlateLoop once n s).1.mem.wf = true := by
  induction n generalizing s with
  | zero => exact h
  | succ n ih => grind [xlateLoop]

theorem xlateWalk_wf (core slot asid va : Nat) (k : Acc) (user : Bool) :
    (xlateWalk s core slot asid va k user).1.mem.wf = true :=
  xlateLoop_wf h (fun ht => xlateTry_wf ht ..) _

theorem rewalk_wf (core asid va : Nat) (k : Acc) (user : Bool) : (rewalk s core asid va k user).1.mem.wf = true := by
  grind [rewalk, xlateWalk_wf, tlbDrop_mem]

theorem xlate_wf (core asid va : Nat) (k : Acc) (user : Bool) : (xlate s core asid va k user).1.mem.wf = true := by
  grind [xlate, xlateWalk_wf, tlbDrop_mem]

theorem setMark_wf (slot n : Nat) : (setMark s slot n).mem.wf = true := by
  grind [setMark, deviceWrite_wf]

theorem markByUnit_wf (slot pa : Nat) : (markByUnit s slot pa).mem.wf = true := by
  grind [markByUnit, setMark_wf]

theorem markDirty_wf (core slot pa : Nat) : (markDirty s core slot pa).mem.wf = true := by
  grind [markDirty, updCtx_mem, setMark_wf]

theorem takeFrameFuel_wf (die n : Nat) : (takeFrameFuel s die n).1.mem.wf = true := by
  induction n generalizing s with
  | zero => exact h
  | succ n ih => grind [takeFrameFuel, deviceRead_wf, setPool_mem]

theorem takeFrame_wf (die : Nat) : (takeFrame s die).1.mem.wf = true := by
  grind [takeFrame, setPool_mem, takeFrameFuel_wf]

theorem physRead_wf (core : Option Nat) (pa n nl tp : Nat) : (physRead s core pa n nl tp).1.mem.wf = true := by
  grind [physRead, travel_mem, noteSpad_mem, drainEgress_wf, readHome_wf]

theorem readLine_wf (core pa nl tp : Nat) : (readLine s core pa nl tp).1.mem.wf = true := by
  unfold readLine
  dsimp only
  generalize (decide (classOf pa < 4) || classOf pa == 8 || classOf pa == 12) = home
  cases home with
  | false =>
    simp only [Bool.false_eq_true, ↓reduceIte]
    exact physRead_wf (physRead_wf h ..) ..
  | true =>
    have asked : (requestLine (travel s (some core) pa false).1 (some core) pa 0).1.mem.wf = true := by
      rwa [requestLine_mem, travel_mem]
    simp only [↓reduceIte]
    generalize travel s (some core) pa false = r at asked ⊢
    generalize requestLine r.1 (some core) pa 0 = q at asked ⊢
    have half {t : State} (ht : t.mem.wf = true) (p : Nat) :
        (if (r.2.isEmpty || p != pa / 128 * 128) = true then readPart t p 64 nl tp q.2
          else spoilRead (readPart t p 64 nl tp q.2).1 p 64 nl tp q.2 r.2).1.mem.wf = true := by
      split
      · exact readPart_wf ht ..
      · rw [spoilRead_mem]
        exact readPart_wf ht ..
    exact half (half asked _) _

theorem fetchWord_wf (core slot asid : Nat) (user : Bool) (va : Word64) :
    (fetchWord s core slot asid user va).1.mem.wf = true := by
  grind [fetchWord, xlate_wf, readLine_wf, icacheAdd_mem]

theorem fetchWords_wf (core slot asid : Nat) (user : Bool) (va : Word64) (n : Nat) :
    (fetchWords s core slot asid user va n).1.mem.wf = true := by
  induction n generalizing s va with
  | zero => exact h
  | succ n ih => grind [fetchWords, fetchWord_wf]

theorem fetchBlock_wf (core slot asid : Nat) (user : Bool) (allot : Nat) (va : Word64) :
    (fetchBlock s core slot asid user allot va).1.mem.wf = true := by
  grind [fetchBlock, fetchWord_wf, fetchWords_wf]

theorem prefetchLine_wf (core slot asid : Nat) (user : Bool) (va : Nat) :
    (prefetchLine s core slot asid user va).mem.wf = true := by
  grind [prefetchLine, readLine_wf, icacheAdd_mem]

theorem prefetchBlock_wf (core slot asid : Nat) (user : Bool) (va : Nat) :
    (prefetchBlock s core slot asid user va).mem.wf = true := by
  grind [prefetchBlock, prefetchLine_wf]

theorem prefetchHints_wf (core slot asid : Nat) (user : Bool) (b : Fetched) :
    (prefetchHints s core slot asid user b).mem.wf = true := by
  grind [prefetchHints, prefetchBlock_wf]

theorem notify_wf (slot : Nat) (n : Notice) : (notify s slot n).mem.wf = true := by
  grind [notify, notifyHost_mem, updCtx_mem, drainEgress_wf, deviceWrite_wf]

theorem writeBack_wf (l : L1Line) : (writeBack s l).mem.wf = true := by
  grind [writeBack, maskedLine_wf]

theorem releaseL1_wf (core : Nat) : (releaseL1 s core).mem.wf = true := foldl_wf (fun _ l ht => writeBack_wf ht l) _ h

theorem flushLine_wf (core line : Nat) : (flushLine s core line).mem.wf = true := by
  grind [flushLine, l1Drop_mem, writeBack_wf]

theorem l1Room_wf (core line : Nat) : (l1Room s core line).1.mem.wf = true := by
  grind [l1Room, flushLine_wf]

theorem releaseScope_wf (core : Nat) (sco : Scope) : (releaseScope s core sco).mem.wf = true := by
  cases sco with
  | none | warp | block => exact h
  | system => exact drainEgress_wf (releaseL1_wf h core)
  | cluster | die | device | domain => exact releaseL1_wf h core

theorem killNow_wf (w : Nat) (fault : Word32) (addr : Word64) (aux : Word32) (note : Bool) :
    (killNow s w fault addr aux note).mem.wf = true := by
  grind [killNow, removeWarp_mem, abandonAll_mem, silenceCards_mem, notify_wf]

theorem killWarp_wf (w : Nat) (fault : Word32) (addr : Word64) (aux : Word32) (note : Bool) :
    (killWarp s w fault addr aux note).mem.wf = true := by
  grind [killWarp, clearFocus_mem, killNow_wf]

theorem writeHostFault_wf (slot : Nat) (h : HeldFault) : (writeHostFault s slot h).mem.wf = true := by
  grind [writeHostFault, deviceWrite_wf, notifyHost_mem, updCtx_mem, updWarp_mem]

theorem escalate_wf (w e : Nat) (va : Word64) (kind cause : Nat) (lanes : Lanes) :
    (escalate s w e va kind cause lanes).mem.wf = true := by
  grind [escalate, updSplit_mem, clearFocus_mem, updCtx_mem, writeHostFault_wf]

theorem releaseHeld_wf (slot n : Nat) : (releaseHeld s slot n).mem.wf = true := by
  induction n generalizing s with
  | zero => exact h
  | succ n ih => grind [releaseHeld, writeHostFault_wf, updCtx_mem]

theorem takeTrap_wf (w e : Nat) (f : FaultInfo) (r : Place) : (takeTrap s w e f r).mem.wf = true := by
  grind [takeTrap, killWarp_wf, settleWarp_mem, clearFocus_mem, updWarp_mem]

theorem sendFlit_wf (w : Nat) (mtgt : Word32) (flit : Word64) : (sendFlit s w mtgt flit).mem.wf = true := by
  grind [sendFlit, releaseScope_wf, sendEntry_mem]

end

end Sys2Proof.Machine
end

section
/-! SUPPORT. What keeps memory in its form: the issue of a word, accesses of the units, the end of launches and device
registers. -/

namespace Sys2Proof.Machine

/-- If the step gives a state, its memory stands in the canonical form. -/
structure EndsWf (r : Host.Outcome State Fault Refusal) : Prop where
  next : ∀ t, r = .next t → t.mem.wf = true

section
variable {s : State} (h : s.mem.wf = true)
include h

theorem Issuer.complete_wf (i : Issuer) (ws : WordSpec) (g : Lanes) : (Issuer.complete i ws g s).mem.wf = true := by
  grind [Issuer.complete, cleanRegRows_mem, sendFlit_wf, soilRegion_mem]

theorem Issuer.trapHere_wf (i : Issuer) (f : FaultInfo) : (Issuer.trapHere i s f).mem.wf = true := by
  grind [Issuer.trapHere, takeTrap_wf, endRun_mem, Issuer.undo_mem]

theorem Issuer.raise_wf (i : Issuer) (ws : WordSpec) (raised : Nat) : (Issuer.raise i ws s raised).mem.wf = true := by
  grind [Issuer.raise, Issuer.advance_mem, updWarp_mem, takeTrap_wf, endRun_mem]

omit h in
theorem Issuer.conclude_wf (i : Issuer) (ws : WordSpec) (g : Lanes) (r : WordEnd) (hr : r.state.mem.wf = true) :
    (i.conclude ws g r).mem.wf = true := by
  cases r <;> grind [Issuer.conclude, WordEnd.state, Issuer.complete_wf, Issuer.raise_wf, Issuer.trapHere_wf, takeTrap_wf,
    escalate_wf, Issuer.advance_mem, Issuer.soils_mem, settleWarp_mem, endRun_mem, updSplit_mem, updWarp_mem,
    Issuer.parkHere_mem, Issuer.giveBack_mem, Issuer.undo_mem]

omit h in
theorem Issuer.judge_wf (i : Issuer) (ws : WordSpec) (g bad : Lanes) {t : State} (ht : t.mem.wf = true) {r : WordEnd}
    (hr : r.state.mem.wf = true) :
    (if bad ≠ 0 ∧ r.beforeGrade bad = false then
      i.trapHere (noAddress (recordGrade t i.w (gradeWord 4 0 3)) .grade 3 ((gradeWord 4 0 3).toNat / 2 ^ 16) bad).1
        (noAddress (recordGrade t i.w (gradeWord 4 0 3)) .grade 3 ((gradeWord 4 0 3).toNat / 2 ^ 16) bad).2
    else i.conclude ws g r).mem.wf = true := by
  split
  · exact Issuer.trapHere_wf (by rwa [noAddress_mem, recordGrade_mem]) ..
  · exact Issuer.conclude_wf i ws g r hr

theorem Issuer.act_wf (i : Issuer) (ws : WordSpec) {body : State → Issuer → Lanes → WordEnd} (g : Lanes)
    (keeps : ∀ {t : State} (j : Issuer), t.mem.wf = true → (body t j g).state.mem.wf = true) :
    (i.act ws body g s).mem.wf = true := by
  have start : (updSplit (noteRegs s i.w (i.consumed ws)) i.w i.e fun p => { p with sig := i.sig ws, park := none }).mem.wf =
      true := by
    rwa [updSplit_mem, noteRegs_mem]
  refine Issuer.judge_wf i ws g _ start ?_
  split
  · exact start
  · exact keeps _ start

omit h in
theorem takeFlit_taken_mem {w : Nat} {t : State} (took : takeFlit s w = .taken t) : t.mem = s.mem := by
  unfold takeFlit at took
  grind [updBlock_mem, noteRow_mem, updWarp_mem, acquireScope_mem]

omit h in
theorem takeFlit_bad_mem {w : Nat} {t : State} (took : takeFlit s w = .bad t) : t.mem = s.mem := by
  unfold takeFlit at took
  grind [updBlock_mem, noteRow_mem]

theorem Issuer.takeAndAct_wf (i : Issuer) (ws : WordSpec) {body : State → Issuer → Lanes → WordEnd} (g : Lanes)
    (keeps : ∀ {t : State} (j : Issuer), t.mem.wf = true → (body t j g).state.mem.wf = true) :
    (i.takeAndAct ws body g s).mem.wf = true := by
  unfold Issuer.takeAndAct
  split
  · dsimp only
    split
    · rwa [Issuer.parkHere_mem]
    · split
      case _ t took => exact Issuer.act_wf ((takeFlit_taken_mem took).symm ▸ h) i ws g keeps
      case _ => rwa [Issuer.parkHere_mem]
      case _ t took =>
        exact Issuer.trapHere_wf (by rwa [noAddress_mem, recordGrade_mem, takeFlit_bad_mem took]) ..
  · exact Issuer.act_wf h i ws g keeps

theorem Issuer.run_wf (i : Issuer) (ws : WordSpec) {body : State → Issuer → Lanes → WordEnd}
    (keeps : ∀ {t : State} (j : Issuer) (g : Lanes), t.mem.wf = true → (body t j g).state.mem.wf = true) :
    (i.run ws body s).mem.wf = true := by
  unfold Issuer.run
  dsimp only
  split_ifs
  · exact Issuer.trapHere_wf h ..
  · exact Issuer.trapHere_wf h ..
  · rwa [Issuer.parkHere_mem]
  · rwa [Issuer.parkHere_mem]
  · exact Issuer.trapHere_wf h ..
  · exact Issuer.takeAndAct_wf h i ws _ fun j ht => keeps j _ ht

omit h in
theorem next_wf {t : State} (ht : t.mem.wf = true) : EndsWf (.next t) := ⟨fun _ ran => Host.Outcome.next.inj ran ▸ ht⟩

omit h in
theorem fault_wf (f : Fault) : EndsWf (.fault f) := ⟨fun _ ran => nomatch ran⟩

/-- A word keeps memory in its form when its own effect does. -/
theorem issue_wf (ws : WordSpec) {body : State → Issuer → Lanes → WordEnd}
    (keeps : ∀ {t : State} (j : Issuer) (g : Lanes), t.mem.wf = true → (body t j g).state.mem.wf = true) :
    EndsWf (issue ws body s) := by
  unfold issue
  split
  · exact fault_wf _
  · exact next_wf (Issuer.run_wf h _ ws keeps)

theorem issueIllegal_wf : EndsWf (issueIllegal s) := by
  unfold issueIllegal
  split
  · exact fault_wf _
  · exact next_wf (Issuer.trapHere_wf h ..)

theorem clearSpad_wf (core off n : Nat) : (clearSpad s core off n).mem.wf = true := by
  unfold clearSpad
  dsimp only
  rw [cleanRows_mem]
  exact Memory.wf_filter _ h

theorem writeSpad_wf (pa : Nat) (bytes : List Byte) : (writeSpad s pa bytes).mem.wf = true := by
  unfold writeSpad
  dsimp only
  rw [cleanRows_mem]
  exact Memory.wf_setBytes _ _ h

theorem plainWrite_wf (core : Option Nat) (pa : Nat) (bytes : List Byte) (nl tp : Nat) :
    (plainWrite s core pa bytes nl tp).mem.wf = true := by
  grind [plainWrite, travel_mem, writeSpad_wf, markSpad_mem, writeHostMem_mem, writeHome_wf]

theorem unitTry_wf (slot va : Nat) (k : Acc) : (unitTry s slot va k).1.mem.wf = true := by
  grind [unitTry, walk_wf, setAD_wf]

theorem unitXlate_wf (asid va : Nat) (k : Acc) : (unitXlate s asid va k).1.mem.wf = true := by
  unfold unitXlate
  split
  · exact h
  · split
    · exact h
    · exact xlateLoop_wf h (fun ht => unitTry_wf ht ..) _

theorem unitRead_wf (asid va n : Nat) : (unitRead s asid va n).1.mem.wf = true := by
  unfold unitRead
  refine foldl_fst_wf (fun q a hq => ?_) _ (pair_wf h _)
  grind [unitXlate_wf, physRead_wf]

theorem unitWrite_wf (asid va : Nat) (bytes : List Byte) : (unitWrite s asid va bytes).1.mem.wf = true := by
  unfold unitWrite
  refine foldl_fst_wf (fun q a hq => ?_) _ (pair_wf h _)
  grind [unitXlate_wf, markByUnit_wf, plainWrite_wf]

theorem unitReadNat_wf (asid va n : Nat) : (unitReadNat s asid va n).1.mem.wf = true := by
  grind [unitReadNat, unitRead_wf]

theorem clearBlock_wf (x : Block) : (clearBlock s x).mem.wf = true := by
  have tiles : (x.tiles.foldl (fun s t => setTile s x.core t 0) (clearRegs s x.warps.contains)).mem.wf = true := by
    refine foldl_wf (fun t k ht => ?_) _ ?_
    · rwa [setTile_mem]
    · rwa [clearRegs_mem]
  refine clearSpad_wf ?_ ..
  rwa [clearScale_mem, clearMacros_mem]

theorem freeBlock_wf (b : Nat) : (freeBlock s b).mem.wf = true := by
  grind [freeBlock, countLife_mem, dropBlockBarriers_mem, clearBlock_wf]

theorem writeCompletion_wf (l : Launch) (status : Nat) : (writeCompletion s l status).1.mem.wf = true := by
  grind [writeCompletion, unitWrite_wf]

theorem finishLaunch_wf (k : Nat) : (finishLaunch s k).mem.wf = true := by
  grind [finishLaunch, writeCompletion_wf, drainEgress_wf, dropLaunch_mem, notifyHost_mem, queueError_mem]

theorem mergeLate_wf (x : Block) : (mergeLate s x).mem.wf = true := by
  unfold mergeLate
  refine foldl_wf (fun t r ht => ?_) _ h
  grind [unitReadNat_wf, unitWrite_wf]

theorem retireBlock_wf (b : Nat) : (retireBlock s b).mem.wf = true := by
  grind [retireBlock, mergeLate_wf, drainEgress_wf, releaseL1_wf, freeBlock_wf, updLaunch_mem, dropClusterBarriers_mem,
    finishLaunch_wf]

theorem terminateLaunch_wf (k : Nat) : (terminateLaunch s k).mem.wf = true := by
  have killed : ∀ mine : List Nat, ∀ t : State, t.mem.wf = true →
      (mine.foldl (fun s w => killWarp s w 0 0 0 false) t).mem.wf = true :=
    fun mine t ht => foldl_wf (fun t w ht => killWarp_wf ht ..) mine ht
  unfold terminateLaunch
  grind [finishLaunch_wf, updLaunch_mem, discardSaved_mem, cancelCards_mem, settleResume_mem]

theorem terminateQueue_wf (q : Nat) : (terminateQueue s q).mem.wf = true := by
  unfold terminateQueue
  dsimp only
  rw [settleTerm_mem]
  exact foldl_wf (fun t k ht => terminateLaunch_wf ht k) _ ((setQueue_mem ..).symm ▸ h)

theorem endLeases_wf (core : Nat) : (endLeases s core).mem.wf = true := by
  unfold endLeases
  exact foldl_wf (fun t l ht => (endLease_mem ..).symm ▸ flushLine_wf ht core l.line) _ h

theorem settlePreempt_wf (slot : Nat) : (settlePreempt s slot).mem.wf = true := by
  grind [settlePreempt, updCtx_mem, notify_wf]

theorem beginPre_wf (slot : Nat) : (beginPre s slot).mem.wf = true := by
  unfold beginPre
  split
  · exact h
  · exact foldl_wf (fun t c ht => endLeases_wf ht c) _ ((updCtx_mem ..).symm ▸ h)

theorem completeHarvest_wf (slot : Nat) : (completeHarvest s slot).mem.wf = true := by
  unfold completeHarvest
  split
  · dsimp only
    rw [updCtx_mem]
    exact foldl_wf (fun t c ht => releaseL1_wf ht c) _ h
  · exact h

theorem performHostWrite_wf (w : HostWrite) : (performHostWrite s w).mem.wf = true := by
  unfold performHostWrite
  refine foldl_wf (fun t a ht => ?_) _ h
  dsimp only
  split
  · exact writeSector_wf ht ..
  · exact ht

theorem drainHost_wf : (drainHost s).mem.wf = true := foldl_wf (fun _ w ht => performHostWrite_wf ht w) _ h

theorem writeQueueReg_wf (q off : Nat) (w : RegWrite) : (writeQueueReg s q off w).mem.wf = true := by
  unfold writeQueueReg
  grind [writeLqBase_mem, writeLqConfig_mem, writeLqTail_mem, terminateQueue_wf]

theorem writeFrTail_wf (slot : Nat) (v : BitVec 32) : (writeFrTail s slot v).mem.wf = true := by
  grind [writeFrTail, updCtx_mem, releaseHeld_wf]

theorem writeXlateReg_wf (slot off : Nat) (w : RegWrite) : (writeXlateReg s slot off w).mem.wf = true := by
  unfold writeXlateReg
  grind [setCtx_mem, writeAsid_mem, beginHarvest_mem, resumeHostFault_mem, writeFrTail_wf]

theorem writeTrapReg_wf (slot off : Nat) (w : RegWrite) : (writeTrapReg s slot off w).mem.wf = true := by
  unfold writeTrapReg
  grind [setCtx_mem, beginPre_wf, beginRes_mem]

theorem writeReg_wf (off : Nat) (w : RegWrite) : (writeReg s off w).mem.wf = true := by
  unfold writeReg
  refine ite_wf (writeQueueReg_wf h ..) (ite_wf h (ite_wf (writeXlateReg_wf h ..) (ite_wf ?_ (ite_wf (ite_wf ?_ h)
    (ite_wf ?_ (ite_wf ?_ (ite_wf ?_ (ite_wf (ite_wf h h) (ite_wf (writeTrapReg_wf h ..) (ite_wf (ite_wf h h)
      (ite_wf ?_ h)))))))))))
  · rwa [writePoolReg_mem]
  · rwa [writeSplit_mem]
  · rwa [writeReportReg_mem]
  · rwa [writeNetReg_mem]
  · rwa [writeInjectorReg_mem]
  · rwa [writeHouseReg_mem]

theorem devWrite_wf (host : Bool) (off n v : Nat) : (devWrite s host off n v).mem.wf = true := by
  unfold devWrite
  grind [writeReg_wf]

end

end Sys2Proof.Machine
end

section
/-! SUPPORT. What keeps memory in its form: the words that access memory. -/

namespace Sys2Proof.Machine

@[simp] theorem uncounted_mem (s t : State) : (uncounted s t).mem = t.mem := rfl

@[simp] theorem countedUnless_mem (s : State) (core pa : Nat) (t : State) : (countedUnless s core pa t).mem = t.mem := by
  unfold countedUnless
  split <;> rfl

section
variable {s : State} (h : s.mem.wf = true)
include h

theorem xlateFor_wf (x : Warp) (k : AccessKind) (va : Nat) : (xlateFor s x k va).1.mem.wf = true := by
  grind [xlateFor, xlate_wf, rewalk_wf]

theorem checkGlobal_wf (x : Warp) (k : AccessKind) (n va : Nat) : (checkGlobal s x k n va).1.mem.wf = true := by
  grind [checkGlobal, xlateFor_wf]

theorem checkLane_wf (x : Warp) (k : AccessKind) (n lane : Nat) (ga : Word64) : (checkLane s x k n lane ga).1.mem.wf = true := by
  grind [checkLane, checkGlobal_wf]

theorem checkLanes_wf (x : Warp) (k : AccessKind) (n : Nat) (g : Lanes) (addr : Nat → Word64) :
    (checkLanes s x k n g addr).1.mem.wf = true := by
  unfold checkLanes
  refine foldl_fst_wf (fun q l hq => ?_) _ (pair_wf h _)
  exact checkLane_wf hq ..

/-- The lanes' checks translate; what follows them is the word's own effect. -/
theorem withLanes_wf (i : Issuer) (k : AccessKind) (n : Nat) (g : Lanes) (addr : Nat → Word64)
    {body : State → List (Nat × Word64 × Target) → WordEnd}
    (keeps : ∀ {t : State} (ts : List (Nat × Word64 × Target)), t.mem.wf = true → (body t ts).state.mem.wf = true) :
    (withLanes s i k n g addr body).state.mem.wf = true := by
  have checked := checkLanes_wf h i.x k n g addr
  unfold withLanes
  generalize checkLanes s i.x k n g addr = r at checked ⊢
  obtain ⟨t, cs⟩ := r
  dsimp only at checked ⊢
  split
  · exact checked
  · rwa [checkTrap_mem]
  · split
    · exact checked
    · exact keeps _ checked

theorem fillHalf_wf (pa nl : Nat) (was : Bool) : (fillHalf s pa nl was).1.mem.wf = true := by
  grind [fillHalf, openSector_wf, takeLayout_wf]

theorem homeLine_wf (core line nl : Nat) (lo hi : Bool) : (homeLine s core line nl lo hi).1.mem.wf = true := by
  grind [homeLine, travel_mem, requestLine_mem, fillHalf_wf, recodeLine_wf, spoilHalf_mem]

theorem fillLine_wf (core line nl : Nat) : (fillLine s core line nl).1.mem.wf = true := by
  grind [fillLine, homeLine_wf]

theorem l1Read_wf (core pa n nl tp : Nat) (ch : Cache) : (l1Read s core pa n nl tp ch).1.mem.wf = true := by
  grind [l1Read, l1Put_mem, fillLine_wf, l1Room_wf, readHome_wf]

theorem l1Write_wf (core line : Nat) (upd : List (Option Byte)) (nl tp : Nat) (ch : Cache) :
    (l1Write s core line upd nl tp ch).mem.wf = true := by
  grind [l1Write, l1Put_mem, l1Room_wf, maskedLine_wf]

theorem readTarget_wf (core n : Nat) (ch : Cache) (t : Target) : (readTarget s core n ch t).1.mem.wf = true := by
  cases t with
  | zeros | group gid off => exact h
  | spad pa => exact wf_of_eq (noteSpad_mem ..) h
  | phys pa e =>
    unfold readTarget
    dsimp only
    split
    · exact l1Read_wf h ..
    · dsimp only
      rw [countedUnless_mem]
      exact physRead_wf (flushLine_wf h ..) ..

theorem homeLines_wf (core n : Nat) (ch : Cache) (ts : List (Nat × Word64 × Target)) :
    (homeLines s core n ch ts).1.mem.wf = true := by
  unfold homeLines
  refine foldl_fst_wf (fun q a hq => ?_) _ (pair_wf h _)
  dsimp only
  split
  · exact hq
  · dsimp only
    rw [countedUnless_mem]
    exact homeLine_wf (flushLine_wf hq ..) ..

theorem physWrite_wf (core : Option Nat) (pa : Nat) (bytes : List Byte) (nl tp : Nat) :
    (physWrite s core pa bytes nl tp).mem.wf = true := by
  grind [physWrite, devWrite_wf, plainWrite_wf]

theorem writeLine_wf (x : Warp) (ch : Cache) (pa e : Nat) (upd : List (Option Byte)) :
    (writeLine s x ch pa e upd).mem.wf = true := by
  have marked := markDirty_wf h x.core x.ctx pa
  unfold writeLine
  dsimp only
  split
  · exact l1Write_wf marked ..
  · rw [countedUnless_mem]
    exact maskedLine_wf (flushLine_wf marked ..) ..

theorem writeRow_wf (row : Nat) (upd : List (Option Byte)) : (writeRow s row upd).mem.wf = true := by
  have written := setMasked_wf (row * 64) upd h
  unfold writeRow
  dsimp only
  split
  · rwa [cleanRows_mem]
  · exact written

theorem writeUnits_wf (x : Warp) (n : Nat) (ch : Cache) (v : Nat → Nat) (all ts : List (Nat × Word64 × Target))
    (done : List Nat) : (writeUnits x n ch v all ts done s).mem.wf = true := by
  induction ts generalizing s done with
  | nil => exact h
  | cons a ts ih =>
    obtain ⟨lane, ga, t⟩ := a
    unfold writeUnits
    split
    · split
      · exact ih h _
      · dsimp only
        split
        · exact ih (writeLine_wf h ..) _
        · exact ih (writeRow_wf h ..) _
    · exact ih (physWrite_wf (markDirty_wf h ..) ..) _
    · exact ih h _

theorem writeLanes_wf (x : Warp) (n : Nat) (ch : Cache) (ts : List (Nat × Word64 × Target)) (v : Nat → Nat) :
    (writeLanes s x n ch ts v).mem.wf = true := by
  grind [writeLanes, writeUnits_wf]

theorem writeTarget_wf (x : Warp) (bytes : List Byte) (ch : Cache) (t : Target) :
    (writeTarget s x bytes ch t).mem.wf = true := by
  grind [writeTarget, writeLanes_wf]

theorem leaseRoom_wf (core line : Nat) : (leaseRoom s core line).1.mem.wf = true := by
  grind [leaseRoom, l1Room_wf, flushLine_wf]

theorem placeAtomic_wf (core pa : Nat) : (placeAtomic s core pa).mem.wf = true := by
  grind [placeAtomic, chargeHome_mem, reachHome_mem, bumpPlace_mem, leaseRoom_wf, grantLease_mem]

theorem atomicStep_wf (x : Warp) (n : Nat) (t : Target) (f : Nat → Option Nat) : (atomicStep s x n t f).1.mem.wf = true := by
  cases t with
  | zeros | group gid off => exact h
  | spad pa => grind [atomicStep, noteSpad_mem, writeSpad_wf]
  | phys pa e =>
    have placed := placeAtomic_wf (flushLine_wf h x.core (pa / 128)) x.core pa
    have read := physRead_wf placed (some x.core) pa n (leafNl e) (leafTp e)
    grind [atomicStep, countedUnless_mem, uncounted_mem, physWrite_wf, markDirty_wf]

theorem orderBefore_wf (core : Nat) (sco : Scope) (ord : Order) : (orderBefore s core sco ord).mem.wf = true := by
  grind [orderBefore, releaseScope_wf]

theorem readLanes_wf (core n : Nat) (ch : Cache) (ts : List (Nat × Word64 × Target)) :
    (readLanes s core n ch ts).1.mem.wf = true := by
  have lines := homeLines_wf h core n ch ts
  unfold readLanes
  generalize homeLines s core n ch ts = r at lines ⊢
  refine foldl_fst_wf (fun q a hq => ?_) _ (pair_wf lines _)
  dsimp only
  split
  · exact hq
  · exact readTarget_wf hq ..

theorem execLd_wf (g : Guard) (sz : MSize) (sco : Scope) (ord : Order) (ch : Cache) (d : Fin 256) (m : MAddr) :
    EndsWf (execLd g sz sco ord ch d m s) :=
  issue_wf h _ fun i _ ht => withLanes_wf ht i _ _ _ _ fun _ hts => by
    rw [loadEnd_mem, orderAfter_mem]
    exact readLanes_wf hts ..

theorem execSt_wf (g : Guard) (sz : MSize) (sco : Scope) (ord : Order) (ch : Cache) (d : Fin 256) (m : MAddr) :
    EndsWf (execSt g sz sco ord ch d m s) :=
  issue_wf h _ fun i _ ht => withLanes_wf ht i _ _ _ _ fun _ hts => writeLanes_wf (orderBefore_wf hts ..) ..

theorem execLds_wf (g : Guard) (sz : MSize) (sco : Scope) (ord : Order) (ch : Cache) (d : Fin 64) (m : MAddr) :
    EndsWf (execLds g sz sco ord ch d m s) :=
  issue_wf h _ fun i _ ht => withLanes_wf ht i _ _ _ _ fun _ hts => by
    rw [loadEnd_mem, orderAfter_mem]
    exact readLanes_wf hts ..

theorem execSts_wf (g : Guard) (sz : MSize) (sco : Scope) (ord : Order) (ch : Cache) (d : Fin 64) (m : MAddr) :
    EndsWf (execSts g sz sco ord ch d m s) :=
  issue_wf h _ fun i _ ht => withLanes_wf ht i _ _ _ _ fun _ hts => writeLanes_wf (orderBefore_wf hts ..) ..

theorem atomicLanes_wf (x : Warp) (n : Nat) (ts : List (Nat × Word64 × Target)) (f : Nat → Nat → Option Nat) :
    (atomicLanes s x n ts f).1.mem.wf = true := by
  unfold atomicLanes
  refine foldl_fst_wf (fun q a hq => ?_) _ (pair_wf h _)
  exact atomicStep_wf hq ..

theorem atomicWord_wf (i : Issuer) (sco : Scope) (ord : Order) (n : Nat) (ts : List (Nat × Word64 × Target))
    (f : Nat → Nat → Option Nat) : (atomicWord s i sco ord n ts f).1.mem.wf = true := by
  grind [atomicWord, atomicLanes_wf, orderBefore_wf, orderAfter_mem]

theorem execAtom_wf (g : Guard) (op : AtomOp) (sz : MSize) (sco : Scope) (ord : Order) (d : Fin 256) (m : WAddr) (x : Fin 256) :
    EndsWf (execAtom g op sz sco ord d m x s) :=
  issue_wf h _ fun i _ ht => withLanes_wf ht i _ _ _ _ fun _ hts => by
    rw [loadEnd_mem]
    exact atomicWord_wf hts ..

theorem execRed_wf (g : Guard) (op : AtomOp) (sz : MSize) (sco : Scope) (ord : Order) (m : WAddr) (x : Fin 256) :
    EndsWf (execRed g op sz sco ord m x s) :=
  issue_wf h _ fun i _ ht => withLanes_wf ht i _ _ _ _ fun _ hts => by
    rw [loadEnd_mem]
    exact atomicWord_wf hts ..

theorem execCas_wf (g : Guard) (sz : MSize) (sco : Scope) (ord : Order) (d : Fin 256) (m : WAddr) (x : Fin 256) :
    EndsWf (execCas g sz sco ord d m x s) :=
  issue_wf h _ fun i _ ht => withLanes_wf ht i _ _ _ _ fun _ hts => by
    rw [loadEnd_mem, orderAfter_mem]
    exact atomicLanes_wf (ite_wf (orderBefore_wf hts ..) hts) ..

theorem execLdg_wf (g : Guard) (op : LdgOp) (sz : MSize) (width : Fin 3) (_sco : Scope) (ord : Order) (d : Fin 256) (m : WAddr) :
    EndsWf (execLdg g op sz width _sco ord d m s) :=
  issue_wf h _ fun i _ ht => withLanes_wf ht i _ _ _ _ fun _ hts => wf_of_eq (sendLater_mem ..) hts

theorem execFence_wf (g : Guard) (sco : Scope) (ord : Order) : EndsWf (execFence g sco ord s) :=
  issue_wf h _ fun _ _ ht => by
    show (orderAfter _ _ _ _).mem.wf = true
    rw [orderAfter_mem]
    exact orderBefore_wf ht ..

theorem prefLane_wf (x : Warp) (ch : Cache) (t : Target) : (prefLane s x ch t).mem.wf = true := by
  cases t with
  | zeros | group gid off | spad pa => exact h
  | phys pa e => grind [prefLane, uncounted_mem, fillLine_wf, l1Read_wf]

theorem execPref_wf (g : Guard) (ch : Cache) (m : MAddr) : EndsWf (execPref g ch m s) :=
  issue_wf h _ fun {t} i k ht => by
    have checked := checkLanes_wf ht i.x (loadKind.by ch) 1 k (i.x.effAddr m)
    generalize checkLanes t i.x (loadKind.by ch) 1 k (i.x.effAddr m) = r at checked ⊢
    dsimp only
    split
    · exact checked
    · exact foldl_wf (fun u a hu => prefLane_wf hu i.x ch a.2.2) _ checked

theorem cleanLine_wf (core line : Nat) : (cleanLine s core line).mem.wf = true := by
  grind [cleanLine, writeBack_wf]

theorem maintWord_wf (opc : Nat) (g : Guard) (acq : Bool) (m : MAddr) {f : State → Nat → Nat → State}
    (keeps : ∀ {t : State} (core line : Nat), t.mem.wf = true → (f t core line).mem.wf = true) :
    EndsWf (maintWord opc g acq m f s) := by
  refine issue_wf h _ fun i _ ht => withLanes_wf ht i _ _ _ _ fun _ hts => foldl_wf (fun u a hu => ?_) _ hts
  dsimp only
  split
  · exact keeps _ _ hu
  · exact hu

theorem execCwb_wf (g : Guard) (_rel : Bool) (m : MAddr) : EndsWf (execCwb g _rel m s) :=
  maintWord_wf h _ _ _ _ fun core line ht => cleanLine_wf ht core line

theorem execCinv_wf (g : Guard) (acq : Bool) (m : MAddr) : EndsWf (execCinv g acq m s) :=
  maintWord_wf h _ _ _ _ fun core line ht => flushLine_wf ht core line

theorem waitneCheck_wf (i : Issuer) (sco : Scope) (ord : Order) (d x n : Nat) (ts : List (Nat × Word64 × Target)) :
    (waitneCheck s i sco ord d x n ts).state.mem.wf = true := by
  have got := readLanes_wf h i.x.core n .nol1 ts
  grind [waitneCheck, WordEnd.state, recordGrade_mem, updWarp_mem, orderAfter_mem, countTails_mem]

theorem execWaitne_wf (g : Guard) (sz : MSize) (sco : Scope) (ord : Order) (d : Fin 256) (m : MAddr) (x : Fin 256) :
    EndsWf (execWaitne g sz sco ord d m x s) :=
  issue_wf h _ fun i _ ht => withLanes_wf ht i _ _ _ _ fun _ hts => waitneCheck_wf hts ..

end

end Sys2Proof.Machine
end

section
/-! SUPPORT. What keeps memory in its form: the words of RESIDE and of the key-value store. -/

namespace Sys2Proof.Machine

theorem onExact_wf {s : State} (h : s.mem.wf = true) (x : Warp) (range : Option (Nat × Nat)) {f : State → Contract → State}
    (keeps : ∀ c, (f s c).mem.wf = true) : (onExact s x range f).1.mem.wf = true := by
  unfold onExact
  split
  · exact h
  · split
    · exact h
    · exact keeps _
section
variable {s : State} (h : s.mem.wf = true)
include h

theorem execResideClass_wf (g : Guard) (sd sa sb : Fin 64) (cls : Reuse) (report ntreq : Bool) :
    EndsWf (execResideClass g sd sa sb cls report ntreq s) :=
  issue_wf h _ fun _ _ ht => by
    dsimp only
    rwa [statusWord_mem, resideClass_mem]

theorem lockLine_wf (line nl : Nat) : (lockLine s line nl).mem.wf = true := by
  unfold lockLine
  refine foldl_wf (fun t half ht => ?_) _ h
  exact takeLayout_wf (openSector_wf ht ..) ..

theorem residePin_wf (x : Warp) (range : Option (Nat × Nat)) : (residePin s x range).1.mem.wf = true := by
  have locked : ∀ us : List (Nat × Nat),
      (us.foldl (fun s (f, nl) => (frameLines f).foldl (fun s l => lockLine s l nl) s) s).mem.wf = true := by
    intro us
    refine foldl_wf (fun t u ht => ?_) us h
    obtain ⟨f, nl⟩ := u
    exact foldl_wf (fun t l ht => lockLine_wf ht l nl) _ ht
  unfold residePin
  grind [updContract_mem]

theorem execResidePin_wf (g : Guard) (sd sa sb : Fin 64) : EndsWf (execResidePin g sd sa sb s) :=
  issue_wf h _ fun _ _ ht => by
    dsimp only
    rw [statusWord_mem]
    exact residePin_wf ht ..

theorem execResideUnpin_wf (g : Guard) (sd sa sb : Fin 64) : EndsWf (execResideUnpin g sd sa sb s) :=
  issue_wf h _ fun _ _ ht => by
    rw [statusWord_mem]
    refine onExact_wf ht _ _ fun c => ?_
    rwa [unlockContract_mem]

theorem execResideClose_wf (g : Guard) (sd sa sb : Fin 64) : EndsWf (execResideClose g sd sa sb s) :=
  issue_wf h _ fun _ _ ht => by
    rw [statusWord_mem]
    refine onExact_wf ht _ _ fun c => ?_
    rwa [unlockContract_mem]

theorem execResideTprio_wf (g : Guard) (sd sa : Fin 64) (cls : Fin 8) : EndsWf (execResideTprio g sd sa cls s) :=
  issue_wf h _ fun _ _ ht => by
    dsimp only
    split
    · rwa [statusWord_mem]
    · rwa [statusWord_mem]

theorem kvTag_wf (die e : Nat) (key : Word64) (pin : Bool) : (kvTag s die e key pin).mem.wf = true := by
  have kept : (cleanRows s (· == chipRow 6 (die * 2 ^ 32 + e))).mem.wf = true := by rwa [cleanRows_mem]
  unfold kvTag
  dsimp only
  generalize cleanRows s (· == chipRow 6 (die * 2 ^ 32 + e)) = t at kept ⊢
  exact Memory.wf_filter _ kept

theorem kvPut_wf (asid : Nat) (key : Word64) (pin : Bool) : (kvPut s asid key pin).1.mem.wf = true := by
  unfold kvPut
  split
  · exact h
  · extract_lets die owned held
    split
    · exact h
    · cases kvAt s die key with
      | some k => exact pair_wf ((kvTouch_mem ..).symm ▸ h) _
      | none =>
        cases owned.find? fun e => !(held.any (·.entry == e)) with
        | some e => exact pair_wf (kvTag_wf h ..) _
        | none =>
          cases kvVictim s (held.filter fun k => !k.pin) with
          | none => exact h
          | some v => exact pair_wf (kvTag_wf h ..) _

theorem execKvfind_wf (g : Guard) (sd sa : Fin 64) : EndsWf (execKvfind g sd sa s) :=
  issue_wf h _ fun _ _ ht => by
    dsimp only
    split
    · rwa [sendLater_mem, noAddress_mem, noteTags_mem]
    · rwa [lateWord_mem, kvFind_mem, noteTags_mem]

theorem execKvput_wf (g : Guard) (pin : Bool) (sd sa sc : Fin 64) : EndsWf (execKvput g pin sd sa sc s) :=
  issue_wf h _ fun _ _ ht => by
    dsimp only
    rw [lateWord_mem]
    exact kvPut_wf (by rwa [noteTags_mem]) ..

theorem execKvdrop_wf (g : Guard) (sd sa : Fin 64) : EndsWf (execKvdrop g sd sa s) :=
  issue_wf h _ fun _ _ ht => by
    dsimp only
    rwa [statusWord_mem, kvDrop_mem]

theorem execKvdropTensor_wf (g : Guard) (sd sa : Fin 64) : EndsWf (execKvdropTensor g sd sa s) :=
  issue_wf h _ fun _ _ ht => by
    dsimp only
    rwa [statusWord_mem, kvDropTensor_mem]

end

end Sys2Proof.Machine
end

section
/-! SUPPORT. What keeps memory in its form: a card that runs. -/

namespace Sys2Proof.Machine

theorem Run.each_wf {α : Type} {r : Run} {f : Run → α → Run} (keeps : ∀ q a, q.s.mem.wf = true → (f q a).s.mem.wf = true)
    (xs : List α) (h : r.s.mem.wf = true) : (r.each xs f).s.mem.wf = true := by
  refine foldl_part_wf (fun q : Run => q.s) (fun q a hq => ?_) xs h
  split
  · exact hq
  · exact keeps q a hq

theorem Run.andThen_wf {r : Run} {f : Run → Run} (keeps : ∀ q, q.s.mem.wf = true → (f q).s.mem.wf = true)
    (h : r.s.mem.wf = true) : (r.andThen f).s.mem.wf = true := by
  unfold Run.andThen
  split
  · exact h
  · exact keeps r h

@[simp] theorem Run.oneLine_mem (t r : Run) (again : Bool) : (t.oneLine r again).s.mem = t.s.mem := by
  unfold Run.oneLine
  split <;> rfl

/-- A fold over a run of a card and what it has gathered. -/
theorem foldl_run_wf {α β : Type} {f : Run × β → α → Run × β}
    (keeps : ∀ q a, q.1.s.mem.wf = true → (f q a).1.s.mem.wf = true) (l : List α) {q : Run × β} (h : q.1.s.mem.wf = true) :
    (l.foldl f q).1.s.mem.wf = true :=
  foldl_part_wf (fun q : Run × β => q.1.s) keeps l h

section
variable {s : State} (h : s.mem.wf = true)
include h

theorem beforeGlobal_wf (c : Card) : (beforeGlobal s c).mem.wf = true := by
  grind [beforeGlobal, releaseL1_wf]

theorem cardReach_wf (c : Card) (classes : List Nat) (va : Nat) (k : Acc) : (cardReach s c classes va k).1.mem.wf = true := by
  grind [cardReach, xlate_wf]

end

section
variable {r : Run} (h : r.s.mem.wf = true)
include h

theorem cardReadPart_wf (c : Card) (classes : List Nat) (va n : Nat) : (cardReadPart r c classes va n).1.s.mem.wf = true := by
  have reached := cardReach_wf h c classes va .rd
  grind [cardReadPart, Run.stop_mem, flushLine_wf, physRead_wf]

theorem cardRead_wf (c : Card) (classes : List Nat) (a : Word64) (n : Nat) (more : Bool) :
    (cardRead r c classes a n more).1.s.mem.wf = true := by
  unfold cardRead
  split
  · exact h
  · exact wf_of_eq (noteSpad_mem ..) h
  · refine foldl_run_wf (fun q a hq => ?_) _ h
    dsimp only
    split
    · exact hq
    · rw [Run.oneLine_mem]
      exact cardReadPart_wf hq ..

theorem cardWritePart_wf (c : Card) (classes : List Nat) (va : Nat) (b : Bytes) :
    (cardWritePart r c classes va b).s.mem.wf = true := by
  have reached := cardReach_wf h c classes va .wr
  grind [cardWritePart, Run.stop_mem, flushLine_wf, markDirty_wf, plainWrite_wf, markPoisoned_mem]

end

section
variable {s : State} (h : s.mem.wf = true)
include h

theorem spadWrite_wf (pa : Nat) (b : Bytes) : (spadWrite s pa b).mem.wf = true := by
  have written := writeSpad_wf h pa b.data
  unfold spadWrite
  dsimp only
  split
  · refine foldl_wf (fun t k ht => ?_) _ written
    split
    · rwa [markSpad_mem]
    · exact ht
  · exact written

end

section
variable {r : Run} (h : r.s.mem.wf = true)
include h

theorem cardWrite_wf (c : Card) (classes : List Nat) (a : Word64) (b : Bytes) (more : Bool) :
    (cardWrite r c classes a b more).s.mem.wf = true := by
  unfold cardWrite
  split
  · exact h
  · exact spadWrite_wf h ..
  · refine Run.each_wf (fun q a hq => ?_) _ h
    rw [Run.oneLine_mem]
    exact cardWritePart_wf hq ..

theorem copyRun_wf (c : Card) (src dst : Word64) (n : Nat) : (copyRun r c src dst n).s.mem.wf = true := by
  unfold copyRun
  refine Run.each_wf (fun q a hq => ?_) _ h
  obtain ⟨p, k⟩ := a
  have read := cardRead_wf hq c copyClasses (BitVec.ofNat 64 p) k false
  dsimp only
  generalize cardRead q c copyClasses (BitVec.ofNat 64 p) k = v at read ⊢
  exact Run.andThen_wf (fun u hu => cardWrite_wf hu ..) read

theorem runCpy_wf (c : Card) (src dst : Rows) : (runCpy r c src dst).s.mem.wf = true := by
  unfold runCpy
  refine Run.each_wf (fun q k hq => copyRun_wf hq ..) _ ?_
  rwa [Run.check_mem]

end

section
variable {s : State} (h : s.mem.wf = true)
include h

theorem deliverRow_wf (ts : List Nat) (off : Nat) (b : Bytes) : (deliverRow s ts off b).mem.wf = true := by
  unfold deliverRow
  exact foldl_wf (fun t k ht => spadWrite_wf ht ..) _ h

end

section
variable {r : Run} (h : r.s.mem.wf = true)
include h

theorem runCpym_wf (c : Card) (mask : Nat) (src : Rows) (doff : Nat) (dstr : ℤ) :
    (runCpym r c mask src doff dstr).s.mem.wf = true := by
  unfold runCpym
  extract_lets ts live d checked sent
  have started : checked.s.mem.wf = true := by rwa [Run.check_mem]
  refine Run.andThen_wf (fun q hq => ?_) (Run.each_wf (fun q k hq => ?_) _ started)
  · split
    · exact hq
    · exact hq
  · exact Run.andThen_wf (fun u hu => deliverRow_wf hu ..) (cardRead_wf hq ..)

theorem runCpysc_wf (c : Card) (out : Bool) (mem : Word64) (off n : Nat) : (runCpysc r c out mem off n).s.mem.wf = true := by
  unfold runCpysc
  extract_lets x checked
  refine Run.andThen_wf (fun q hq => ?_) (by rwa [Run.check_mem])
  split
  · exact cardWrite_wf (by rwa [noteScaleOf_mem]) ..
  · have read := cardRead_wf hq c copyClasses mem (2 * n) false
    generalize cardRead q c copyClasses mem (2 * n) = v at read ⊢
    refine Run.andThen_wf (fun u hu => ?_) read
    refine foldl_wf (fun t k ht => ?_) _ (by rwa [writeScale_mem])
    split
    · rwa [markScale_mem]
    · exact ht

theorem runXpose_wf (c : Card) (e : Nat) (src dst : Word64) (rows cols : Nat) (sstr dstr : ℤ) :
    (runXpose r c e src dst rows cols sstr dstr).s.mem.wf = true := by
  have started (fs : List (Option (Nat × Word64))) : (r.check fs).s.mem.wf = true := by rwa [Run.check_mem]
  unfold runXpose
  refine Run.each_wf (fun q j hq => cardWrite_wf hq ..) _ (foldl_run_wf (fun q k hq => ?_) _ (started _))
  dsimp only
  split
  · exact hq
  · exact cardRead_wf hq ..

theorem sredElement_wf (c : Card) (op : AtomOp) (sz : MSize) (va : Nat) (v : Bytes) (more : Bool) :
    (sredElement r c op sz va v more).s.mem.wf = true := by
  have reached := cardReach_wf h c sredClasses va .rw
  have read {t : State} (ht : t.mem.wf = true) (pa nl tp : Nat) :
      (physRead (flushLine t c.core (pa / 128)) (some c.core) pa sz.bytes nl tp).1.mem.wf = true :=
    physRead_wf (flushLine_wf ht ..) ..
  grind [sredElement, Run.stop_mem, uncounted_mem, markDirty_wf, plainWrite_wf, markSector_mem]

theorem runSred_wf (c : Card) (op : AtomOp) (sz : MSize) (src dst : Word64) (n : Nat) :
    (runSred r c op sz src dst n).s.mem.wf = true := by
  unfold runSred
  extract_lets z checked sent
  have started : checked.s.mem.wf = true := by rwa [Run.check_mem]
  refine Run.each_wf (fun q k hq => ?_) _ started
  have read := cardRead_wf hq c copyClasses (src + BitVec.ofNat 64 (k * z)) z (decide (0 < k))
  generalize cardRead q c copyClasses (src + BitVec.ofNat 64 (k * z)) z (decide (0 < k)) = v at read ⊢
  exact Run.andThen_wf (fun u hu => sredElement_wf hu ..) read

end

end Sys2Proof.Machine
end

section
/-! SUPPORT. What keeps memory in its form: transfers, calls, launch words and landings. -/

namespace Sys2Proof.Machine

/-- Memory stands in its form in the state with which an attempt goes on, or in the one with which the word ends. -/
def Try.Wf {α : Type} (part : α → State) : Try α → Prop
  | .ok a => (part a).mem.wf = true
  | .stop e => e.state.mem.wf = true

section
variable {s : State} (h : s.mem.wf = true)
include h

theorem callAccess_wf (i : Issuer) (k : AccessKind) (off : Int) :
    (callAccess s i k off).1.mem.wf = true ∧ (callAccess s i k off).2.Wf fun _ => s := by
  unfold callAccess
  extract_lets ga
  have checked := checkLanes_wf h i.x k 16 1#32 fun _ => ga
  split
  · exact ⟨h, h⟩
  · generalize checkLanes s i.x k 16 1#32 (fun _ => ga) = r at checked ⊢
    obtain ⟨t, cs⟩ := r
    dsimp only at checked ⊢
    split
    · exact ⟨checked, checked⟩
    · exact ⟨checked, wf_of_eq (checkTrap_mem ..) checked⟩
    · split
      · exact ⟨checked, checked⟩
      · exact ⟨checked, h⟩
    · exact ⟨checked, checked⟩
    · exact ⟨checked, checked⟩

theorem spillCall_wf (i : Issuer) : (spillCall s i).Wf id := by
  unfold spillCall
  extract_lets x
  split
  · split
    · exact h
    · rename_i off _ _ _ _ _
      have reached := callAccess_wf h i storeKind off
      generalize callAccess s i storeKind off = r at reached ⊢
      obtain ⟨t, _ | _⟩ := r
      · exact wf_of_eq (updWarp_mem ..) (writeTarget_wf reached.1 ..)
      · exact reached.2
  · exact h

theorem callRoom_wf (i : Issuer) : (callRoom s i).Wf id := by
  unfold callRoom
  extract_lets x
  split
  · split
    · exact h
    · exact h
  · exact spillCall_wf h i

theorem pushCall_wf (i : Issuer) (e : Nat) : (pushCall s i e).Wf id := by
  have room := callRoom_wf h i
  unfold pushCall
  generalize callRoom s i = r at room ⊢
  cases r with
  | ok t => exact wf_of_eq (putCall_mem ..) room
  | stop e => exact room

theorem reloadCall_wf (i : Issuer) : (reloadCall s i).Wf Prod.fst := by
  unfold reloadCall
  extract_lets x off
  split
  · exact h
  · have reached := callAccess_wf h i loadKind off
    generalize callAccess s i loadKind off = r at reached ⊢
    obtain ⟨t, target | _⟩ := r
    · have read := readTarget_wf reached.1 x.core 16 .dflt target
      dsimp only
      generalize readTarget t x.core 16 .dflt target = q at read ⊢
      obtain ⟨u, d⟩ := q
      grind [Try.Wf, WordEnd.state, recordGrade_mem, updWarp_mem, countTails_mem]
    · exact reached.2

theorem reconverge_wf (i : Issuer) : (reconverge s i).1.mem.wf = true ∧ (reconverge s i).2.Wf fun _ => s := by
  unfold reconverge
  extract_lets rcv at_
  split
  · exact ⟨h, h⟩
  · have fetched := fetchWord_wf h i.x.core i.x.ctx i.x.asid i.x.handler.isNone at_
    generalize fetchWord s i.x.core i.x.ctx i.x.asid i.x.handler.isNone at_ = r at fetched ⊢
    obtain ⟨t, r⟩ := r
    cases r <;> grind [Try.Wf, WordEnd.state, recordGrade_mem]

theorem divideSplit_wf (i : Issuer) (e : Nat) (t n : Lanes) (taken : Word64) (other : Place) :
    (divideSplit s i e t n taken other).Wf Divided.s := by
  unfold divideSplit
  extract_lets x go
  have divided {u : State} (hu : u.mem.wf = true) (at_ : Option Word64) : (go u at_).Wf Divided.s := by
    unfold go
    cases x.divide e t n taken other at_ with
    | none => exact hu
    | some x' => exact wf_of_eq (updWarp_mem ..) hu
  split
  · exact divided h none
  · have joined := reconverge_wf h i
    generalize reconverge s i = r at joined ⊢
    obtain ⟨u, at_ | _⟩ := r
    · exact divided joined.1 at_
    · exact joined.2

theorem execExit_wf (g : Guard) : EndsWf (execExit g s) :=
  issue_wf h _ fun _ _ ht => wf_of_eq (exitLanes_mem ..) ht

theorem execBrk_wf (g : Guard) (imm : BitVec 16) : EndsWf (execBrk g imm s) := issue_wf h _ fun _ _ ht => ht

theorem execTrap_wf (g : Guard) (imm : BitVec 16) : EndsWf (execTrap g imm s) := issue_wf h _ fun _ _ ht => ht

theorem execBra_wf (g : Guard) (mode : BraMode) (tgt : BitVec 32) : EndsWf (execBra g mode tgt s) := by
  refine issue_wf h _ fun {t} i g ht => ?_
  extract_lets active taken
  have divided := divideSplit_wf ht i i.e taken (active &&& ~~~taken) (headerAt i.b.hdrAt tgt) ⟨i.fall, none⟩
  generalize divideSplit t i i.e _ _ _ _ = r at divided ⊢
  cases r with
  | ok d => exact divided
  | stop e => exact divided

theorem brxStep_wf (i : Issuer) (e : Nat) (div : Bool) (reg : Fin 256) (l : Nat) (left : Lanes) :
    (brxStep s i e div reg l left).2.Wf Divided.s :=
  divideSplit_wf h ..

theorem execBrx_wf (g : Guard) (div : Bool) (reg : Fin 256) : EndsWf (execBrx g div reg s) := by
  refine issue_wf h _ fun {t} i g ht => ?_
  dsimp only
  split
  · exact ht
  · have stepped := brxStep_wf ht i i.e div reg ((lowestLane g).getD 0) g
    generalize brxStep t i i.e div reg ((lowestLane g).getD 0) g = r at stepped ⊢
    obtain ⟨rest, d | e⟩ := r
    · exact stepped
    · exact stepped

theorem execCall_wf (g : Guard) (tgt : BitVec 32) : EndsWf (execCall g tgt s) := by
  refine issue_wf h _ fun {t} i g ht => ?_
  split
  · have pushed := pushCall_wf ht i i.e
    generalize pushCall t i i.e = r at pushed ⊢
    cases r with
    | ok u => exact wf_of_eq (updSplit_mem ..) pushed
    | stop e => exact pushed
  · exact ht

theorem callvMore_wf (i : Issuer) (reg : Fin 256) (n e : Nat) (left : Lanes) :
    (callvMore i reg n s e left).mem.wf = true := by
  induction n generalizing s e left with
  | zero => exact h
  | succ n ih =>
    unfold callvMore
    split
    · exact h
    · split
      · exact h
      · rename_i l _ _
        have stepped := brxStep_wf h i e true reg l left
        generalize brxStep s i e true reg l left = r at stepped ⊢
        obtain ⟨rest, d | _⟩ := r
        · have pushed := pushCall_wf stepped i e
          dsimp only
          generalize pushCall d.s i e = p at pushed ⊢
          cases p with
          | ok t =>
            dsimp only
            split
            · exact ih pushed ..
            · exact pushed
          | stop _ => exact h
        · exact h

theorem execCallv_wf (g : Guard) (div : Bool) (reg : Fin 256) : EndsWf (execCallv g div reg s) := by
  refine issue_wf h _ fun {t} i g ht => ?_
  dsimp only
  split
  · exact ht
  · have first := brxStep_wf ht i i.e div reg ((lowestLane g).getD 0) g
    generalize (brxStep t i i.e div reg ((lowestLane g).getD 0) g).2 = r at first ⊢
    cases r with
    | stop e => exact first
    | ok _ =>
      have room := callRoom_wf ht i
      dsimp only
      generalize callRoom t i = r at room ⊢
      cases r with
      | stop e => exact room
      | ok u =>
        have stepped := brxStep_wf room i i.e div reg ((lowestLane g).getD 0) g
        dsimp only [id] at stepped ⊢
        generalize brxStep u i i.e div reg ((lowestLane g).getD 0) g = q at stepped ⊢
        obtain ⟨rest, d | e⟩ := q
        · have put : (putCall d.s i i.e).mem.wf = true := wf_of_eq (putCall_mem ..) stepped
          dsimp only
          split
          · exact callvMore_wf put ..
          · exact put
        · exact stepped

theorem execRet_wf (g : Guard) : EndsWf (execRet g s) := by
  refine issue_wf h _ fun {t} i g ht => ?_
  dsimp only
  split
  · split
    · split
      · exact ht
      · exact wf_of_eq (exitLanes_mem ..) ht
    · split
      · exact ht
      · split
        · exact ht
        · have reloaded := reloadCall_wf ht i
          generalize reloadCall t i = r at reloaded ⊢
          obtain ⟨u, raised⟩ | e := r
          · exact wf_of_eq (updWarp_mem ..) reloaded
          · exact reloaded
  · exact ht

theorem enqueueItem_wf (l die entry : Nat) (item : List Byte) : (enqueueItem s l die entry item).1.mem.wf = true := by
  grind [enqueueItem, updLaunch_mem, deviceWrite_wf]

theorem execDispatch_wf (g : Guard) (reg aux : Fin 256) (pd : Fin 8) : EndsWf (execDispatch g reg aux pd s) :=
  issue_wf h _ fun _ _ ht => by
    refine wf_of_eq (updWarp_mem ..) (foldl_fst_wf (fun q l hq => ?_) _ (releaseScope_wf ht ..))
    exact enqueueItem_wf hq ..

theorem execRole_wf (g : Guard) (pd : Fin 8) (sb : Fin 64) (r : Fin 8) : EndsWf (execRole g pd sb r s) :=
  issue_wf h _ fun _ _ ht => by
    dsimp only
    grind [WordEnd.state, updWarp_mem]

theorem launchEntry_wf (asid q ra : Nat) (ser : Bool) : (launchEntry s asid q ra ser).1.mem.wf = true := by
  unfold launchEntry
  extract_lets r
  split
  · exact h
  · have written := unitWrite_wf h asid (r.base.toNat + 8 * (r.tail.toNat % 2 ^ r.log2n)) (leBytes 8 (ra + b2n ser))
    generalize unitWrite s asid _ (leBytes 8 (ra + b2n ser)) = w at written ⊢
    obtain ⟨t, _ | _⟩ := w
    · exact written
    · exact wf_of_eq (setQueue_mem ..) written

theorem execLaunch_wf (g : Guard) (ser : Bool) (pd : Fin 8) (sa sb : Fin 64) : EndsWf (execLaunch g ser pd sa sb s) :=
  issue_wf h _ fun _ _ ht => by
    refine wf_of_eq (updWarp_mem ..) ?_
    exact launchEntry_wf (releaseScope_wf ht ..) ..

theorem execWsync_wf (g : Guard) (pd : Fin 8) (sa : Fin 64) : EndsWf (execWsync g pd sa s) :=
  issue_wf h _ fun _ _ ht => by
    dsimp only
    split
    · exact ht
    · refine wf_of_eq (foldl_keeps State.mem (fun u e => ?_) _ _) ?_
      · exact wsyncRelease_mem ..
      · exact wf_of_eq (updWarp_mem ..) ht

theorem landWrite_wf (w n : Nat) : (landWrite s w n).mem.wf = true := by
  grind [landWrite, acquireL1_mem, groupNotes_mem, landRows_mem, updWarp_mem, sendFlit_wf]

end

end Sys2Proof.Machine
end

section
/-! SUPPORT. What keeps memory in its form: matrix cards and the words of the card engine. -/

namespace Sys2Proof.Machine

theorem run_pair_wf {α : Type} {r : Run} (h : r.s.mem.wf = true) (a : α) : (r, a).1.s.mem.wf = true := h

section
variable {s : State} (h : s.mem.wf = true)
include h

end

section
variable {r : Run} (h : r.s.mem.wf = true)
include h

theorem runBload_wf (c : Card) (src : Word64) (stride : ℤ) (b : OpFmt) : (runBload r c src stride b).s.mem.wf = true := by
  unfold runBload
  extract_lets x k n cols scales cleared
  have started : cleared.s.mem.wf = true := wf_of_eq ((clearMacros_mem ..).trans (noteScaleOf_mem ..)) h
  generalize filled : List.foldl _ (cleared, scales.bad) (List.range n) = v
  have loaded : v.1.s.mem.wf = true := by
    rw [← filled]
    refine foldl_run_wf (fun q j hq => ?_) _ (run_pair_wf started _)
    have read := cardRead_wf hq c copyClasses (cols.at j) cols.len false
    refine wf_of_eq (foldl_keeps State.mem (fun t q => ?_) _ _) read
    exact loadBlock_mem ..
  have updated : (updBlock v.1.s c.block fun x => { x with bFmt := some (b.sb, b.len32), bMark := v.2 }).mem.wf = true := by
    rwa [updBlock_mem]
  exact ite_wf (wf_of_eq (countMark_mem ..) updated) updated

theorem runProduct_wf (id : Nat) (c : Card) (sparse : Bool) (src : Word64) (stride : ℤ) (a : OpFmt) (t : TileDesc) :
    (runProduct r id c sparse src stride a t).s.mem.wf = true := by
  unfold runProduct
  refine Run.each_wf (fun q k hq => ?_) _ h
  have read := cardRead_wf hq c copyClasses ((aRows sparse c.arrK src stride a t).at k)
    (aRows sparse c.arrK src stride a t).len false
  generalize cardRead q c copyClasses _ _ = v at read ⊢
  refine Run.andThen_wf (fun u hu => ?_) read
  rwa [feedRow_mem, noteScaleOf_mem]

theorem residualOf_wf (c : Card) (d : Drain) (i cb : Nat) : (residualOf r c d i cb).1.s.mem.wf = true := by
  grind [residualOf, cardRead_wf]

theorem drainSegment_wf (c : Card) (d : Drain) (i cb : Nat) : (drainSegment r c d i cb).1.s.mem.wf = true := by
  unfold drainSegment
  extract_lets x tile bad g z noted
  have read : (residualOf noted c d i cb).1.s.mem.wf = true :=
    residualOf_wf (wf_of_eq (noteSeg_mem ..) h) ..
  generalize residualOf noted c d i cb = v at read ⊢
  exact read

theorem drainPlain_wf (c : Card) (d : Drain) (i cb : Nat) : (drainPlain r c d i cb).s.mem.wf = true := by
  have drained := drainSegment_wf h c d i cb
  unfold drainPlain
  extract_lets z
  generalize drainSegment r c d i cb = v at drained ⊢
  refine Run.andThen_wf (fun q hq => ?_) drained
  extract_lets out
  refine cardWrite_wf ?_ ..
  exact hq

theorem drainBlock_wf (c : Card) (d : Drain) (i cb w : Nat) : (drainBlock r c d i cb w).s.mem.wf = true := by
  unfold drainBlock
  extract_lets z
  generalize drained : List.foldl _ (r, ([] : List Nat), ([] : List Bool)) (List.range w) = v
  have segments : v.1.s.mem.wf = true := by
    rw [← drained]
    refine foldl_run_wf (fun q k hq => ?_) _ (run_pair_wf h _)
    exact drainSegment_wf hq ..
  refine Run.andThen_wf (fun q hq => ?_) segments
  extract_lets bad
  refine Run.andThen_wf (fun u hu => cardWrite_wf hu ..) ?_
  refine cardWrite_wf ?_ ..
  exact hq

theorem drainTile_wf (c : Card) (d : Drain) (rb cb w : Nat) : (drainTile r c d rb cb w).s.mem.wf = true := by
  unfold drainTile
  extract_lets x drained
  have rows : drained.s.mem.wf = true := by
    refine Run.each_wf (fun q i hq => ?_) _ h
    split
    · exact drainPlain_wf hq ..
    · exact drainBlock_wf hq ..
  refine Run.andThen_wf (fun q hq => ?_) rows
  split
  · exact wf_of_eq (foldl_keeps State.mem (fun t k => setTile_mem ..) _ _) hq
  · exact hq

theorem runMdrain_wf (c : Card) (d : Drain) : (runMdrain r c d).s.mem.wf = true := by
  unfold runMdrain
  exact Run.each_wf (fun q rb hq => Run.each_wf (fun u k hu => drainTile_wf hu ..) _ hq) _ h

end

section
variable {s : State} (h : s.mem.wf = true)
include h

theorem sendRow_wf (c : Card) (mask : Nat) (src : Rows) : ∀ u, sendRow s c mask src = some u → u.s.mem.wf = true := by
  unfold sendRow
  extract_lets ts live checked
  have started : checked.s.mem.wf = true := by
    refine wf_of_eq (Run.check_mem ..) ?_
    exact beforeGlobal_wf h c
  have read := cardRead_wf started c copyClasses (src.at c.rows) src.len false
  generalize cardRead checked c copyClasses (src.at c.rows) src.len = v at read ⊢
  intro u sent
  split at sent
  · cases sent
  · split at sent
    · exact Option.some.inj sent ▸ started
    · split at sent
      · cases sent
      · refine Option.some.inj sent ▸ Run.andThen_wf (fun q hq => ?_) read
        have queued : (queueRow q.s live v.2).mem.wf = true := by rwa [queueRow_mem]
        split
        · exact queued
        · exact queued

theorem stepRow_wf (id : Nat) (c : Card) : ∀ u, stepRow s id c = some u → u.mem.wf = true := by
  have sent := sendRow_wf h c
  intro u stepped
  unfold stepRow at stepped
  split at stepped
  · cases stepped
  · split at stepped
    · split at stepped
      · cases stepped
      · obtain ⟨r, row, rfl⟩ := Option.map_eq_some_iff.1 stepped
        rw [keepRow_mem]
        exact sent _ _ r row
    · split at stepped
      · cases stepped
      · obtain ⟨r, row, rfl⟩ := Option.map_eq_some_iff.1 stepped
        rw [keepRow_mem, takeRow_mem row]
        exact h
    · cases stepped

theorem pumpRows_wf (n : Nat) : (pumpRows n s).mem.wf = true := by
  induction n generalizing s with
  | zero => exact h
  | succ n ih =>
    unfold pumpRows
    split
    · rename_i t found
      obtain ⟨⟨k, c⟩, _, stepped⟩ := List.mem_filterMap.1 (List.mem_of_mem_head? found)
      exact ih (stepRow_wf h k c t stepped)
    · exact h

theorem pump_wf : (pump s).mem.wf = true := by
  grind [pump, pumpRows_wf]

theorem dataCard_wf (kind : Nat) (g : Guard) (sd sa : Fin 64) : EndsWf (dataCard kind g sd sa s) :=
  issue_wf h _ fun _ _ ht => wf_of_eq (issueCard_mem ..) ht

theorem execCpy_wf (g : Guard) (sd sa : Fin 64) : EndsWf (execCpy g sd sa s) := dataCard_wf h _ _ _ _

theorem execCpym_wf (g : Guard) (sd sa : Fin 64) : EndsWf (execCpym g sd sa s) := dataCard_wf h _ _ _ _

theorem execCpysc_wf (g : Guard) (sd sa : Fin 64) : EndsWf (execCpysc g sd sa s) := dataCard_wf h _ _ _ _

theorem execXpose_wf (g : Guard) (sd sa : Fin 64) : EndsWf (execXpose g sd sa s) := dataCard_wf h _ _ _ _

theorem execSred_wf (g : Guard) (sd sa : Fin 64) : EndsWf (execSred g sd sa s) := dataCard_wf h _ _ _ _

theorem execBload_wf (g : Guard) (sd sa sb : Fin 64) : EndsWf (execBload g sd sa sb s) :=
  issue_wf h _ fun _ _ ht => wf_of_eq (issueCard_mem ..) ht

theorem execMinit_wf (g : Guard) (sd sa : Fin 64) : EndsWf (execMinit g sd sa s) :=
  issue_wf h _ fun _ _ ht => wf_of_eq (issueCard_mem ..) ht

theorem execMma_wf (g : Guard) (sd sa sb : Fin 64) : EndsWf (execMma g sd sa sb s) :=
  issue_wf h _ fun _ _ ht => wf_of_eq (issueCard_mem ..) ht

theorem execMmasp_wf (g : Guard) (sel : Fin 5) (sd sa sb : Fin 64) (vc : Fin 256) : EndsWf (execMmasp g sel sd sa sb vc s) :=
  issue_wf h _ fun _ _ ht => wf_of_eq (issueCard_mem ..) ht

theorem execMdrain_wf (g : Guard) (sd sa sb sc : Fin 64) : EndsWf (execMdrain g sd sa sb sc s) :=
  issue_wf h _ fun _ _ ht => wf_of_eq (issueCard_mem ..) ht

theorem execAfence_wf (g : Guard) (sd : Fin 64) : EndsWf (execAfence g sd s) :=
  issue_wf h _ fun _ _ ht => wf_of_eq (updWarp_mem ..) ht

theorem execAwaitBatch_wf (g : Guard) (sa : Fin 64) : EndsWf (execAwaitBatch g sa s) :=
  issue_wf h _ fun _ _ ht => wf_of_eq (awaitBody_mem ..) ht

theorem execAwaitAll_wf (g : Guard) : EndsWf (execAwaitAll g s) :=
  issue_wf h _ fun _ _ ht => wf_of_eq (awaitBody_mem ..) ht

theorem execAtest_wf (g : Guard) (pd : Fin 8) (sa : Fin 64) : EndsWf (execAtest g pd sa s) :=
  issue_wf h _ fun _ _ ht => wf_of_eq (atestBody_mem ..) ht

theorem execAtestAll_wf (g : Guard) (pd : Fin 8) : EndsWf (execAtestAll g pd s) :=
  issue_wf h _ fun _ _ ht => wf_of_eq (atestBody_mem ..) ht

end

end Sys2Proof.Machine
end

section
/-! SUPPORT. What keeps memory in its form: matrix arrays, barriers, gangs and the accesses of system words. -/

namespace Sys2Proof.Machine

theorem withTile_wf {s : State} (h : s.mem.wf = true) (sa : Nat) {body : State → Issuer → Lanes → RowDesc → Nat → WordEnd}
    (i : Issuer) (g : Lanes) (keeps : ∀ r tile, (body s i g r tile).state.mem.wf = true) :
    (withTile sa body s i g).state.mem.wf = true := by
  unfold withTile
  extract_lets r x
  split
  · exact h
  · split
    · exact h
    · exact keeps _ _

theorem onBarrier_wf {s : State} (h : s.mem.wf = true) (i : Issuer) (g : Lanes) (bar : Bar) {f : Nat → Barrier → WordEnd}
    (keeps : ∀ k b, (f k b).state.mem.wf = true) : (onBarrier s i g bar f).state.mem.wf = true := by
  unfold onBarrier
  split
  · exact keeps _ _
  · exact h

section
variable {s : State} (h : s.mem.wf = true)
include h

theorem execMarr_wf (g : Guard) (sd : Fin 64) (lg : Fin 4) : EndsWf (execMarr g sd lg s) :=
  issue_wf h _ fun _ _ ht => by
    dsimp only
    split
    · rwa [parkMarr_mem]
    · split
      · exact wf_of_eq ((updWarp_mem ..).trans ((setArrangement_mem ..).trans (markReady_mem ..))) ht
      · exact wf_of_eq ((updWarp_mem ..).trans (markReady_mem ..)) ht

theorem execMread_wf (g : Guard) (d : Fin 256) (sa : Fin 64) : EndsWf (execMread g d sa s) :=
  issue_wf h _ fun i g ht => withTile_wf ht _ i g fun _ _ => wf_of_eq (mreadBody_mem ..) ht

theorem execMreadAnc_wf (g : Guard) (d : Fin 256) (sa : Fin 64) : EndsWf (execMreadAnc g d sa s) :=
  issue_wf h _ fun i g ht => withTile_wf ht _ i g fun _ _ => wf_of_eq (mreadBody_mem ..) ht

theorem execMwrite_wf (g : Guard) (sa : Fin 64) (b : Fin 256) : EndsWf (execMwrite g sa b s) :=
  issue_wf h _ fun i g ht => withTile_wf ht _ i g fun r tile => by
    extract_lets written half
    have words : written.mem.wf = true := foldl_wf (fun t l ht => wf_of_eq (setAcc_mem ..) ht) _ ht
    have first : half.mem.wf = true := ite_wf (wf_of_eq (freshSegment_mem ..) words) words
    exact ite_wf (wf_of_eq (freshSegment_mem ..) first) first

theorem execMwriteAnc_wf (g : Guard) (sa : Fin 64) (b : Fin 256) : EndsWf (execMwriteAnc g sa b s) :=
  issue_wf h _ fun i g ht => withTile_wf ht _ i g fun r tile => by
    refine foldl_wf (fun t l ht => ?_) _ ht
    split
    · rwa [setAnchor_mem]
    · exact ht

theorem execAcgrow_wf (g : Guard) (sd : Fin 64) (n : BitVec 16) : EndsWf (execAcgrow g sd n s) :=
  issue_wf h _ fun _ _ ht => by
    dsimp only
    split
    · exact ht
    · refine wf_of_eq ((updWarp_mem ..).trans (updBlock_mem ..)) (foldl_wf (fun t k ht => ?_) _ ht)
      rwa [setTile_mem]

theorem execAcfree_wf (g : Guard) (sd : Fin 64) (n : BitVec 16) : EndsWf (execAcfree g sd n s) :=
  issue_wf h _ fun _ _ ht => by
    extract_lets x old
    split
    · rwa [lateWord_mem]
    · split
      · exact ht
      · refine wf_of_eq ((lateWord_mem ..).trans (updBlock_mem ..)) (foldl_wf (fun t k ht => ?_) _ ht)
        rwa [setTile_mem]

theorem execBara_wf (g : Guard) (pd : Fin 8) (sc : Fin 64) (bar : Bar) : EndsWf (execBara g pd sc bar s) :=
  issue_wf h _ fun i g ht => onBarrier_wf ht i g bar fun k b => by
    have released := releaseScope_wf ht i.x.core (levelScope bar.lvl)
    dsimp only
    rw [barrierStatus_mem, setBarrier_mem]
    split
    · rwa [acquireScope_mem]
    · exact released

theorem execBarw_wf (g : Guard) (pd : Fin 8) (sc : Fin 64) (bar : Bar) : EndsWf (execBarw g pd sc bar s) :=
  issue_wf h _ fun i g ht => onBarrier_wf ht i g bar fun k b => by
    dsimp only
    split
    · rwa [barrierStatus_mem]
    · split
      · exact ht
      · rwa [barrierStatus_mem, acquireScope_mem]

theorem execBarsRoot_wf (g : Guard) (sd : Fin 64) (bar : Bar) : EndsWf (execBarsRoot g sd bar s) :=
  issue_wf h _ fun i g ht => onBarrier_wf ht i g bar fun _ _ => wf_of_eq (snapshot_mem ..) ht

theorem execBarsOwn_wf (g : Guard) (sd : Fin 64) (bar : Bar) : EndsWf (execBarsOwn g sd bar s) :=
  issue_wf h _ fun i g ht => onBarrier_wf ht i g bar fun _ _ => wf_of_eq (snapshot_mem ..) ht

theorem barq_wf (g : Guard) (sd : Fin 64) (bar : Bar) (f : State → Nat → Barrier → Nat) : EndsWf (barq g sd bar f s) := by
  refine issue_wf h _ fun i g ht => ?_
  split
  · rwa [snapshot_mem]
  · rwa [snapshot_mem]

theorem execBarqRoot_wf (g : Guard) (sd : Fin 64) (bar : Bar) : EndsWf (execBarqRoot g sd bar s) := barq_wf h _ _ _ _

theorem execBarqMem_wf (g : Guard) (sd : Fin 64) (bar : Bar) : EndsWf (execBarqMem g sd bar s) := barq_wf h _ _ _ _

theorem execBarqArr_wf (g : Guard) (sd : Fin 64) (bar : Bar) : EndsWf (execBarqArr g sd bar s) := barq_wf h _ _ _ _

theorem execBarqEarly_wf (g : Guard) (sd : Fin 64) (bar : Bar) : EndsWf (execBarqEarly g sd bar s) := barq_wf h _ _ _ _

theorem execBarqWait_wf (g : Guard) (sd : Fin 64) (bar : Bar) : EndsWf (execBarqWait g sd bar s) := barq_wf h _ _ _ _

theorem barset_wf (g : Guard) (sa : Fin 64) (bar : Bar) (f : State → Nat → Word32 → Barrier → Barrier) :
    EndsWf (barset g sa bar f s) := by
  refine issue_wf h _ fun i g ht => ?_
  split
  · exact wf_of_eq (setBarrier_mem ..) ht
  · exact ht

theorem execBarsetRoot_wf (g : Guard) (sa : Fin 64) (bar : Bar) : EndsWf (execBarsetRoot g sa bar s) := barset_wf h _ _ _ _

theorem execBarsetMem_wf (g : Guard) (sa : Fin 64) (bar : Bar) : EndsWf (execBarsetMem g sa bar s) := barset_wf h _ _ _ _

theorem execBarsetArr_wf (g : Guard) (sa : Fin 64) (bar : Bar) : EndsWf (execBarsetArr g sa bar s) := barset_wf h _ _ _ _

theorem execBarsetEarly_wf (g : Guard) (sa : Fin 64) (bar : Bar) : EndsWf (execBarsetEarly g sa bar s) := barset_wf h _ _ _ _

theorem execBarsetWait_wf (g : Guard) (sa : Fin 64) (bar : Bar) : EndsWf (execBarsetWait g sa bar s) := barset_wf h _ _ _ _

theorem releaseSavedBlock_wf (b : Nat) : (releaseSavedBlock s b).mem.wf = true := by
  unfold releaseSavedBlock
  refine freeBlock_wf ?_ b
  rw [updBlock_mem, dropShare_mem]
  exact releaseL1_wf h _

theorem releaseGang_wf (b : Nat) : (releaseGang s b).mem.wf = true := by
  unfold releaseGang
  extract_lets mates
  split
  · exact foldl_wf (fun t k ht => releaseSavedBlock_wf ht k) _ h
  · exact h

theorem sysCheck_wf (i : Issuer) (g : Lanes) (wr : Bool) (ga : Word64) (n align : Nat) :
    (sysCheck s i g wr ga n align).Wf Prod.fst := by
  unfold sysCheck
  extract_lets fault top
  split
  · exact h
  · split
    · exact h
    · split
      · exact h
      · generalize checked : List.foldl _ (s, ([] : List (Nat × Nat × LaneCheck))) (sysPieces n) = v
        have pieces : v.1.mem.wf = true := by
          rw [← checked]
          refine foldl_fst_wf (fun q p hq => ?_) _ (pair_wf h _)
          exact checkLane_wf hq ..
        dsimp only
        split
        · exact pieces
        · exact wf_of_eq (checkTrap_mem ..) pieces
        · exact pieces

theorem sysAccess_wf (i : Issuer) (g : Lanes) (wr : Bool) (ga : Word64) (n align : Nat)
    {body : State → List (Nat × Nat × Target) → WordEnd}
    (keeps : ∀ {t : State} (ts : List (Nat × Nat × Target)), t.mem.wf = true → (body t ts).state.mem.wf = true) :
    (sysAccess s i g wr ga n align body).state.mem.wf = true := by
  have checked := sysCheck_wf h i g wr ga n align
  unfold sysAccess
  generalize sysCheck s i g wr ga n align = r at checked ⊢
  cases r with
  | ok q =>
    dsimp only
    split
    · exact checked
    · exact keeps _ checked
  | stop e => exact checked

theorem sysDelivery_wf (i : Issuer) (ga : Word64) (ts : List (Nat × Nat × Target)) :
    (sysDelivery s i ga ts).1.mem.wf = true := by
  unfold sysDelivery
  generalize delivered : List.foldl _ (s, Deliv.good []) ts = v
  have read : v.1.mem.wf = true := by
    rw [← delivered]
    refine foldl_fst_wf (fun q p hq => ?_) _ (pair_wf h _)
    exact readTarget_wf hq ..
  dsimp only
  split
  · rwa [recordGrade_mem]
  · exact read

theorem sysRead_wf (i : Issuer) (g : Lanes) (ga : Word64) (ts : List (Nat × Nat × Target)) (seen : List Nat)
    {body : State → List Byte → List Nat → WordEnd}
    (keeps : ∀ {t : State} (b : List Byte) (seen : List Nat), t.mem.wf = true → (body t b seen).state.mem.wf = true) :
    (sysRead s i g ga ts seen body).state.mem.wf = true := by
  have read := sysDelivery_wf h i ga ts
  unfold sysRead
  generalize sysDelivery s i ga ts = v at read ⊢
  dsimp only
  split
  · exact read
  · exact keeps _ _ (wf_of_eq (sysTails_mem ..) read)

theorem sysWrite_wf (i : Issuer) (ts : List (Nat × Nat × Target)) (b : Bytes) : (sysWrite s i ts b).mem.wf = true := by
  unfold sysWrite
  refine foldl_wf (fun t p ht => ?_) _ h
  extract_lets piece written
  have wrote : written.mem.wf = true := writeTarget_wf ht ..
  split
  · split
    · rwa [markSpad_mem]
    · rw [markSector_mem]
      exact flushLine_wf wrote ..
    · exact wrote
  · exact wrote

omit h in
theorem qsaveBody_go_wf (sd sa : Nat) {note : State → Block → State} (image : State → Block → Bytes) (i : Issuer) (g : Lanes)
    (keeps : ∀ x, (note s x).mem.wf = true) (x : Block) : (qsaveBody.go sd sa note image s i g x).state.mem.wf = true := by
  unfold qsaveBody.go
  refine sysAccess_wf (keeps x) _ _ _ _ _ _ fun ts ht => ?_
  rw [statusWord_mem]
  exact sysWrite_wf ht ..

theorem qsaveBody_wf (sd sa : Nat) (holds : Option (Block → List Extent)) {note : State → Block → State}
    (image : State → Block → Bytes) (i : Issuer) (g : Lanes) (keeps : ∀ x, (note s x).mem.wf = true) :
    (qsaveBody sd sa holds note image s i g).state.mem.wf = true := by
  unfold qsaveBody
  extract_lets x
  split
  · split
    · exact h
    · exact qsaveBody_go_wf _ _ _ _ _ keeps _
  · exact qsaveBody_go_wf _ _ _ _ _ keeps _

theorem qloadBody_wf (sd sa head : Nat) (total : Block → List Byte → Option Nat) {install : State → Nat → List Byte → State}
    (i : Issuer) (g : Lanes) (keeps : ∀ {t : State} b bytes, t.mem.wf = true → (install t b bytes).mem.wf = true) :
    (qloadBody sd sa head total install s i g).state.mem.wf = true := by
  unfold qloadBody
  extract_lets ga x
  refine sysAccess_wf h _ _ _ _ _ _ fun ts ht => sysRead_wf ht _ _ _ _ _ fun b seen hu => ?_
  split
  · rwa [statusWord_mem]
  · split
    · rw [statusWord_mem]
      exact keeps _ _ hu
    · refine sysAccess_wf hu _ _ _ _ _ _ fun ts ht => sysRead_wf ht _ _ _ _ _ fun b seen hu => ?_
      rw [statusWord_mem]
      exact keeps _ _ hu

end

end Sys2Proof.Machine
end

section
/-! SUPPORT. What keeps memory in its form: system words, and the events of fetch, traps and cards. -/

namespace Sys2Proof.Machine

section
variable {s : State} (h : s.mem.wf = true)
include h

theorem execTret_wf (g : Guard) : EndsWf (execTret g s) :=
  issue_wf h _ fun _ _ ht => by
    dsimp only
    split
    · exact ht
    · refine wf_of_eq (returnFromTrap_mem ..) (wf_of_eq (endRun_mem ..) ?_)
      split
      · exact wf_of_eq (updBlock_mem ..) ht
      · exact ht

theorem saveWarp_wf (w : Nat) : (saveWarp s w).mem.wf = true := by
  unfold saveWarp
  extract_lets x left marked
  have kept : marked.mem.wf = true :=
    wf_of_eq ((updBlock_mem ..).trans ((clearFocus_mem ..).trans ((orphanCards_mem ..).trans (holdSaved_mem ..)))) h
  refine releaseGang_wf ?_ _
  exact kept

theorem execTretSaved_wf (g : Guard) : EndsWf (execTretSaved g s) :=
  issue_wf h _ fun _ _ ht => by
    split
    · exact saveWarp_wf (wf_of_eq (endRun_mem ..) ht) _
    · exact saveWarp_wf (wf_of_eq (endRun_mem ..) ht) _
    · exact ht

theorem mappingFence_wf (i : Issuer) : (mappingFence s i).mem.wf = true := by
  unfold mappingFence
  rw [acquireScope_mem]
  exact releaseScope_wf (drainEgress_wf (foldl_wf (fun t c ht => releaseL1_wf ht c) _ h)) ..

theorem mappingDone_wf (i : Issuer) (changed : Nat → Bool) : (mappingDone s i changed).mem.wf = true := by
  grind [mappingDone, retranslate_mem, mappingFence_wf]

theorem execTlbiPage_wf (g : Guard) (sa : Fin 64) : EndsWf (execTlbiPage g sa s) :=
  issue_wf h _ fun _ _ ht => mappingDone_wf (wf_of_eq (tlbDrop_mem ..) ht) ..

theorem execTlbiRange_wf (g : Guard) (sa sb : Fin 64) : EndsWf (execTlbiRange g sa sb s) :=
  issue_wf h _ fun _ _ ht => by
    dsimp only
    split
    · exact mappingDone_wf (wf_of_eq (tlbDropRange_mem ..) ht) ..
    · exact ht

theorem execTlbiAsid_wf (g : Guard) : EndsWf (execTlbiAsid g s) :=
  issue_wf h _ fun _ _ ht => by
    refine mappingDone_wf ?_ ..
    exact ht

theorem execGenadv_wf (g : Guard) : EndsWf (execGenadv g s) :=
  issue_wf h _ fun _ _ ht => by
    extract_lets gen fenced advanced dropped
    have kept : advanced.mem.wf = true := wf_of_eq (updCtx_mem ..) (mappingFence_wf ht _)
    have started : dropped.mem.wf = true := kept
    clear_value dropped
    exact started

theorem execDvsave_wf (g : Guard) (sa : Fin 64) : EndsWf (execDvsave g sa s) :=
  issue_wf h _ fun i m ht => sysAccess_wf ht i m _ _ _ _ fun _ hts => sysWrite_wf hts ..

theorem execDvload_wf (g : Guard) (sd sa : Fin 64) : EndsWf (execDvload g sd sa s) :=
  issue_wf h _ fun i m ht =>
    sysAccess_wf ht i m _ _ _ _ fun ts hts => sysRead_wf hts i m _ ts _ fun b seen hu => by
      split
      · rwa [statusWord_mem]
      · exact wf_of_eq ((statusWord_mem ..).trans (updWarp_mem ..)) hu

theorem execSigset_wf (g : Guard) (sa : Fin 64) (n : Fin 4) : EndsWf (execSigset g sa n s) :=
  issue_wf h _ fun _ _ ht => wf_of_eq (updWarp_mem ..) ht

theorem execSigrd_wf (g : Guard) (sd : Fin 64) (n : Fin 4) : EndsWf (execSigrd g sd n s) :=
  issue_wf h _ fun _ _ ht => wf_of_eq (lateWord_mem ..) ht

theorem zeroFrame_wf (pa : Nat) : (zeroFrame s pa).mem.wf = true := by
  have flushed (l : List L1Line) : (l.foldl (fun s l => flushLine s l.core l.line) s).mem.wf = true :=
    foldl_wf (fun t l ht => flushLine_wf ht ..) l h
  unfold zeroFrame
  extract_lets inFrame t
  exact Memory.wf_filter _ (flushed _)

theorem mapftLoop_wf (i : Issuer) (sd va : Nat) (bad : FaultName → Nat → Nat → FaultInfo) (n : Nat) :
    (mapftLoop i sd va bad n s).state.mem.wf = true := by
  induction n generalizing s with
  | zero => exact wf_of_eq (statusWord_mem ..) h
  | succ n ih =>
    have walked := walkBy_wf h (some (coreDie i.x.core)) i.x.ctx va
    unfold mapftLoop
    generalize walkBy s (some (coreDie i.x.core)) i.x.ctx va = r at walked ⊢
    obtain ⟨t, w⟩ := r
    dsimp only at walked ⊢
    cases w with
    | malformed => exact walked
    | lost gw => exact wf_of_eq (recordGrade_mem ..) walked
    | invalid => exact wf_of_eq (statusWord_mem ..) walked
    | leaf at_ e size =>
      dsimp only
      split
      · exact wf_of_eq (statusWord_mem ..) walked
      · split
        · exact wf_of_eq (statusWord_mem ..) walked
        · generalize (if classOf (leafFrame e) < 4 then classOf (leafFrame e) else coreDie i.x.core) = die
          have taken := takeFrame_wf walked die
          generalize takeFrame t die = q at taken ⊢
          obtain ⟨u, _ | f⟩ := q
          · exact wf_of_eq (statusWord_mem ..) taken
          · have swapped := swapEntry_wf (zeroFrame_wf (markDirty_wf taken i.x.core i.x.ctx f) f) at_ e (presentLeaf e f)
            dsimp only
            generalize swapEntry _ at_ e (presentLeaf e f) = v at swapped ⊢
            obtain ⟨v, _ | _⟩ := v
            · dsimp only
              split
              · exact wf_of_eq ((statusWord_mem ..).trans (keepFrame_mem ..)) swapped
              · exact ih (wf_of_eq (keepFrame_mem ..) swapped)
            · refine wf_of_eq ((statusWord_mem ..).trans (retranslate_mem ..)) ?_
              exact ite_wf (mappingFence_wf (wf_of_eq (tlbDrop_mem ..) swapped) _) swapped

theorem execMapft_wf (g : Guard) (sd sa : Fin 64) : EndsWf (execMapft g sd sa s) :=
  issue_wf h _ fun _ _ ht => by
    extract_lets va bad
    split
    · exact ht
    · exact mapftLoop_wf ht ..

theorem execKillw_wf (g : Guard) (sd sa : Fin 64) : EndsWf (execKillw g sd sa s) :=
  issue_wf h _ fun _ _ ht => by
    extract_lets n
    split
    · exact wf_of_eq (statusWord_mem ..) ht
    · split
      · exact killWarp_wf ht ..
      · exact wf_of_eq (statusWord_mem ..) (killWarp_wf ht ..)

theorem execMigr_wf (g : Guard) (sd sa : Fin 64) : EndsWf (execMigr g sd sa s) :=
  issue_wf h _ fun _ _ ht => by
    refine wf_of_eq (statusWord_mem ..) ?_
    split
    · exact wf_of_eq (askMigr_mem ..) ht
    · exact ht

theorem scrubList_wf (pa n : Nat) : (scrubList s pa n).1.mem.wf = true := by
  unfold scrubList
  refine foldl_fst_wf (fun q k hq => ?_) _ (pair_wf h _)
  exact deviceRead_wf hq ..

theorem flushRun_wf (core pa n : Nat) : (flushRun s core pa n).mem.wf = true := foldl_wf (fun _ _ ht => flushLine_wf ht ..) _ h

theorem execScrub_wf (g : Guard) (sd sa sb : Fin 64) : EndsWf (execScrub g sd sa sb s) := by
  refine issue_wf h _ fun i m ht => ?_
  extract_lets ga n
  split
  · exact ht
  · split
    · exact wf_of_eq (statusWord_mem ..) ht
    · split
      · exact wf_of_eq (statusWord_mem ..) ht
      · refine sysAccess_wf ht _ _ _ _ _ _ fun ts hts => ?_
        split
        · exact wf_of_eq (statusWord_mem ..) hts
        · exact wf_of_eq (statusWord_mem ..) (scrubList_wf (flushRun_wf hts ..) ..)

theorem execKeyz_wf (g : Guard) (sa : Fin 64) : EndsWf (execKeyz g sa s) :=
  issue_wf h _ fun _ _ ht => by
    extract_lets k
    split
    · exact ht
    · split
      · exact ht
      · exact foldl_wf (fun t c ht => releaseL1_wf ht c) _ ht

theorem execQsaveRq_wf (g : Guard) (sd sa : Fin 64) : EndsWf (execQsaveRq g sd sa s) :=
  issue_wf h _ fun _ _ ht => qsaveBody_wf ht _ _ _ _ _ _ fun _ => wf_of_eq (noteRow_mem ..) ht

theorem execQsaveMac_wf (g : Guard) (sd sa : Fin 64) : EndsWf (execQsaveMac g sd sa s) :=
  issue_wf h _ fun _ _ ht => qsaveBody_wf ht _ _ _ _ _ _ fun _ => wf_of_eq (noteMacros_mem ..) ht

theorem execQsaveRbq_wf (g : Guard) (sd sa : Fin 64) : EndsWf (execQsaveRbq g sd sa s) :=
  issue_wf h _ fun _ _ ht => qsaveBody_wf ht _ _ _ _ _ _ fun _ => ht

theorem execQloadRq_wf (g : Guard) (sd sa : Fin 64) : EndsWf (execQloadRq g sd sa s) :=
  issue_wf h _ fun _ _ ht => qloadBody_wf ht _ _ _ _ _ _ fun _ _ hu => wf_of_eq (loadRq_mem ..) hu

theorem execQloadMac_wf (g : Guard) (sd sa : Fin 64) : EndsWf (execQloadMac g sd sa s) :=
  issue_wf h _ fun _ _ ht => by
    extract_lets es
    split
    · exact ht
    · exact qloadBody_wf ht _ _ _ _ _ _ fun b bytes hu => wf_of_eq (loadMac_mem ..) hu

theorem execQloadRbq_wf (g : Guard) (sd sa : Fin 64) : EndsWf (execQloadRbq g sd sa s) :=
  issue_wf h _ fun _ _ ht => qloadBody_wf ht _ _ _ _ _ _ fun _ _ hu => wf_of_eq (loadRbq_mem ..) hu

theorem discardLeaf_wf (die slot hi va n : Nat) : (discardLeaf die slot hi va n s).1.mem.wf = true := by
  induction n generalizing s with
  | zero => exact h
  | succ n ih =>
    have walked := walkBy_wf h (some die) slot va
    unfold discardLeaf
    generalize walkBy s (some die) slot va = r at walked ⊢
    obtain ⟨t, w⟩ := r
    cases w with
    | leaf at_ e size =>
      have swapped := swapEntry_wf walked at_ e (e + 2 ^ 8)
      dsimp only
      split
      · generalize swapEntry t at_ e (e + 2 ^ 8) = q at swapped ⊢
        obtain ⟨u, _ | _⟩ := q
        · exact ih swapped
        · exact swapped
      · exact walked
    | invalid => exact walked
    | malformed => exact walked
    | lost gw => exact walked

theorem discardFrom_wf (die slot hi n va k : Nat) : (discardFrom die slot hi n s va k).1.mem.wf = true := by
  induction n generalizing s va k with
  | zero => exact h
  | succ n ih =>
    have left := discardLeaf_wf h die slot hi va (s.races.length + 1)
    unfold discardFrom
    generalize discardLeaf die slot hi va (s.races.length + 1) s = r at left ⊢
    exact ih left ..

theorem execPgdisc_wf (g : Guard) (sd sa sb : Fin 64) : EndsWf (execPgdisc g sd sa sb s) :=
  issue_wf h _ fun _ _ ht => by
    extract_lets va n
    split
    · refine wf_of_eq (statusWord_mem ..) (mappingDone_wf (wf_of_eq (tlbDropRange_mem ..) ?_) ..)
      exact discardFrom_wf ht ..
    · exact wf_of_eq (statusWord_mem ..) ht

theorem trapSplit_wf (w e : Nat) (f : FaultInfo) : (trapSplit s w e f).mem.wf = true := by
  grind [trapSplit, takeTrap_wf]

theorem fetchFault_wf (w e : Nat) (name : FaultName) (cause : Nat) (gw : Word32) (va : Word64) :
    (fetchFault s w e name cause gw va).mem.wf = true := by
  grind [fetchFault, escalate_wf, trapSplit_wf, recordGrade_mem]

theorem fetchSplit_wf (w e : Nat) : (fetchSplit s w e).mem.wf = true := by
  have illegal {t : State} (ht : t.mem.wf = true) (a : Word64) :
      (trapSplit t w e (FaultInfo.uniform .illegal 0 0 a)).mem.wf = true := trapSplit_wf ht ..
  unfold fetchSplit
  extract_lets x p
  split
  · exact trapSplit_wf h ..
  · split
    · exact illegal h _
    · have fetched := fetchBlock_wf h x.core x.ctx x.asid x.handler.isNone x.allot p.blockAt
      generalize fetchBlock s x.core x.ctx x.asid x.handler.isNone x.allot p.blockAt = r at fetched ⊢
      obtain ⟨t, b⟩ := r
      cases b with
      | bad n c gw a => exact fetchFault_wf fetched ..
      | illegal => exact illegal fetched _
      | ok b =>
        dsimp only
        split
        · exact wf_of_eq (updSplit_mem ..) (prefetchHints_wf fetched ..)
        · exact illegal fetched _

theorem execBlockFetch_wf (w : Nat) (e : Fin 4) : EndsWf (execBlockFetch w e s) := next_wf (ite_wf (fetchSplit_wf h ..) h)

theorem execPendingWriteLands_wf (w n : Nat) : EndsWf (execPendingWriteLands w n s) := next_wf (landWrite_wf h ..)

theorem execDeferredFaultTaken_wf (w : Nat) (e : Fin 4) : EndsWf (execDeferredFaultTaken w e s) :=
  next_wf <| by
    extract_lets x
    split
    · split
      · split
        · exact trapSplit_wf (wf_of_eq (updWarp_mem ..) h) ..
        · exact h
      · exact h
    · exact h

theorem execPreemptTaken_wf (w : Nat) (e : Fin 4) : EndsWf (execPreemptTaken w e s) :=
  next_wf <| by
    extract_lets x
    split
    · exact trapSplit_wf (wf_of_eq (updWarp_mem ..) (endLeases_wf h _)) ..
    · exact h

theorem execMigrateTaken_wf (w : Nat) (e : Fin 4) : EndsWf (execMigrateTaken w e s) :=
  next_wf <| by
    extract_lets x
    split
    · split
      · exact trapSplit_wf (wf_of_eq (updWarp_mem ..) h) ..
      · exact h
    · exact h

theorem execCardLaunch_wf (id : Nat) : EndsWf (execCardLaunch id s) :=
  next_wf <| by
    split
    · split
      · refine pump_wf ?_
        exact h
      · exact h
    · exact h

theorem runCard_wf (id : Nat) (c : Card) : (runCard s id c).s.mem.wf = true := by
  unfold runCard
  extract_lets r
  have started : r.s.mem.wf = true := beforeGlobal_wf h c
  split
  · exact started
  · exact started
  · exact started
  · exact started
  · split
    · exact runCpy_wf started ..
    · exact started
    · exact runCpym_wf started ..
    · exact runCpysc_wf started ..
    · exact runXpose_wf started ..
    · exact runSred_wf started ..
    · exact runBload_wf started ..
    · exact wf_of_eq (runMinit_mem ..) started
    · exact started
    · exact runProduct_wf started ..
    · exact runMdrain_wf started ..

theorem mergeSaved_wf (c : Card) (flags : Nat) : (mergeSaved s c flags).mem.wf = true := by
  grind [mergeSaved, updBlock_mem, unitReadNat_wf, unitWrite_wf]

theorem mergeCardFlags_wf (c : Card) (flags : Nat) : (mergeCardFlags s c flags).mem.wf = true := by
  grind [mergeCardFlags, updWarp_mem, mergeSaved_wf, updBlock_mem]

theorem reportCard_wf (id : Nat) (c : Card) (cause : Nat) (a : Word64) : (reportCard s id c cause a).mem.wf = true := by
  grind [reportCard, countOrphanFault_mem, notify_wf, updWarp_mem]

theorem freeCard_wf (id : Nat) : (freeCard s id).mem.wf = true := by
  grind [freeCard, pump_wf, markReady_mem]

omit h in
theorem completeCard_wf (id : Nat) (c : Card) {r : Run} (hr : r.s.mem.wf = true) : (completeCard id c r).mem.wf = true := by
  unfold completeCard
  refine freeCard_wf (wf_of_eq (countTails_mem ..) (mergeCardFlags_wf ?_ ..)) _
  split
  · exact drainEgress_wf hr
  · exact hr

theorem execCardComplete_wf (id : Nat) : EndsWf (execCardComplete id s) :=
  next_wf <| by
    split
    · rename_i c _
      split
      · have ran := runCard_wf h id c
        exact ite_wf h (completeCard_wf id c ran)
      · exact h
    · exact h

theorem failCard_wf (id : Nat) (c : Card) (cause : Nat) (a : Word64) (flags : Nat) (tails : List Nat) :
    (failCard s id c cause a flags tails).mem.wf = true := by
  grind [failCard, countGrade_mem, countTails_mem, mergeCardFlags_wf, freeCard_wf, reportCard_wf, cancelAfter_mem]

theorem execCardFault_wf (id : Nat) : EndsWf (execCardFault id s) :=
  next_wf <| by
    split
    · rename_i c _
      split
      · split
        · exact freeCard_wf h id
        · exact failCard_wf h ..
      · split
        · exact failCard_wf h ..
        · split
          · have ran := runCard_wf h id c
            dsimp only
            split
            · exact failCard_wf ran ..
            · exact h
          · exact h
    · exact h

end

end Sys2Proof.Machine
end

section
/-! SUPPORT. What keeps memory in its form: the events of launch queues, the store, homes, leases and the network. -/

namespace Sys2Proof.Machine

section
variable {s : State} (h : s.mem.wf = true)
include h

theorem readWords_wf (asid va n : Nat) : (readWords s asid va n).1.mem.wf = true := by
  grind [readWords, unitRead_wf]

theorem readLaunch_wf (q asid prio rva : Nat) (ser : Bool) : (readLaunch s q asid prio rva ser).1.mem.wf = true := by
  grind [readLaunch, readWords_wf]

theorem rejectEntry_wf (q code : Nat) (l : Option Launch) : (rejectEntry s q code l).mem.wf = true := by
  unfold rejectEntry
  extract_lets told
  have written : told.mem.wf = true := by
    unfold told
    split
    · split
      · exact h
      · exact writeCompletion_wf h ..
    · exact h
  exact wf_of_eq ((notifyHost_mem ..).trans ((queueError_mem ..).trans (consumeEntry_mem ..))) written

theorem takeLaunch_wf (q : Nat) (t : LaunchText) : (takeLaunch s q t).mem.wf = true := by
  unfold takeLaunch
  extract_lets k taken
  have placed : taken.mem.wf = true := h
  cases launchError taken k t with
  | some c => exact rejectEntry_wf h ..
  | none => exact wf_of_eq (consumeEntry_mem ..) placed

theorem takeEntry_wf (queue : Nat) : (takeEntry s queue).mem.wf = true := by
  unfold takeEntry
  extract_lets r
  split
  · exact h
  · have entry := unitReadNat_wf h r.asid (r.base.toNat + 8 * (r.head.toNat % 2 ^ r.log2n)) 8
    generalize unitReadNat s r.asid (r.base.toNat + 8 * (r.head.toNat % 2 ^ r.log2n)) 8 = q at entry ⊢
    obtain ⟨t, _ | e⟩ := q
    · exact rejectEntry_wf entry ..
    · dsimp only
      split
      · exact h
      · have read := readLaunch_wf entry queue r.asid r.prio (e / 128 * 128) (bitOf e 0)
        generalize readLaunch t queue r.asid r.prio (e / 128 * 128) (bitOf e 0) = v at read ⊢
        obtain ⟨u, v⟩ := v
        cases v with
        | noRecord => exact rejectEntry_wf read ..
        | noTables l => exact ite_wf h (rejectEntry_wf read ..)
        | ok text => exact ite_wf h (ite_wf (rejectEntry_wf read ..) (takeLaunch_wf read ..))

theorem execLqEntryTake_wf (q : Nat) : EndsWf (execLqEntryTake q s) := next_wf (takeEntry_wf h q)

theorem formCallee_wf (k die : Nat) : (formCallee s k die).mem.wf = true := by
  grind [formCallee, queueItems_wf, updLaunch_mem, acquireScope_mem]

theorem execCalleeWarpForm_wf (k : Nat) (die : Fin 4) : EndsWf (execCalleeWarpForm k die s) :=
  next_wf (ite_wf (formCallee_wf h ..) h)

theorem execBlockRetire_wf (b : Nat) : EndsWf (execBlockRetire b s) := next_wf (retireBlock_wf h b)

theorem execLqConfigWrite_wf (q : Nat) (v : BitVec 64) : EndsWf (execLqConfigWrite q v s) :=
  next_wf (wf_of_eq (writeLqConfig_mem ..) (drainHost_wf h))

theorem execLqBaseWrite_wf (q : Nat) (v : BitVec 64) : EndsWf (execLqBaseWrite q v s) :=
  next_wf (wf_of_eq (writeLqBase_mem ..) (drainHost_wf h))

theorem execLqTailWrite_wf (q : Nat) (v : BitVec 32) : EndsWf (execLqTailWrite q v s) :=
  next_wf (wf_of_eq (writeLqTail_mem ..) (drainHost_wf h))

theorem execTerm_wf (q : Nat) : EndsWf (execTerm q s) := next_wf (terminateQueue_wf (drainHost_wf h) _)

theorem execPageWalk_wf (core asid va : Nat) (write : Bool) : EndsWf (execPageWalk core asid va write s) :=
  next_wf <| by
    split
    · exact ite_wf (xlateWalk_wf h ..) h
    · exact h

theorem execFresume_wf (slot : Nat) (seq : BitVec 32) : EndsWf (execFresume slot seq s) :=
  next_wf (wf_of_eq (resumeHostFault_mem ..) (drainHost_wf h))

theorem execFrtailWrite_wf (slot : Nat) (v : BitVec 32) : EndsWf (execFrtailWrite slot v s) :=
  next_wf (writeFrTail_wf (drainHost_wf h) ..)

theorem execDepoch_wf (slot : Nat) : EndsWf (execDepoch slot s) := next_wf (wf_of_eq (beginHarvest_mem ..) (drainHost_wf h))

theorem execHarvestEpochComplete_wf (slot : Nat) : EndsWf (execHarvestEpochComplete slot s) := next_wf (completeHarvest_wf h _)

theorem execContextEnd_wf (slot : Nat) : EndsWf (execContextEnd slot s) :=
  next_wf (ite_wf (wf_of_eq (endContext_mem ..) (drainHost_wf h)) (drainHost_wf h))

theorem execApply_wf (die : Fin 4) (v : BitVec 64) : EndsWf (execApply die v s) :=
  next_wf (wf_of_eq (writeSplit_mem ..) (drainHost_wf h))

theorem execApplyWithdraw_wf (die : Fin 4) : EndsWf (execApplyWithdraw die s) :=
  next_wf (ite_wf (wf_of_eq (writeSplit_mem ..) (drainHost_wf h)) (drainHost_wf h))

theorem applySplit_wf (die : Nat) : (applySplit s die).mem.wf = true := by
  unfold applySplit
  extract_lets p
  split
  · exact Memory.wf_filter _ (wf_of_eq (emptyStore_mem ..) h)
  · exact h

theorem execSplitApplied_wf (die : Fin 4) : EndsWf (execSplitApplied die s) := next_wf (applySplit_wf h _)

theorem serveLine_wf (core : Option Nat) (pa : Nat) (write : Bool) (nl : Nat) :
    (serveLine s core pa write nl).mem.wf = true := by
  grind [serveLine, maskedSector_wf, readSector_wf]

theorem resendLine_wf (t : HomeTag) (write : Bool) : (resendLine s t write).mem.wf = true := by
  grind [resendLine, xlate_wf, serveLine_wf]

theorem execHomeAccess_wf (pa : Nat) (req : LineRequest) (nl : Fin 8) : EndsWf (execHomeAccess pa req nl s) :=
  next_wf <| by
    split
    · exact serveLine_wf h ..
    · split
      · exact h
      · exact h
      · exact ite_wf (serveLine_wf h ..) (resendLine_wf h ..)

theorem writeReport_wf (slot : Nat) (b : List Byte) : (writeReport s slot b).mem.wf = true := by
  grind [writeReport, updCtx_mem, drainEgress_wf, deviceWrite_wf]

theorem endWindow_wf (rank die : Nat) : (endWindow s rank die).mem.wf = true := by
  grind [endWindow, writeReport_wf]

theorem execMissRatioWindowEnd_wf (rank : Nat) (die : Fin 4) : EndsWf (execMissRatioWindowEnd rank die s) :=
  next_wf (endWindow_wf h ..)

theorem execHomeAtomic_wf (core pa : Nat) (op : AtomOp) (sz : MSize) (x : BitVec 64) :
    EndsWf (execHomeAtomic core pa op sz x s) :=
  next_wf <| by
    split
    · exact h
    · extract_lets e nl charged
      have started : charged.mem.wf = true := wf_of_eq ((chargeHome_mem ..).trans (reachHome_mem ..)) h
      have read := readSector_wf started (some (core % 256)) pa sz.bytes nl 2
      generalize readSector charged (some (core % 256)) pa sz.bytes nl 2 = q at read ⊢
      exact ite_wf read (wf_of_eq (uncounted_mem ..) (writeSector_wf read ..))

theorem execKvOpAtHome_wf (asid : Nat) (die : Fin 4) (op : KvOp) : EndsWf (execKvOpAtHome asid die op s) :=
  next_wf <| by
    cases op with
    | find key => exact ite_wf (wf_of_eq (kvFind_mem ..) h) h
    | put key pin => exact ite_wf (kvPut_wf h ..) h
    | drop key => exact ite_wf (wf_of_eq (kvDrop_mem ..) h) h
    | dropTensor t => exact wf_of_eq (kvDropTensor_mem ..) h

theorem holderRoom_wf (core line : Nat) : (holderRoom s core line).1.mem.wf = true := by
  grind [holderRoom, leaseRoom_wf]

theorem execLeaseGrant_wf (core line : Nat) : EndsWf (execLeaseGrant core line s) :=
  next_wf <| by
    extract_lets pa core
    split
    · have room := holderRoom_wf h core line
      generalize holderRoom s core line = q at room ⊢
      obtain ⟨t, _ | _⟩ := q
      · exact room
      · exact wf_of_eq ((grantLease_mem ..).trans (reachHome_mem ..)) room
    · exact h

theorem giveUpLease_wf (line : Nat) (how : LeaseEnd) : (giveUpLease s line how).mem.wf = true := by
  grind [giveUpLease, endLease_mem, flushLine_wf]

theorem execLeaseEnd_wf (core line : Nat) : EndsWf (execLeaseEnd core line s) := next_wf (ite_wf (giveUpLease_wf h ..) h)

theorem execLeaseRecall_wf (core line : Nat) : EndsWf (execLeaseRecall core line s) := next_wf (ite_wf h (giveUpLease_wf h ..))

theorem loseLease_wf (l : Lease) : (loseLease s l).mem.wf = true := by
  have returned : (s.mem.setBytes (l.line * 128) l.granted).wf = true := Memory.wf_setBytes _ _ h
  unfold loseLease
  extract_lets pa held ended dropped mark marked
  have kept : marked.mem.wf = true :=
    wf_of_eq ((setSector_mem ..).trans ((setSector_mem ..).trans ((l1Drop_mem ..).trans (endLease_mem ..)))) returned
  exact ite_wf kept (wf_of_eq (countGrade_mem ..) kept)

theorem execLeaseExpiry_wf (line : Nat) : EndsWf (execLeaseExpiry line s) :=
  next_wf <| by
    split
    · exact loseLease_wf h _
    · exact h

theorem execNetControlWrite_wf (off : Nat) (v : BitVec 64) : EndsWf (execNetControlWrite off v s) :=
  next_wf (wf_of_eq (writeNetReg_mem ..) (drainHost_wf h))

theorem execInjectorArm_wf (i : Nat) : EndsWf (execInjectorArm i s) :=
  next_wf (ite_wf (wf_of_eq (armInjector_mem ..) (drainHost_wf h)) (drainHost_wf h))

theorem execHostPostedWrite_wf (off : Nat) (data : List Byte) (relaxed : Bool) :
    EndsWf (execHostPostedWrite off data relaxed s) :=
  next_wf (ite_wf (performHostWrite_wf h _) h)

theorem hostReadPart_wf (p n : Nat) : (hostReadPart s p n).1.mem.wf = true := by
  grind [hostReadPart, readSector_wf, freshBytes_mem]

theorem hostReadMem_wf (off n : Nat) : (hostReadMem s off n).1.mem.wf = true := by
  unfold hostReadMem
  refine foldl_fst_wf (fun q a hq => ?_) _ (pair_wf h _)
  exact hostReadPart_wf hq ..

theorem execHostRead_wf (off n : Nat) : EndsWf (execHostRead off n s) :=
  next_wf <| by
    have drained := drainHost_wf h
    extract_lets t
    have got : (if off < barZero then hostReadMem t off n else (t, leBytes n (devRead t (off - barZero) n))).1.mem.wf = true := by
      split
      · exact hostReadMem_wf drained ..
      · exact drained
    generalize (if off < barZero then hostReadMem t off n else (t, leBytes n (devRead t (off - barZero) n))) = q at got ⊢
    exact got

theorem execDeviceRegisterAccess_wf (off size : Nat) (v : BitVec 128) : EndsWf (execDeviceRegisterAccess off size v s) :=
  next_wf (devWrite_wf (drainHost_wf h) ..)

theorem execHostEgress_wf : EndsWf (execHostEgress s) := next_wf (egressOne_wf h)

theorem peerRead_wf (who p n : Nat) : (peerRead s who p n).1.mem.wf = true := by
  unfold peerRead
  refine foldl_fst_wf (fun q a hq => ?_) _ (pair_wf h _)
  obtain ⟨t, bs⟩ := q
  obtain ⟨q, k⟩ := a
  have read := readSector_wf hq (some who) q k (ownNl t q) 2
  dsimp only
  generalize readSector t (some who) q k (ownNl t q) 2 = v at read ⊢
  split
  · exact read
  · exact hq

theorem peerWrite_wf (who p : Nat) (bs : List Byte) : (peerWrite s who p bs).mem.wf = true := by
  unfold peerWrite
  refine foldl_wf (fun t a ht => ?_) _ h
  dsimp only
  split
  · exact writeSector_wf ht ..
  · exact ht

theorem peerAtomic_wf (who p : Nat) (op : AtomOp) (sz : MSize) (x : BitVec 64) :
    (peerAtomic s who p op sz x).1.mem.wf = true := by
  unfold peerAtomic
  split
  · exact h
  · have read := readSector_wf h (some who) p sz.bytes (ownNl s p) 2
    generalize readSector s (some who) p sz.bytes (ownNl s p) 2 = q at read ⊢
    dsimp only
    split
    · exact read
    · exact wf_of_eq (uncounted_mem ..) (writeSector_wf read ..)

theorem peerCas_wf (who p : Nat) (sz : MSize) (old new : BitVec 64) : (peerCas s who p sz old new).1.mem.wf = true := by
  unfold peerCas
  extract_lets n
  split
  · exact h
  · have read := readSector_wf h (some who) p n (ownNl s p) 2
    generalize readSector s (some who) p n (ownNl s p) 2 = q at read ⊢
    dsimp only
    split
    · exact read
    · exact wf_of_eq (uncounted_mem ..) (writeSector_wf read ..)

theorem peerServe_wf (pkg p : Nat) (op : PeerOp) : (peerServe s pkg p op).1.mem.wf = true := by
  cases op with
  | read n => exact peerRead_wf h ..
  | write bs => exact peerWrite_wf h ..
  | atomic op sz x => exact peerAtomic_wf h ..
  | cas sz old new => exact peerCas_wf h ..
  | lease => exact wf_of_eq (peerLease_mem ..) h

theorem execPeerRequest_wf (pkg asid pa : Nat) (op : PeerOp) : EndsWf (execPeerRequest pkg asid pa op s) :=
  next_wf <| by
    extract_lets who
    have served : (if who.isSome = true then peerServe s pkg (peerLocal pa) op else (s, [])).1.mem.wf = true := by
      split
      · exact peerServe_wf h ..
      · exact h
    generalize (if who.isSome = true then peerServe s pkg (peerLocal pa) op else (s, [])) = q at served ⊢
    exact wf_of_eq (replyOver_mem ..) served

end

end Sys2Proof.Machine
end

section
/-! SUPPORT. What keeps memory in its form: the events of contexts, power, temperature and reset. -/

namespace Sys2Proof.Machine

section
variable {s : State} (h : s.mem.wf = true)
include h

theorem execPre_wf (slot : Nat) : EndsWf (execPre slot s) := next_wf (beginPre_wf (drainHost_wf h) _)

theorem completePre_wf (slot : Nat) : (completePre s slot).mem.wf = true := by
  unfold completePre
  refine settlePreempt_wf (foldl_wf (fun t b ht => ?_) _ h) _
  exact ite_wf (releaseGang_wf ht b) ht

theorem execPreemptComplete_wf (slot : Nat) : EndsWf (execPreemptComplete slot s) := next_wf (completePre_wf h _)

theorem execRes_wf (slot : Nat) : EndsWf (execRes slot s) := next_wf (wf_of_eq (beginRes_mem ..) (drainHost_wf h))

theorem restoreWarp_wf (sv : Saved) (n : Nat) : (restoreWarp sv s n).mem.wf = true := by
  unfold restoreWarp
  extract_lets key l slot c started seated who mine _table back f held placed told
  have kept : told.mem.wf = true := wf_of_eq (updCtx_mem ..) h
  exact ite_wf kept (killNow_wf kept ..)

theorem readmit_wf (r : Saved) : (readmit s r).mem.wf = true := by
  unfold readmit
  extract_lets l b back seated ready restored
  have started : seated.mem.wf = true := h
  have opened : ready.mem.wf = true := ite_wf started (wf_of_eq ((addBarriers_mem ..).trans (openArrays_mem ..)) started)
  have warps : restored.mem.wf = true := foldl_wf (fun t n ht => restoreWarp_wf ht r n) _ opened
  exact ite_wf warps (wf_of_eq (rejoinBarriers_mem ..) warps)

theorem execSavedBlockReadmit_wf (slot : Nat) : EndsWf (execSavedBlockReadmit slot s) :=
  next_wf <| by
    split
    · exact wf_of_eq (settleResume_mem ..) (readmit_wf h _)
    · exact h

theorem physBytes_wf (pa n : Nat) : (physBytes s pa n).1.mem.wf = true := by
  grind [physBytes, deviceDeliv_wf]

theorem importQueue_wf (pa : Nat) : (importQueue s pa).1.mem.wf = true := by
  unfold importQueue
  have head := physBytes_wf h pa 16
  generalize physBytes s pa 16 = q at head ⊢
  exact physBytes_wf head ..

theorem importRecord_wf (pa : Nat) : (importRecord s pa).1.mem.wf = true := by
  have head := physBytes_wf h pa 256
  unfold importRecord
  generalize physBytes s pa 256 = q at head ⊢
  dsimp only
  generalize got : physBytes q.1 (pa + 256) _ = v
  have body : v.1.mem.wf = true := got ▸ physBytes_wf head ..
  refine foldl_fst_wf (fun u k hu => ?_) _ (pair_wf body [])
  exact importQueue_wf hu _

theorem importImage_wf (pa : Nat) : (importImage s pa).1.mem.wf = true := by
  have head := physBytes_wf h pa 64
  unfold importImage
  generalize physBytes s pa 64 = q at head ⊢
  dsimp only
  split
  · exact head
  · refine foldl_fst_wf (fun u k hu => ?_) _ (pair_wf head _)
    exact importRecord_wf hu _

theorem importLaunch_wf (q asid prio : Nat) (r : ImportRecord) : (importLaunch s q asid prio r).1.mem.wf = true := by
  unfold importLaunch
  exact readWords_wf (readWords_wf h ..) ..

/-- The items of the record's dispatch queues go back into their queues (R452). -/
theorem refill_wf (k : Nat) (qs : List ImportQueue) :
    (qs.foldl (fun s q => q.items.foldl (fun s i => (enqueueItem s k q.die q.entry i).1) s) s).mem.wf = true :=
  foldl_wf (fun _ q ht => foldl_wf (fun _ _ hu => enqueueItem_wf hu ..) q.items ht) qs h

theorem importOne_wf (avoid : List Nat) (rt : ImportRecord × LaunchText) (t : State) (done : importOne avoid s rt = some t) :
    t.mem.wf = true := by
  obtain ⟨rec, text⟩ := rt
  unfold importOne at done
  dsimp only at done
  split at done
  · cases done
  · obtain ⟨u, placed, rfl⟩ := Option.map_eq_some_iff.1 done
    obtain ⟨v, callees, sets⟩ := Option.bind_eq_some_iff.1 placed
    have kept : u.mem.wf = true := by
      rw [importSets_mem sets, reserveCallees_mem callees]
      exact h
    have filled := refill_wf kept s.nextId rec.dqs
    exact ite_wf filled (wf_of_eq (openRanges_mem ..) filled)

omit h in
theorem importEach_wf (avoid : List Nat) (go : List (ImportRecord × LaunchText)) {o : Option State}
    (started : ∀ t, o = some t → t.mem.wf = true) :
    ∀ t, go.foldl (fun r x => r.bind fun s => importOne avoid s x) o = some t → t.mem.wf = true := by
  induction go generalizing o with
  | nil => exact started
  | cons x go ih =>
    refine ih fun t done => ?_
    obtain ⟨u, before, one⟩ := Option.bind_eq_some_iff.1 done
    exact importOne_wf (started u before) _ _ _ one

theorem importAll_wf (slot : Nat) : (importAll s slot).mem.wf = true := by
  unfold importAll
  extract_lets c q
  split
  · exact wf_of_eq (endImport_mem ..) h
  · split
    · exact wf_of_eq (endImport_mem ..) h
    · have image := importImage_wf h (c.impbase * 4096)
      generalize importImage s (c.impbase * 4096) = v at image ⊢
      obtain ⟨t, _ | rs⟩ := v
      · exact wf_of_eq (endImport_mem ..) image
      · dsimp only
        generalize launches : List.foldl _ (t, ([] : List (ImportRecord × LaunchText × Bool))) rs = w
        have read : w.1.mem.wf = true := by
          rw [← launches]
          refine foldl_fst_wf (fun u r hu => ?_) _ (pair_wf image _)
          exact importLaunch_wf hu c.impq c.asid q.prio r
        split
        · exact wf_of_eq (endImport_mem ..) read
        · split
          · exact wf_of_eq (endImport_mem ..) read
          · split
            · exact wf_of_eq (endImport_mem ..) read
            · rename_i done
              have kept := importEach_wf _ _ (fun t same => Option.some.inj same ▸ read) _ done
              exact wf_of_eq ((updCtx_mem ..).trans ((endImport_mem ..).trans (setQueue_mem ..))) kept

theorem execImpgo_wf (slot : Nat) : EndsWf (execImpgo slot s) := next_wf (importAll_wf (drainHost_wf h) _)

theorem writeSummary_wf : (writeSummary s).mem.wf = true := by
  grind [writeSummary, deviceWrite_wf]

theorem execRsgo_wf : EndsWf (execRsgo s) := next_wf (ite_wf h (writeSummary_wf (drainHost_wf h)))

theorem scrubCore_wf (core : Nat) : (scrubCore s core).mem.wf = true := by
  unfold scrubCore
  extract_lets zeroed tiles bare
  have started : zeroed.mem.wf = true := wf_of_eq (clearRegs_mem ..) h
  refine clearSpad_wf (wf_of_eq ((clearScale_mem ..).trans (clearMacros_mem ..)) ?_) ..
  exact foldl_wf (fun t k ht => wf_of_eq (setTile_mem ..) ht) _ started

theorem scrubEntry_wf (w : Word64) : (scrubEntry s w).mem.wf = true := by
  grind [scrubEntry, zeroFrame_wf, scrubCore_wf]

theorem finishScrub_wf : (finishScrub s).mem.wf = true := by
  grind [finishScrub, notifyHost_mem, notify_wf]

theorem scrubNext_wf : (scrubNext s).mem.wf = true := by
  grind [scrubNext, scrubEntry_wf, finishScrub_wf]

theorem execScrubComplete_wf : EndsWf (execScrubComplete s) := next_wf (scrubNext_wf h)

theorem throttleRecord_wf (slot i level : Nat) : (throttleRecord s slot i level).mem.wf = true := by
  grind [throttleRecord, updCtx_mem, notify_wf]

theorem reportLevel_wf (slot i level : Nat) : (reportLevel s slot i level).mem.wf = true := by
  grind [reportLevel, throttleRecord_wf, updCtx_mem]

theorem refreshLevel_wf (i was : Nat) : (refreshLevel s i was).mem.wf = true := by
  unfold refreshLevel
  extract_lets old lv t
  have kept : t.mem.wf = true := wf_of_eq (updIsland_mem ..) h
  split
  · exact foldl_wf (fun u k hu => reportLevel_wf hu ..) _ kept
  · exact kept

theorem flushThrottled_wf (slot : Nat) : (flushThrottled s slot).mem.wf = true := by
  unfold flushThrottled
  refine foldl_wf (fun t a ht => ?_) _ h
  dsimp only
  split
  · exact ite_wf (throttleRecord_wf ht ..) ht
  · exact ht

theorem clearEpoch_wf (m : EpochMeasure) : (clearEpoch s m).mem.wf = true := by
  unfold clearEpoch
  extract_lets charged e g _power now was granted flushed
  have started : now.mem.wf = true := wf_of_eq ((setNow_mem ..).trans (chargeEnergy_mem ..)) h
  have set_ : granted.mem.wf = true := foldl_wf (fun t i ht => wf_of_eq (setGrant_mem ..) ht) _ started
  exact foldl_wf (fun t i ht => refreshLevel_wf ht ..) _ (foldl_wf (fun t k ht => flushThrottled_wf ht k) _ set_)

theorem execEpochClearing_wf (m : EpochMeasure) : EndsWf (execEpochClearing m s) := next_wf (ite_wf h (clearEpoch_wf h m))

theorem execNearThresholdWindow_wf (i stalled cycles : Nat) : EndsWf (execNearThresholdWindow i stalled cycles s) :=
  next_wf <| by
    extract_lets i x t
    have kept : t.mem.wf = true := h
    split
    extract_lets ntreq
    split
    · exact refreshLevel_wf (wf_of_eq (updIsland_mem ..) kept) ..
    · exact ite_wf (wf_of_eq (updIsland_mem ..) kept) kept

theorem execFastThrottleSample_wf (q : Fin 16) (m : PowerSample) : EndsWf (execFastThrottleSample q m s) :=
  next_wf <| by
    refine foldl_wf (fun t i ht => ?_) _ h
    exact refreshLevel_wf (wf_of_eq (updIsland_mem ..) ht) ..

theorem thermalRecord_wf (core aux : Nat) : (thermalRecord s core aux).mem.wf = true :=
  foldl_wf (fun _ _ ht => notify_wf ht ..) _ h

theorem warnCore_wf (core : Nat) (entry : Bool) : (warnCore s core entry).mem.wf = true := by
  grind [warnCore, thermalRecord_wf]

theorem stopIsland_wf (i : Nat) : (stopIsland s i).mem.wf = true := by
  unfold stopIsland
  extract_lets cores stilled
  split
  · exact h
  · exact wf_of_eq (updIsland_mem ..) (foldl_wf (fun t c ht => releaseL1_wf (endLeases_wf ht c) c) _ h)

theorem readIsland_wf (i t : Nat) : (readIsland s i t).mem.wf = true := by
  grind [readIsland, updIsland_mem, stopIsland_wf, restartIsland_mem, refreshLevel_wf]

theorem execThermalReading_wf (core : Nat) (temp : BitVec 10) (t : Nat) : EndsWf (execThermalReading core temp t s) :=
  next_wf <| by
    extract_lets p flushed counted was w noted read
    have started : flushed.mem.wf = true := foldl_wf (fun t k ht => flushThrottled_wf ht k) _ (wf_of_eq (setNow_mem ..) h)
    clear_value flushed
    have warned : noted.mem.wf = true := started
    have island : read.mem.wf = true := readIsland_wf warned ..
    split
    · exact ite_wf (warnCore_wf island ..) island
    · exact island

theorem emptyCore_wf (core : Nat) : (emptyCore s core).mem.wf = true := by
  grind [emptyCore, releaseL1_wf, endLeases_wf]

theorem endMove_wf (m : Move) : (endMove s m).mem.wf = true := by
  unfold endMove
  extract_lets other emptied exchanged caught resumed killed told i
  have empty : emptied.mem.wf = true := emptyCore_wf (emptyCore_wf h _) _
  have back : resumed.mem.wf = true :=
    wf_of_eq ((resumeMoved_mem ..).trans ((barriersCatchUp_mem ..).trans (exchangePhys_mem ..))) empty
  have kills : killed.mem.wf = true := foldl_wf (fun t k ht => killNow_wf ht ..) _ back
  have record : told.mem.wf = true := thermalRecord_wf kills ..
  exact pump_wf (ite_wf (refreshLevel_wf (stopIsland_wf record _) ..) record)

theorem execThermalMigrationComplete_wf (core : Nat) : EndsWf (execThermalMigrationComplete core s) :=
  next_wf <| by
    split
    · exact ite_wf (endMove_wf h _) h
    · exact h

/-- What a reset or a loss of power keeps of memory is a filter of it (R403). -/
theorem keepMem_wf (p : Nat → Bool) (t : State) : (keepMem s p t).mem.wf = true := Memory.wf_filter _ h

theorem losePower_wf : (losePower s).mem.wf = true := keepMem_wf h ..

theorem warmReset_wf : (warmReset s).mem.wf = true := by
  unfold warmReset
  refine keepMem_wf (foldl_wf (fun t l ht => ?_) _ h) ..
  exact wf_of_eq (dropLine_mem ..) ht

theorem execMeasuredBoot_wf (fw cfg : List Byte) (later : List (Nat × BitVec 256)) :
    EndsWf (execMeasuredBoot fw cfg later s) :=
  next_wf (wf_of_eq (bootFrom_mem ..) (warmReset_wf h))

theorem execPowerLoss_wf : EndsWf (execPowerLoss s) := next_wf (losePower_wf h)

end

end Sys2Proof.Machine
end

section
/-! SUPPORT. Every word, every event and every step keeps memory in its form. -/

namespace Sys2Proof.Machine

section
variable {s : State} (h : s.mem.wf = true)
include h

theorem execSets_wf (g : Guard) (ty : Ty) (code : BitVec 8) (a : Src) : EndsWf (execSets g ty code a s) :=
  issue_wf h _ fun _ _ ht => by
    extract_lets waits
    split
    · exact ht
    · exact wf_of_eq (updWarp_mem ..) ht

theorem execWaitneRecheck_wf (w : Nat) (e : Fin 4) : EndsWf (execWaitneRecheck w e s) :=
  next_wf <| by
    extract_lets x
    split
    · extract_lets t
      have kept : t.mem.wf = true := wf_of_eq (updSplit_mem ..) h
      exact ite_wf (ite_wf (wf_of_eq (beginRun_mem ..) kept) kept) h
    · exact h

theorem execQuarterRunSelect_wf (core : Nat) (quarter : Fin 4) : EndsWf (execQuarterRunSelect core quarter s) :=
  next_wf <| by
    split
    · exact h
    · split
      split
      · split
        · exact wf_of_eq (beginRun_mem ..) h
        · exact h
      · exact h

theorem execBarrierWake_wf (bar : Nat) : EndsWf (execBarrierWake bar s) := next_wf (wf_of_eq (wakeBarrier_mem ..) h)

theorem execMessageArrive_wf (k : Nat) : EndsWf (execMessageArrive k s) := next_wf (wf_of_eq (receiveHead_mem ..) h)

theorem execPlacementDecision_wf : EndsWf (execPlacementDecision s) := next_wf (wf_of_eq (decide1_mem ..) h)

theorem execGangHeld_wf (k t : Nat) : EndsWf (execGangHeld k t s) :=
  next_wf (wf_of_eq ((updLaunch_mem ..).trans (setNow_mem ..)) h)

theorem execHbmFill_wf (line : Nat) : EndsWf (execHbmFill line s) := next_wf (ite_wf (wf_of_eq (touchLine_mem ..) h) h)

theorem execNetEntryReceive_wf (k : Nat) (room crcOk : Bool) (idErr : Fin 3) :
    EndsWf (execNetEntryReceive k room crcOk idErr s) :=
  next_wf (wf_of_eq (receiveHead_mem ..) h)

theorem execNetResend_wf (k : Nat) : EndsWf (execNetResend k s) :=
  next_wf <| by
    split
    · exact ite_wf (wf_of_eq ((resendWindow_mem ..).trans (takeTurn_mem ..)) h) h
    · exact h

theorem execNetAckTimeout_wf (k : Nat) : EndsWf (execNetAckTimeout k s) :=
  next_wf <| by
    split
    · exact ite_wf (wf_of_eq ((refuseHead_mem ..).trans (takeTurn_mem ..)) h) h
    · exact h

theorem execDeadlockProbe_wf (k : Nat) : EndsWf (execDeadlockProbe k s) := next_wf h

theorem execProbeLost_wf (k : Nat) : EndsWf (execProbeLost k s) := next_wf h

theorem execPeerUnreachable_wf (pkg : Nat) (down : Bool) : EndsWf (execPeerUnreachable pkg down s) := next_wf h

theorem execProbeReturn_wf (k : Nat) (cycle : List Nat) : EndsWf (execProbeReturn k cycle s) :=
  next_wf <| by
    split
    · split
      · exact wf_of_eq (stepCycle_mem ..) h
      · exact h
    · exact h

theorem execInjectorFire_wf (i k : Nat) : EndsWf (execInjectorFire i k s) :=
  next_wf <| by
    extract_lets j
    split
    · exact ite_wf (wf_of_eq ((resendWindow_mem ..).trans (takeTurn_mem ..)) h) h
    · exact h

theorem execBankFailed_wf (k : Nat) : EndsWf (execBankFailed k s) := next_wf (ite_wf h (wf_of_eq (declareBank_mem ..) h))

theorem execSpareSubstitute_wf (k : Nat) : EndsWf (execSpareSubstitute k s) := next_wf (ite_wf h h)

theorem execOperatingPointChange_wf (i : Nat) : EndsWf (execOperatingPointChange i s) := next_wf (wf_of_eq (updIsland_mem ..) h)

theorem execCapCommand_wf (pcap acap : Nat) (seq : BitVec 32) : EndsWf (execCapCommand pcap acap seq s) := next_wf (ite_wf h h)

theorem execThermalMigrationStart_wf (core : Nat) : EndsWf (execThermalMigrationStart core s) :=
  next_wf <| by
    split
    · exact ite_wf (wf_of_eq (startMove_mem ..) h) h
    · exact h

theorem execAttestationRequest_wf (nonce : List Byte) : EndsWf (execAttestationRequest nonce s) := next_wf (ite_wf h h)

theorem execLifetimeFold_wf : EndsWf (execLifetimeFold s) := next_wf (ite_wf h h)

omit h in
theorem registerEnd_wf {ws : WordSpec} {raising : Bool} {t : State} {w : Nat} {g : Lanes} {r : WordEnd}
    (ht : t.mem.wf = true) (ends : RegisterEnd ws raising t w g r) : r.state.mem.wf = true := by
  cases r with
  | done u n =>
    obtain ⟨⟨⟨elsewhere, _⟩, _⟩, _⟩ := ends
    exact wf_of_eq (congrArg State.mem elsewhere) ht
  | yield u | park u c => exact ends.1 ▸ ht
  | _ => exact ends.elim

/-- A word on registers never writes memory (`registerWord_acts`). -/
theorem registerWord_wf {k : Instr} {ws : WordSpec} (word : registerWord k = some ws) : EndsWf (exec k s) := by
  obtain ⟨body, issues, ends⟩ := (registerWord_acts word).issues
  rw [issues]
  exact issue_wf h ws fun j g ht => registerEnd_wf ht (ends _ j g)

theorem exec_wf (k : Instr) : EndsWf (exec k s) := by
  cases k with
  | nop | yield | add | sub | addc | subb | mul | mulhi | mad | madw | min | max | abs | neg | and | or | xor | not | shl |
  shr | sar | rot | bfe | bfi | popc | clz | brev | prmt | sad | lea | idiv | irem | lop3 | iset | fset | sel | plop | vote
  | matchLanes | fclassPred | fclassMask | pmovPack | pmovUnpack | fadd | fsub | fmul | ffma | fmin | fmax | frcp | frsq |
  fsqrt | fdiv | fexp2 | flog2 | fsin | fcos | ftanh | fdot2 | frnd | fscale | fgetx | fgetm | cvt | sbpack | sbunpk | sbscl
  | rng | mov | movl | shfl | bcast | redux | gets =>
    exact registerWord_wf h rfl
  | exit => exact execExit_wf h ..
  | brk => exact execBrk_wf h ..
  | bra => exact execBra_wf h ..
  | brx => exact execBrx_wf h ..
  | call => exact execCall_wf h ..
  | callv => exact execCallv_wf h ..
  | ret => exact execRet_wf h ..
  | dispatch => exact execDispatch_wf h ..
  | role => exact execRole_wf h ..
  | launch => exact execLaunch_wf h ..
  | trap => exact execTrap_wf h ..
  | wsync => exact execWsync_wf h ..
  | sets => exact execSets_wf h ..
  | ld => exact execLd_wf h ..
  | st => exact execSt_wf h ..
  | lds => exact execLds_wf h ..
  | sts => exact execSts_wf h ..
  | ldg g op sz width sco ord d m => exact execLdg_wf h g op sz width sco ord d m
  | atom => exact execAtom_wf h ..
  | red => exact execRed_wf h ..
  | cas => exact execCas_wf h ..
  | fence => exact execFence_wf h ..
  | pref => exact execPref_wf h ..
  | cwb g rel m => exact execCwb_wf h g rel m
  | cinv => exact execCinv_wf h ..
  | waitne => exact execWaitne_wf h ..
  | waitneRecheck => exact execWaitneRecheck_wf h ..
  | resideClass => exact execResideClass_wf h ..
  | residePin => exact execResidePin_wf h ..
  | resideUnpin => exact execResideUnpin_wf h ..
  | resideTprio => exact execResideTprio_wf h ..
  | resideClose => exact execResideClose_wf h ..
  | kvfind => exact execKvfind_wf h ..
  | kvput => exact execKvput_wf h ..
  | kvdrop => exact execKvdrop_wf h ..
  | kvdropTensor => exact execKvdropTensor_wf h ..
  | acgrow => exact execAcgrow_wf h ..
  | acfree => exact execAcfree_wf h ..
  | cpy => exact execCpy_wf h ..
  | cpym => exact execCpym_wf h ..
  | cpysc => exact execCpysc_wf h ..
  | xpose => exact execXpose_wf h ..
  | sred => exact execSred_wf h ..
  | afence => exact execAfence_wf h ..
  | awaitBatch => exact execAwaitBatch_wf h ..
  | awaitAll => exact execAwaitAll_wf h ..
  | atest => exact execAtest_wf h ..
  | atestAll => exact execAtestAll_wf h ..
  | marr => exact execMarr_wf h ..
  | bload => exact execBload_wf h ..
  | minit => exact execMinit_wf h ..
  | mma => exact execMma_wf h ..
  | mmasp => exact execMmasp_wf h ..
  | mdrain => exact execMdrain_wf h ..
  | mread => exact execMread_wf h ..
  | mreadAnc => exact execMreadAnc_wf h ..
  | mwrite => exact execMwrite_wf h ..
  | mwriteAnc => exact execMwriteAnc_wf h ..
  | bara => exact execBara_wf h ..
  | barw => exact execBarw_wf h ..
  | barsRoot => exact execBarsRoot_wf h ..
  | barsOwn => exact execBarsOwn_wf h ..
  | barqRoot => exact execBarqRoot_wf h ..
  | barqMem => exact execBarqMem_wf h ..
  | barqArr => exact execBarqArr_wf h ..
  | barqEarly => exact execBarqEarly_wf h ..
  | barqWait => exact execBarqWait_wf h ..
  | barsetRoot => exact execBarsetRoot_wf h ..
  | barsetMem => exact execBarsetMem_wf h ..
  | barsetArr => exact execBarsetArr_wf h ..
  | barsetEarly => exact execBarsetEarly_wf h ..
  | barsetWait => exact execBarsetWait_wf h ..
  | tret => exact execTret_wf h ..
  | tretSaved => exact execTretSaved_wf h ..
  | tlbiPage => exact execTlbiPage_wf h ..
  | tlbiRange => exact execTlbiRange_wf h ..
  | tlbiAsid => exact execTlbiAsid_wf h ..
  | genadv => exact execGenadv_wf h ..
  | dvsave => exact execDvsave_wf h ..
  | dvload => exact execDvload_wf h ..
  | sigset => exact execSigset_wf h ..
  | sigrd => exact execSigrd_wf h ..
  | mapft => exact execMapft_wf h ..
  | killw => exact execKillw_wf h ..
  | migr => exact execMigr_wf h ..
  | scrub => exact execScrub_wf h ..
  | keyz => exact execKeyz_wf h ..
  | qsaveRq => exact execQsaveRq_wf h ..
  | qsaveMac => exact execQsaveMac_wf h ..
  | qsaveRbq => exact execQsaveRbq_wf h ..
  | qloadRq => exact execQloadRq_wf h ..
  | qloadMac => exact execQloadMac_wf h ..
  | qloadRbq => exact execQloadRbq_wf h ..
  | pgdisc => exact execPgdisc_wf h ..
  | blockFetch => exact execBlockFetch_wf h ..
  | quarterRunSelect => exact execQuarterRunSelect_wf h ..
  | pendingWriteLands => exact execPendingWriteLands_wf h ..
  | deferredFaultTaken => exact execDeferredFaultTaken_wf h ..
  | preemptTaken => exact execPreemptTaken_wf h ..
  | migrateTaken => exact execMigrateTaken_wf h ..
  | cardLaunch => exact execCardLaunch_wf h ..
  | cardComplete => exact execCardComplete_wf h ..
  | cardFault => exact execCardFault_wf h ..
  | barrierWake => exact execBarrierWake_wf h ..
  | messageArrive => exact execMessageArrive_wf h ..
  | lqEntryTake => exact execLqEntryTake_wf h ..
  | placementDecision => exact execPlacementDecision_wf h
  | gangHeld => exact execGangHeld_wf h ..
  | calleeWarpForm => exact execCalleeWarpForm_wf h ..
  | blockRetire => exact execBlockRetire_wf h ..
  | lqConfigWrite => exact execLqConfigWrite_wf h ..
  | lqBaseWrite => exact execLqBaseWrite_wf h ..
  | lqTailWrite => exact execLqTailWrite_wf h ..
  | term => exact execTerm_wf h ..
  | pageWalk => exact execPageWalk_wf h ..
  | fresume => exact execFresume_wf h ..
  | frtailWrite => exact execFrtailWrite_wf h ..
  | depoch => exact execDepoch_wf h ..
  | harvestEpochComplete => exact execHarvestEpochComplete_wf h ..
  | contextEnd => exact execContextEnd_wf h ..
  | apply => exact execApply_wf h ..
  | applyWithdraw => exact execApplyWithdraw_wf h ..
  | splitApplied => exact execSplitApplied_wf h ..
  | homeAccess => exact execHomeAccess_wf h ..
  | hbmFill => exact execHbmFill_wf h ..
  | missRatioWindowEnd => exact execMissRatioWindowEnd_wf h ..
  | homeAtomic => exact execHomeAtomic_wf h ..
  | kvOpAtHome => exact execKvOpAtHome_wf h ..
  | netEntryReceive => exact execNetEntryReceive_wf h ..
  | netResend => exact execNetResend_wf h ..
  | netAckTimeout => exact execNetAckTimeout_wf h ..
  | deadlockProbe => exact execDeadlockProbe_wf h ..
  | probeReturn => exact execProbeReturn_wf h ..
  | probeLost => exact execProbeLost_wf h ..
  | netControlWrite => exact execNetControlWrite_wf h ..
  | hostPostedWrite => exact execHostPostedWrite_wf h ..
  | hostRead => exact execHostRead_wf h ..
  | deviceRegisterAccess => exact execDeviceRegisterAccess_wf h ..
  | hostEgress => exact execHostEgress_wf h
  | peerRequest => exact execPeerRequest_wf h ..
  | injectorArm => exact execInjectorArm_wf h ..
  | injectorFire => exact execInjectorFire_wf h ..
  | peerUnreachable => exact execPeerUnreachable_wf h ..
  | bankFailed => exact execBankFailed_wf h ..
  | spareSubstitute => exact execSpareSubstitute_wf h ..
  | leaseGrant => exact execLeaseGrant_wf h ..
  | leaseEnd => exact execLeaseEnd_wf h ..
  | leaseRecall => exact execLeaseRecall_wf h ..
  | leaseExpiry => exact execLeaseExpiry_wf h ..
  | pre => exact execPre_wf h ..
  | preemptComplete => exact execPreemptComplete_wf h ..
  | res => exact execRes_wf h ..
  | savedBlockReadmit => exact execSavedBlockReadmit_wf h ..
  | impgo => exact execImpgo_wf h ..
  | scrubComplete => exact execScrubComplete_wf h
  | rsgo => exact execRsgo_wf h
  | epochClearing => exact execEpochClearing_wf h ..
  | operatingPointChange => exact execOperatingPointChange_wf h ..
  | nearThresholdWindow => exact execNearThresholdWindow_wf h ..
  | capCommand => exact execCapCommand_wf h ..
  | fastThrottleSample => exact execFastThrottleSample_wf h ..
  | thermalReading core temp t => exact execThermalReading_wf h core temp t
  | thermalMigrationStart => exact execThermalMigrationStart_wf h ..
  | thermalMigrationComplete => exact execThermalMigrationComplete_wf h ..
  | measuredBoot => exact execMeasuredBoot_wf h ..
  | attestationRequest => exact execAttestationRequest_wf h ..
  | lifetimeFold => exact execLifetimeFold_wf h
  | powerLoss => exact execPowerLoss_wf h

theorem stepWord_wf : EndsWf (stepWord exec s) := by
  unfold stepWord
  split
  · exact next_wf h
  · split
    · exact exec_wf h _
    · exact issueIllegal_wf h

theorem evictLine_wf (core line : Nat) : (evictLine s core line).mem.wf = true := by
  have flushed := flushLine_wf h core line
  exact ite_wf (wf_of_eq (endLease_mem ..) flushed) flushed

theorem stepInput_wf (k : Input) : EndsWf (stepInput exec s k) := by
  cases k with
  | event i =>
    show EndsWf (if i.isEvent then exec i s else .next s)
    split
    · exact exec_wf h i
    · exact next_wf h
  | issue w e =>
    show EndsWf (if midRun s w e then stepWord exec { s with focus := some (w, e) } else .next s)
    split
    · refine stepWord_wf ?_
      exact h
    · exact next_wf h
  | softError pa bits => exact next_wf (wf_of_eq (softError_mem ..) h)
  | hbmError pa bits => exact next_wf (wf_of_eq (hbmError_mem ..) h)
  | refused core port n => exact next_wf (wf_of_eq (refuseRequest_mem ..) h)
  | rowError row bits => exact next_wf (wf_of_eq (rowError_mem ..) h)
  | requestQueue core full => exact next_wf (wf_of_eq (requestQueue_mem ..) h)
  | peerRefuses pkg asid refused => exact next_wf (wf_of_eq (peerRefuses_mem ..) h)
  | engineError e => exact next_wf h
  | entryRace pa v => exact next_wf h
  | evict core line => exact next_wf (evictLine_wf h core line)

theorem stepAuto_wf : EndsWf (stepAuto exec s) := by
  unfold stepAuto
  split
  · exact next_wf (drainHost_wf h)
  · split
    · exact next_wf h
    · split
      · refine stepWord_wf ?_
        exact h
      · split
        · exact exec_wf h _
        · exact next_wf h

theorem step_wf : EndsWf (step s) := by
  unfold step
  split
  · refine stepInput_wf ?_ _
    exact h
  · split
    · exact stepWord_wf h
    · exact stepAuto_wf h

omit h in
/-- Settles O49: each operation that writes memory does so through the operations on memory that keep its form, and each other
one leaves memory as it is; so every word and every event keeps the form (`exec_wf`), and so does each step. -/
theorem stepKeepsMemoryForm : Obligations.StepKeepsMemoryForm := fun _ t form stepped => (step_wf form).next t stepped

end

end Sys2Proof.Machine
end

section
/-! SUPPORT. TLBI and GENADV issue a body (R408, R409). -/

namespace Sys2Proof.Machine

/-- Settles O25: each of these words issues its fence and its retranslation as its body. -/
theorem translationWordsComplete : Obligations.TranslationWordsComplete := by
  unfold Obligations.TranslationWordsComplete
  intro g sa sb s
  exact ⟨completes_issue rfl, completes_issue rfl, completes_issue rfl, completes_issue rfl⟩

end Sys2Proof.Machine
end

section
/-! SUPPORT. The events of translation as the operations that they are, and what FRTAIL lets into the ring (R191, R200 to R207,
R447). -/

namespace Sys2Proof.Machine

theorem exec_fresume (slot : Nat) (seq : BitVec 32) (s : State) :
    exec (.fresume slot seq) s = .next (resumeHostFault (drainHost s) (slot % 64) seq.toNat) := rfl

theorem exec_frtailWrite (slot : Nat) (v : BitVec 32) (s : State) :
    exec (.frtailWrite slot v) s = .next (writeFrTail (drainHost s) (slot % 64) v) := rfl

theorem exec_depoch (slot : Nat) (s : State) : exec (.depoch slot) s = .next (beginHarvest (drainHost s) (slot % 64)) := rfl

theorem exec_harvestEpochComplete (slot : Nat) (s : State) :
    exec (.harvestEpochComplete slot) s = .next (completeHarvest s (slot % 64)) := rfl

theorem exec_apply (die : Fin 4) (v : BitVec 64) (s : State) :
    exec (.apply die v) s = .next (writeSplit (drainHost s) die.val (v ||| 1).toNat) := rfl

theorem exec_splitApplied (die : Fin 4) (s : State) : exec (.splitApplied die) s = .next (applySplit s die.val) := rfl

/-! ### Page walks (R191) -/

theorem exec_pageWalk_inside {core asid va slot : Nat} (write : Bool) {s : State} (bank : slotOfAsid s asid = some slot)
    (inside : va < 2 ^ 52) :
    exec (.pageWalk core asid va write) s =
      .next (xlateWalk s (core % 256) slot asid va (if write then .wr else .rd) false).1 := by
  refine exec_of_operation rfl ?_
  rw [bank]
  exact if_pos inside

/-! ### A context's registers after a write of them -/

@[simp] theorem ctxOf_updCtx (s : State) (slot : Nat) (f : Ctx → Ctx) : ctxOf (updCtx s slot f) slot = f (ctxOf s slot) := by
  rw [ctxOf, updCtx_ctxs, Tbl.getD_putD, if_pos rfl]

@[simp] theorem ctxOf_setCtx (s : State) (slot : Nat) (c : Ctx) : ctxOf (setCtx s slot c) slot = c := by
  rw [ctxOf, setCtx_ctxs, Tbl.getD_putD, if_pos rfl]

theorem ctxOf_of_ctxs {s t : State} (same : t.ctxs = s.ctxs) (slot : Nat) : ctxOf t slot = ctxOf s slot := by
  rw [ctxOf, ctxOf, same]

/-! ### The host-fault ring (R200, R202) -/

theorem writeFrTail_beyond {s : State} {slot : Nat} {v : BitVec 32}
    (beyond : 2 ^ ringLog (ctxOf s slot).frlog < ((ctxOf s slot).frhead - v).toNat) : writeFrTail s slot v = s :=
  if_pos beyond

theorem writeFrTail_within {s : State} {slot : Nat} {v : BitVec 32}
    (within : ((ctxOf s slot).frhead - v).toNat ≤ 2 ^ ringLog (ctxOf s slot).frlog) :
    writeFrTail s slot v =
      releaseHeld (updCtx s slot fun c => { c with frtail := v }) slot (ctxOf s slot).heldFaults.length :=
  if_neg (Nat.not_lt.mpr within)

/-- A record that is written to the ring is none of those that are still held. -/
theorem writeHostFault_heldFaults (s : State) (slot : Nat) (h : HeldFault) :
    (ctxOf (writeHostFault s slot h) slot).heldFaults = (ctxOf s slot).heldFaults := by
  unfold writeHostFault
  dsimp only
  generalize hd : deviceWrite s _ _ = written
  have wrote : written.ctxs = s.ctxs := by
    rw [← hd, (deviceWrite_home ..).only]
  generalize asked : (Tbl.put _ _ _ : Tbl (List Byte)) = records
  have told :
      (ctxOf (notifyHost (updCtx written slot fun c => { c with frhead := c.frhead + 1, asked := records })) slot).heldFaults =
        (ctxOf s slot).heldFaults := by
    have notified (u : State) : (notifyHost u).ctxs = u.ctxs := rfl
    rw [ctxOf_of_ctxs (notified _), ctxOf_updCtx]
    exact congrArg (·.heldFaults) (ctxOf_of_ctxs wrote slot)
  split
  · rw [ctxOf_updCtx]
    exact told
  · exact told

theorem releaseHeld_full {s : State} {slot n : Nat} (full : hostRingFull (ctxOf s slot) = true) : releaseHeld s slot n = s := by
  cases n with
  | zero => rfl
  | succ n =>
    unfold releaseHeld
    dsimp only
    split
    · exact if_pos full
    · rfl

theorem releaseHeld_room {s : State} {slot n : Nat} {f : HeldFault} {rest : List HeldFault}
    (held : (ctxOf s slot).heldFaults = f :: rest) (room : hostRingFull (ctxOf s slot) = false) :
    releaseHeld s slot (n + 1) =
      releaseHeld (writeHostFault (updCtx s slot fun c => { c with heldFaults := rest }) slot f) slot n := by
  rw [releaseHeld, held]
  exact if_neg (Bool.eq_false_iff.mp room)

/-- The held records enter the ring until none is left or the ring is full. -/
theorem releaseHeld_until {s : State} {slot n : Nat} (all : (ctxOf s slot).heldFaults.length ≤ n) :
    (ctxOf (releaseHeld s slot n) slot).heldFaults = [] ∨ hostRingFull (ctxOf (releaseHeld s slot n) slot) = true := by
  induction n generalizing s with
  | zero => exact .inl (List.length_eq_zero_iff.mp (Nat.le_zero.mp all))
  | succ n ih =>
    cases full : hostRingFull (ctxOf s slot) with
    | true =>
      rw [releaseHeld_full full]
      exact .inr full
    | false =>
      cases held : (ctxOf s slot).heldFaults with
      | nil =>
        have none_held : releaseHeld s slot (n + 1) = s := by
          rw [releaseHeld, held]
        rw [none_held]
        exact .inl held
      | cons f rest =>
        rw [releaseHeld_room held full]
        refine ih ?_
        rw [writeHostFault_heldFaults, ctxOf_updCtx]
        rw [held] at all
        exact Nat.le_of_succ_le_succ all

theorem hostRingFull_of_room {c : Ctx} (room : (c.frhead - c.frtail).toNat < 2 ^ ringLog c.frlog) : hostRingFull c = false :=
  beq_eq_false_iff_ne.mpr (Nat.ne_of_lt room)

/-- One record held and room for it: it is written, and none is held any more. -/
theorem writeFrTail_single {s : State} {slot : Nat} {v : BitVec 32} {f : HeldFault} (held : (ctxOf s slot).heldFaults = [f])
    (room : ((ctxOf s slot).frhead - v).toNat < 2 ^ ringLog (ctxOf s slot).frlog) :
    writeFrTail s slot v =
      writeHostFault (updCtx (updCtx s slot fun c => { c with frtail := v }) slot fun c => { c with heldFaults := [] }) slot f := by
  rw [writeFrTail_within room.le, held]
  refine releaseHeld_room ?_ ?_
  · rw [ctxOf_updCtx]
    exact held
  · rw [ctxOf_updCtx]
    exact hostRingFull_of_room room

/-! ### Harvests, the end of a context and the store split (R203, R206, R207, R447) -/

theorem completeHarvest_begun {s : State} {slot : Nat} (begun : (ctxOf s slot).depoch = true) :
    completeHarvest s slot =
      updCtx ((dirtyCores s).foldl releaseL1 s) slot fun c => { c with depoch := false, known := [] } :=
  if_pos begun

theorem exec_contextEnd_valid {slot : Nat} {s : State} (valid : (ctxOf (drainHost s) (slot % 64)).valid = true) :
    exec (.contextEnd slot) s = .next (endContext (drainHost s) (slot % 64)) :=
  exec_of_operation rfl (if_pos valid)

theorem endContext_idle {s : State} {slot : Nat} (idle : contextBusy s slot = false) :
    (ctxOf (endContext s slot) slot).valid = false ∧ (ctxOf (endContext s slot) slot).emeter = (ctxOf s slot).emeter := by
  unfold endContext
  rw [if_neg (Bool.eq_false_iff.mp idle)]
  dsimp only
  rw [ctxOf_setCtx]
  exact ⟨rfl, rfl⟩

theorem bitOf_or_one (v : BitVec 64) : bitOf (v ||| 1).toNat 0 = true := by
  have odd : (v.toNat ||| 1) % 2 = 1 := by
    rw [Nat.or_mod_two_eq_one]
    exact .inr rfl
  simp [bitOf]

theorem writeSplit_requests {s : State} {die : Nat} {v : BitVec 64} (free : (splitOf s die).apply = false)
    (granted : splitRefused (splitRequest (splitOf s die) (v ||| 1).toNat) = false) :
    writeSplit s die (v ||| 1).toNat =
      { s with splits := s.splits.putD .reset die { splitRequest (splitOf s die) (v ||| 1).toNat with apply := true } } := by
  unfold writeSplit
  dsimp only
  rw [if_neg (Bool.eq_false_iff.mp free), if_pos (bitOf_or_one v), if_neg (Bool.eq_false_iff.mp granted)]

theorem exec_applyWithdraw_pending {die : Fin 4} {s : State} (pending : (splitOf (drainHost s) die.val).apply = true) :
    exec (.applyWithdraw die) s =
      .next { drainHost s with
        splits := (drainHost s).splits.putD .reset die.val { splitOf (drainHost s) die.val with apply := false } } := by
  refine exec_of_operation rfl ?_
  dsimp only
  rw [if_pos pending]
  unfold writeSplit
  dsimp only
  rw [if_pos pending]
  rfl

theorem applySplit_quiescent {s : State} {die : Nat} (pending : (splitOf s die).apply = true)
    (quiet : quiescent s die = true) : splitOf (applySplit s die) die = (splitOf s die).install := by
  unfold applySplit
  dsimp only
  rw [if_pos (Bool.and_eq_true_iff.mpr ⟨pending, quiet⟩)]
  dsimp only [splitOf]
  rw [Tbl.getD_putD, if_pos rfl]

/-- Settles O34: each event is its operation on the state after the host's earlier writes, and the held records enter the ring
one by one (`releaseHeld_until`). -/
theorem translationEventsComplete : Obligations.TranslationEventsComplete := by
  unfold Obligations.TranslationEventsComplete
  intro core asid va slot write seq v32 die v s h
  refine ⟨exec_pageWalk_inside write, exec_fresume slot seq s, ⟨?_, fun within => ⟨?_, ?_, ?_⟩⟩, exec_depoch slot s, ?_, ?_, ?_,
    ?_, ?_⟩
  · intro beyond
    exact exec_of_operation (exec_frtailWrite slot v32 s) (writeFrTail_beyond beyond)
  · intro none_held
    refine exec_of_operation (exec_frtailWrite slot v32 s) ?_
    rw [writeFrTail_within within, none_held]
    rfl
  · intro f held room
    exact exec_of_operation (exec_frtailWrite slot v32 s) (writeFrTail_single held room)
  · refine ⟨_, exec_of_operation (exec_frtailWrite slot v32 s) (writeFrTail_within within), rfl, releaseHeld_until ?_⟩
    rw [ctxOf_updCtx]
  · intro begun
    exact exec_of_operation (exec_harvestEpochComplete slot s) (completeHarvest_begun begun)
  · intro valid idle
    exact ⟨_, exec_contextEnd_valid valid, endContext_idle idle⟩
  · intro free granted
    exact exec_of_operation (exec_apply die v s) (writeSplit_requests free granted)
  · exact exec_applyWithdraw_pending
  · intro pending quiet
    exact ⟨_, exec_splitApplied die s, applySplit_quiescent pending quiet⟩

end Sys2Proof.Machine
end

section
/-! SUPPORT. The events at the home slices: line requests, windows, atomics, banks and leases (R195, R208, R209, R215 to R218,
R251, R355 to R357, R435). -/

namespace Sys2Proof.Machine

/-! ### Line requests (R195, R208) -/

theorem serveLine_stored {s : State} {pa : Nat} (stored : storedAt s pa = true) (who : Option Nat) (write : Bool) (nl : Nat) :
    serveLine s who pa write nl =
      if write = true then maskedSector s who (pa / 64) (List.replicate 64 none) nl 2
      else (readSector s who (pa / 64 * 64) 64 nl 2).1 := by
  unfold serveLine
  rw [stored]
  rfl

theorem exec_homeAccess_untagged (pa : Nat) (write : Bool) (nl : Fin 8) (s : State) :
    exec (.homeAccess pa { write := write, tag := none } nl) s = .next (serveLine s none pa write nl.val) := rfl

/-- A request with a tag is served with its generation and sent again without it. -/
theorem exec_homeAccess_tagged {t : HomeTag} {slot : Nat} {s : State} (pa : Nat) (write : Bool) (nl : Fin 8)
    (bank : slotOfAsid s t.asid = some slot) (runs : coreRuns s (t.core % 256) = true) :
    exec (.homeAccess pa { write := write, tag := some t } nl) s =
      .next (if (ctxOf s slot).gen.toNat = t.gen then serveLine s (some (t.core % 256)) pa write nl.val
        else resendLine s t write) := by
  refine exec_of_operation rfl ?_
  dsimp only
  rw [bank, runs]

theorem exec_homeAccess_unserved {t : HomeTag} {s : State} (pa : Nat) (write : Bool) (nl : Fin 8)
    (gone : slotOfAsid s t.asid = none ∨ coreRuns s (t.core % 256) = false) :
    exec (.homeAccess pa { write := write, tag := some t } nl) s = .next s := by
  refine exec_of_operation rfl ?_
  dsimp only
  obtain bank | stopped := gone
  · rw [bank]
  · rw [stopped]
    cases slotOfAsid s t.asid <;> rfl

/-! ### Fills and windows (R209, R215 to R218) -/

theorem exec_hbmFill_absent {line : Nat} {s : State} (stored : storedAt s (line * 128) = true) (absent : heldAt s line = false) :
    exec (.hbmFill line) s = .next (touchLine s (line * 128) 0).1 := by
  refine exec_of_operation rfl ?_
  rw [stored, absent]
  rfl

/-- A window that ends leaves the contract's due windows and makes its report, if it has one. -/
theorem exec_missRatioWindowEnd_due {rank : Nat} {die : Fin 4} {c : Contract} {d : Nat × Nat} {s : State}
    (declared : (s.contracts.find? fun c => c.rank == rank) = some c) (due : (c.due.find? fun w => w.1 == die.val) = some d) :
    exec (.missRatioWindowEnd rank die) s =
      .next (match windowReport c.cls windowSize d.2, slotOfAsid s c.asid with
        | some kind, some slot =>
          writeReport
            { s with contracts := s.contracts.map fun k => if k.rank = rank then { k with due := k.due.erase d } else k }
            slot (reportBytes c die.val kind d.2 s.now)
        | _, _ =>
          { s with contracts := s.contracts.map fun k => if k.rank = rank then { k with due := k.due.erase d } else k }) := by
  refine exec_of_operation rfl ?_
  unfold endWindow
  rw [declared]
  dsimp only
  rw [due]
  rfl

theorem writeReport_full {s : State} {slot : Nat} {b : List Byte}
    (full : ((ctxOf s slot).crhead - (ctxOf s slot).crtail).toNat = 2 ^ ringLog (ctxOf s slot).crlog) :
    writeReport s slot b = updCtx s slot fun c => { c with crlost := Nat.min (c.crlost + 1) (2 ^ 32 - 1) } :=
  if_pos full

theorem writeReport_room {s : State} {slot : Nat} {b : List Byte}
    (room : ((ctxOf s slot).crhead - (ctxOf s slot).crtail).toNat ≠ 2 ^ ringLog (ctxOf s slot).crlog) :
    writeReport s slot b =
      updCtx (drainEgress (deviceWrite s
        ((ctxOf s slot).crbase * 4096 + 32 * ((ctxOf s slot).crhead.toNat % 2 ^ ringLog (ctxOf s slot).crlog)) b)) slot
        fun c => { c with crhead := c.crhead + 1 } :=
  if_neg room

/-! ### Atomics, banks and leases (R251, R355 to R357, R435) -/

theorem exec_homeAtomic_sound {core pa : Nat} {op : AtomOp} {sz : MSize} {x : BitVec 64} {s : State}
    (stored : storedAt s pa = true) (aligned : pa % sz.bytes = 0) (sized : op.sizes.contains sz = true)
    (runs : coreRuns s (core % 256) = true) :
    let e := s.sectors.getD .clean (pa / 64)
    let own := if e.nl = 8 then 0 else e.nl
    let r := readSector (chargeHome (reachHome s (some (core % 256)) pa) (core % 256) pa) (some (core % 256)) pa sz.bytes own 2
    r.2.isPoison = false →
      exec (.homeAtomic core pa op sz x) s =
        .next (uncounted r.1
          (writeSector r.1 (some (core % 256)) pa (leBytes sz.bytes (atomValue op sz (leNat r.2.data) x.toNat)) own 2)) := by
  intro e own r sound
  refine exec_of_operation rfl ?_
  rw [stored, aligned, sized, runs]
  exact if_neg (Bool.eq_false_iff.mp sound)

theorem exec_bankFailed_worn {k : Nat} {s : State} (whole : (bankOf s k).failed = false) (worn : 16 ≤ bankErrors s k) :
    exec (.bankFailed k) s = .next (declareBank s k) := by
  refine exec_of_operation rfl ?_
  rw [whole, decide_eq_false (Nat.not_lt.mpr worn)]
  rfl

theorem exec_spareSubstitute_free {k : Nat} {s : State} (failed : (bankOf s k).failed = true)
    (unspared : (bankOf s k).spared = false) (free : spareUsed s (k / 9) = false) :
    exec (.spareSubstitute k) s = .next
      { setBank s k { errors := [], failed := false, spared := true } with
          bspare := Nat.min (s.bspare + 1) (2 ^ 32 - 1),
          rowErrors := s.rowErrors.filterMap fun (r, fs) =>
            let fs := if arrayOfRow r = k / 9 then rebuiltFlips s r (k % 9) else fs
            if fs.isEmpty = true then none else some (r, fs) } := by
  refine exec_of_operation rfl ?_
  dsimp only
  rw [failed, unspared, free]
  rfl

theorem exec_leaseGrant_room {core line : Nat} {s u : State} (none_held : leaseOn s line = none)
    (runs : agentRuns s (core % 384) = true) (stored : storedAt s (line * 128) = true)
    (room : holderRoom s (core % 384) line = (u, true)) :
    exec (.leaseGrant core line) s = .next (grantLease (reachHome u (some (core % 384)) (line * 128)) (core % 384) line) := by
  refine exec_of_operation rfl ?_
  dsimp only
  rw [none_held, runs, stored, room]
  rfl

theorem giveUpLease_held {s : State} {line : Nat} {l : Lease} (held : leaseOn s line = some l) (how : LeaseEnd) :
    giveUpLease s line how = endLease (flushLine s l.core line) line how := by
  unfold giveUpLease
  rw [held]

theorem exec_leaseEnd_held {core line : Nat} {l : Lease} {s : State} (held : leaseOn s line = some l) (own : l.core = core) :
    exec (.leaseEnd core line) s = .next (endLease (flushLine s core line) line .expired) := by
  subst own
  refine exec_of_operation rfl ?_
  exact (if_pos (congrArg (Option.map (·.core)) held)).trans (giveUpLease_held held .expired)

theorem exec_leaseRecall_other {core line : Nat} {l : Lease} {s : State} (held : leaseOn s line = some l)
    (other : l.core ≠ core) (runs : agentRuns s core = true) :
    exec (.leaseRecall core line) s = .next (endLease (flushLine s l.core line) line .recalled) := by
  refine exec_of_operation rfl ?_
  rw [held, runs, if_neg fun refused => refused.elim (other <| Option.some.inj ·) Bool.noConfusion]
  exact giveUpLease_held held .recalled

theorem exec_leaseExpiry_held {line : Nat} {l : Lease} {s : State} (held : leaseOn s line = some l) :
    exec (.leaseExpiry line) s = .next (loseLease s l) := by
  refine exec_of_operation rfl ?_
  rw [held]

/-- Settles O35: under each clause's conditions the event takes the branch of its operation that the clause names. -/
theorem homeEventsComplete : Obligations.HomeEventsComplete := by
  unfold Obligations.HomeEventsComplete
  intro pa line rank core asid slot k write nl die op sz x kop l t c d u s
  refine ⟨fun stored => ⟨?_, fun bank current runs => ?_⟩, fun bank stale runs => ?_, exec_homeAccess_unserved pa write nl,
    exec_hbmFill_absent, fun declared due => ⟨fun silent => ?_, fun kind reports bank => ⟨fun full => ?_, fun room => ?_⟩⟩,
    exec_homeAtomic_sound, rfl, exec_bankFailed_worn, exec_spareSubstitute_free, exec_leaseGrant_room, exec_leaseEnd_held,
    exec_leaseRecall_other, exec_leaseExpiry_held⟩
  · rw [exec_homeAccess_untagged, serveLine_stored stored]
  · rw [exec_homeAccess_tagged pa write nl bank runs, if_pos current, serveLine_stored stored]
  · rw [exec_homeAccess_tagged pa write nl bank runs, if_neg stale]
  · rw [exec_missRatioWindowEnd_due declared due, silent]
  · rw [exec_missRatioWindowEnd_due declared due, reports, bank]
    exact congrArg Host.Outcome.next (writeReport_full full)
  · rw [exec_missRatioWindowEnd_due declared due, reports, bank]
    exact congrArg Host.Outcome.next (writeReport_room room)

end Sys2Proof.Machine
end

section
/-! SUPPORT. A load that changes a byte as the core sees it: its first lane's line evicts the second's from its home, whose
sector then stands as HBM keeps it (R209), with a bit that an error has flipped there. -/

namespace Sys2Proof.Machine

/-- Every lane loads four bytes from its own address. -/
def wordLoad : Instr := .ld { p := 7, neg := false } .b32 .none .rlx .dflt 8 { base := .v 4, off := 0 }

/-- The word that it is and the access that it makes. -/
def wordLoadAccess : Access :=
  ⟨memSpec 0x60 { p := 7, neg := false } (.v 4) [] (dataRegs 8 4), loadKind.by .dflt, 4, id,
    (·.effAddr { base := .v 4, off := 0 }), false⟩

/-- The leaf of a readable page in layout 1 (R240), at frame 0. -/
def approximateLeaf : Nat := 0x84DF

/-- Line 0 and fifteen more fill their set of a home slice; lane 0 is about to load from a seventeenth line of the set, the others
from line 0. HBM has a flipped bit in sector 0, which the home's copy covers. -/
def coveredFlip : State :=
  { updCtx (updWarp (State.reset.withFetchWord 64 0) 0 fun x =>
      (x.putV 5 allLanes fun l => if l = 0 then 1 else 0).putV 4 allLanes fun l => if l = 0 then 0x800 else 0)
      0 fun c => { c with valid := true } with
    tlb := [{ home := 0, asid := 0, gen := 0, size := .p16G, vpage := 0, leaf := BitVec.ofNat 64 approximateLeaf }]
    lines := (List.range 16).map fun j => { line := j * (2 ^ 21 + 1), dirty := 0, locked := false, streaming := false }
    backing := [(0, { nl := 1, flips := [0], mark := false })] }

/-- Every lane reaches one of the two lines, in layout 1, and byte 0 stands in that layout and holds 0. -/
def reachesBoth (i : Issuer) (r : State × List (Nat × Word64 × Target)) : Bool :=
  decide (i.x.core = 0) &&
    (r.2.all fun q => decide (q.2.2 ∈ [Target.phys (2 ^ 32 + 2048) approximateLeaf, .phys 0 approximateLeaf])) &&
      decide (byteSeen r.1 0 0 = 0) && !unserved r.1 0 && r.1.egress.isEmpty && r.1.injectors.isEmpty && r.1.sectors.isEmpty &&
        r.1.l1.isEmpty

theorem reachesBoth_iff {i : Issuer} {r : State × List (Nat × Word64 × Target)} :
    reachesBoth i r = true ↔
      i.x.core = 0 ∧
        (∀ q ∈ r.2, q.2.2 = Target.phys (2 ^ 32 + 2048) approximateLeaf ∨ q.2.2 = Target.phys 0 approximateLeaf) ∧
          byteSeen r.1 0 0 = 0 ∧ unserved r.1 0 = false ∧ r.1.egress = [] ∧ r.1.injectors = [] ∧ r.1.sectors = [] ∧
            r.1.l1 = [] := by
  simp [reachesBoth, and_assoc]

/-- Both lines are read in layout 1. -/
theorem layoutAt_of_lines {t : Target}
    (lines : t = .phys (2 ^ 32 + 2048) approximateLeaf ∨ t = .phys 0 approximateLeaf) : t.layoutAt 4 0 1 := by
  obtain rfl | rfl := lines
  · exact ⟨by decide, fun _ => by decide⟩
  · exact ⟨by decide, fun _ => by decide⟩

/-- Byte 0 stands in layout 1 where its sector was never written and the first level is empty. -/
theorem standsIn_of_unwritten {s : State} (served : unserved s 0 = false) (egress : s.egress = []) (injectors : s.injectors = [])
    (sectors : s.sectors = []) (l1 : s.l1 = []) : standsIn s 0 0 1 := by
  have clean : s.sectors.getD Sector.clean (0 / 64) = Sector.clean := by
    rw [sectors]
    rfl
  unfold standsIn
  rw [egress, injectors, l1, clean]
  exact ⟨served, nofun, nofun, rfl, .inl rfl, trivial⟩

theorem wordLoad_reaches :
    ((issuer coveredFlip).any fun i => (i.begins wordLoadAccess.ws coveredFlip).any fun t =>
      i.lanes wordLoadAccess.ws != 0 &&
        (reaches t (i.within t) wordLoadAccess.kind 4 (i.lanes wordLoadAccess.ws) (wordLoadAccess.addr (warpAt t i.w))).any
          (reachesBoth i)) = true := by
  decide +kernel

/-- The load leaves the flipped bit in the first level. -/
theorem wordLoad_flips : (match exec wordLoad coveredFlip with | .next u => byteSeen u 0 0 | _ => 0) = 1 := by decide +kernel

theorem exec_wordLoad : ∃ u, exec wordLoad coveredFlip = .next u ∧ byteSeen u 0 0 = 1 := by
  have flipped := wordLoad_flips
  split at flipped
  · exact ⟨_, ‹_›, flipped⟩
  · exact absurd flipped (by decide)

/-- Refutes O53: `standsIn` asks that no bit of the byte's sector is flipped at home, not in HBM beneath a held line (R209). In
`coveredFlip` the load's first lane evicts that line, its second lane reads it again, and byte 0, which was 0, is seen as 1. -/
theorem not_accessesLeaveOtherBytes : ¬ Obligations.AccessesLeaveOtherBytes := by
  unfold Obligations.AccessesLeaveOtherBytes
  intro leaves
  have reached := wordLoad_reaches
  simp only [Option.any_eq_true, Bool.and_eq_true, bne_iff_ne] at reached
  obtain ⟨i, issues, t, begins, acts, r, reaching, both⟩ := reached
  obtain ⟨u, ends, flipped⟩ := exec_wordLoad
  obtain ⟨core, lines, before, served, egress, injectors, sectors, l1⟩ := reachesBoth_iff.mp both
  have same := (leaves wordLoad wordLoadAccess coveredFlip t u i Warp.blank r 0 1 rfl issues begins (.inl acts) reaching ends).1
    (fun q here => layoutAt_of_lines (lines q here)) nofun
  rw [core, before, flipped] at same
  exact absurd (same (standsIn_of_unwritten served egress injectors sectors l1)) (by decide)

end Sys2Proof.Machine
end

section
/-! SUPPORT. What a walk meets does not depend on the TLBs: two states that differ only in fields that no read at home looks at
give a walk the same entries, and stay such states (R191). -/

namespace Sys2Proof.Machine

/-! ### Fields beside what a walk reads -/

/-- The state with the fields of another that a walk does not read: TLBs, leases and the lines' holders, counters, and the link
injectors. -/
def State.aside (s x : State) : State :=
  { s with tlb := x.tlb, leases := x.leases, place := x.place, sole := x.sole, gcnt := x.gcnt, msix := x.msix,
           injectors := x.injectors }

/-- Two states differ only in such fields. -/
def Aside (s t : State) : Prop := t = s.aside t

theorem Aside.refl (s : State) : Aside s s := rfl

theorem Aside.of_eq {s t x : State} (h : t = s.aside x) : Aside s t := by
  subst h
  rfl

theorem Aside.trans {s t u : State} (h : Aside s t) (k : Aside t u) : Aside s u := by
  unfold Aside at h k
  rw [h] at k
  exact .of_eq k

theorem Aside.symm {s t : State} (h : Aside s t) : Aside t s := by
  unfold Aside at *
  rw [h]
  rfl

/-- What is said of a state without those fields is said of the other. -/
theorem Aside.congr {α : Type} {f : State → α} (same : ∀ s x : State, f (s.aside x) = f s) {s t : State} (h : Aside s t) :
    f t = f s := by
  unfold Aside at h
  rw [h]
  exact same s t

/-- An operation that passes those fields by keeps two such states alike, and gives the same result in both. -/
theorem Aside.step {α : Type} {f : State → State × α} (commutes : ∀ s x : State, f (s.aside x) = ((f s).1.aside x, (f s).2))
    {s t : State} (h : Aside s t) : Aside (f s).1 (f t).1 ∧ (f t).2 = (f s).2 := by
  have both := commutes s t
  rw [← show t = s.aside t from h] at both
  rw [both]
  exact ⟨.of_eq rfl, rfl⟩

/-! ### The links and the home without a flipped bit -/

theorem countFlits_aside (s : State) (i n : Nat) : Aside s (countFlits s i n) := by
  unfold countFlits
  dsimp only
  split <;> rfl

/-- Without an armed injector a link only counts the packet. -/
theorem crossLink_unarmed (n : Nat) (r : State × Passed) (i : Nat) (unarmed : noFlips r.1) :
    (crossLink n r i).1 = r.1 ∨ (crossLink n r i).1 = countFlits r.1 i n := by
  by_cases lost : r.2.lost = true <;> simp [crossLink, injectorOf_arm unarmed, lost]

theorem crossLinks_aside (n : Nat) (l : List Nat) (s : State) (unarmed : noFlips s) : Aside s (crossLinks s n l).1 := by
  have go (r : State × Passed) (unarmed : noFlips r.1) : Aside r.1 (l.foldl (crossLink n) r).1 := by
    induction l generalizing r with
    | nil => exact .refl _
    | cons i l ih =>
      refine Aside.trans ?_ (ih _ ((crossLink_read n r i).1.flips unarmed))
      obtain same | counted := crossLink_unarmed n r i unarmed
      · rw [same]
        exact .refl _
      · rw [counted]
        exact countFlits_aside ..
  exact go (s, .clean) unarmed

theorem sendPacket_aside (port : Nat) (core : Option Nat) (n : Nat) (l : List Nat) (k : Nat) (s : State) (unarmed : noFlips s) :
    Aside s (sendPacket port core n l k s).1 := by
  cases k with
  | zero => exact .refl s
  | succ k =>
    have crossed := crossLinks_aside n l s unarmed
    have clean := (crossLinks_read s n l).2 unarmed
    unfold sendPacket
    generalize crossLinks s n l = r at crossed clean ⊢
    obtain ⟨t, p⟩ := r
    dsimp only at crossed clean ⊢
    rw [clean]
    exact crossed

theorem travelFrom_aside (s : State) (die port : Nat) (core : Option Nat) (pa : Nat) (write : Bool) (unarmed : noFlips s) :
    Aside s (travelFrom s die port core pa write).1 := by
  unfold travelFrom
  split
  · exact .refl s
  · dsimp only
    exact (sendPacket_aside _ _ _ _ _ s unarmed).trans (sendPacket_aside _ _ _ _ _ _ ((sendPacket_read ..).1.flips unarmed))

theorem endLease_aside (s : State) (line : Nat) (how : LeaseEnd) : Aside s (endLease s line how) := by
  unfold endLease
  split
  · exact .refl s
  · dsimp only
    split
    · rfl
    · cases how <;> rfl

/-- What reaches a line from no core ends its lease. -/
theorem reachHome_none (s : State) (pa : Nat) :
    reachHome s none pa = ((s.leases.find? fun l => l.line == pa / 128).elim s fun _ => endLease s (pa / 128) .recalled) := by
  have kept (t : State) : (match t.sole.find? (pa / 128) with
      | some c => if (none : Option Nat).isNone = true ∨ some c = none then t else { t with sole := t.sole.del (pa / 128) }
      | none => t) = t := by
    split
    · exact if_pos (.inl rfl)
    · rfl
  refine (kept _).trans ?_
  cases s.leases.find? fun l => l.line == pa / 128 with
  | none => rfl
  | some l => exact if_neg (Option.some_ne_none _)

theorem reachHome_aside (s : State) (pa : Nat) : Aside s (reachHome s none pa) := by
  rw [reachHome_none]
  cases s.leases.find? fun l => l.line == pa / 128 with
  | none => exact .refl s
  | some l => exact endLease_aside s (pa / 128) .recalled

theorem countGrade_aside (s : State) (die cls nl g : Nat) : Aside s (countGrade s die cls nl g) := by
  unfold countGrade
  dsimp only
  split <;> rfl

theorem countDecode_aside (s : State) (pa : Nat) (held bypass : Bool) (nl : Nat) (dec : Decode64) :
    Aside s (countDecode s pa held bypass nl dec) := by
  unfold countDecode
  dsimp only
  generalize (if bypass = true then 0 else nl) = n
  generalize hc : (if dec.corrected = true then countGrade s (dieOf pa) (countClass pa held) n 0 else s) = t
  have counted : Aside s t := by
    rw [← hc]
    split
    · exact countGrade_aside ..
    · exact .refl s
  split
  · exact .refl s
  split
  · exact counted
  · exact counted.trans (countGrade_aside ..)

/-! ### A line that is touched -/

section
variable (s x : State)

theorem leaveStreamWay_of_aside : leaveStreamWay (s.aside x) = (leaveStreamWay s).aside x := by
  unfold leaveStreamWay
  show (if s.lines.any (fun l => l.streaming && !inStreamWay s l) then _ else _) = _
  split <;> rfl

theorem setSector_of_aside (sec : Nat) (e : Sector) : setSector (s.aside x) sec e = (setSector s sec e).aside x := rfl

theorem rewriteSector_of_aside (sec : Nat) : rewriteSector (s.aside x) sec = (rewriteSector s sec).aside x := by
  unfold rewriteSector
  rw [show (s.aside x).sectors = s.sectors from rfl]
  dsimp only
  split
  · rfl
  · split
    · split <;> rfl
    · split <;> rfl

theorem leaveSector_of_aside (l : HomeLine) (half : Nat) : leaveSector (s.aside x) l half = (leaveSector s l half).aside x := by
  unfold leaveSector
  dsimp only
  rw [show (s.aside x).backing = s.backing from rfl]
  split
  · exact rewriteSector_of_aside { s with backing := _ } x _
  · split <;> rfl

theorem dropLine_of_aside (line : Nat) : dropLine (s.aside x) line = (dropLine s line).aside x := by
  unfold dropLine
  rw [show (s.aside x).lines = s.lines from rfl]
  split
  · rfl
  · rw [leaveSector_of_aside, leaveSector_of_aside]
    rfl

/-- What a line's request does at its home does not depend on those fields. -/
theorem touchLine_of_aside (pa : Nat) (write : BitVec 2) :
    touchLine (s.aside x) pa write = ((touchLine s pa write).1.aside x, (touchLine s pa write).2) := by
  unfold touchLine
  split
  · rfl
  dsimp only
  rw [leaveStreamWay_of_aside, show (s.aside x).lines = s.lines from rfl, show reuseOf (s.aside x) pa = reuseOf s pa from rfl,
    show cacheSixteenths (s.aside x) (dieOf pa) = cacheSixteenths s (dieOf pa) from rfl]
  generalize leaveStreamWay s = t
  split
  · rfl
  split
  · rfl
  rw [show victimOf (t.aside x) = victimOf t from rfl, show (t.aside x).lines = t.lines from rfl,
    show sameSet (t.aside x) = sameSet t from rfl]
  split
  · rw [dropLine_of_aside]
    rfl
  · rfl

end

theorem requestLine_none (s : State) (pa : Nat) : requestLine s none pa 0 = touchLine (reachHome s none pa) pa 0 := by
  unfold requestLine
  rfl

theorem requestLine_alike {s t : State} (alike : Aside s t) (pa : Nat) :
    Aside (requestLine s none pa 0).1 (requestLine t none pa 0).1 ∧
      (requestLine t none pa 0).2 = (requestLine s none pa 0).2 := by
  rw [requestLine_none, requestLine_none]
  have reached := ((reachHome_aside s pa).symm.trans alike).trans (reachHome_aside t pa)
  exact reached.step (f := fun s => touchLine s pa 0) fun s x => touchLine_of_aside s x pa 0

/-! ### An entry that is read -/

/-- A sector opened in its own layout: nothing changes but counters, and what it holds is what stands there. -/
theorem openSector_own_aside {s : State} (unflipped : noFlips s) (pa nl : Nat) (held : Bool)
    (own : (if (s.sectors.getD .clean (pa / 64)).nl = 8 then nl else (s.sectors.getD .clean (pa / 64)).nl) = nl) :
    Aside s (openSector s pa nl held true).1 ∧
      (openSector s pa nl held true).2 =
        if (s.sectors.getD .clean (pa / 64)).mark = true then
          ({ data := sectorData s (pa / 64), bad := 3, groups := [], corrected := false }, 7)
        else (decodeSector 0 nl (pa / 64) (sectorData s (pa / 64)) [], srcOf pa held) := by
  unfold openSector
  dsimp only
  rw [own, sectors_getD_flips unflipped]
  split
  · simp only [ne_eq, not_true_eq_false, decide_false, Bool.and_false, Bool.false_eq_true, if_false]
    exact ⟨.refl s, trivial⟩
  · simp only [true_or, if_true, List.length_nil, Nat.zero_le]
    exact ⟨countDecode_aside .., rfl⟩

/-- What a device reads of a sector: a function of the sector, its data and whether it is served. -/
theorem deviceSector_alike {s t : State} (alike : Aside s t) (unflipped : noFlips s) (unflipped' : noFlips t) (pa n : Nat)
    (was : Bool) :
    Aside (deviceSector s pa n was).1 (deviceSector t pa n was).1 ∧
      (deviceSector t pa n was).2 = (deviceSector s pa n was).2 := by
  have served : unserved t pa = unserved s pa := alike.congr (f := (unserved · pa)) fun _ _ => rfl
  have sector : t.sectors = s.sectors := alike.congr fun _ _ => rfl
  have data : sectorData t (pa / 64) = sectorData s (pa / 64) := alike.congr (f := (sectorData · (pa / 64))) fun _ _ => rfl
  unfold deviceSector
  rw [served]
  split
  · exact ⟨alike, rfl⟩
  · dsimp only
    rw [sector]
    generalize ho :
      (if (s.sectors.getD Sector.clean (pa / 64)).nl = 8 then 0 else (s.sectors.getD Sector.clean (pa / 64)).nl) = own
    have own_layout :
        (if (s.sectors.getD .clean (pa / 64)).nl = 8 then own else (s.sectors.getD .clean (pa / 64)).nl) = own := by
      rw [← ho]
      split <;> rfl
    obtain ⟨keeps, result⟩ := openSector_own_aside unflipped pa own was own_layout
    obtain ⟨keeps', result'⟩ := openSector_own_aside unflipped' pa own was (by rw [sector]; exact own_layout)
    rw [sector, data] at result'
    have same := result'.trans result.symm
    clear result result'
    generalize openSector s pa own was true = opened at keeps same ⊢
    generalize openSector t pa own was true = opened' at keeps' same ⊢
    obtain ⟨u, d⟩ := opened
    obtain ⟨u', d'⟩ := opened'
    dsimp only at same
    rw [same]
    exact ⟨keeps.symm.trans (alike.trans keeps'), rfl⟩

/-- An entry lies in one sector. -/
theorem sectorParts_entry {pa : Nat} (aligned : pa % 8 = 0) : sectorParts pa 8 = [(pa, 8)] := by
  unfold sectorParts
  have last : (pa + 8 - 1) / 64 - pa / 64 + 1 = 1 := by omega
  rw [if_neg (by decide), last]
  simp only [List.range_one, List.map_cons, List.map_nil, Nat.add_zero]
  have lo : Nat.max pa (pa / 64 * 64) = pa := Nat.max_eq_left (by omega)
  have hi : Nat.min (pa + 8) ((pa / 64 + 1) * 64) = pa + 8 := Nat.min_eq_left (by omega)
  rw [lo, hi, Nat.add_sub_cancel_left]

theorem deviceDeliv_stored {pa : Nat} (stored : classOf pa < 4) (aligned : pa % 8 = 0) (s : State) :
    deviceDeliv s pa 8 =
      ((deviceSector (requestLine s none pa 0).1 pa 8 (requestLine s none pa 0).2).1,
        (Deliv.good []).append (deviceSector (requestLine s none pa 0).1 pa 8 (requestLine s none pa 0).2).2) := by
  unfold deviceDeliv
  rw [if_pos (.inl stored), sectorParts_entry aligned]
  rfl

theorem spoilDevice_read (s : State) (pa : Nat) (flips : List Nat) (d : Deliv) : ReadAtHome s (spoilDevice s pa flips d).1 := by
  unfold spoilDevice
  split
  · exact .refl s
  · exact spoilRead_read s pa d.data.length 0 0 true flips

theorem entryRead_read (s : State) (die : Option Nat) {pa : Nat} (stored : classOf pa < 4) :
    ReadAtHome s (entryRead s die pa).1 := by
  have outside_host : classOf pa ≠ 15 := by omega
  cases die with
  | none => exact deviceDeliv_read s pa 8 outside_host
  | some k =>
    have travelled := (travelFrom_read s k (k * 64) none pa false).1
    exact (travelled.trans (deviceDeliv_read _ pa 8 outside_host)).trans (spoilDevice_read ..)

/-- Two such states read the same entry. -/
theorem entryRead_alike {s t : State} (alike : Aside s t) (unflipped : noFlips s) (unflipped' : noFlips t) (k : Nat) {pa : Nat}
    (stored : classOf pa < 4) (aligned : pa % 8 = 0) :
    Aside (entryRead s (some k) pa).1 (entryRead t (some k) pa).1 ∧
      (entryRead t (some k) pa).2 = (entryRead s (some k) pa).2 := by
  have arrives {u : State} (unflipped : noFlips u) :
      entryRead u (some k) pa = deviceDeliv (travelFrom u k (k * 64) none pa false).1 pa 8 := by
    unfold entryRead
    dsimp only
    rw [(travelFrom_read ..).2 unflipped]
    rfl
  rw [arrives unflipped, arrives unflipped', deviceDeliv_stored stored aligned, deviceDeliv_stored stored aligned]
  have travelled := (travelFrom_read s k (k * 64) none pa false).1.flips unflipped
  have travelled' := (travelFrom_read t k (k * 64) none pa false).1.flips unflipped'
  have there := ((travelFrom_aside s k (k * 64) none pa false unflipped).symm.trans alike).trans
    (travelFrom_aside t k (k * 64) none pa false unflipped')
  obtain ⟨asked, was⟩ := requestLine_alike there pa
  dsimp only
  rw [was]
  obtain ⟨keeps, same⟩ := deviceSector_alike asked ((requestLine_read ..).flips travelled)
    ((requestLine_read ..).flips travelled') pa 8 (requestLine (travelFrom s k (k * 64) none pa false).1 none pa 0).2
  exact ⟨keeps, congrArg _ same⟩

/-! ### A walk, level by level -/

/-- The address of a table's entry for an address, by the level's shift. -/
def tableEntry (base va sh : Nat) : Nat := base + va / 2 ^ sh % 512 * 8

/-- How the entry that a level reads ends the walk, if it does. -/
def levelEnd (s : State) (d : Deliv) (pa : Nat) (size : Option PageSize) (last : Bool) : Option Walk :=
  let e := leNat d.data
  if d.isPoison then some (.lost (gradeWord d.src d.nl 3))
  else if !bitOf e 0 then some .invalid
  else if bitOf e 1 then
    match size with
    | some z => some (if leafBad s e z then .malformed else .leaf pa e z)
    | none => some .malformed
  else if last || nodeBad s e then some .malformed
  else none

theorem walkFrom_cons (s : State) (die : Option Nat) (va sh : Nat) (size : Option PageSize) (rest : List (Nat × Option PageSize))
    (base : Nat) :
    walkFrom s die va ((sh, size) :: rest) base =
      let r := entryRead s die (tableEntry base va sh)
      match levelEnd r.1 r.2 (tableEntry base va sh) size rest.isEmpty with
      | some w => (r.1, w)
      | none => walkFrom r.1 die va rest (bitsOf (leNat r.2.data) 51 12 * 4096) := by
  rw [walkFrom, show base + va / 2 ^ sh % 512 * 8 = tableEntry base va sh from rfl]
  generalize entryRead s die (tableEntry base va sh) = r
  obtain ⟨u, d⟩ := r
  unfold levelEnd
  dsimp only
  split
  · rfl
  split
  · rfl
  split
  · cases size with
    | none => rfl
    | some z => dsimp only; split <;> rfl
  split <;> rfl

section
variable {s : State} {die : Option Nat} {va sh base : Nat} {size : Option PageSize} {rest : List (Nat × Option PageSize)}

theorem walkFrom_ends {w : Walk}
    (ends : levelEnd (entryRead s die (tableEntry base va sh)).1 (entryRead s die (tableEntry base va sh)).2
      (tableEntry base va sh) size rest.isEmpty = some w) :
    walkFrom s die va ((sh, size) :: rest) base = ((entryRead s die (tableEntry base va sh)).1, w) := by
  rw [walkFrom_cons]
  dsimp only
  rw [ends]

theorem walkFrom_goes
    (goes : levelEnd (entryRead s die (tableEntry base va sh)).1 (entryRead s die (tableEntry base va sh)).2
      (tableEntry base va sh) size rest.isEmpty = none) :
    walkFrom s die va ((sh, size) :: rest) base =
      walkFrom (entryRead s die (tableEntry base va sh)).1 die va rest
        (bitsOf (leNat (entryRead s die (tableEntry base va sh)).2.data) 51 12 * 4096) := by
  rw [walkFrom_cons]
  dsimp only
  rw [goes]

end

theorem frameBad_of_aside (s x : State) : frameBad (s.aside x) = frameBad s := by
  funext e size
  unfold frameBad
  rw [show hbmBytes (s.aside x) = hbmBytes s from rfl, show unlockedEnd (s.aside x) = unlockedEnd s from rfl,
    show pinEnd (s.aside x) = pinEnd s from rfl, show kvEnd (s.aside x) = kvEnd s from rfl,
    show coreValid (s.aside x) = coreValid s from rfl, show quarantined (s.aside x) = quarantined s from rfl,
    show (s.aside x).net = s.net from rfl]

theorem leafBad_of_aside (s x : State) : leafBad (s.aside x) = leafBad s := by
  unfold leafBad
  rw [frameBad_of_aside]
  rfl

theorem levelEnd_of_aside (s x : State) (d : Deliv) (pa : Nat) (size : Option PageSize) (last : Bool) :
    levelEnd (s.aside x) d pa size last = levelEnd s d pa size last := by
  unfold levelEnd
  rw [leafBad_of_aside, show nodeBad (s.aside x) = nodeBad s from rfl]

/-- A table stands on package storage, at the start of a page. -/
def TableAt (base : Nat) : Prop := classOf base < 4 ∧ base % 4096 = 0

theorem TableAt.entry {base : Nat} (table : TableAt base) (va sh : Nat) :
    classOf (tableEntry base va sh) < 4 ∧ tableEntry base va sh % 8 = 0 := by
  obtain ⟨stored, aligned⟩ := table
  unfold classOf at stored ⊢
  unfold tableEntry
  omega

theorem tableAt_of_levelEnd_none {s : State} {d : Deliv} {pa : Nat} {size : Option PageSize} {last : Bool}
    (goes : levelEnd s d pa size last = none) : TableAt (bitsOf (leNat d.data) 51 12 * 4096) := by
  unfold levelEnd at goes
  dsimp only at goes
  split at goes
  · cases goes
  split at goes
  · cases goes
  split at goes
  · cases size <;> cases goes
  split at goes
  · cases goes
  case isFalse good =>
    simp only [nodeBad, Bool.or_eq_true, decide_eq_true_eq, not_or] at good
    exact ⟨by omega, Nat.mul_mod_left ..⟩

theorem levelEnd_leaf {s : State} {d : Deliv} {pa at_ e : Nat} {size : Option PageSize} {z : PageSize} {last : Bool}
    (ends : levelEnd s d pa size last = some (.leaf at_ e z)) : at_ = pa := by
  unfold levelEnd at ends
  dsimp only at ends
  split at ends
  · cases ends
  split at ends
  · cases ends
  split at ends
  · cases size with
    | none => cases ends
    | some z' =>
      dsimp only at ends
      split at ends
      · cases ends
      · cases ends
        rfl
  split at ends <;> cases ends

theorem walkFrom_alike {s t : State} (alike : Aside s t) (unflipped : noFlips s) (unflipped' : noFlips t) (k va : Nat)
    (levels : List (Nat × Option PageSize)) {base : Nat} (table : TableAt base) :
    (walkFrom t (some k) va levels base).2 = (walkFrom s (some k) va levels base).2 := by
  induction levels generalizing s t base with
  | nil => rfl
  | cons level rest ih =>
    obtain ⟨sh, size⟩ := level
    obtain ⟨stored, aligned⟩ := table.entry va sh
    obtain ⟨keeps, same⟩ := entryRead_alike alike unflipped unflipped' k stored aligned
    have level_same :
        levelEnd (entryRead t (some k) (tableEntry base va sh)).1 (entryRead t (some k) (tableEntry base va sh)).2
            (tableEntry base va sh) size rest.isEmpty =
          levelEnd (entryRead s (some k) (tableEntry base va sh)).1 (entryRead s (some k) (tableEntry base va sh)).2
            (tableEntry base va sh) size rest.isEmpty := by
      rw [same]
      exact keeps.congr (f := fun u => levelEnd u _ _ _ _) fun u x => levelEnd_of_aside u x ..
    cases ends : levelEnd (entryRead s (some k) (tableEntry base va sh)).1 (entryRead s (some k) (tableEntry base va sh)).2
        (tableEntry base va sh) size rest.isEmpty with
    | some w => rw [walkFrom_ends ends, walkFrom_ends (level_same.trans ends)]
    | none =>
      rw [walkFrom_goes ends, walkFrom_goes (level_same.trans ends), same]
      exact ih keeps ((entryRead_read s (some k) stored).flips unflipped) ((entryRead_read t (some k) stored).flips unflipped')
        (tableAt_of_levelEnd_none ends)

theorem walkFrom_read (die : Option Nat) (va : Nat) (levels : List (Nat × Option PageSize)) (s : State) {base : Nat}
    (table : TableAt base) : ReadAtHome s (walkFrom s die va levels base).1 := by
  induction levels generalizing s base with
  | nil => exact .refl s
  | cons level rest ih =>
    obtain ⟨sh, size⟩ := level
    have read := entryRead_read s die (table.entry va sh).1
    cases ends : levelEnd (entryRead s die (tableEntry base va sh)).1 (entryRead s die (tableEntry base va sh)).2
        (tableEntry base va sh) size rest.isEmpty with
    | some w =>
      rw [walkFrom_ends ends]
      exact read
    | none =>
      rw [walkFrom_goes ends]
      exact read.trans (ih _ (tableAt_of_levelEnd_none ends))

theorem walkFrom_leaf {die : Option Nat} {va : Nat} {levels : List (Nat × Option PageSize)} {s : State} {base at_ e : Nat}
    {size : PageSize} (table : TableAt base) (found : (walkFrom s die va levels base).2 = .leaf at_ e size) :
    classOf at_ < 4 ∧ at_ % 8 = 0 := by
  induction levels generalizing s base with
  | nil => cases found
  | cons level rest ih =>
    obtain ⟨sh, z⟩ := level
    cases ends : levelEnd (entryRead s die (tableEntry base va sh)).1 (entryRead s die (tableEntry base va sh)).2
        (tableEntry base va sh) z rest.isEmpty with
    | some w =>
      rw [walkFrom_ends ends] at found
      dsimp only at found
      rw [found] at ends
      rw [levelEnd_leaf ends]
      exact table.entry va sh
    | none =>
      rw [walkFrom_goes ends] at found
      exact ih (tableAt_of_levelEnd_none ends) found

/-! ### A walk from a context's root -/

/-- A root that no HBM holds makes the tables malformed; else the walk begins at a table. -/
theorem walkBy_cases (s : State) (die : Option Nat) (slot va : Nat) :
    walkBy s die slot va = (s, .malformed) ∨
      TableAt ((ctxOf s slot).root * 4096) ∧
        walkBy s die slot va = walkFrom s die va walkLevels ((ctxOf s slot).root * 4096) := by
  unfold walkBy
  dsimp only
  split
  · exact .inl rfl
  case isFalse good =>
    simp only [Bool.or_eq_true, decide_eq_true_eq, not_or] at good
    exact .inr ⟨⟨by omega, Nat.mul_mod_left ..⟩, rfl⟩

theorem walkBy_read (s : State) (die : Option Nat) (slot va : Nat) : ReadAtHome s (walkBy s die slot va).1 := by
  obtain ends | ⟨table, walks⟩ := walkBy_cases s die slot va
  · rw [ends]
    exact .refl s
  · rw [walks]
    exact walkFrom_read die va walkLevels s table

theorem walkBy_leaf {s : State} {die : Option Nat} {slot va at_ e : Nat} {size : PageSize}
    (found : (walkBy s die slot va).2 = .leaf at_ e size) : classOf at_ < 4 ∧ at_ % 8 = 0 := by
  obtain ends | ⟨table, walks⟩ := walkBy_cases s die slot va
  · rw [ends] at found
    cases found
  · rw [walks] at found
    exact walkFrom_leaf table found

/-- The walk that follows a translation which the TLBs held finds what one before it would find. -/
theorem walkBy_alike {s t : State} (alike : Aside s t) (unflipped : noFlips s) (unflipped' : noFlips t) (k slot va : Nat) :
    (walkBy t (some k) slot va).2 = (walkBy s (some k) slot va).2 := by
  have root : ctxOf t slot = ctxOf s slot := alike.congr (f := (ctxOf · slot)) fun _ _ => rfl
  have hbm : hbmBytes t = hbmBytes s := alike.congr (f := hbmBytes) fun _ _ => rfl
  unfold walkBy
  dsimp only
  rw [root, hbm]
  split
  · rfl
  case isFalse good =>
    simp only [Bool.or_eq_true, decide_eq_true_eq, not_or] at good
    exact walkFrom_alike alike unflipped unflipped' k va walkLevels ⟨by omega, Nat.mul_mod_left ..⟩

end Sys2Proof.Machine
end

section
/-! SUPPORT. A device's write of eight bytes changes no other byte where no bit of a sector is flipped, and translating an address
writes but the leaf (R191). -/

namespace Sys2Proof.Machine

/-! ### A masked write changes the bytes of its mask -/

/-- The mask writes no byte at the address. -/
def MaskSpares (sec a : Nat) (upd : List (Option Byte)) : Prop :=
  ∀ b, upd.getD (a - sec * 64) none = some b → ¬(sec * 64 ≤ a ∧ a < sec * 64 + upd.length)

theorem setMasked_spares {m : Memory} {sec a : Nat} {upd : List (Option Byte)} (spares : MaskSpares sec a upd) :
    (setMasked m (sec * 64) upd).byte a = m.byte a := by
  rw [setMasked_byte]
  split
  case isTrue inside =>
    cases written : upd.getD (a - sec * 64) none with
    | none => rfl
    | some b => exact absurd inside (spares b written)
  · rfl

/-- A write that merges with a sector in tail policy 2 keeps the sector's other bytes, given what the sector holds. -/
theorem mergeSector_spares {s : State} {sec a nl onl : Nat} {upd : List (Option Byte)} {covers : Nat → Bool} {dec : Decode64}
    {marked : Bool} (held : dec.data = sectorData s sec) (spares : MaskSpares sec a upd) :
    (mergeSector s sec nl onl 2 upd covers dec marked).mem.byte a = s.mem.byte a := by
  have base : (setMasked (s.mem.writeNat (sec * 64) 64 dec.data) (sec * 64) upd).byte a = s.mem.byte a := by
    rw [setMasked_spares spares, held]
    exact Memory.byte_writeNat_readNat ..
  unfold mergeSector
  dsimp only
  split
  · exact base
  split
  · exact base
  split
  · exact base
  split
  · exact base
  · rw [if_pos (.inr rfl)]
    exact base

theorem maskedPart_spares {s : State} (unflipped : noFlips s) {sec a nl : Nat} {upd : List (Option Byte)} {covers : Nat → Bool}
    {was : Bool} (spares : MaskSpares sec a upd) : (maskedPart s sec upd covers nl 2 was).mem.byte a = s.mem.byte a := by
  have opened := openSector_read s (sec * 64) nl was
  obtain ⟨read, data⟩ := opened
  unfold maskedPart
  dsimp only
  split
  · rfl
  split
  · exact setMasked_spares spares
  split
  · exact setMasked_spares spares
  · have same : (openSector s (sec * 64) nl was).2.1.data = sectorData (openSector s (sec * 64) nl was).1 sec := by
      rw [data unflipped, sectorData_read read unflipped, Nat.mul_div_cancel sec (by decide)]
    exact (mergeSector_spares same spares).trans (read.byte unflipped a)

theorem maskedLine_spares {s : State} (unflipped : noFlips s) {line a nl : Nat} {lo hi : List (Option Byte)}
    (spares_lo : MaskSpares (line * 2) a lo) (spares_hi : MaskSpares (line * 2 + 1) a hi) :
    (maskedLine s none line lo hi nl 2).mem.byte a = s.mem.byte a := by
  unfold maskedLine
  rw [show travel s none (line * 128) true = (s, []) from rfl]
  dsimp only
  rw [spoilSector_mem]
  generalize hr : requestLine s none (line * 128) _ = r
  have asked : ReadAtHome s r.1 := hr ▸ requestLine_read ..
  have low (u : State) (unflipped : noFlips u) :
      noFlips (if lo.any Option.isSome = true then maskedPart u (line * 2) lo (lineWritten line lo hi) nl 2 r.2 else u) ∧
        (if lo.any Option.isSome = true then maskedPart u (line * 2) lo (lineWritten line lo hi) nl 2 r.2 else u).mem.byte a =
          u.mem.byte a := by
    split
    · exact ⟨(maskedPart_home ..).flips unflipped, maskedPart_spares unflipped spares_lo⟩
    · exact ⟨unflipped, rfl⟩
  have high (u : State) (unflipped : noFlips u) :
      noFlips (if hi.any Option.isSome = true then maskedPart u (line * 2 + 1) hi (lineWritten line lo hi) nl 2 r.2 else u) ∧
        (if hi.any Option.isSome = true then maskedPart u (line * 2 + 1) hi (lineWritten line lo hi) nl 2 r.2 else u).mem.byte a =
          u.mem.byte a := by
    split
    · exact ⟨(maskedPart_home ..).flips unflipped, maskedPart_spares unflipped spares_hi⟩
    · exact ⟨unflipped, rfl⟩
  obtain ⟨unflipped_low, kept_low⟩ := low r.1 (asked.flips unflipped)
  obtain ⟨unflipped_high, kept_high⟩ := high _ unflipped_low
  rw [(recodeLine_read ..).byte unflipped_high, kept_high, kept_low]
  exact asked.byte unflipped a

theorem maskSpares_blank (sec a : Nat) : MaskSpares sec a (List.replicate 64 none) := by
  intro b written
  have none_there : (List.replicate 64 (none : Option Byte)).getD (a - sec * 64) none = none := by
    rw [List.getD_eq_getElem?_getD, List.getElem?_replicate]
    split <;> rfl
  rw [none_there] at written
  cases written

theorem maskedSector_spares {s : State} (unflipped : noFlips s) {sec a nl : Nat} {upd : List (Option Byte)}
    (spares : MaskSpares sec a upd) : (maskedSector s none sec upd nl 2).mem.byte a = s.mem.byte a := by
  unfold maskedSector
  dsimp only
  split
  case isTrue even =>
    have low : sec / 2 * 2 = sec := by omega
    exact maskedLine_spares unflipped (by rw [low]; exact spares) (maskSpares_blank _ _)
  case isFalse odd =>
    have high : sec / 2 * 2 + 1 = sec := by omega
    exact maskedLine_spares unflipped (maskSpares_blank _ _) (by rw [high]; exact spares)

theorem maskSpares_sectorMask {pa a : Nat} {bytes : List Byte} (apart : a < pa ∨ pa + bytes.length ≤ a) :
    MaskSpares (pa / 64) a (sectorMask pa bytes) := by
  intro b written inside
  simp only [sectorMask, List.length_map, List.length_range] at inside
  have here : a - pa / 64 * 64 < 64 := by omega
  rw [sectorMask, List.getD_eq_getElem?_getD, List.getElem?_map, List.getElem?_range here] at written
  simp only [Option.map_some, Option.getD_some] at written
  split at written
  · obtain ⟨within, -⟩ := List.getElem?_eq_some_iff.mp written
    omega
  · cases written

/-- A device's write of an entry. -/
theorem deviceWrite_spares {s : State} (unflipped : noFlips s) {pa a : Nat} {bytes : List Byte} (entry : bytes.length = 8)
    (stored : classOf pa < 4) (aligned : pa % 8 = 0) (apart : a < pa ∨ pa + 8 ≤ a) :
    (deviceWrite s pa bytes).mem.byte a = s.mem.byte a := by
  unfold deviceWrite
  rw [entry, sectorParts_entry aligned]
  simp only [List.foldl_cons, List.foldl_nil]
  rw [if_pos (.inl stored), Nat.sub_self, List.drop_zero, List.take_of_length_le entry.le]
  refine maskedSector_spares unflipped (maskSpares_sectorMask ?_)
  rw [entry]
  exact apart

/-! ### What else a translation changes -/

/-- Nothing differs but the fields that accesses at home change, the TLBs and the writers of entries. -/
def TranslationOnly (s t : State) : Prop := HomeOnly { s with tlb := t.tlb, races := t.races } t

theorem TranslationOnly.trans {s t u : State} (h : TranslationOnly s t) (k : TranslationOnly t u) : TranslationOnly s u := by
  unfold TranslationOnly HomeOnly at *
  rw [k, h]

theorem AtHome.translationOnly {s t : State} (h : AtHome s t) : TranslationOnly s t := by
  have only := h.only
  unfold HomeOnly at only
  unfold TranslationOnly HomeOnly
  rw [only]

theorem raceEntry_only (s : State) (at_ : Nat) : TranslationOnly s (raceEntry s at_) := by
  unfold raceEntry
  split
  · exact TranslationOnly.trans (t := { s with races := _ }) rfl (deviceWrite_home ..).translationOnly
  · rfl

theorem swapEntry_only (s : State) (at_ old new : Nat) : TranslationOnly s (swapEntry s at_ old new).1 := by
  have raced := raceEntry_only s at_
  unfold swapEntry
  dsimp only
  split
  · exact raced.trans (deviceWrite_home ..).translationOnly
  · exact raced

/-- The entry with A, and where a write asks it, D. -/
theorem setAD_cases (s : State) (at_ e : Nat) (write : Bool) :
    (setAD s at_ e write).1 = s ∨ ∃ new, (setAD s at_ e write).1 = (swapEntry s at_ e new).1 := by
  unfold setAD
  dsimp only
  generalize (if bitOf e 6 = true then e else e + 2 ^ 6) = accessed
  generalize (if (write && leafPst e == 0 && !bitOf accessed 7) = true then accessed + 2 ^ 7 else accessed) = marked
  split
  · exact .inl rfl
  · refine .inr ⟨marked, ?_⟩
    dsimp only

theorem setAD_only (s : State) (at_ e : Nat) (write : Bool) : TranslationOnly s (setAD s at_ e write).1 := by
  obtain same | ⟨new, swaps⟩ := setAD_cases s at_ e write
  · rw [same]
    rfl
  · rw [swaps]
    exact swapEntry_only ..

/-- A walk ends as it finds the tables, or its leaf is marked and the TLBs take it. -/
theorem xlateTry_cases (s : State) (core slot asid va : Nat) (k : Acc) (user : Bool) :
    (xlateTry s core slot asid va k user).1 = (walkBy s (some (coreDie core)) slot va).1 ∨
      ∃ at_ e size tlb, (walkBy s (some (coreDie core)) slot va).2 = .leaf at_ e size ∧
        (xlateTry s core slot asid va k user).1 =
          { (setAD (walkBy s (some (coreDie core)) slot va).1 at_ e k.writes).1 with tlb := tlb } := by
  unfold xlateTry
  generalize walkBy s (some (coreDie core)) slot va = r
  obtain ⟨t, found⟩ := r
  cases found with
  | invalid | malformed | lost => exact .inl rfl
  | leaf at_ e size =>
    dsimp only
    split
    · exact .inl rfl
    · refine .inr ⟨at_, e, size, ?_⟩
      generalize setAD t at_ e k.writes = q
      obtain ⟨u, e'⟩ := q
      cases e' with
      | none => exact ⟨_, rfl, rfl⟩
      | some e => exact ⟨_, rfl, rfl⟩

theorem xlateTry_only (s : State) (core slot asid va : Nat) (k : Acc) (user : Bool) :
    TranslationOnly s (xlateTry s core slot asid va k user).1 := by
  have walked := (walkBy_read s (some (coreDie core)) slot va).translationOnly
  obtain ends | ⟨at_, e, size, tlb, -, ends⟩ := xlateTry_cases s core slot asid va k user
  · rw [ends]
    exact walked
  · rw [ends]
    exact (walked.trans (setAD_only _ at_ e k.writes)).trans rfl

theorem xlateLoop_only {once : State → State × Option Xl} (only : ∀ s, TranslationOnly s (once s).1) (n : Nat) (s : State) :
    TranslationOnly s (xlateLoop once n s).1 := by
  induction n generalizing s with
  | zero => rfl
  | succ n ih =>
    have first := only s
    unfold xlateLoop
    generalize once s = r at first ⊢
    obtain ⟨t, found⟩ := r
    cases found with
    | none => exact first.trans (ih t)
    | some x => exact first

/-- A translation is a hit that changes nothing, or a walk once the TLBs have lost the address, if they held it. -/
theorem xlate_cases (s : State) (core asid va : Nat) (k : Acc) (user : Bool) :
    (xlate s core asid va k user).1 = s ∨ ∃ slot t, slotOfAsid s asid = some slot ∧ (t = s ∨ t = tlbDrop s asid va) ∧
      xlate s core asid va k user = xlateWalk t core slot asid va k user := by
  unfold xlate
  cases bank : slotOfAsid s asid with
  | none => exact .inl rfl
  | some slot =>
    dsimp only
    split
    · exact .inr ⟨slot, s, rfl, .inl rfl, rfl⟩
    split
    · exact .inr ⟨slot, _, rfl, .inr rfl, rfl⟩
    split
    · exact .inr ⟨slot, _, rfl, .inr rfl, rfl⟩
    · exact .inl rfl

theorem xlate_only (s : State) (core asid va : Nat) (k : Acc) (user : Bool) :
    TranslationOnly s (xlate s core asid va k user).1 := by
  obtain hit | ⟨slot, t, -, start, walks⟩ := xlate_cases s core asid va k user
  · rw [hit]
    rfl
  · rw [walks]
    have walked := xlateLoop_only (fun u => xlateTry_only u core slot asid va k user) (t.races.length + 1) t
    obtain rfl | rfl := start
    · exact walked
    · exact TranslationOnly.trans (t := tlbDrop s asid va) rfl walked

/-! ### The bytes that a translation leaves -/

theorem setAD_spares {s : State} (unflipped : noFlips s) (calm : s.races = []) {at_ a : Nat} (stored : classOf at_ < 4)
    (aligned : at_ % 8 = 0) (apart : a < at_ ∨ at_ + 8 ≤ a) (e : Nat) (write : Bool) :
    (setAD s at_ e write).1.mem.byte a = s.mem.byte a := by
  have unraced : raceEntry s at_ = s := by
    unfold raceEntry
    rw [calm]
    rfl
  obtain same | ⟨new, swaps⟩ := setAD_cases s at_ e write
  · rw [same]
  · rw [swaps, swapEntry, unraced]
    split
    · exact deviceWrite_spares unflipped (leBytes_length ..) stored aligned apart
    · rfl

theorem xlateTry_spares {s : State} (unflipped : noFlips s) (calm : s.races = []) {core slot va a : Nat}
    (apart : ∀ at_ e size, (walkBy s (some (coreDie core)) slot va).2 = .leaf at_ e size → a < at_ ∨ at_ + 8 ≤ a) (asid : Nat)
    (k : Acc) (user : Bool) : (xlateTry s core slot asid va k user).1.mem.byte a = s.mem.byte a := by
  have walked := walkBy_read s (some (coreDie core)) slot va
  obtain ends | ⟨at_, e, size, tlb, found, ends⟩ := xlateTry_cases s core slot asid va k user
  · rw [ends]
    exact walked.byte unflipped a
  · rw [ends]
    obtain ⟨stored, aligned⟩ := walkBy_leaf found
    have still_calm : (walkBy s (some (coreDie core)) slot va).1.races = [] := by
      rw [walked.only]
      exact calm
    exact (setAD_spares (walked.flips unflipped) still_calm stored aligned (apart at_ e size found) e k.writes).trans
      (walked.byte unflipped a)

/-- With no other writer one walk is tried. -/
theorem xlateWalk_calm {s : State} (calm : s.races = []) (core slot asid va : Nat) (k : Acc) (user : Bool) :
    (xlateWalk s core slot asid va k user).1 = (xlateTry s core slot asid va k user).1 := by
  unfold xlateWalk
  rw [calm]
  show (xlateLoop _ 1 s).1 = _
  unfold xlateLoop
  dsimp only
  generalize xlateTry s core slot asid va k user = r
  obtain ⟨t, found⟩ := r
  cases found with
  | none => rfl
  | some x => rfl

theorem tlbDrop_aside (s : State) (asid va : Nat) : Aside s (tlbDrop s asid va) := rfl

/-- Settles O55: a walk reads entries, which changes no byte, and marks its leaf; and it finds the same leaf whether or not the
TLBs lost the address first (`walkBy_alike`). -/
theorem translationLeavesMemory : Obligations.TranslationLeavesMemory := by
  unfold Obligations.TranslationLeavesMemory
  intro s u core asid va slot a k user r translated
  have only := xlate_only s core asid va k user
  have shape := xlate_cases s core asid va k user
  rw [translated] at only shape
  dsimp only at only shape
  refine ⟨by rw [only], by rw [only], by rw [only], fun unflipped calm bank apart => ?_⟩
  obtain hit | ⟨slot', t, bank', start, walks⟩ := shape
  · rw [hit]
  · obtain rfl : slot = slot' := Option.some.inj (bank.symm.trans bank')
    have walked : u = (xlateWalk t core slot asid va k user).1 := congrArg Prod.fst walks
    rw [walked]
    obtain rfl | rfl := start
    · rw [xlateWalk_calm calm]
      exact xlateTry_spares unflipped calm apart asid k user
    · rw [xlateWalk_calm (s := tlbDrop s asid va) calm]
      refine xlateTry_spares (s := tlbDrop s asid va) unflipped calm (fun at_ e size found => ?_) asid k user
      rw [walkBy_alike (tlbDrop_aside s asid va) unflipped unflipped] at found
      exact apart at_ e size found

end Sys2Proof.Machine
end

section
/-! SUPPORT. KVFIND where its word acts (R246, R275): the tags that its lookup meets leave one branch of its body each. -/

namespace Sys2Proof.Machine

/-- The word of a KVFIND. -/
def kvfindSpec (g : Guard) (sd sa : Fin 64) : WordSpec :=
  { opc := 0x6E, guard := g, reads := sRegs true sa.val, writes := sRegs true sd.val }

theorem kvfind_answers (g : Guard) (sd sa : Fin 64) (s : State) :
    CompletesWhen (.kvfind g sd sa) (kvfindSpec g sd sa) (fun t i _ => tagsBad t i.x.asid (i.x.getT sa.val) = false)
      (fun t i _ =>
        let r := kvFind (noteTags t i.x.asid (i.x.getT sa.val)) i.x.asid (i.x.getT sa.val)
        lateWord r.1 i (sDests i.x sd.val 8 r.2) false) s :=
  completes_of rfl fun _ _ _ correctable => if_neg (Bool.eq_false_iff.mp correctable)

theorem kvfind_defers_grade (g : Guard) (sd sa : Fin 64) (s : State) :
    CompletesWhen (.kvfind g sd sa) (kvfindSpec g sd sa) (fun t i _ => tagsBad t i.x.asid (i.x.getT sa.val) = true)
      (fun t i m =>
        let r := noAddress (noteTags t i.x.asid (i.x.getT sa.val)) .grade 0x83 ((gradeWord 2 0 3).toNat / 2 ^ 16) m
        sendLater r.1 i { plainPending r.1 i.w i.e (sDests i.x sd.val 8 0) with
          grade := some (gradeWord 2 0 3), fault := some r.2 } false) s :=
  completes_of rfl fun _ _ _ uncorrectable => if_pos uncorrectable

/-- Settles O17: the two clauses of KVFIND part by its tags; KVPUT and both forms of KVDROP have one way to act. -/
theorem keyValueWordsComplete : Obligations.KeyValueWordsComplete := by
  unfold Obligations.KeyValueWordsComplete
  intro g pin sd sa sc s
  exact ⟨⟨kvfind_answers g sd sa s, kvfind_defers_grade g sd sa s⟩, completes_issue rfl, completes_issue rfl, completes_issue rfl⟩

end Sys2Proof.Machine
end

section
/-! SUPPORT. The events of the network, the host link and the domain (R223 to R239, R355, R455): where a flit that arrives is taken or
turned away, what a resend sends, where an injector acts, and what a peer is answered. -/

namespace Sys2Proof.Machine

theorem Tbl.modify_of_find? {α : Type} {m : Tbl α} {k : Nat} {v : α} (found : m.find? k = some v) (f : α → α) :
    m.modify k f = m.put k (f v) := by
  unfold Tbl.modify
  rw [found]

/-! ### The receipt of flits (R224, R226, R230) -/

theorem exec_netEntryReceive (k : Nat) (room crcOk : Bool) (idErr : Fin 3) (s : State) :
    exec (.netEntryReceive k room crcOk idErr) s = .next (receiveHead s k room crcOk idErr.val) := rfl

section
variable {k : Nat} {c : Chan} {e : NetEntry} {rest : List NetEntry} {s : State} (found : s.chans.find? k = some c)
  (head : c.window = e :: rest) (sending : c.wait = none) (whole : e.lost = false)
include found head sending whole

/-- Past the CRC, the router's check of the identity word and then the receiver's checks say what becomes of the flit. -/
theorem receiveHead_past_crc (room : Bool) (idErr : Nat) :
    let check := identCheck (List.replicate idErr 0)
    let t := takeTurn s k
    let u := logIdent t (c.target t) check
    receiveHead s k room true idErr =
      if check = .dropped then loseHead u k
      else if (room && e.shownSeq == c.expect && e.identOk u c.launch) = true then
        deliverFlit u k c.core c.slot e.received c.launch
      else nackHead u k := by
  unfold receiveHead
  rw [found]
  dsimp only
  rw [head]
  dsimp only
  rw [sending, whole]
  rfl

theorem receiveHead_sound (inOrder : e.shownSeq = c.expect) (own : e.identOk (takeTurn s k) c.launch = true) :
    receiveHead s k true true 0 = deliverFlit (takeTurn s k) k c.core c.slot e.received c.launch := by
  refine (receiveHead_past_crc found head sending whole true 0).trans ((if_neg nofun).trans (if_pos ?_))
  exact Bool.and_eq_true_iff.mpr ⟨beq_iff_eq.mpr inOrder, own⟩

theorem receiveHead_unsound (unsound : ¬(e.shownSeq = c.expect ∧ e.identOk (takeTurn s k) c.launch = true)) :
    receiveHead s k true true 0 = nackHead (takeTurn s k) k := by
  refine (receiveHead_past_crc found head sending whole true 0).trans ((if_neg nofun).trans (if_neg fun passes => unsound ?_))
  exact (Bool.and_eq_true_iff.mp passes).imp_left beq_iff_eq.mp

theorem receiveHead_no_room : receiveHead s k false true 0 = nackHead (takeTurn s k) k :=
  (receiveHead_past_crc found head sending whole false 0).trans ((if_neg nofun).trans (if_neg nofun))

/-- A single error of the identity word is put right and counted. -/
theorem receiveHead_corrected (inOrder : e.shownSeq = c.expect)
    (own : e.identOk (logIdent (takeTurn s k) (c.target (takeTurn s k)) .fixed) c.launch = true) :
    receiveHead s k true true 1 =
      deliverFlit (logIdent (takeTurn s k) (c.target (takeTurn s k)) .fixed) k c.core c.slot e.received c.launch := by
  refine (receiveHead_past_crc found head sending whole true 1).trans ((if_neg nofun).trans (if_pos ?_))
  exact Bool.and_eq_true_iff.mpr ⟨beq_iff_eq.mpr inOrder, own⟩

theorem receiveHead_uncorrectable :
    receiveHead s k true true 2 = loseHead (logIdent (takeTurn s k) (c.target (takeTurn s k)) .dropped) k :=
  (receiveHead_past_crc found head sending whole true 2).trans (if_pos rfl)

theorem receiveHead_crc_failed {i : Nat} (last : c.links.getLast? = some i) (room : Bool) (idErr : Nat) :
    receiveHead s k room false idErr = crcReplay (takeTurn s k) i 0 := by
  unfold receiveHead
  rw [found]
  dsimp only
  rw [head]
  dsimp only
  rw [sending, whole, last]
  rfl

end

/-! ### Resends (R225) -/

theorem exec_netResend_waiting {k : Nat} {c : Chan} {s : State} (found : s.chans.find? k = some c)
    (waits : c.wait.isSome = true) :
    exec (.netResend k) s = .next (resendWindow (takeTurn s k) k { c with turn := s.seq }) := by
  refine exec_of_operation rfl ?_
  rw [found]
  exact if_pos waits

/-- An entry that meets no injector on its way goes on with its original bits. -/
theorem sendEntry_unharmed {s : State} {links : List Nat} (unharmed : links = [] ∨ s.injectors = []) (e : NetEntry) :
    sendEntry s links e = (s, { e with flips := [], lost := false, seen := none }) := by
  unfold sendEntry
  obtain none_crossed | none_armed := unharmed
  · rw [none_crossed]
    exact ite_self _
  · rw [none_armed]
    rfl

/-- Entries sent in turn by ways that no injector strikes: the state is as it was, and each entry has its original bits. -/
theorem foldl_sendEntry_unharmed {s : State} {links : List Nat} (unharmed : links = [] ∨ s.injectors = []) (w sent : List NetEntry) :
    w.foldl (fun (r : State × List NetEntry) e => ((sendEntry r.1 links e).1, r.2 ++ [(sendEntry r.1 links e).2])) (s, sent) =
      (s, sent ++ w.map fun (e : NetEntry) => { e with flips := [], lost := false, seen := none }) := by
  induction w generalizing sent with
  | nil => exact congrArg (Prod.mk s) (List.append_nil sent).symm
  | cons e w ih =>
    rw [List.foldl_cons, sendEntry_unharmed unharmed, ih, List.map_cons, List.append_assoc, List.singleton_append]

theorem resendWindow_unharmed {s : State} {c : Chan} (unharmed : c.links = [] ∨ s.injectors = []) (k : Nat) :
    resendWindow s k c =
      { s with chans := s.chans.put k { c with
          wait := none,
          window := c.window.map fun (e : NetEntry) => { e with flips := [], lost := false, seen := none } } } := by
  unfold resendWindow
  rw [foldl_sendEntry_unharmed unharmed c.window []]
  rfl

theorem exec_netAckTimeout_sent {k : Nat} {c : Chan} {s : State} (found : s.chans.find? k = some c) (sent : c.window ≠ [])
    (sending : c.wait = none) : exec (.netAckTimeout k) s = .next (refuseHead (takeTurn s k) k) := by
  refine exec_of_operation rfl ?_
  rw [found]
  dsimp only
  rw [sending, List.isEmpty_eq_false_iff.mpr sent]
  rfl

/-! ### Deadlock (R227) -/

theorem exec_deadlockProbe_stuck {k : Nat} {c : Chan} {s : State} (found : s.chans.find? k = some c) (stuck : c.stuck = true) :
    exec (.deadlockProbe k) s = .next { s with chans := s.chans.put k { c with probing := true } } := by
  refine exec_of_operation rfl ?_
  rw [Tbl.modify_of_find? found, if_pos stuck]

theorem exec_probeReturn_probing {k : Nat} {c : Chan} {s : State} (found : s.chans.find? k = some c) (probing : c.probing = true)
    (cycle : List Nat) :
    exec (.probeReturn k cycle) s =
      .next (stepCycle { s with chans := s.chans.put k { c with probing := false } } (k :: cycle).eraseDups) := by
  refine exec_of_operation rfl ?_
  rw [found, Tbl.modify_of_find? found]
  exact if_pos probing

theorem exec_probeLost_found {k : Nat} {c : Chan} {s : State} (found : s.chans.find? k = some c) :
    exec (.probeLost k) s = .next { s with chans := s.chans.put k { c with probing := false } } := by
  refine exec_of_operation rfl ?_
  rw [Tbl.modify_of_find? found]

/-! ### The host link (R232 to R234) -/

theorem exec_hostRead_memory {off : Nat} (memory : off < barZero) (n : Nat) (s : State) :
    exec (.hostRead off n) s = .next
      { (hostReadMem (drainHost s) off n).1 with
        replies := (hostReadMem (drainHost s) off n).1.replies ++ [{ off := off, data := (hostReadMem (drainHost s) off n).2 }] } := by
  refine exec_of_operation rfl ?_
  dsimp only
  rw [if_pos memory]

theorem exec_hostRead_registers {off : Nat} (registers : barZero ≤ off) (n : Nat) (s : State) :
    exec (.hostRead off n) s = .next
      { drainHost s with
        replies := (drainHost s).replies ++ [{ off := off, data := leBytes n (devRead (drainHost s) (off - barZero) n) }] } := by
  refine exec_of_operation rfl ?_
  dsimp only
  rw [if_neg (Nat.not_lt.mpr registers)]

theorem egressOne_cons {s : State} {w : Egress} {ws : List Egress} (queued : s.egress = w :: ws) :
    egressOne s = { s with mem := s.mem.setBytes w.pa w.data, egress := ws } := by
  unfold egressOne
  rw [queued]

/-! ### Injectors (R238, R239) -/

theorem exec_injectorArm_inside {i : Nat} (inside : i < 24) (s : State) :
    exec (.injectorArm i) s = .next (armInjector (drainHost s) i) :=
  exec_of_operation rfl (if_pos inside)

theorem exec_injectorFire_nth {i k : Nat} {c : Chan} {s : State} (found : s.chans.find? k = some c)
    (armed : (injectorOf s i).arm = true) (nth : (injectorOf s i).count + 1 = (injectorOf s i).nth) (waits : c.wait.isSome = true)
    (crosses : c.links.contains i = true) :
    exec (.injectorFire i k) s = .next (resendWindow (takeTurn s k) k { c with turn := s.seq }) := by
  refine exec_of_operation rfl ?_
  dsimp only
  rw [found]
  dsimp only
  rw [armed, nth, waits, crosses, beq_self_eq_true]
  rfl

/-- An injector that has acted on one of the n flits that crossed its link. -/
def injectorFired (s : State) (i n : Nat) : State :=
  setInjector s i { injectorOf s i with arm := false, fired := true, count := ((injectorOf s i).count + n) % 2 ^ 32 }

section
variable {i n : Nat} {p : Passed} {s : State} (onWay : p.lost = false) (armed : (injectorOf s i).arm = true)
  (ahead : (injectorOf s i).count < (injectorOf s i).nth) (within : (injectorOf s i).nth ≤ (injectorOf s i).count + n)
include onWay armed ahead within

/-- At its NTH flit an injector acts as its mode says. -/
theorem crossLink_nth :
    let j := injectorOf s i
    let behind := j.count + n - j.nth
    let t := injectorFired s i n
    crossLink n (s, p) i =
      if j.mode = 1 then (replayOn (updLog t (256 + i) fun l => { l with nacks := satAdd32 l.nacks behind }) i (behind + 1), p)
      else if j.mode = 2 then (t, p)
      else if j.precrc = true then passFlips t i p (laneFlips i j)
      else (crcReplay t i behind, p) := by
  have acts : ((injectorOf s i).arm && decide ((injectorOf s i).count < (injectorOf s i).nth) &&
      decide ((injectorOf s i).nth ≤ (injectorOf s i).count + n)) = true := by
    rw [armed, decide_eq_true ahead, decide_eq_true within]
    rfl
  unfold crossLink
  dsimp only
  rw [onWay, if_neg nofun, if_pos acts]
  split
  · next lose => exact (if_pos lose).symm
  · next delay => exact ((if_neg (by omega)).trans (if_pos delay)).symm
  · next not_lose not_delay => exact ((if_neg not_lose).trans (if_neg not_delay)).symm

end

/-! ### The domain (R236, R237, R355) -/

/-- A peer's answer crosses the domain link and stands among the replies. -/
def answerPeer (pkg : Nat) (who : Option Nat) (r : State × List Byte) : State :=
  let b := replyOver r.1 pkg r.2
  { b.1 with peerReplies := b.1.peerReplies ++ [{ pkg := pkg, asid := who, data := b.2 }] }

theorem exec_peerRequest_refused {pkg asid : Nat} {s : State} (refused : admittedAs s pkg asid = none) (pa : Nat) (op : PeerOp) :
    exec (.peerRequest pkg asid pa op) s = .next (answerPeer pkg none (s, [])) := by
  refine exec_of_operation rfl ?_
  rw [refused]
  rfl

theorem exec_peerRequest_admitted {pkg asid who : Nat} {s : State} (admitted : admittedAs s pkg asid = some who) (pa : Nat)
    (op : PeerOp) :
    exec (.peerRequest pkg asid pa op) s = .next (answerPeer pkg (some who) (peerServe s pkg (peerLocal pa) op)) := by
  refine exec_of_operation rfl ?_
  rw [admitted]
  rfl

section
variable {s : State} {who p : Nat} {sz : MSize} (stored : storedAt s p = true) (aligned : p % sz.bytes = 0)
  (sound : (readSector s (some who) p sz.bytes (ownNl s p) 2).2.isPoison = false)
include stored aligned sound

theorem peerAtomic_sound {op : AtomOp} (sized : op.sizes.contains sz = true) (x : BitVec 64) :
    let d := readSector s (some who) p sz.bytes (ownNl s p) 2
    peerAtomic s who p op sz x =
      (uncounted d.1 (writeSector d.1 (some who) p (leBytes sz.bytes (atomValue op sz (leNat d.2.data) x.toNat)) (ownNl d.1 p) 2),
        d.2.data) := by
  unfold peerAtomic
  rw [stored, aligned, sized]
  exact if_neg (Bool.eq_false_iff.mp sound)

/-- A compare-and-swap writes where the bytes read are those expected, and returns them either way. -/
theorem peerCas_sound (sized : sz = .b32 ∨ sz = .b64) (old new : BitVec 64) :
    let d := readSector s (some who) p sz.bytes (ownNl s p) 2
    peerCas s who p sz old new =
      if leNat d.2.data = old.toNat % 2 ^ (8 * sz.bytes) then
        (uncounted d.1 (writeSector d.1 (some who) p (leBytes sz.bytes new.toNat) (ownNl d.1 p) 2), d.2.data)
      else (d.1, d.2.data) := by
  have size : (sz == .b32 || sz == .b64) = true := by simpa using sized
  unfold peerCas
  dsimp only
  rw [stored, aligned, size, if_neg nofun, sound]
  by_cases equal : leNat (readSector s (some who) p sz.bytes (ownNl s p) 2).2.data = old.toNat % 2 ^ (8 * sz.bytes)
  · rw [if_pos equal, equal, bne_self_eq_false]
    rfl
  · rw [if_neg equal, bne_iff_ne.mpr equal]
    rfl

end

theorem peerLease_free {s : State} {p : Nat} (free : leaseOn s (p / 128) = none) (stored : storedAt s p = true) (who : Nat) :
    peerLease s who p =
      (grantLease (reachHome s (some who) p) who (p / 128), (reachHome s (some who) p).mem.bytes (p / 128 * 128) 128) := by
  unfold peerLease
  rw [free, stored]
  rfl

theorem replyOver_uninjected {s : State} (uninjected : s.injectors = []) (pkg : Nat) (bs : List Byte) :
    replyOver s pkg bs = (s, bs) := by
  unfold replyOver
  rw [uninjected]
  rfl

theorem exec_peerUnreachable_new {pkg : Nat} {s : State} (reached : s.peersDown.contains pkg = false) :
    exec (.peerUnreachable pkg true) s = .next { s with peersDown := s.peersDown ++ [pkg] } := by
  refine exec_of_operation rfl ?_
  rw [reached]
  rfl

/-! ### The statement -/

/-- Settles O36: under each clause's conditions the event takes the branch of its operation that the clause names. -/
theorem networkEventsComplete : Obligations.NetworkEventsComplete := by
  unfold Obligations.NetworkEventsComplete
  intro k i off size n pkg asid local_ pa c e rest cycle v v128 data op aop sz x y p down s
  refine ⟨fun found head sending whole => ⟨?_, ?_, ?_, ?_, ?_, ?_⟩, fun found waits => ⟨exec_netResend_waiting found waits, ?_⟩,
    exec_netAckTimeout_sent, exec_deadlockProbe_stuck, fun found probing => exec_probeReturn_probing found probing cycle,
    exec_probeLost_found, rfl, rfl, rfl, fun memory => exec_hostRead_memory memory n s,
    fun registers => exec_hostRead_registers registers n s, rfl, fun w ws queued => congrArg Host.Outcome.next (egressOne_cons queued),
    ⟨fun refused => exec_peerRequest_refused refused pa op, fun admitted => ⟨?_, ?_, ?_, ?_, ?_, ?_⟩,
      fun uninjected => replyOver_uninjected uninjected pkg data⟩,
    fun inside => exec_injectorArm_inside inside s, exec_injectorFire_nth, fun onWay armed ahead within => ⟨?_, ?_, ?_, ?_⟩, rfl,
    fun reached isDown => ?_⟩
  -- NET_ENTRY_RECEIVE
  · exact fun ⟨inOrder, own⟩ => exec_of_operation (exec_netEntryReceive ..) (receiveHead_sound found head sending whole inOrder own)
  · exact fun unsound => exec_of_operation (exec_netEntryReceive ..) (receiveHead_unsound found head sending whole unsound)
  · exact exec_of_operation (exec_netEntryReceive ..) (receiveHead_no_room found head sending whole)
  · exact fun ⟨inOrder, _⟩ own =>
      exec_of_operation (exec_netEntryReceive ..) (receiveHead_corrected found head sending whole inOrder own)
  · exact exec_of_operation (exec_netEntryReceive ..) (receiveHead_uncorrectable found head sending whole)
  · exact fun last => exec_of_operation (exec_netEntryReceive ..) (receiveHead_crc_failed found head sending whole last true 0)
  -- NET_RESEND that no injector strikes
  · exact fun unharmed => exec_of_operation (exec_netResend_waiting found waits)
      (resendWindow_unharmed (s := takeTurn s k) (c := { c with turn := s.seq }) unharmed k)
  -- PEER_REQUEST that is admitted
  · exact exec_peerRequest_admitted admitted pa (.read n)
  · exact exec_peerRequest_admitted admitted pa (.write data)
  · exact fun ⟨stored, aligned, sound⟩ sized => exec_of_operation (exec_peerRequest_admitted admitted ..)
      (congrArg (answerPeer pkg (some local_)) (peerAtomic_sound stored aligned sound sized x))
  · exact fun ⟨stored, aligned, sound⟩ sized equal => exec_of_operation (exec_peerRequest_admitted admitted ..)
      (congrArg (answerPeer pkg (some local_)) ((peerCas_sound stored aligned sound sized x y).trans (if_pos equal)))
  · exact fun ⟨stored, aligned, sound⟩ sized differs => exec_of_operation (exec_peerRequest_admitted admitted ..)
      (congrArg (answerPeer pkg (some local_)) ((peerCas_sound stored aligned sound sized x y).trans (if_neg differs)))
  · exact fun free stored => exec_of_operation (exec_peerRequest_admitted admitted ..)
      (congrArg (answerPeer pkg (some local_)) (peerLease_free free stored (256 + pkg)))
  -- a link's injector, by its mode
  · exact fun lose => (crossLink_nth onWay armed ahead within).trans (if_pos lose)
  · exact fun delay => (crossLink_nth onWay armed ahead within).trans ((if_neg (by omega)).trans (if_pos delay))
  · exact fun not_lose not_delay after => (crossLink_nth onWay armed ahead within).trans
      ((if_neg not_lose).trans ((if_neg not_delay).trans (if_neg (Bool.eq_false_iff.mp after))))
  · exact fun not_lose not_delay before => (crossLink_nth onWay armed ahead within).trans
      ((if_neg not_lose).trans ((if_neg not_delay).trans (if_pos before)))
  -- PEER_UNREACHABLE
  · rw [isDown]
    exact exec_peerUnreachable_new reached

end Sys2Proof.Machine
end

section
/-! SUPPORT. The words that access memory (R257 to R263, R267 to R271) where their words act: each goes on with what its lanes reach,
and a condition leaves one branch of its body. -/

namespace Sys2Proof.Machine

/-- A word whose body, once its lanes may make their accesses, is its effect completes wherever it takes it. -/
theorem completesOn_issue {m : Instr} {ws : WordSpec} {k : AccessKind} {n : Nat} {g : Issuer → Lanes → Lanes}
    {addr : Issuer → Nat → Word64} {eff : State → List (Nat × Word64 × Target) → Issuer → Lanes → WordEnd} {s : State}
    (issues : exec m s = issue ws (fun t i l => withLanes t i k n (g i l) (addr i) fun t' ts => eff t' ts i l) s) :
    CompletesOn m ws k n g addr eff s :=
  completesOn_of issues fun _ _ _ _ _ => rfl

/-- Settles O13: each of these words has one way to go on with what its lanes reach. -/
theorem loadsAndStoresComplete : Obligations.LoadsAndStoresComplete := by
  unfold Obligations.LoadsAndStoresComplete
  intro g sz sco ord ch d sd m op width wm s
  exact ⟨completesOn_issue rfl, completesOn_issue rfl, completesOn_issue rfl, completesOn_issue rfl, completesOn_issue rfl⟩

/-- Settles O14: each atomic word has one way to go on with what its lanes reach; CAS first tries its lanes to learn whether it is a
release. -/
theorem atomicsComplete : Obligations.AtomicsComplete := by
  unfold Obligations.AtomicsComplete
  intro g op sz sco ord d x m s
  exact ⟨completesOn_issue rfl, completesOn_issue rfl, completesOn_issue rfl⟩

/-! ### A parked WAITNE's next check (R98, R271) -/

/-- The state in which the back-off of a parked WAITNE has passed. -/
def backoffPassed (s : State) (w e k : Nat) : State := updSplit s w e fun p => { p with park := some (.waitne 0 k) }

/-- A parked WAITNE whose check is due, and whose split is then ready, begins its run where R98 chooses it and nothing is withheld. -/
theorem execWaitneRecheck_due {s : State} {w : Nat} {e : Fin 4} {left k : Nat}
    (parked : ((warpAt s w).splitAt e.val).park = some (.waitne left k))
    (due : left = 0 ∨ ∀ v ∈ readyWarps s (warpAt s w).core (warpAt s w).quarter, v = w)
    (ready : splitReady (backoffPassed s w e.val k) w e.val = true) :
    let t := backoffPassed s w e.val k
    execWaitneRecheck w e s =
      .next (if gateOf t (warpAt s w).core = 0 ∧ chooseWarp t (warpAt s w).core (warpAt s w).quarter = some w ∧
          chooseSplit t w = some e.val then beginRun t w e.val else t) := by
  have passed : ((left == 0 || (readyWarps s (warpAt s w).core (warpAt s w).quarter).all (· == w)) &&
      splitReady (backoffPassed s w e.val k) w e.val) = true := by
    simpa [ready] using due
  unfold execWaitneRecheck
  simp only [parked]
  exact congrArg Host.Outcome.next (if_pos passed)

theorem Warp.splitAt_setSplit_same {x : Warp} {e : Nat} (inside : e < x.table.splits.length) (f : Split → Split) :
    (x.setSplit e f).splitAt e = f (x.splitAt e) := by
  simp [Warp.splitAt, DivTable.setSplit, List.getD_eq_getElem?_getD, inside]

/-- A back-off that has passed leaves the warp's place and the block that its split has fetched. -/
theorem backoffPassed_warp {s : State} {w e : Nat} (found : (s.warps.find? w).isSome = true)
    (inside : e < (warpAt s w).table.splits.length) (k : Nat) :
    quarterKey (warpAt (backoffPassed s w e k) w) = quarterKey (warpAt s w) ∧
      ((warpAt (backoffPassed s w e k) w).splitAt e).blk = ((warpAt s w).splitAt e).blk := by
  obtain ⟨x, hx⟩ := Option.isSome_iff_exists.mp found
  rw [warpAt_of_find hx] at inside ⊢
  have after : warpAt (backoffPassed s w e k) w = x.setSplit e fun p => { p with park := some (.waitne 0 k) } :=
    warpAt_of_find (by rw [backoffPassed, updSplit_warps, Tbl.find?_modify, if_pos rfl, hx, Option.map_some])
  rw [after, Warp.splitAt_setSplit_same inside]
  exact ⟨rfl, rfl⟩

/-- The run of a re-check that is chosen holds the issue slot and its quarter. -/
theorem recheck_run {s : State} {w e : Nat} {b : Fetched} (found : (s.warps.find? w).isSome = true)
    (inside : e < (warpAt s w).table.splits.length) (blk : ((warpAt s w).splitAt e).blk = some b)
    (free : s.runs.find? (quarterKey (warpAt s w)) = none) (k : Nat) :
    (beginRun (backoffPassed s w e k) w e).focus = some (w, e) ∧
      (beginRun (backoffPassed s w e k) w e).runs.find? (quarterKey (warpAt s w)) = some (w, e) := by
  obtain ⟨key, same_blk⟩ := backoffPassed_warp found inside k
  obtain ⟨focus, runs, -⟩ := beginRun_begins (s := backoffPassed s w e k) (same_blk.trans blk) (by rw [key]; exact free)
  exact ⟨focus, by rw [runs, key, Tbl.find?_put_same]⟩

/-- Settles O15: FENCE, CWB and CINV have one way to act; PREF's condition and WAITNE's leave one branch of their bodies each, and a
re-check that is chosen begins the run of `recheck_run`. -/
theorem orderingWordsComplete : Obligations.OrderingWordsComplete := by
  unfold Obligations.OrderingWordsComplete
  intro g sz sco ord ch flag d x m s
  refine ⟨completes_issue rfl, ?pref, completesOn_issue rfl, completesOn_issue rfl, ?waitne, ?recheck⟩
  case pref => exact completes_of rfl fun _ _ _ room => if_neg (Bool.eq_false_iff.mp room)
  case waitne =>
    refine completesOn_of rfl fun t ts i _ ⟨good, differs⟩ => ?_
    have all_differ : ((readLanes t i.x.core sz.bytes .nol1 ts).2.all
        fun q => leNat q.2.2.data != i.x.dataNat x.val sz.bytes q.1) = true :=
      List.all_eq_true.mpr fun q hq => bne_iff_ne.mpr (differs q hq)
    simp only [waitneCheck, good]
    exact if_pos all_differ
  case recheck =>
    intro w e b left k y t parked blk due ready
    have checked := execWaitneRecheck_due parked due ready
    exact ⟨fun chosen free found inside =>
      ⟨_, checked.trans (congrArg Host.Outcome.next (if_pos chosen)), recheck_run found inside blk free k⟩,
      fun unchosen => checked.trans (congrArg Host.Outcome.next (if_neg unchosen))⟩

end Sys2Proof.Machine
end

section
/-! SUPPORT. RESIDE and the tile and macro words (R272, R273, R276, R296, R297, R313) where their words act: each condition leaves
one branch of its body. -/

namespace Sys2Proof.Machine

/-- Settles O16: the forms on a range have one way to act; the two clauses of RESIDE.tprio part by the reserve's owner. -/
theorem resideCompletes : Obligations.ResideCompletes := by
  unfold Obligations.ResideCompletes
  intro g sd sa sb cls report ntreq tc s
  refine ⟨⟨completes_issue rfl, completes_issue rfl, completes_issue rfl, completes_issue rfl⟩, ?tprio_owner, ?tprio_other⟩
  case tprio_owner => exact completes_of rfl fun _ _ _ owns => if_pos owns
  case tprio_other => exact completes_of rfl fun _ _ _ other => if_neg (Bool.eq_false_iff.mp other)

/-- Settles O18: the two clauses of each word part by whether it serves, and none speaks of a word that waits for cards. -/
theorem arrayWordsComplete : Obligations.ArrayWordsComplete := by
  unfold Obligations.ArrayWordsComplete
  intro g sd n lg s
  refine ⟨⟨?acgrow_fails, ?acgrow_grows⟩, ⟨?acfree_fails, ?acfree_frees⟩, ?marr_serves, ?marr_fails⟩
  case acgrow_fails => exact completes_of rfl fun _ _ _ short => if_pos short
  case acgrow_grows => exact completes_of rfl fun _ _ _ room => if_neg room
  case acfree_fails => exact completes_of rfl fun _ _ _ few => if_pos few
  case acfree_frees =>
    exact completes_of rfl fun _ _ _ ⟨enough, unheld⟩ =>
      (if_neg (Nat.not_lt.mpr enough)).trans (if_neg (Bool.eq_false_iff.mp unheld))
  case marr_serves =>
    exact completes_of rfl fun _ _ _ ⟨unheld, serves⟩ => (if_neg (Bool.eq_false_iff.mp unheld)).trans (if_pos serves)
  case marr_fails =>
    exact completes_of rfl fun _ _ _ ⟨unheld, unserved⟩ =>
      (if_neg (Bool.eq_false_iff.mp unheld)).trans (if_neg (Bool.eq_false_iff.mp unserved))

end Sys2Proof.Machine
end

section
/-! SUPPORT. A word that issues a card, where nothing turns it away (R278, R279, R322): no fault of its record's offset, no poison in
the record, no card on the tiles that it drains, and a slot. -/

namespace Sys2Proof.Machine

/-- Every word that issues a card does so wherever the checks of its issue pass. -/
theorem cardIssues_of {k : Instr} {kind : Nat} {g : Guard} {sd sa : Fin 64} {more : List Reg} {fmt idx : Warp → List Word32} {s : State}
    (issues : exec k s = issue (cardSpec kind g sd sa more) (issueCard kind sd sa fmt idx) s) :
    CardIssues k kind g sd sa more fmt idx s := by
  unfold CardIssues
  refine completes_of issues fun t i m ⟨offset, sound, unheld, slot⟩ => ?_
  have passes : ¬(drainTiles kind (fmt i.x) ≠ [] ∧
      cardsHold (noteSpad t (spadAddr i.x.core ((blockAt t i.x.block).spBase + (i.x.getS sa.val).toNat)) 64) i.x.block
        (drainTiles kind (fmt i.x)) = true) := fun ⟨drains, held⟩ =>
    unheld.elim drains fun free => Bool.false_ne_true (free.symm.trans held)
  simp only [issueCard, offset, sound, passes, Nat.not_le.mpr slot, Bool.false_eq_true, ↓reduceIte]

/-- Settles O20: each of the ten words issues its card with the format words and indices that its operands name. -/
theorem cardsIssue : Obligations.CardsIssue := by
  unfold Obligations.CardsIssue
  intro g sd sa sb sc sel vc s
  exact ⟨cardIssues_of rfl, cardIssues_of rfl, cardIssues_of rfl, cardIssues_of rfl, cardIssues_of rfl, cardIssues_of rfl,
    cardIssues_of rfl, cardIssues_of rfl, cardIssues_of rfl, cardIssues_of rfl⟩

end Sys2Proof.Machine
end

section
/-! SUPPORT. AWAIT and ATEST where their words act (R290, R291): what a batch's end leaves to be said decides the branch. -/

namespace Sys2Proof.Machine

/-- The covered cards of a batch, or of all, have ended, and nothing is due of them: no report, and in user mode no enabled flag. -/
def BatchCalm (n : Option Nat) (t : State) (i : Issuer) : Prop :=
  dueReport i.x n = none ∧ batchRuns t i.w n = false ∧ (i.x.handler.isSome = true ∨ dueFlags i.x n = 0)

theorem awaitBody_calm {n : Warp → Option Nat} {t : State} {i : Issuer} (calm : BatchCalm (n i.x) t i) (m : Lanes) :
    awaitBody n t i m =
      .done (if i.x.handler.isSome = true then acquireCards t i.w (n i.x)
        else updWarp (acquireCards t i.w (n i.x)) i.w (·.awaited (n i.x))) 0 := by
  obtain ⟨noReport, ended, quiet⟩ := calm
  simp only [awaitBody, noReport, ended, Bool.false_eq_true, ↓reduceIte]
  by_cases handler : i.x.handler.isSome = true
  · rw [if_pos handler, if_pos handler]
  · rw [if_neg handler, if_neg handler, if_pos (quiet.resolve_left handler)]

theorem atestBody_eq (pd : Nat) (n : Warp → Option Nat) (t : State) (i : Issuer) (m : Lanes) :
    atestBody pd n t i m =
      if batchRuns t i.w (n i.x) = true then .done (updWarp t i.w fun x => x.putP pd m 0) 0
      else .done (updWarp (acquireCards t i.w (n i.x)) i.w fun x => x.putP pd m m) 0 := by
  by_cases runs : batchRuns t i.w (n i.x) = true <;> simp only [atestBody, runs, Bool.false_eq_true, ↓reduceIte]

/-- Settles O21: AFENCE and ATEST have no way to act but the one said; AWAIT's conditions leave its one branch that completes. -/
theorem batchWordsComplete : Obligations.BatchWordsComplete := by
  unfold Obligations.BatchWordsComplete
  intro g sd sa pd s
  refine ⟨completes_issue rfl, ⟨?await, ?await_all⟩, ?atest, ?atest_all⟩
  case await => exact completes_of rfl fun _ _ m calm => awaitBody_calm (n := fun x => some (x.getS sa.val).toNat) calm m
  case await_all => exact completes_of rfl fun _ _ m calm => awaitBody_calm (n := fun _ => none) calm m
  case atest => exact completes_of rfl fun t i m _ => atestBody_eq pd.val _ t i m
  case atest_all => exact completes_of rfl fun t i m _ => atestBody_eq pd.val (fun _ => none) t i m

end Sys2Proof.Machine
end

section
/-! SUPPORT. The events of cards (R284, R287, R289, R307), the waking of barrier waiters (R349, R353) and the arrival of flits (R360),
each where its conditions leave one branch. -/

namespace Sys2Proof.Machine

section
variable {id : Nat} {c : Card} {s : State} (found : s.cards.find? id = some c)
include found

/-! ### Cards (R284, R287, R289) -/

theorem exec_cardLaunch_next (next : launchesNow s id c = true) :
    exec (.cardLaunch id) s =
      .next (pump { s with cards := s.cards.put id { c with launched := true, failed := launchFault s c } }) := by
  refine exec_of_operation rfl ?_
  rw [found]
  exact if_pos next

theorem exec_cardComplete_sound (ready : runnable s c = true) (sound : (runCard s id c).fault = none) :
    exec (.cardComplete id) s = .next (completeCard id c (runCard s id c)) := by
  refine exec_of_operation rfl ?_
  simp only [found, ready, sound, Option.isSome_none, Bool.false_eq_true, ↓reduceIte]

theorem exec_cardFault_cancelled (cancelled : c.cancelled = true) (held : (s.launches.find? c.launch).isSome = true)
    (going : (launchAt s c.launch).terminated = false) :
    exec (.cardFault id) s = .next (failCard s id c 5 0 c.flags c.tails) := by
  have launch : (s.launches.find? c.launch).isNone = false := Option.isNone_eq_false_iff.mpr held
  refine exec_of_operation rfl ?_
  simp only [found, cancelled, going, launch, Bool.or_self, Bool.false_eq_true, ↓reduceIte]

theorem exec_cardFault_malformed (standing : c.cancelled = false) (bad : malformed s c = true) :
    exec (.cardFault id) s = .next (failCard s id c 0 0 0 []) := by
  refine exec_of_operation rfl ?_
  simp only [found, standing, bad, Bool.false_eq_true, ↓reduceIte]

theorem exec_cardFault_runs {cause : Nat} {a : Word64} (standing : c.cancelled = false) (formed : malformed s c = false)
    (ready : runnable s c = true) (meets : (runCard s id c).fault = some (cause, a)) :
    exec (.cardFault id) s =
      .next (failCard (runCard s id c).s id c cause a (runCard s id c).flags ((runCard s id c).tails ++ c.tails)) := by
  refine exec_of_operation rfl ?_
  simp only [found, standing, formed, ready, meets, Bool.false_eq_true, ↓reduceIte]

end

/-! ### Barrier waiters (R349, R353) -/

/-- What a barrier keeps of its waiters is those on cores that are being moved. -/
theorem wakeBarrier_keeps {s : State} {k : Nat} {b : Barrier} (found : s.barriers.find? k = some b) (held : Nat → Bool) :
    (wakeBarrier s k held).barriers.find? k =
      some { b with wake := b.wake.filter fun w => held (w / 64), done := b.done.filter fun w => held (w / 64) } := by
  unfold wakeBarrier
  rw [found]
  exact Tbl.find?_put_same ..

/-! ### Flits (R360) -/

/-- A flit that no link has harmed comes out as it was sent. -/
theorem received_unharmed {e : NetEntry} (whole : e.flips = []) : e.received = { word := e.payload, near := e.near, bad := false } := by
  simp [NetEntry.received, whole, flipBits]

theorem identOk_unseen {e : NetEntry} (unseen : e.seen = none) (s : State) (launch : Nat) : e.identOk s launch = true := by
  simp only [NetEntry.identOk, unseen]

theorem shownSeq_unseen {e : NetEntry} (unseen : e.seen = none) : e.shownSeq = e.seq := by
  simp only [NetEntry.shownSeq, unseen]

/-- A channel's turn has no part in what a receive queue answers. -/
theorem receipt_takeTurn (s : State) (k core slot launch : Nat) : receipt (takeTurn s k) core slot launch = receipt s core slot launch :=
  rfl

theorem deliverFlit_accepted {s : State} {core slot launch : Nat} (room : receipt s core slot launch = .accepted) (k : Nat) (f : Flit) :
    deliverFlit s k core slot f launch =
      popWindow (updBlock s (core * 16 + slot) fun x => { x with rq := x.rq ++ [f] }) k := by
  simp only [deliverFlit, room]

/-- Settles O32, each clause by the lemma of its event: a card that ends has made all its accesses in that step (log 12), and
the flit of the last is in order, unharmed and taken (`receiveHead_sound`). -/
theorem cardEventsComplete : Obligations.CardEventsComplete := by
  unfold Obligations.CardEventsComplete
  intro id k cause a c b ch e rest s
  refine ⟨exec_cardLaunch_next, exec_cardComplete_sound, exec_cardFault_cancelled, exec_cardFault_malformed,
    fun found => exec_cardFault_runs found, ?wakes, ?arrives⟩
  case wakes => exact fun found => ⟨_, rfl, wakeBarrier_keeps found _⟩
  case arrives =>
    intro found head sending whole unharmed unseen inOrder room
    refine exec_of_operation rfl ?_
    rw [receiveHead_sound found head sending whole ((shownSeq_unseen unseen).trans inOrder) (identOk_unseen unseen ..),
      received_unharmed unharmed]
    exact deliverFlit_accepted ((receipt_takeTurn ..).trans room) k _

end Sys2Proof.Machine
end

section
/-! SUPPORT. A word that issues a card and reads its record in a row whose bank has recorded fifteen errors: the sixteenth declares the
bank failed, and the host's count of failed banks is one higher (R251, R252). -/

namespace Sys2Proof.Machine

/-- CPY S9, [S4], in every active lane. -/
def copyWord : Instr := .cpy { p := 7, neg := false } 9 4

def copySpec : WordSpec := cardSpec 0x80 { p := 7, neg := false } 9 4 []

/-- A warp is about to issue the CPY, with its record in the first row of the scratchpad, which has one flipped bit. The bank of that
bit has recorded fifteen errors within the window. -/
def wornBank : State :=
  let row := spadAddr 0 0 / 64
  { updBlock (State.reset.withFetchWord 64 0x80E0090400000000) 0 fun b => { b with spSize := 64 } with
    rowErrors := [(row, [0])]
    banks := [(arrayOfRow row * 9, { errors := List.replicate 15 0, failed := false, spared := false })] }

/-- The state after the CPY, from the one in which it takes its effect. -/
def copyIssued (i : Issuer) (t : State) : State :=
  i.conclude copySpec (i.lanes copySpec) (issueCard 0x80 9 4 (fun _ => []) (fun _ => []) t (i.within t) (i.lanes copySpec))

theorem exec_copyWord {s t : State} {i : Issuer} (issues : issuer s = some i) (begins : i.begins copySpec s = some t)
    (acts : i.acts copySpec) : exec copyWord s = .next (copyIssued i t) := issue_begins issues begins acts

/-- The CPY puts a card in flight, its warp stays in its mode, and BFAIL goes from 0 to 1. -/
theorem copyWord_fails_bank :
    ((issuer wornBank).any fun i => (i.begins copySpec wornBank).any fun t =>
      decodeAt i == some copyWord && i.lanes copySpec != 0 && (copyIssued i t).cards.length == t.cards.length + 1 &&
        ((copyIssued i t).warps.find? i.w).any (fun y => y.handler.isSome == i.x.handler.isSome) &&
          t.bfail == 0 && (copyIssued i t).bfail == 1) = true := by
  decide +kernel

theorem sameElsewhere.bfail {w : Nat} {s u : State} (h : sameElsewhere w s u) : u.bfail = s.bfail :=
  (congrArg State.bfail h.1 :)

/-- Refutes O56: `sameElsewhere` lets the banks' records change but not the count of failed banks (R252). In `wornBank` the read of
the card's record meets the sixteenth error of its bank, which is declared failed and counted. -/
theorem not_cardsLeaveTheRest : ¬ Obligations.CardsLeaveTheRest := by
  unfold Obligations.CardsLeaveTheRest
  intro leaves
  have issued := copyWord_fails_bank
  simp only [Option.any_eq_true, Bool.and_eq_true, beq_iff_eq, bne_iff_ne] at issued
  obtain ⟨i, issues, t, begins, ⟨⟨⟨⟨-, lanes⟩, card⟩, y, found, mode⟩, before⟩, after⟩ := issued
  obtain ⟨elsewhere, -⟩ := leaves { p := 7, neg := false } 9 4 0 0 0 0 copyWord copySpec wornBank t (copyIssued i t) i
    List.mem_cons_self issues begins (.inl lanes) (exec_copyWord issues begins (.inl lanes)) card y found mode
  exact absurd (after.symm.trans (elsewhere.bfail.trans before)) (by decide)

end Sys2Proof.Machine
end

section
/-! SUPPORT. The accumulator words where they act (R323, R324): past the check of the tile and the wait for the cards that hold it, a
read without poison and a write have one way to end each. -/

namespace Sys2Proof.Machine

/-- The tile that the word's descriptor names is one of the block's, and no card of the block holds it. -/
def TileServes (sa : Nat) (t : State) (i : Issuer) : Prop :=
  let r := rowDesc (i.x.getS sa)
  r.tile < (blockAt t i.x.block).tiles.length ∧
    cardsHold t i.x.block [{ dom := .acc, lo := r.tile, hi := r.tile }] = false

/-- The physical tile that the word's descriptor names. -/
def namedTile (sa : Nat) (t : State) (i : Issuer) : Nat := physTile (blockAt t i.x.block) (rowDesc (i.x.getS sa)).tile

/-- An accumulator word whose tile serves neither traps nor parks: its body takes the tile. -/
theorem withTile_serves {sa : Nat} {t : State} {i : Issuer} (serves : TileServes sa t i)
    (body : State → Issuer → Lanes → RowDesc → Nat → WordEnd) (m : Lanes) :
    withTile sa body t i m = body t i m (rowDesc (i.x.getS sa)) (namedTile sa t i) := by
  obtain ⟨owned, unheld⟩ := serves
  simp only [withTile, Nat.not_le.mpr owned, unheld, Bool.false_eq_true, ↓reduceIte, namedTile]

/-- A read that meets no poison sends its registers the words or the anchors. -/
theorem mreadBody_unpoisoned {anc : Bool} {t : State} {i : Issuer} {m : Lanes} {r : RowDesc} {tile : Nat}
    (clean : poisonLanes t i.x.core tile r anc m = 0) (d : Nat) :
    mreadBody anc d t i m r tile =
      let u := noteMread t i.x.core tile r anc m
      lateWord u i (vDests i.x d (if anc then 4 else 8) m fun l =>
        if anc then (if l < 16 then (anchorOf u i.x.core tile l).toNat else 0)
        else (accWord u i.x.core tile (laneRow r anc l) (l % 16)).toNat) false :=
  if_neg (not_not.mpr clean)

/-- An instruction whose word goes on with its tile completes where the tile serves, as its body says. -/
theorem completes_withTile {k : Instr} {ws : WordSpec} {sa : Nat} {body : State → Issuer → Lanes → RowDesc → Nat → WordEnd}
    {s : State} (issues : exec k s = issue ws (withTile sa body) s) :
    CompletesWhen k ws (fun t i _ => TileServes sa t i)
      (fun t i m => body t i m (rowDesc (i.x.getS sa)) (namedTile sa t i)) s :=
  completes_of issues fun _ _ m serves => withTile_serves serves body m

/-- A read of words or of anchors completes where its tile serves and its lanes meet no poison. -/
theorem mread_completes {k : Instr} {ws : WordSpec} {anc : Bool} {d sa : Nat} {s : State}
    (issues : exec k s = issue ws (withTile sa (mreadBody anc d)) s) :
    CompletesWhen k ws
      (fun t i m => TileServes sa t i ∧
        poisonLanes t i.x.core (namedTile sa t i) (rowDesc (i.x.getS sa)) anc m = 0)
      (fun t i m =>
        let u := noteMread t i.x.core (namedTile sa t i) (rowDesc (i.x.getS sa)) anc m
        lateWord u i (vDests i.x d (if anc then 4 else 8) m fun l =>
          if anc then (if l < 16 then (anchorOf u i.x.core (namedTile sa t i) l).toNat else 0)
          else (accWord u i.x.core (namedTile sa t i) (laneRow (rowDesc (i.x.getS sa)) anc l) (l % 16)).toNat) false) s :=
  (completes_withTile issues).imp (fun _ _ _ ready => ready.1) fun _ _ _ ready => mreadBody_unpoisoned ready.2 d

/-- Settles O19: where the tile serves, a read has the one branch of its body without poison, and the writes have one way to act. -/
theorem accumulatorWordsComplete : Obligations.AccumulatorWordsComplete := by
  unfold Obligations.AccumulatorWordsComplete
  intro g d b sa s
  have writes_words := completes_withTile (k := .mwrite g sa b) (s := s) rfl
  have writes_anchors := completes_withTile (k := .mwriteAnc g sa b) (s := s) rfl
  exact ⟨mread_completes (anc := false) rfl, mread_completes (anc := true) rfl, writes_words, writes_anchors⟩

end Sys2Proof.Machine
end

section
/-! SUPPORT. The barrier words where they act (R352, R364 to R373): each goes on with the barrier that its code names, when the
launch declares it. -/

namespace Sys2Proof.Machine

/-- The launch declares the barrier that a word's code names, and it stands under this key. -/
def FindsBarrier (bar : Bar) (k : Nat) (b : Barrier) (t : State) (i : Issuer) : Prop :=
  barDeclared (launchOf t i.w) bar = true ∧ barFind t i.x.block bar = some (k, b)

theorem onBarrier_found {bar : Bar} {k : Nat} {b : Barrier} {t : State} {i : Issuer} (found : FindsBarrier bar k b t i)
    (m : Lanes) (f : Nat → Barrier → WordEnd) : onBarrier t i m bar f = f k b := by
  obtain ⟨declared, stands⟩ := found
  simp only [onBarrier, declared, stands]


/-- Settles O22: each word goes on with the barrier found, and the conditions on BARW leave one of its branches. -/
theorem barrierWordsComplete : Obligations.BarrierWordsComplete := by
  unfold Obligations.BarrierWordsComplete
  intro g pd sd bar k b s found ws snap
  refine ⟨?arrives, ?abandoned, ?flipped, ?root, ?own⟩
  case arrives => exact completes_of rfl fun t i m h => onBarrier_found h m _
  case abandoned =>
    refine completes_of rfl fun t i m ⟨h, aband, asleep⟩ => (onBarrier_found h m _).trans ?_
    simp [aband, asleep]
  case flipped =>
    refine completes_of rfl fun t i m ⟨h, whole, away⟩ => (onBarrier_found h m _).trans ?_
    have past : (b.aband && !(i.p.park == some .woken)) = false := by
      rcases whole with h | h <;> simp [h]
    simp only [past, away, Bool.false_eq_true, ↓reduceIte]
  case root => exact completes_of rfl fun t i m h => onBarrier_found h m _
  case own => exact completes_of rfl fun t i m h => onBarrier_found h m _

/-- Settles O23: BARQ and BARSET issue their access of the field as their body. -/
theorem barrierFieldWordsComplete : Obligations.BarrierFieldWordsComplete := by
  unfold Obligations.BarrierFieldWordsComplete
  intro g sd bar s
  exact ⟨⟨completes_issue rfl, completes_issue rfl, completes_issue rfl, completes_issue rfl, completes_issue rfl⟩,
    completes_issue rfl, completes_issue rfl, completes_issue rfl, completes_issue rfl, completes_issue rfl⟩

end Sys2Proof.Machine
end

section
/-! SUPPORT. The system words where they act (R394, R399, R407, R410 to R420): the condition of each clause leaves one branch of its
word's body. -/

namespace Sys2Proof.Machine

/-! ### Privilege (R389, R404) -/

/-- A word that decode knows as a system word issues a body, and is PRIV in user mode. -/
theorem systemWord_issues {k : Instr} {ws : WordSpec} (h : systemWord k = some ws) (s : State) :
    ws.sys = true ∧ ∃ body, exec k s = issue ws body s := by
  refine ⟨?_, (systemWord_withLanes h).issues s⟩
  cases k with
  | tret | tretSaved | tlbiPage | tlbiRange | tlbiAsid | genadv | dvsave | dvload | sigset | sigrd | mapft | killw | migr | scrub
  | keyz | qsaveRq | qsaveMac | qsaveRbq | qloadRq | qloadMac | qloadRbq | pgdisc => exact Option.some.inj h ▸ rfl
  | gets | sets =>
    obtain ⟨code, word⟩ := Option.ite_none_right_eq_some.mp h
    exact Option.some.inj word ▸ decide_eq_true code
  | _ => exact nomatch h

theorem issue_privileged {ws : WordSpec} {body : State → Issuer → Lanes → WordEnd} {s : State} {i : Issuer}
    (issues : issuer s = some i) (user : i.x.handler = none) (legal : i.illegal ws = false) (sys : ws.sys = true) :
    issue ws body s = .next (i.trapHere s (i.fault .priv 0 0)) := by
  simp only [issue, issues, Issuer.run, legal, sys, user, Option.isNone_none, Bool.and_self, Bool.false_eq_true, ↓reduceIte]

/-- Settles O60: the check of privilege comes before anything else that a legal system word does. -/
theorem systemWordsArePrivileged : Obligations.SystemWordsArePrivileged := by
  unfold Obligations.SystemWordsArePrivileged
  intro k ws s i word issues user legal
  obtain ⟨sys, body, runs⟩ := systemWord_issues word s
  rw [runs, issue_privileged issues user legal sys]

/-! ### Returns (R399, R407, R419) -/

/-- Settles O24: with the handler's writes landed TRET returns, and PREEMPT's causes 0 and 1 are those that TRET.saved takes. -/
theorem trapReturnsComplete : Obligations.TrapReturnsComplete := by
  unfold Obligations.TrapReturnsComplete
  intro g s
  refine ⟨completes_of rfl fun t i m landed => ?_, completes_of rfl fun t i m opened => ?_⟩
  · simp only [landed, Bool.false_eq_true, ↓reduceIte]
  · rcases opened with cause | cause <;> simp only [cause]

/-! ### Kills and moves (R394, R414, R415) -/

/-- Settles O28: the warp that the number names, if any, and MIGR's status each choose a branch. -/
theorem killAndMigrateComplete : Obligations.KillAndMigrateComplete := by
  unfold Obligations.KillAndMigrateComplete
  intro g sd sa w s ws named
  refine ⟨?nobody, ?other, ?itself, ?accepted, ?refused⟩
  case nobody => exact completes_of rfl fun t i m none => by simp only [named] at none; simp only [none]
  case other =>
    refine completes_of rfl fun t i m ⟨names, apart⟩ => ?_
    simp only [named] at names
    simp only [names, if_neg apart]
  case itself =>
    refine completes_of rfl fun t i m names => ?_
    simp only [named] at names
    simp only [names, ↓reduceIte]
  case accepted => exact completes_of rfl fun t i m ok => by simp only [ok, ↓reduceIte]
  case refused => exact completes_of rfl fun t i m bad => by simp only [if_neg bad]

/-! ### Accesses of system words (R404) -/

theorem sysAccess_reaches {s : State} {i : Issuer} {g : Lanes} {wr : Bool} {ga : Word64} {n align : Nat}
    {r : State × List (Nat × Nat × Target)} (reached : sysReaches s i g wr ga n align r)
    (body : State → List (Nat × Nat × Target) → WordEnd) : sysAccess s i g wr ga n align body = body r.1 r.2 := by
  obtain ⟨checked, free⟩ := reached
  simp only [sysAccess, checked, free]

theorem sysRead_gets {r : State × List (Nat × Nat × Target)} {i : Issuer} {ga : Word64} {seen : List Nat}
    {q : State × List Byte × List Nat} (got : sysGets r i ga seen q) (g : Lanes)
    (body : State → List Byte → List Nat → WordEnd) : sysRead r.1 i g ga r.2 seen body = body q.1 q.2.1 q.2.2 := by
  obtain ⟨sound, rfl⟩ := got
  simp only [sysRead, sound, Bool.false_eq_true, ↓reduceIte]

/-! ### Divergence records and signatures (R410 to R412) -/

/-- Settles O26: DVSAVE and DVLOAD go on with what they reach and read, and the check of a record chooses DVLOAD's branch. -/
theorem recordWordsComplete : Obligations.RecordWordsComplete := by
  unfold Obligations.RecordWordsComplete
  intro g sd sa n r q s
  refine ⟨?save, ⟨?refused, ?loads⟩, completes_issue rfl, completes_issue rfl⟩
  case save => exact completes_of rfl fun t i m reached => sysAccess_reaches reached _
  case refused =>
    refine completes_of rfl fun t i m ⟨⟨reached, got⟩, bad⟩ => ?_
    rw [sysAccess_reaches reached, sysRead_gets got, if_pos bad]
  case loads =>
    refine completes_of rfl fun t i m ⟨⟨reached, got⟩, good⟩ => ?_
    rw [sysAccess_reaches reached, sysRead_gets got, good]
    rfl

/-! ### Scrubs, keys and discards (R403, R416, R417, R420) -/

/-- Settles O29: MGSLOT, the scrub under way, the count and the page that holds the list choose a branch of each word. -/
theorem scrubWordsComplete : Obligations.ScrubWordsComplete := by
  unfold Obligations.ScrubWordsComplete
  intro g sd sa sb r s
  refine ⟨?_, completes_issue rfl⟩
  intro ws mine count fits reads
  have owned {t : State} {i : Issuer} (h : mine t i) : ¬t.scrubReg.mgslot ≠ i.x.ctx := not_not.mpr h
  have admitted {i : Issuer} : (count i = 0 ∨ 2 ^ 20 < count i) ↔ ¬fits i := by simp only [fits]; omega
  refine ⟨?busy, ?unfit, ?short, ?begins, ?key⟩
  case busy => exact completes_of rfl fun t i m ⟨own, busy⟩ => by rw [if_neg (owned own), if_pos busy]
  case unfit =>
    refine completes_of rfl fun t i m ⟨own, free, unfit⟩ => ?_
    rw [if_neg (owned own), if_neg (Bool.eq_false_iff.mp free), if_pos (admitted.mpr unfit)]
  case short =>
    refine completes_of rfl fun t i m ⟨own, free, fit, reached, short⟩ => ?_
    rw [if_neg (owned own), if_neg (Bool.eq_false_iff.mp free), if_neg (mt admitted.mp (not_not.mpr fit)),
      sysAccess_reaches reached, if_pos short]
  case begins =>
    refine completes_of rfl fun t i m ⟨own, free, fit, reached, whole⟩ => ?_
    rw [if_neg (owned own), if_neg (Bool.eq_false_iff.mp free), if_neg (mt admitted.mp (not_not.mpr fit)),
      sysAccess_reaches reached, if_neg (Nat.not_lt.mpr whole)]
  case key => exact completes_of rfl fun t i m own => if_neg (owned own)

/-! ### Images (R418, R419) -/

/-- QSAVE writes its image where nothing holds what it saves. -/
theorem qsaveBody_free {sd sa : Fin 64} {holds : Option (Block → List Extent)} {met : State → Block → State}
    {image : State → Block → Bytes} {r : State × List (Nat × Nat × Target)} {t : State} {i : Issuer} {m : Lanes}
    (free : ∀ f ∈ holds, cardWait t i.x.block (f (blockAt t i.x.block)) = false)
    (reached : sysReaches (met t (blockAt t i.x.block)) i m true (i.x.getT sa.val) (image t (blockAt t i.x.block)).data.length 64 r) :
    qsaveBody sd.val sa.val holds met image t i m =
      statusWord (sysWrite r.1 i r.2 (image t (blockAt t i.x.block))) i sd.val (image t (blockAt t i.x.block)).data.length := by
  have writes : qsaveBody.go sd.val sa.val met image t i m (blockAt t i.x.block) =
      statusWord (sysWrite r.1 i r.2 (image t (blockAt t i.x.block))) i sd.val (image t (blockAt t i.x.block)).data.length := by
    unfold qsaveBody.go
    exact sysAccess_reaches reached _
  cases holds with
  | none => exact writes
  | some f => exact (if_neg (Bool.eq_false_iff.mp (free f rfl))).trans writes

section
variable {sd sa : Fin 64} {head : Nat} {total : Block → List Byte → Option Nat} {install : State → Nat → List Byte → State}
  {r r' : State × List (Nat × Nat × Target)} {h b : State × List Byte × List Nat} {t : State} {i : Issuer} {m : Lanes}
  (reached : sysReaches t i m false (i.x.getT sa.val) head 64 r) (got : sysGets r i (i.x.getT sa.val) [] h)
include reached got

theorem qloadBody_refused (refused : total (blockAt t i.x.block) h.2.1 = none) :
    qloadBody sd.val sa.val head total install t i m = statusWord h.1 i sd.val 1 := by
  rw [qloadBody, sysAccess_reaches reached, sysRead_gets got, refused]

variable {n : Nat} (accepted : total (blockAt t i.x.block) h.2.1 = some n)
include accepted

theorem qloadBody_short (short : n ≤ head) :
    qloadBody sd.val sa.val head total install t i m = statusWord (install h.1 i.x.block h.2.1) i sd.val 0 := by
  rw [qloadBody, sysAccess_reaches reached, sysRead_gets got, accepted]
  exact if_pos short

theorem qloadBody_long (long : head < n) (reached' : sysReaches h.1 i m false (i.x.getT sa.val) n 64 r')
    (got' : sysGets r' i (i.x.getT sa.val) h.2.2 b) :
    qloadBody sd.val sa.val head total install t i m = statusWord (install b.1 i.x.block b.2.1) i sd.val 0 := by
  rw [qloadBody, sysAccess_reaches reached, sysRead_gets got, accepted]
  refine (if_neg (Nat.not_le.mpr long)).trans ?_
  rw [sysAccess_reaches reached', sysRead_gets got']

end

/-- Settles O30: a queue without cards in its way is saved and loaded, and the head of an image says how it is loaded. -/
theorem queueImagesComplete : Obligations.QueueImagesComplete := by
  unfold Obligations.QueueImagesComplete
  intro g sd sa r r' h b s
  refine ⟨?saves, ?loads⟩
  case saves =>
    intro saves macs row
    refine ⟨?queue, ?macros, ?rows⟩
    case queue => exact completes_of rfl fun t i m ⟨_, reached⟩ => qsaveBody_free (fun _ none => nomatch none) reached
    case macros => exact completes_of rfl fun t i m ⟨free, reached⟩ => qsaveBody_free (by rintro f ⟨⟩; exact free) reached
    case rows => exact completes_of rfl fun t i m ⟨free, reached⟩ => qsaveBody_free (by rintro f ⟨⟩; exact free) reached
  case loads =>
    intro header whole short long
    refine ⟨⟨?_, ?_⟩, ?_, ⟨?_, ?_⟩, ⟨?_, ?_⟩, ?_⟩
    · exact completes_of rfl fun t i m ⟨_, ⟨reached, got⟩, refused⟩ => qloadBody_refused reached got refused
    · exact fun n => completes_of rfl fun t i m ⟨_, ⟨reached, got⟩, accepted, fits⟩ => qloadBody_short reached got accepted fits
    · exact fun n => completes_of rfl fun t i m ⟨⟨reached, got⟩, accepted, past, reached', got'⟩ =>
        qloadBody_long reached got accepted past reached' got'
    · exact completes_of rfl fun t i m ⟨free, ⟨reached, got⟩, refused⟩ =>
        (if_neg (Bool.eq_false_iff.mp free)).trans (qloadBody_refused reached got refused)
    · exact fun n => completes_of rfl fun t i m ⟨free, ⟨reached, got⟩, accepted, fits⟩ =>
        (if_neg (Bool.eq_false_iff.mp free)).trans (qloadBody_short reached got accepted fits)
    · exact completes_of rfl fun t i m ⟨_, ⟨reached, got⟩, refused⟩ => qloadBody_refused reached got refused
    · exact fun n => completes_of rfl fun t i m ⟨_, ⟨reached, got⟩, accepted, fits⟩ => qloadBody_short reached got accepted fits
    · exact fun n => completes_of rfl fun t i m ⟨⟨reached, got⟩, accepted, past, reached', got'⟩ =>
        qloadBody_long reached got accepted past reached' got'

/-! ### MAPFT (R413) -/

section
variable {i : Issuer} {sd va n : Nat} {bad : FaultName → Nat → Nat → FaultInfo} {s u u' v : State} {a e f : Nat} {size : PageSize}

/-- The die whose pool serves a leaf (R199). -/
def poolDie (core e : Nat) : Nat := if classOf (leafFrame e) < 4 then classOf (leafFrame e) else coreDie core

theorem mapftLoop_invalid (walked : walkBy s (some (coreDie i.x.core)) i.x.ctx va = (u, .invalid)) :
    mapftLoop i sd va bad (n + 1) s = statusWord u i sd 3 := by
  simp only [mapftLoop, walked]

section
variable (walked : walkBy s (some (coreDie i.x.core)) i.x.ctx va = (u, .leaf a e size))
include walked

theorem mapftLoop_present (present : leafPst e = 0) : mapftLoop i sd va bad (n + 1) s = statusWord u i sd 1 := by
  simp only [mapftLoop, walked, present, ↓reduceIte]

theorem mapftLoop_large (absent : leafPst e ≠ 0) (large : size ≠ .p64K) : mapftLoop i sd va bad (n + 1) s = statusWord u i sd 3 := by
  simp only [mapftLoop, walked, if_neg absent, if_pos large]

end

section
variable (walked : walkBy s (some (coreDie i.x.core)) i.x.ctx va = (u, .leaf a e .p64K)) (absent : leafPst e ≠ 0)
include walked absent

theorem mapftLoop_poolEmpty (none : takeFrame u (poolDie i.x.core e) = (u', none)) :
    mapftLoop i sd va bad (n + 1) s = statusWord u' i sd 2 := by
  simp only [poolDie] at none
  simp only [mapftLoop, walked, if_neg absent, ne_eq, not_true_eq_false, ↓reduceIte, none]

variable (taken : takeFrame u (poolDie i.x.core e) = (u', some f))
include taken

theorem mapftLoop_swapped
    (swapped : swapEntry (zeroFrame (markDirty u' i.x.core i.x.ctx f) f) a e (presentLeaf e f) = (v, true)) :
    mapftLoop i sd va bad (n + 1) s =
      statusWord (retranslate (if leafPst e = 1 then mappingFence (tlbDrop v i.x.asid va) i else v) i.x.asid
        (changedUnits v i.x.ctx i.x.asid va 1)) i sd 0 := by
  simp only [poolDie] at taken
  simp only [mapftLoop, walked, if_neg absent, ne_eq, not_true_eq_false, ↓reduceIte, taken, swapped]

/-- A swap that finds the leaf changed keeps the frame, and the leaf as it now is says what comes next. -/
theorem mapftLoop_lost (lost : swapEntry (zeroFrame (markDirty u' i.x.core i.x.ctx f) f) a e (presentLeaf e f) = (v, false)) :
    mapftLoop i sd va bad (n + 1) s =
      if (bitOf (leNat (v.mem.bytes a 8)) 0 && bitOf (leNat (v.mem.bytes a 8)) 1 && leafPst (leNat (v.mem.bytes a 8)) == 0) = true then
        statusWord (keepFrame v (poolDie i.x.core e) f) i sd 1
      else mapftLoop i sd va bad n (keepFrame v (poolDie i.x.core e) f) := by
  simp only [poolDie] at taken
  rw [mapftLoop]
  simp only [walked, if_neg absent, ne_eq, not_true_eq_false, ↓reduceIte, taken, lost]
  rfl

end

end

/-- Settles O27: the walk, the pool and the swap each choose a branch of MAPFT's first round. -/
theorem mapFaultCompletes : Obligations.MapFaultCompletes := by
  unfold Obligations.MapFaultCompletes
  intro g sd sa u u' v a e f size s ws low walked poolOf
  have inside {i : Issuer} (h : low i) : ¬2 ^ 52 ≤ (i.x.getT sa.val).toNat := Nat.not_le.mpr h
  refine ⟨?unmapped, ?present, ?large, ?poolEmpty, ?_⟩
  case unmapped => exact completes_of rfl fun t i m ⟨h, w⟩ => (if_neg (inside h)).trans (mapftLoop_invalid w)
  case present => exact completes_of rfl fun t i m ⟨h, w, p⟩ => (if_neg (inside h)).trans (mapftLoop_present w p)
  case large => exact completes_of rfl fun t i m ⟨h, w, p, z⟩ => (if_neg (inside h)).trans (mapftLoop_large w p z)
  case poolEmpty => exact completes_of rfl fun t i m ⟨h, w, p, k⟩ => (if_neg (inside h)).trans (mapftLoop_poolEmpty w p k)
  intro takes now present
  refine ⟨?swapped, ?filled, ?again⟩
  case swapped =>
    exact completes_of rfl fun t i m ⟨h, w, p, k, x⟩ => (if_neg (inside h)).trans (mapftLoop_swapped w p k x)
  case filled =>
    exact completes_of rfl fun t i m ⟨⟨h, w, p, k, x⟩, there⟩ =>
      ((if_neg (inside h)).trans (mapftLoop_lost w p k x)).trans (if_pos there)
  case again =>
    exact completes_of rfl fun t i m ⟨⟨h, w, p, k, x⟩, gone⟩ =>
      ((if_neg (inside h)).trans (mapftLoop_lost w p k x)).trans (if_neg gone)

end Sys2Proof.Machine
end

section
/-! SUPPORT. Taking a trap and returning from one, warp by warp (R391, R393, R394, R407). -/

namespace Sys2Proof.Machine

/-! ### Settling, split by split -/

/-- What settling does for one split. -/
def Warp.settleSplit (w : Warp) (e : Nat) : Warp :=
  let p := w.splitAt e
  if !p.valid then w
  else if p.mask &&& w.alive = 0 ∧ ¬(p.frames = [] ∧ p.spilled ≠ 0) then w.arrive arriveFuel e .exited
  else if !p.word && !p.entered && !p.waiting then w.arrive arriveFuel e (.header p.pc true)
  else w

theorem Warp.settle_eq (x : Warp) : x.settle = [0, 1, 2, 3].foldl Warp.settleSplit x := rfl

theorem Warp.settleSplit_invalid {x : Warp} {e : Nat} (invalid : (x.splitAt e).valid = false) : x.settleSplit e = x :=
  if_pos (by rw [invalid]; rfl)

section
variable {x : Warp} {e : Nat} (valid : (x.splitAt e).valid = true) (lanes : (x.splitAt e).mask &&& x.alive ≠ 0)
include valid lanes

/-- A split with no frame and no join around it enters the header at which it stands. -/
theorem Warp.settleSplit_header (header : (x.splitAt e).word = false) (standing : (x.splitAt e).entered = false)
    (going : (x.splitAt e).waiting = false) (frameless : (x.splitAt e).frames = []) (joinless : 4 ≤ (x.splitAt e).join) :
    x.settleSplit e = x.enterHeader e (x.splitAt e).pc true := by
  have enters : x.arrive arriveFuel e (.header (x.splitAt e).pc true) = x.enterHeader e (x.splitAt e).pc true := by
    rw [arriveFuel, Warp.arrive]
    simp only [frameless, Nat.not_lt.mpr joinless, false_and, and_false, ↓reduceIte]
  simp only [settleSplit, valid, lanes, header, standing, going, enters, Bool.not_true, Bool.not_false, Bool.and_self,
    Bool.false_eq_true, false_and, ↓reduceIte]

end

/-! ### A handler starts (R391) -/

theorem Warp.splitAt_setSplit_other {x : Warp} {e k : Nat} (apart : k ≠ e) (f : Split → Split) :
    (x.setSplit e f).splitAt k = x.splitAt k := by
  simp only [splitAt, setSplit, DivTable.setSplit, List.getD_eq_getElem?_getD, List.getElem?_modify, if_neg (Ne.symm apart)]
  cases x.table.splits[k]? <;> rfl

/-- The first split of a handler enters the handler's header; it has no other. -/
theorem Warp.settle_start {x : Warp} {pc : Word64} {m : Lanes} (handler : x.handler.isSome = true)
    (start : x.table = DivTable.start pc m) (lanes : m ≠ 0) : x.settle = x.enterHeader 0 pc true := by
  have first : x.splitAt 0 = { Split.none with valid := true, pc := pc, mask := m } := by
    rw [splitAt, start]
    rfl
  have alive : (x.splitAt 0).mask &&& x.alive ≠ 0 := by
    rw [first, Warp.alive, if_pos handler]
    exact fun h => lanes ((BitVec.and_allOnes (x := m)).symm.trans h)
  have enters : x.settleSplit 0 = x.enterHeader 0 (x.splitAt 0).pc true := by
    have joinless : 4 ≤ (x.splitAt 0).join := first ▸ (by decide : 4 ≤ 7)
    exact settleSplit_header (by rw [first]) alive (by rw [first]; rfl) (by rw [first]; rfl) (by rw [first]; rfl)
      (by rw [first]; rfl) joinless
  have other {e : Nat} (apart : e ≠ 0) (inside : e < 4) : (x.enterHeader 0 pc true).settleSplit e = x.enterHeader 0 pc true := by
    refine settleSplit_invalid ?_
    rw [enterHeader, splitAt_setSplit_other apart, splitAt, start]
    interval_cases e
    · exact absurd rfl apart
    all_goals rfl
  rw [settle_eq, List.foldl_cons, enters, first]
  simp only [List.foldl_cons, List.foldl_nil, other (e := 1) (by decide) (by decide), other (e := 2) (by decide) (by decide),
    other (e := 3) (by decide) (by decide)]

/-! ### Warps that stay and warps that end (R102) -/

section
variable {s : State} {w : Nat} {x : Warp} (found : s.warps.find? w = some x)
include found

theorem settleWarp_stays (stays : ¬((x.settle.table.valid = [] ∨ x.settle.live = 0) ∧ x.settle.handler.isNone = true)) :
    (settleWarp s w).warps.find? w = some x.settle := by
  have settled : (updWarp s w Warp.settle).warps.find? w = some x.settle := by rw [updWarp_find, if_pos rfl, found, Option.map_some]
  simp only [settleWarp, endIfDone, settled, if_neg stays]

end

/-! ### Taking a trap (R391, R393, R394) -/

/-- The lanes that a handler starts with. -/
def FaultInfo.handlerLanes (f : FaultInfo) : Lanes := if f.name = .page ∧ (f.cause = 1 ∨ f.cause = 2) then f.lanes else allLanes

/-- A warp whose handler has entered its header. -/
def Warp.inHandler (x : Warp) (e : Nat) (f : FaultInfo) (r : Place) (entry : Word64) : Warp :=
  (x.openHandler e f r entry).enterHeader 0 entry true

theorem takeTrap_enters {s : State} {w : Nat} {x : Warp} (found : s.warps.find? w = some x) (user : x.handler = none)
    (installed : (ctxOf s x.ctx).hvalid = true) (e : Nat) {f : FaultInfo} (reported : f.lanes ≠ 0) (r : Place) :
    (takeTrap s w e f r).warps.find? w = some (x.inHandler e f r (ctxOf s x.ctx).handler) := by
  have lanes : f.handlerLanes ≠ 0 := by
    unfold FaultInfo.handlerLanes
    split
    · exact reported
    · decide
  have settled : (x.openHandler e f r (ctxOf s x.ctx).handler).settle = x.inHandler e f r (ctxOf s x.ctx).handler :=
    Warp.settle_start rfl rfl lanes
  have opened : (clearFocus (updWarp s w fun x' => x'.openHandler e f r (ctxOf s x.ctx).handler) w).warps.find? w =
      some (x.openHandler e f r (ctxOf s x.ctx).handler) := by
    simp only [clearFocus_other, updWarp_find, found, ↓reduceIte, Option.map_some]
  have trapped : takeTrap s w e f r =
      settleWarp (clearFocus (updWarp s w fun x' => x'.openHandler e f r (ctxOf s x.ctx).handler) w) w := by
    simp only [takeTrap, warpAt_of_find found, user, installed, Bool.true_eq_false, ↓reduceIte]
  rw [trapped, settleWarp_stays opened, settled]
  rw [settled]
  exact fun ⟨_, user⟩ => Bool.false_ne_true user

section
variable (x : Warp) (e : Nat) (f : FaultInfo) (r : Place) (entry : Word64)

/-- The table that a trap preserves (R391). -/
def Warp.preserved : DivTable :=
  (x.setSplit e fun p =>
    { p with pc := r.pc, word := r.word.isSome, hdr := r.word.getD 0,
             entered := p.entered && r.word.isNone && !p.word && p.pc == r.pc }).table

theorem Warp.preserved_other {n : Nat} (apart : n ≠ e) : (x.preserved e r).splits.getD n .none = x.table.splits.getD n .none :=
  splitAt_setSplit_other (x := x) apart _

theorem Warp.preserved_same (inside : e < x.table.splits.length) :
    ((x.preserved e r).splits.getD e .none).mask = (x.splitAt e).mask ∧ ((x.preserved e r).splits.getD e .none).sig = (x.splitAt e).sig ∧
      ((x.preserved e r).splits.getD e .none).frames = (x.splitAt e).frames := by
  have same := splitAt_setSplit_same (x := x) inside fun p =>
    { p with pc := r.pc, word := r.word.isSome, hdr := r.word.getD 0,
             entered := p.entered && r.word.isNone && !p.word && p.pc == r.pc }
  rw [splitAt] at same
  rw [preserved, same]
  exact ⟨rfl, rfl, rfl⟩

theorem Warp.inHandler_rawV {n : Nat} (user : n < 256) : (x.inHandler e f r entry).rawV n = x.rawV n := by
  simp only [rawV, Nat.not_le.mpr user, ↓reduceIte]
  rfl

theorem Warp.inHandler_rawS {n : Nat} (user : n < 256) : (x.inHandler e f r entry).rawS n = x.rawS n := by
  simp only [rawS, Nat.not_le.mpr user, ↓reduceIte]
  rfl

/-- The scratch bank of a handler that starts reads as zero. -/
theorem Warp.inHandler_bankV {n l : Nat} (low : 248 ≤ n) (high : n < 256) (lane : l < 32) :
    ((x.inHandler e f r entry).getV n).lane l = 0 := by
  have bank : (x.inHandler e f r entry).regV n = 256 + n := by
    rw [regV, if_pos]
    simp only [low, high, decide_true, Bool.and_true]
    rfl
  have row : (x.inHandler e f r entry).getV n = Row.zero := by
    rw [getV, bank, rawV, if_pos (Nat.le_add_right ..)]
    rfl
  rw [row, Row.lane, Row.zero, List.getD_replicate _ lane]
  rfl

theorem Warp.inHandler_bankS {n : Nat} (low : 56 ≤ n) (high : n < 60) : (x.inHandler e f r entry).getS n = 0 := by
  have bank : (x.inHandler e f r entry).regS n = 256 + n := by
    rw [regS, if_pos]
    simp only [low, high, decide_true, Bool.and_true]
    rfl
  rw [getS, bank, rawS, if_pos (Nat.le_add_right ..)]
  rfl

end

theorem killWarp_gone {s : State} {w : Nat} {x : Warp} (found : s.warps.find? w = some x) (going : x.stopped = false) (f : Word32)
    (a : Word64) (aux : Word32) (note : Bool) : (killWarp s w f a aux note).warps.find? w = none := by
  simp only [killWarp, warpAt_of_find found, going, Bool.false_and, Bool.false_eq_true, ↓reduceIte, killNow_gone _ _ _ _ found]

/-- Settles O58: the handler that a trap opens is the warp's next state as it stands, and no handler means a kill. -/
theorem trapSavesAndEnters : Obligations.TrapSavesAndEnters := by
  unfold Obligations.TrapSavesAndEnters
  intro s w e f r x found
  refine ⟨fun user installed inside reported => ?enters, fun unable going => ?killed⟩
  case enters =>
    obtain ⟨mask, sig, frames⟩ := x.preserved_same e r inside
    exact ⟨_, _, takeTrap_enters found user installed e reported r, rfl, rfl, rfl, rfl, rfl, rfl, rfl, rfl, rfl, rfl,
      fun n apart => x.preserved_other e r apart, mask, sig, frames, rfl, rfl, rfl, rfl, rfl, rfl,
      fun n user => x.inHandler_rawV e f r _ user, fun n user => x.inHandler_rawS e f r _ user, fun n => rfl,
      fun n l low high lane => x.inHandler_bankV e f r _ low high lane, fun n low high => x.inHandler_bankS e f r _ low high⟩
  case killed =>
    unfold takeTrap
    simp only [warpAt_of_find found]
    cases handler : x.handler with
    | some h => exact killWarp_gone found going ..
    | none =>
      have uninstalled : (ctxOf s x.ctx).hvalid = false := unable.resolve_left (by rw [handler]; exact Bool.false_ne_true)
      simp only [uninstalled, ↓reduceIte, killWarp_gone found going]

/-! ### Returning from one (R407) -/

/-- A warp in a handler whose preserved split had traps taken between two of its words while it waited for a result to land
(R138). -/
def waitingBelow : Warp :=
  { Warp.blank with
    live := allLanes, table := DivTable.start 0x1000 allLanes,
    handler := some
      { table := (DivTable.start 0x1008 allLanes).setSplit 0 fun p => { p with word := true, hdr := 0x1000, park := some (.landing 0) },
        flags := 0, tpc := 0x1008, tword := true, thdr := 0x1000, tsplit := 0, fault := 0, bankV := [], bankS := [], cls := 0 } }

/-- TRET leaves the wait for a landing: the split resumes parked. -/
theorem waitingBelow_resumes :
    ((returnFromTrap { State.reset with warps := [(0, waitingBelow)] } 0).warps.find? 0).map (fun y => (y.splitAt 0).park) =
      some (some (.landing 0)) := by
  rfl

/-- Refutes O59: a split that waits for a result to land (R138) when a trap between two of its words is taken waits for it still
when TRET resumes it; the statement has it resume unparked. -/
theorem not_trapReturnRestores : ¬ Obligations.TrapReturnRestores := by
  unfold Obligations.TrapReturnRestores
  intro restores
  obtain ⟨-, -, resumes⟩ := restores { State.reset with warps := [(0, waitingBelow)] } 0 waitingBelow _ rfl rfl
  obtain ⟨y, found, -, -, -, -, unparked, -⟩ := resumes rfl rfl rfl rfl (by decide)
  have parked := waitingBelow_resumes
  rw [found, Option.map_some, unparked] at parked
  exact nomatch parked

end Sys2Proof.Machine
end

section
/-! SUPPORT. Every step answers (R388, R389, R394): a word answers while a split holds the issue slot, an event always, and what the
package chooses by itself is an event. -/

namespace Sys2Proof.Machine

/-- The machine goes on: it neither faults nor refuses. -/
def Answers (r : Host.Outcome State Fault Refusal) : Prop := ∃ t, r = .next t

theorem answers_next (t : State) : Answers (.next t) := ⟨t, rfl⟩

theorem answers_ite {c : Prop} [Decidable c] {r q : Host.Outcome State Fault Refusal} (hr : Answers r) (hq : Answers q) :
    Answers (if c then r else q) := by
  split <;> assumption

/-! ### Words and events -/

theorem word_answers {k : Instr} (word : k.isEvent = false) {s : State} (issues : (issuer s).isSome = true) : Answers (exec k s) := by
  have issued (ws : WordSpec) (body : State → Issuer → Lanes → WordEnd) : Answers (issue ws body s) := issue_next issues
  cases k with
  | cvt g ty sty m d a b => exact answers_ite (issued ..) (issued ..)
  | nop | yield | exit | brk | bra | brx | call | callv | ret | dispatch | role | launch | trap | wsync | add | sub | addc | subb | mul | mulhi | mad | madw
  | min | max | abs | neg | and | or | xor | not | shl | shr | sar | rot | bfe | bfi | popc | clz | brev | prmt | sad | lea | idiv | irem
  | lop3 | iset | fset | sel | plop | fclassPred | fclassMask | vote | matchLanes | pmovPack | pmovUnpack | fadd | fsub | fmul | ffma
  | fmin | fmax | frcp | frsq | fsqrt | fdiv | fexp2 | flog2 | fsin | fcos | ftanh | fdot2 | frnd | fscale | fgetx | fgetm | sbpack
  | sbunpk | sbscl | rng | mov | movl | shfl | bcast | redux | gets | sets | ld | st | lds | sts | ldg | atom | red | cas | fence | pref
  | cwb | cinv | waitne | resideClass | residePin | resideUnpin | resideTprio | resideClose | kvfind | kvput | kvdrop | kvdropTensor
  | acgrow | acfree | cpy | cpym | cpysc | xpose | sred | afence | awaitBatch | awaitAll | atest | atestAll | marr | bload | minit | mma
  | mmasp | mdrain | mread | mreadAnc | mwrite | mwriteAnc | bara | barw | barsRoot | barsOwn | barqRoot | barqMem | barqArr | barqEarly
  | barqWait | barsetRoot | barsetMem | barsetArr | barsetEarly | barsetWait | tret | tretSaved | tlbiPage | tlbiRange | tlbiAsid
  | genadv | dvsave | dvload | sigset | sigrd | mapft | killw | migr | scrub | keyz | qsaveRq | qsaveMac | qsaveRbq | qloadRq | qloadMac
  | qloadRbq | pgdisc => exact issued ..
  | _ => exact nomatch word

theorem event_answers {k : Instr} (event : k.isEvent = true) (s : State) : Answers (exec k s) := by
  cases k with
  | waitneRecheck | blockFetch | quarterRunSelect | pendingWriteLands | deferredFaultTaken | preemptTaken | migrateTaken | cardLaunch
  | cardComplete | cardFault | barrierWake | messageArrive | lqEntryTake | placementDecision | gangHeld | calleeWarpForm
  | blockRetire | lqConfigWrite | lqBaseWrite | lqTailWrite | term | pageWalk | fresume | frtailWrite | depoch
  | harvestEpochComplete | contextEnd | apply | applyWithdraw | splitApplied | homeAccess | hbmFill | missRatioWindowEnd | homeAtomic
  | kvOpAtHome | netEntryReceive | netResend | netAckTimeout | deadlockProbe | probeReturn | probeLost | netControlWrite
  | hostPostedWrite | hostRead | deviceRegisterAccess | hostEgress | peerRequest | injectorArm | injectorFire | peerUnreachable
  | bankFailed | spareSubstitute | leaseGrant | leaseEnd | leaseRecall | leaseExpiry | pre | preemptComplete | res
  | savedBlockReadmit | impgo | scrubComplete | rsgo | epochClearing | operatingPointChange | nearThresholdWindow | capCommand
  | fastThrottleSample | thermalReading | thermalMigrationStart | thermalMigrationComplete | measuredBoot | attestationRequest
  | lifetimeFold | powerLoss => exact answers_next _
  | _ => exact nomatch event

/-! ### What the package chooses by itself (log 1) -/

/-- What is chosen, if anything, is an event. -/
def GivesEvent (o : Option Instr) : Prop := ∀ k, o = some k → k.isEvent = true

theorem givesEvent_none : GivesEvent none := fun _ none => nomatch none

theorem givesEvent_some {k : Instr} (event : k.isEvent = true) : GivesEvent (some k) := fun _ chosen => Option.some.inj chosen ▸ event

theorem givesEvent_ite {c : Prop} [Decidable c] {o p : Option Instr} (ho : GivesEvent o) (hp : GivesEvent p) :
    GivesEvent (if c then o else p) := by
  split <;> assumption

theorem givesEvent_map {α : Type} {f : α → Instr} (events : ∀ a, (f a).isEvent = true) (o : Option α) : GivesEvent (o.map f) := by
  intro k chosen
  obtain ⟨a, -, rfl⟩ := Option.map_eq_some_iff.mp chosen
  exact events a

theorem givesEvent_findSome {α : Type} {f : α → Option Instr} (events : ∀ a, GivesEvent (f a)) (l : List α) :
    GivesEvent (l.findSome? f) := by
  intro k chosen
  obtain ⟨a, -, ha⟩ := List.exists_of_findSome?_eq_some chosen
  exact events a k ha

theorem givesEvent_orElse {o p : Option Instr} (ho : GivesEvent o) (hp : GivesEvent p) : GivesEvent (o.orElse fun _ => p) := by
  cases o with
  | none => exact hp
  | some k => exact ho

section
variable (s : State)

theorem autoLanding_event : GivesEvent (autoLanding s) := givesEvent_map (fun _ => rfl) _

theorem autoTrap_event : GivesEvent (autoTrap s) := by
  refine givesEvent_findSome (fun ⟨w, x⟩ => ?_) _
  show GivesEvent (warpTrap w x)
  unfold warpTrap
  split
  · exact givesEvent_none
  · split
    · exact givesEvent_some rfl
    · split
      · exact givesEvent_ite givesEvent_none (givesEvent_ite (givesEvent_some rfl) (givesEvent_ite (givesEvent_some rfl) givesEvent_none))
      · exact givesEvent_none

theorem cardEnd_event (id : Nat) (c : Card) : GivesEvent (cardEnd s id c) :=
  givesEvent_ite (givesEvent_some rfl)
    (givesEvent_ite (givesEvent_ite (givesEvent_some rfl) (givesEvent_some rfl)) givesEvent_none)

theorem autoLaunchCard_event : GivesEvent (autoLaunchCard s) :=
  givesEvent_findSome (fun _ => givesEvent_ite (givesEvent_some rfl) (givesEvent_ite (givesEvent_some rfl) givesEvent_none)) _

theorem autoCardDue_event : GivesEvent (autoCardDue s) :=
  givesEvent_findSome (fun _ => givesEvent_ite (cardEnd_event s _ _) givesEvent_none) _

theorem autoCard_event : GivesEvent (autoCard s) := givesEvent_findSome (fun _ => cardEnd_event s _ _) _

theorem autoWake_event : GivesEvent (autoWake s) := givesEvent_map (fun _ => rfl) _

theorem chanEvent_event (k : Nat) (c : Chan) : GivesEvent (chanEvent s k c) := by
  unfold chanEvent
  split
  · exact givesEvent_none
  · exact givesEvent_ite givesEvent_none (givesEvent_ite (givesEvent_some rfl) (givesEvent_ite (givesEvent_some rfl) (givesEvent_some rfl)))

theorem autoMessage_event : GivesEvent (autoMessage s) := by
  unfold autoMessage
  refine List.foldlRecOn (motive := fun best : Option (Nat × Instr) => GivesEvent (best.map (·.2))) s.chans _ ?_ ?_
  · exact givesEvent_none
  rintro best soFar ⟨k, c⟩ -
  have event := chanEvent_event s k c
  dsimp only
  split
  · exact soFar
  · next i chosen => exact givesEvent_some (event i chosen)
  · next i t _ chosen =>
    split
    · exact givesEvent_some (event i chosen)
    · exact soFar

theorem autoFetch_event : GivesEvent (autoFetch s) :=
  givesEvent_findSome (fun _ => givesEvent_ite (givesEvent_map (fun _ => rfl) _) givesEvent_none) _

theorem autoContext_event : GivesEvent (autoContext s) :=
  givesEvent_ite (givesEvent_some rfl) <| givesEvent_ite (givesEvent_some rfl) <| givesEvent_findSome (fun _ =>
    givesEvent_ite (givesEvent_some rfl) <| givesEvent_ite (givesEvent_some rfl) <| givesEvent_ite (givesEvent_some rfl) <|
      givesEvent_ite (givesEvent_some rfl) givesEvent_none) _

theorem autoStore_event : GivesEvent (autoStore s) :=
  givesEvent_orElse (givesEvent_map (fun _ => rfl) _) (givesEvent_findSome (fun _ => givesEvent_map (fun _ => rfl) _) _)

theorem autoLaunch_event : GivesEvent (autoLaunch s) :=
  givesEvent_orElse (givesEvent_map (fun _ => rfl) _) <| givesEvent_orElse (givesEvent_map (fun _ => rfl) _) <|
    givesEvent_orElse (givesEvent_map (fun _ => rfl) _) <| givesEvent_orElse (givesEvent_ite (givesEvent_some rfl) givesEvent_none) <|
      givesEvent_findSome (fun _ => givesEvent_ite (givesEvent_map (fun _ => rfl) _) givesEvent_none) _

theorem autoPower_event : GivesEvent (autoPower s) :=
  givesEvent_orElse (givesEvent_map (fun _ => rfl) _) <|
    givesEvent_orElse (givesEvent_findSome (fun _ => givesEvent_map (fun _ => rfl) _) _) (givesEvent_map (fun _ => rfl) _)

theorem autoHost_event : GivesEvent (autoHost s) := givesEvent_ite (givesEvent_some rfl) givesEvent_none

theorem autoRun_event : GivesEvent (autoRun s) := by
  unfold autoRun
  dsimp only
  split
  · exact givesEvent_ite (givesEvent_some rfl) (givesEvent_some rfl)
  · exact givesEvent_some rfl
  · exact givesEvent_some rfl
  · exact givesEvent_none

theorem autoRecheck_event : GivesEvent (autoRecheck s) := givesEvent_map (fun _ => rfl) _

theorem nextAuto_event : GivesEvent (nextAuto s) := by
  intro k chosen
  obtain ⟨f, kind, hf⟩ := List.exists_of_findSome?_eq_some chosen
  simp only [List.mem_cons, List.not_mem_nil, or_false] at kind
  rcases kind with rfl | rfl | rfl | rfl | rfl | rfl | rfl | rfl | rfl | rfl | rfl | rfl | rfl | rfl | rfl
  · exact autoLanding_event s k hf
  · exact autoTrap_event s k hf
  · exact autoLaunchCard_event s k hf
  · exact autoCardDue_event s k hf
  · exact autoWake_event s k hf
  · exact autoMessage_event s k hf
  · exact autoFetch_event s k hf
  · exact autoContext_event s k hf
  · exact autoStore_event s k hf
  · exact autoLaunch_event s k hf
  · exact autoPower_event s k hf
  · exact autoHost_event s k hf
  · exact autoRun_event s k hf
  · exact autoCard_event s k hf
  · exact autoRecheck_event s k hf

/-! ### Steps -/

theorem exec_answers {s : State} (issues : (issuer s).isSome = true) (k : Instr) : Answers (exec k s) := by
  cases kind : k.isEvent with
  | false => exact word_answers kind issues
  | true => exact event_answers kind s

theorem stepWord_answers : Answers (stepWord exec s) := by
  unfold stepWord
  split
  · exact answers_next _
  · next i issues =>
    have holds : (issuer s).isSome = true := by rw [issues]; rfl
    split
    · exact exec_answers holds _
    · rw [issueIllegal, issues]
      exact answers_next _

theorem stepInput_answers (k : Input) : Answers (stepInput exec s k) := by
  cases k with
  | event i =>
    show Answers (if i.isEvent = true then exec i s else .next s)
    split
    · next event => exact event_answers event s
    · exact answers_next s
  | issue w e => exact answers_ite (stepWord_answers _) (answers_next s)
  | softError | hbmError | refused | rowError | requestQueue | peerRefuses | engineError | entryRace | evict => exact answers_next _

theorem stepAuto_answers : Answers (stepAuto exec s) := by
  unfold stepAuto
  refine answers_ite (answers_next _) (answers_ite (answers_next _) ?_)
  split
  · exact stepWord_answers _
  · split
    · next k chosen => exact event_answers (nextAuto_event s k chosen) s
    · exact answers_next s

end

/-- Settles O48: an entry of the agenda, a word and a step of the package's own each answer. -/
theorem stepAlwaysAnswers : Obligations.StepAlwaysAnswers := by
  unfold Obligations.StepAlwaysAnswers
  intro s
  show Answers (step s)
  unfold step
  split
  · exact stepInput_answers _ _
  · exact answers_ite (stepWord_answers s) (stepAuto_answers s)

end Sys2Proof.Machine
end

section
/-! SUPPORT. The events of contexts: the frame that the scrub zeroes, the registers of the scrub, and the length of a summary (R398 to
R403, R452, R453). -/

namespace Sys2Proof.Machine

/-! ## The scrub (R403) -/

theorem HomeOnly.scrubReg {s t : State} (h : HomeOnly s t) : t.scrubReg = s.scrubReg := by rw [h]

theorem notify_scrubReg (s : State) (slot : Nat) (n : Notice) : (notify s slot n).scrubReg = s.scrubReg := by
  unfold notify
  dsimp only
  split
  · rfl
  · exact (drainEgress_home _).only.scrubReg.trans (deviceWrite_home ..).only.scrubReg

/-- A frame zeroed reads as zero. -/
theorem zeroFrame_byte (s : State) (pa : Nat) {a : Nat} (low : pa ≤ a) (high : a < pa + 65536) : (zeroFrame s pa).mem.byte a = 0 := by
  have gone : (decide (a < pa) || decide (pa + 65536 ≤ a)) = false := by simp; omega
  unfold zeroFrame Memory.byte Tbl.getD
  dsimp only
  rw [Tbl.find?_filter_key (p := fun k => k < pa || pa + 65536 ≤ k), gone]
  rfl

theorem scrubEntry_frame (s : State) (e : Word64) (frame : bitsOf e.toNat 1 0 = 0) :
    scrubEntry s e = zeroFrame s (leafFrame e.toNat) := by
  simp only [scrubEntry, frame]

/-- With entries left, the scrub counts the one it has done and goes on. -/
theorem scrubNext_goes_on {s : State} (busy : s.scrubReg.sbusy = true) (left : s.scrubReg.sdone + 1 < s.scrubReg.scount) :
    (scrubNext s).scrubReg = { s.scrubReg with sdone := s.scrubReg.sdone + 1 } ∧
      ∀ e a, s.scrubReg.entries[s.scrubReg.sdone]? = some e → bitsOf e.toNat 1 0 = 0 →
        leafFrame e.toNat ≤ a → a < leafFrame e.toNat + 65536 → (scrubNext s).mem.byte a = 0 := by
  refine ⟨?_, fun e a entry frame low high => ?_⟩
  · simp only [scrubNext, busy, left, Bool.not_true, Bool.false_eq_true, ↓reduceIte]
  · simp only [scrubNext, busy, left, entry, scrubEntry_frame s e frame, Bool.not_true, Bool.false_eq_true, ↓reduceIte]
    exact zeroFrame_byte s _ low high

theorem finishScrub_scrubReg (s : State) : (finishScrub s).scrubReg =
    { s.scrubReg with sdone := s.scrubReg.scount, quar := false, sbusy := false, entries := [] } := by
  unfold finishScrub
  dsimp only
  split
  · rfl
  · exact notify_scrubReg ..

/-- With its last entry, the scrub finishes. -/
theorem scrubNext_finishes {s : State} (busy : s.scrubReg.sbusy = true) (last : s.scrubReg.scount ≤ s.scrubReg.sdone + 1) :
    (scrubNext s).scrubReg = { s.scrubReg with sdone := s.scrubReg.scount, quar := false, sbusy := false, entries := [] } := by
  simp only [scrubNext, busy, Nat.not_lt.mpr last, Bool.not_true, Bool.false_eq_true, ↓reduceIte]
  exact finishScrub_scrubReg _

/-! ## The summary (R452) -/

theorem fitPieces_length (n : Nat) (pieces : List (List Byte)) : (fitPieces n pieces).length ≤ n := by
  induction pieces generalizing n with
  | nil => exact Nat.zero_le n
  | cons p ps ih =>
    unfold fitPieces
    split
    · next fits =>
      have rest := ih (n - p.length)
      rw [List.length_append]
      omega
    · exact Nat.zero_le n

theorem writeSummary_rsused (s : State) : (writeSummary s).house.rsused.toNat ≤ s.house.rssize.toNat :=
  (Nat.mod_le ..).trans (fitPieces_length ..)

theorem execRsgo_recovered (s : State) (whole : s.recovery = false) : execRsgo s = .next (writeSummary (drainHost s)) := by
  rw [execRsgo, whole, if_neg Bool.false_ne_true]

/-! ## Pre-emption, resumption and import (R398 to R401, R453) -/

theorem execSavedBlockReadmit_some {slot : Nat} {s : State} {r : Saved} (fits : readmittable s (slot % 64) = some r) :
    execSavedBlockReadmit slot s = .next (settleResume (readmit s r) (slot % 64)) := by
  rw [execSavedBlockReadmit, fits]

theorem importAll_busy {s : State} {slot : Nat} (busy : importIdle s slot = false) : importAll s slot = endImport s slot 1 := by
  simp only [importAll, busy, Bool.not_false, ↓reduceIte]

/-- Settles O37: each event by the case of its conditions, the scrub by whether an entry is left. -/
theorem contextEventsComplete : Obligations.ContextEventsComplete := by
  unfold Obligations.ContextEventsComplete
  intro slot r s
  refine ⟨fun idle => ?_, fun _ => rfl, fun saved => ?_, execSavedBlockReadmit_some, fun busy => ?_, rfl,
    fun busy left => ⟨_, rfl, scrubNext_goes_on busy left⟩, fun busy last => ⟨_, rfl, scrubNext_finishes busy last⟩,
    fun whole => ⟨_, execRsgo_recovered s whole, rfl, writeSummary_rsused _⟩, fun recovery => ?_⟩
  · exact congrArg Host.Outcome.next (if_neg (not_not.mpr idle))
  · exact congrArg Host.Outcome.next (if_neg (not_not.mpr saved))
  · exact congrArg Host.Outcome.next (importAll_busy busy)
  · exact congrArg Host.Outcome.next (if_pos recovery)

end Sys2Proof.Machine
end

section
/-! SUPPORT. A device's own write is no home access of an island's window (R427): it carries no core, and no count of a window
moves. -/

namespace Sys2Proof.Machine

/-! ### The sectors of a line -/

theorem countGrade_islandUse (s : State) (die cls nl g : Nat) : (countGrade s die cls nl g).islandUse = s.islandUse := by
  unfold countGrade
  dsimp only
  split <;> rfl

theorem countDecode_islandUse (s : State) (pa : Nat) (held bypass : Bool) (nl : Nat) (dec : Decode64) :
    (countDecode s pa held bypass nl dec).islandUse = s.islandUse := by
  unfold countDecode
  dsimp only
  split
  · rfl
  split <;> split <;> simp only [countGrade_islandUse]

theorem openSector_islandUse (s : State) (pa nl : Nat) (held : Bool) :
    (openSector s pa nl held).1.islandUse = s.islandUse := by
  unfold openSector
  dsimp only
  generalize (if (s.sectors.getD Sector.clean (pa / 64)).nl = 8 then nl else (s.sectors.getD Sector.clean (pa / 64)).nl) = own
  split
  · dsimp only
    split <;> rfl
  split
  · have drawn : (if (s.sectors.getD Sector.clean (pa / 64)).flips.length ≤ 5 then (0#64, s) else freshWord s).2.islandUse =
        s.islandUse := by split <;> rfl
    split <;> exact (countDecode_islandUse ..).trans drawn
  · exact countDecode_islandUse ..

theorem takeLayout_islandUse (s : State) (pa nl : Nat) (dec : Decode64) : (takeLayout s pa nl dec).islandUse = s.islandUse := by
  unfold takeLayout
  dsimp only
  split <;> rfl

theorem recodeSector_islandUse (s : State) (pa nl : Nat) (was : Bool) : (recodeSector s pa nl was).islandUse = s.islandUse := by
  unfold recodeSector
  dsimp only
  split
  · rfl
  split
  · rfl
  · exact (takeLayout_islandUse ..).trans (openSector_islandUse ..)

theorem recodeLine_islandUse (s : State) (pa nl : Nat) (was : Bool) : (recodeLine s pa nl was).islandUse = s.islandUse :=
  (recodeSector_islandUse ..).trans (recodeSector_islandUse ..)

theorem mergeSector_islandUse (s : State) (sec nl onl tp : Nat) (upd : List (Option Byte)) (covers : Nat → Bool) (dec : Decode64)
    (marked : Bool) : (mergeSector s sec nl onl tp upd covers dec marked).islandUse = s.islandUse := by
  unfold mergeSector
  dsimp only
  split
  · rfl
  split
  · rfl
  split
  · rfl
  split
  · rfl
  split
  · rfl
  split <;> rfl

theorem maskedPart_islandUse (s : State) (sec : Nat) (upd : List (Option Byte)) (covers : Nat → Bool) (nl tp : Nat) (was : Bool) :
    (maskedPart s sec upd covers nl tp was).islandUse = s.islandUse := by
  unfold maskedPart
  dsimp only
  split
  · rfl
  split
  · rfl
  split
  · rfl
  · exact (mergeSector_islandUse ..).trans (openSector_islandUse ..)

theorem spoilSector_islandUse (s : State) (sec : Nat) (flips : List Nat) : (spoilSector s sec flips).islandUse = s.islandUse := by
  unfold spoilSector
  split <;> rfl

/-! ### The line and its place -/

theorem endLease_islandUse (s : State) (line : Nat) (how : LeaseEnd) : (endLease s line how).islandUse = s.islandUse := by
  unfold endLease
  split
  · rfl
  dsimp only
  split
  · rfl
  · cases how <;> rfl

theorem reachHome_islandUse (s : State) (pa : Nat) : (reachHome s none pa).islandUse = s.islandUse := by
  cases lease : s.leases.find? fun l => l.line == pa / 128 with
  | none =>
    simp only [reachHome, lease, Option.isNone_none, true_or, ↓reduceIte]
    split <;> rfl
  | some l =>
    simp only [reachHome, lease, Option.isNone_none, true_or, reduceCtorEq, ↓reduceIte]
    split <;> exact endLease_islandUse ..

theorem rewriteSector_islandUse (s : State) (sec : Nat) : (rewriteSector s sec).islandUse = s.islandUse := by
  unfold rewriteSector
  dsimp only
  split
  · rfl
  split <;> split <;> rfl

theorem leaveSector_islandUse (s : State) (l : HomeLine) (half : Nat) : (leaveSector s l half).islandUse = s.islandUse := by
  unfold leaveSector
  dsimp only
  split
  · exact rewriteSector_islandUse ..
  · split <;> rfl

theorem dropLine_islandUse (s : State) (line : Nat) : (dropLine s line).islandUse = s.islandUse := by
  unfold dropLine
  split
  · rfl
  · exact (leaveSector_islandUse ..).trans (leaveSector_islandUse ..)

theorem leaveStreamWay_islandUse (s : State) : (leaveStreamWay s).islandUse = s.islandUse := by
  unfold leaveStreamWay
  split <;> rfl

theorem touchLine_islandUse (s : State) (pa : Nat) (write : BitVec 2) : (touchLine s pa write).1.islandUse = s.islandUse := by
  unfold touchLine
  split
  · rfl
  dsimp only
  split
  · rfl
  split
  · rfl
  split
  · exact (dropLine_islandUse ..).trans (leaveStreamWay_islandUse s)
  · exact leaveStreamWay_islandUse s

theorem requestLine_islandUse (s : State) (pa : Nat) (write : BitVec 2) :
    (requestLine s none pa write).1.islandUse = s.islandUse := by
  have reached : (countUse (reachHome (stampRequest s none pa) none pa) none pa).islandUse = s.islandUse :=
    reachHome_islandUse s pa
  exact (touchLine_islandUse ..).trans reached

/-! ### Writes -/

theorem maskedLine_islandUse (s : State) (line : Nat) (lo hi : List (Option Byte)) (nl tp : Nat) :
    (maskedLine s none line lo hi nl tp).islandUse = s.islandUse := by
  unfold maskedLine
  dsimp only [travel]
  refine (spoilSector_islandUse ..).trans ((recodeLine_islandUse ..).trans ?_)
  split <;> split <;> simp only [maskedPart_islandUse, requestLine_islandUse]

theorem writeSector_islandUse (s : State) (pa : Nat) (bytes : List Byte) (nl tp : Nat) :
    (writeSector s none pa bytes nl tp).islandUse = s.islandUse := by
  unfold writeSector maskedSector
  dsimp only
  split <;> exact maskedLine_islandUse ..

theorem deviceWrite_islandUse (s : State) (pa : Nat) (bytes : List Byte) : (deviceWrite s pa bytes).islandUse = s.islandUse := by
  unfold deviceWrite
  refine foldl_keeps State.islandUse (fun t part => ?_) _ s
  dsimp only
  split
  · exact writeSector_islandUse ..
  · split <;> rfl

theorem drainEgress_islandUse (s : State) : (drainEgress s).islandUse = s.islandUse := by
  unfold drainEgress
  refine foldl_keeps State.islandUse (fun t _ => ?_) _ s
  unfold egressOne
  split <;> rfl

end Sys2Proof.Machine
end

section
/-! SUPPORT. What a report of an island's LEVEL leaves as it was (R397, R436), and islands changed one after another. -/

namespace Sys2Proof.Machine

/-! ### Reports -/

/-- Nothing of the islands but a LEVEL, no power register, no meter, no count of a window and nothing of the temperatures differs. -/
structure Reported (s t : State) : Prop where
  island : ∀ j, ∃ level, islandOf t j = { islandOf s j with level := level }
  power : t.power = s.power
  emeter : ∀ k, (ctxOf t k).emeter = (ctxOf s k).emeter
  use : t.islandUse = s.islandUse
  temps : t.temps = s.temps
  warns : t.warns = s.warns
  now : t.now = s.now

theorem Reported.refl (s : State) : Reported s s := ⟨fun _ => ⟨_, rfl⟩, rfl, fun _ => rfl, rfl, rfl, rfl, rfl⟩

theorem Reported.trans {s t u : State} (h : Reported s t) (k : Reported t u) : Reported s u where
  island j := by
    obtain ⟨first, was⟩ := h.island j
    obtain ⟨second, is⟩ := k.island j
    exact ⟨second, by rw [is, was]⟩
  power := k.power.trans h.power
  emeter slot := (k.emeter slot).trans (h.emeter slot)
  use := k.use.trans h.use
  temps := k.temps.trans h.temps
  warns := k.warns.trans h.warns
  now := k.now.trans h.now

theorem Reported.foldl {α : Type} {f : State → α → State} (h : ∀ t a, Reported t (f t a)) (l : List α) (s : State) :
    Reported s (l.foldl f s) := by
  induction l generalizing s with
  | nil => exact .refl s
  | cons a l ih => exact (h s a).trans (ih _)

theorem Reported.ite {s t u : State} {c : Prop} [Decidable c] (h : Reported s t) (k : Reported s u) :
    Reported s (if c then t else u) := by
  split
  · exact h
  · exact k

theorem Reported.point {s t : State} (h : Reported s t) (j : Nat) : (islandOf t j).point = (islandOf s j).point := by
  obtain ⟨level, is⟩ := h.island j
  rw [is]

theorem Reported.target {s t : State} (h : Reported s t) (j : Nat) : (islandOf t j).target = (islandOf s j).target := by
  obtain ⟨level, is⟩ := h.island j
  rw [is]

theorem Reported.nt {s t : State} (h : Reported s t) (j : Nat) : (islandOf t j).nt = (islandOf s j).nt := by
  obtain ⟨level, is⟩ := h.island j
  rw [is]

theorem Reported.gate {s t : State} (h : Reported s t) (j : Nat) : (islandOf t j).gate = (islandOf s j).gate := by
  obtain ⟨level, is⟩ := h.island j
  rw [is]

theorem Reported.grant {s t : State} (h : Reported s t) (j : Nat) : (islandOf t j).grant = (islandOf s j).grant := by
  obtain ⟨level, is⟩ := h.island j
  rw [is]

theorem islandOf_of_islands {s t : State} (same : t.islands = s.islands) (j : Nat) : islandOf t j = islandOf s j := by
  rw [islandOf, islandOf, same]

theorem HomeOnly.reported {s t : State} (h : HomeOnly s t) (use : t.islandUse = s.islandUse) : Reported s t where
  island j := ⟨(islandOf s j).level, islandOf_of_islands (by rw [h]) j⟩
  power := by rw [h]
  emeter k := congrArg Ctx.emeter (ctxOf_of_ctxs (by rw [h]) k)
  use := use
  temps := by rw [h]
  warns := by rw [h]
  now := by rw [h]

theorem ctxOf_updCtx_at (s : State) (slot k : Nat) (f : Ctx → Ctx) :
    ctxOf (updCtx s slot f) k = if k = slot then f (ctxOf s slot) else ctxOf s k := Tbl.getD_putD ..

theorem updCtx_reported (s : State) (slot : Nat) {f : Ctx → Ctx} (h : ∀ c, (f c).emeter = c.emeter) : Reported s (updCtx s slot f) where
  island _ := ⟨_, rfl⟩
  power := rfl
  emeter k := by
    rw [ctxOf_updCtx_at]
    split
    · next is => rw [h, is]
    · rfl
  use := rfl
  temps := rfl
  warns := rfl
  now := rfl

theorem notify_reported (s : State) (slot : Nat) (n : Notice) : Reported s (notify s slot n) := by
  have told : Reported s (notifyHost s) := HomeOnly.reported (notifyHost_read s).only rfl
  unfold notify
  dsimp only
  split
  · exact told.trans (updCtx_reported _ _ fun _ => rfl)
  · exact (told.trans ((HomeOnly.reported (deviceWrite_home ..).only (deviceWrite_islandUse ..)).trans
      (HomeOnly.reported (drainEgress_home _).only (drainEgress_islandUse _)))).trans (updCtx_reported _ _ fun _ => rfl)

theorem throttleRecord_reported (s : State) (slot i level : Nat) : Reported s (throttleRecord s slot i level) := by
  unfold throttleRecord
  generalize noted : updCtx s slot _ = t
  exact (noted ▸ updCtx_reported s slot fun _ => rfl : Reported s t).trans (notify_reported t slot _)

theorem reportLevel_reported (s : State) (slot i level : Nat) : Reported s (reportLevel s slot i level) := by
  unfold reportLevel
  dsimp only
  split
  · exact throttleRecord_reported ..
  · exact updCtx_reported _ _ fun _ => rfl

theorem flushThrottled_reported (s : State) (slot : Nat) : Reported s (flushThrottled s slot) := by
  refine .foldl (fun t entry => ?_) _ s
  obtain ⟨i, since, kept⟩ := entry
  cases kept with
  | none => exact .refl t
  | some level => exact (throttleRecord_reported t slot i level).ite (.refl t)

/-! ### Islands -/

theorem islandOf_updIsland (s : State) (i j : Nat) (f : Island → Island) :
    islandOf (updIsland s i f) j = if j = i then f (islandOf s i) else islandOf s j := Tbl.getD_putD ..

@[simp] theorem islandOf_updIsland_same (s : State) (i : Nat) (f : Island → Island) :
    islandOf (updIsland s i f) i = f (islandOf s i) := by rw [islandOf_updIsland, if_pos rfl]

theorem islandOf_updIsland_other (s : State) {i j : Nat} (f : Island → Island) (other : j ≠ i) :
    islandOf (updIsland s i f) j = islandOf s j := by rw [islandOf_updIsland, if_neg other]

theorem refreshLevel_reported (s : State) (i was : Nat) : Reported s (refreshLevel s i was) := by
  unfold refreshLevel
  generalize (islandOf s i).levelNow = level
  have set : Reported s (updIsland s i fun x => { x with level := level }) := by
    refine ⟨fun j => ?_, rfl, fun _ => rfl, rfl, rfl, rfl, rfl⟩
    rw [islandOf_updIsland]
    split
    · next is => exact ⟨level, by rw [is]⟩
    · exact ⟨_, rfl⟩
  exact (set.trans (.foldl (fun _ _ => reportLevel_reported ..) _ _)).ite set

/-- A fold whose every step changes its own part of a state, by what that part is and nothing that other steps change: each listed
part is changed as its step alone would. -/
theorem foldl_each {σ β : Type} (part : σ → Nat → β) {f : σ → Nat → σ} (other : ∀ u i j, j ≠ i → part (f u i) j = part u j)
    (alone : ∀ u i j, j ≠ i → part (f (f u i) j) j = part (f u j) j) {l : List Nat} (distinct : l.Nodup) (u : σ) (j : Nat) :
    part (l.foldl f u) j = if j ∈ l then part (f u j) j else part u j := by
  induction l generalizing u with
  | nil => rfl
  | cons i l ih =>
    obtain ⟨fresh, rest⟩ := List.nodup_cons.mp distinct
    rw [List.foldl_cons, ih rest]
    by_cases is : j = i
    · subst is
      rw [if_neg fresh, if_pos List.mem_cons_self]
    · rw [other u i j is, alone u i j is]
      exact if_congr (by simp [is]) rfl rfl

end Sys2Proof.Machine
end

section
/-! SUPPORT. The events of power: the charging of energies, the clearing's grants, and the conditions of near-threshold mode (R426 to
R433). -/

namespace Sys2Proof.Machine

/-! ### Energies (R430, R437, R438) -/

/-- Nothing differs but the contexts and EFREE. -/
def ChargeOnly (s t : State) : Prop := t = { s with ctxs := t.ctxs, power := { s.power with efree := t.power.efree } }

theorem ChargeOnly.trans {s t u : State} (h : ChargeOnly s t) (k : ChargeOnly t u) : ChargeOnly s u := by
  unfold ChargeOnly at *
  rw [k, h]

theorem ChargeOnly.foldl {α : Type} {f : State → α → State} (h : ∀ t a, ChargeOnly t (f t a)) (l : List α) (s : State) :
    ChargeOnly s (l.foldl f s) := by
  induction l generalizing s with
  | nil => exact rfl
  | cons a l ih => exact (h s a).trans (ih _)

theorem chargeSlot_only (s : State) (slot e : Nat) : ChargeOnly s (chargeSlot s slot e) := rfl

theorem chargeFree_only (s : State) (e : Nat) : ChargeOnly s (chargeFree s e) := rfl

theorem chargeShares_only (s : State) (e : Nat) (parts : List (Nat × Nat)) : ChargeOnly s (chargeShares s e parts) :=
  (ChargeOnly.foldl (fun t (share : Nat × Nat) => chargeSlot_only t share.1 share.2) _ s).trans (chargeFree_only ..)

theorem attributeEnergy_only (s : State) (m : EpochMeasure) : ChargeOnly s (attributeEnergy s m) := by
  have cores (t : State) : ChargeOnly t (m.cores.foldl (fun s (c, e) => chargeShares s e (runsOn s c)) t) :=
    .foldl (fun _ _ => chargeShares_only ..) _ t
  have cards (t : State) : ChargeOnly t (m.cards.foldl (fun s (k, e) => chargeSlot s k e) t) :=
    .foldl (fun _ _ => chargeSlot_only ..) _ t
  unfold attributeEnergy
  refine ((((cores s).trans (cards _)).trans (.foldl (fun t request => ?_) _ _)).trans (chargeShares_only ..)).trans (chargeFree_only ..)
  dsimp only
  split
  · exact chargeSlot_only ..
  · exact chargeFree_only ..

/-- One context alone on a core takes all of the core's energy. -/
theorem chargeShares_alone (s : State) (e : Nat) {k n : Nat} (slot : k < 64) (ran : 0 < n) :
    (ctxOf (chargeShares s e [(k, n)]) k).emeter = (ctxOf s k).emeter + BitVec.ofNat 64 e := by
  have whole : e * n / (0 + n) = e := by rw [Nat.zero_add, Nat.mul_div_cancel e ran]
  show (ctxOf (chargeSlot s k (e * n / (0 + n))) k).emeter = _
  rw [whole, chargeSlot, Nat.mod_eq_of_lt slot, ctxOf_updCtx]

/-! ### Grants (R426, R429, R432) -/

/-- What bounds the points of an island, apart from the island's own state, is the same. -/
structure SameBounds (s t : State) : Prop where
  blocks : t.blocks = s.blocks
  launches : t.launches = s.launches
  remap : t.remap = s.remap
  moves : t.moves = s.moves
  limits : t.limits = s.limits

theorem ChargeOnly.sameBounds {s t : State} (h : ChargeOnly s t) : SameBounds s t := by
  unfold ChargeOnly at h
  constructor <;> rw [h]

theorem ChargeOnly.islands {s t : State} (h : ChargeOnly s t) : t.islands = s.islands := by
  unfold ChargeOnly at h
  rw [h]

theorem ChargeOnly.epoch {s t : State} (h : ChargeOnly s t) : t.power.epoch = s.power.epoch := by
  unfold ChargeOnly at h
  rw [h]

theorem ChargeOnly.history {s t : State} (h : ChargeOnly s t) : t.power.history = s.power.history := by
  unfold ChargeOnly at h
  rw [h]

theorem SameBounds.trans {s t u : State} (h : SameBounds s t) (k : SameBounds t u) : SameBounds s u :=
  ⟨k.blocks.trans h.blocks, k.launches.trans h.launches, k.remap.trans h.remap, k.moves.trans h.moves, k.limits.trans h.limits⟩

section
variable {s t : State} (h : SameBounds s t)
include h

theorem SameBounds.islandActive (i : Nat) : islandActive t i = islandActive s i := by
  simp only [Machine.islandActive, islandAt, h.blocks, h.launches, h.remap]

theorem SameBounds.islandLimit (i : Nat) : islandLimit t i = islandLimit s i := by
  rw [Machine.islandLimit, Machine.islandLimit, h.limits]

theorem SameBounds.pointAfter {i : Nat} (own : islandOf t i = islandOf s i) (n : Nat) : pointAfter t i n = pointAfter s i n := by
  simp only [Machine.pointAfter, basePoint, h.islandActive, h.islandLimit, own]

theorem SameBounds.ceilingOf {i : Nat} (own : islandOf t i = islandOf s i) (p : Nat) : ceilingOf t i p = ceilingOf s i p := by
  have moving : movingCore t = movingCore s := by
    funext core
    rw [movingCore, movingCore, h.moves]
  have cores : islandCores t i = islandCores s i := by simp only [islandCores, logicalOf, h.remap]
  rw [Machine.ceilingOf, Machine.ceilingOf, own, moving, cores]

end

/-- The point that the clearing grants an island when its quadrant's bid has n steps granted. -/
def grantedPoint (s : State) (i n : Nat) : Nat := pointAfter s i (if (islandActive s i && !(islandOf s i).nt) = true then n else 0)

theorem SameBounds.grantedPoint {s t : State} (h : SameBounds s t) {i : Nat} (own : islandOf t i = islandOf s i) (n : Nat) :
    grantedPoint t i n = grantedPoint s i n := by
  rw [Machine.grantedPoint, Machine.grantedPoint, h.pointAfter own, h.islandActive, own]

theorem setGrant_sameBounds (s : State) (m : EpochMeasure) (i n : Nat) : SameBounds s (setGrant s m i n) := ⟨rfl, rfl, rfl, rfl, rfl⟩

/-- The point of an island and its target. -/
def pointsOf (s : State) (i : Nat) : Nat × Nat := ((islandOf s i).point, (islandOf s i).target)

theorem islandOf_setGrant_other (s : State) (m : EpochMeasure) {i j : Nat} (n : Nat) (other : j ≠ i) :
    islandOf (setGrant s m i n) j = islandOf s j := islandOf_updIsland_other _ _ other

theorem pointsOf_setGrant (s : State) (m : EpochMeasure) (i n : Nat) :
    pointsOf (setGrant s m i n) i = ((islandOf s i).point, ceilingOf s i (grantedPoint s i n)) := by
  unfold setGrant
  dsimp only
  rw [pointsOf, islandOf_updIsland_same]
  rfl

/-- Every island is set by its own grant. -/
theorem pointsOf_setGrants (s : State) (m : EpochMeasure) (steps : Nat → Nat) {l : List Nat} (distinct : l.Nodup) {j : Nat}
    (listed : j ∈ l) : pointsOf (l.foldl (fun s i => setGrant s m i (steps i)) s) j =
      ((islandOf s j).point, ceilingOf s j (grantedPoint s j (steps j))) := by
  rw [foldl_each pointsOf (fun u i j other => ?_) (fun u i j other => ?_) distinct, if_pos listed, pointsOf_setGrant]
  · rw [pointsOf, pointsOf, islandOf_setGrant_other u m _ other]
  · have own := islandOf_setGrant_other u m (steps i) other
    have bounds := setGrant_sameBounds u m i (steps i)
    rw [pointsOf_setGrant, pointsOf_setGrant, own, bounds.grantedPoint own, bounds.ceilingOf own]

theorem setGrants_power (s : State) (m : EpochMeasure) (steps : Nat → Nat) (l : List Nat) :
    (l.foldl (fun s i => setGrant s m i (steps i)) s).power = s.power :=
  foldl_keeps State.power (f := fun s i => setGrant s m i (steps i)) (fun _ _ => rfl) l s

theorem setGrants_ctxs (s : State) (m : EpochMeasure) (steps : Nat → Nat) (l : List Nat) :
    (l.foldl (fun s i => setGrant s m i (steps i)) s).ctxs = s.ctxs :=
  foldl_keeps State.ctxs (f := fun s i => setGrant s m i (steps i)) (fun _ _ => rfl) l s

/-! ### The clearing (R428, R429) -/

/-- The state in which an epoch's grants are set: its energies charged, its number counted, its end reached. -/
def clearingBegins (s : State) (m : EpochMeasure) : State :=
  let c := chargeEnergy s m
  setNow { c with power := { c.power with epoch := c.power.epoch + 1 } } ((c.power.epoch.toNat + 1) * 10000)

/-- The islands with the grants of an epoch. -/
def clearingSet (s : State) (m : EpochMeasure) : State :=
  (List.range 64).foldl (fun t i =>
    setGrant t m i ((grantSteps (chargeEnergy s m) m (chargeEnergy s m).power.epoch.toNat).getD (i / 4) 0)) (clearingBegins s m)

/-- A clearing charges, sets the islands and then reports. -/
theorem clearEpoch_reported (s : State) (m : EpochMeasure) : Reported (clearingSet s m) (clearEpoch s m) :=
  (Reported.foldl flushThrottled_reported _ _).trans (.foldl (fun _ _ => refreshLevel_reported ..) _ _)

theorem clearingBegins_power (s : State) (m : EpochMeasure) : (clearingBegins s m).power =
    { (chargeEnergy s m).power with epoch := (chargeEnergy s m).power.epoch + 1 } := rfl

theorem clearEpoch_power (s : State) (m : EpochMeasure) : (clearEpoch s m).power =
    { (chargeEnergy s m).power with epoch := (chargeEnergy s m).power.epoch + 1 } :=
  (clearEpoch_reported s m).power.trans ((setGrants_power ..).trans (clearingBegins_power s m))

theorem clearingSet_ctxs (s : State) (m : EpochMeasure) : (clearingSet s m).ctxs = (clearingBegins s m).ctxs := setGrants_ctxs ..

/-- What the registers of power and the count of epochs leave: the contexts, the islands and what bounds them. -/
structure SameMarket (s t : State) : Prop where
  ctxs : t.ctxs = s.ctxs
  islands : t.islands = s.islands
  bounds : SameBounds s t

theorem clearingBegins_of_attributed (s : State) (m : EpochMeasure) : SameMarket (attributeEnergy s m) (clearingBegins s m) := by
  unfold clearingBegins chargeEnergy
  generalize attributeEnergy s m = a
  exact ⟨rfl, rfl, rfl, rfl, rfl, rfl, rfl⟩

/-- What the meters and integrators take, by the registers. -/
theorem chargeEnergy_power (s : State) (m : EpochMeasure) :
    (chargeEnergy s m).power.epoch = s.power.epoch ∧ (chargeEnergy s m).power.efree = (attributeEnergy s m).power.efree ∧
      (chargeEnergy s m).power.history = (m.total :: s.power.history).take 100000 ∧
      (chargeEnergy s m).power.plast = m.total / 10 % 65536 := by
  have attributed := attributeEnergy_only s m
  unfold chargeEnergy
  generalize attributeEnergy s m = a at attributed ⊢
  exact ⟨attributed.epoch, rfl, congrArg (fun h => (m.total :: h).take 100000) attributed.history, rfl⟩

theorem clearEpoch_emeter (s : State) (m : EpochMeasure) (k : Nat) :
    (ctxOf (clearEpoch s m) k).emeter = (ctxOf (attributeEnergy s m) k).emeter := by
  have same := (clearingSet_ctxs s m).trans (clearingBegins_of_attributed s m).ctxs
  rw [(clearEpoch_reported s m).emeter k, ctxOf_of_ctxs same k]

theorem clearingBegins_islands (s : State) (m : EpochMeasure) : (clearingBegins s m).islands = s.islands :=
  (clearingBegins_of_attributed s m).islands.trans (attributeEnergy_only s m).islands

theorem clearingBegins_sameBounds (s : State) (m : EpochMeasure) : SameBounds s (clearingBegins s m) :=
  (attributeEnergy_only s m).sameBounds.trans (clearingBegins_of_attributed s m).bounds

/-- The steps granted to the quadrant of an island at the end of an epoch. -/
def grantedSteps (s : State) (m : EpochMeasure) (i : Nat) : Nat := (grantSteps (chargeEnergy s m) m s.power.epoch.toNat).getD (i / 4) 0

theorem clearingSet_eq (s : State) (m : EpochMeasure) :
    clearingSet s m = (List.range 64).foldl (fun t i => setGrant t m i (grantedSteps s m i)) (clearingBegins s m) := by
  obtain ⟨epoch, -, -, -⟩ := chargeEnergy_power s m
  rw [clearingSet, epoch]
  rfl

theorem clearEpoch_points (s : State) (m : EpochMeasure) {j : Nat} (is : j < 64) :
    (islandOf (clearEpoch s m) j).point = (islandOf s j).point ∧
      (islandOf (clearEpoch s m) j).target = ceilingOf s j (grantedPoint s j (grantedSteps s m j)) := by
  have own : islandOf (clearingBegins s m) j = islandOf s j := islandOf_of_islands (clearingBegins_islands s m) j
  have bounds := clearingBegins_sameBounds s m
  have reported := clearEpoch_reported s m
  have set := pointsOf_setGrants (clearingBegins s m) m (grantedSteps s m) List.nodup_range (List.mem_range.mpr is)
  rw [← clearingSet_eq, own, bounds.grantedPoint own, bounds.ceilingOf own, pointsOf, Prod.mk.injEq] at set
  rwa [reported.point, reported.target]

theorem execEpochClearing_whole {s : State} (m : EpochMeasure) (whole : s.recovery = false) :
    execEpochClearing m s = .next (clearEpoch s m) := by
  rw [execEpochClearing, whole, if_neg Bool.false_ne_true]

theorem epochClearing_completes (m : EpochMeasure) {s : State} (whole : s.recovery = false) :
    ∃ t, execEpochClearing m s = .next t ∧ t.power.epoch = s.power.epoch + 1 ∧
      t.power.efree = (attributeEnergy s m).power.efree ∧
      (∀ k, (ctxOf t k).emeter = (ctxOf (attributeEnergy s m) k).emeter) ∧
      t.power.history = (m.total :: s.power.history).take 100000 ∧ t.power.plast = m.total / 10 % 65536 ∧
      ∀ j, j < 64 → (islandOf t j).point = (islandOf s j).point ∧
        (islandOf t j).target = ceilingOf s j (grantedPoint s j (grantedSteps s m j)) := by
  obtain ⟨epoch, efree, history, plast⟩ := chargeEnergy_power s m
  refine ⟨_, execEpochClearing_whole m whole, ?_⟩
  rw [clearEpoch_power]
  exact ⟨congrArg (· + 1) epoch, efree, clearEpoch_emeter s m, history, plast, fun _ => clearEpoch_points s m⟩

/-! ### Near-threshold mode (R427) -/

/-- More than half of an island's home accesses of the window fell in ranges with NTREQ. -/
def mostlyNtreq (s : State) (i : Nat) : Prop := (s.islandUse.getD (0, 0) i).1 < 2 * (s.islandUse.getD (0, 0) i).2

/-- The island's counts of the window start afresh. -/
def freshWindow (s : State) (i : Nat) : State := { s with islandUse := s.islandUse.del i }

/-- An island enters near-threshold mode. -/
def enterNear (s : State) (i : Nat) : State :=
  refreshLevel (updIsland (freshWindow s i) i fun x => { x with nt := true, target := Nat.min x.target 1, capped := false }) i
    (islandOf s i).target

theorem nearThreshold_enters {s : State} {i stalled cycles : Nat} (out : (islandOf s (i % 64)).nt = false)
    (active : islandActive s (i % 64) = true) (slow : 75 * cycles < 100 * stalled ∨ mostlyNtreq s (i % 64)) :
    execNearThresholdWindow i stalled cycles s = .next (enterNear s (i % 64)) := by
  have enters : (!(islandOf s (i % 64)).nt && islandActive s (i % 64) && (decide (75 * cycles < 100 * stalled) ||
      decide ((s.islandUse.getD (0, 0) (i % 64)).1 < 2 * (s.islandUse.getD (0, 0) (i % 64)).2))) = true := by
    simpa [out, active, mostlyNtreq] using slow
  exact congrArg Host.Outcome.next (if_pos enters)

theorem nearThreshold_stays_out {s : State} {i stalled cycles : Nat} (out : (islandOf s (i % 64)).nt = false)
    (not : ¬(islandActive s (i % 64) = true ∧ (75 * cycles < 100 * stalled ∨ mostlyNtreq s (i % 64)))) :
    execNearThresholdWindow i stalled cycles s = .next (freshWindow s (i % 64)) := by
  have enters : ¬(!(islandOf s (i % 64)).nt && islandActive s (i % 64) && (decide (75 * cycles < 100 * stalled) ||
      decide ((s.islandUse.getD (0, 0) (i % 64)).1 < 2 * (s.islandUse.getD (0, 0) (i % 64)).2))) = true := by
    simpa [out, mostlyNtreq] using not
  refine congrArg Host.Outcome.next ((if_neg enters).trans (if_neg ?_))
  simp [out]

theorem nearThreshold_leaves {s : State} {i stalled cycles : Nat} (inside : (islandOf s (i % 64)).nt = true)
    (leaves : 100 * stalled ≤ 60 * cycles ∧ ¬mostlyNtreq s (i % 64)) :
    execNearThresholdWindow i stalled cycles s =
      .next (updIsland (freshWindow s (i % 64)) (i % 64) fun x => { x with nt := false }) := by
  have left : ((islandOf s (i % 64)).nt && decide (100 * stalled ≤ 60 * cycles) &&
      !decide ((s.islandUse.getD (0, 0) (i % 64)).1 < 2 * (s.islandUse.getD (0, 0) (i % 64)).2)) = true := by
    simpa [inside, mostlyNtreq] using leaves
  refine congrArg Host.Outcome.next ((if_neg ?_).trans (if_pos left))
  simp [inside]

theorem nearThreshold_stays_in {s : State} {i stalled cycles : Nat} (inside : (islandOf s (i % 64)).nt = true)
    (stays : ¬(100 * stalled ≤ 60 * cycles ∧ ¬mostlyNtreq s (i % 64))) :
    execNearThresholdWindow i stalled cycles s = .next (freshWindow s (i % 64)) := by
  have left : ¬((islandOf s (i % 64)).nt && decide (100 * stalled ≤ 60 * cycles) &&
      !decide ((s.islandUse.getD (0, 0) (i % 64)).1 < 2 * (s.islandUse.getD (0, 0) (i % 64)).2)) = true := by
    simpa [inside, mostlyNtreq] using stays
  refine congrArg Host.Outcome.next ((if_neg ?_).trans (if_neg left))
  simp [inside]

theorem enterNear_use (s : State) (i : Nat) : (enterNear s i).islandUse = s.islandUse.del i := (refreshLevel_reported ..).use

theorem enterNear_nt (s : State) (i : Nat) : (islandOf (enterNear s i) i).nt = true := by
  rw [enterNear, (refreshLevel_reported ..).nt, islandOf_updIsland_same]

theorem enterNear_target (s : State) (i : Nat) : (islandOf (enterNear s i) i).target ≤ 1 := by
  rw [enterNear, (refreshLevel_reported ..).target, islandOf_updIsland_same]
  exact Nat.min_le_right ..

/-- R427: the mode is left by a window of few stalls and few accesses with NTREQ, and entered, on an active island, by one of many. -/
theorem nearThreshold_completes (i stalled cycles : Nat) (s : State) :
    ∃ t, execNearThresholdWindow i stalled cycles s = .next t ∧ t.islandUse = s.islandUse.del (i % 64) ∧
      ((islandOf t (i % 64)).nt = true ↔
        if (islandOf s (i % 64)).nt = true then ¬(100 * stalled ≤ 60 * cycles ∧ ¬mostlyNtreq s (i % 64))
          else islandActive s (i % 64) = true ∧ (75 * cycles < 100 * stalled ∨ mostlyNtreq s (i % 64))) ∧
      ((islandOf s (i % 64)).nt = false → (islandOf t (i % 64)).nt = true → (islandOf t (i % 64)).target ≤ 1) := by
  have kept : (islandOf (freshWindow s (i % 64)) (i % 64)).nt = (islandOf s (i % 64)).nt := rfl
  cases now : (islandOf s (i % 64)).nt with
  | false =>
    rw [if_neg Bool.false_ne_true]
    by_cases enters : islandActive s (i % 64) = true ∧ (75 * cycles < 100 * stalled ∨ mostlyNtreq s (i % 64))
    · exact ⟨_, nearThreshold_enters now enters.1 enters.2, enterNear_use .., iff_of_true (enterNear_nt ..) enters,
        fun _ _ => enterNear_target ..⟩
    · have out : ¬(islandOf (freshWindow s (i % 64)) (i % 64)).nt = true := by simp [kept, now]
      exact ⟨_, nearThreshold_stays_out now enters, rfl, iff_of_false out enters, fun _ inside => absurd inside out⟩
  | true =>
    rw [if_pos rfl]
    by_cases leaves : 100 * stalled ≤ 60 * cycles ∧ ¬mostlyNtreq s (i % 64)
    · exact ⟨_, nearThreshold_leaves now leaves, rfl, iff_of_false (by simp) (not_not.mpr leaves), fun out => nomatch out⟩
    · exact ⟨_, nearThreshold_stays_in now leaves, rfl, iff_of_true (kept.trans now) leaves, fun out => nomatch out⟩

/-! ### Points, caps and gates (R426, R430, R433) -/

theorem operatingPoint_completes (i : Nat) (s : State) : ∃ t, execOperatingPointChange i s = .next t ∧
    islandOf t (i % 64) = { islandOf s (i % 64) with point := (islandOf s (i % 64)).target } ∧
    ∀ j, j ≠ i % 64 → islandOf t j = islandOf s j :=
  ⟨_, rfl, islandOf_updIsland_same .., fun _ => islandOf_updIsland_other _ _⟩

/-- One sample of one island's gate. -/
def sampleGate (m : PowerSample) (s : State) (i : Nat) : State :=
  refreshLevel (updIsland s i fun x => { x with gate := if overGrant s m i then Nat.min (x.gate + 8) 63 else x.gate - 8 }) i 0

theorem sampleGate_gate (m : PowerSample) (s : State) (i j : Nat) : (islandOf (sampleGate m s i) j).gate =
    if j = i then (if overGrant s m i = true then Nat.min ((islandOf s i).gate + 8) 63 else (islandOf s i).gate - 8)
    else (islandOf s j).gate := by
  rw [sampleGate, (refreshLevel_reported ..).gate, islandOf_updIsland, apply_ite Island.gate]

theorem sampleGate_grant (m : PowerSample) (s : State) (i j : Nat) : (islandOf (sampleGate m s i) j).grant = (islandOf s j).grant := by
  rw [sampleGate, (refreshLevel_reported ..).grant, islandOf_updIsland, apply_ite Island.grant]
  split
  · next is => rw [is]
  · rfl

theorem sampleGate_power (m : PowerSample) (s : State) (i : Nat) : (sampleGate m s i).power = s.power :=
  (refreshLevel_reported ..).power

theorem overGrant_of_same {s t : State} (m : PowerSample) {i : Nat} (power : t.power = s.power)
    (grant : (islandOf t i).grant = (islandOf s i).grant) : overGrant t m i = overGrant s m i := by
  rw [overGrant, overGrant, power, grant]

theorem mem_quadrant (q : Fin 16) (j : Nat) : j ∈ (List.range 4).map (q.val * 4 + ·) ↔ j / 4 = q.val := by
  simp only [List.mem_map, List.mem_range]
  constructor
  · rintro ⟨k, small, rfl⟩
    omega
  · intro is
    exact ⟨j % 4, by omega, by omega⟩

theorem quadrant_nodup (q : Fin 16) : ((List.range 4).map (q.val * 4 + ·)).Nodup :=
  List.nodup_range.map fun _ _ => Nat.add_left_cancel

/-- R433: each island of the quadrant is gated by its own sample. -/
theorem fastThrottle_gates (q : Fin 16) (m : PowerSample) (s : State) (j : Nat) :
    (islandOf (((List.range 4).map (q.val * 4 + ·)).foldl (sampleGate m) s) j).gate =
      if j / 4 = q.val then (if overGrant s m j = true then Nat.min ((islandOf s j).gate + 8) 63 else (islandOf s j).gate - 8)
      else (islandOf s j).gate := by
  rw [foldl_each (fun u j => (islandOf u j).gate) (fun u i j other => ?_) (fun u i j other => ?_) (quadrant_nodup q) s j]
  · rw [sampleGate_gate, if_pos rfl]
    exact if_congr (mem_quadrant q j) rfl rfl
  · rw [sampleGate_gate, if_neg other]
  · have same := overGrant_of_same m (sampleGate_power m u i) (sampleGate_grant m u i j)
    simp only [sampleGate_gate, ↓reduceIte, other, same]

/-- Settles O38: the clearing by its grants and what its reports leave, the window by its conditions, the throttle island by island. -/
theorem powerEventsComplete : Obligations.PowerEventsComplete := by
  unfold Obligations.PowerEventsComplete
  intro m i stalled cycles pcap acap seq q sample s
  refine ⟨fun whole => epochClearing_completes m whole, fun recovery => congrArg Host.Outcome.next (if_pos recovery),
    fun k n slot ran => chargeShares_alone s i slot ran, operatingPoint_completes i s, nearThreshold_completes i stalled cycles s,
    fun whole low high least most => ⟨_, congrArg Host.Outcome.next (if_pos ⟨whole, low, high, least, most⟩), rfl⟩,
    fun refused => congrArg Host.Outcome.next (if_neg refused), ⟨_, rfl, fastThrottle_gates q sample s⟩⟩

end Sys2Proof.Machine
end

section
/-! SUPPORT. The events of the device: what a thermal reading leaves of the readings and of time, the registers of a measured boot, and
what a loss of power keeps (R403, R434, R439, R440, R449 to R451, R454). -/

namespace Sys2Proof.Machine

/-! ### Temperatures, warn states and time (R434, R435) -/

/-- The readings, the warn states and the time. -/
def climateOf (s : State) : Tbl (BitVec 10) × Tbl Thermal × Nat := (s.temps, s.warns, s.now)

theorem HomeOnly.climate {s t : State} (h : HomeOnly s t) : climateOf t = climateOf s := by rw [h]; rfl

theorem Reported.climate {s t : State} (h : Reported s t) : climateOf t = climateOf s := by
  rw [climateOf, climateOf, h.temps, h.warns, h.now]

theorem writeBack_climate (s : State) (l : L1Line) : climateOf (writeBack s l) = climateOf s := by
  unfold writeBack
  split
  · rfl
  · exact (maskedLine_home ..).only.climate

theorem releaseL1_climate (s : State) (core : Nat) : climateOf (releaseL1 s core) = climateOf s :=
  foldl_keeps climateOf writeBack_climate _ s

theorem flushLine_climate (s : State) (core line : Nat) : climateOf (flushLine s core line) = climateOf s := by
  unfold flushLine
  split
  · exact writeBack_climate ..
  · rfl

theorem endLeases_climate (s : State) (core : Nat) : climateOf (endLeases s core) = climateOf s :=
  foldl_keeps climateOf (fun _ _ => (endLease_read ..).only.climate.trans (flushLine_climate ..)) _ s

theorem stopIsland_climate (s : State) (i : Nat) : climateOf (stopIsland s i) = climateOf s := by
  unfold stopIsland
  dsimp only
  split
  · rfl
  · exact foldl_keeps climateOf (f := fun s c => releaseL1 (endLeases s c) c)
      (fun t c => (releaseL1_climate ..).trans (endLeases_climate t c)) _ s

theorem restartIsland_climate (s : State) (i : Nat) : climateOf (restartIsland s i) = climateOf s := by
  unfold restartIsland
  split <;> rfl

theorem readIsland_climate (s : State) (i n : Nat) : climateOf (readIsland s i n) = climateOf s := by
  unfold readIsland
  refine (refreshLevel_reported ..).climate.trans ?_
  split
  · exact stopIsland_climate ..
  split
  · exact restartIsland_climate ..
  · rfl

theorem thermalRecord_climate (s : State) (core aux : Nat) : climateOf (thermalRecord s core aux) = climateOf s :=
  foldl_keeps climateOf (fun _ _ => (notify_reported ..).climate) _ s

theorem warnCore_climate (s : State) (core : Nat) (entry : Bool) : climateOf (warnCore s core entry) = climateOf s := by
  unfold warnCore
  split
  · rfl
  split
  · rfl
  split
  · exact thermalRecord_climate ..
  · rfl

/-- A reading before its consequences: time reached, kept records written, the reading held, the warn state read. -/
def readingHeld (s : State) (p : Nat) (temp : BitVec 10) (n : Nat) : State :=
  let u := (List.range 64).foldl flushThrottled (setNow s n)
  { countLife { u with temps := u.temps.putD 0 p temp } (lifeTemp p temp.toNat) 1 with
    warns := u.warns.putD .reset p ((u.warns.getD .reset p).read (decide (380 ≤ temp.toNat)) (decide (temp.toNat ≤ 368)) u.now) }

theorem readingHeld_climate (s : State) (p : Nat) (temp : BitVec 10) (n : Nat) : climateOf (readingHeld s p temp n) =
    (s.temps.putD 0 p temp, s.warns.putD .reset p
      ((s.warns.getD .reset p).read (decide (380 ≤ temp.toNat)) (decide (temp.toNat ≤ 368)) (Nat.max s.now n)), Nat.max s.now n) := by
  have kept : Reported (setNow s n) ((List.range 64).foldl flushThrottled (setNow s n)) := .foldl flushThrottled_reported _ _
  unfold readingHeld
  generalize (List.range 64).foldl flushThrottled (setNow s n) = u at kept ⊢
  show (u.temps.putD 0 p temp, u.warns.putD .reset p _, u.now) = _
  rw [kept.temps, kept.warns, kept.now]
  rfl

theorem thermalReading_climate (core n : Nat) (temp : BitVec 10) (s : State) :
    ∃ t, execThermalReading core temp n s = .next t ∧ climateOf t = climateOf (readingHeld s (core % 256) temp n) := by
  refine ⟨_, rfl, ?_⟩
  unfold readingHeld
  dsimp only
  generalize (List.range 64).foldl flushThrottled (setNow s n) = u
  split
  · split
    · exact (warnCore_climate ..).trans (readIsland_climate ..)
    · exact readIsland_climate ..
  · exact readIsland_climate ..

theorem thermalReading_completes (core n : Nat) (temp : BitVec 10) (s : State) :
    ∃ t, execThermalReading core temp n s = .next t ∧ t.now = Nat.max s.now n ∧
      (∀ p, t.temps.getD 0 p = if p = core % 256 then temp else s.temps.getD 0 p) ∧
      t.warns.getD .reset (core % 256) = (s.warns.getD .reset (core % 256)).read (decide (380 ≤ temp.toNat))
        (decide (temp.toNat ≤ 368)) (Nat.max s.now n) := by
  obtain ⟨t, runs, climate⟩ := thermalReading_climate core n temp s
  rw [readingHeld_climate, climateOf, Prod.mk.injEq, Prod.mk.injEq] at climate
  obtain ⟨temps, warns, now⟩ := climate
  refine ⟨t, runs, now, fun p => ?_, ?_⟩
  · rw [temps, Tbl.getD_putD]
  · rw [warns, Tbl.getD_putD, if_pos rfl]

/-! ### Thermal migration (R439, R440) -/

theorem thermalMigrationStart_begins {core : Nat} {a : MoveAsk} {s : State} (due : dueAsk s (coreDie core) = some a)
    (own : a.core = core) : execThermalMigrationStart core s = .next (startMove s a) := by
  simp only [execThermalMigrationStart, due, own, ↓reduceIte]

theorem startMove_resident {a : MoveAsk} {s : State} (resident : (s.blocks.any fun b => b.2.core == a.core) = true) :
    (startMove s a).moveAsks = s.moveAsks.erase a ∧ movingCore (startMove s a) a.core = true ∧
      ∀ w x, (startMove s a).warps.find? w = some x → x.core = a.core → x.stopped = true := by
  simp only [startMove, resident, ↓reduceIte]
  refine ⟨trivial, by simp [movingCore], fun w x found core => ?_⟩
  rw [Tbl.find?_mapVals] at found
  obtain ⟨y, -, rfl⟩ := Option.map_eq_some_iff.mp found
  split at core
  · next is => rw [if_pos is]
  · next isnt => exact absurd core isnt

theorem thermalMigrationComplete_ends {core : Nat} {mv : Move} {s : State} (moved : s.moves.find? (·.logical == core) = some mv)
    (rest : coreAtRest s core = true) : execThermalMigrationComplete core s = .next (endMove s mv) := by
  simp only [execThermalMigrationComplete, moved, rest, ↓reduceIte]

/-! ### Measured boot (R449, R451) -/

/-- A stage measured into another register leaves register 0 and the rest of the housekeeping. -/
structure LaterMeasured (s t : State) : Prop where
  house : ∃ mreg, t.house = { s.house with mreg := mreg }
  zero : t.house.mreg.getD 0 0 = s.house.mreg.getD 0 0

theorem LaterMeasured.refl (s : State) : LaterMeasured s s := ⟨⟨_, rfl⟩, rfl⟩

theorem LaterMeasured.trans {s t u : State} (h : LaterMeasured s t) (k : LaterMeasured t u) : LaterMeasured s u := by
  obtain ⟨⟨first, was⟩, same⟩ := h
  obtain ⟨⟨second, is⟩, kept⟩ := k
  exact ⟨⟨second, by rw [is, was]⟩, kept.trans same⟩

theorem LaterMeasured.foldl {α : Type} {f : State → α → State} (h : ∀ t a, LaterMeasured t (f t a)) (l : List α) (s : State) :
    LaterMeasured s (l.foldl f s) := by
  induction l generalizing s with
  | nil => exact .refl s
  | cons a l ih => exact (h s a).trans (ih _)

theorem extendMreg_later (s : State) {m : Nat} (digest : List Byte) (later : m ≠ 0) : LaterMeasured s (extendMreg s m digest) := by
  refine ⟨⟨_, rfl⟩, ?_⟩
  exact (Tbl.getD_putD ..).trans (if_neg later.symm)

/-- The stages that follow the configuration record. -/
def laterStages (later : List (Nat × BitVec 256)) (s : State) : State :=
  later.foldl (fun s (m, d) => if 2 ≤ m ∧ m ≤ 7 then extendMreg s m (leBytes 32 d.toNat) else s) s

theorem laterStages_later (later : List (Nat × BitVec 256)) (s : State) : LaterMeasured s (laterStages later s) := by
  refine .foldl (fun t stage => ?_) later s
  dsimp only
  split
  · next range => exact extendMreg_later t _ (by omega)
  · exact .refl t

/-- The boot with its firmware measured. -/
def firmwareMeasured (s : State) (fw : List Byte) : State := extendMreg (warmReset s) 0 (sha256 fw)

theorem firmwareMeasured_house (s : State) (fw : List Byte) :
    ∃ mreg, (firmwareMeasured s fw).house = { s.house.kept with mreg := mreg } ∧
      mreg.getD 0 0 = BitVec.ofNat 256 (leNat (sha256 (leBytes 32 0 ++ sha256 fw))) := by
  refine ⟨_, rfl, ?_⟩
  rw [Tbl.getD_putD, if_pos rfl]
  rfl

/-- The boot with its configuration record measured too. -/
def recordMeasured (s : State) (fw cfg : List Byte) : State := extendMreg (firmwareMeasured s fw) 1 (sha256 cfg)

theorem recordMeasured_house (s : State) (fw cfg : List Byte) :
    ∃ mreg, (recordMeasured s fw cfg).house = { s.house.kept with mreg := mreg } ∧
      mreg.getD 0 0 = BitVec.ofNat 256 (leNat (sha256 (leBytes 32 0 ++ sha256 fw))) := by
  obtain ⟨first, house, zero⟩ := firmwareMeasured_house s fw
  obtain ⟨⟨mreg, later⟩, same⟩ := extendMreg_later (firmwareMeasured s fw) (sha256 cfg) Nat.one_ne_zero
  refine ⟨mreg, by rw [recordMeasured, later, house], ?_⟩
  rw [later, house] at same
  exact same.trans zero

theorem bootFrom_unsigned {fw cfg : List Byte} {later : List (Nat × BitVec 256)} {s : State} (refused : Config.signatureOk fw = false) :
    bootFrom (warmReset s) fw cfg later =
      disableAll { firmwareMeasured s fw with house := { (firmwareMeasured s fw).house with bootst := 2 } } := by
  simp only [bootFrom, refused, Bool.not_false, ↓reduceIte, firmwareMeasured]

theorem recordMeasured_version (s : State) (fw cfg : List Byte) : (recordMeasured s fw cfg).house.recVersion = s.house.recVersion := by
  obtain ⟨mreg, house, -⟩ := recordMeasured_house s fw cfg
  rw [house]
  rfl

/-- A configuration record is accepted: signed, and no older than the last one (R451). -/
def recordAccepted (s : State) (cfg : List Byte) : Prop :=
  Config.signatureOk cfg = true ∧ s.house.recVersion ≤ Config.recordVersion cfg

theorem bootFrom_accepted {fw cfg : List Byte} {later : List (Nat × BitVec 256)} {s : State} (signed : Config.signatureOk fw = true)
    (accepted : recordAccepted s cfg) :
    bootFrom (warmReset s) fw cfg later = laterStages later (applyRecord (recordMeasured s fw cfg) cfg) := by
  obtain ⟨ok, recent⟩ := accepted
  have version := recordMeasured_version s fw cfg
  rw [recordMeasured, firmwareMeasured] at version
  simp only [bootFrom, signed, ok, version, recent, Bool.not_true, Bool.false_eq_true, Bool.true_and, decide_true, ↓reduceIte]
  rfl

theorem bootFrom_refused {fw cfg : List Byte} {later : List (Nat × BitVec 256)} {s : State} (signed : Config.signatureOk fw = true)
    (refused : ¬recordAccepted s cfg) : bootFrom (warmReset s) fw cfg later = laterStages later
      (disableAll { recordMeasured s fw cfg with house := { (recordMeasured s fw cfg).house with bootst := 1 } }) := by
  have version := recordMeasured_version s fw cfg
  rw [recordMeasured, firmwareMeasured] at version
  have stands : (Config.signatureOk cfg && decide (s.house.recVersion ≤ Config.recordVersion cfg)) = false := by
    simpa [recordAccepted] using refused
  simp only [bootFrom, signed, version, stands, Bool.not_true, Bool.false_eq_true, ↓reduceIte]
  rfl

theorem bootFrom_mreg (fw cfg : List Byte) (later : List (Nat × BitVec 256)) (s : State) :
    (bootFrom (warmReset s) fw cfg later).house.mreg.getD 0 0 =
      BitVec.ofNat 256 (leNat (sha256 (leBytes 32 0 ++ sha256 fw))) := by
  obtain ⟨mreg, house, zero⟩ := recordMeasured_house s fw cfg
  have measured : (recordMeasured s fw cfg).house.mreg.getD 0 0 = BitVec.ofNat 256 (leNat (sha256 (leBytes 32 0 ++ sha256 fw))) := by
    rw [house]
    exact zero
  cases signed : Config.signatureOk fw with
  | false =>
    obtain ⟨first, kept, value⟩ := firmwareMeasured_house s fw
    rw [bootFrom_unsigned signed]
    show (firmwareMeasured s fw).house.mreg.getD 0 0 = _
    rw [kept]
    exact value
  | true =>
    by_cases accepted : recordAccepted s cfg
    · rw [bootFrom_accepted signed accepted]
      exact (laterStages_later ..).zero.trans measured
    · rw [bootFrom_refused signed accepted]
      exact (laterStages_later ..).zero.trans measured

theorem bootFrom_unsigned_house {fw cfg : List Byte} {later : List (Nat × BitVec 256)} {s : State}
    (refused : Config.signatureOk fw = false) : (bootFrom (warmReset s) fw cfg later).house.bootst = 2 ∧
      (bootFrom (warmReset s) fw cfg later).house.part = s.house.part := by
  obtain ⟨mreg, house, -⟩ := firmwareMeasured_house s fw
  refine ⟨by rw [bootFrom_unsigned refused]; rfl, ?_⟩
  rw [bootFrom_unsigned refused]
  show (firmwareMeasured s fw).house.part = _
  rw [house]
  rfl

theorem bootFrom_refused_house {fw cfg : List Byte} {later : List (Nat × BitVec 256)} {s : State} (signed : Config.signatureOk fw = true)
    (refused : ¬recordAccepted s cfg) : (bootFrom (warmReset s) fw cfg later).house.bootst = 1 ∧
      (bootFrom (warmReset s) fw cfg later).house.part = s.house.part := by
  obtain ⟨mreg, house, -⟩ := recordMeasured_house s fw cfg
  obtain ⟨last, kept⟩ := (laterStages_later later
    (disableAll { recordMeasured s fw cfg with house := { (recordMeasured s fw cfg).house with bootst := 1 } })).house
  rw [bootFrom_refused signed refused, kept]
  refine ⟨rfl, ?_⟩
  show (recordMeasured s fw cfg).house.part = _
  rw [house]
  rfl

theorem bootFrom_accepted_house {fw cfg : List Byte} {later : List (Nat × BitVec 256)} {s : State} (signed : Config.signatureOk fw = true)
    (accepted : recordAccepted s cfg) :
    (bootFrom (warmReset s) fw cfg later).house.bootst = 0 ∧
      (bootFrom (warmReset s) fw cfg later).house.part = Config.recordPart cfg % 65536 ∧
      (bootFrom (warmReset s) fw cfg later).house.hbm = partHbm (bootFrom (warmReset s) fw cfg later).house.part ∧
      (bootFrom (warmReset s) fw cfg later).house.recVersion = Config.recordVersion cfg := by
  obtain ⟨mreg, house, -⟩ := recordMeasured_house s fw cfg
  obtain ⟨last, kept⟩ := (laterStages_later later (applyRecord (recordMeasured s fw cfg) cfg)).house
  rw [bootFrom_accepted signed accepted, kept]
  refine ⟨?_, rfl, rfl, rfl⟩
  show (recordMeasured s fw cfg).house.bootst = _
  rw [house]
  rfl

/-! ### The loss of power, reports and folds (R403, R450, R454) -/

theorem losePower_byte (s : State) (p : Nat) : (losePower s).mem.byte p = if outside p = true then s.mem.byte p else 0 := by
  show Tbl.getD (List.filter (fun x => outside x.1) s.mem) Memory.blank p = _
  rw [Tbl.getD, Tbl.find?_filter_key s.mem outside p]
  split <;> rfl

theorem attestation_signed {nonce : List Byte} {s : State} (whole : s.recovery = false) : ∃ sig : List Byte, sig.length = 384 ∧
    execAttestationRequest nonce s = .next { s with replies := s.replies ++ [{ off := 0, data := attestBody s nonce ++ sig }] } := by
  refine ⟨(List.range 384).map ((Config.attest (attestBody s nonce)).getD · 0), ?_, ?_⟩
  · rw [List.length_map, List.length_range]
  · simp only [execAttestationRequest, whole, Bool.false_eq_true, ↓reduceIte]

theorem lifetimeFold_whole {s : State} (whole : s.recovery = false) : execLifetimeFold s = .next { s with house := { s.house with
    banks := s.house.banks.set (s.house.lseq.toNat % 2) (foldCounts s), lseq := s.house.lseq + 1, foldAt := s.now } } := by
  simp only [execLifetimeFold, whole, Bool.false_eq_true, ↓reduceIte]

theorem lifetimeFold_banks {s : State} (whole : s.recovery = false) (two : s.house.banks.length = 2) :
    ∃ t, execLifetimeFold s = .next t ∧ t.house.lseq = s.house.lseq + 1 ∧ t.house.foldAt = s.now ∧
      t.house.banks[s.house.lseq.toNat % 2]? = some (foldCounts s) ∧
      t.house.banks[(s.house.lseq.toNat + 1) % 2]? = s.house.banks[(s.house.lseq.toNat + 1) % 2]? := by
  have listed : s.house.lseq.toNat % 2 < s.house.banks.length := by rw [two]; exact Nat.mod_lt _ Nat.two_pos
  have other : s.house.lseq.toNat % 2 ≠ (s.house.lseq.toNat + 1) % 2 := by omega
  exact ⟨_, lifetimeFold_whole whole, rfl, rfl, List.getElem?_set_self listed, List.getElem?_set_ne other⟩

/-- Settles O39: each event by its conditions, a boot by what its signatures and the record's version say. -/
theorem deviceEventsComplete : Obligations.DeviceEventsComplete := by
  unfold Obligations.DeviceEventsComplete
  intro core n temp a mv fw cfg nonce later s
  refine ⟨thermalReading_completes core n temp s, fun due own resident => ?_, thermalMigrationComplete_ends,
    ⟨_, rfl, bootFrom_mreg fw cfg later s, bootFrom_unsigned_house, bootFrom_refused_house, bootFrom_accepted_house⟩,
    fun recovery => ⟨congrArg Host.Outcome.next (if_pos recovery), congrArg Host.Outcome.next (if_pos recovery)⟩,
    attestation_signed, lifetimeFold_banks, ⟨_, rfl, rfl, rfl, rfl, rfl, rfl, rfl, rfl, losePower_byte s⟩⟩
  refine ⟨_, thermalMigrationStart_begins due own, ?_⟩
  subst own
  exact startMove_resident resident

end Sys2Proof.Machine
end
